-- ==== Sys2Proof/Word.lean ====
section
/-! DEFINITION. The words of the machine (spec 00_scope.md R6): 32-bit register cells and instruction words, 64-bit pairs and
addresses, bytes; all little-endian. -/

namespace Sys2Proof

/-- A register cell, a scratchpad bank word, an instruction word. -/
abbrev Word := BitVec 32

/-- A pair of registers, a doubleword, a 64-bit address value. -/
abbrev Dword := BitVec 64

abbrev Byte := BitVec 8

end Sys2Proof
end

