-- ==== Sys2Proof/Config.lean ====
section
/-! DEFINITION. What the spec leaves open and this model does not choose: opaque constants. Nothing in Lean can evaluate one or
prove a value of it. Each names the rule that leaves it open and the log row that says so. -/

namespace Sys2Proof.Config

/-- The byte that a read under a key returns of a byte last written under another key (R325): the address, the 16-byte cipher block around
it with each byte's key, and the reading key decide it, since it is the stored form decrypted. Log 11, DESIGN CHOICE. -/
opaque wrongKeyByte : Nat → List (Byte × Option (Nat × Nat)) → Nat × Nat → Byte

/-- The set of an L2 that holds a line: a hash of its address that the spec does not give (R254). Log 24, DESIGN CHOICE. -/
opaque l2Set : Nat → Nat

/-- Which of the values that R116 allows a special-function word returns, by function code, type code and operand: equal inputs
give equal results (R116). Log 12, DESIGN CHOICE. -/
opaque specialPick : Nat → Nat → Word → Nat

/-- The core of a partition nearest a home (R46): mesh positions are not given. Arguments: the partition, then the home (a number
that names an HBM stack or a die's hub link). Log 13, DESIGN CHOICE. -/
opaque nearestCore : Nat → Nat → Nat

/-- The leaf of a run that an access translates through where CONTIG is set on a run that breaks its rule (R297), for the n-th such
access. Log 23, DESIGN CHOICE. -/
opaque contigLeaf : Nat → Nat

/-- The HBM stack of a die that holds a tier-0 page (R46), by physical page number. Log 13, DESIGN CHOICE. -/
opaque homeStack : Nat → Nat

/-- SHA-384 (R314, R315): an external standard's function, uninterpreted here. Log 14, DESIGN CHOICE. -/
opaque sha384 : List Byte → List Byte

/-- ECDSA P-384 verification of a signature over a digest under a public key (R314, R316). Log 14, DESIGN CHOICE. -/
opaque ecdsaVerify : List Byte → List Byte → List Byte → Bool

/-- Whether an uncompressed public key is a point of the P-384 curve (R356). Log 14, DESIGN CHOICE. -/
opaque onCurve : List Byte → Bool

/-- The n-th value that is reported, of a management sensor by its number (R347). Log 15, DESIGN CHOICE. -/
opaque sensorValue : Nat → Nat → Word

/-- The n-th attestation answer (R344, R347). Log 15, DESIGN CHOICE. -/
opaque attestationAnswer : Nat → Word

/-- The place among a core's 2048 that the n-th accepted copy record takes, taken modulo the free places (R210). Log 16, DESIGN CHOICE. -/
opaque ticketPlace : Nat → Nat

/-- Which of the slices and columns that a gather reads the n-th uncorrectable error of a gather meets (R228). Log 119, DESIGN CHOICE. -/
opaque failedRun : Nat → Nat

/-- The n-th reading of a counter of a hart's core (R340, R350). Log 128, DESIGN CHOICE. -/
opaque hartCounter : Nat → Dword

/-- The time that a hart reads, by the clock (R340): its rate is not given. Log 128, DESIGN CHOICE. -/
opaque hartTime : Nat → Dword

/-- The interrupt file whose page has a number of 4 KiB pages of package addresses, as its hart and its file (R340, R352): the spec gives
the files no addresses. Log 148, DESIGN CHOICE. -/
opaque imsicFile : Nat → Option (Nat × Nat)

/-- Whether an agnostic byte of a vector register takes ones instead of staying as it is, by the word's number and the byte (R340). Log 149,
PRESUMED. -/
opaque agnosticOnes : Nat → Nat → Bool

/-- The clocks after which a WRS.STO ends at the latest (R275). Log 128, DESIGN CHOICE. -/
opaque wrsBound : Nat

/-- Which counter of the full access-counter cache the n-th new one evicts (R305). Log 26, DESIGN CHOICE. -/
opaque counterVictim : Nat → Nat

end Sys2Proof.Config
end

