-- ==== Sys2Proof/Syntax.lean ====
section
/-! DEFINITION. The instructions: one constructor for each of the 280 rows of spec/opcode_table.json. The first 176 are Usxel words
(03_instruction_words.md R57, R72), four of them words that modify the next one; two are words of the host-die harts (R340); the
rest are the part's other steps, whose operands name what the step acts on. -/

namespace Sys2Proof

/-- Format RR (R57): chain bit, NW, D, MA, SA, MB, SB. -/
structure RR where
  c : Bool
  nw : Bool
  d : BitVec 7
  ma : Bool
  sa : BitVec 7
  mb : Bool
  sb : BitVec 7
  deriving DecidableEq, Repr

/-- Format CP (R57): P in place of NW. -/
structure CP where
  c : Bool
  p : Bool
  d : BitVec 7
  ma : Bool
  sa : BitVec 7
  mb : Bool
  sb : BitVec 7
  deriving DecidableEq, Repr

/-- Format RI (R57). -/
structure RI where
  c : Bool
  nw : Bool
  d : BitVec 7
  ma : Bool
  sa : BitVec 7
  imm : BitVec 8
  deriving DecidableEq, Repr

/-- Format RU with the function field fixed by the row (R57, R127). -/
structure RU where
  c : Bool
  nw : Bool
  d : BitVec 7
  ma : Bool
  sa : BitVec 7
  deriving DecidableEq, Repr

/-- Format SF with the function field fixed by the row (R57, R142). -/
structure SF where
  c : Bool
  nw : Bool
  d : BitVec 7
  ma : Bool
  sa : BitVec 7
  ec : BitVec 2
  ty : BitVec 3
  deriving DecidableEq, Repr

/-- Format MM (R57, R183). -/
structure MM where
  c : Bool
  d : BitVec 7
  bp : BitVec 5
  ss : BitVec 3
  rh : BitVec 2
  we : Bool
  ws : BitVec 3
  sz : BitVec 3
  deriving DecidableEq, Repr

/-- Format MA with AOP fixed by the row (R57, R191). -/
structure MAt where
  c : Bool
  d : BitVec 7
  bp : BitVec 5
  ss : BitVec 3
  sc : BitVec 2
  ty : BitVec 3
  deriving DecidableEq, Repr

/-- Format E with FN and K6 fixed by the row, or K6 apart (R57). -/
structure EF where
  c : Bool
  d : BitVec 7
  sa : BitVec 7
  deriving DecidableEq, Repr

/-- Format X of a word that names two registers (R218). -/
structure XF where
  c : Bool
  ec : BitVec 2
  ls : BitVec 2
  sa : BitVec 7
  sb : BitVec 7
  deriving DecidableEq, Repr

/-- The three registers of a CXL decoder (R346). -/
inductive HdmReg
  | base | size | device
  deriving DecidableEq, Repr

/-- The instructions and steps of the part, in the order of the opcode table. -/
inductive Instr
  -- integer, R124
  | addI32 (o : RR) | subI32 (o : RR) | mulI32 (o : RR) | mulhI32 (o : RR) | mulhN32 (o : RR) | madI32 (o : RR)
  | minI32 (o : RR) | minN32 (o : RR) | maxI32 (o : RR) | maxN32 (o : RR) | andW (o : RR) | orW (o : RR) | xorW (o : RR)
  | shl (o : RR) | shrN32 (o : RR) | shrI32 (o : RR) | rotl (o : RR) | rotr (o : RR)
  | bfxN32 (o : RR) | bfxI32 (o : RR) | bfi (o : RR) | sel (o : RR)
  -- compare, R128
  | cmpEqI32 (o : CP) | cmpNeI32 (o : CP) | cmpLtI32 (o : CP) | cmpLtN32 (o : CP) | cmpLeI32 (o : CP) | cmpLeN32 (o : CP)
  -- pairs and bit permutation, R129 to R132
  | addI64 (o : RR) | subI64 (o : RR) | shlI64 (o : RR) | shrN64 (o : RR) | shrI64 (o : RR)
  | bdep (o : RR) | bext (o : RR) | bperm (o : RR) | gfm8 (o : RR)
  -- immediates, R126
  | addi (o : RI) | andi (o : RI) | ori (o : RI) | xori (o : RI) | shli (o : RI) | shriN32 (o : RI) | shriI32 (o : RI)
  | movi (c nw : Bool) (d : BitVec 7) (imm : BitVec 16)
  -- integer unary, R127
  | absI32 (o : RU) | negI32 (o : RU) | notW (o : RU) | clz (o : RU) | popc (o : RU) | brev (o : RU) | mov (o : RU)
  -- floating point, R133, R134
  | addF32 (o : RR) | subF32 (o : RR) | mulF32 (o : RR) | fmaF32 (o : RR) | minF32 (o : RR) | maxF32 (o : RR)
  | minnumF32 (o : RR) | maxnumF32 (o : RR) | scaleF32 (o : RR)
  | cmpEqF32 (o : CP) | cmpLtF32 (o : CP) | cmpLeF32 (o : CP) | cmpUnF32 (o : CP)
  -- conversions, R138, R141
  | cvt (o : RU) (t s : BitVec 4) | rnd (o : RU) (t : BitVec 2)
  -- packed, R135 to R137
  | addBf16 (o : RR) | mulBf16 (o : RR) | fmaBf16 (o : RR) | addF16 (o : RR) | mulF16 (o : RR) | fmaF16 (o : RR)
  | packBf16 (o : RR) | packF16 (o : RR) | dot4E4m3 (o : RR)
  -- cross-lane, R143 (MA is 0)
  | allNz (c nw : Bool) (d sa : BitVec 7) | anyNz (c nw : Bool) (d sa : BitVec 7) | allEq (c nw : Bool) (d sa : BitVec 7)
  | nzmask (c nw : Bool) (d sa : BitVec 7)
  | scanInc (c nw : Bool) (d sa : BitVec 7) (op : BitVec 5) | scanExc (c nw : Bool) (d sa : BitVec 7) (op : BitVec 5)
  | reduce (c nw : Bool) (d sa : BitVec 7) (op : BitVec 5) | lcnt (c nw : Bool) (d sa : BitVec 7)
  -- special functions, R142
  | exp (o : SF) | log (o : SF) | rcp (o : SF) | rsqrt (o : SF) | sqrt (o : SF) | sin (o : SF) | cos (o : SF) | tanh (o : SF)
  -- loads, stores, prefetch, spill, fill, scale load, R183, R241
  | ld (o : MM) | st (o : MM) | lds (o : MM) | sts (o : MM) | ldw (o : MM)
  | pf (c : Bool) (bp : BitVec 5) (rh : BitVec 2) (we : Bool) (ws : BitVec 3) (l2 : Bool)
  | spill (o : MM) | fill (o : MM) | scld (o : MM)
  -- atomics and reductions, R191
  | atomAdd (o : MAt) | atomMin (o : MAt) | atomMax (o : MAt) | atomAnd (o : MAt) | atomOr (o : MAt) | atomXor (o : MAt)
  | atomExch (o : MAt) | atomCas (o : MAt)
  | redAdd (o : MAt) | redMin (o : MAt) | redMax (o : MAt) | redAnd (o : MAt) | redOr (o : MAt) | redXor (o : MAt)
  | kvres (o : EF)
  | fence (c : Bool) (sc : BitVec 2)
  -- barrier words, R203
  | barInit (c : Bool) (sa : BitVec 7) (k : BitVec 6) | barArrive (o : EF) (k : BitVec 6)
  | barExpect (c : Bool) (sa : BitVec 7) (k : BitVec 6)
  | barWait (o : EF) (k : BitVec 4) | barTest (o : EF) (k : BitVec 4) | barInval (c : Bool) (sa : BitVec 7)
  -- engine words, R217
  | kick (o : EF) | cstat (o : EF) | commit (o : EF) (l : BitVec 2)
  | cln (c : Bool) (sa : BitVec 7) (k : BitVec 6) | inv (c : Bool) (sa : BitVec 7) (k : BitVec 6)
  | clninv (c : Bool) (sa : BitVec 7) (k : BitVec 6)
  | place (o : EF) (n : BitVec 4) (t : BitVec 2) | pin (o : EF) | unpin (o : EF)
  -- matrix, R229, R232, R238, R240, R244, R245
  | mma (o : XF) (p : BitVec 4) | mmaSp (o : XF) (p : BitVec 4)
  | smm (o : XF) (ty : BitVec 2) (ent : BitVec 4) | smmSp (o : XF) (ty : BitVec 2) (ent : BitVec 4)
  | opld (c : Bool) (ec : BitVec 2) (sa : BitVec 7) (n : BitVec 3)
  | mzero (c : Bool) (ec ls : BitVec 2)
  | mfillF32 (c : Bool) (ec ls : BitVec 2) (ent : BitVec 4) | mfillI32 (c : Bool) (ec ls : BitVec 2) (ent : BitVec 4)
  | mtosp (o : XF)
  | mpld (c : Bool) (ec : BitVec 2) (sa : BitVec 7)
  | mclass (c : Bool) (ec : BitVec 2) (sa sb : BitVec 7) | mbits (c : Bool) (ec : BitVec 2) (sa sb : BitVec 7)
  -- control, R150 to R154
  | bz (c : Bool) (sa : BitVec 7) (off : BitVec 15) | bnz (c : Bool) (sa : BitVec 7) (off : BitVec 15)
  | bps (c : Bool) (k : BitVec 5) (off : BitVec 15) | bpc (c : Bool) (k : BitVec 5) (off : BitVec 15)
  | jmp (c : Bool) (off : BitVec 24) | call (c : Bool) (fr : BitVec 7) (off : BitVec 17)
  | calli (c : Bool) (fr sa : BitVec 7) | jmpi (c : Bool) (sa : BitVec 7) | ret (c : Bool)
  | spawn (c : Bool) (d sa : BitVec 7) (off : BitVec 10)
  -- convergence, R156
  | topen (c : Bool) (t : BitVec 4) | fuse (c : Bool) (t : BitVec 4) | leave (c : Bool) (t : BitVec 4)
  -- system, R157
  | nop (c : Bool) | endFibre (c : Bool) | yield (c : Bool) | trigger (c : Bool) | pass (c : Bool)
  | brk (c : Bool) (imm : BitVec 16) | trap (c : Bool) (imm : BitVec 16)
  | relocate (o : EF) | wsb (c : Bool) (m : BitVec 8)
  -- control registers and predicate moves, R163, R169
  | csrr (c : Bool) (r : BitVec 7) (n : BitVec 12) | csrw (c : Bool) (r : BitVec 7) (n : BitVec 12)
  | csrs (c : Bool) (r : BitVec 7) (n : BitVec 12) | csrc (c : Bool) (r : BitVec 7) (n : BitVec 12)
  | rdpw (c : Bool) (r : BitVec 7) | wrpw (c : Bool) (r : BitVec 7)
  -- words that modify the next one, R63 to R71
  | rep (nr nc : BitVec 5) (ca cb : Bool) (rsd rsa rsb : BitVec 4)
  | xl (pat : BitVec 3) (k : BitVec 6) (fill : Bool) | grd (sense : Bool) (bit : BitVec 5) | ext (imm : BitVec 24)
  -- host-die harts, R340
  | nsubmit (vs2 rs1 rd : BitVec 5) | nuret
  -- traps and their delivery, R171
  | groupPark (gid : Nat) | trapQueueEnter (core : Nat)
  -- accesses, fetch, relocation, barriers, starvation
  | accessFinish (id : Nat) (err : Bool) | spillEntryWritten (id : Nat) | instructionFetch (gid lane : Nat)
  | relocateMove (gid : Nat) | barWaitWake (gid lane : Nat) | barWaitBoundExpiry (gid lane : Nat)
  | groupStarved (gid : Nat) | fibreStarved (gid lane : Nat)
  -- engines and the matrix unit
  | copyBegin (id : Nat) | copyWordTransfer (id : Nat) (err : Bool)
  | matrixGatherComplete (quarter : Nat) (err : Bool) | matrixExecute (quarter : Nat) | matrixExecuteComplete (quarter : Nat)
  | landingExecute (quarter : Nat) | mtospRowWrite (quarter : Nat) | commitWriteback (id : Nat)
  | opldLoadDone (id : Nat) | mpldLoadDone (id : Nat)
  | streetDirectoryInstall (die f index : Nat) | sdinvGo (f : Nat) (value : Dword) | sdinvComplete (f : Nat)
  | avenueSlot (die : Nat) | refreshWindowEnd (die : Nat)
  -- submission and command lists
  | submitDmw (f q offset : Nat) (record : List Dword) | submissionPageStore (f q offset : Nat) | dispatchRecord (f q : Nat)
  | cmdLaunch (f q : Nat) | cmdCopy (f q : Nat) | cmdWaitOnValue (f q : Nat) | waitOnValuePoll (f q : Nat)
  | cmdSignal (f q : Nat) | cmdSkipIf (f q : Nat) | cmdJump (f q : Nat) | cmdCall (f q : Nat) | cmdReturn (f q : Nat)
  | cmdSeal (f q : Nat) | cmdOpen (f q : Nat) | cmdRelease (f q : Nat) | cmdNotify (f q : Nat)
  | regionCommandEffect (id : Nat)
  -- admission
  | launchReady (uid : Nat) | positionAdmit (uid : Nat) | admissionWaitExpiry (uid : Nat) | residencyTimeout (uid : Nat)
  | refillPoint (die : Nat)
  -- translation
  | tlbinvGo (f : Nat) (value : Dword) | tlbinvComplete (f : Nat)
  | atsInvalidateRequest (pasid : BitVec 20) (va : Dword) (pages : Nat)
  | atsTranslationCompletion (pasid : BitVec 20) (va hpa : Dword) (rd wr ex : Bool)
  | priPageResponse (pasid : BitVec 20) (va : Dword) (ok : Bool)
  | rbcmdReplay (core entry : Nat) | rbcmdAbandon (core entry : Nat) | rbcmdAbandonPageTrap (core entry : Nat)
  -- migration and the pool
  | accessCounterThreshold (guest : Nat) (pasid : BitVec 20) (page : Nat)
  | migrationStart | migrationCopyDone (id : Nat) | migrationSwitch (id : Nat) | migrationEnd (id : Nat)
  | needByExpiry (id : Nat) | coolingExpiry (key : Nat) | backInvalidate (pa : Nat) | pageHandoverComplete (pa : Nat)
  -- contexts and pre-emption
  | timeSliceExpiry (p : Nat) | contextSwitch (p : Nat) | groupSave (gid : Nat) | preemptGraceExpiry (id : Nat)
  | preemptKillExpiry (id : Nat) | contextRestore (p : Nat)
  -- register writes
  | pquotaWrite (p : Nat) (v : Dword) | pshareWrite (p : Nat) (v : Dword) | vfbindWrite (vf : Nat) (v : Dword)
  | pfbindWrite (v : Dword) | kslotReset (k : Nat) | kslotResetDone (k : Nat) | ebctlWrite (f : Nat) (v : Dword)
  | sqcfgWrite (f q : Nat) (v : Dword) | sqcfgEnd (f q : Nat) | cxlhdmWrite (port dec : Nat) (r : HdmReg) (v : Dword)
  | fctlReset (f : Nat) | registerWrite (f offset : Nat) (v : Dword) | errstatPop (f : Nat) | errstatOvfClear (f : Nat)
  | kbootGo (v : Dword) | rtpkcLoad (v : Dword) | rtpkcLoadDone
  -- kiosks
  | tqpop (core : Nat) | mbbell (core : Nat) (v : Dword) | wincmdRelease (core : Nat) | wincmdEnd (core : Nat)
  | wincmdEnterSingleStep (core : Nat) | wincmdLeaveSingleStep (core : Nat) | wincmdReleaseFibre (core lane : Nat)
  | windowWrite (core offset : Nat) (v : Dword)
  -- host die, bring-up, management
  | userTrapTake (hart : Nat) | powerOn (imageOk : Bool) | itemReady (item : Nat) (failed : Bool)
  | pldmMonitorControl (message : Nat) | pldmFirmwareUpdate (imageOk : Bool) | spdmMessage (message : Nat)
  | ownerPreemptionCommand (f : Nat)
  deriving DecidableEq, Repr

end Sys2Proof
end

