-- ==== Sys2Proof/WellFormed.lean ====
section
/-! DEFINITION. Which terms of Instr are instructions: the codes that R58, R59, R60, R74, R75 and the owning rules mark illegal, each
under a name of its own. What depends on the prefixes before a word, on the chain or on the machine is not here. -/

namespace Sys2Proof

/-- Why a term is no instruction of the part. Each raises the illegal-instruction trap (R78). -/
inductive Ill
  | destCode | nwDest | latchModifier | srcCode | pairOdd | latchPair | quadCode | predDest | waitSlot | sizeCode | hint
  | cvtCode | rndCode | crossOp | typeCode | atomicCode | pairCode | frameSize | placeTier | xlPattern | repCount
  deriving DecidableEq, Repr

/-- The first failing check of a list of named checks. -/
def firstIll : List (Bool × Ill) → Option Ill
  | [] => none
  | (ok, e) :: rest => if ok then firstIll rest else some e

/-- One named check. -/
def need (ok : Bool) (e : Ill) : List (Bool × Ill) := [(ok, e)]

/-- How an operand field reads its registers (R58, R120). -/
inductive Shape
  | single | pair | quad | block12
  deriving DecidableEq, Repr

/-- The register shapes of a word's D, SA and SB. -/
structure Shapes where
  d : Shape := .single
  a : Shape := .single
  b : Shape := .single
  deriving DecidableEq, Repr

/-- How many registers an operand of a shape covers (R120). -/
def Shape.count : Shape → Nat
  | .single => 1
  | .pair => 2
  | .quad => 4
  | .block12 => 12

/-- The parity of a destination or memory operand code (R58). -/
def codeFits (sh : Shape) (x : BitVec 7) : Bool :=
  match sh with
  | .single => true
  | .pair => x.toNat % 2 == 0
  | .quad => x.toNat % 4 == 0
  | .block12 => x.toNat % 2 == 0

/-- The checks of a destination register (R58, R59). -/
def destChecks (sh : Shape) (nw : Bool) (d : BitVec 7) : List (Bool × Ill) :=
  (need (d.toNat < 120) .destCode ++ need (!nw || d == 0) .nwDest ++ need (codeFits sh d) (if sh == .quad then .quadCode else .pairOdd))

/-- The checks of a source that may name a latch when it is single (R58, R60, R120). -/
def sourceChecks (sh : Shape) (m : Bool) (s : BitVec 7) : List (Bool × Ill) :=
  (need (!m || s.toNat < 120) .latchModifier ++ need (sh == .single || s.toNat < 120) .latchPair ++ need (codeFits sh s) .pairOdd)

/-- The checks of a source that names a register only (R58). -/
def regChecks (sh : Shape) (s : BitVec 7) : List (Bool × Ill) :=
  (need (s.toNat < 120) .srcCode ++ need (codeFits sh s) .pairOdd)

def illRR (sh : Shapes) (o : RR) : Option Ill :=
  firstIll (destChecks sh.d o.nw o.d ++ sourceChecks sh.a o.ma o.sa ++ sourceChecks sh.b o.mb o.sb)

def illCP (o : CP) : Option Ill :=
  firstIll ((need (if o.p then o.d.toNat < 32 else true) .predDest ++ need (o.p || o.d.toNat < 120) .destCode)
    ++ sourceChecks .single o.ma o.sa ++ sourceChecks .single o.mb o.sb)

def illRI (o : RI) : Option Ill := firstIll (destChecks .single o.nw o.d ++ sourceChecks .single o.ma o.sa)

/-- R126: bits [7:5] of the count of the immediate shifts are 0. -/
def illShift (o : RI) : Option Ill :=
  firstIll (destChecks .single o.nw o.d ++ sourceChecks .single o.ma o.sa ++ (need (o.imm.toNat < 32) .sizeCode))

def illRU (o : RU) : Option Ill := firstIll (destChecks .single o.nw o.d ++ sourceChecks .single o.ma o.sa)

def illSF (o : SF) : Option Ill :=
  firstIll (destChecks .single o.nw o.d ++ sourceChecks .single o.ma o.sa ++ (need (o.ty.toNat ≤ 2) .typeCode))

/-- The format that a target code of R138 writes: the saturating codes name the formats 3, 4, 1 and 2. -/
def cvtTargetFormat (t : Nat) : Nat :=
  match t with
  | 10 => 3
  | 11 => 4
  | 12 => 1
  | 13 => 2
  | n => n

/-- R138: the pairs of type codes that are conversions. -/
def cvtOk (t s : Nat) : Bool :=
  s ≤ 9 && t ≤ 13 && !(t == s && s ≤ 9) && !(10 ≤ t && cvtTargetFormat t == s)

/-- The cross-lane words (R143): MA is 0 by format; SA may name a latch. -/
def illCross (dsh : Shape) (nw : Bool) (d sa : BitVec 7) (op : Nat) : Option Ill :=
  firstIll (destChecks dsh nw d ++ sourceChecks .single false sa ++ (need (op ≤ 10) .crossOp))

/-- The register shape of an SZ code (R58, R183). -/
def sizeShape (sz : Nat) : Shape :=
  match sz with
  | 3 => .pair
  | 4 => .quad
  | _ => .single

/-- A memory word of R183: the sizes it allows and whether it takes a retention hint. -/
def illMM (sizes : List Nat) (hints : Bool) (o : MM) : Option Ill :=
  firstIll ((need (o.we || o.ws == 0) .waitSlot ++ need (sizes.contains o.sz.toNat) .sizeCode ++ need (hints || o.rh == 0) .hint)
    ++ destChecks (sizeShape o.sz.toNat) false o.d)

/-- R241: SZ selects the source of a scale load, and D is a multiple of 4. -/
def illScld (o : MM) : Option Ill :=
  firstIll ((need (o.we || o.ws == 0) .waitSlot ++ need (o.sz.toNat ≤ 2) .sizeCode ++ need (o.sz == 0 || o.rh == 0) .hint)
    ++ destChecks .quad false o.d)

/-- R191, R192: the operand registers and type codes of an atomic or reduction; cas and exch take integer types only. -/
def illAtomic (aop : Nat) (o : MAt) : Option Ill :=
  firstIll ((need (o.ty.toNat ≤ 4) .typeCode ++ need (!(o.ty.toNat == 4 && 3 ≤ aop)) .atomicCode)
    ++ destChecks (if o.ty.toNat == 2 || o.ty.toNat == 3 then (if aop == 7 then .quad else .pair)
        else if aop == 7 then .pair else .single) false o.d)

/-- Format E words by the shapes of D and SA (R58, R203, R217). -/
def illEF (dsh ash : Shape) (o : EF) : Option Ill := firstIll (destChecks dsh false o.d ++ regChecks ash o.sa)

def illXF (o : XF) : Option Ill := firstIll (regChecks .single o.sa ++ regChecks .single o.sb)

/-- R151: a frame size is even and from 2 to 126. -/
def frameOk (fr : BitVec 7) : Bool := fr.toNat % 2 == 0 && 2 ≤ fr.toNat

/-- The reason why a term is not an instruction, none when it is one. -/
def Instr.illFormed : Instr → Option Ill
  | .addI32 o | .subI32 o | .mulI32 o | .mulhI32 o | .mulhN32 o | .madI32 o | .minI32 o | .minN32 o | .maxI32 o | .maxN32 o
  | .andW o | .orW o | .xorW o | .shl o | .shrN32 o | .shrI32 o | .rotl o | .rotr o | .bfxN32 o | .bfxI32 o | .bfi o | .sel o =>
      illRR {} o
  | .cmpEqI32 o | .cmpNeI32 o | .cmpLtI32 o | .cmpLtN32 o | .cmpLeI32 o | .cmpLeN32 o => illCP o
  | .addI64 o | .subI64 o | .bdep o | .bext o | .gfm8 o => illRR { d := .pair, a := .pair, b := .pair } o
  | .shlI64 o | .shrN64 o | .shrI64 o => illRR { d := .pair, a := .pair } o
  | .bperm o => illRR { d := .pair, a := .pair, b := .block12 } o
  | .addi o | .andi o | .ori o | .xori o => illRI o
  | .shli o | .shriN32 o | .shriI32 o => illShift o
  | .movi _ nw d _ => firstIll (destChecks .single nw d)
  | .absI32 o | .negI32 o | .notW o | .clz o | .popc o | .brev o | .mov o => illRU o
  | .addF32 o | .subF32 o | .mulF32 o | .fmaF32 o | .minF32 o | .maxF32 o | .minnumF32 o | .maxnumF32 o | .scaleF32 o =>
      illRR {} o
  | .cmpEqF32 o | .cmpLtF32 o | .cmpLeF32 o | .cmpUnF32 o => illCP o
  | .cvt o t s => (illRU o).orElse fun _ => firstIll (need (cvtOk t.toNat s.toNat) .cvtCode)
  | .rnd o t => (illRU o).orElse fun _ => firstIll (need (t.toNat ≤ 2) .rndCode)
  | .addBf16 o | .mulBf16 o | .fmaBf16 o | .addF16 o | .mulF16 o | .fmaF16 o | .packBf16 o | .packF16 o | .dot4E4m3 o =>
      illRR {} o
  | .allNz _ nw d sa | .anyNz _ nw d sa | .allEq _ nw d sa | .lcnt _ nw d sa => illCross .single nw d sa 0
  | .nzmask _ nw d sa => illCross .pair nw d sa 0
  | .scanInc _ nw d sa op | .scanExc _ nw d sa op | .reduce _ nw d sa op => illCross .single nw d sa op.toNat
  | .exp o | .log o | .rcp o | .rsqrt o | .sqrt o | .sin o | .cos o | .tanh o => illSF o
  | .ld o => illMM [0, 1, 2, 3, 4, 5, 6] true o
  | .st o => illMM [0, 1, 2, 3, 4] true o
  | .lds o | .ldw o => illMM [0, 1, 2, 3, 4, 5, 6] false o
  | .sts o => illMM [0, 1, 2, 3, 4] false o
  | .pf _ _ _ we ws _ => firstIll (need (we || ws == 0) .waitSlot)
  | .spill o | .fill o => illMM [2, 4] false o
  | .scld o => illScld o
  | .atomAdd o | .redAdd o => illAtomic 0 o
  | .atomMin o | .redMin o => illAtomic 1 o
  | .atomMax o | .redMax o => illAtomic 2 o
  | .atomAnd o | .redAnd o => illAtomic 3 o
  | .atomOr o | .redOr o => illAtomic 4 o
  | .atomXor o | .redXor o => illAtomic 5 o
  | .atomExch o => illAtomic 6 o
  | .atomCas o => illAtomic 7 o
  | .kvres o => illEF .pair .pair o
  | .fence _ _ => none
  | .barInit _ sa _ | .barExpect _ sa _ | .barInval _ sa => firstIll (regChecks .single sa)
  | .barArrive o _ => illEF .single .single o
  | .barWait o _ | .barTest o _ => illEF .single .single o
  | .kick o | .cstat o => illEF .single .single o
  | .commit o _ => illEF .single .single o
  | .cln _ sa _ | .inv _ sa _ | .clninv _ sa _ => firstIll (regChecks .pair sa)
  | .place o _ t => (illEF .single .pair o).orElse fun _ => firstIll (need (t.toNat ≤ 2) .placeTier)
  | .pin o | .unpin o => illEF .single .pair o
  | .mma o p | .mmaSp o p => (illXF o).orElse fun _ => firstIll (need (p.toNat ≤ 8) .pairCode)
  | .smm o _ _ => illXF o
  | .smmSp o ty _ => (illXF o).orElse fun _ => firstIll (need (ty.toNat ≤ 2) .typeCode)
  | .mtosp o => illXF o
  | .opld _ _ sa _ | .mpld _ _ sa => firstIll (regChecks .single sa)
  | .mzero .. | .mfillF32 .. | .mfillI32 .. => none
  | .mclass _ _ sa sb => firstIll (regChecks .single sa ++ regChecks .single sb)
  | .mbits _ _ sa sb => firstIll (regChecks .single sa ++ regChecks .pair sb)
  | .bz _ sa _ | .bnz _ sa _ => firstIll (regChecks .single sa)
  | .bps .. | .bpc .. | .jmp .. => none
  | .call _ fr _ => firstIll (need (frameOk fr) .frameSize)
  | .calli _ fr sa => firstIll (need (frameOk fr) .frameSize ++ regChecks .pair sa)
  | .jmpi _ sa => firstIll (regChecks .pair sa)
  | .ret _ => none
  | .spawn _ d sa _ => firstIll (destChecks .single false d ++ regChecks .single sa)
  | .topen .. | .fuse .. | .leave .. => none
  | .nop _ | .endFibre _ | .yield _ | .trigger _ | .pass _ | .brk .. | .trap .. => none
  | .relocate o => illEF .single .pair o
  | .wsb .. => none
  | .csrr _ r _ | .csrw _ r _ | .csrs _ r _ | .csrc _ r _ => firstIll (regChecks .single r)
  | .rdpw _ r | .wrpw _ r => firstIll (regChecks .single r)
  | .rep nr nc _ _ _ _ _ => firstIll (need (nr.toNat ≤ 16 && nc.toNat ≤ 16) .repCount)
  | .xl pat _ _ => firstIll (need (pat.toNat ≤ 4) .xlPattern)
  | .grd .. | .ext _ => none
  | _ => none

/-- A term of Instr is an instruction. -/
def Instr.wf (i : Instr) : Bool := i.illFormed.isNone

end Sys2Proof
end

