-- ==== Sys2Proof/Decode.lean ====
section
/-! DEFINITION. Decoding and encoding the words of the part (R53 to R78) and of the host-die harts (R340 to R342). Both directions are
written from the formats of R57 and the code tables of R72 to R75. The decoder reads the fields of a word's format and then holds the
word against the encoding of what it read, so that a reserved bit or an unassigned code is refused, by name. -/

namespace Sys2Proof

/-- Why a word is no instruction. -/
inductive DecodeError
  | unassigned                 -- no opcode or function code is assigned to it (R74, R75, R78)
  | reservedBits               -- a field that the format marks zero is not zero (R57)
  | illFormed (why : Ill)      -- a field holds a code marked illegal (R58 to R60)
  | truncated                  -- fewer bytes than a word
  deriving DecidableEq, Repr

/-- Bits lo to lo + n - 1 of a word. -/
def field (w : Word) (lo n : Nat) : BitVec n := w.extractLsb' lo n

/-- Bit k of a word. -/
def flag (w : Word) (k : Nat) : Bool := w.getLsbD k

def bit (b : Bool) : BitVec 1 := BitVec.ofBool b

def encRR (op : BitVec 7) (o : RR) : Word := bit o.c ++ op ++ bit o.nw ++ o.d ++ bit o.ma ++ o.sa ++ bit o.mb ++ o.sb
def encCP (op : BitVec 7) (o : CP) : Word := bit o.c ++ op ++ bit o.p ++ o.d ++ bit o.ma ++ o.sa ++ bit o.mb ++ o.sb
def encRI (op : BitVec 7) (o : RI) : Word := bit o.c ++ op ++ bit o.nw ++ o.d ++ bit o.ma ++ o.sa ++ o.imm
def encRU (op : BitVec 7) (o : RU) (fn : BitVec 8) : Word := bit o.c ++ op ++ bit o.nw ++ o.d ++ bit o.ma ++ o.sa ++ fn
def encCross (c nw : Bool) (d sa : BitVec 7) (fn : BitVec 8) : Word :=
  bit c ++ (0x46#7) ++ bit nw ++ d ++ (0#1) ++ sa ++ fn
def encSF (o : SF) (fn : BitVec 3) : Word :=
  bit o.c ++ (0x6C#7) ++ bit o.nw ++ o.d ++ bit o.ma ++ o.sa ++ o.ec ++ fn ++ o.ty
def encMM (op : BitVec 7) (o : MM) : Word := bit o.c ++ op ++ o.d ++ o.bp ++ o.ss ++ o.rh ++ bit o.we ++ o.ws ++ o.sz
def encMA (op : BitVec 7) (o : MAt) (aop : BitVec 4) : Word := bit o.c ++ op ++ o.d ++ o.bp ++ o.ss ++ o.sc ++ aop ++ o.ty
def encE (op : BitVec 7) (c : Bool) (d sa : BitVec 7) (fn : BitVec 4) (k : BitVec 6) : Word := bit c ++ op ++ d ++ sa ++ fn ++ k
def encX (op : BitVec 7) (c : Bool) (ec ls : BitVec 2) (sa sb : BitVec 7) (f6 : BitVec 6) : Word :=
  bit c ++ op ++ ec ++ ls ++ sa ++ sb ++ f6
def encB (c : Bool) (cnd : BitVec 2) (sa : BitVec 7) (off : BitVec 15) : Word := bit c ++ (0x70#7) ++ cnd ++ sa ++ off
def encIN (c : Bool) (fn : BitVec 2) (fr sa : BitVec 7) : Word := bit c ++ (0x73#7) ++ fn ++ fr ++ sa ++ (0#8)
def encSY (c : Bool) (fn : BitVec 4) (imm : BitVec 16) : Word := bit c ++ (0x76#7) ++ fn ++ (0#4) ++ imm
def encCV (c : Bool) (fn : BitVec 2) (t : BitVec 4) : Word := bit c ++ (0x75#7) ++ fn ++ (0#18) ++ t
def encCR (c : Bool) (fn : BitVec 2) (r : BitVec 7) (n : BitVec 12) : Word := bit c ++ (0x79#7) ++ fn ++ r ++ (0#3) ++ n
def encPM (c dir : Bool) (r : BitVec 7) : Word := bit c ++ (0x7A#7) ++ bit dir ++ r ++ (0#16)

def rrOf (w : Word) : RR := ⟨flag w 31, flag w 23, field w 16 7, flag w 15, field w 8 7, flag w 7, field w 0 7⟩
def cpOf (w : Word) : CP := ⟨flag w 31, flag w 23, field w 16 7, flag w 15, field w 8 7, flag w 7, field w 0 7⟩
def riOf (w : Word) : RI := ⟨flag w 31, flag w 23, field w 16 7, flag w 15, field w 8 7, field w 0 8⟩
def ruOf (w : Word) : RU := ⟨flag w 31, flag w 23, field w 16 7, flag w 15, field w 8 7⟩
def sfOf (w : Word) : SF := ⟨flag w 31, flag w 23, field w 16 7, flag w 15, field w 8 7, field w 6 2, field w 0 3⟩
def mmOf (w : Word) : MM := ⟨flag w 31, field w 17 7, field w 12 5, field w 9 3, field w 7 2, flag w 6, field w 3 3, field w 0 3⟩
def maOf (w : Word) : MAt := ⟨flag w 31, field w 17 7, field w 12 5, field w 9 3, field w 7 2, field w 0 3⟩
def efOf (w : Word) : EF := ⟨flag w 31, field w 17 7, field w 10 7⟩
def xfOf (w : Word) : XF := ⟨flag w 31, field w 22 2, field w 20 2, field w 13 7, field w 6 7⟩

/-- The word of an instruction of a Usxel stream (R57, R72); none for the other steps of the part. -/
def encode : Instr → Option Word
  | .addI32 o => some (encRR 0x01#7 o)
  | .subI32 o => some (encRR 0x02#7 o)
  | .mulI32 o => some (encRR 0x03#7 o)
  | .mulhI32 o => some (encRR 0x04#7 o)
  | .mulhN32 o => some (encRR 0x05#7 o)
  | .madI32 o => some (encRR 0x06#7 o)
  | .minI32 o => some (encRR 0x07#7 o)
  | .minN32 o => some (encRR 0x08#7 o)
  | .maxI32 o => some (encRR 0x09#7 o)
  | .maxN32 o => some (encRR 0x0a#7 o)
  | .andW o => some (encRR 0x0b#7 o)
  | .orW o => some (encRR 0x0c#7 o)
  | .xorW o => some (encRR 0x0d#7 o)
  | .shl o => some (encRR 0x0e#7 o)
  | .shrN32 o => some (encRR 0x0f#7 o)
  | .shrI32 o => some (encRR 0x10#7 o)
  | .rotl o => some (encRR 0x11#7 o)
  | .rotr o => some (encRR 0x12#7 o)
  | .bfxN32 o => some (encRR 0x13#7 o)
  | .bfxI32 o => some (encRR 0x14#7 o)
  | .bfi o => some (encRR 0x15#7 o)
  | .sel o => some (encRR 0x16#7 o)
  | .addI64 o => some (encRR 0x1d#7 o)
  | .subI64 o => some (encRR 0x1e#7 o)
  | .shlI64 o => some (encRR 0x1f#7 o)
  | .shrN64 o => some (encRR 0x20#7 o)
  | .shrI64 o => some (encRR 0x21#7 o)
  | .bdep o => some (encRR 0x22#7 o)
  | .bext o => some (encRR 0x23#7 o)
  | .bperm o => some (encRR 0x24#7 o)
  | .gfm8 o => some (encRR 0x25#7 o)
  | .addF32 o => some (encRR 0x2f#7 o)
  | .subF32 o => some (encRR 0x30#7 o)
  | .mulF32 o => some (encRR 0x31#7 o)
  | .fmaF32 o => some (encRR 0x32#7 o)
  | .minF32 o => some (encRR 0x33#7 o)
  | .maxF32 o => some (encRR 0x34#7 o)
  | .minnumF32 o => some (encRR 0x35#7 o)
  | .maxnumF32 o => some (encRR 0x36#7 o)
  | .scaleF32 o => some (encRR 0x37#7 o)
  | .addBf16 o => some (encRR 0x3d#7 o)
  | .mulBf16 o => some (encRR 0x3e#7 o)
  | .fmaBf16 o => some (encRR 0x3f#7 o)
  | .addF16 o => some (encRR 0x40#7 o)
  | .mulF16 o => some (encRR 0x41#7 o)
  | .fmaF16 o => some (encRR 0x42#7 o)
  | .packBf16 o => some (encRR 0x43#7 o)
  | .packF16 o => some (encRR 0x44#7 o)
  | .dot4E4m3 o => some (encRR 0x45#7 o)
  | .cmpEqI32 o => some (encCP 0x17#7 o)
  | .cmpNeI32 o => some (encCP 0x18#7 o)
  | .cmpLtI32 o => some (encCP 0x19#7 o)
  | .cmpLtN32 o => some (encCP 0x1a#7 o)
  | .cmpLeI32 o => some (encCP 0x1b#7 o)
  | .cmpLeN32 o => some (encCP 0x1c#7 o)
  | .cmpEqF32 o => some (encCP 0x38#7 o)
  | .cmpLtF32 o => some (encCP 0x39#7 o)
  | .cmpLeF32 o => some (encCP 0x3a#7 o)
  | .cmpUnF32 o => some (encCP 0x3b#7 o)
  | .addi o => some (encRI 0x26#7 o)
  | .andi o => some (encRI 0x27#7 o)
  | .ori o => some (encRI 0x28#7 o)
  | .xori o => some (encRI 0x29#7 o)
  | .shli o => some (encRI 0x2a#7 o)
  | .shriN32 o => some (encRI 0x2b#7 o)
  | .shriI32 o => some (encRI 0x2c#7 o)
  | .movi c nw d imm => some (bit c ++ (0x2D#7) ++ bit nw ++ d ++ imm)
  | .absI32 o => some (encRU 0x2E#7 o 0#8)
  | .negI32 o => some (encRU 0x2E#7 o 1#8)
  | .notW o => some (encRU 0x2E#7 o 2#8)
  | .clz o => some (encRU 0x2E#7 o 3#8)
  | .popc o => some (encRU 0x2E#7 o 4#8)
  | .brev o => some (encRU 0x2E#7 o 5#8)
  | .mov o => some (encRU 0x2E#7 o 6#8)
  | .cvt o t s => some (encRU 0x3C#7 o (t ++ s))
  | .rnd o t => some (encRU 0x3C#7 o ((0#2) ++ t ++ (0#2) ++ t))
  | .allNz c nw d sa => some (encCross c nw d sa 0x00#8)
  | .anyNz c nw d sa => some (encCross c nw d sa 0x20#8)
  | .allEq c nw d sa => some (encCross c nw d sa 0x40#8)
  | .nzmask c nw d sa => some (encCross c nw d sa 0x60#8)
  | .scanInc c nw d sa op => some (encCross c nw d sa ((4#3) ++ op))
  | .scanExc c nw d sa op => some (encCross c nw d sa ((5#3) ++ op))
  | .reduce c nw d sa op => some (encCross c nw d sa ((6#3) ++ op))
  | .lcnt c nw d sa => some (encCross c nw d sa 0xE0#8)
  | .exp o => some (encSF o 0#3)
  | .log o => some (encSF o 1#3)
  | .rcp o => some (encSF o 2#3)
  | .rsqrt o => some (encSF o 3#3)
  | .sqrt o => some (encSF o 4#3)
  | .sin o => some (encSF o 5#3)
  | .cos o => some (encSF o 6#3)
  | .tanh o => some (encSF o 7#3)
  | .ld o => some (encMM 0x50#7 o)
  | .st o => some (encMM 0x51#7 o)
  | .lds o => some (encMM 0x52#7 o)
  | .sts o => some (encMM 0x53#7 o)
  | .ldw o => some (encMM 0x54#7 o)
  | .spill o => some (encMM 0x56#7 o)
  | .fill o => some (encMM 0x57#7 o)
  | .scld o => some (encMM 0x58#7 o)
  | .pf c bp rh we ws l2 => some (encMM 0x55#7 ⟨c, 0, bp, 0, rh, we, ws, (0#2) ++ bit l2⟩)
  | .atomAdd o => some (encMA 0x59#7 o 0#4)
  | .atomMin o => some (encMA 0x59#7 o 1#4)
  | .atomMax o => some (encMA 0x59#7 o 2#4)
  | .atomAnd o => some (encMA 0x59#7 o 3#4)
  | .atomOr o => some (encMA 0x59#7 o 4#4)
  | .atomXor o => some (encMA 0x59#7 o 5#4)
  | .atomExch o => some (encMA 0x59#7 o 6#4)
  | .atomCas o => some (encMA 0x59#7 o 7#4)
  | .redAdd o => some (encMA 0x5A#7 o 0#4)
  | .redMin o => some (encMA 0x5A#7 o 1#4)
  | .redMax o => some (encMA 0x5A#7 o 2#4)
  | .redAnd o => some (encMA 0x5A#7 o 3#4)
  | .redOr o => some (encMA 0x5A#7 o 4#4)
  | .redXor o => some (encMA 0x5A#7 o 5#4)
  | .kvres o => some (encE 0x5B#7 o.c o.d o.sa 0 0)
  | .fence c sc => some (bit c ++ (0x5C#7) ++ sc ++ (0#22))
  | .barInit c sa k => some (encE 0x5D#7 c 0 sa 0 k)
  | .barArrive o k => some (encE 0x5D#7 o.c o.d o.sa 1 k)
  | .barExpect c sa k => some (encE 0x5D#7 c 0 sa 2 k)
  | .barWait o k => some (encE 0x5D#7 o.c o.d o.sa 3 ((0#2) ++ k))
  | .barTest o k => some (encE 0x5D#7 o.c o.d o.sa 4 ((0#2) ++ k))
  | .barInval c sa => some (encE 0x5D#7 c 0 sa 5 0)
  | .kick o => some (encE 0x5E#7 o.c o.d o.sa 0 0)
  | .cstat o => some (encE 0x5E#7 o.c o.d o.sa 1 0)
  | .commit o l => some (encE 0x5E#7 o.c o.d o.sa 2 ((0#4) ++ l))
  | .cln c sa k => some (encE 0x5E#7 c 0 sa 3 k)
  | .inv c sa k => some (encE 0x5E#7 c 0 sa 4 k)
  | .clninv c sa k => some (encE 0x5E#7 c 0 sa 5 k)
  | .place o n t => some (encE 0x5E#7 o.c o.d o.sa 6 (n ++ t))
  | .pin o => some (encE 0x5E#7 o.c o.d o.sa 7 0)
  | .unpin o => some (encE 0x5E#7 o.c o.d o.sa 8 0)
  | .mma o p => some (encX 0x60#7 o.c o.ec o.ls o.sa o.sb ((0#2) ++ p))
  | .mmaSp o p => some (encX 0x61#7 o.c o.ec o.ls o.sa o.sb ((0#2) ++ p))
  | .smm o t e => some (encX 0x62#7 o.c o.ec o.ls o.sa o.sb (t ++ e))
  | .smmSp o t e => some (encX 0x63#7 o.c o.ec o.ls o.sa o.sb (t ++ e))
  | .opld c ec sa n => some (encX 0x64#7 c ec 0 sa 0 ((1#3) ++ n))
  | .mzero c ec ls => some (encX 0x65#7 c ec ls 0 0 0)
  | .mfillF32 c ec ls e => some (encX 0x65#7 c ec ls 0 0 ((1#2) ++ e))
  | .mfillI32 c ec ls e => some (encX 0x65#7 c ec ls 0 0 ((2#2) ++ e))
  | .mtosp o => some (encX 0x65#7 o.c o.ec o.ls o.sa o.sb 0x30)
  | .mpld c ec sa => some (encX 0x66#7 c ec 0 sa 0 0)
  | .mclass c ec sa sb => some (encX 0x67#7 c ec 0 sa sb 0)
  | .mbits c ec sa sb => some (encX 0x68#7 c ec 0 sa sb 0)
  | .bz c sa off => some (encB c 0 sa off)
  | .bnz c sa off => some (encB c 1 sa off)
  | .bps c k off => some (encB c 2 ((0#2) ++ k) off)
  | .bpc c k off => some (encB c 3 ((0#2) ++ k) off)
  | .jmp c off => some (bit c ++ (0x71#7) ++ off)
  | .call c fr off => some (bit c ++ (0x72#7) ++ fr ++ off)
  | .calli c fr sa => some (encIN c 0 fr sa)
  | .jmpi c sa => some (encIN c 1 0 sa)
  | .ret c => some (encIN c 2 0 0)
  | .spawn c d sa off => some (bit c ++ (0x74#7) ++ d ++ sa ++ off)
  | .topen c t => some (encCV c 0 t)
  | .fuse c t => some (encCV c 1 t)
  | .leave c t => some (encCV c 2 t)
  | .nop c => some (encSY c 0 0)
  | .endFibre c => some (encSY c 1 0)
  | .yield c => some (encSY c 2 0)
  | .trigger c => some (encSY c 3 0)
  | .pass c => some (encSY c 4 0)
  | .brk c imm => some (encSY c 5 imm)
  | .trap c imm => some (encSY c 6 imm)
  | .relocate o => some (encE 0x77#7 o.c o.d o.sa 0 0)
  | .wsb c m => some (bit c ++ (0x78#7) ++ (0#16) ++ m)
  | .csrr c r n => some (encCR c 0 r n)
  | .csrw c r n => some (encCR c 1 r n)
  | .csrs c r n => some (encCR c 2 r n)
  | .csrc c r n => some (encCR c 3 r n)
  | .rdpw c r => some (encPM c false r)
  | .wrpw c r => some (encPM c true r)
  | .rep nr nc ca cb d a b => some ((0#1) ++ (0x7B#7) ++ nr ++ nc ++ bit ca ++ bit cb ++ d ++ a ++ b)
  | .xl pat k fill => some ((0#1) ++ (0x7C#7) ++ pat ++ k ++ bit fill ++ (0#14))
  | .grd s b => some ((0#1) ++ (0x7D#7) ++ bit s ++ b ++ (0#18))
  | .ext imm => some ((0#1) ++ (0x7E#7) ++ imm)
  | _ => none

/-- The integer unary words (R127). -/
def unaryOf (fn : Nat) (w : Word) : Option Instr :=
  match fn with
  | 0 => some (.absI32 (ruOf w))
  | 1 => some (.negI32 (ruOf w))
  | 2 => some (.notW (ruOf w))
  | 3 => some (.clz (ruOf w))
  | 4 => some (.popc (ruOf w))
  | 5 => some (.brev (ruOf w))
  | 6 => some (.mov (ruOf w))
  | _ => none

/-- The cross-lane words (R143). -/
def crossOf (fn : Nat) (w : Word) : Option Instr :=
  match fn with
  | 0 => some (.allNz (flag w 31) (flag w 23) (field w 16 7) (field w 8 7))
  | 1 => some (.anyNz (flag w 31) (flag w 23) (field w 16 7) (field w 8 7))
  | 2 => some (.allEq (flag w 31) (flag w 23) (field w 16 7) (field w 8 7))
  | 3 => some (.nzmask (flag w 31) (flag w 23) (field w 16 7) (field w 8 7))
  | 4 => some (.scanInc (flag w 31) (flag w 23) (field w 16 7) (field w 8 7) (field w 0 5))
  | 5 => some (.scanExc (flag w 31) (flag w 23) (field w 16 7) (field w 8 7) (field w 0 5))
  | 6 => some (.reduce (flag w 31) (flag w 23) (field w 16 7) (field w 8 7) (field w 0 5))
  | _ => some (.lcnt (flag w 31) (flag w 23) (field w 16 7) (field w 8 7))

/-- The special-function words (R142). -/
def specialOf (fn : Nat) (w : Word) : Option Instr :=
  match fn with
  | 0 => some (.exp (sfOf w))
  | 1 => some (.log (sfOf w))
  | 2 => some (.rcp (sfOf w))
  | 3 => some (.rsqrt (sfOf w))
  | 4 => some (.sqrt (sfOf w))
  | 5 => some (.sin (sfOf w))
  | 6 => some (.cos (sfOf w))
  | _ => some (.tanh (sfOf w))

/-- The atomics (R191). -/
def atomicOf (fn : Nat) (w : Word) : Option Instr :=
  match fn with
  | 0 => some (.atomAdd (maOf w))
  | 1 => some (.atomMin (maOf w))
  | 2 => some (.atomMax (maOf w))
  | 3 => some (.atomAnd (maOf w))
  | 4 => some (.atomOr (maOf w))
  | 5 => some (.atomXor (maOf w))
  | 6 => some (.atomExch (maOf w))
  | 7 => some (.atomCas (maOf w))
  | _ => none

/-- The reductions (R192). -/
def reductionOf (fn : Nat) (w : Word) : Option Instr :=
  match fn with
  | 0 => some (.redAdd (maOf w))
  | 1 => some (.redMin (maOf w))
  | 2 => some (.redMax (maOf w))
  | 3 => some (.redAnd (maOf w))
  | 4 => some (.redOr (maOf w))
  | 5 => some (.redXor (maOf w))
  | _ => none

/-- The barrier words (R203). -/
def barrierOf (fn : Nat) (w : Word) : Option Instr :=
  match fn with
  | 0 => some (.barInit (flag w 31) (field w 10 7) (field w 0 6))
  | 1 => some (.barArrive (efOf w) (field w 0 6))
  | 2 => some (.barExpect (flag w 31) (field w 10 7) (field w 0 6))
  | 3 => some (.barWait (efOf w) (field w 0 4))
  | 4 => some (.barTest (efOf w) (field w 0 4))
  | 5 => some (.barInval (flag w 31) (field w 10 7))
  | _ => none

/-- The engine words (R217). -/
def engineOf (fn : Nat) (w : Word) : Option Instr :=
  match fn with
  | 0 => some (.kick (efOf w))
  | 1 => some (.cstat (efOf w))
  | 2 => some (.commit (efOf w) (field w 0 2))
  | 3 => some (.cln (flag w 31) (field w 10 7) (field w 0 6))
  | 4 => some (.inv (flag w 31) (field w 10 7) (field w 0 6))
  | 5 => some (.clninv (flag w 31) (field w 10 7) (field w 0 6))
  | 6 => some (.place (efOf w) (field w 2 4) (field w 0 2))
  | 7 => some (.pin (efOf w))
  | 8 => some (.unpin (efOf w))
  | _ => none

/-- The landing words (R240). -/
def landingOf (fn : Nat) (w : Word) : Option Instr :=
  match fn with
  | 0 => some (.mzero (flag w 31) (field w 22 2) (field w 20 2))
  | 1 => some (.mfillF32 (flag w 31) (field w 22 2) (field w 20 2) (field w 0 4))
  | 2 => some (.mfillI32 (flag w 31) (field w 22 2) (field w 20 2) (field w 0 4))
  | _ => some (.mtosp (xfOf w))

/-- The branches (R150). -/
def branchOf (fn : Nat) (w : Word) : Option Instr :=
  match fn with
  | 0 => some (.bz (flag w 31) (field w 15 7) (field w 0 15))
  | 1 => some (.bnz (flag w 31) (field w 15 7) (field w 0 15))
  | 2 => some (.bps (flag w 31) (field w 15 5) (field w 0 15))
  | _ => some (.bpc (flag w 31) (field w 15 5) (field w 0 15))

/-- The indirect words (R151 to R153). -/
def indirectOf (fn : Nat) (w : Word) : Option Instr :=
  match fn with
  | 0 => some (.calli (flag w 31) (field w 15 7) (field w 8 7))
  | 1 => some (.jmpi (flag w 31) (field w 8 7))
  | 2 => some (.ret (flag w 31))
  | _ => none

/-- The convergence words (R156). -/
def tokenOf (fn : Nat) (w : Word) : Option Instr :=
  match fn with
  | 0 => some (.topen (flag w 31) (field w 0 4))
  | 1 => some (.fuse (flag w 31) (field w 0 4))
  | 2 => some (.leave (flag w 31) (field w 0 4))
  | _ => none

/-- The system words (R157). -/
def systemOf (fn : Nat) (w : Word) : Option Instr :=
  match fn with
  | 0 => some (.nop (flag w 31))
  | 1 => some (.endFibre (flag w 31))
  | 2 => some (.yield (flag w 31))
  | 3 => some (.trigger (flag w 31))
  | 4 => some (.pass (flag w 31))
  | 5 => some (.brk (flag w 31) (field w 0 16))
  | 6 => some (.trap (flag w 31) (field w 0 16))
  | _ => none

/-- The control-register words (R163). -/
def controlRegOf (fn : Nat) (w : Word) : Option Instr :=
  match fn with
  | 0 => some (.csrr (flag w 31) (field w 15 7) (field w 0 12))
  | 1 => some (.csrw (flag w 31) (field w 15 7) (field w 0 12))
  | 2 => some (.csrs (flag w 31) (field w 15 7) (field w 0 12))
  | _ => some (.csrc (flag w 31) (field w 15 7) (field w 0 12))

/-- The instruction whose fields an opcode and a word's function code select (R72 to R75). -/
def candidateAt (code : Nat) (w : Word) : Option Instr :=
  match code with
  | 0x01 => some (.addI32 (rrOf w))
  | 0x02 => some (.subI32 (rrOf w))
  | 0x03 => some (.mulI32 (rrOf w))
  | 0x04 => some (.mulhI32 (rrOf w))
  | 0x05 => some (.mulhN32 (rrOf w))
  | 0x06 => some (.madI32 (rrOf w))
  | 0x07 => some (.minI32 (rrOf w))
  | 0x08 => some (.minN32 (rrOf w))
  | 0x09 => some (.maxI32 (rrOf w))
  | 0x0a => some (.maxN32 (rrOf w))
  | 0x0b => some (.andW (rrOf w))
  | 0x0c => some (.orW (rrOf w))
  | 0x0d => some (.xorW (rrOf w))
  | 0x0e => some (.shl (rrOf w))
  | 0x0f => some (.shrN32 (rrOf w))
  | 0x10 => some (.shrI32 (rrOf w))
  | 0x11 => some (.rotl (rrOf w))
  | 0x12 => some (.rotr (rrOf w))
  | 0x13 => some (.bfxN32 (rrOf w))
  | 0x14 => some (.bfxI32 (rrOf w))
  | 0x15 => some (.bfi (rrOf w))
  | 0x16 => some (.sel (rrOf w))
  | 0x1d => some (.addI64 (rrOf w))
  | 0x1e => some (.subI64 (rrOf w))
  | 0x1f => some (.shlI64 (rrOf w))
  | 0x20 => some (.shrN64 (rrOf w))
  | 0x21 => some (.shrI64 (rrOf w))
  | 0x22 => some (.bdep (rrOf w))
  | 0x23 => some (.bext (rrOf w))
  | 0x24 => some (.bperm (rrOf w))
  | 0x25 => some (.gfm8 (rrOf w))
  | 0x2f => some (.addF32 (rrOf w))
  | 0x30 => some (.subF32 (rrOf w))
  | 0x31 => some (.mulF32 (rrOf w))
  | 0x32 => some (.fmaF32 (rrOf w))
  | 0x33 => some (.minF32 (rrOf w))
  | 0x34 => some (.maxF32 (rrOf w))
  | 0x35 => some (.minnumF32 (rrOf w))
  | 0x36 => some (.maxnumF32 (rrOf w))
  | 0x37 => some (.scaleF32 (rrOf w))
  | 0x3d => some (.addBf16 (rrOf w))
  | 0x3e => some (.mulBf16 (rrOf w))
  | 0x3f => some (.fmaBf16 (rrOf w))
  | 0x40 => some (.addF16 (rrOf w))
  | 0x41 => some (.mulF16 (rrOf w))
  | 0x42 => some (.fmaF16 (rrOf w))
  | 0x43 => some (.packBf16 (rrOf w))
  | 0x44 => some (.packF16 (rrOf w))
  | 0x45 => some (.dot4E4m3 (rrOf w))
  | 0x17 => some (.cmpEqI32 (cpOf w))
  | 0x18 => some (.cmpNeI32 (cpOf w))
  | 0x19 => some (.cmpLtI32 (cpOf w))
  | 0x1a => some (.cmpLtN32 (cpOf w))
  | 0x1b => some (.cmpLeI32 (cpOf w))
  | 0x1c => some (.cmpLeN32 (cpOf w))
  | 0x38 => some (.cmpEqF32 (cpOf w))
  | 0x39 => some (.cmpLtF32 (cpOf w))
  | 0x3a => some (.cmpLeF32 (cpOf w))
  | 0x3b => some (.cmpUnF32 (cpOf w))
  | 0x26 => some (.addi (riOf w))
  | 0x27 => some (.andi (riOf w))
  | 0x28 => some (.ori (riOf w))
  | 0x29 => some (.xori (riOf w))
  | 0x2a => some (.shli (riOf w))
  | 0x2b => some (.shriN32 (riOf w))
  | 0x2c => some (.shriI32 (riOf w))
  | 0x2D => some (.movi (flag w 31) (flag w 23) (field w 16 7) (field w 0 16))
  | 0x2E => unaryOf (field w 0 8).toNat w
  | 0x3C =>
    if field w 4 4 == field w 0 4 && (field w 0 4).toNat ≤ 2 then some (.rnd (ruOf w) (field w 0 2))
    else some (.cvt (ruOf w) (field w 4 4) (field w 0 4))
  | 0x46 => crossOf (field w 5 3).toNat w
  | 0x6C => specialOf (field w 3 3).toNat w
  | 0x50 => some (.ld (mmOf w))
  | 0x51 => some (.st (mmOf w))
  | 0x52 => some (.lds (mmOf w))
  | 0x53 => some (.sts (mmOf w))
  | 0x54 => some (.ldw (mmOf w))
  | 0x56 => some (.spill (mmOf w))
  | 0x57 => some (.fill (mmOf w))
  | 0x58 => some (.scld (mmOf w))
  | 0x55 => some (.pf (flag w 31) (field w 12 5) (field w 7 2) (flag w 6) (field w 3 3) (flag w 0))
  | 0x59 => atomicOf (field w 3 4).toNat w
  | 0x5A => reductionOf (field w 3 4).toNat w
  | 0x5B => some (.kvres (efOf w))
  | 0x5C => some (.fence (flag w 31) (field w 22 2))
  | 0x5D => barrierOf (field w 6 4).toNat w
  | 0x5E => engineOf (field w 6 4).toNat w
  | 0x60 => some (.mma (xfOf w) (field w 0 4))
  | 0x61 => some (.mmaSp (xfOf w) (field w 0 4))
  | 0x62 => some (.smm (xfOf w) (field w 4 2) (field w 0 4))
  | 0x63 => some (.smmSp (xfOf w) (field w 4 2) (field w 0 4))
  | 0x64 => some (.opld (flag w 31) (field w 22 2) (field w 13 7) (field w 0 3))
  | 0x65 => landingOf (field w 4 2).toNat w
  | 0x66 => some (.mpld (flag w 31) (field w 22 2) (field w 13 7))
  | 0x67 => some (.mclass (flag w 31) (field w 22 2) (field w 13 7) (field w 6 7))
  | 0x68 => some (.mbits (flag w 31) (field w 22 2) (field w 13 7) (field w 6 7))
  | 0x70 => branchOf (field w 22 2).toNat w
  | 0x71 => some (.jmp (flag w 31) (field w 0 24))
  | 0x72 => some (.call (flag w 31) (field w 17 7) (field w 0 17))
  | 0x73 => indirectOf (field w 22 2).toNat w
  | 0x74 => some (.spawn (flag w 31) (field w 17 7) (field w 10 7) (field w 0 10))
  | 0x75 => tokenOf (field w 22 2).toNat w
  | 0x76 => systemOf (field w 20 4).toNat w
  | 0x77 => some (.relocate (efOf w))
  | 0x78 => some (.wsb (flag w 31) (field w 0 8))
  | 0x79 => controlRegOf (field w 22 2).toNat w
  | 0x7A => if flag w 23 then some (.wrpw (flag w 31) (field w 16 7)) else some (.rdpw (flag w 31) (field w 16 7))
  | 0x7B => some (.rep (field w 19 5) (field w 14 5) (flag w 13) (flag w 12) (field w 8 4) (field w 4 4) (field w 0 4))
  | 0x7C => some (.xl (field w 21 3) (field w 15 6) (flag w 14))
  | 0x7D => some (.grd (flag w 23) (field w 18 5))
  | 0x7E => some (.ext (field w 0 24))
  | _ => none

/-- The instruction whose fields a word's opcode and function code select (R72 to R75). -/
def candidate (w : Word) : Option Instr := candidateAt (field w 24 7).toNat w

/-- The instruction of a word of a Usxel stream, or why there is none (R78). -/
def decode (w : Word) : Except DecodeError Instr :=
  match candidate w with
  | none => .error .unassigned
  | some i =>
    if encode i = some w then
      match i.illFormed with
      | none => .ok i
      | some e => .error (.illFormed e)
    else .error .reservedBits

/-- The four bytes of a word, lowest address first (R6). -/
def wordBytes (w : Word) : List Byte := [w.extractLsb' 0 8, w.extractLsb' 8 8, w.extractLsb' 16 8, w.extractLsb' 24 8]

/-- The word whose bytes, lowest address first, are given (R6). -/
def wordOfBytes (b0 b1 b2 b3 : Byte) : Word := b3 ++ b2 ++ b1 ++ b0

/-- The instruction that the first four bytes of a list hold, and the rest of the list. -/
def decodeBytes : List Byte → Except DecodeError (Instr × List Byte)
  | b0 :: b1 :: b2 :: b3 :: rest =>
    match decode (wordOfBytes b0 b1 b2 b3) with
    | .ok i => .ok (i, rest)
    | .error e => .error e
  | _ => .error .truncated

/-- The word of an instruction of a host-die hart (R341, R342): RISC-V custom-0, funct3 0 with funct7 0, and funct3 1. -/
def encodeHart : Instr → Option Word
  | .nsubmit vs2 rs1 rd => some ((0#7) ++ vs2 ++ rs1 ++ (0#3) ++ rd ++ (0x0B#7))
  | .nuret => some 0x0000100B
  | _ => none

/-- The instruction of the spec's own two that a hart's word is; none for the words of standard RISC-V, which the spec does not
describe. -/
def decodeHart (w : Word) : Option Instr :=
  if field w 0 7 == 0x0B then
    if field w 12 3 == 0 && field w 25 7 == 0 then some (.nsubmit (field w 20 5) (field w 15 5) (field w 7 5))
    else if w == 0x0000100B then some .nuret
    else none
  else none

/-- The instruction that a word of the opcode table stands for: a word of a Usxel stream, else a word of a hart (log 89,
DESIGN CHOICE). -/
def decodeAny (w : Word) : Option Instr :=
  match decode w with
  | .ok i => some i
  | .error _ => decodeHart w

/-- The instruction read from an instruction whose bits are w, laid out as the part stores it. -/
def decodeTableWord (nbits w : Nat) : Option Instr :=
  if nbits = 32 then
    match wordBytes (BitVec.ofNat 32 w) with
    | [b0, b1, b2, b3] => decodeAny (wordOfBytes b0 b1 b2 b3)
    | _ => none
  else none

end Sys2Proof
end

