-- ==== Sys2Proof/Machine/Table.lean ====
section
/-! DEFINITION. Sparse data by key: lists of (key, value) pairs with strictly rising keys, so that equal tables are equal data. -/

namespace Sys2Proof.Machine

/-- A table keyed by Nat; keys strictly rise (Tbl.wf). -/
abbrev Tbl (α : Type) := List (Nat × α)

/-- The entry at key k. -/
def tblFind {α : Type} : Tbl α → Nat → Option α
  | [], _ => none
  | (j, v) :: rest, k => if k = j then some v else tblFind rest k

/-- The table with key k holding v. -/
def tblInsert {α : Type} : Tbl α → Nat → α → Tbl α
  | [], k, v => [(k, v)]
  | (j, u) :: rest, k, v =>
    if k < j then (k, v) :: (j, u) :: rest
    else if k = j then (k, v) :: rest
    else (j, u) :: tblInsert rest k v

/-- The table without key k. -/
def tblErase {α : Type} : Tbl α → Nat → Tbl α
  | [], _ => []
  | (j, u) :: rest, k => if k = j then tblErase rest k else (j, u) :: tblErase rest k

/-- The value at key k of a table whose unlisted keys read as d. -/
def tblGet {α : Type} (d : α) (t : Tbl α) (k : Nat) : α := (tblFind t k).getD d

/-- Set key k of a table whose unlisted keys read as d: no entry equals d. -/
def tblSet {α : Type} [DecidableEq α] (d : α) (t : Tbl α) (k : Nat) (v : α) : Tbl α :=
  if v = d then tblErase t k else tblInsert t k v

/-- Every key is above k and the keys rise. -/
def tblAbove {α : Type} (k : Nat) : Tbl α → Bool
  | [] => true
  | (j, _) :: rest => decide (k < j) && tblAbove j rest

/-- The keys rise strictly. -/
def tblSorted {α : Type} : Tbl α → Bool
  | [] => true
  | (j, _) :: rest => tblAbove j rest

/-- The canonical form of a table whose unlisted keys read as d: rising keys, no entry equal to d. -/
def tblWf {α : Type} [DecidableEq α] (d : α) (t : Tbl α) : Bool := tblSorted t && t.all (fun e => !decide (e.2 = d))

/-- Change the entry at key k, when there is one. -/
def tblModify {α : Type} (t : Tbl α) (k : Nat) (f : α → α) : Tbl α :=
  match t with
  | [] => []
  | (j, v) :: rest => if k = j then (j, f v) :: rest else (j, v) :: tblModify rest k f

/-- The i-th element of a list with element i replaced. -/
def setAt {α : Type} : List α → Nat → α → List α
  | [], _, _ => []
  | _ :: xs, 0, v => v :: xs
  | x :: xs, n + 1, v => x :: setAt xs n v

end Sys2Proof.Machine
end

