-- ==== Sys2Proof/Machine/State.lean ====
section
/-! DEFINITION. What the part holds (01_execution_model.md, 11, 13, 15, 17, 19, 21, 23), as plain data, and its value at power-on.
Cores are numbered 128 x die + core, quarters 4 x that + quarter, groups 16 x that + group slot (R1, R13, R20). Functions are
numbered 0 for the physical function and 1 + v for virtual function v (R349). -/

namespace Sys2Proof.Machine

/-- A 16-byte operator-table descriptor as its four words (R238). -/
structure OpDesc where
  ctl : Word := 0
  ident : Word := 0
  pad : Word := 0
  tail : Word := 0
  deriving DecidableEq, Repr

/-- The state of a fibre slot (R17, R18, R333). -/
inductive Slot
  | free | live | ended | parked
  deriving DecidableEq, Repr

/-- An access of a fibre that has taken its place: its event, the slot it was recorded against, its least fence scope (R264), the
number of its word (R265), and whether it is a store, an atomic, a reduction or a spill (R207). -/
structure Done where
  event : Nat
  slot : Option Nat
  least : Nat
  word : Nat
  wr : Bool := false
  deriving DecidableEq, Repr

/-- One fibre slot of a group and the fibre in it (R15); latches hold 0 until they are filled (log 3, DESIGN CHOICE). The scoreboard slots are
the accesses recorded against them (R181). What orders its later accesses is in done (the accesses placed, R265), floor (the latest event
that they must follow), waited (the latest of its own events that a slot wait has found clear, R268), behind (the owners of the range
entries that its next word has waited on, R269), and for its fetches in fetchFloor and fetchFence (R87). -/
structure Fibre where
  slot : Slot := .free
  pc : Dword := 0
  pw : Word := 0
  wb : Nat := 0
  progress : Nat := 0
  fstat : Word := 0
  cycleh : Word := 0
  latch : List Word := [0, 0, 0, 0, 0, 0, 0, 0]
  latchValid : BitVec 8 := 0
  yielded : Bool := false
  readyAt : Nat := 0
  avail : Tbl Nat := []
  packet : Option (Nat × List Word) := none
  fetchHeld : Bool := false
  fence : Option (Nat × Nat) := none
  pipeHold : Option Nat := none
  missed : Nat := 0
  starvedAt : Option Nat := none
  passBreak : Bool := false
  startAt : Nat := 0
  born : Nat := 0
  done : List Done := []
  floor : Option Nat := none
  waited : Option Nat := none
  fenceFloor : Option Nat := none
  fetchFloor : Option Nat := none
  fetchFence : Option (Nat × Nat) := none
  behind : List Nat := []
  deriving DecidableEq, Repr

/-- A convergence token (R29), and the latest event that the slot waits of its arrivals have ordered (R268). -/
structure Token where
  isOpen : Bool := false
  expected : BitVec 64 := 0
  held : BitVec 64 := 0
  floor : Option Nat := none
  deriving DecidableEq, Repr

/-- A resident group (R19 to R23, R29, R39, R44, R164, R242); since is the event of its admission or of its restoration, which its fibres'
accesses follow; engines is the latest event of the copies and matrix words that it issued (R43, R45); image is its image while it is stopped
for saving (R329), and trigDue what a trigger of it still waits for then: the lane, the places of the held accesses in the image, and the
events that its point follows (R45); debugPark says that a breakpoint or single-step trap parks it (R336). -/
structure Group where
  ctx : Nat
  part : Nat
  pasid : BitVec 20
  uid : Nat
  pos : Nat
  width : Nat
  rows : Nat
  lslots : Nat
  scratch : Nat
  laneOrigin : Nat
  rowOrigin : Nat
  spOrigin : Nat
  lsOrigin : List Nat
  grank : Nat
  stage : Nat
  clsize : Nat
  nstage : Nat
  clx : BitVec 16
  cly : BitVec 16
  clz : BitVec 16
  prio : Nat
  launch : Word
  regions : Word
  skipcnt : Word := 0
  member : Bool := false
  trig : Bool := false
  tokens : List Token
  maskWords : List Word
  c0 : Word := 0
  c1 : Word := 0
  docn : Nat := 0
  bounds : List Word := []
  fibres : List Fibre
  regs : Tbl Word := []
  land : Tbl Word := []
  uncommitted : List Nat := []
  stopping : Bool := false
  parked : Bool := false
  singleStep : Bool := false
  debugPark : Bool := false
  softReq : Bool := false
  moving : Bool := false
  saving : Bool := false
  admitted : Nat := 0
  since : Option Nat := none
  engines : Option Nat := none
  image : List Byte := []
  trigDue : Option (Nat × List Nat × List Nat) := none
  waited : Nat := 0
  issuedUntil : Nat := 0
  starvedAt : Option Nat := none
  lastA : Option (Nat × Nat × Nat) := none
  deriving DecidableEq, Repr

/-- The scratchpad rows that a group of a position holds until every group of the position has ended (R43, R177). -/
structure RowHold where
  core : Nat
  gid : Nat
  uid : Nat
  pos : Nat
  grank : Nat
  stage : Nat
  first : Nat
  count : Nat
  deriving DecidableEq, Repr

/-- What an access does when it takes its place (R176 to R216, R241, R248). -/
inductive AccessKind
  | load | store | atomic | reduction
  | lds | sts | ldw | spill | fill (from? : Option Nat)
  | scaleLoad (space : Nat) | barInit | barArrive | barExpect | barTest | barWait (deadline : Nat) | barInval
  | result | cstat | commit | place (tier : Nat) | pin (up : Bool) | trigger
  deriving DecidableEq, Repr

/-- An access that has issued and not finished (R181): the events that it lies after and the owners of the range entries that it waited on
(R265, R269), the clock of its issue (R263), whether it goes to a shared page (R324), the event of a spill that has taken its place
before its entry is written (R265 item 4), and the physical address that it had when it entered the replay buffer (R304). -/
structure Access where
  id : Nat
  word : Nat
  gid : Nat
  lane : Nat
  slot : Option Nat
  kind : AccessKind
  addr : Dword
  pa : Option Nat := none
  tlbKey : Option (Nat × Nat) := none
  size : Nat
  sz : Nat := 0
  hint : Nat := 0
  aop : Nat := 0
  aty : Nat := 0
  scope : Nat := 0
  least : Nat := 0
  data : Dword := 0
  data2 : Dword := 0
  row : Nat := 0
  nregs : Nat := 0
  lanes : List Nat := []
  extra : List Nat := []
  held : Bool := false
  needsAts : Bool := false
  after : List Nat := []
  behind : List Nat := []
  issued : Nat := 0
  shared : Bool := false
  placed : Option Nat := none
  known : Option Nat := none
  deriving DecidableEq, Repr

/-- Whose access a replay entry holds (R302). -/
inductive ReplayWho
  | access (id : Nat) | copy (id : Nat) | fetch (gid : Nat) (lanes : List Nat)
  deriving DecidableEq, Repr

/-- A replay entry (R302), in the order of entry. -/
structure Replay where
  order : Nat
  va : Dword
  pasid : BitVec 20
  cause : Nat
  req : Nat
  size : Nat
  sc : Nat := 0
  row : Nat := 0
  opx : Nat := 0
  data : Dword := 0
  data2 : Dword := 0
  who : ReplayWho
  deriving DecidableEq, Repr

/-- A copy record in flight (R208 to R214), or one a hub copy engine runs (R283): own is the event that its next ones follow (its record
read, its guard read, its ownership point), placed the writes, counts and arrivals that it has made, each with its receiver (R270), data the
bytes read of the word in progress and the event of their read, while the word waits to be written, and owned the 4 KiB pages of delegated
ranges that it writes, each with the page that the host gave for it when it took its lines (R212, R300). -/
structure Copy where
  id : Nat
  hub : Bool
  ctx : Nat
  part : Nat
  pasid : BitVec 20
  gid : Nat
  core : Nat
  place : Nat
  owner : Nat
  record : List Dword
  receivers : List Nat
  source : Option Nat
  counted : Bool := false
  begun : Bool := false
  rows : Nat := 0
  row : Nat := 0
  recv : Nat := 0
  byte : Nat := 0
  dstRows : List Dword := []
  srcRows : List Dword := []
  own : Option Nat := none
  placed : List (Nat × Nat) := []
  hashed : List Byte := []
  data : Option (List Byte × Nat) := none
  owned : List (Nat × Nat) := []
  held : Bool := false
  needsAts : Bool := false
  deriving DecidableEq, Repr

/-- What a copy ticket names (R210, R216); last is the latest event of its record once it has ended. -/
structure Ticket where
  gen : Nat := 0
  state : Nat := 3
  cause : Nat := 0
  owner : Option Nat := none
  last : Option Nat := none
  deriving DecidableEq, Repr

/-- A range-scoreboard entry (R200). -/
structure RangeEntry where
  core : Nat
  isWrite : Bool
  first : Nat
  last : Nat
  owner : Nat
  deriving DecidableEq, Repr

/-- An entry of the spill forwarding table: the bytes of one pass of one spill (R188). -/
structure SpillEntry where
  id : Nat
  core : Nat
  accesses : List Nat
  deriving DecidableEq, Repr

/-- A latch of a matrix unit (R225): the gather that fills it (0 for nothing), the words using it, and the bytes read, none until then. -/
structure MatLatch where
  gather : Nat := 0
  users : List Nat := []
  data : List (Option (List Byte)) := []
  deriving DecidableEq, Repr

/-- Which X group word is queued (R225, R229, R232, R240). -/
inductive XKind
  | mma (pair : Nat) (sparse : Bool) | smm (ty : Nat) (sparse : Bool)
  | fill (value : Word) | mtosp (byte : Nat) (first count : Nat)
  deriving DecidableEq, Repr

/-- An X group word that has issued and not finished (R225 to R228), with the operands that it read at issue; behind holds the owners of
the write entries that its gather has waited on (R227), ixOff the fibres whose FSTAT a later word has written over its IX (R166). -/
structure XOp where
  id : Nat
  gid : Nat
  kind : XKind
  ls : Nat
  aAddr : List Word := []
  bAddr : Word := 0
  mctl : Word := 0
  side : List (List Word) := []
  entryNo : Nat := 0
  entry : OpDesc := {}
  keep : Option Nat := none
  gathered : Bool := false
  latchA : Option Nat := none
  latchB : Option Nat := none
  begun : Bool := false
  rowsDone : Nat := 0
  behind : List Nat := []
  ixOff : List Nat := []
  deriving DecidableEq, Repr

/-- The gang that keeps a quarter's scheduler, its packet, and how many chains its hold has covered (R56, R291). -/
structure Hold where
  gid : Nat
  base : Nat
  lanes : List Nat
  chains : Nat
  deriving DecidableEq, Repr

/-- A quarter (R56, R85, R159, R225): the gangs that keep it, and the event of the last row that its matrix unit wrote (R240). -/
structure Quarter where
  hold : List Hold := []
  busyUntil : Nat := 0
  token : Option Nat := none
  queue : List XOp := []
  latchA : List MatLatch := [{}, {}]
  latchB : List MatLatch := [{}, {}]
  lastMatrix : Option Nat := none
  lastGangs : List (Nat × Nat) := []
  wrote : Option Nat := none
  deriving DecidableEq, Repr

/-- A load in progress of an operator-table entry (R239), or of a mask program when no entry is named (R244), with what it read. -/
structure TableLoad where
  id : Nat
  gid : Nat
  lanes : List Nat
  entry : Option Nat := none
  desc : OpDesc := {}
  maskWords : List Word := []
  c0 : Word := 0
  c1 : Word := 0
  bounds : List Word := []
  deriving DecidableEq, Repr

/-- A relocation that has been accepted and not yet moved (R48), and the room kept for it: the group slot, and the group's shape with the
origins of its rows, lanes, landing slots and scratchpad rows there. -/
structure Relocation where
  gid : Nat
  seatGid : Nat
  seat : Group
  target : Nat
  lanes : List Nat
  dst : BitVec 7
  deriving DecidableEq, Repr

/-- A trap record (R171, R353); next and line are what R160 and R109 put into it beside the fields of R353 (log 20, DESIGN CHOICE). -/
structure TrapRecord where
  cause : Nat
  gid : Nat
  part : Nat
  vf : Nat
  mask : BitVec 64
  detail : Dword
  counter : Dword
  progress : Nat
  launch : Word
  next : Dword := 0
  line : Option (Nat × Nat) := none
  residency : Bool := false
  deriving DecidableEq, Repr

/-- The kiosk side of a core (R171, R350, R351); mailbox words and WINSEL come up as 0 (log 5, DESIGN CHOICE). -/
structure Kiosk where
  queue : List TrapRecord := []
  waiting : List TrapRecord := []
  mbout : Tbl Dword := []
  mbin : Tbl Dword := []
  winsel : Dword := 0
  started : Bool := false
  deriving DecidableEq, Repr

/-- A translation held by a translation cache (R297, R299): the site is a core, or 256 for the hub. -/
structure TlbEntry where
  site : Nat
  pasid : BitVec 20
  base : Nat
  bits : Nat
  pa : Nat
  pte : Dword
  pteAddr : Nat
  ats : Bool := false
  deriving DecidableEq, Repr

/-- A launch passed to admission (R37, R40, R42, R51, R286, R287); order is the event of its launch entry, which follows the triggers and
completions that the entry waited for (R45). -/
structure Launch where
  uid : Nat
  ctx : Nat
  part : Nat
  queue : Nat
  record : Nat
  pasid : BitVec 20
  entry : Dword
  arg : Dword
  gx : Nat
  gy : Nat
  gz : Nat
  cls : Nat
  nstage : Nat
  prio : Nat
  fullres : Bool
  swap : Bool
  lslots : Nat
  width : Nat
  live : Nat
  regs : Nat
  scratch : Nat
  rto : Nat
  launch : Word
  regions : Word
  ready : Bool := false
  readyOrder : Nat := 0
  nextPos : Nat := 0
  endedGroups : Nat := 0
  trigGroups : Nat := 0
  waitSince : Option Nat := none
  blocking : Bool := false
  lastProgress : Nat := 0
  swapping : Bool := false
  killed : Bool := false
  order : Option Nat := none
  deriving DecidableEq, Repr

/-- A submission record being carried out or whose end waits on what it started (R280 to R284), and the events of the triggers and ends of
what it started (R45, R281). -/
structure Run where
  id : Nat
  tag : Word
  status : Dword
  pc : Dword
  stack : List Dword := []
  index : Nat := 0
  code : Nat := 0
  errIndex : Nat := 0
  refused : Bool := false
  launches : List Nat := []
  copies : List Nat := []
  waiting : Bool := false
  regionWait : Option Nat := none
  entry : List Dword := []
  after : List Nat := []
  ended : Bool := false
  deriving DecidableEq, Repr

/-- A submission queue (R278 to R285). -/
structure Queue where
  pending : List (List Dword) := []
  cur : Option Run := none
  ending : List Run := []
  deriving DecidableEq, Repr

/-- A hash record of a hashed copy (R315). -/
structure HashRec where
  chunk : Nat
  offset : Nat
  count : Nat
  digest : List Byte
  deriving DecidableEq, Repr

/-- A weight-store region of a partition (R257). -/
structure Region where
  die : Nat
  first : Nat
  count : Nat
  isSealed : Bool := false
  frames : List Nat := []
  hashes : List HashRec := []
  deriving DecidableEq, Repr

/-- A region command that waits for its effect (R259). -/
structure RegionCmd where
  id : Nat
  ctx : Nat
  queue : Nat
  part : Nat
  kind : Nat
  region : Nat
  die : Nat
  first : Nat
  count : Nat
  manifest : Dword
  pasid : BitVec 20
  deriving DecidableEq, Repr

/-- A request queued with the migration engine (R307); place requests are told from counter requests. -/
structure MigRequest where
  id : Nat
  ctx : Nat
  pasid : BitVec 20
  va : Nat
  target : Nat
  needBy : Option Nat
  place : Bool
  die : Nat
  core : Nat
  guest : Nat
  deriving DecidableEq, Repr

/-- Where a move stands (R309). -/
inductive MovePhase
  | copying | final | switching
  deriving DecidableEq, Repr

/-- A running move (R309, R310): the page, its frames, the entries as they were at its start, the lines written since they were
copied, the write window in acceptance order, and the accesses still to be forwarded. -/
structure Move where
  id : Nat
  ctx : Nat
  pasid : BitVec 20
  va : Nat
  bits : Nat
  src : Nat
  dst : Nat
  dstSlot : Nat
  cls : Nat
  ptes : List (Nat × Dword)
  needBy : Option Nat
  guest : Nat
  phase : MovePhase := .copying
  marked : List Nat := []
  window : List (Nat × List Byte) := []
  deps : List Nat := []
  deriving DecidableEq, Repr

/-- An access counter: its count, and the die and the context of the access that completed it (R305). -/
structure Counter where
  count : Nat := 0
  die : Nat := 0
  ctx : Nat := 0
  deriving DecidableEq, Repr

/-- A page handover to the pool (R313). -/
structure Handover where
  pa : Nat
  bits : Nat
  port : Nat
  deriving DecidableEq, Repr

/-- A position saved by pre-emption or swapping (R329, R330, R334): where its header stands in memory and how many bytes it has; waits
says that it is restored by admission (R40, R52), not with its context, swapped that R52 took it out. Its seats hold what the image format
has no field for: where its groups stood (R331), their uncommitted landing slots (R219), and what orders their fibres' later accesses
(R265). -/
structure SavedPos where
  uid : Nat
  pos : Nat
  addr : Nat
  len : Nat
  waits : Bool
  swapped : Bool := false
  seats : List (Nat × Group) := []
  deriving DecidableEq, Repr

/-- A partition context (R321 to R323). -/
structure Context where
  resident : Bool := false
  since : Nat := 0
  workSince : Option Nat := none
  saved : List SavedPos := []
  opsSaved : Bool := false
  deriving DecidableEq, Repr

/-- Why a pre-emption ladder runs (R328). -/
inductive LadderWhy
  | switch | owner | disable | swap (uid : Nat)
  deriving DecidableEq, Repr

/-- A pre-emption ladder in progress (R328): the positions of its set as (launch, position). -/
structure Ladder where
  id : Nat
  ctx : Nat
  why : LadderWhy
  set : List (Nat × Nat)
  t0 : Nat
  forced : Bool := false
  deriving DecidableEq, Repr

/-- An invalidation in progress and the accesses it waits for (R250, R300). -/
structure Invalidation where
  accesses : List Nat
  copies : List Nat
  index : Nat := 0
  deriving DecidableEq, Repr

/-- An entry of an error log (R338). -/
structure LogEntry where
  addr : Dword
  cause : Nat
  vf : Nat
  time : Nat
  deriving DecidableEq, Repr

/-- A resident sequence of a street directory (R249). -/
structure StreetSeq where
  die : Nat
  ctx : Nat
  index : Nat
  entry : List Dword
  blocks : List Dword
  deriving DecidableEq, Repr

/-- The privilege modes of a hart (R340, R342). -/
inductive Priv
  | m | s | u | vs | vu
  deriving DecidableEq, Repr

/-- What an access of a hart is for. -/
inductive HartUse
  | fetch | load | store
  deriving DecidableEq, Repr

/-- The exceptions of a hart (R340 to R342, R351): with the word that has none of its effect; with what the access was for, the address that
the fault reports and whether a guest's tables translated it; and for a guest page fault the guest's physical address and whether the
access was one to the guest's own page tables. -/
inductive HartExc
  | illegalInstruction (w : Word) | virtualInstruction (w : Word) | breakpoint | ecall
  | misaligned (k : HartUse) (va : Dword) (virt : Bool) | accessFault (k : HartUse) (va : Dword) (virt : Bool)
  | pageFault (k : HartUse) (va : Dword) (virt : Bool) | guestPageFault (k : HartUse) (va gpa : Dword) (implicit : Bool)
  deriving DecidableEq, Repr

/-- What waits in a hart (R274, R275): a word that computes registers from ones that are not known yet, or an access that has not taken its
place in time order. -/
inductive HartOpKind
  | compute | load | store | amo | lr | sc
  deriving DecidableEq, Repr

/-- A source of a waiting operation: the number of a register (Hart.get) or of an access's result, its value and size in bytes, the load
event that it depends on, and the operation that is still to give it. -/
structure HartSrc where
  key : Nat
  value : Nat := 0
  size : Nat := 8
  dep : Option Nat := none
  source : Option Nat := none
  deriving DecidableEq, Repr

/-- A waiting operation of a hart: its number, its word, its sources, the registers that it gives, and for an access where it goes under
which key slot, where in its source its bytes begin, the operations that must take their places before it, the events that it must follow,
and those of them that its address depends on. -/
structure HartOp where
  id : Nat
  kind : HartOpKind
  word : Word
  src : List HartSrc := []
  dst : List Nat := []
  pa : Nat := 0
  size : Nat := 0
  key : Nat := 0
  offset : Nat := 0
  follows : List Nat := []
  after : List Nat := []
  deps : List Nat := []
  deriving DecidableEq, Repr

/-- A hart: host-die harts are numbered 0 to 95 (R340 to R343), the kiosk of core c is hart 96 + c (R350). Beside its registers: integer,
floating-point, vector by byte, the standard control registers by number, and the interrupt files of its IMSIC by number (0 of M-mode, 1 of
S-mode, 1 + g of guest g), each a table of registers. For its order (R274, R275): its waiting operations in program order, and which of them
gives a register (its number plus 1); the load event that each register depends on, plus 1; the latest of its loads and of its placed
stores, and the newest event at its latest device read and device write; the event that its branches depend on; the events that its later
loads, stores, fetches and RCsc atomics must follow, and the waiting accesses that must take their places before its later loads, stores,
device reads, device writes and RCsc atomics; its reservation (first byte, size, event) and its Zawrs wait, with the clock at which a WRS.STO
ends. The values at reset are the model's (log 7, DESIGN CHOICE). -/
structure Hart where
  pc : Dword := 0
  x : Tbl Dword := []
  f : Tbl Dword := []
  v : Tbl Byte := []
  csrs : Tbl Dword := [(0x300, 0x2200), (0xC21, 0x8000000000000000)]
  files : Tbl (Tbl Dword) := []
  priv : Priv := .m
  ops : List HartOp := []
  owner : Tbl Nat := []
  taint : Tbl Nat := []
  loaded : Option Nat := none
  stored : Option Nat := none
  devRead : Option Nat := none
  devWrite : Option Nat := none
  branched : Option Nat := none
  loadFloor : Option Nat := none
  storeFloor : Option Nat := none
  fetchFloor : Option Nat := none
  rcscFloor : Option Nat := none
  loadsFirst : List Nat := []
  storesFirst : List Nat := []
  readsFirst : List Nat := []
  writesFirst : List Nat := []
  rcscFirst : List Nat := []
  resv : Option (Nat × Nat × Nat) := none
  wrs : Option (Option Nat) := none
  nutvec : Dword := 0
  nutepc : Dword := 0
  nutval : Dword := 0
  nutstat : Dword := 0
  nkey : Dword := 0
  exc : Option HartExc := none
  deriving DecidableEq, Repr

/-- Who waits for an ATS translation: issued accesses and copies, an instruction fetch, or a dispatcher (R300). -/
inductive AtsWho
  | access | fetch | dispatcher
  deriving DecidableEq, Repr

/-- An ATS translation that the host has not answered (R300), for a site's translation cache: the permissions asked for, whether a PRI
Page Request is out for it, and whether the answer came back without them. -/
structure AtsRequest where
  site : Nat
  pasid : BitVec 20
  va : Nat
  rd : Bool
  wr : Bool
  ex : Bool
  who : AtsWho
  pri : Bool := false
  failed : Bool := false
  deriving DecidableEq, Repr

/-- Whether the part runs (R347, R355). -/
inductive Power
  | off | recovery | on
  deriving DecidableEq, Repr

/-- The agents whose accesses are events (R260). A fibre is named by its launch, position, stage, rank and lane, which a move or a save of its
group does not change. -/
inductive Agent
  | fibre (uid pos stage grank lane : Nat) | fetch (uid pos stage grank lane : Nat)
  | copy (id : Nat) | matrix (id : Nat) | dispatcher (queue : Nat) | migration | directory (die : Nat) | admission | caches
  | hart (n : Nat) | kiosk (core : Nat) | hartFetch (n : Nat)
  deriving DecidableEq, Repr

/-- A byte of a memory and the key under which it was written (R325), none outside tiers 0 to 2. -/
abbrev Cell := Byte × Option (Nat × Nat)

/-- An event of time order (R260): who, which of its words, which bytes (space 0 memory, 1 scratchpad, 2 weight store, 3 none) by the key
of the first, whether it reads, what it found in the bytes that it wrote, when it took place, and, for a write to host memory or a shared
page, whether the writer's fence.sys has sent it on (R263). -/
structure Event where
  id : Nat
  agent : Agent
  word : Nat := 0
  space : Nat := 3
  first : Nat := 0
  size : Nat := 0
  rd : Bool := false
  old : List Cell := []
  clock : Nat := 0
  far : Bool := false
  sent : Bool := true
  deriving DecidableEq, Repr

/-- A line that a cache holds (R189, R190, R253): the cache is the L1 of a core, or 256 + die for an L2; its mark is 0 .dflt, 1 .strm,
2 .stick; its key slot tags it (R325). -/
structure Line where
  site : Nat
  line : Nat
  way : Nat
  mark : Nat
  key : Nat
  deriving DecidableEq, Repr

/-- A message that the part has sent over management (R344, R347): its number and the value it carries. -/
structure MgmtMsg where
  number : Nat
  value : Word
  deriving DecidableEq, Repr

/-- The fields of a rep prefix (R65). -/
structure RepPrefix where
  nr : Nat
  nc : Nat
  ca : Nat
  cb : Nat
  rsd : Nat
  rsa : Nat
  rsb : Nat
  deriving DecidableEq, Repr

/-- The fields of an xl prefix (R69). -/
structure XlPrefix where
  pat : Nat
  k : Nat
  own : Bool
  deriving DecidableEq, Repr

/-- The gang that is issuing (R54, R55, R63): the group, its lanes, where the instruction and its word stand, where the next chain
stands, the prefixes read so far, what the group held before the chain, and early the registers as lane page 0 finds them when accesses
finish between the two passes of the gang (R123). -/
structure Issue where
  gid : Nat
  lanes : List Nat
  start : Dword
  pc : Dword
  next : Dword
  rep : Option RepPrefix := none
  xl : Option XlPrefix := none
  grd : Option (Bool × BitVec 5) := none
  ext : Option (BitVec 24) := none
  snap : Option Group := none
  early : Option (Tbl Word) := none
  mark : Option Nat := none
  deriving DecidableEq, Repr

/-- What happens next (the order of agents, which the spec leaves open): a quarter issues, a quarter issues a gang between whose two passes some
accesses finish (R123), a hart runs a word whose loads take their places at once or wait, an access of a hart takes its place, a
step of the part or of its surroundings, a translation leaves a cache, a cache line is written back, bytes become damaged or whole (R359; see damagedIn),
or a clock passes. back says how far before the newest event each of the next events takes its place in time order (R263). -/
inductive Turn
  | issue (q : Nat) | issueAround (q : Nat) (ids : List Nat) | hart (h : Nat) | hartAhead (h : Nat) | place (h i : Nat) | event (i : Instr) | dropTlb (n : Nat) | writeBack (line : Nat)
  | damage (bytes : List Nat) | back (ks : List Nat) | tick
  deriving DecidableEq, Repr

/-- The part. -/
structure State where
  -- memory and its shadows
  mem : List Host.Cell := []
  memTag : Tbl (Nat × Nat) := []
  stale : Tbl Cell := []
  lines : List Line := []
  hostMem : List Host.Cell := []
  weights : Tbl Byte := []
  granuleTenant : Tbl Nat := []
  spad : Tbl Byte := []
  rowTenant : Tbl Nat := []
  -- time order
  past : List Event := []
  events : Nat := 0
  -- what runs
  groups : Tbl Group := []
  quarters : Tbl Quarter := []
  rowHolds : List RowHold := []
  accesses : List Access := []
  spills : List SpillEntry := []
  replay : Tbl Replay := []
  ranges : List RangeEntry := []
  copies : List Copy := []
  tickets : Tbl Ticket := []
  tableLoads : List TableLoad := []
  relocations : List Relocation := []
  kiosks : Tbl Kiosk := []
  tiles : Tbl Dword := []
  budgets : Tbl Nat := []
  opTab : Tbl OpDesc := []
  street : List StreetSeq := []
  -- translation
  tlb : List TlbEntry := []
  ats : List AtsRequest := []
  atsCompletions : Nat := 0
  tlbInv : Tbl Invalidation := []
  sdInv : Tbl Invalidation := []
  -- submission and admission
  queues : Tbl Queue := []
  ring : Tbl Nat := []
  intake : Tbl Nat := []
  launches : List Launch := []
  regionsOf : Tbl Region := []
  regionCmds : List RegionCmd := []
  contexts : Tbl Context := []
  ladders : List Ladder := []
  -- migration
  migQueue : List MigRequest := []
  moves : List Move := []
  counters : Tbl Counter := []
  damaged : List Nat := []
  pins : Tbl Nat := []
  cooling : List (Nat × Nat) := []
  handovers : List Handover := []
  -- registers
  xreg : Tbl Dword := []
  keyGen : Tbl Nat := []
  pubKeys : Tbl (List Byte) := []
  keyLoad : Option Nat := none
  errLog : Tbl (List LogEntry) := []
  errOvf : List Nat := []
  ready : BitVec 20 := 0
  failed : BitVec 20 := 0
  power : Power := .off
  -- outside
  harts : Tbl Hart := []
  msis : List (Nat × Word) := []
  completions : List (Nat × Nat × Nat) := []
  mgmt : List MgmtMsg := []
  pagerequests : List (BitVec 20 × Nat) := []
  -- time
  clock : Nat := 0
  hubStart : Nat := 0
  dieReady : Tbl Nat := []
  avenue : Tbl Nat := []
  refresh : Tbl Bool := []
  refills : Tbl Nat := []
  -- the model's own
  issue : Option Issue := none
  hartIssue : Option Nat := none
  agenda : List Turn := []
  backs : List Nat := []
  fresh : Nat := 0
  nextId : Nat := 1
  deriving DecidableEq, Repr

/-- Where the model itself cannot give a next state. -/
inductive Fault
  /-- A Usxel word ran outside an issue: no gang is named. Raised by every Usxel word's meaning when the issue context is empty;
  the part has no such state. Safe: the model stops where there is nothing to run. -/
  | noIssuingGang
  /-- A hart word ran while no hart is named. Raised by the two hart words. Safe, as above. -/
  | noIssuingHart
  deriving DecidableEq, Repr

/-- What the model refuses, by name. -/
inductive Refusal
  /-- The instruction has no meaning yet. Raised by the arms of exec alone. Safe. -/
  | notModelled (mnemonic : String)
  deriving DecidableEq, Repr

/-- The part at power-on: every expert register at its reset value (R348 and the maps it names; log 6, DESIGN CHOICE), nothing placed, nothing
ready (R355). -/
def State.reset : State := {}

/-- The machine's memory is in canonical form: addresses strictly rise, and no byte equals 0, which an unlisted byte reads as. -/
abbrev Memory := List Host.Cell

/-- The canonical form of memory. -/
def Memory.wf (m : Memory) : Bool := tblWf (0 : Byte) m

end Sys2Proof.Machine
end

