-- ==== Sys2Proof/Machine/Ops.lean ====
section
/-! DEFINITION. The named operations over the part's memory, registers, groups and logs, and the taking of a trap (R171), the one
shared operation that every trapping step calls, with the release from it (R173). -/

namespace Sys2Proof.Machine

/-- How a step of the part ends. -/
abbrev Result := Host.Outcome State Fault Refusal

/-! ### Where things stand (R1, R13, R20) -/

def coreOf (gid : Nat) : Nat := gid / 64
def quarterOf (gid : Nat) : Nat := gid / 16
def dieOf (gid : Nat) : Nat := gid / 8192
def groupSlotOf (gid : Nat) : Nat := gid % 16
def dieOfCore (core : Nat) : Nat := core / 128

/-- Bits hi..lo of a value, as a number. -/
def bitsOf {n : Nat} (v : BitVec n) (hi lo : Nat) : Nat := (v.toNat / 2 ^ lo) % 2 ^ (hi + 1 - lo)

/-- A value with bits hi..lo replaced. -/
def withBits (v : Dword) (hi lo x : Nat) : Dword :=
  BitVec.ofNat 64 (v.toNat - bitsOf v hi lo * 2 ^ lo + (x % 2 ^ (hi + 1 - lo)) * 2 ^ lo)

/-- A mask with the listed bits set. -/
def maskOf (lanes : List Nat) : BitVec 64 := lanes.foldl (fun m i => m ||| (1#64 <<< i)) 0

/-! ### Bytes (R6: little-endian) -/

/-- The n bytes of a value, lowest first. -/
def bytesOf (n : Nat) (v : Nat) : List Byte := (List.range n).map fun i => BitVec.ofNat 8 (v / 2 ^ (8 * i))

/-- The value of a list of bytes, lowest first. -/
def natOfBytes : List Byte → Nat
  | [] => 0
  | b :: bs => b.toNat + 256 * natOfBytes bs

/-- The low 32 bits and the high 32 bits of a pair (R6). -/
def lowWord (v : Dword) : Word := v.extractLsb' 0 32
def highWord (v : Dword) : Word := v.extractLsb' 32 32
def pairOf (lo hi : Word) : Dword := hi ++ lo

/-! ### Identifiers and free values -/

/-- A fresh identifier: identifiers rise in the order in which things come to be. -/
def takeId (s : State) : Nat × State := (s.nextId, { s with nextId := s.nextId + 1 })

/-- The number of the next value that the spec leaves open. -/
def takeFresh (s : State) : Nat × State := (s.fresh, { s with fresh := s.fresh + 1 })

/-! ### Expert registers (R348) -/

/-- The reset value of the register at an offset: 0, but COOL 1000 in GCNT (R305). -/
def xDefault (key : Nat) : Dword :=
  if key % 2 ^ 20 ≥ 0x2800 ∧ key % 2 ^ 20 < 0x3000 ∧ key < 2 ^ 20 then 0x000003E800000000 else 0

def xKey (f offset : Nat) : Nat := 2 ^ 20 * f + offset

def getX (s : State) (f offset : Nat) : Dword := tblGet (xDefault (xKey f offset)) s.xreg (xKey f offset)

def setX (s : State) (f offset : Nat) (v : Dword) : State :=
  { s with xreg := tblSet (xDefault (xKey f offset)) s.xreg (xKey f offset) v }

/-- The offset of the binding register of a function's context, among the physical function's registers (R321, R322, R348). -/
def bindOffset (f : Nat) : Nat := if f = 0 then 0x1E00 else 0x1200 + 8 * (f - 1)
def saveOffset (f : Nat) : Nat := if f = 0 then 0x1E08 else 0x1600 + 8 * (f - 1)
def ladderOffset (f : Nat) : Nat := if f = 0 then 0x1E10 else 0x1A00 + 8 * (f - 1)

def bindReg (s : State) (f : Nat) : Dword := getX s 0 (bindOffset f)
/-- EN of a function's binding: its context exists (R321). -/
def ctxExists (s : State) (f : Nat) : Bool := (bindReg s f).getLsbD 0
def ctxPart (s : State) (f : Nat) : Nat := bitsOf (bindReg s f) 15 12
/-- The tenant key slot of a context (R321, R324) (log 19, DEDUCED). -/
def ctxKey (s : State) (f : Nat) : Nat := bitsOf (bindReg s f) 23 16
def sqcfg (s : State) (f q : Nat) : Dword := getX s f (0x400 + 8 * q)
def ctxPasid (s : State) (f : Nat) : BitVec 20 := (getX s f 0x1A0).extractLsb' 0 20
def pquota (s : State) (p : Nat) : Dword := getX s 0 (0x1100 + 8 * p)
def pshare (s : State) (p : Nat) : Dword := getX s 0 (0x1180 + 8 * p)
def getCtx (s : State) (f : Nat) : Context := tblGet {} s.contexts f
def setCtx (s : State) (f : Nat) (c : Context) : State := { s with contexts := tblSet {} s.contexts f c }
/-- The virtual-function number of a function in records and logs, 0xFF for the physical function (R322, R338). -/
def vfNumber (f : Nat) : Nat := if f = 0 then 0xFF else f - 1
/-- The contexts bound to partition p and enabled. -/
def ctxsOf (s : State) (p : Nat) : List Nat := (List.range 129).filter fun f => ctxExists s f && ctxPart s f == p

/-! ### Time (R5): the clock counts arithmetic clocks of 1.25 GHz; the hub runs at 8/5 of it (2.0 GHz), and counts from its bring-up (R338) -/

def hubClock (s : State) : Nat := (s.clock - s.hubStart) * 8 / 5
/-- Arithmetic clocks of a number of microseconds. -/
def usClocks (us : Nat) : Nat := us * 1250
/-- Log 99, DEDUCED. -/
def dieClock (s : State) (die : Nat) : Nat := s.clock - tblGet 0 s.dieReady die
def readyBit (s : State) (i : Nat) : Bool := s.ready.getLsbD i

/-! ### Error logs (R338, R339) -/

/-- Add an entry to one function's log; a full log sets OVF. -/
def logOne (s : State) (f : Nat) (e : LogEntry) : State :=
  let old := tblGet [] s.errLog f
  if old.length < 16 then { s with errLog := tblSet [] s.errLog f (old ++ [e]) }
  else if s.errOvf.contains f then s else { s with errOvf := f :: s.errOvf }

/-- Log an event in the function that caused it, and in the physical function. -/
def logError (s : State) (f cause : Nat) (addr : Dword) : State :=
  let e : LogEntry := { addr := addr, cause := cause, vf := vfNumber f, time := hubClock s % 2 ^ 40 }
  if f = 0 then logOne s 0 e else logOne (logOne s f e) 0 e

/-- The package address of a register (R349), under which its refused writes are logged (log 54, DEDUCED). -/
def registerAddress (f offset : Nat) : Dword := BitVec.ofNat 64 (0xF800000000000 + 0x100000 * f + offset)

/-- A register write is refused: the register keeps its value, and the write is logged (R318, R339). -/
def refuseWrite (s : State) (f offset : Nat) : State := logError s f 1 (registerAddress f offset)

/-! ### Register gates (R322, R348, R355) -/

/-- A register write reaches the hub: until the hub is ready it returns an error and is logged with cause 2 (R355). -/
def gateHub (s : State) (f offset : Nat) (h : State → State) : State :=
  if readyBit s 0 then h s else logError s f 2 (registerAddress f offset)

/-- A write to a context-scope register: without a context it is refused (R322, R339) (log 61, DEDUCED). -/
def gateCtx (s : State) (f offset : Nat) (h : State → State) : State :=
  gateHub s f offset fun s => if f < 129 && ctxExists s f then h s else refuseWrite s f offset

/-! ### Memory of tiers 0 to 2, and of the host (R253, R295, R324 to R326). A physical address at or above 2^60 names a byte of host
memory. -/

def hostBase : Nat := 2 ^ 60

/-- What a physical address names (R295); tier 2 is the enabled decoder windows of the CXL ports (R346). -/
inductive Place
  | tier0 (die : Nat) | tier1 | tier2 (port : Nat) | host | unmapped
  deriving DecidableEq, Repr

/-- The offset of decoder d of port p (R348). -/
def hdmOffset (port dec : Nat) : Nat := 0x3400 + 32 * (4 * port + dec)

/-- Whether an address lies in the enabled window of a decoder (R346). -/
def inWindow (s : State) (pa n : Nat) : Bool :=
  let b := getX s 0 (hdmOffset (n / 4) (n % 4))
  let base := bitsOf b 51 28 * 2 ^ 28
  let size := bitsOf (getX s 0 (hdmOffset (n / 4) (n % 4) + 8)) 51 28 * 2 ^ 28
  b.getLsbD 0 && decide (base ≤ pa) && decide (pa < base + size)

/-- The decoder window of tier 2 that holds an address (R346). -/
def windowOf (s : State) (pa : Nat) : Option Nat :=
  if 0x1000000000000 ≤ pa ∧ pa < 0xF000000000000 then (List.range 32).find? (inWindow s pa) else none

def placeOf (s : State) (pa : Nat) : Place :=
  if hostBase ≤ pa then .host
  else if pa < 0x4000000000 then .tier0 0
  else if pa < 0x8000000000 then .tier0 1
  else if 0x10000000000 ≤ pa ∧ pa < 0x20000000000 then .tier1
  else
    match windowOf s pa with
    | some n => .tier2 (n / 4)
    | none => .unmapped

/-- Where the byte of a physical address stands (R346): an address in a decoder's window at offset o from its base names byte DPA + o of
the device on the decoder's port, which this model numbers from 2^56 x (1 + port); every other address names itself. -/
def locate (s : State) (pa : Nat) : Nat :=
  if hostBase ≤ pa then pa
  else
    match windowOf s pa with
    | some n =>
      let base := bitsOf (getX s 0 (hdmOffset (n / 4) (n % 4))) 51 28 * 2 ^ 28
      let dpa := bitsOf (getX s 0 (hdmOffset (n / 4) (n % 4) + 16)) 51 28 * 2 ^ 28
      2 ^ 56 * (1 + n / 4) + (dpa + (pa - base)) % 2 ^ 52
    | none => pa

/-- The tier of an address, 3 for none (R295, R306). -/
def tierOf (s : State) (pa : Nat) : Nat :=
  match placeOf s pa with
  | .tier0 _ => 0
  | .tier1 => 1
  | .tier2 _ => 2
  | _ => 3

/-- The item of READY that serves an address (R355) (log 27, DEDUCED). -/
def itemReadyAt (s : State) (pa : Nat) : Bool :=
  match placeOf s pa with
  | .tier0 d => readyBit s (6 + d)
  | .tier1 => readyBit s 2
  | .tier2 p => readyBit s (10 + p)
  | .host => readyBit s 18
  | .unmapped => false

/-- Log 1, DESIGN CHOICE. -/
def readByte (s : State) (pa : Nat) : Byte := tblGet 0 s.mem (locate s pa)

/-- A tenant's key as a byte is tagged with it: the slot and how often the slot's key was drawn (R325, R326). -/
def keyNow (s : State) (slot : Nat) : Nat × Nat := (slot, tblGet 0 s.keyGen slot)

/-- The tenant of a key slot as rows and granules are marked with it (R320): the slot and how often its key was drawn. -/
def tenantOf (s : State) (slot : Nat) : Nat := 256 * tblGet 0 s.keyGen slot + slot

/-- The number that stands for no encryption, beside the 256 key slots (R324). -/
def plainKey : Nat := 256

/-- What stands in a byte of memory, by where it stands (locate). -/
def cellAt (s : State) (a : Nat) : Cell :=
  if hostBase ≤ a then (tblGet 0 s.hostMem (a - hostBase), none) else (tblGet 0 s.mem a, tblFind s.memTag a)

/-- The byte that a read under a key gets of a cell (R325): the byte last written, or, when it was written under another key, what its
stored form decrypts to: a fixed byte of the address, the 16-byte cipher block around it and the key. -/
def openCell (s : State) (key a : Nat) (block : Nat → Cell) : Byte :=
  match (block a).2 with
  | none => (block a).1
  | some k =>
    if k = keyNow s key then (block a).1
    else Config.wrongKeyByte a ((List.range 16).map fun i => block (a / 16 * 16 + i)) (keyNow s key)

/-- Forget that a line is dirty: its tier holds what its bytes hold (R254). -/
def cleanLine (s : State) (line : Nat) : State := { s with stale := s.stale.filter fun e => !decide (e.1 / 128 = line) }

/-- The line is dirty. -/
def lineDirty (s : State) (line : Nat) : Bool := s.stale.any fun e => decide (e.1 / 128 = line)

/-- The line of an address is dirty under another key than the one given (R325). -/
def dirtyUnderOther (s : State) (key line : Nat) : Bool :=
  s.stale.any fun e => decide (e.1 / 128 = line) && decide ((tblFind s.memTag e.1).map Prod.fst ≠ some key)

/-- An access under a key to a line that stands in the caches under another key writes the line back first when it is dirty, and drops it
(R325). -/
def recallLine (s : State) (key line : Nat) : State :=
  let s1 := if dirtyUnderOther s key line then cleanLine s line else s
  { s1 with lines := s1.lines.filter fun l => !(l.line == line && l.key != key) }

/-- Recall every line that n bytes from an address touch. -/
def recallLines (s : State) (key a n : Nat) : State :=
  if hostBase ≤ a then s
  else (List.range ((a % 128 + n + 127) / 128)).foldl (fun t i => recallLine t key (a / 128 + i)) s

/-- Store a byte under a key where it stands. The first write to a clean byte records what its tier holds (R254). -/
def storeCell (s : State) (key a : Nat) (b : Byte) : State :=
  if hostBase ≤ a then { s with hostMem := tblSet 0 s.hostMem (a - hostBase) b }
  else
    let stale := match tblFind s.stale a with
      | some _ => s.stale
      | none => tblInsert s.stale a (cellAt s a)
    { s with mem := tblSet 0 s.mem a b, memTag := tblInsert s.memTag a (keyNow s key), stale := stale }

/-- Read n bytes of page tables and rings, whose words the part's own walkers read in the clear (log 22, DEDUCED). -/
def readClear (s : State) (pa n : Nat) : Nat := natOfBytes ((List.range n).map fun i => readByte s (pa + i))

/-- Write in the clear, keeping each byte's key. -/
def writeClear (s : State) (pa : Nat) : List Byte → State
  | [] => s
  | b :: bs => writeClear { s with mem := tblSet 0 s.mem (locate s pa) b } (pa + 1) bs

/-- The physical addresses that name a byte where it stands: the inverse of locate. -/
def namesOf (s : State) (a : Nat) : List Nat :=
  if a < 2 ^ 56 then [a]
  else ((List.range 32).map fun n =>
    let base := bitsOf (getX s 0 (hdmOffset (n / 4) (n % 4))) 51 28 * 2 ^ 28
    let dpa := bitsOf (getX s 0 (hdmOffset (n / 4) (n % 4) + 16)) 51 28 * 2 ^ 28
    base + (a % 2 ^ 56 + 2 ^ 52 - dpa) % 2 ^ 52).filter fun pa => locate s pa == a

/-- The offset in a frame of 2^bits bytes of a byte by where it stands. -/
def offsetIn (s : State) (frame bits a : Nat) : Option Nat :=
  ((namesOf s a).find? fun pa => decide (frame ≤ pa) && decide (pa < frame + 2 ^ bits)).map fun pa => pa - frame

/-! ### Scratchpad and weight store (R177, R178, R253). A scratchpad byte's key is core x 393216 + byte; a weight-store byte's is
die x 2^31 + offset. -/

def spadKey (core byte : Nat) : Nat := 393216 * core + byte
/-- Log 2, DESIGN CHOICE. -/
def readSpad (s : State) (core byte : Nat) : Byte := tblGet 0 s.spad (spadKey core byte)
def writeSpad (s : State) (core byte : Nat) (b : Byte) : State := { s with spad := tblSet 0 s.spad (spadKey core byte) b }

def readSpadBytes (s : State) (core byte n : Nat) : List Byte := (List.range n).map fun i => readSpad s core (byte + i)

def writeSpadBytes (s : State) (core byte : Nat) : List Byte → State
  | [] => s
  | b :: bs => writeSpadBytes (writeSpad s core byte b) core (byte + 1) bs

def readWeight (s : State) (die off : Nat) : Byte := tblGet 0 s.weights (2 ^ 31 * die + off)
def writeWeight (s : State) (die off : Nat) (b : Byte) : State := { s with weights := tblSet 0 s.weights (2 ^ 31 * die + off) b }

/-! ### Groups and fibres -/

def getGroup (s : State) (gid : Nat) : Option Group := tblFind s.groups gid
def setGroup (s : State) (gid : Nat) (g : Group) : State := { s with groups := tblInsert s.groups gid g }
def modGroup (s : State) (gid : Nat) (f : Group → Group) : State := { s with groups := tblModify s.groups gid f }
def getQuarter (s : State) (q : Nat) : Quarter := tblGet {} s.quarters q
def setQuarter (s : State) (q : Nat) (v : Quarter) : State := { s with quarters := tblSet {} s.quarters q v }
def getKiosk (s : State) (core : Nat) : Kiosk := tblGet {} s.kiosks core
def setKiosk (s : State) (core : Nat) (k : Kiosk) : State := { s with kiosks := tblSet {} s.kiosks core k }
def getHart (s : State) (h : Nat) : Hart := tblGet {} s.harts h
def setHart (s : State) (h : Nat) (v : Hart) : State := { s with harts := tblSet {} s.harts h v }

/-- The fibre at a lane. -/
def Group.fibre (g : Group) (lane : Nat) : Fibre := (g.fibres[lane]?).getD {}
def Group.setFibre (g : Group) (lane : Nat) (f : Fibre) : Group := { g with fibres := setAt g.fibres lane f }
def Group.modFibre (g : Group) (lane : Nat) (h : Fibre → Fibre) : Group := g.setFibre lane (h (g.fibre lane))
def modFibre (s : State) (gid lane : Nat) (h : Fibre → Fibre) : State := modGroup s gid fun g => g.modFibre lane h
def modLanes (s : State) (gid : Nat) (lanes : List Nat) (h : Fibre → Fibre) : State :=
  modGroup s gid fun g => lanes.foldl (fun g i => g.modFibre i h) g

/-- A fibre is live from its creation until it ends; one parked by fibre-stop is live (R17, R337). -/
def Fibre.live (f : Fibre) : Bool := f.slot == .live || f.slot == .parked
def Group.liveLanes (g : Group) : List Nat := (List.range g.width).filter fun i => (g.fibre i).live

/-- Lane pages of a group (R21). -/
def Group.pages (g : Group) : Nat := if g.width = 64 then 2 else 1

/-- The key of the register cell of lane i at row r of its lane page (R23). -/
def cellKey (g : Group) (lane row : Nat) : Nat := ((lane / 32) * g.rows + row) * 32 + lane % 32
def Group.cell (g : Group) (lane row : Nat) : Word := tblGet 0 g.regs (cellKey g lane row)
def Group.setCell (g : Group) (lane row : Nat) (v : Word) : Group := { g with regs := tblSet 0 g.regs (cellKey g lane row) v }

/-- Register n of a fibre, in its window (R23). -/
def Group.reg (g : Group) (lane n : Nat) : Word := g.cell lane ((g.fibre lane).wb + n)
def Group.setReg (g : Group) (lane n : Nat) (v : Word) : Group := g.setCell lane ((g.fibre lane).wb + n) v
def Group.pair (g : Group) (lane n : Nat) : Dword := pairOf (g.reg lane n) (g.reg lane (n + 1))
/-- The values of k registers from n. -/
def Group.block (g : Group) (lane n k : Nat) : List Word := (List.range k).map fun i => g.reg lane (n + i)
/-- Write consecutive registers. -/
def Group.setBlock (g : Group) (lane n : Nat) : List Word → Group
  | [] => g
  | v :: vs => (g.setReg lane n v).setBlock lane (n + 1) vs

/-- The window check of R23 and the bound of R58 for k registers from code n. -/
def Group.inRange (g : Group) (lane n k : Nat) : Bool := decide (n + k ≤ 120) && decide ((g.fibre lane).wb + n + k ≤ g.rows)

/-- A cell of a landing slot (R209, R219). -/
def Group.landCell (g : Group) (ls row col : Nat) : Word := tblGet 0 g.land (ls * 2048 + row * 32 + col)
def Group.setLand (g : Group) (ls row col : Nat) (v : Word) : Group :=
  { g with land := tblSet 0 g.land (ls * 2048 + row * 32 + col) v }

/-! ### Accesses and scoreboard slots (R181) -/

def accessesOf (s : State) (gid lane : Nat) : List Access := s.accesses.filter fun a => a.gid == gid && a.lane == lane

/-- How many unfinished accesses are recorded against a slot of a fibre. -/
def slotCount (s : State) (gid lane k : Nat) : Nat :=
  (s.accesses.filter fun a => a.gid == gid && a.lane == lane && a.slot == some k).length

/-- The pending bit of a slot. -/
def slotPending (s : State) (gid lane k : Nat) : Bool :=
  s.accesses.any fun a => a.gid == gid && a.lane == lane && a.slot == some k

/-- Whether any scoreboard slot of a fibre is pending. -/
def anyPending (s : State) (gid lane : Nat) : Bool := s.accesses.any fun a => a.gid == gid && a.lane == lane && a.slot.isSome

def addAccess (s : State) (a : Access) : State := { s with accesses := s.accesses ++ [a] }
def dropAccess (s : State) (id : Nat) : State := { s with accesses := s.accesses.filter fun a => !(a.id == id) }
def findAccess (s : State) (id : Nat) : Option Access := s.accesses.find? fun a => a.id == id
def modAccess (s : State) (id : Nat) (h : Access → Access) : State :=
  { s with accesses := s.accesses.map fun a => if a.id == id then h a else a }

/-- R18: the slot of an ended fibre becomes free once its scoreboard slots have cleared. -/
def freeSlots (s : State) (gid lane : Nat) : State :=
  modFibre s gid lane fun f => if f.slot == .ended && !anyPending s gid lane then { f with slot := .free } else f

/-! ### Progress of launches (R51) -/

def findLaunch (s : State) (uid : Nat) : Option Launch := s.launches.find? fun l => l.uid == uid
def modLaunch (s : State) (uid : Nat) (h : Launch → Launch) : State :=
  { s with launches := s.launches.map fun l => if l.uid == uid then h l else l }

/-- The launch of a group makes progress now. -/
def progressOf (s : State) (gid : Nat) : State :=
  match getGroup s gid with
  | some g => modLaunch s g.uid fun l => { l with lastProgress := s.clock }
  | none => s

/-! ### Traps (R170 to R174) -/

/-- Whether the group's context is in fibre-stop mode (R335). -/
def fibreStop (s : State) (g : Group) : Bool := (getX s g.ctx 0x158).getLsbD 1

/-- The trap record of a trap that the listed fibres raise; none of them when no fibre raised it by its own access (R353) (log 43,
DEDUCED). -/
def trapRecordOf (g : Group) (gid cause : Nat) (lanes : List Nat) (detail : Dword) : TrapRecord :=
  let low := lanes.head?
  { cause := cause, gid := gid, part := g.part, vf := vfNumber g.ctx, mask := maskOf lanes
    detail := detail
    counter := match low with
      | some i => (g.fibre i).pc
      | none => 0
    progress := match low with
      | some i => (g.fibre i).progress
      | none => 0
    launch := g.launch }

/-- Step 2 of R171: issue stops in the whole group, or, in fibre-stop mode and for the breakpoint and single-step traps alone, in the
named fibres (R337). -/
def stopFor (s : State) (g : Group) (gid cause : Nat) (lanes : List Nat) : State :=
  if fibreStop s g && (cause == 0x14 || cause == 0x15) then
    modLanes s gid lanes fun f => { f with slot := if f.slot == .live then .parked else f.slot }
  else modGroup s gid fun g => { g with stopping := true, debugPark := g.debugPark || cause == 0x14 || cause == 0x15 }

/-- TAKING A TRAP (R171): its record goes to the kiosk of the group's core, where GROUP_PARK and TRAP_QUEUE_ENTER deliver it, and issue
stops. -/
def deliverTrap (s : State) (g : Group) (gid cause : Nat) (lanes : List Nat) (r : TrapRecord) : State :=
  let k := getKiosk s (coreOf gid)
  stopFor (setKiosk s (coreOf gid) { k with waiting := k.waiting ++ [r] }) g gid cause lanes

/-- A trap in a group: the lanes are the trapping fibres in ascending order (R171, R353). -/
def takeTrap (s : State) (cause gid : Nat) (lanes : List Nat) (detail : Dword) : State :=
  match getGroup s gid with
  | none => s
  | some g => deliverTrap s g gid cause lanes (trapRecordOf g gid cause lanes detail)

/-- A trap that no fibre raised by its own access: its record names no fibre (R353). -/
def takeEngineTrap (s : State) (cause gid : Nat) (detail : Dword) : State := takeTrap s cause gid [] detail

/-- THE RETURN FROM A TRAP (R173, R62): the group runs again, every latch invalid; after a breakpoint or single-step park the first chain of
each fibre passes its own breakpoint (R336). -/
def releaseGroup (s : State) (gid : Nat) : State :=
  modGroup s gid fun g =>
    { g with stopping := false, parked := false, debugPark := false
             fibres := g.fibres.map fun f => { f with latchValid := 0, passBreak := f.passBreak || g.debugPark } }

/-- The release of one fibre parked by fibre-stop (R337). -/
def releaseFibre (s : State) (gid lane : Nat) : State :=
  modFibre s gid lane fun f =>
    if f.slot == .parked then { f with slot := .live, latchValid := 0, passBreak := true } else f

/-! ### The issuing gang (R54, R55, R63) -/

/-- Run an effect for the issuing gang, when there is one whose group is resident. -/
def withGang (s : State) (h : Issue → Group → Result) : Result :=
  match s.issue with
  | none => .fault .noIssuingGang
  | some i =>
    match getGroup s i.gid with
    | none => .fault .noIssuingGang
    | some g => h i g

/-- The group whose registers the sources are read from: as it was before the chain (R55). -/
def Issue.sourceGroup (i : Issue) (g : Group) : Group := i.snap.getD g

/-- A grd prefix excludes the fibre (R70). -/
def Issue.excluded (i : Issue) (src : Group) (lane : Nat) : Bool :=
  match i.grd with
  | none => false
  | some (sense, bit) => (src.fibre lane).pw.getLsbD bit.toNat == sense

/-- The fibres of the gang that no grd prefix excludes, in ascending lane order (R70, R175). -/
def Issue.participants (i : Issue) (g : Group) : List Nat := i.lanes.filter fun l => !i.excluded (i.sourceGroup g) l

/-- Send every fibre of the gang to the next chain (R149). -/
def advance (s : State) (i : Issue) : State := modLanes s i.gid i.lanes fun f => { f with pc := i.next, progress := 0 }

/-- A precise trap at the issuing instruction: the detail word is the instruction word (R171); no effect but the trap. -/
def trapWord (s : State) (i : Issue) (cause : Nat) (lanes : List Nat) (w : Word) : State :=
  takeTrap s cause i.gid lanes (w.setWidth 64)

end Sys2Proof.Machine
end

