-- ==== Sys2Proof/Machine/Flags.lean ====
section
/-! DEFINITION. The status word FSTAT (R165) and how a word sets its sticky bits (R121, R99). -/

namespace Sys2Proof.Machine

/-- The sticky bits that a word sets, before they reach an FSTAT. -/
structure Status where
  nv : Bool := false
  dz : Bool := false
  ovf : Bool := false
  uf : Bool := false
  nx : Bool := false
  ix : Bool := false
  ll : Bool := false
  deriving DecidableEq, Repr

/-- The union of two sets of status bits. -/
def Status.or (a b : Status) : Status :=
  { nv := a.nv || b.nv, dz := a.dz || b.dz, ovf := a.ovf || b.ovf, uf := a.uf || b.uf, nx := a.nx || b.nx
    ix := a.ix || b.ix, ll := a.ll || b.ll }

/-- The bits as FSTAT holds them (R165): NV 2, DZ 3, OF 4, UF 5, NX 6, IX 7, LL 8. -/
def Status.toWord (a : Status) : Word :=
  (if a.nv then 0x4 else 0) ||| (if a.dz then 0x8 else 0) ||| (if a.ovf then 0x10 else 0) ||| (if a.uf then 0x20 else 0)
    ||| (if a.nx then 0x40 else 0) ||| (if a.ix then 0x80 else 0) ||| (if a.ll then 0x100 else 0)

/-- Add status bits to an FSTAT. -/
def raiseStatus (f : Fibre) (a : Status) : Fibre := { f with fstat := f.fstat ||| a.toWord }

/-- The rounding mode of a fibre (R165): FSTAT[1:0]. -/
def roundingMode (f : Fibre) : Nat := bitsOf f.fstat 1 0

/-- The bits of FSTAT that a write changes (R165): [31:9] are reserved. -/
def fstatWritable : Word := 0x1FF

end Sys2Proof.Machine
end

