-- ==== Sys2Proof/Machine/Float.lean ====
section
/-! DEFINITION. Number formats and arithmetic (05_arithmetic.md): values are exact dyadic numbers, rounded once. -/

namespace Sys2Proof.Machine

/-- A floating-point format (R89): widths of exponent and mantissa, bias, the encoding of the largest finite value, whether it has
infinities and whether NaNs are those of IEEE (all exponents ones), one code (E4M3) or none (E2M1). -/
structure FpFormat where
  eb : Nat
  mb : Nat
  bias : Nat
  maxFinite : Nat
  infs : Bool
  nans : Bool
  canon : Nat
  deriving DecidableEq, Repr

def fp32 : FpFormat := ⟨8, 23, 127, 0x7F7FFFFF, true, true, 0x7FC00000⟩
def bf16 : FpFormat := ⟨8, 7, 127, 0x7F7F, true, true, 0x7FC0⟩
def fp16 : FpFormat := ⟨5, 10, 15, 0x7BFF, true, true, 0x7E00⟩
def e4m3 : FpFormat := ⟨4, 3, 7, 0x7E, false, true, 0x7F⟩
def e5m2 : FpFormat := ⟨5, 2, 15, 0x7B, true, true, 0x7E⟩
def e2m1 : FpFormat := ⟨2, 1, 1, 0x7, false, false, 0⟩

/-- The bits of a format below its sign. -/
def FpFormat.magBits (f : FpFormat) : Nat := f.eb + f.mb

/-- A value: a NaN, an infinity, or (-1)^neg x m x 2^e, with a sign on zero (R90, R91). -/
inductive Fv
  | nan (signalling : Bool)
  | inf (neg : Bool)
  | fin (neg : Bool) (m : Nat) (e : Int)
  deriving DecidableEq, Repr

/-- The value of an encoding (R89 to R91). -/
def FpFormat.decode (f : FpFormat) (x : Nat) : Fv :=
  let neg := x / 2 ^ f.magBits % 2 == 1
  let e := x / 2 ^ f.mb % 2 ^ f.eb
  let m := x % 2 ^ f.mb
  let top := e + 1 == 2 ^ f.eb
  if top && f.infs && m == 0 then .inf neg
  else if top && f.infs then .nan (m < 2 ^ (f.mb - 1) && 3 < f.mb)
  else if f.nans && !f.infs && top && m + 1 == 2 ^ f.mb then .nan false
  else if e == 0 then .fin neg m (1 - (f.bias : Int) - f.mb)
  else .fin neg (2 ^ f.mb + m) ((e : Int) - f.bias - f.mb)

/-- The sign bit of a format, set or not. -/
def FpFormat.sign (f : FpFormat) (neg : Bool) : Nat := if neg then 2 ^ f.magBits else 0

def FpFormat.infBits (f : FpFormat) (neg : Bool) : Nat := f.sign neg + (2 ^ f.eb - 1) * 2 ^ f.mb

/-- 2^k for an integer k that is not negative. -/
def pow2 (k : Int) : Nat := 2 ^ k.toNat

/-- Whether a mode (R96: 0 RNE, 1 RTZ, 2 RUP, 3 RDN) rounds the magnitude up, from the kept part's parity and the discarded part:
whether it is nonzero, and how it compares with half a unit. -/
def roundsUp (mode : Nat) (neg odd nonzero : Bool) (half : Ordering) : Bool :=
  match mode with
  | 0 => half == .gt || (half == .eq && odd)
  | 1 => false
  | 2 => nonzero && !neg
  | _ => nonzero && neg

/-- A magnitude m x 2^e, with something less than one unit 2^e more when sticky is set, as a multiple of 2^q: the multiple, and
whether it is inexact. The mode is as in R96; 4 is to nearest with ties away from zero (R231). -/
def roundMag (mode : Nat) (neg : Bool) (m : Nat) (e q : Int) (sticky : Bool) : Nat × Bool :=
  if q ≤ e then (m * pow2 (e - q), sticky)
  else if (Nat.log2 m : Int) + 2 < q - e then
    (if mode != 4 && roundsUp mode neg false (m != 0 || sticky) .lt then 1 else 0, m != 0 || sticky)
  else
    let d := pow2 (q - e)
    let hi := m / d
    let lo := m % d
    let nonzero := lo != 0 || sticky
    let cmp := if 2 * lo < d then Ordering.lt else if 2 * lo == d && !sticky then .eq else .gt
    let up := if mode = 4 then cmp != .lt else roundsUp mode neg (hi % 2 == 1) nonzero cmp
    (if up then hi + 1 else hi, nonzero)

/-- The least exponent of a format's unit in the last place. -/
def FpFormat.minUnit (f : FpFormat) : Int := 1 - (f.bias : Int) - f.mb

/-- R97, before overflow is judged: the encoding of the magnitude, with the exponent unbounded above, and whether it is inexact. -/
def FpFormat.roundBits (f : FpFormat) (mode : Nat) (neg : Bool) (m : Nat) (e : Int) (sticky : Bool) : Nat × Bool :=
  let lead : Int := (Nat.log2 m : Int) + e
  let q : Int := if lead - f.mb < f.minUnit then f.minUnit else lead - f.mb
  let r := roundMag mode neg m e q sticky
  if r.1 < 2 ^ f.mb then (r.1, r.2)
  else (((q - f.minUnit).toNat + 1) * 2 ^ f.mb + (r.1 - 2 ^ f.mb), r.2)

/-- What a rounding overflow gives (R97), and under the other outcomes of R102 and R113. -/
inductive Overflow
  | ieee        -- by the mode (R97)
  | saturate    -- the largest finite value
  | nan         -- E4M3 without saturation
  deriving DecidableEq, Repr

/-- The encoding that an overflow gives. -/
def FpFormat.overflowBits (f : FpFormat) (ov : Overflow) (mode : Nat) (neg : Bool) : Nat :=
  match ov with
  | .saturate => f.sign neg + f.maxFinite
  | .nan => f.canon
  | .ieee =>
    if mode = 1 ∨ (mode = 2 ∧ neg = true) ∨ (mode = 3 ∧ neg = false) then f.sign neg + f.maxFinite else f.infBits neg

/-- Round a finite magnitude to a format (R97, R98): the encoding and the status bits. -/
def FpFormat.roundFin (f : FpFormat) (ov : Overflow) (mode : Nat) (neg : Bool) (m : Nat) (e : Int) : Nat × Status :=
  if m = 0 then (f.sign neg, {})
  else
    let r := f.roundBits mode neg m e false
    if f.maxFinite < r.1 then (f.overflowBits ov mode neg, { ovf := true, nx := true })
    else (f.sign neg + r.1, { nx := r.2, uf := r.2 && r.1 < 2 ^ f.mb })

/-- RoundFM of a value that is already special or exact (R91, R97): the canonical NaN, an infinity, or the rounded value. -/
def FpFormat.round (f : FpFormat) (mode : Nat) (v : Fv) : Nat × Status :=
  match v with
  | .nan _ => (f.canon, {})
  | .inf neg => (f.infBits neg, {})
  | .fin neg m e => f.roundFin .ieee mode neg m e

def Fv.isNan : Fv → Bool
  | .nan _ => true
  | _ => false
def Fv.isSignalling : Fv → Bool
  | .nan s => s
  | _ => false
def Fv.isZero : Fv → Bool
  | .fin _ 0 _ => true
  | _ => false
def Fv.isNeg : Fv → Bool
  | .nan _ => false
  | .inf n => n
  | .fin n _ _ => n
def Fv.negate : Fv → Fv
  | .nan s => .nan s
  | .inf n => .inf (!n)
  | .fin n m e => .fin (!n) m e

/-- The exact product, with NV for infinity by zero and for a signalling operand (R99, R100, R110). -/
def fvMul (a b : Fv) : Fv × Bool :=
  match a, b with
  | .nan s, y => (.nan false, s || y.isSignalling)
  | x, .nan s => (.nan false, s || x.isSignalling)
  | .inf n, y => if y.isZero then (.nan false, true) else (.inf (n != y.isNeg), false)
  | x, .inf n => if x.isZero then (.nan false, true) else (.inf (n != x.isNeg), false)
  | .fin n m e, .fin n' m' e' => (.fin (n != n') (m * m') (e + e'), false)

/-- The least exponent of the finite terms. -/
def minExp : List Fv → Int → Int
  | [], acc => acc
  | .fin _ _ e :: rest, acc => minExp rest (if e < acc then e else acc)
  | _ :: rest, acc => minExp rest acc

/-- The finite terms as an integer multiple of 2^e. -/
def scaledSum (e : Int) : List Fv → Int
  | [] => 0
  | .fin n m x :: rest => (if n then -((m * pow2 (x - e) : Nat) : Int) else ((m * pow2 (x - e) : Nat) : Int)) + scaledSum e rest
  | _ :: rest => scaledSum e rest

/-- The exact sum of terms (R100, R113): a NaN when a term is one or opposite infinities meet, else an infinity, else the exact
value, an exact zero being negative when every term is -0 and otherwise as the argument says; with NV (R99). -/
def fvSum (zeroNeg : Bool) (terms : List Fv) : Fv × Bool :=
  let sig := terms.any Fv.isSignalling
  let pos := terms.any fun t => t == .inf false
  let neg := terms.any fun t => t == .inf true
  if terms.any Fv.isNan then (.nan false, sig || (pos && neg))
  else if pos && neg then (.nan false, true)
  else if pos then (.inf false, false)
  else if neg then (.inf true, false)
  else
    let e := minExp terms 0
    let v := scaledSum e terms
    if v = 0 then (.fin (if terms.all fun t => t.isZero && t.isNeg then true else zeroNeg) 0 0, false)
    else (.fin (decide (v < 0)) v.natAbs e, false)

/-- Round with the invalid flag added. -/
def finish (f : FpFormat) (mode : Nat) (r : Fv × Bool) : Nat × Status :=
  let x := f.round mode r.1
  (x.1, { x.2 with nv := x.2.nv || r.2 })

def fpAdd (f : FpFormat) (mode a b : Nat) : Nat × Status := finish f mode (fvSum (mode == 3) [f.decode a, f.decode b])
def fpSub (f : FpFormat) (mode a b : Nat) : Nat × Status := finish f mode (fvSum (mode == 3) [f.decode a, (f.decode b).negate])
def fpMul (f : FpFormat) (mode a b : Nat) : Nat × Status := finish f mode (fvMul (f.decode a) (f.decode b))

/-- R115: one rounding of a x b + c. -/
def fpFma (f : FpFormat) (mode a b c : Nat) : Nat × Status :=
  let p := fvMul (f.decode a) (f.decode b)
  let r := fvSum (mode == 3) [p.1, f.decode c]
  finish f mode (r.1, p.2 || r.2)

/-- A value against another, both not NaN: exact comparison, with -0 equal to +0. -/
def fvCompare (a b : Fv) : Ordering :=
  match a, b with
  | .inf n, .inf n' => if n == n' then .eq else if n then .lt else .gt
  | .inf n, _ => if n then .lt else .gt
  | _, .inf n => if n then .gt else .lt
  | x, y =>
    let e := minExp [x, y] 0
    compare (scaledSum e [x]) (scaledSum e [y])

/-- a lies below b or equals it, with -0 below +0 (R101). -/
def fvBelow (a b : Fv) : Bool :=
  match fvCompare a b with
  | .lt => true
  | .gt => false
  | .eq => a.isNeg || !b.isNeg

/-- R101: minimum or maximum under the propagating or the number discipline. -/
def fpMinMax (f : FpFormat) (max number : Bool) (a b : Nat) : Nat × Status :=
  let x := f.decode a
  let y := f.decode b
  let st : Status := { nv := x.isSignalling || y.isSignalling }
  if x.isNan || y.isNan then
    if !number || (x.isNan && y.isNan) then (f.canon, st)
    else (if x.isNan then b else a, st)
  else if max then (if fvBelow y x then a else b, st)
  else (if fvBelow x y then a else b, st)

/-- The relations of R128 on FP32 values (R101). -/
inductive Relation
  | eq | lt | le | un
  deriving DecidableEq, Repr

def fpCompare (r : Relation) (a b : Nat) : Bool × Status :=
  let x := fp32.decode a
  let y := fp32.decode b
  let sig := x.isSignalling || y.isSignalling
  let nan := x.isNan || y.isNan
  match r with
  | .eq => (!nan && fvCompare x y == .eq, { nv := sig })
  | .lt => (!nan && fvCompare x y == .lt, { nv := nan })
  | .le => (!nan && fvCompare x y != .gt, { nv := nan })
  | .un => (nan, { nv := sig })

/-- R134. -/
def fpScale (mode a : Nat) (n : Int) : Nat × Status :=
  match fp32.decode a with
  | .nan s => (fp32.canon, { nv := s })
  | .inf neg => (fp32.infBits neg, {})
  | .fin neg m e => if m = 0 then (a, {}) else fp32.roundFin .ieee mode neg m (e + n)

/-- The value of a signed integer. -/
def fvOfInt (n : Int) : Fv := .fin (decide (n < 0)) n.natAbs 0

/-- The two's-complement value of the low n bits. -/
def signedBits (n x : Nat) : Int := if 2 ^ (n - 1) ≤ x % 2 ^ n then ((x % 2 ^ n : Nat) : Int) - 2 ^ n else ((x % 2 ^ n : Nat) : Int)

/-- The source of a conversion by type code (R138). -/
def cvtSource (code x : Nat) : Fv :=
  match code with
  | 0 => fp32.decode x
  | 1 => fp16.decode (x % 65536)
  | 2 => bf16.decode (x % 65536)
  | 3 => e4m3.decode (x % 256)
  | 4 => e5m2.decode (x % 256)
  | 5 => e2m1.decode (x % 16)
  | 6 => fvOfInt (signedBits 4 x)
  | 7 => fvOfInt (signedBits 8 x)
  | 8 => fvOfInt (signedBits 32 x)
  | _ => fvOfInt ((x % 2 : Nat) : Int)

/-- The rows of R102 for the floating-point targets: what an infinity gives and what an overflow gives. -/
def cvtToFp (f : FpFormat) (sat : Bool) (mode : Nat) (v : Fv) : Nat × Status :=
  let limit := sat || !f.nans
  match v with
  | .nan s => if f.nans then (f.canon, { nv := s }) else (0, { nv := true })
  | .inf neg =>
    if limit then (f.sign neg + f.maxFinite, { ovf := true })
    else if f.infs then (f.infBits neg, {})
    else (f.canon, { nv := true })
  | .fin neg m e => f.roundFin (if limit then .saturate else if f.infs then .ieee else .nan) mode neg m e

/-- The rows of R102 for the integer targets, as a value between lo and hi. -/
def cvtToInt (lo hi : Int) (mode : Nat) (v : Fv) : Int × Status :=
  match v with
  | .nan _ => (0, { nv := true })
  | .inf neg => (if neg then lo else hi, { nv := true })
  | .fin neg m e =>
    let r := roundMag mode neg m e 0 false
    let n : Int := if neg then -((r.1 : Nat) : Int) else ((r.1 : Nat) : Int)
    if n < lo then (lo, { nv := true }) else if hi < n then (hi, { nv := true }) else (n, { nx := r.2 })

/-- R138, R139: a conversion by target and source codes. -/
def convert (t src mode x : Nat) : Nat × Status :=
  let v := cvtSource src x
  let int (n : Nat) (lo hi : Int) : Nat × Status :=
    let r := cvtToInt lo hi mode v
    ((r.1 % 2 ^ n).toNat, r.2)
  match t with
  | 0 => cvtToFp fp32 false mode v
  | 1 => cvtToFp fp16 false mode v
  | 2 => cvtToFp bf16 false mode v
  | 3 => cvtToFp e4m3 false mode v
  | 4 => cvtToFp e5m2 false mode v
  | 5 => cvtToFp e2m1 false mode v
  | 6 => int 4 (-7) 7
  | 7 => int 8 (-128) 127
  | 8 => int 32 (-2147483648) 2147483647
  | 9 =>
    match v with
    | .nan _ => (0, { nv := true })
    | _ => (if v.isZero then 0 else 1, {})
  | 10 => cvtToFp e4m3 true mode v
  | 11 => cvtToFp e5m2 true mode v
  | 12 => cvtToFp fp16 true mode v
  | _ => cvtToFp bf16 true mode v

/-- R141: to an integral value of the same format. -/
def roundIntegral (f : FpFormat) (mode x : Nat) : Nat × Status :=
  match f.decode x with
  | .nan s => (f.canon, { nv := s })
  | .inf neg => (f.infBits neg, {})
  | .fin neg m e =>
    if m = 0 then (x % 2 ^ (f.magBits + 1), {})
    else
      let r := roundMag mode neg m e 0 false
      let y := f.roundFin .ieee 0 neg r.1 0
      (y.1, { nx := r.2 })

/-- R137, R115: four E4M3 products and an FP32 accumulator, one rounding. -/
def dot4 (mode a b c : Nat) : Nat × Status :=
  let p := (List.range 4).map fun k => (fvMul (e4m3.decode (a / 256 ^ k % 256)) (e4m3.decode (b / 256 ^ k % 256))).1
  finish fp32 mode (fvSum (mode == 3) (p ++ [fp32.decode c]))

/-- Each half of a packed word on its own; the union of their status bits (R135). -/
def packed (h : Nat → Nat → Nat → Nat × Status) (a b c : Word) : Word × Status :=
  let lo := h (a.toNat % 65536) (b.toNat % 65536) (c.toNat % 65536)
  let hi := h (a.toNat / 65536) (b.toNat / 65536) (c.toNat / 65536)
  (BitVec.ofNat 32 (lo.1 + 65536 * hi.1), lo.2.or hi.2)

end Sys2Proof.Machine
end

