-- ==== Sys2Proof/Machine/Order.lean ====
section
/-! DEFINITION. Time order (R260 to R271): where an event takes its place, what a read there returns, and what a write there changes; and
the lines that the caches hold (R189, R190, R253, R254, R317, R325, R327).

Every event is placed when the machine makes it, at the end of time order or some events before it: how far before, the agenda says
(State.backs), as far as the rules that order the event allow. -/

namespace Sys2Proof.Machine

/-! ### Who makes an event, and what it must follow -/

/-- An agent's event to come: who makes it and with which of its words, the first word number of the agent itself, the events that it must
follow, the copies and matrix words whose range entries it waited on (R269), the clock of its issue (R263), and whether it goes to host
memory or a shared page. -/
structure Who where
  agent : Agent
  word : Nat := 0
  born : Nat := 0
  after : List Nat := []
  behind : List Nat := []
  issued : Nat := 0
  far : Bool := false
  sent : Bool := true
  deriving DecidableEq, Repr

/-- All events of the agent lie in the order in which it makes them (log 102, DEDUCED). -/
def Agent.sequential : Agent → Bool
  | .dispatcher _ | .migration | .directory _ | .admission | .caches => true
  | _ => false

/-- The agent is a hart (R274). -/
def Agent.isHart : Agent → Bool
  | .hart _ | .kiosk _ => true
  | _ => false

/-- The agent's events that touch a common byte lie in the order in which it makes them (R265 item 2): all of a fibre's; of a hart's, all but
two reads (R275), for which see scanBack. -/
def Agent.keeps (a : Agent) (bothRead : Bool) : Bool :=
  match a with
  | .fibre .. => true
  | .hart _ | .kiosk _ => !bothRead
  | _ => false

def Event.writes (e : Event) : Bool := !e.old.isEmpty

/-- The event touches one of n bytes of a space. -/
def Event.meets (e : Event) (space first n : Nat) : Bool :=
  e.space == space && decide (e.first < first + n) && decide (first < e.first + e.size)

/-- The event lies in tiers 0 to 2 or in the weight store, where the bound of R263 holds. -/
def Event.near (e : Event) : Bool := (e.space == 0 && !e.far) || e.space == 2

/-- THE ORDER of R261 to R271 between an earlier-made event and one to come: the one to come must follow it. -/
def mustFollow (w : Who) (space first n : Nat) (rd wr : Bool) (e : Event) : Bool :=
  w.after.contains e.id
    || (e.agent == w.agent && decide (w.born ≤ e.word)
      && (w.agent.sequential || (w.agent.keeps (!wr && !e.writes) && e.meets space first n)))
    || w.behind.any (fun o => e.agent == .copy o || e.agent == .matrix o)
    || (wr && w.word != 0 && e.word == w.word && e.meets space first n)
    || (rd && e.writes && e.near && ((space == 0 && !w.far) || space == 2) && decide (e.clock + 2500 ≤ w.issued))

/-- Which of n bytes an event touches. -/
def Event.common (e : Event) (space first n : Nat) : List Nat :=
  if e.space == space then (List.range n).filter fun i => decide (e.first ≤ first + i) && decide (first + i < e.first + e.size) else []

/-- The farthest place before the newest events, at most fuel of them back, that an event to come may take. What it must follow bounds the
scan. A write may not come between a read and the write that it returns: the bytes read by the events passed, and not written by an older
one of them, are open, and the event takes no place while one is. Two reads of a hart that touch a byte keep their order when a write to it
lies between them (R275): seen are the bytes that the hart's events passed have read. free says which places are open to it otherwise. -/
def scanBack (w : Who) (space first n : Nat) (rd wr : Bool) (free : Nat → Bool) : Nat → Nat → Nat → List Nat → List Nat → List Event → Nat
  | 0, _, best, _, _, _ => best
  | _ + 1, _, best, _, _, [] => best
  | fuel + 1, k, best, opened, seen, e :: es =>
    if mustFollow w space first n rd wr e then best
    else
      let met := e.common space first n
      if e.writes && met.any seen.contains then best
      else
        let left := if e.writes then opened.filter fun b => !met.contains b else opened
        let opened1 := if wr && e.rd then left ++ met else left
        let seen1 := if rd && e.rd && e.agent == w.agent && w.agent.isHart then seen ++ met else seen
        scanBack w space first n rd wr free fuel (k + 1) (if opened1.isEmpty && free (k + 1) then k + 1 else best) opened1 seen1 es

/-- How many of the newest events the event to come lies before. -/
def backOf (s : State) (w : Who) (space first n : Nat) (rd wr : Bool) (free : Nat → Bool) : Nat :=
  scanBack w space first n rd wr free (s.backs.headD 0) 0 0 [] [] s.past

/-! ### What a place in time order holds -/

/-- What the event found in a byte that it wrote. -/
def Event.found (e : Event) (space byte : Nat) : Option Cell :=
  if e.space == space && decide (e.first ≤ byte) then e.old[byte - e.first]? else none

/-- A byte as an agent sees it k events before the newest (R261): the value of the last write before that place, passing over writes to
host memory and shared pages that their writers have not sent on (R263). -/
def seenCell (who : Agent) (space byte : Nat) : Nat → Cell → List Event → Cell
  | _, cur, [] => cur
  | k, cur, e :: es =>
    match e.found space byte with
    | none => seenCell who space byte (k - 1) cur es
    | some old => if k = 0 && (e.sent || e.agent == who) then cur else seenCell who space byte (k - 1) old es

/-- A write goes before the oldest of some newer events that writes the byte: that event found what it wrote; what it had found, the write
finds. None when no newer event writes the byte. -/
def slipUnder (space byte : Nat) (c : Cell) : List Event → Option (Cell × List Event)
  | [] => none
  | e :: es =>
    match slipUnder space byte c es with
    | some (old, es') => some (old, e :: es')
    | none =>
      match e.found space byte with
      | none => none
      | some old => some (old, { e with old := setAt e.old (byte - e.first) c } :: es)

/-! ### The bytes of a space, moves counted in (R309). Space 0 is memory by physical address, 1 scratchpad, 2 the weight store. -/

/-- The move whose page holds a physical address, from the source or, while forwarding lasts, by the old frame (R309). -/
def moveOf (s : State) (pa : Nat) : Option Move := s.moves.find? fun m => decide (m.src ≤ pa) && decide (pa < m.src + 2 ^ m.bits)

/-- A byte as the window of a move holds it, when it holds it (R309). -/
def windowByte (m : Move) (pa : Nat) : Option Byte :=
  (m.window.reverse.findSome? fun w => if w.1 ≤ pa ∧ pa < w.1 + w.2.length then w.2[pa - w.1]? else none)

/-- The address that serves an access to a page under a move: the destination once the engine switches (R309). -/
def forwarded (s : State) (pa : Nat) : Nat :=
  match moveOf s pa with
  | some m => if m.phase = .switching then m.dst + (pa - m.src) else pa
  | none => pa

/-- A byte of memory as accesses find it now: in the final phase of a move, merged with the write window. -/
def cellNow (s : State) (pa : Nat) : Cell :=
  match moveOf s pa with
  | some m =>
    if m.phase = .final then
      match windowByte m pa with
      | some b => (b, some (keyNow s (ctxKey s m.ctx)))
      | none => cellAt s (locate s pa)
    else cellAt s (locate s pa)
  | none => cellAt s (locate s pa)

/-- The cells of n bytes from the key of the first, as they stand now. -/
def cellsNow (s : State) (space a n : Nat) : List Cell :=
  (List.range n).map fun i =>
    match space with
    | 0 => cellNow s (a + i)
    | 1 => (tblGet 0 s.spad (a + i), none)
    | _ => (tblGet 0 s.weights (a + i), none)

/-- The key of a byte among events: where it stands. -/
def placeKey (s : State) (space a : Nat) : Nat := if space = 0 then locate s a else a

/-- What an event to come finds in its n bytes, k events back (R261). -/
def cellsAt (s : State) (who : Agent) (space a n k : Nat) : List Cell :=
  ((cellsNow s space a n).zip (List.range n)).map fun x => seenCell who space (placeKey s space a + x.2) k x.1 s.past

/-- Store one byte of a space. -/
def storeByte (s : State) (space key a : Nat) (b : Byte) : State :=
  match space with
  | 0 => storeCell s key (locate s a) b
  | 1 => { s with spad := tblSet 0 s.spad a b }
  | _ => { s with weights := tblSet 0 s.weights a b }

/-- Write bytes under some newer events: what the write finds, the newer events, and the state. -/
def storeUnder (s : State) (space key a : Nat) (newer : List Event) : List Byte → List Cell × List Event × State
  | [] => ([], newer, s)
  | b :: bs =>
    let tag := if space = 0 then some (keyNow s key) else none
    match slipUnder space (placeKey s space a) (b, tag) newer with
    | some (old, es) =>
      let t := storeUnder s space key (a + 1) es bs
      (old :: t.1, t.2)
    | none =>
      let old := (cellsNow s space a 1).headD (0, none)
      let t := storeUnder (storeByte s space key a b) space key (a + 1) newer bs
      (old :: t.1, t.2)

/-- Record an event k places before the newest. -/
def noteEvent (s : State) (w : Who) (k space first n : Nat) (rd : Bool) (old : List Cell) (newer : List Event) : State :=
  let e : Event := { id := s.events, agent := w.agent, word := w.word, space := space, first := first, size := n, rd := rd, old := old
                     clock := s.clock, far := w.far, sent := w.sent }
  { s with past := newer ++ e :: s.past.drop k, events := s.events + 1 }

/-- Write bytes as an access does (R309): in the final phase of a move into its window; while copying, a line already copied is marked;
while switching, to the destination. -/
def placeBytes (s : State) (space key a : Nat) (newer : List Event) (bytes : List Byte) : List Cell × List Event × State :=
  match (if space = 0 then moveOf s a else none) with
  | none => storeUnder s space key a newer bytes
  | some m =>
    let upd (h : Move → Move) : State := { s with moves := s.moves.map fun x => if x.id == m.id then h x else x }
    match m.phase with
    | .copying =>
      let line := (a - m.src) / 128
      storeUnder (upd fun x => if x.marked.contains line then x else { x with marked := x.marked ++ [line] }) space key a newer bytes
    | .final => (cellsNow s space a bytes.length, newer, upd fun x => { x with window := x.window ++ [(a, bytes)] })
    | .switching => storeUnder s space key (forwarded s a) newer bytes

/-- A page in its final phase takes writes in the order in which they come (R309). -/
def inFinal (s : State) (space a : Nat) : Bool := space == 0 && ((moveOf s a).any fun m => m.phase == .final)

/-- The place of the next event has been used. -/
def useBack (s : State) : State := { s with backs := s.backs.drop 1 }

/-! ### Reads, writes and updates as events (R179, R193, R261) -/

/-- An event to a line of memory k places back would stand between the ownership point of another agent's copy, which is the event of the
copy that touches no byte, and a write of the copy to that line (R271). -/
def inOwnedGap (s : State) (who : Agent) (line k : Nat) : Bool :=
  (s.past.take k).any fun e => e.writes && e.meets 0 (128 * line) 128 && !(e.agent == who)
    && (match e.agent with
        | .copy c => (s.past.drop k).any fun m => m.agent == .copy c && m.space == 3
        | _ => false)

/-- Where an event to come stands: how many events it lies before. -/
def spotOf (s : State) (w : Who) (space a n : Nat) (rd wr : Bool) : Nat :=
  if wr && inFinal s space a then 0
  else
    let first := placeKey s space (if space = 0 then forwarded s a else a)
    backOf s w space first n rd wr fun k => decide (space ≠ 0) || !inOwnedGap s w.agent (first / 128) k

/-- The bytes that a read under a key gets k events back. -/
def bytesAt (s : State) (w : Who) (space key a n k : Nat) : List Byte :=
  let a1 := if space = 0 then forwarded s a else a
  if space = 0 then
    let block (b : Nat) : Cell := seenCell w.agent 0 b k (cellNow s (a1 + b - placeKey s 0 a1)) s.past
    (List.range n).map fun i =>
      if hostBase ≤ a1 then (block (a1 + i)).1 else openCell s key (placeKey s 0 a1 + i) block
  else (cellsAt s w.agent space a1 n k).map Prod.fst

/-- READ n bytes at one point of time order. -/
def readSpace (s : State) (w : Who) (space key a n : Nat) : List Byte × State :=
  let s1 := if space = 0 then recallLines s key (locate s (forwarded s a)) n else s
  let k := spotOf s1 w space a n true false
  (bytesAt s1 w space key a n k
   , useBack (noteEvent s1 w k space (placeKey s1 space (if space = 0 then forwarded s1 a else a)) n true [] (s1.past.take k)))

/-- WRITE bytes at one point of time order. -/
def writeSpace (s : State) (w : Who) (space key a : Nat) (bytes : List Byte) : State :=
  let s1 := if space = 0 then recallLines s key (locate s (forwarded s a)) bytes.length else s
  let k := spotOf s1 w space a bytes.length false true
  let p := placeBytes s1 space key a (s1.past.take k) bytes
  useBack (noteEvent p.2.2 w k space (placeKey s1 space (if space = 0 then forwarded s1 a else a)) bytes.length false p.1 p.2.1)

/-- READ AND WRITE n bytes at one point of time order: h gives what is written, none for a read only. -/
def updateSpace (s : State) (w : Who) (space key a n : Nat) (h : List Byte → Option (List Byte)) : List Byte × State :=
  let s1 := if space = 0 then recallLines s key (locate s (forwarded s a)) n else s
  let k := spotOf s1 w space a n true true
  let found := bytesAt s1 w space key a n k
  let first := placeKey s1 space (if space = 0 then forwarded s1 a else a)
  match h found with
  | none => (found, useBack (noteEvent s1 w k space first n true [] (s1.past.take k)))
  | some bytes =>
    let p := placeBytes s1 space key a (s1.past.take k) bytes
    (found, useBack (noteEvent p.2.2 w k space first n true p.1 p.2.1))

/-- A point of time order that touches no byte (R260): a trigger, an admission, a completion, a command, an ownership point. -/
def noteMark (s : State) (w : Who) : State :=
  let k := backOf s w 3 0 0 false false fun _ => true
  useBack (noteEvent s w k 3 0 0 false [] (s.past.take k))

/-- Such a point that lies after every event so far. -/
def noteTop (s : State) (a : Agent) : State := noteEvent s { agent := a } 0 3 0 0 false [] []

/-- Read and write global memory. -/
def readMem (s : State) (w : Who) (key pa n : Nat) : List Byte × State := readSpace s w 0 key pa n
def writeMem (s : State) (w : Who) (key pa : Nat) (bytes : List Byte) : State := writeSpace s w 0 key pa bytes

/-- The same for an engine of the part whose access lies after every event so far. -/
def readTop (s : State) (a : Agent) (key pa n : Nat) : List Byte × State :=
  let r := readMem { s with backs := [] } { agent := a } key pa n
  (r.1, { r.2 with backs := s.backs })
def writeTop (s : State) (a : Agent) (key pa : Nat) (bytes : List Byte) : State :=
  { (writeMem { s with backs := [] } { agent := a } key pa bytes) with backs := s.backs }

/-- What an event found in the bytes that it wrote differs from what it wrote (R51). -/
def changedBy (s : State) (event : Nat) (bytes : List Byte) : Bool :=
  (s.past.find? fun e => e.id == event).any fun e => e.old.map Prod.fst != bytes

/-- Of two events the one that lies later in time order. -/
def laterOf (s : State) (a b : Option Nat) : Option Nat :=
  match a, b with
  | none, x => x
  | x, none => x
  | some x, some y =>
    if (s.past.findIdx? fun e => e.id == x).getD s.past.length ≤ (s.past.findIdx? fun e => e.id == y).getD s.past.length then some x else some y

/-- The latest of some events. -/
def latestOf (s : State) (xs : List Nat) : Option Nat := xs.foldl (fun m x => laterOf s m (some x)) none

/-- Writes of an agent to host memory and shared pages are sent on (R263): those of its words below a number. -/
def sendOn (s : State) (who : Agent) (below : Nat) : State :=
  { s with past := s.past.map fun e => if e.agent == who && decide (e.word < below) then { e with sent := true } else e }

/-! ### Dropped lines (R254) -/

/-- Drop a line's dirty bytes without writing them back: each byte holds again what its tier held. -/
def restoreLine (s : State) (line : Nat) : State :=
  (s.stale.filter fun e => decide (e.1 / 128 = line)).foldl
    (fun t e => { t with mem := tblSet 0 t.mem e.1 e.2.1, stale := tblErase t.stale e.1
                         memTag := match e.2.2 with
                           | some k => tblInsert t.memTag e.1 k
                           | none => tblErase t.memTag e.1 }) s

/-- The drop of a line's dirty bytes is an event: a write of what the tier holds. -/
def dropBytes (s : State) (line : Nat) : State :=
  if lineDirty s line then
    noteEvent (restoreLine s line) { agent := .caches } 0 0 (128 * line) 128 false ((List.range 128).map fun i => cellAt s (128 * line + i)) []
  else s

/-- A line leaves every cache, and its dirty bytes are not written back. -/
def dropLine (s : State) (line : Nat) : State :=
  { dropBytes s line with lines := (dropBytes s line).lines.filter fun l => l.line != line }

/-! ### The lines of L1 and L2 (R189, R190) -/

/-- The set of a cache that holds a line (R253, R254). -/
def setOf (site line : Nat) : Nat := if site < 256 then line % 128 else Config.l2Set line % 65536

/-- The ways that a partition may allocate into (R317, R327): all 16 of an L1, those of WAYS of an L2. -/
def waysOf (s : State) (site part : Nat) : List Nat :=
  if site < 256 then List.range 16 else (List.range 20).filter fun w => (pshare s part).getLsbD (32 + w)

/-- A cache holds the line under a key. -/
def holdsLine (s : State) (site key line : Nat) : Bool := s.lines.any fun l => l.site == site && l.line == line && l.key == key

/-- The mark of a line after a hit (R189): hint 0 .dflt, 1 .strm, 2 .stick, 3 .byp. -/
def markAfterHit (old hint : Nat) (store : Bool) : Nat := if hint = 2 then 2 else if hint = 3 ∧ store then 1 else old

/-- A set's .stick lines in a partition's ways are full (R190): three quarters of the ways, rounded down. -/
def stickFull (ls : List Line) (ways : List Nat) : Bool :=
  decide (3 * ways.length / 4 ≤ (ls.filter fun l => l.mark == 2 && ways.contains l.way).length)

/-- Re-mark the least recently used .stick line of a set as .dflt. -/
def unstick (s : State) (site set : Nat) (ways : List Nat) : State :=
  match s.lines.find? fun l => l.site == site && setOf site l.line == set && l.mark == 2 && ways.contains l.way with
  | some v => { s with lines := s.lines.map fun l => if l == v then { l with mark := 0 } else l }
  | none => s

/-- The mark that a line gets, with room made for a .stick line (R190). -/
def markFor (s : State) (site line mark : Nat) (ways : List Nat) : Nat × State :=
  let set := setOf site line
  let inSet := s.lines.filter fun l => l.site == site && setOf site l.line == set && l.line != line
  if mark = 2 ∧ stickFull inSet ways then (if 3 * ways.length / 4 = 0 then (0, s) else (2, unstick s site set ways)) else (mark, s)

/-- The line that a set replaces among some ways (R190): the least recently used .strm line, then .dflt, then .stick. -/
def victimOf (ls : List Line) (ways : List Nat) : Option Line :=
  let mine := ls.filter fun l => ways.contains l.way
  ((mine.find? fun l => l.mark == 1).or (mine.find? fun l => l.mark == 0)).or (mine.find? fun l => l.mark == 2)

/-- Replace a line: a dirty one is written back (R190). -/
def replaceLine (s : State) (v : Line) : State :=
  let s1 := if lineDirty s v.line then cleanLine s v.line else s
  { s1 with lines := s1.lines.filter fun l => l != v }

/-- Allocate a line in a cache (R189, R190): an invalid way first. -/
def allocLine (s : State) (site key line mark : Nat) (ways : List Nat) : State :=
  let m := markFor s site line mark ways
  let set := setOf site line
  let here := m.2.lines.filter fun l => l.site == site && setOf site l.line == set
  match ways.find? fun w => !here.any fun l => l.way == w with
  | some w => { m.2 with lines := m.2.lines ++ [{ site := site, line := line, way := w, mark := m.1, key := key }] }
  | none =>
    match victimOf here ways with
    | some v =>
      let s1 := replaceLine m.2 v
      { s1 with lines := s1.lines ++ [{ site := site, line := line, way := v.way, mark := m.1, key := key }] }
    | none => m.2

/-- AN ACCESS AT ONE CACHE (R189): whether it hits, and the cache after it. -/
def cacheTouch (s : State) (site part key line hint : Nat) (store : Bool) : Bool × State :=
  let ways := waysOf s site part
  match s.lines.find? fun l => l.site == site && l.line == line && l.key == key with
  | some l =>
    let m := if markAfterHit l.mark hint store = 2 ∧ l.mark ≠ 2 then markFor s site line 2 ways else (markAfterHit l.mark hint store, s)
    (true, { m.2 with lines := (m.2.lines.filter fun x => !(x.site == site && x.line == line)) ++ [{ l with mark := m.1 }] })
  | none => (false, if hint = 3 then s else allocLine s site key line hint ways)

/-- The L2 that may hold a line for a core (R254): that of the home die for tier 0, that of the core's die otherwise. -/
def l2Site (s : State) (core pa : Nat) : Nat :=
  match placeOf s pa with
  | .tier0 d => 256 + d
  | _ => 256 + dieOfCore core

/-- A load or store goes through the caches of its core (R189): whether it missed L2, and the caches after it. -/
def throughCaches (s : State) (core part key pa hint : Nat) (store : Bool) : Bool × State :=
  let line := locate s pa / 128
  let a := cacheTouch s core part key line hint store
  if a.1 then (false, a.2)
  else
    let b := cacheTouch a.2 (l2Site s core pa) part key line hint store
    (!b.1, b.2)

/-- An atomic goes through the cache that performs it (R194, R264): scope 0 at L1, 1 and 2 at L2, 3 at the home agent (log 103, DESIGN
CHOICE). -/
def throughScope (s : State) (core part key pa scope : Nat) : Bool × State :=
  let line := locate s pa / 128
  match scope with
  | 0 => throughCaches s core part key pa 0 true
  | 3 => (true, s)
  | _ =>
    let b := cacheTouch s (l2Site s core pa) part key line 0 true
    (!b.1, b.2)

/-- The bytes that no cache holds have gone to their tier (R189): they are not dirty. -/
def cleanUnheld (s : State) (a : Nat) : State :=
  if s.lines.any fun l => l.line == a / 128 then s else cleanLine s (a / 128)

end Sys2Proof.Machine
end

