-- ==== Sys2Proof/Machine/Translate.lean ====
section
/-! DEFINITION. Translation of a virtual address under a PASID (R294 to R301): the PASID table, the three-level page tables in memory,
the permissions, and the translation caches. -/

namespace Sys2Proof.Machine

/-- The fields of a page-table entry (R296). -/
def pteKind (e : Dword) : Nat := bitsOf e 63 62
def ptePref (e : Dword) : Nat := bitsOf e 61 60
def pteAllow (e : Dword) (tier : Nat) : Bool := e.getLsbD (57 + tier)
def ptePin (e : Dword) : Bool := e.getLsbD 56
def pteCE (e : Dword) : Bool := e.getLsbD 55
def pteContig (e : Dword) : Bool := e.getLsbD 54
def pteSH (e : Dword) : Bool := e.getLsbD 53
def pteNC (e : Dword) : Bool := e.getLsbD 52
/-- The physical address that PFN names (bits [51:18]). -/
def pteFrame (e : Dword) : Nat := bitsOf e 51 18 * 2 ^ 18
/-- The next table's address of a table entry (bits [51:16]). -/
def pteTable (e : Dword) : Nat := bitsOf e 51 16 * 2 ^ 16
def pteA (e : Dword) : Bool := e.getLsbD 8
def pteD (e : Dword) : Bool := e.getLsbD 7
def pteX (e : Dword) : Bool := e.getLsbD 6
def pteW (e : Dword) : Bool := e.getLsbD 5
def pteF (e : Dword) : Bool := e.getLsbD 4

/-- What an access needs (R298): nothing but a valid leaf, reading, writing, both, or fetching. -/
inductive Need
  | leaf | read | write | both | fetch
  deriving DecidableEq, Repr

/-- The permissions of an entry suffice. -/
def permits (need : Need) (e : Dword) : Bool :=
  match need with
  | .leaf => true
  | .read => pteF e
  | .write => pteW e
  | .both => pteF e && pteW e
  | .fetch => pteX e

def Need.writes : Need → Bool
  | .write => true
  | .both => true
  | _ => false

/-- Where the entry of a PASID stands, none beyond the table (R294). -/
def pasidAddr (s : State) (pasid : BitVec 20) : Option Nat :=
  let tab := getX s 0 0x1000
  let n := if bitsOf tab 4 0 ≤ 20 then bitsOf tab 4 0 else 20
  if pasid.toNat < 2 ^ n then some (bitsOf tab 51 12 * 4096 + 16 * pasid.toNat) else none

/-- The PASID-table entry, none beyond the table or with V clear (R294). -/
def pasidEntry (s : State) (pasid : BitVec 20) : Option Dword :=
  match pasidAddr s pasid with
  | none => none
  | some a =>
    let e : Dword := BitVec.ofNat 64 (readClear s a 8)
    if e.getLsbD 63 then some e else none

/-- A read of n bytes meets an uncorrectable error: one of them is damaged; unaffected bytes of the line are returned normally (R358,
R359). -/
def damagedAt (s : State) (pa n : Nat) : Bool := (List.range n).any fun i => s.damaged.contains (locate s (forwarded s (pa + i)))

/-- The same for n bytes of scratchpad (space 1) or of the weight store (space 2), which stand in the list from 2^60 times the space on. -/
def damagedIn (s : State) (space first n : Nat) : Bool := (List.range n).any fun i => s.damaged.contains (2 ^ 60 * space + first + i)

/-- Why the read of a table entry gets an error response, as the log's cause: an unmapped address or an item that is not ready (2), an
uncorrectable error (3) (R339, R355, R358). -/
def entryError (s : State) (pa : Nat) : Option Nat :=
  if !itemReadyAt s pa then some 2 else if damagedAt s pa 8 then some 3 else none

/-- The guest of a PASID (R294, R305). -/
def guestOf (s : State) (pasid : BitVec 20) : Nat :=
  match pasidEntry s pasid with
  | some e => bitsOf e 15 8
  | none => 0

/-- The bytes that a leaf at a level maps (R297): 2^44, 2^31 or 2^18. -/
def levelBits (level : Nat) : Nat := 44 - 13 * level

/-- A leaf is well formed (R298). -/
def leafOk (s : State) (level : Nat) (e : Dword) : Bool :=
  decide (level ≠ 0) && bitsOf e 17 9 == 0 && bitsOf e 3 0 == 0
    && decide (pteFrame e % 2 ^ levelBits level = 0)
    && decide (tierOf s (pteFrame e) ≤ 2)
    && (!pteSH e || (decide (tierOf s (pteFrame e) = 2) && bitsOf e 59 57 == 4))
    && (ptePref e == 3 || pteAllow e (ptePref e))

/-- A table entry is well formed (R296, R298). -/
def tableOk (level : Nat) (e : Dword) : Bool := decide (level ≠ 2) && bitsOf e 61 52 == 0 && bitsOf e 15 0 == 0

/-- A delegated entry is well formed (R297): zero but for KIND and NC. -/
def delegatedOk (e : Dword) : Bool := bitsOf e 61 53 == 0 && bitsOf e 51 0 == 0

/-- What a walk finds. -/
inductive Walk
  | leaf (level : Nat) (e : Dword) (addr : Nat)
  | delegated (level : Nat) (e : Dword)
  | notPresent | malformed | error (pa cause : Nat)
  deriving DecidableEq, Repr

/-- One level of a walk, and the levels below it (R296, R298). -/
def walkFrom (s : State) (va table level : Nat) : Nat → Walk
  | 0 => .malformed
  | fuel + 1 =>
    let addr := table + 8 * (va / 2 ^ levelBits level % 8192)
    match entryError s addr with
    | some cause => .error addr cause
    | none =>
      let e : Dword := BitVec.ofNat 64 (readClear s addr 8)
      match pteKind e with
      | 0 => .notPresent
      | 1 => if tableOk level e then walkFrom s va (pteTable e) (level + 1) fuel else .malformed
      | 2 => if leafOk s level e then .leaf level e addr else .malformed
      | _ => if delegatedOk e then .delegated level e else .malformed

/-- The walk of an address under a PASID. -/
def walk (s : State) (pasid : BitVec 20) (va : Nat) : Walk :=
  match pasidAddr s pasid with
  | none => .notPresent
  | some a =>
    match entryError s a with
    | some cause => .error a cause
    | none =>
      match pasidEntry s pasid with
      | none => .notPresent
      | some e => walkFrom s va (bitsOf e 51 16 * 2 ^ 16) 0 3

/-- The 128 entries of the run that holds a level-2 leaf (R297). -/
def runEntries (s : State) (addr : Nat) : List Dword :=
  (List.range 128).map fun i => BitVec.ofNat 64 (readClear s (addr / 1024 * 1024 + 8 * i) 8)

/-- The run of a leaf with CONTIG keeps the rule of R297. -/
def runOk (s : State) (e : Dword) (addr : Nat) : Bool :=
  let es := runEntries s addr
  let first := match es with
    | [] => 0
    | x :: _ => pteFrame x
  decide (first % 2 ^ 25 = 0)
    && es.all (fun x => bitsOf x 63 52 == bitsOf e 63 52 && bitsOf x 6 4 == bitsOf e 6 4)
    && (List.range 128).all fun i => match es[i]? with
        | some x => decide (pteFrame x = first + i * 2 ^ 18)
        | none => false

/-- The leaves of a run with CONTIG set. -/
def contigLeaves (s : State) (addr : Nat) : List Dword :=
  (runEntries s addr).filter fun x => pteContig x && pteKind x == 2 && leafOk s 2 x

/-- The leaf that an access uses: its own, or, on a run that breaks the rule of R297, any other leaf of the run with CONTIG set, chosen
without rule. -/
def contigPick (s : State) (level : Nat) (e : Dword) (addr : Nat) : Dword × State :=
  if level = 2 then
    match contigLeaves s addr with
    | [] => (e, s)
    | xs =>
      if pteContig e && runOk s e addr then (e, s)
      else ((((e :: xs)[Config.contigLeaf s.fresh % (xs.length + 1)]?).getD e), { s with fresh := s.fresh + 1 })
  else (e, s)

/-- A write of the part's own walkers in the clear, as one event after every event so far. -/
def writeWalk (s : State) (who : Agent) (pa : Nat) (bytes : List Byte) : State :=
  noteEvent (writeClear s pa bytes) { agent := who } 0 0 (locate s pa) bytes.length true (cellsNow s 0 pa bytes.length) []

/-- Set the accessed bit, and the dirty bit for a write, in a leaf in memory (R298) (log 36, DEDUCED). -/
def setAD (s : State) (addr : Nat) (e : Dword) (write : Bool) : Dword × State :=
  let e1 := e ||| (0x100 : Dword)
  let e2 := if write then e1 ||| (0x80 : Dword) else e1
  if e2 = e then (e, s)
  else (e2, writeWalk s .caches addr (bytesOf 8 e2.toNat))

/-- A cached translation of an address at a site (log 28, DEDUCED). -/
def tlbHit (s : State) (site : Nat) (pasid : BitVec 20) (va : Nat) : Option TlbEntry :=
  s.tlb.find? fun t => t.site == site && t.pasid == pasid && decide (t.base ≤ va) && decide (va < t.base + 2 ^ t.bits)

/-- What a translation comes to: the physical address and the entry it went through; a replay cause (R301), with the physical address where
a leaf gives one; or a delegated range whose translation the host has not given (R300). -/
inductive Trans
  | ok (pa : Nat) (e : Dword) (base bits : Nat)
  | fail (cause : Nat) (pa : Option Nat)
  | needAts
  deriving DecidableEq, Repr

/-- The checks after the walk: permission first (cause 2), then the allowed tiers (cause 3) (R301, R306). -/
def checkLeaf (s : State) (need : Need) (va base bits pa : Nat) (e : Dword) : Trans :=
  if !permits need e then .fail 2 (some (pa + (va - base)))
  else if decide (need ≠ .leaf) && decide (tierOf s pa ≤ 2) && !pteAllow e (tierOf s pa) then .fail 3 (some (pa + (va - base)))
  else .ok (pa + (va - base)) e base bits

/-- The shared translation cache of a core's die; the hub has its own alone (R299). -/
def sharedSite (site : Nat) : Option Nat := if site < 256 then some (257 + dieOfCore site) else none

/-- The entries that a site's cache has room for (R299); the spec gives the hub's none. -/
def tlbRoom (site : Nat) : Option Nat := if site < 256 then some 4096 else if site = 256 then none else some 65536

/-- Put a translation into a site's cache (R299): a full one loses its oldest entry (log 104, DESIGN CHOICE). -/
def fillTlb (s : State) (t : TlbEntry) : State :=
  let kept := s.tlb.filter fun u => !(u.site == t.site && u.pasid == t.pasid && u.base == t.base)
  let mine := kept.filter fun u => u.site == t.site
  let full := (tlbRoom t.site).any fun n => decide (n ≤ mine.length)
  { s with tlb := (if full then (match mine.head? with
      | some old => kept.erase old
      | none => kept) else kept) ++ [t] }

/-- Put a translation into the cache of a site and into that of its die. -/
def fillTlbs (s : State) (t : TlbEntry) : State :=
  match sharedSite t.site with
  | some d => fillTlb (fillTlb s { t with site := d }) t
  | none => fillTlb s t

/-- A translation cached at a site, or at its die: then the site takes it over (R299). -/
def tlbFind (s : State) (site : Nat) (pasid : BitVec 20) (va : Nat) : Option (TlbEntry × State) :=
  match tlbHit s site pasid va with
  | some t => some (t, s)
  | none =>
    ((sharedSite site).bind fun d => tlbHit s d pasid va).map fun t => ({ t with site := site }, fillTlb s { t with site := site })

/-- A walk, and the accessed and dirty bits it sets, on the address's own leaf (R297). A table read that gets an error response is logged,
and the translation fails as a malformed one (log 131, DESIGN CHOICE). -/
def translateWalk (s : State) (site : Nat) (pasid : BitVec 20) (va : Nat) (need : Need) : Trans × State :=
  match walk s pasid va with
  | .notPresent => (.fail 0 none, s)
  | .malformed => (.fail 1 none, s)
  | .error pa cause => (.fail 1 none, logError s 0 cause (BitVec.ofNat 64 pa))
  | .delegated _ _ => (.needAts, s)
  | .leaf level e0 addr =>
    let c := contigPick s level e0 addr
    let bits := levelBits level
    let base := va / 2 ^ bits * 2 ^ bits
    let okw := need.writes && permits need c.1
    let ad := setAD c.2 addr e0 okw
    let e1 := (c.1 &&& ~~~(0x180 : Dword)) ||| (ad.1 &&& 0x180)
    let s2 := fillTlbs ad.2 { site := site, pasid := pasid, base := base, bits := bits, pa := pteFrame c.1, pte := e1, pteAddr := addr }
    (checkLeaf s2 need va base bits (pteFrame c.1) e1, s2)

/-- Translate an address for an access (R294 to R301). A cached translation serves it, unless a first write must still set D. -/
def translate (s : State) (site : Nat) (pasid : BitVec 20) (va : Dword) (need : Need) : Trans × State :=
  if 2 ^ 57 ≤ va.toNat then (.fail 0 none, s)
  else
    match tlbFind s site pasid va.toNat with
    | some (t, s1) =>
      if t.ats && !permits need t.pte then (.needAts, s1)
      else if need.writes && permits need t.pte && !pteD t.pte && !t.ats then translateWalk s1 site pasid va.toNat need
      else (checkLeaf s1 need va.toNat t.base t.bits t.pa t.pte, s1)
    | none => translateWalk s site pasid va.toNat need

/-- A translation that never faults: the resident leaf of an address, none without one (R187, R196 to R198, R161). -/
def residentLeaf (s : State) (site : Nat) (pasid : BitVec 20) (va : Dword) : Option (Nat × Dword × Nat × Nat) × State :=
  match translate s site pasid va .leaf with
  | (.ok pa e base bits, s1) => (some (pa, e, base, bits), s1)
  | (_, s1) => (none, s1)

/-- The least fence scope that orders an access to an address, by its placement (R264): host memory and shared tier-2 pages need
.sys. -/
def leastScope (s : State) (pa : Nat) (e : Dword) (least : Nat) : Nat :=
  if hostBase ≤ pa || (pteSH e && decide (tierOf s pa = 2)) then 3 else least

/-! ### Pages (R297) -/

/-- A page as its leaf maps it (R297): virtual base, log2 of its bytes, frame, leaf, and the addresses and values of its entries. -/
structure PageInfo where
  base : Nat
  bits : Nat
  frame : Nat
  leaf : Dword
  ptes : List (Nat × Dword)
  deriving DecidableEq, Repr

/-- The page that holds an address: a 2 GiB leaf, a 32 MiB run that keeps its rule, or a 256 KiB leaf; none without a leaf. -/
def pageOf (s : State) (pasid : BitVec 20) (va : Nat) : Option PageInfo :=
  if 2 ^ 57 ≤ va then none
  else
    match walk s pasid va with
    | .leaf level e addr =>
      if level = 2 && pteContig e && runOk s e addr then
        let es := runEntries s addr
        let first := addr / 1024 * 1024
        some { base := va / 2 ^ 25 * 2 ^ 25, bits := 25, frame := pteFrame (es.headD 0), leaf := e
               ptes := (List.range 128).map fun i => (first + 8 * i, (es[i]?).getD 0) }
      else
        let bits := levelBits level
        some { base := va / 2 ^ bits * 2 ^ bits, bits := bits, frame := pteFrame e, leaf := e, ptes := [(addr, e)] }
    | _ => none

/-! ### Handover (R313) and the keys of pages (R324) -/

/-- A page of the pool is being handed over (R313): its frame and its bytes. -/
def underHandover (s : State) (pa : Nat) : Bool := s.handovers.any fun h => decide (h.pa ≤ pa) && decide (pa < h.pa + 2 ^ h.bits)

/-- The key under which an access through a leaf reads and writes (R324): none for host memory and tier-2 pages with SH set. -/
def pageKey (e : Dword) (key : Nat) : Nat := if pteSH e then plainKey else key

/-- An address whose writes only a fence.sys sends on (R263, R264): host memory, or a tier-2 page with SH set. -/
def farPlace (pa : Nat) (e : Dword) : Bool := decide (hostBase ≤ pa) || pteSH e

/-- A page takes no write now: its window is full (R309). -/
def windowFull (s : State) (pa : Nat) : Bool :=
  match moveOf s pa with
  | some m => m.phase == .final && decide (256 ≤ m.window.length)
  | none => false

end Sys2Proof.Machine
end

