-- ==== Sys2Proof/Machine/Guard.lean ====
section
/-! DEFINITION. What keeps an access of any agent from a translated address for a time: the lines that copies own (R212, R271), a key slot
under reset (R326); the bytes that meet an uncorrectable error (R358, R359); and the counters of accesses (R305). -/

namespace Sys2Proof.Machine

/-! ### Lines owned by copies (R208, R209, R212, R271) -/

/-- The address of row r of a side of a copy record (R209): for a handle the address that the row resolved to when the record began. -/
def copyRow (base : Dword) (stride : Nat) (kind : Nat) (resolved : List Dword) (r : Nat) : Dword :=
  if kind = 4 then (resolved[r]?).getD 0 else base + BitVec.ofInt 64 (signedBits 32 stride * (r : Int))

/-- The fields of a copy record (R208). -/
def Copy.dw (c : Copy) (k : Nat) : Dword := (c.record[k]?).getD 0
def Copy.mcast (c : Copy) : Nat := bitsOf (c.dw 0) 55 52
def Copy.dk (c : Copy) : Nat := bitsOf (c.dw 0) 51 48
def Copy.sk (c : Copy) : Nat := bitsOf (c.dw 0) 47 44
def Copy.bc (c : Copy) : Bool := (c.dw 0).getLsbD 43
def Copy.arrv (c : Copy) : Bool := (c.dw 0).getLsbD 42
def Copy.hs (c : Copy) : Bool := (c.dw 0).getLsbD 40
def Copy.len (c : Copy) : Nat := bitsOf (c.dw 0) 31 0
def Copy.dstRow (c : Copy) (r : Nat) : Dword := copyRow (c.dw 2) (bitsOf (c.dw 3) 31 0) c.dk c.dstRows r
def Copy.srcRow (c : Copy) (r : Nat) : Dword := copyRow (c.dw 1) (bitsOf (c.dw 3) 63 32) c.sk c.srcRows r

/-- A physical byte of a virtual address by its page tables, or in a delegated range by a translation that the host has given (R300);
none without either. -/
def mapsTo (s : State) (pasid : BitVec 20) (va : Dword) : Option Nat :=
  if 2 ^ 57 ≤ va.toNat then none
  else
    match walk s pasid va.toNat with
    | .leaf level e _ => some (pteFrame e + va.toNat % 2 ^ levelBits level)
    | .delegated _ _ =>
      (s.tlb.find? fun t => t.ats && t.pasid == pasid && decide (t.base ≤ va.toNat) && decide (va.toNat < t.base + 2 ^ t.bits)).map
        fun t => t.pa + (va.toNat - t.base)
    | _ => none

/-- The bytes of row r that a copy still has to write start here. -/
def Copy.doneIn (c : Copy) (r : Nat) : Nat := if r = c.row then c.byte else 0

/-- Addresses in global memory, one at least in every line that a copy still has to write. -/
def Copy.lineAddrs (c : Copy) : List Dword :=
  if c.dk = 0 ∨ c.dk = 4 then
    ((List.range (c.rows - c.row)).map fun i =>
      (List.range ((c.len + 127) / 128 + 1)).map fun k =>
        c.dstRow (c.row + i) + BitVec.ofNat 64 (Nat.min (c.doneIn (c.row + i) + 128 * k) (c.len - 4))).flatten
  else []

/-- The physical byte that a copy owns for an address: in a delegated range by the translation with which it took its lines. -/
def ownedByte (s : State) (c : Copy) (va : Dword) : Option Nat :=
  ((c.owned.find? fun p => p.1 == va.toNat / 4096).map fun p => 4096 * p.2 + va.toNat % 4096).or (mapsTo s c.pasid va)

/-- The line of an address of a copy. -/
def lineOf (s : State) (c : Copy) (va : Dword) : Option Nat := (ownedByte s c va).map fun pa => locate s pa / 128

/-- A copy that has begun still has to write a line of global memory: it holds the line (R212, R271). -/
def ownsLine (s : State) (c : Copy) (line : Nat) : Bool := c.begun && c.lineAddrs.any fun va => lineOf s c va == some line

/-- A copy owns the line of an address: an access of any other agent waits (R271). -/
def copyOwns (s : State) (pa : Nat) : Bool := s.copies.any fun c => ownsLine s c (locate s pa / 128)

/-- Another copy owns the line of an address (R271). -/
def otherOwns (s : State) (id pa : Nat) : Bool := s.copies.any fun c => c.id != id && ownsLine s c (locate s pa / 128)

/-- The key slot of an access is being reset (R326). -/
def keyBusy (s : State) (slot : Nat) : Bool := (getX s 0 (0x2000 + 8 * slot)).getLsbD 1

/-- The fibre of a lane among the agents, and its fetches (R260). -/
def fibreAgent (g : Group) (lane : Nat) : Agent := .fibre g.uid g.pos g.stage g.grank lane
def fetchAgent (g : Group) (lane : Nat) : Agent := .fetch g.uid g.pos g.stage g.grank lane

/-! ### Access counters (R305) -/

/-- Count an access through a leaf with CE set (R305): its counter, by guest, PASID and page, saturates at 16 bits. -/
def counterKey (guest : Nat) (pasid : BitVec 20) (page : Nat) : Nat := (guest * 2 ^ 20 + pasid.toNat) * 2 ^ 39 + page

/-- The count at which a guest's counters queue a move; 0 for never (R305). -/
def thresholdOf (s : State) (guest : Nat) : Nat := bitsOf (getX s 0 (0x2800 + 8 * guest)) 15 0

/-- A place for a counter in the cache of 262,144: which counter loses its place the spec leaves open (log 26, DESIGN CHOICE). -/
def counterRoom (s : State) (k : Nat) : State :=
  if (tblFind s.counters k).isSome ∨ s.counters.length < 262144 then s
  else
    match s.counters[Config.counterVictim s.fresh % 262144]? with
    | some e => { s with counters := tblErase s.counters e.1, fresh := s.fresh + 1 }
    | none => s

/-- The page of an address as its counter names it (R305): the base of its leaf, or of its run. -/
def counterPage (s : State) (pasid : BitVec 20) (va : Nat) : Nat := ((pageOf s pasid va).map fun p => p.base / 2 ^ 18).getD (va / 2 ^ 18)

/-- Add 1 to a page's counter. -/
def bumpCounter (s : State) (pasid : BitVec 20) (va die ctx : Nat) : State :=
  let guest := guestOf s pasid
  let k := counterKey guest pasid (counterPage s pasid va)
  let s1 := counterRoom s k
  let c := tblGet {} s1.counters k
  if thresholdOf s1 guest ≠ 0 ∧ thresholdOf s1 guest ≤ c.count then s1
  else { s1 with counters := tblSet {} s1.counters k { count := Nat.min (c.count + 1) 65535, die := die, ctx := ctx } }

/-- An access through a leaf with CE set counts, when it misses L2 or a copy engine serves it (R305). -/
def countFor (s : State) (pasid : BitVec 20) (va die ctx : Nat) (counts : Bool) : State :=
  if counts && va < 2 ^ 57 then
    match walk s pasid va with
    | .leaf _ e _ => if pteCE e then bumpCounter s pasid va die ctx else s
    | _ => s
  else s

end Sys2Proof.Machine
end

