-- ==== Sys2Proof/Machine/Operands.lean ====
section
/-! DEFINITION. Operand forms: what a word's fields name, with its prefixes (R58 to R71), the source read of R62, the destination and
latch writes of R61, and the checks of R76 steps 2 and 3 that depend on prefixes and windows. -/

namespace Sys2Proof.Machine

/-- The pipes (R54). -/
inductive Pipe
  | v | s | m | x | c
  deriving DecidableEq, Repr

/-- The word of an instruction; 0 for a step that has none. -/
def wordOf (i : Instr) : Word := (encode i).getD 0

def opcodeOf (i : Instr) : Nat := (field (wordOf i) 24 7).toNat

/-- The pipe of an opcode (R73); none for prefixes and for opcodes without a pipe. -/
def pipeOfCode (c : Nat) : Option Pipe :=
  if 0x01 ≤ c ∧ c ≤ 0x46 then some .v
  else if c = 0x6C then some .s
  else if 0x50 ≤ c ∧ c ≤ 0x5E then some .m
  else if 0x60 ≤ c ∧ c ≤ 0x68 then some .x
  else if 0x70 ≤ c ∧ c ≤ 0x7A then some .c
  else none

def pipeOf (i : Instr) : Option Pipe := pipeOfCode (opcodeOf i)

/-- The chain bit (R54). -/
def chained (i : Instr) : Bool := (pipeOf i).isSome && (wordOf i).getLsbD 31

def isPrefix (i : Instr) : Bool := decide (0x7B ≤ opcodeOf i) && decide (opcodeOf i ≤ 0x7E)

/-- The words before which ext may stand (R64, R73). -/
def extAllowed (c : Nat) : Bool :=
  (decide (0x26 ≤ c) && decide (c ≤ 0x29)) || c == 0x2D || (decide (0x50 ≤ c) && decide (c ≤ 0x5B)) || c == 0x5D || c == 0x5E
    || c == 0x77 || c == 0x70 || c == 0x71 || c == 0x72 || c == 0x74

/-- A source operand: modifier bit, code, shape. -/
structure Src where
  m : Bool
  code : Nat
  sh : Shape
  deriving DecidableEq, Repr

/-- The operands of a vector or special-function word (R118 to R120). -/
structure VecForm where
  nw : Bool := false
  d : Nat
  dsh : Shape := .single
  a : Option Src := none
  b : Option Src := none
  acc : Bool := false
  pbit : Bool := false
  special : Bool := false
  deriving DecidableEq, Repr

def rrForm (sh : Shapes) (acc : Bool) (o : RR) : VecForm :=
  { nw := o.nw, d := o.d.toNat, dsh := sh.d, a := some ⟨o.ma, o.sa.toNat, sh.a⟩, b := some ⟨o.mb, o.sb.toNat, sh.b⟩, acc := acc }
def cpForm (o : CP) : VecForm :=
  { d := o.d.toNat, a := some ⟨o.ma, o.sa.toNat, .single⟩, b := some ⟨o.mb, o.sb.toNat, .single⟩, pbit := o.p }
def riForm (o : RI) : VecForm := { nw := o.nw, d := o.d.toNat, a := some ⟨o.ma, o.sa.toNat, .single⟩ }
def ruForm (o : RU) : VecForm := { nw := o.nw, d := o.d.toNat, a := some ⟨o.ma, o.sa.toNat, .single⟩ }
def sfForm (o : SF) : VecForm := { nw := o.nw, d := o.d.toNat, a := some ⟨o.ma, o.sa.toNat, .single⟩, special := true }
def crossForm (nw : Bool) (dsh : Shape) (d sa : BitVec 7) : VecForm :=
  { nw := nw, d := d.toNat, dsh := dsh, a := some ⟨false, sa.toNat, .single⟩ }

/-- The operands of the words of 07_isa_vector.md; none for the others. -/
def vecForm : Instr → Option VecForm
  | .addI32 o | .subI32 o | .mulI32 o | .mulhI32 o | .mulhN32 o | .minI32 o | .minN32 o | .maxI32 o | .maxN32 o
  | .andW o | .orW o | .xorW o | .shl o | .shrN32 o | .shrI32 o | .rotl o | .rotr o | .bfxN32 o | .bfxI32 o
  | .addF32 o | .subF32 o | .mulF32 o | .minF32 o | .maxF32 o | .minnumF32 o | .maxnumF32 o | .scaleF32 o
  | .addBf16 o | .mulBf16 o | .addF16 o | .mulF16 o | .packBf16 o | .packF16 o => some (rrForm {} false o)
  | .madI32 o | .bfi o | .sel o | .fmaF32 o | .fmaBf16 o | .fmaF16 o | .dot4E4m3 o => some (rrForm {} true o)
  | .cmpEqI32 o | .cmpNeI32 o | .cmpLtI32 o | .cmpLtN32 o | .cmpLeI32 o | .cmpLeN32 o
  | .cmpEqF32 o | .cmpLtF32 o | .cmpLeF32 o | .cmpUnF32 o => some (cpForm o)
  | .addI64 o | .subI64 o | .bdep o | .bext o | .gfm8 o => some (rrForm { d := .pair, a := .pair, b := .pair } false o)
  | .shlI64 o | .shrN64 o | .shrI64 o => some (rrForm { d := .pair, a := .pair } false o)
  | .bperm o => some (rrForm { d := .pair, a := .pair, b := .block12 } false o)
  | .addi o | .andi o | .ori o | .xori o | .shli o | .shriN32 o | .shriI32 o => some (riForm o)
  | .movi _ nw d _ => some { nw := nw, d := d.toNat }
  | .absI32 o | .negI32 o | .notW o | .clz o | .popc o | .brev o | .mov o | .cvt o _ _ | .rnd o _ => some (ruForm o)
  | .allNz _ nw d sa | .anyNz _ nw d sa | .allEq _ nw d sa | .lcnt _ nw d sa
  | .scanInc _ nw d sa _ | .scanExc _ nw d sa _ | .reduce _ nw d sa _ => some (crossForm nw .single d sa)
  | .nzmask _ nw d sa => some (crossForm nw .pair d sa)
  | .exp o | .log o | .rcp o | .rsqrt o | .sqrt o | .sin o | .cos o | .tanh o => some (sfForm o)
  | _ => none

/-- The step of an operand under rep (R65): registers for a single operand, pairs for a pair or block. -/
def strideUnit (sh : Shape) : Nat :=
  match sh with
  | .single => 1
  | _ => 2

/-- The operands of element e of a rep word (R65). -/
def elementForm (f : VecForm) (r : RepPrefix) (e : Nat) : VecForm :=
  let row := e / r.nc
  let col := e % r.nc
  { f with d := if f.nw then f.d else f.d + strideUnit f.dsh * (row * r.rsd + col)
           a := f.a.map fun x => { x with code := x.code + strideUnit x.sh * (row * r.rsa + col * r.ca) }
           b := f.b.map fun x => { x with code := x.code + strideUnit x.sh * (row * r.rsb + col * r.cb) } }

/-- The source names a latch. -/
def Src.latch (x : Src) : Bool := decide (120 ≤ x.code)

/-- K of format E, 30 bits (R71). -/
def extK (iss : Issue) (k : BitVec 6) : Nat := (iss.ext.map fun x => x.toNat * 64).getD 0 + k.toNat

/-- The K field of a word of format E, its ext prefix counted in, is outside what its rule allows (R203, R210, R215 to R217, R248). -/
def kBad (i : Instr) (iss : Issue) : Bool :=
  let high := (iss.ext.map fun x => x != 0).getD false
  match i with
  | .barInit _ _ k | .barArrive _ k => extK iss k == 0 || decide (4095 < extK iss k)
  | .barExpect _ _ k => extK iss k == 0
  | .barWait .. | .barTest .. | .barInval .. | .kick _ | .cstat _ | .commit .. | .pin _ | .unpin _ | .kvres _ => high
  | _ => false

/-- Step 1 of R66 and the words that each prefix may modify (R60, R64, R69, R71, R143): what the prefixes before a word make illegal. -/
def prefixIllegal (i : Instr) (iss : Issue) : Bool :=
  let c := opcodeOf i
  let p := pipeOfCode c
  let vs := p == some .v || p == some .s
  let repBad := match iss.rep, vecForm i with
    | none, _ => false
    | some _, none => true
    | some _, some f => f.pbit || (f.a.map Src.latch).getD false || (f.b.map Src.latch).getD false
  let xlBad := iss.xl.isSome && !(vs && c != 0x2D && c != 0x46)
  let grdBad := iss.grd.isSome && !(vs || p == some .m)
  let extBad := match iss.ext with
    | none => false
    | some k => !extAllowed c || (c == 0x2D && bitsOf k 23 16 != 0) || (c == 0x77 && k != 0)
  repBad || xlBad || grdBad || extBad || kBad i iss

/-- The source lane of a modified source (R60, R69); none outside the group. -/
def sourceLane (iss : Issue) (width lane : Nat) : Option Nat :=
  let j := match iss.xl with
    | none => some 0
    | some x =>
      match x.pat with
      | 0 => some (Nat.xor lane x.k)
      | 1 => some ((lane + x.k) % width)
      | 2 => if x.k ≤ lane then some (lane - x.k) else none
      | 3 => some (lane + x.k)
      | _ => some x.k
  j.bind fun n => if n < width then some n else none

/-- The xl prefix delivers the reader's own register for a lane outside (R69). -/
def fillOwn (iss : Issue) : Bool := (iss.xl.map fun x => x.own).getD false

/-- The registers that a lane finds in other lanes: in a gang of two passes between which accesses finish, lane page 0 finds those of before
(R123). -/
def Issue.seenBy (iss : Issue) (src : Group) (lane : Nat) : Group :=
  match iss.early with
  | some regs => if lane < 32 then { src with regs := regs } else src
  | none => src

/-- The register of another lane that a modified source reads, none when the fill is delivered (R62). -/
def foreignCell (src : Group) (iss : Issue) (lane c : Nat) : Option Word :=
  (sourceLane iss src.width lane).bind fun j =>
    let wb := if (src.fibre j).live then (src.fibre j).wb else 0
    if src.rows ≤ wb + c then none else some ((iss.seenBy src lane).cell j (wb + c))

/-- ReadSrc of one register code (R62): the value, and whether a latch was lost. -/
def readSrc (src : Group) (iss : Issue) (lane : Nat) (m : Bool) (c : Nat) : Word × Bool :=
  if 120 ≤ c then
    if (src.fibre lane).latchValid.getLsbD (c - 120) then (((src.fibre lane).latch[c - 120]?).getD 0, false) else (0, true)
  else if !m then (src.reg lane c, false)
  else
    match foreignCell src iss lane c with
    | some v => (v, false)
    | none => (if fillOwn iss then src.reg lane c else 0, false)

/-- Read a source operand register by register (R364). -/
def readOperand (src : Group) (iss : Issue) (lane : Nat) (x : Option Src) : List Word × Bool :=
  match x with
  | none => ([], false)
  | some x =>
    if x.latch then
      let r := readSrc src iss lane x.m x.code
      ([r.1], r.2)
    else ((List.range x.sh.count).map fun k => (readSrc src iss lane x.m (x.code + k)).1, false)

/-- The registers that an operand covers keep R23 and R58, in the fibre's own window; a modified source needs its own window only
where its fill is the fibre's own register (R58, R62, R364) (log 18, DEDUCED). A code that rep steps to 120 or more names no latch (R66). -/
def srcInRange (src : Group) (iss : Issue) (lane : Nat) (x : Src) : Bool :=
  if x.latch && iss.rep.isNone then true
  else if !x.m then src.inRange lane x.code x.sh.count
  else decide (x.code + x.sh.count ≤ 120)
    && (!fillOwn iss || (List.range x.sh.count).all fun k =>
          (foreignCell src iss lane (x.code + k)).isSome || src.inRange lane (x.code + k) 1)

/-- The register operands of one element lie in range (R23, R66). -/
def formInRange (src : Group) (iss : Issue) (f : VecForm) (lane : Nat) : Bool :=
  (f.nw || f.pbit || src.inRange lane f.d f.dsh.count)
    && (match f.a with
        | some x => srcInRange src iss lane x
        | none => true)
    && (match f.b with
        | some x => srcInRange src iss lane x
        | none => true)

/-- The forms of every element that a word runs: itself, or each element of rep (R65); none under a rep of no element (R66). -/
def formsOf (iss : Issue) (f : VecForm) : List VecForm :=
  match iss.rep with
  | none => [f]
  | some r => (List.range (r.nr * r.nc)).map (elementForm f r)

/-- The value that MM, MA and E words add or read from their ext prefix (R71). -/
def extOffset (iss : Issue) : Dword := (iss.ext.map fun k => k.signExtend 64).getD 0
/-- The 32-bit immediate of a format RI word (R71, R126). -/
def riImm (iss : Issue) (imm : BitVec 8) (signed : Bool) : Word :=
  match iss.ext with
  | some k => k ++ imm
  | none => if signed then imm.signExtend 32 else imm.setWidth 32
/-- A signed word offset widened by ext (R71), as a byte offset. -/
def wordOffset {n : Nat} (iss : Issue) (off : BitVec n) : Dword :=
  4#64 * (match iss.ext with
    | some k => (k ++ off).signExtend 64
    | none => off.signExtend 64)

/-- The pair that BP names and the offset: the address of a memory word (R177, R184). -/
def memAddress (src : Group) (iss : Issue) (lane : Nat) (bp : BitVec 5) : Dword :=
  src.pair lane (2 * bp.toNat) + extOffset iss

/-- The bytes that an SZ code accesses (R58). -/
def sizeBytes (sz : Nat) : Nat :=
  match sz with
  | 0 => 1
  | 1 => 2
  | 2 => 4
  | 3 => 8
  | 4 => 16
  | 5 => 1
  | _ => 2

/-- The registers that the data of an SZ code covers. -/
def sizeRegs (sz : Nat) : Nat := (sizeShape sz).count

/-- The registers that an atomic's operand covers (R191). -/
def atomicRegs (aop ty : Nat) : Nat := (if ty = 2 ∨ ty = 3 then 2 else 1) * (if aop = 7 then 2 else 1)

/-- A use of registers in the fibre's own window: first code and count. -/
abbrev Use := Nat × Nat

/-- The registers that a word outside 07_isa_vector.md names, besides those whose extent depends on data (R23, R58). -/
def wordUses : Instr → List Use
  | .ld o | .st o | .lds o | .sts o | .ldw o | .spill o | .fill o => [(2 * o.bp.toNat, 2), (o.d.toNat, sizeRegs o.sz.toNat)]
  | .pf _ bp _ _ _ _ => [(2 * bp.toNat, 2)]
  | .atomAdd o | .atomMin o | .atomMax o | .atomAnd o | .atomOr o | .atomXor o | .atomExch o
  | .redAdd o | .redMin o | .redMax o | .redAnd o | .redOr o | .redXor o =>
      [(2 * o.bp.toNat, 2), (o.d.toNat, atomicRegs 0 o.ty.toNat)]
  | .atomCas o => [(2 * o.bp.toNat, 2), (o.d.toNat, atomicRegs 7 o.ty.toNat)]
  | .kvres o => [(o.d.toNat, 2), (o.sa.toNat, 3)]
  | .barInit _ sa _ | .barExpect _ sa _ | .barInval _ sa => [(sa.toNat, 1)]
  | .barArrive o _ => [(o.d.toNat, 1), (o.sa.toNat, 1)]
  | .barWait o _ | .barTest o _ => [(o.d.toNat, 1), (o.sa.toNat, 1)]
  | .kick o | .cstat o => [(o.d.toNat, 1), (o.sa.toNat, 1)]
  | .commit o _ => [(o.sa.toNat, 1)]
  | .cln _ sa _ | .inv _ sa _ | .clninv _ sa _ => [(sa.toNat, 2)]
  | .place o _ _ | .pin o | .unpin o | .relocate o => [(o.d.toNat, 1), (o.sa.toNat, 2)]
  | .mclass _ _ sa sb => [(sa.toNat, 2), (sb.toNat, 1)]
  | .mbits _ _ sa sb => [(sa.toNat, 2), (sb.toNat, 2)]
  | .bz _ sa _ | .bnz _ sa _ => [(sa.toNat, 1)]
  | .calli _ _ sa | .jmpi _ sa => [(sa.toNat, 2)]
  | .spawn _ d sa _ => [(d.toNat, 1), (sa.toNat, 1)]
  | .csrr _ r _ | .csrw _ r _ | .csrs _ r _ | .csrc _ r _ | .rdpw _ r | .wrpw _ r => [(r.toNat, 1)]
  | _ => []

/-- The registers that opld, mpld, mtosp and scld read, in the lanes that they read (R218, R240, R241): the gang's lowest lane, or lane 0. -/
def laneUses : Instr → List Nat → List (Nat × Use)
  | .scld o, _ => [(0, (2 * o.bp.toNat, 2))]
  | .opld _ _ sa _, l :: _ | .mpld _ _ sa, l :: _ => [(l, (sa.toNat, 1))]
  | .mtosp o, _ => [(0, (o.sa.toNat, 1)), (0, (o.sb.toNat, 1))]
  | .mma o _, _ | .mmaSp o _, _ | .smm o _ _, _ | .smmSp o _ _, _ =>
      (List.range 32).map (fun l => (l, (o.sa.toNat, 2))) ++ [(0, (o.sa.toNat + 2, 2))]
  | _, _ => []

/-- FIRST and COUNT of a commit's descriptor, COUNT cut at row 64 (R215). -/
def commitFirst (w : Word) : Nat := bitsOf w 5 0
def commitCount (w : Word) : Nat := Nat.min (bitsOf w 14 8) (64 - bitsOf w 5 0)

/-- The registers that a word names for some lanes or by a descriptor: the four of an scld in lanes 0 to 31 (R23, R241), the row block of a
commit (R58, R215). -/
def blockUses (i : Instr) (src : Group) (lane : Nat) : List Use :=
  match i with
  | .commit o _ =>
    let n := commitCount (src.reg lane o.sa.toNat)
    if n = 0 then [] else [(o.d.toNat, n)]
  | .scld o => if lane < 32 then [(o.d.toNat, 4)] else []
  | _ => []

/-- The lanes whose register operands fail the check of step 3 of R76. -/
def rangeFails (i : Instr) (iss : Issue) (g : Group) : List Nat :=
  let src := iss.sourceGroup g
  let parts := iss.participants g
  match vecForm i with
  | some f => parts.filter fun l => (formsOf iss f).any fun e => !formInRange src iss e l
  | none =>
    let named := (laneUses i iss.lanes).filter fun u => !(src.inRange u.1 u.2.1 u.2.2)
    if named.isEmpty || parts.isEmpty then parts.filter fun l => (wordUses i ++ blockUses i src l).any fun u => !src.inRange l u.1 u.2
    else parts

/-- The checks of R76 steps 1 to 3 on one word with its prefixes: the cause and the fibres that the record names. -/
def checkWord (i : Instr) (iss : Issue) (g : Group) : Option (Nat × List Nat) :=
  if iss.rep.isSome && chained i then some (0x02, iss.lanes)
  else if !i.wf || prefixIllegal i iss then some (0x01, iss.lanes)
  else
    match rangeFails i iss g with
    | [] => none
    | l => some (0x03, l)

/-- Run a word's own effect after the checks of R76, for the issuing gang. -/
def guarded (i : Instr) (s : State) (h : Issue → Group → Result) : Result :=
  withGang s fun iss g =>
    match checkWord i iss g with
    | some (cause, lanes) => .next (trapWord s iss cause lanes (wordOf i))
    | none => h iss g

/-! ### Destinations and latches (R59, R61) -/

/-- Push a result into a pipe's latch history (R61): the V history is l0 to l3, the S history l4 and l5, and l6, l7 hold one. -/
def pushLatch (f : Fibre) (first last : Nat) (v : Word) : Fibre :=
  let old := f.latch
  let latch := (List.range 8).map fun k =>
    if k = first then v else if first < k ∧ k ≤ last then (old[k - 1]?).getD 0 else (old[k]?).getD 0
  let valid := (List.range 8).foldl (fun (acc : BitVec 8) k =>
    let b := if k = first then true else if first < k ∧ k ≤ last then f.latchValid.getLsbD (k - 1) else f.latchValid.getLsbD k
    if b then acc ||| (1#8 <<< k) else acc) 0
  { f with latch := latch, latchValid := valid }

/-- The latch history of a vector or special-function word. -/
def pushVec (special : Bool) (f : Fibre) (v : Word) : Fibre := if special then pushLatch f 4 5 v else pushLatch f 0 3 v

/-- One bit of the predicate word. -/
def setPwBit (pw : Word) (k : Nat) (b : Bool) : Word := if b then pw ||| (1#32 <<< k) else pw &&& ~~~(1#32 <<< k)

/-- Write the result of a vector word for one participant: the registers, or the pw bit, the latch and the status bits. -/
def writeVec (g : Group) (f : VecForm) (lane : Nat) (x : List Word) (st : Status) : Group :=
  let g1 :=
    if f.pbit then g.modFibre lane fun b => { b with pw := setPwBit b.pw (f.d % 32) (x.headD 0 != 0) }
    else if f.nw then g
    else g.setBlock lane f.d x
  g1.modFibre lane fun b => raiseStatus (if f.pbit then b else pushVec f.special b (x.headD 0)) st

/-- The latch of a fibre that a grd prefix excludes: the destination's unchanged content (R61) (log 31, DEDUCED), which for a destination
outside the fibre's own window is what its rows' table holds there (log 105, DESIGN CHOICE). -/
def latchExcluded (g : Group) (f : VecForm) (lane : Nat) : Group :=
  if f.pbit then g else g.modFibre lane fun b => pushVec f.special b (g.reg lane f.d)

/-- What a vector word computes for one fibre from its sources a, b and c and its rounding mode. -/
abbrev LaneOp := List Word → List Word → List Word → Nat → List Word × Status

/-- One element of a vector word for the gang: every source of both passes read before any write of the word (R26, R118) (log 108, DEDUCED). -/
def vecElement (src g : Group) (iss : Issue) (f : VecForm) (op : LaneOp) : Group :=
  iss.lanes.foldl (fun acc lane =>
    if iss.excluded src lane then latchExcluded acc f lane
    else
      let a := readOperand src iss lane f.a
      let b := readOperand src iss lane f.b
      let c := if f.acc then src.block lane f.d f.dsh.count else []
      let r := op a.1 b.1 c (roundingMode (src.fibre lane))
      writeVec acc f lane r.1 (r.2.or { ll := a.2 || b.2 })) g

/-- The index of the next element of the gang's rep word (R65, R68). -/
def repIndex (iss : Issue) (g : Group) : Nat := (g.fibre (iss.lanes.headD 0)).progress

/-- Run a word that has elements: at once without rep; with rep one element for each issue (R67), the last one completing the word. -/
def runElements (s : State) (iss : Issue) (g : Group) (f : VecForm) (elem : VecForm → Group) : State :=
  match iss.rep with
  | none => advance (setGroup s iss.gid (elem f)) iss
  | some r =>
    if r.nr * r.nc ≤ repIndex iss g then advance s iss
    else
      let e := repIndex iss g
      let s1 := setGroup s iss.gid (elem (elementForm f r e))
      if e + 1 = r.nr * r.nc then advance s1 iss
      else modLanes s1 iss.gid iss.lanes fun b => { b with progress := e + 1 }

/-- THE VECTOR WORD (R118): the checks, then one element of it for the gang. -/
def runVec (i : Instr) (s : State) (op : Issue → LaneOp) : Result :=
  guarded i s fun iss g =>
    match vecForm i with
    | none => .next s
    | some f => .next (runElements s iss g f fun e => vecElement (iss.sourceGroup g) g iss e (op iss))

/-- A lane operation on single words that sets no status bit. -/
def intOp (h : Word → Word → Word → Word) : LaneOp := fun a b c _ => ([h (a.headD 0) (b.headD 0) (c.headD 0)], {})

/-- The doubleword of a pair's registers. -/
def pairVal (x : List Word) : Dword := pairOf (x.headD 0) ((x[1]?).getD 0)
def pairWords (v : Dword) : List Word := [lowWord v, highWord v]

/-- A lane operation on pairs that sets no status bit. -/
def pairOp (h : Dword → Dword → List Word → Dword) : LaneOp := fun a b _ _ => (pairWords (h (pairVal a) (pairVal b) b), {})

/-- A compare (R128): 1 when the relation holds. -/
def cmpOp (h : Word → Word → Bool × Status) : LaneOp := fun a b _ _ =>
  let r := h (a.headD 0) (b.headD 0)
  ([if r.1 then 1 else 0], r.2)

end Sys2Proof.Machine
end

