-- ==== Sys2Proof/Machine/Placement.lean ====
section
/-! DEFINITION. Placing groups on quarters (R19 to R22, R38, R287, R288) within a partition's shares (R317). -/

namespace Sys2Proof.Machine

/-- The fields of PQUOTA (R317), in slots, rows and landing slots. -/
structure Quota where
  gsf : Nat
  gsn : Nat
  rrf : Nat
  rrn : Nat
  lsf : Nat
  lsn : Nat
  spf : Nat
  spn : Nat
  deriving DecidableEq, Repr

def quotaOf (v : Dword) : Quota :=
  { gsf := bitsOf v 58 55, gsn := bitsOf v 54 50, rrf := 8 * bitsOf v 49 43, rrn := 8 * bitsOf v 42 35
    lsf := bitsOf v 34 33, lsn := bitsOf v 32 30, spf := 16 * bitsOf v 29 22, spn := 16 * bitsOf v 21 14 }

/-- The groups resident on a quarter. -/
def groupsOn (s : State) (q : Nat) : List (Nat × Group) := s.groups.filter fun e => e.1 / 16 == q

/-- The groups resident on a quarter, and those for which a relocation keeps room there (R48). -/
def seatsOn (s : State) (q : Nat) : List (Nat × Group) :=
  groupsOn s q ++ (s.relocations.filter fun r => r.seatGid / 16 == q).map fun r => (r.seatGid, r.seat)

/-- The free group slots of a partition in a quarter, ascending. -/
def freeSlotsOf (s : State) (u : Quota) (q : Nat) : List Nat :=
  ((List.range u.gsn).map fun i => u.gsf + i).filter fun i => !(seatsOn s q).any fun e => e.1 == 16 * q + i

/-- The rows that a group takes in its quarter (R22). -/
def rowsNeeded (width rows : Nat) : Nat := if width = 64 then 2 * rows else rows

/-- Two runs overlap. -/
def overlaps (a n b m : Nat) : Bool := decide (a < b + m) && decide (b < a + n)

/-- The lowest origin, stepping by 8, of a free run of rows; none when the partition's rows hold none. -/
def freeRun (taken : List (Nat × Nat)) (first count need step : Nat) : Option Nat :=
  if count < need then none
  else ((List.range ((count - need) / step + 1)).map fun i => first + step * i).find? fun o =>
    taken.all fun t => !overlaps o need t.1 t.2

/-- The free rows of a partition in a quarter: its rows less those that groups hold, shared rows once (R288). -/
def freeRows (s : State) (u : Quota) (q : Nat) : Nat :=
  let runs := ((seatsOn s q).map fun e => (e.2.rowOrigin, rowsNeeded e.2.width e.2.rows)).eraseDups
  u.rrn - ((runs.filter fun r => decide (u.rrf ≤ r.1) && decide (r.1 < u.rrf + u.rrn)).map Prod.snd).sum

/-- The landing slots of a partition in a quarter that no group holds, ascending. -/
def freeLanding (s : State) (u : Quota) (q : Nat) : List Nat :=
  let used := ((seatsOn s q).map fun e => e.2.lsOrigin).flatten
  ((List.range u.lsn).map fun i => u.lsf + i).filter fun i => !used.contains i

/-- A place beside a resident group of the same launch, width and N: its row origin and a free lane origin (R288) (log 90, DEDUCED). -/
def shareBeside (s : State) (q : Nat) (g : Group) : Option (Nat × Nat) :=
  if 16 < g.width then none
  else
    let kin := (seatsOn s q).filter fun e => e.2.uid == g.uid && e.2.width == g.width && e.2.rows == g.rows
    let spots := (kin.map fun e =>
      ((List.range (32 / g.width)).map fun i => (e.2.rowOrigin, g.width * i)).filter fun p =>
        (seatsOn s q).all fun h => !(h.2.rowOrigin == p.1 && h.2.laneOrigin == p.2)).flatten
    spots.head?

/-- Where a group's rows and lanes lie in a quarter, when it has room: row origin and lane origin. -/
def rowsIn (s : State) (u : Quota) (q : Nat) (g : Group) : Option (Nat × Nat) :=
  match shareBeside s q g with
  | some p => some p
  | none =>
    let taken := (seatsOn s q).map fun e => (e.2.rowOrigin, rowsNeeded e.2.width e.2.rows)
    (freeRun taken u.rrf u.rrn (rowsNeeded g.width g.rows) 8).map fun o => (o, 0)

/-- A quarter has room for a group's slot, rows and landing slots. -/
def quarterRoom (s : State) (u : Quota) (g : Group) (q : Nat) : Bool :=
  !(freeSlotsOf s u q).isEmpty && (rowsIn s u q g).isSome && decide (g.lslots ≤ (freeLanding s u q).length)

/-- Scratchpad rows of a group in a core: the first row, when the partition has a free run there. -/
def scratchIn (s : State) (u : Quota) (core rows : Nat) : Option Nat :=
  if rows = 0 then some u.spf
  else freeRun ((s.rowHolds.filter fun h => h.core == core).map fun h => (h.first, h.count)) u.spf u.spn rows 1

/-- A core has room for a group (R288 step 2). -/
def coreRoom (s : State) (u : Quota) (g : Group) (core : Nat) : Bool :=
  (scratchIn s u core g.scratch).isSome && (List.range 4).any fun k => quarterRoom s u g (4 * core + k)

/-- The element of a list with the largest measure, the first of equals. -/
def bestBy (measure : Nat → Nat) : List Nat → Option Nat
  | [] => none
  | x :: xs =>
    match bestBy measure xs with
    | none => some x
    | some y => if measure x < measure y then some y else some x

/-- The quarter of a core that a group takes: of those with room, one where a narrow group stands beside its kin (R288), else the one with
the most free rows (step 3), the lowest of equals (log 135, DESIGN CHOICE). -/
def pickQuarter (s : State) (u : Quota) (g : Group) (core : Nat) : Option Nat :=
  let room := ((List.range 4).map fun k => 4 * core + k).filter (quarterRoom s u g)
  let kin := room.filter fun q => (shareBeside s q g).isSome
  bestBy (freeRows s u) (if kin.isEmpty then room else kin)

/-- Give scratchpad rows to a tenant: rows that last belonged to another are zeroed first (R320). -/
def claimRows (s : State) (core first count tenant : Nat) : State :=
  let rows := (List.range count).map fun i => core * 3072 + first + i
  let foreign := rows.filter fun r => tblGet 0 s.rowTenant r != tenant + 1
  { s with spad := s.spad.filter fun e => !foreign.contains (e.1 / 128)
           rowTenant := rows.foldl (fun t r => tblSet 0 t r (tenant + 1)) s.rowTenant }

/-- Where a group goes in a core (R288 step 3): its identity there, and the group with its origins, the lowest that are free (log 135, DESIGN
CHOICE). -/
def seatFor (s : State) (u : Quota) (core : Nat) (g : Group) : Option (Nat × Group) :=
  match pickQuarter s u g core, scratchIn s u core g.scratch with
  | some q, some sp =>
    match freeSlotsOf s u q, rowsIn s u q g with
    | slot :: _, some (ro, lo) =>
      some (16 * q + slot
            , { g with rowOrigin := ro, laneOrigin := lo, spOrigin := sp, lsOrigin := (freeLanding s u q).take g.lslots, admitted := s.nextId })
    | _, _ => none
  | _, _ => none

/-- The group takes its seat. Rows that last belonged to another tenant are zeroed (R320): a placed group's own tables hold what it
brings. -/
def sitDown (s : State) (gid : Nat) (g : Group) : State :=
  let hold : RowHold := { core := coreOf gid, gid := gid, uid := g.uid, pos := g.pos, grank := g.grank, stage := g.stage
                          first := g.spOrigin, count := g.scratch }
  let s1 := claimRows s (coreOf gid) g.spOrigin g.scratch (tenantOf s (ctxKey s g.ctx))
  { (setGroup s1 gid g) with rowHolds := s1.rowHolds ++ [hold], nextId := s1.nextId + 1 }

/-- Put a group into a core: its identity and the state with it resident. -/
def placeOn (s : State) (u : Quota) (core : Nat) (g : Group) : Option (Nat × State) :=
  (seatFor s u core g).map fun x => (x.1, sitDown s x.1 x.2)

/-- The free group slots of a partition on a core. -/
def coreFreeSlots (s : State) (u : Quota) (core : Nat) : Nat :=
  ((List.range 4).map fun k => (freeSlotsOf s u (4 * core + k)).length).sum

/-- Place the groups of one cluster instance on distinct cores of a core cluster (R288 step 2). -/
def placeInstance (s : State) (u : Quota) (cluster : Nat) (used : List Nat) : List Group → Option (List Nat × State)
  | [] => some ([], s)
  | g :: rest =>
    let cores := ((List.range 4).map fun k => 4 * cluster + k).filter fun c => !used.contains c && coreRoom s u g c
    match bestBy (coreFreeSlots s u) cores with
    | none => none
    | some core =>
      match placeOn s u core g with
      | none => none
      | some (gid, s1) =>
        match placeInstance s1 u cluster (core :: used) rest with
        | none => none
        | some (gids, s2) => some (gid :: gids, s2)

/-- Place every instance of a position in one core cluster. -/
def placeIn (s : State) (u : Quota) (cluster : Nat) : List (List Group) → Option (List Nat × State)
  | [] => some ([], s)
  | inst :: rest =>
    match placeInstance s u cluster [] inst with
    | none => none
    | some (gids, s1) =>
      match placeIn s1 u cluster rest with
      | none => none
      | some (more, s2) => some (gids ++ more, s2)

/-- Insert a core cluster in ascending order of a count, equals in the order they come. -/
def insertBy (measure : Nat → Nat) (x : Nat) : List Nat → List Nat
  | [] => [x]
  | y :: ys => if measure x ≤ measure y then x :: y :: ys else y :: insertBy measure x ys

/-- The core clusters of ready dies, in the order of R288 step 1: ascending count of the partition's resident groups, then die A and
the lower number. -/
def clustersInOrder (s : State) (part : Nat) (dies : List Nat) : List Nat :=
  let all := (List.range 64).filter fun k => dies.contains (k / 32) && readyBit s (4 + k / 32)
  let count := fun k => (s.groups.filter fun e => e.2.part == part && e.1 / 256 == k).length
  all.foldr (insertBy count) []

/-- Place a position: the first core cluster that holds every group of it (R288). -/
def placePosition (s : State) (part : Nat) (dies : List Nat) (insts : List (List Group)) : Option (List Nat × State) :=
  (clustersInOrder s part dies).findSome? fun k => placeIn s (quotaOf (pquota s part)) k insts

/-- A fibre at launch (R15). -/
def launchFibre (entry : Dword) : Fibre := { slot := .live, pc := entry }

/-- A group at launch (R15, R16, R19, R39, R219, R242): every table as a new group has it. -/
def launchGroup (l : Launch) (pos rank stage : Nat) : Group :=
  let x := pos % l.gx
  let y := pos / l.gx % l.gy
  let z := pos / (l.gx * l.gy)
  let g : Group :=
    { ctx := l.ctx, part := l.part, pasid := l.pasid, uid := l.uid, pos := pos, width := l.width, rows := l.regs
      lslots := l.lslots, scratch := l.scratch, laneOrigin := 0, rowOrigin := 0, spOrigin := 0, lsOrigin := []
      grank := rank, stage := stage, clsize := l.cls, nstage := l.nstage
      clx := BitVec.ofNat 16 x, cly := BitVec.ofNat 16 y, clz := BitVec.ofNat 16 z, prio := l.prio, launch := l.launch
      regions := l.regions, tokens := List.replicate 16 {}, maskWords := List.replicate 16 0
      fibres := (List.range l.width).map fun i => if i < l.live then launchFibre l.entry else {} }
  (List.range l.live).foldl (fun acc i => (acc.setCell i 0 (lowWord l.arg)).setCell i 1 (highWord l.arg)) g

/-- The instances of a position: for each stage, its groups by rank (R37, R38). -/
def positionGroups (l : Launch) (pos : Nat) : List (List Group) :=
  (List.range l.nstage).map fun t => (List.range l.cls).map fun r => launchGroup l pos r t

/-- The number of positions of a launch (R37). -/
def Launch.positions (l : Launch) : Nat := l.gx * l.gy * l.gz
/-- The number of groups of a launch. -/
def Launch.groups (l : Launch) : Nat := l.positions * l.cls * l.nstage

/-- The regions that a launch lists (R259). -/
def regionNumbers (w : Word) : List Nat := (List.range 32).filter fun r => w.getLsbD r

/-- The dies on which a launch may be placed: that of its regions when they all lie on one (R288). -/
def launchDies (s : State) (l : Launch) : List Nat :=
  let dies := (regionNumbers l.regions).filterMap fun r => (tblFind s.regionsOf (32 * l.part + r)).map fun x => x.die
  if dies.isEmpty then [0, 1]
  else if dies.all fun d => d == 0 then [0]
  else if dies.all fun d => d == 1 then [1]
  else [0, 1]

end Sys2Proof.Machine
end

