-- ==== Sys2Proof/Machine/Lifecycle.lean ====
section
/-! DEFINITION. How groups trigger and end, launches complete and records end (R29 to R32, R43 to R45, R159, R281), and the accesses of
dispatchers (R280). -/

namespace Sys2Proof.Machine

/-! ### The issue-priority token (R159) -/

/-- The members of a quarter's token ring, by group slot. -/
def ringMembers (s : State) (q : Nat) : List Nat := ((groupsOn s q).filter fun e => e.2.member).map Prod.fst

/-- The member after a group in ascending slot number, wrapping round: itself when it is the only one. -/
def nextMember (s : State) (gid : Nat) : Option Nat :=
  let ms := ringMembers s (quarterOf gid)
  match ms.find? fun m => decide (gid < m) with
  | some m => some m
  | none => ms.head?

/-- The holder hands the token to the next member. -/
def passToken (s : State) (gid : Nat) : State :=
  let q := quarterOf gid
  let v := getQuarter s q
  if v.token = some gid then setQuarter s q { v with token := nextMember s gid } else s

/-- A member leaves the ring; a holder passes the token as pass would, or it becomes free. -/
def leaveRing (s : State) (gid : Nat) : State :=
  let q := quarterOf gid
  let s1 := passToken s gid
  let v := getQuarter s1 q
  let s2 := if v.token = some gid then setQuarter s1 q { v with token := none } else s1
  modGroup s2 gid fun g => { g with member := false }

/-- A group joins the ring: ignored while a member of another launch stands in the quarter; a free token is taken. -/
def joinRing (s : State) (gid : Nat) : State :=
  match getGroup s gid with
  | none => s
  | some g =>
    let q := quarterOf gid
    if g.member then s
    else if (groupsOn s q).any fun e => e.2.member && !(e.2.uid == g.uid) then s
    else
      let s1 := modGroup s gid fun g => { g with member := true }
      let v := getQuarter s1 q
      if v.token.isNone then setQuarter s1 q { v with token := some gid } else s1

/-! ### Convergence (R29 to R32) -/

/-- The token takes over what the slot waits of some fibres have ordered (R268). -/
def joinToken (s : State) (g : Group) (lanes : List Nat) (k : Token) : Token :=
  { k with floor := lanes.foldl (fun m l => laterOf s m (g.fibre l).waited) k.floor }

/-- Check(t): release when every expected fibre is held, left or ended; the freed fibres are ready from the next clock (R30, R32). What the
arrivals' slot waits have ordered, the accesses of the freed fibres and of those that cause the release follow (R268). -/
def checkToken (s : State) (by_ : List Nat) (g : Group) (t : Nat) : Group :=
  match g.tokens[t]? with
  | none => g
  | some k =>
    if k.isOpen && (k.expected &&& ~~~k.held) == 0 then
      let freed := (List.range g.width).filter fun i => k.held.getLsbD i
      let g1 := { g with tokens := setAt g.tokens t {} }
      let g2 := freed.foldl (fun acc i => acc.modFibre i fun f => { f with readyAt := s.clock + 1 }) g1
      (freed ++ by_.filter fun l => !freed.contains l).foldl
        (fun acc i => acc.modFibre i fun f => { f with floor := laterOf s f.floor k.floor }) g2
    else g

/-- A fibre is held by a token. -/
def Group.held (g : Group) (lane : Nat) : Bool := g.tokens.any fun k => k.held.getLsbD lane

/-- R31: the ended fibres leave every expected set, and every token is checked in ascending order. -/
def leaveTokens (s : State) (g : Group) (lanes : List Nat) : Group :=
  let left (k : Token) : Token :=
    { (joinToken s g (lanes.filter fun l => k.expected.getLsbD l) k) with expected := k.expected &&& ~~~maskOf lanes }
  let g1 := { g with tokens := g.tokens.map left }
  (List.range 16).foldl (checkToken s lanes) g1

/-! ### Delegated ranges (R300) -/

/-- The permissions that a need comprises (R298). -/
def Need.reads : Need → Bool
  | .read | .both => true
  | _ => false
def Need.fetches : Need → Bool
  | .fetch => true
  | _ => false

/-- A request for a translation of a delegated range (R300): made once for a page and its permissions. -/
def askAts (s : State) (site : Nat) (pasid : BitVec 20) (va : Nat) (need : Need) (who : AtsWho) : State :=
  if s.ats.any fun r => r.site == site && r.pasid == pasid && r.va == va / 4096 * 4096 && r.rd == need.reads && r.wr == need.writes
      && r.ex == need.fetches && r.who == who then s
  else { s with ats := s.ats ++ [{ site := site, pasid := pasid, va := va / 4096 * 4096, rd := need.reads, wr := need.writes
                                   ex := need.fetches, who := who }] }

/-- The host has answered without the permissions that a fetch or a dispatcher needs (R300); the answer is used once. -/
def atsFailed (s : State) (site : Nat) (pasid : BitVec 20) (va : Nat) (who : AtsWho) : Option State :=
  let mine (r : AtsRequest) : Bool := r.failed && r.site == site && r.pasid == pasid && r.va == va / 4096 * 4096 && r.who == who
  if s.ats.any mine then some { s with ats := s.ats.filter fun r => !mine r } else none

/-! ### Accesses of the hub (R280, R281): no replay buffer -/

/-- The site of the hub's translation cache. -/
def hubSite : Nat := 256

def queueKey (f q : Nat) : Nat := 64 * f + q
def queuePasid (s : State) (f q : Nat) : BitVec 20 := (sqcfg s f q).extractLsb' 44 20

/-- The address that serves a physical address lies in a frame that holds a remainder chunk of a sealed region (R316). -/
def inSealedFrame (s : State) (pa : Nat) : Bool := s.regionsOf.any fun e => e.2.isSealed && e.2.frames.contains (forwarded s pa / 2 ^ 18)

/-- A translated access of a dispatcher for a queue: its address, the key it goes under, its event to come, and the state. -/
structure HubSpot where
  pa : Nat
  key : Nat
  who : Who
  after : State
  deriving DecidableEq, Repr

/-- Translate n bytes for a dispatcher under a queue's PASID (R281): none on a translation fault, a permission fault, an item that is not
ready, a sealed frame or an uncorrectable error (log 21, DESIGN CHOICE). A counter of tier 0 that the access completes is moved to die 0,
since a dispatcher has no core (R305) (log 138, DESIGN CHOICE). -/
def hubSpot (s : State) (f q : Nat) (va : Dword) (n : Nat) (need : Need) : Option HubSpot :=
  match translate s hubSite (queuePasid s f q) va need with
  | (.ok pa e _ _, s1) =>
    if itemReadyAt s1 pa && !(need.writes && inSealedFrame s1 pa) && !damagedAt s1 pa n then
      some { pa := pa, key := pageKey e (ctxKey s1 f), who := { agent := .dispatcher (queueKey f q), issued := s1.clock, far := farPlace pa e }
             after := countFor s1 (queuePasid s f q) va.toNat 0 f true }
    else none
  | _ => none

/-- Read bytes for a dispatcher: none on a fault (R281). -/
def hubRead (s : State) (f q : Nat) (va : Dword) (n : Nat) : Option (List Byte × State) :=
  (hubSpot s f q va n .read).map fun h => readMem h.after h.who h.key h.pa n

/-- Read n doublewords. -/
def hubReadDwords (s : State) (f q : Nat) (va : Dword) : Nat → Option (List Dword × State)
  | 0 => some ([], s)
  | n + 1 =>
    match hubRead s f q va 8 with
    | none => none
    | some (bs, s1) =>
      match hubReadDwords s1 f q (va + 8) n with
      | none => none
      | some (ds, s2) => some (BitVec.ofNat 64 (natOfBytes bs) :: ds, s2)

/-- Store bytes for a dispatcher: none on a fault. -/
def hubWrite (s : State) (f q : Nat) (va : Dword) (bytes : List Byte) : Option State :=
  (hubSpot s f q va bytes.length .write).map fun h => writeMem h.after h.who h.key h.pa bytes

/-- An atomic add for a dispatcher (R283): none on a fault. -/
def hubAdd (s : State) (f q : Nat) (va : Dword) (n v : Nat) : Option State :=
  (hubSpot s f q va n .both).map fun h =>
    (updateSpace h.after h.who 0 h.key h.pa n fun old => some (bytesOf n (natOfBytes old + v))).2

/-- What is logged of a dispatcher's access that fails (R339, R355, R358): an item that is not ready, or an uncorrectable error, at its
address or in a read of its tables. -/
def hubLog (s : State) (f q : Nat) (va : Dword) (n : Nat) (need : Need) : State :=
  match translate s hubSite (queuePasid s f q) va need with
  | (.ok pa _ _ _, _) =>
    if !itemReadyAt s pa then logError s f 2 (BitVec.ofNat 64 pa)
    else if damagedAt s pa n then logError s f 3 (BitVec.ofNat 64 pa)
    else s
  | (.fail _ _, s1) => s1
  | (.needAts, _) => (atsFailed s hubSite (queuePasid s f q) va.toNat .dispatcher).getD s

/-! ### Records (R280, R281) -/

def getQueue (s : State) (f q : Nat) : Queue := tblGet {} s.queues (queueKey f q)
def setQueue (s : State) (f q : Nat) (v : Queue) : State := { s with queues := tblSet {} s.queues (queueKey f q) v }

/-- The status word of a record (R281); of an index of 65,536 or more it holds the low 16 bits (log 136, DESIGN CHOICE). -/
def statusWord (r : Run) : Dword :=
  let code := if r.code ≠ 0 then r.code else if r.refused then 3 else 0
  let index := if r.code ≠ 0 then r.errIndex else 0
  BitVec.ofNat 64 (2 ^ 63 + code % 256 * 2 ^ 48 + index % 65536 * 2 ^ 32 + r.tag.toNat)

/-- The status store; not made without an address, at a misaligned one, or on a fault, which is logged (R280, R281, R339). -/
def writeStatus (s : State) (f q : Nat) (r : Run) : State :=
  if r.status = 0 ∨ r.status.toNat % 8 ≠ 0 then s
  else (hubWrite s f q r.status (bytesOf 8 (statusWord r).toNat)).getD (hubLog s f q r.status 8 .write)

/-- An access of a dispatcher waits: for the host's translation (R300), for the end of a handover (R313), of a move whose window is full or
that the access may not meet (R309), of a copy that owns the line (R271), or of a reset of its key (R326). -/
def hubWaits (s : State) (f q : Nat) (va : Dword) (need : Need) : Bool :=
  match (translate s hubSite (queuePasid s f q) va need).1 with
  | .needAts => (atsFailed s hubSite (queuePasid s f q) va.toNat .dispatcher).isNone
  | .ok pa e _ _ =>
    underHandover s pa || (need.writes && windowFull s pa) || (need == .both && inFinal s 0 pa) || copyOwns s pa
      || (!farPlace pa e && keyBusy s (ctxKey s f))
  | .fail _ _ => false

/-- Ask the host for the translation that an access of a dispatcher waits for (R300). -/
def hubAsk (s : State) (f q : Nat) (va : Dword) (need : Need) : State :=
  if (translate s hubSite (queuePasid s f q) va need).1 == .needAts then askAts s hubSite (queuePasid s f q) va.toNat need .dispatcher
  else s

/-- The status store of a record waits. -/
def statusWaits (s : State) (f q : Nat) (r : Run) : Bool :=
  !(r.status == 0 || r.status.toNat % 8 != 0) && hubWaits s f q r.status .write

/-- Everything that a record started has completed: its launches and its copies (R281). -/
def runDone (s : State) (r : Run) : Bool :=
  r.launches.all (fun u => (findLaunch s u).isNone) && r.copies.all fun c => !s.copies.any fun k => k.id == c

/-- Note an event in every record that started a launch or a copy (R45, R281). -/
def noteOrder (s : State) (mine : Run → Bool) (e : Nat) : State :=
  let put (r : Run) : Run := if mine r then { r with after := r.after ++ [e] } else r
  { s with queues := s.queues.map fun x => (x.1, { x.2 with cur := x.2.cur.map put, ending := x.2.ending.map put }) }

/-- The status store of a record lies after the completion of what the record started (R281). -/
def orderStatus (s : State) (key : Nat) (r : Run) : State :=
  if r.after.isEmpty then s else noteMark s { agent := .dispatcher key, after := r.after }

/-- Write the status of every ended record of one queue whose launches and copies have completed. -/
def finishQueue (s : State) (key : Nat) : State :=
  let f := key / 64
  let q := key % 64
  let v := tblGet {} s.queues key
  let due := v.ending.filter (runDone s)
  let done := due.filter fun r => !statusWaits s f q r
  let s0 := (due.filter (statusWaits s f q)).foldl (fun t r =>
    hubAsk t f q r.status .write) s
  if done.isEmpty then s0
  else
    let s1 := done.foldl (fun t r => writeStatus (orderStatus t key r) f q r) s0
    { s1 with queues := tblSet {} s1.queues key { v with ending := v.ending.filter fun r => !done.contains r } }

/-- Write the status words that are due. -/
def finishRuns (s : State) : State := (s.queues.map Prod.fst).foldl finishQueue s

/-- End the current record of a queue: its status is written once what it started has completed (log 96, DEDUCED). -/
def endRun (s : State) (f q : Nat) (r : Run) : State :=
  let v := getQueue s f q
  finishRuns (setQueue s f q { v with cur := none, ending := v.ending ++ [{ r with ended := true }] })

/-- Note an error or a refusal in the record that started something. -/
def noteRun (s : State) (f q id : Nat) (h : Run → Run) : State :=
  let v := getQueue s f q
  setQueue s f q { v with cur := v.cur.map fun r => if r.id == id then h r else r
                          ending := v.ending.map fun r => if r.id == id then h r else r }

/-! ### Triggers, ends and completion (R43 to R45) -/

/-- The point of time order at which a group of a launch triggers (R45): what the dependants of the launch wait for. -/
def triggerPoint (s : State) (uid : Nat) (who : Who) : State :=
  modLaunch (noteOrder (noteMark s who) (fun r => r.launches.contains uid) s.events) uid fun l => { l with trigGroups := l.trigGroups + 1 }

/-- The group triggers, if it has not yet (R44): at a point after the events that who names. -/
def triggerGroup (s : State) (gid : Nat) (who : Who) : State :=
  match getGroup s gid with
  | none => s
  | some g => if g.trig then s else triggerPoint (modGroup s gid fun g => { g with trig := true }) g.uid who

/-- The events of a group: those of its fibres, and the latest of its copies and matrix words. -/
def groupEvents (s : State) (g : Group) : List Nat :=
  ((s.past.filter fun e => match e.agent with
    | .fibre u p t r _ => u == g.uid && p == g.pos && t == g.stage && r == g.grank
    | _ => false).map fun e => e.id) ++ g.engines.toList

/-- The group keeps the latest event of a copy or matrix word of its own that has ended (R45). -/
def noteEngine (s : State) (gid : Nat) (last : Option Nat) : State :=
  modGroup s gid fun g => { g with engines := laterOf s g.engines last }

/-- A launch completes (R43), after every store of it in time order: it leaves, and records that waited for it may end. -/
def completeLaunch (s : State) (uid : Nat) : State :=
  let s1 := noteOrder (noteTop s .admission) (fun r => r.launches.contains uid) s.events
  finishRuns { s1 with launches := s1.launches.filter fun l => !(l.uid == uid) }

/-- Every group of a launch has ended and all of its stores have taken their places; a killed launch completes with its resident groups
(R332). -/
def checkLaunch (s : State) (uid : Nat) : State :=
  match findLaunch s uid with
  | none => s
  | some l =>
    if l.killed then (if s.groups.any fun e => e.2.uid == uid then s else completeLaunch s uid)
    else if l.groups ≤ l.endedGroups then completeLaunch s uid else s

/-- The scratchpad rows of a position are released when none of its groups is left (R43). -/
def releaseRows (s : State) (uid pos : Nat) : State :=
  if s.groups.any fun e => e.2.uid == uid && e.2.pos == pos then s
  else { s with rowHolds := s.rowHolds.filter fun h => !(h.uid == uid && h.pos == pos) }

/-- Take a group off its quarter: its slot, rows and landing slots are released, and the room that a relocation kept for it. -/
def removeGroup (s : State) (gid : Nat) : State :=
  let s1 := leaveRing s gid
  { s1 with groups := tblErase s1.groups gid, relocations := s1.relocations.filter fun r => !(r.gid == gid) }

/-- The group ends (R43), and triggers at its end when it has not triggered (R44): after everything that it has done has completed (R45). -/
def endGroup (s : State) (gid : Nat) : State :=
  match getGroup s gid with
  | none => s
  | some g =>
    let s1 := removeGroup (triggerGroup s gid { agent := .admission, after := groupEvents s g }) gid
    let s2 := modLaunch s1 g.uid fun l => { l with endedGroups := l.endedGroups + 1 }
    checkLaunch (releaseRows s2 g.uid g.pos) g.uid

/-- An operation of the matrix unit of the group has issued and not finished. -/
def matrixBusy (s : State) (gid : Nat) : Bool := (getQuarter s (quarterOf gid)).queue.any fun x => x.gid == gid

/-- Everything that the group issued has completed. -/
def groupQuiet (s : State) (gid : Nat) : Bool :=
  !s.accesses.any (fun a => a.gid == gid) && !s.copies.any (fun c => !c.hub && c.gid == gid) && !matrixBusy s gid
    && !s.tableLoads.any fun t => t.gid == gid

/-- Free the slots of ended fibres whose scoreboard slots have cleared (R18), and end the group when it is done (R43). A stopped group
waits for its kiosk (R173), and one stopped for saving for its restoration (R329), unless its launch is killed (R332) (log 32, DEDUCED). -/
def settleGroup (s : State) (gid : Nat) : State :=
  match getGroup s gid with
  | none => s
  | some g =>
    let s1 := (List.range g.width).foldl (fun t i => freeSlots t gid i) s
    match getGroup s1 gid with
    | none => s1
    | some g1 =>
      let killed := (findLaunch s1 g1.uid).any fun l => l.killed
      if g1.fibres.all (fun f => f.slot == .free) && groupQuiet s1 gid && (killed || (!g1.stopping && !g1.parked && !g1.saving)) then endGroup s1 gid
      else s1

/-- The fibres end (R17, R31); when no live fibre is left, the group leaves the token ring (R159), a member that does not hold the token too
(log 134, DEDUCED). -/
def endFibres (s : State) (gid : Nat) (lanes : List Nat) : State :=
  let s1 := modLanes s gid lanes fun f => if f.live then { f with slot := .ended, yielded := false } else f
  let s2 := modGroup s1 gid fun g => leaveTokens s g lanes
  let s3 := match getGroup s2 gid with
    | some g => if g.liveLanes.isEmpty then leaveRing s2 gid else s2
    | none => s2
  settleGroup (progressOf s3 gid) gid

end Sys2Proof.Machine
end

