-- ==== Sys2Proof/Machine/Access.lean ====
section
/-! DEFINITION. Accesses between issue and finish: translation, the replay buffer (R180, R301 to R304), the order of R265, and what each
kind does when it takes its place (R181 to R194, R259, R306, R309, R313, R355, R358). -/

namespace Sys2Proof.Machine

/-! ### Addresses of scratchpad and weight store (R177, R178) -/

/-- The rows that a scratchpad address selects (R177): their first row in the core and their count; none when no group of the stage
stands on the core. -/
def spadRows (s : State) (gid : Nat) (g : Group) (addr : Word) : Option (Nat × Nat) :=
  if addr.getLsbD 23 then
    (s.rowHolds.find? fun h => h.core == coreOf gid && h.uid == g.uid && h.pos == g.pos && h.stage == bitsOf addr 22 21).map
      fun h => (h.first, h.count)
  else some (g.spOrigin, g.scratch)

/-- The byte of the core's scratchpad that a scratchpad address names, when n bytes from it lie in the selected rows (R177). -/
def spadByte (s : State) (gid : Nat) (g : Group) (addr : Word) (n : Nat) : Option Nat :=
  if bitsOf addr 31 24 ≠ 0 ∨ bitsOf addr 20 19 ≠ 0 then none
  else
    match spadRows s gid g addr with
    | none => none
    | some (first, count) =>
      if bitsOf addr 18 0 + n ≤ 128 * count then some (128 * first + bitsOf addr 18 0) else none

/-- The region of a partition that holds a weight-store byte of a die (R257). -/
def regionAt (s : State) (part die off : Nat) : Option (Nat × Region) :=
  (s.regionsOf.find? fun e => e.1 / 32 == part && e.2.die == die && decide (e.2.first ≤ off / 2 ^ 19)
    && decide (off / 2 ^ 19 < e.2.first + e.2.count)).map fun e => (e.1 % 32, e.2)

/-- Every byte may be read by a launch: it lies in a sealed region that the launch lists (R178, R259). Regions are whole granules, so
the first and last byte decide for up to 512 KiB. -/
def weightReadable (s : State) (part die : Nat) (listed : Nat → Bool) (off n : Nat) : Bool :=
  let ok := fun b => match regionAt s part die b with
    | some (r, x) => x.isSealed && listed r
    | none => false
  ok off && ok (off + n - 1)

/-- The avenue of a weight-store address is under refresh (R255, R256). -/
def underRefresh (s : State) (die off : Nat) : Bool :=
  tblGet false s.refresh die && tblGet 0 s.avenue die % 16 == off / 2 ^ 27

/-! ### The replay buffer (R301, R302) -/

/-- The held entries of a core's replay buffer, by index. -/
def replayOf (s : State) (core : Nat) : Tbl Replay := s.replay.filter fun e => e.1 / 96 == core

/-- A free place in a core's replay buffer. -/
def replaySlot (s : State) (core : Nat) : Option Nat := (List.range 96).find? fun i => (tblFind s.replay (96 * core + i)).isNone

/-- Put an entry into a core's buffer; none when it is full. -/
def enterReplay (s : State) (core : Nat) (mk : Nat → Replay) : Option State :=
  match replaySlot s core with
  | none => none
  | some i => some { s with replay := tblInsert s.replay (96 * core + i) (mk s.nextId), nextId := s.nextId + 1 }

/-- The request code of an access (R302). -/
def reqOf (k : AccessKind) : Nat :=
  match k with
  | .store => 1
  | .atomic => 2
  | .reduction => 3
  | .scaleLoad _ => 8
  | _ => 0

/-- OPX of an access (R302). -/
def opxOf (a : Access) : Nat :=
  match a.kind with
  | .load | .store => a.sz * 16 + a.hint * 4
  | .atomic | .reduction => a.aop * 8 + a.aty
  | _ => 0

/-- An access needs these permissions (R298). -/
def needOf (k : AccessKind) : Need :=
  match k with
  | .store | .reduction => .write
  | .atomic => .both
  | _ => .read

/-- The replay entry of an access. -/
def replayEntry (pasid : BitVec 20) (a : Access) (page rows cause order : Nat) : Replay :=
  { order := order, va := a.addr, pasid := pasid, cause := cause, req := reqOf a.kind, size := Nat.log2 a.size
    sc := match a.kind with
      | .atomic | .reduction => a.scope
      | _ => 0
    row := match a.kind with
      | .store | .reduction => 0
      | _ => page * rows + a.row
    opx := opxOf a, data := a.data, data2 := a.data2, who := .access a.id }

/-- The atomics that host memory performs (R194): add and exch of 32 or 64 bits, and cas. -/
def hostAtomicOk (a : Access) : Bool := decide (a.aty ≠ 4) && (a.aop == 0 || a.aop == 6 || a.aop == 7)

/-- A held access of an earlier word of the same fibre to the same 128-byte line, by its virtual address or, where it was translated when it
entered the buffer, by its physical one (R265 item 2, R301 cause 6, R304) (log 93, DEDUCED). -/
def behindHeld (s : State) (a : Access) : Bool :=
  s.accesses.any fun b => b.held && b.gid == a.gid && b.lane == a.lane && decide (b.word < a.word)
    && (b.addr.toNat / 128 == a.addr.toNat / 128
      || (b.known.any fun p => a.pa.any fun q => locate s (forwarded s p) / 128 == locate s (forwarded s q) / 128))

/-- The access cannot complete: it enters the replay buffer, with the physical address that it has been found to name, and raises the trap of
a protection or migration condition when asked (R301); a full buffer leaves it untranslated. -/
def holdAccess (raise : Bool) (s : State) (g : Group) (a : Access) (cause : Nat) (known : Option Nat := a.pa) : State :=
  match enterReplay s (coreOf a.gid) (replayEntry g.pasid a (a.lane / 32) g.rows cause) with
  | none => s
  | some s1 =>
    let s2 := modAccess s1 a.id fun x => { x with held := true, pa := none, known := known }
    if raise && cause == 2 then takeTrap s2 0x0E a.gid [a.lane] a.addr
    else if raise && cause == 3 then takeTrap s2 0x0D a.gid [a.lane] a.addr
    else s2

/-- Translate an issued global access: it gets its physical address, or is held (R180, R301). -/
def translateAccess (raise : Bool) (s : State) (id : Nat) : State :=
  match findAccess s id with
  | none => s
  | some a =>
    match getGroup s a.gid with
    | none => s
    | some g =>
      if a.pa.isSome || a.held then s
      else if behindHeld s a then holdAccess raise s g a 6
      else
        match translate s (coreOf a.gid) g.pasid a.addr (needOf a.kind) with
        | (.fail cause known, s1) => holdAccess raise s1 g a cause known
        | (.needAts, s1) =>
          modAccess (askAts s1 (coreOf a.gid) g.pasid a.addr.toNat (needOf a.kind) .access) id fun x => { x with needsAts := true }
        | (.ok pa e base bits, s1) =>
          let hostOp := (a.kind == .atomic || a.kind == .reduction) && decide (hostBase ≤ pa) && !hostAtomicOk a
          let inL1 := a.hint == 3 && holdsLine s1 (coreOf a.gid) (pageKey e (ctxKey s1 g.ctx)) (locate s1 pa / 128)
          if behindHeld s1 { a with pa := some pa } then holdAccess raise s1 g a 6 (some pa)
          else if hostOp then holdAccess raise s1 g a 2 (some pa)
          else modAccess s1 id fun x =>
            { x with pa := some pa, tlbKey := some (base, bits), needsAts := false, shared := pteSH e
                     least := leastScope s1 pa e (if inL1 then 0 else x.least) }

/-- Issue a global access: it is recorded, and its translation begins (R181); its word raises the traps (R172). -/
def issueGlobal (s : State) (a : Access) : State := translateAccess false (addAccess s a) a.id

/-- The cause of the replay entry of an access. -/
def heldCause (s : State) (id : Nat) : Option Nat := (s.replay.find? fun e => e.2.who == .access id).map fun e => e.2.cause

/-! ### Order (R265, R175) -/

/-- The space of an access (R176): 0 global, 1 scratchpad, 2 weight store, 3 none. -/
def spaceOf (k : AccessKind) : Nat :=
  match k with
  | .load | .store | .atomic | .reduction => 0
  | .lds | .sts | .spill | .fill _ | .barInit | .barArrive | .barExpect | .barTest | .barWait _ | .barInval => 1
  | .ldw => 2
  | .scaleLoad n => n
  | .result | .cstat | .commit | .place _ | .pin _ | .trigger => 3

/-- The first byte that an access touches in its space: physical where it is known. -/
def firstByte (a : Access) : Nat :=
  match a.pa with
  | some p => p
  | none => a.addr.toNat

/-- The physical address that an access has, or had when it entered the replay buffer. -/
def lastPa (a : Access) : Option Nat := a.pa.or a.known

/-- Two accesses touch a common byte (R265 item 2), after translation where both have been translated. One whose translation the host has
still to give may turn out to touch any byte of host memory; one that entered the replay buffer without a translation is a new access when
it replays (R304), and is compared by its virtual address (log 130, DEDUCED). -/
def touches (a b : Access) : Bool :=
  let host (x : Access) : Bool := (x.needsAts && !x.held) || (x.pa.any fun p => decide (hostBase ≤ p))
  let virtual := overlaps a.addr.toNat a.size b.addr.toNat b.size
  spaceOf a.kind == spaceOf b.kind && decide (spaceOf a.kind ≠ 3)
    && (match lastPa a, lastPa b with
        | some p, some q => overlaps p a.size q b.size || (virtual && (a.pa.isNone || b.pa.isNone))
        | _, _ => virtual || (host a && host b))

def AccessKind.isStore : AccessKind → Bool
  | .store | .atomic | .reduction | .sts | .spill => true
  | _ => false

/-- The access updates what it touches (R175): an atomic, a reduction, a barrier word. -/
def AccessKind.updates : AccessKind → Bool
  | .atomic | .reduction | .barInit | .barArrive | .barExpect | .barInval => true
  | _ => false

/-- The accesses that must take their places before this one (R179, R188, R207, R265 item 2, R175). -/
def mustPrecede (a b : Access) : Bool :=
  decide (b.id < a.id) && b.gid == a.gid &&
    ((b.word == a.word && b.lane == a.lane)
      || ((b.lane == a.lane || (b.word == a.word && a.kind.updates)) && touches a b && (match a.kind with
            | .fill (some _) => false
            | _ => true))
      || (b.lane == a.lane && a.kind == .barArrive && b.kind.isStore)
      || (a.kind == .result && b.word == a.word && spaceOf b.kind ≠ 3)
      || (a.kind == .trigger && a.extra.contains b.id))

/-- An issued access can take its place now. -/
def canFinish (s : State) (a : Access) : Bool :=
  !a.held && !a.needsAts && !s.accesses.any (mustPrecede a)
    && (match a.kind with
        | .fill (some n) => (s.accesses.filter fun b => b.id == n && b.placed.isNone).all fun b => !s.accesses.any (mustPrecede b)
        | .spill | .commit | .barWait _ => false
        | _ => true)
    && (match getGroup s a.gid with
        | none => false
        | some g =>
          match spaceOf a.kind with
          | 0 => (match a.pa with
              | none => true
              | some pa => !copyOwns s pa && !keyBusy s (ctxKey s g.ctx))
          | 2 => !underRefresh s (dieOf a.gid) a.addr.toNat
          | _ => true)

/-- The write window of a move is full, or an atomic meets the final phase: cause 4 (R309). -/
def windowBlocks (s : State) (k : AccessKind) (pa : Nat) : Bool :=
  match moveOf s pa with
  | some m => m.phase == .final && (k == .atomic || (k.isStore && decide (256 ≤ m.window.length)))
  | none => false

/-! ### Who makes an access (R260, R265) -/

/-- The events of its fibre that an access follows beside those known at its issue: the first half of a 16-byte access (R179), and for an
arrival every earlier store, atomic, reduction and spill (R207). -/
def ownAfter (g : Group) (a : Access) : List Nat :=
  let half (d : Done) : Bool := d.word == a.word && (match a.kind with
    | .scaleLoad _ => false
    | _ => true)
  ((g.fibre a.lane).done.filter fun d => half d || (a.kind == .barArrive && d.wr)).map fun d => d.event

/-- The events that a trigger's point follows (R45): those known at its issue and those of the accesses that it has waited for. -/
def triggerAfter (s : State) (g : Group) (a : Access) : List Nat :=
  a.after ++ (s.past.filter fun e => e.agent == fibreAgent g a.lane && a.lanes.contains e.word).map fun e => e.id

/-- An access as an event to come. -/
def whoOf (g : Group) (a : Access) : Who :=
  { agent := fibreAgent g a.lane, word := a.word, born := (g.fibre a.lane).born, after := ownAfter g a ++ a.after, behind := a.behind
    issued := a.issued }

/-- A global access as an event to come: a write to host memory or a shared page is sent on by the fibre's fence.sys (R263). -/
def globalWho (g : Group) (a : Access) (pa : Nat) : Who :=
  let far := a.shared || decide (hostBase ≤ pa)
  { whoOf g a with far := far, sent := !far || (g.fibre a.lane).fence.any fun x => x.1 == 3 && decide (a.word < x.2) }

/-- The event last made of an access's word: its own, or for the mark of a word that acts for other lanes any. -/
def eventOf (s : State) (g : Group) (a : Access) : Option Nat :=
  (s.past.filter fun e => e.word == a.word && (a.kind == .result || e.agent == fibreAgent g a.lane)).foldl
    (fun m e => if m.all fun x => decide (x < e.id) then some e.id else m) none

/-- The fibre keeps what orders its later accesses after this one (R265), once the access has gone. -/
def noteDone (s : State) (g : Group) (a : Access) : State :=
  match eventOf s g a with
  | some e =>
    if (findAccess s a.id).isSome then s
    else modFibre s a.gid a.lane fun f =>
      { f with done := f.done ++ [{ event := e, slot := a.slot, least := a.least, word := a.word, wr := a.kind.isStore }] }
  | none => s

/-! ### Results -/

/-- The words that a load writes, by its size code (R184). -/
def loadWords (sz : Nat) (bytes : List Byte) : List Word :=
  let v := natOfBytes bytes
  match sz with
  | 3 | 4 => [BitVec.ofNat 32 v, BitVec.ofNat 32 (v / 2 ^ 32)]
  | 5 => [(BitVec.ofNat 8 v).signExtend 32]
  | 6 => [(BitVec.ofNat 16 v).signExtend 32]
  | _ => [BitVec.ofNat 32 v]

/-- Write the destination cells of an access: they stay where the window stood at issue (R302). -/
def writeCells (g : Group) (lane row : Nat) : List Word → Group
  | [] => g
  | v :: vs => writeCells (g.setCell lane row v) lane (row + 1) vs

/-- An access finishes with the words that it writes: its slot's record goes, and the group is settled (R18, R43, R181). Both halves of a pair
are written here, whatever a later word wrote to them meanwhile (R123) (log 107, DESIGN CHOICE). -/
def finishWith (s : State) (a : Access) (ws : List Word) : State :=
  settleGroup (dropAccess (modGroup s a.gid fun g => writeCells g a.lane a.row ws) a.id) a.gid

/-- Combine of an atomic (R192, R193). -/
def atomicCombine (aop aty : Nat) (old x : Dword) : Dword :=
  let wide := aty = 2 ∨ aty = 3
  let signed := aty = 0 ∨ aty = 2
  let o32 := lowWord old
  let x32 := lowWord x
  let narrow (v : Word) : Dword := v.setWidth 64
  if aty = 4 then
    let r := match aop with
      | 0 => fpAdd fp32 0 o32.toNat x32.toNat
      | 1 => fpMinMax fp32 false true o32.toNat x32.toNat
      | _ => fpMinMax fp32 true true o32.toNat x32.toNat
    BitVec.ofNat 64 r.1
  else if wide then
    match aop with
    | 0 => old + x
    | 1 => if signed then (if old.sle x then old else x) else (if old.ule x then old else x)
    | 2 => if signed then (if x.sle old then old else x) else (if x.ule old then old else x)
    | 3 => old &&& x
    | 4 => old ||| x
    | 5 => old ^^^ x
    | _ => x
  else
    match aop with
    | 0 => narrow (o32 + x32)
    | 1 => narrow (if signed then (if o32.sle x32 then o32 else x32) else (if o32.ule x32 then o32 else x32))
    | 2 => narrow (if signed then (if x32.sle o32 then o32 else x32) else (if x32.ule o32 then o32 else x32))
    | 3 => narrow (o32 &&& x32)
    | 4 => narrow (o32 ||| x32)
    | 5 => narrow (o32 ^^^ x32)
    | _ => narrow x32

/-- The value that an atomic leaves, none when a cas does not match and the point is a read only (R193). -/
def atomicNew (a : Access) (old : Dword) : Option Dword :=
  if a.aop = 7 then (if old = a.data then some a.data2 else none) else some (atomicCombine a.aop a.aty old a.data)

/-- A store that changes a location is progress of its launch (R51). -/
def noteChange (s : State) (gid : Nat) (changed : Bool) : State := if changed then progressOf s gid else s

/-- A trap that reports an access which then finishes without writing its destination (R174, second kind). -/
def failAccess (s : State) (a : Access) (cause : Nat) : State :=
  settleGroup (dropAccess (takeTrap s cause a.gid [a.lane] a.addr) a.id) a.gid

/-- A scale-tile load's 8 bytes go to two lanes' cells, when those lanes are written (R106, R241): the access's extra holds the written
lanes, its row the first of the four registers. -/
def scaleWords (s : State) (a : Access) (bytes : List Byte) : State :=
  let off := a.sz
  let put (g : Group) (k : Nat) : Group :=
    let o := off + 4 * k
    let lane := o % 128 / 4
    let w : Word := BitVec.ofNat 32 (natOfBytes ((bytes.drop (4 * k)).take 4))
    if a.extra.contains lane then g.setCell lane ((a.lanes[lane]?).getD 0 + o / 128) w else g
  modGroup s a.gid fun g => put (put g 0) 1

/-- A load of any space finishes with the bytes that it read. -/
def finishLoad (s : State) (a : Access) (bytes : List Byte) : State :=
  match a.kind with
  | .scaleLoad _ => finishWith (scaleWords s a bytes) a []
  | _ => finishWith s a (loadWords a.sz bytes)

/-- A global access goes through the caches (R189, R194), and counts when it misses L2 (R305). -/
def cacheAccess (s : State) (g : Group) (a : Access) (key pa : Nat) : State :=
  let s1 := recallLines s key (locate s pa) a.size
  let core := coreOf a.gid
  let c := match a.kind with
    | .atomic | .reduction => throughScope s1 core g.part key pa a.scope
    | _ => throughCaches s1 core g.part key pa a.hint a.kind.isStore
  countFor c.2 g.pasid a.addr.toNat (dieOf a.gid) g.ctx c.1

/-- A translated global access takes its place (R184, R193, R261, R304, R309, R313, R316). -/
def performGlobal (s : State) (g : Group) (a : Access) (pa : Nat) (err : Bool) : State :=
  let key := if a.shared then plainKey else ctxKey s g.ctx
  if behindHeld s a then holdAccess true s g a 6
  else if underHandover s pa then holdAccess true s g a 5
  else if windowBlocks s a.kind pa then holdAccess true s g a 4
  else if !itemReadyAt s pa then failAccess (logError s g.ctx 2 (BitVec.ofNat 64 pa)) a 0x12
  else if a.kind.isStore && inSealedFrame s pa then failAccess s a 0x0F
  else
    let s0 := cacheAccess s g a key pa
    let w := globalWho g a pa
    match a.kind with
    | .store =>
      let bytes := bytesOf a.size a.data.toNat
      let s1 := writeMem s0 w key pa bytes
      finishWith (noteChange (if a.hint = 3 then cleanUnheld s1 (locate s1 pa) else s1) a.gid (changedBy s1 s0.events bytes)) a []
    | .atomic | .reduction =>
      if (err || damagedAt s pa a.size) && a.kind == .atomic then failAccess (logError s0 g.ctx 3 (BitVec.ofNat 64 pa)) a 0x12
      else
        let value (bs : List Byte) : Dword := BitVec.ofNat 64 (natOfBytes bs)
        let r := updateSpace s0 w 0 key pa a.size fun bs => (atomicNew a (value bs)).map fun v => bytesOf a.size v.toNat
        let old := value r.1
        let changed := (atomicNew a old).any fun v => bytesOf a.size v.toNat != r.1
        let ws := if a.kind == .atomic then (if a.size = 8 then [lowWord old, highWord old] else [lowWord old]) else []
        finishWith (noteChange r.2 a.gid changed) a ws
    | _ =>
      if err || damagedAt s pa a.size then failAccess (logError s0 g.ctx 3 (BitVec.ofNat 64 pa)) a 0x12
      else
        let r := readMem s0 w key pa a.size
        finishLoad r.2 a r.1

end Sys2Proof.Machine
end

