-- ==== Sys2Proof/Machine/Control.lean ====
section
/-! DEFINITION. The control words (R147 to R169) and the words that modify the next one (R63 to R71). -/

namespace Sys2Proof.Machine

/-- A fibre's table of what is not yet available (R85, R148): register rows by their number, latches from 2048, the bits of pw from
4096. -/
def latchKey (k : Nat) : Nat := 2048 + k
def pwKey (k : Nat) : Nat := 4096 + k

/-- Write a control word's register result, and l7 (R61). -/
def writeC (g : Group) (lane d : Nat) (v : Word) : Group := (g.setReg lane d v).modFibre lane fun f => pushLatch f 7 7 v

/-- Send each fibre of the gang to its own address; the repeat-progress field is cleared (R67). -/
def sendTo (s : State) (iss : Issue) (target : Nat → Dword) : State :=
  modGroup s iss.gid fun g => iss.lanes.foldl (fun acc l => acc.modFibre l fun f => { f with pc := target l, progress := 0 }) g

/-! ### Branches, jumps, calls (R150 to R153) -/

/-- The words that send a fibre elsewhere, and whether they do so for the fibre of a lane (R150 to R153). -/
def transfers (i : Instr) (g : Group) (lane : Nat) : Bool :=
  match i with
  | .bz _ sa _ => g.reg lane sa.toNat == 0
  | .bnz _ sa _ => g.reg lane sa.toNat != 0
  | .bps _ k _ => (g.fibre lane).pw.getLsbD k.toNat
  | .bpc _ k _ => !(g.fibre lane).pw.getLsbD k.toNat
  | .jmp .. | .call .. | .calli .. | .jmpi .. | .ret .. => true
  | _ => false

/-- A branch: the taken fibres at the target, the others at the next chain (R150). -/
def branch (i : Instr) (s : State) {n : Nat} (off : BitVec n) : Result :=
  guarded i s fun iss g =>
    let src := iss.sourceGroup g
    .next (sendTo s iss fun l => if transfers i src l then iss.pc + wordOffset iss off else iss.next)

/-- R150. -/
def execBz (c : Bool) (sa : BitVec 7) (off : BitVec 15) (s : State) : Result := branch (.bz c sa off) s off
/-- R150. -/
def execBnz (c : Bool) (sa : BitVec 7) (off : BitVec 15) (s : State) : Result := branch (.bnz c sa off) s off
/-- R150. -/
def execBps (c : Bool) (k : BitVec 5) (off : BitVec 15) (s : State) : Result := branch (.bps c k off) s off
/-- R150. -/
def execBpc (c : Bool) (k : BitVec 5) (off : BitVec 15) (s : State) : Result := branch (.bpc c k off) s off
/-- R150. -/
def execJmp (c : Bool) (off : BitVec 24) (s : State) : Result := branch (.jmp c off) s off

/-- The fibres whose window would leave their rows at a call (R151). -/
def callFails (g : Group) (lanes : List Nat) (fr : Nat) : List Nat := lanes.filter fun l => decide (g.rows ≤ (g.fibre l).wb + fr)

/-- The link of a call (R151). -/
def linkOf (fr : Nat) (next : Dword) : Dword := BitVec.ofNat 64 (fr * 2 ^ 57) + next

/-- The call of one fibre: the link below the new window, the window base advanced, the target (R151). -/
def callFibre (g : Group) (lane fr : Nat) (link target : Dword) : Group :=
  let w := (g.fibre lane).wb
  ((g.setCell lane (w + fr - 2) (lowWord link)).setCell lane (w + fr - 1) (highWord link)).modFibre lane fun f =>
    { f with wb := w + fr, pc := target, progress := 0 }

/-- The check and the effect of a call (R151). -/
def callGang (s : State) (iss : Issue) (g : Group) (fr : Nat) (w : Word) (target : Nat → Dword) : Result :=
  match callFails (iss.sourceGroup g) iss.lanes fr with
  | [] => .next (setGroup s iss.gid (iss.lanes.foldl (fun acc l => callFibre acc l fr (linkOf fr iss.next) (target l)) g))
  | l => .next (trapWord s iss 0x03 l w)

/-- R151. -/
def execCall (c : Bool) (fr : BitVec 7) (off : BitVec 17) (s : State) : Result :=
  guarded (.call c fr off) s fun iss g =>
    callGang s iss g fr.toNat (wordOf (.call c fr off)) fun _ => iss.pc + wordOffset iss off

/-- An address with bits [1:0] taken as zero. -/
def alignWord (v : Dword) : Dword := v &&& ~~~(3#64)

/-- R151. -/
def execCalli (c : Bool) (fr sa : BitVec 7) (s : State) : Result :=
  guarded (.calli c fr sa) s fun iss g =>
    callGang s iss g fr.toNat (wordOf (.calli c fr sa)) fun l => alignWord ((iss.sourceGroup g).pair l sa.toNat)

/-- R153. -/
def execJmpi (c : Bool) (sa : BitVec 7) (s : State) : Result :=
  guarded (.jmpi c sa) s fun iss g => .next (sendTo s iss fun l => alignWord ((iss.sourceGroup g).pair l sa.toNat))

/-- The link that a return reads, below the window (R152). -/
def linkBelow (g : Group) (lane : Nat) : Dword :=
  let w := (g.fibre lane).wb
  pairOf (g.cell lane (w - 2)) (g.cell lane (w - 1))

/-- The return of a fibre fails its check (R152). -/
def retFails (g : Group) (lane : Nat) : Bool :=
  let w := (g.fibre lane).wb
  let fr := bitsOf (linkBelow g lane) 63 57
  decide (w < 2) || decide (fr < 2) || fr % 2 == 1 || decide (w < fr)

/-- R152. -/
def execRet (c : Bool) (s : State) : Result :=
  guarded (.ret c) s fun iss g =>
    let src := iss.sourceGroup g
    match iss.lanes.filter (retFails src) with
    | [] =>
      .next (setGroup s iss.gid (iss.lanes.foldl (fun acc l =>
        acc.modFibre l fun f =>
          { f with wb := f.wb - bitsOf (linkBelow src l) 63 57, progress := 0
                   pc := BitVec.ofNat 64 (bitsOf (linkBelow src l) 56 2 * 4) }) g))
    | l => .next (trapWord s iss 0x03 l (wordOf (.ret c)))

/-! ### Spawn and end (R154, R155) -/

/-- The fibre that a spawn creates in a slot (R15, R36, R154). -/
def spawnedFibre (target : Dword) (rm : Nat) (now born : Nat) (since : Option Nat) : Fibre :=
  { slot := .live, pc := target, fstat := BitVec.ofNat 32 rm, readyAt := now + 4, startAt := now + 4, born := born, floor := since }

/-- Spawn for each spawner in turn, from the free slots that are left (R154). -/
def spawnFrom (src : Group) (target : Dword) (now born d sa : Nat) : List Nat → List Nat → Group → Group
  | [], _, g => g
  | f :: fs, [], g => spawnFrom src target now born d sa fs [] (writeC g f d 0xFFFFFFFF)
  | f :: fs, n :: ns, g =>
    let made := (g.setFibre n (spawnedFibre target (roundingMode (src.fibre f)) now born g.since)).setReg n 0 (src.reg f sa)
    spawnFrom src target now born d sa fs ns (writeC made f d (BitVec.ofNat 32 n))

/-- The IX of matrix words of the group that have issued and not completed does not reach this fibre: it takes its place by their issue clocks
(R166), before a later write of FSTAT that leaves it clear, and before the fibre began. -/
def cancelIx (s : State) (gid lane : Nat) : State :=
  let q := quarterOf gid
  let v := getQuarter s q
  setQuarter s q { v with queue := v.queue.map fun x =>
    if x.gid == gid && !x.ixOff.contains lane then { x with ixOff := x.ixOff ++ [lane] } else x }

/-- R154. A spawn word is progress of its launch whether or not a slot was free (R51) (log 109, DESIGN CHOICE). -/
def execSpawn (c : Bool) (d sa : BitVec 7) (off : BitVec 10) (s : State) : Result :=
  guarded (.spawn c d sa off) s fun iss g =>
    let free := (List.range g.width).filter fun i => (g.fibre i).slot == .free
    let g1 := spawnFrom (iss.sourceGroup g) (iss.pc + wordOffset iss off) s.clock s.nextId d.toNat sa.toNat iss.lanes free g
    let s1 := (free.take iss.lanes.length).foldl (fun t l => cancelIx t iss.gid l) (setGroup s iss.gid g1)
    .next (advance (progressOf s1 iss.gid) iss)

/-- R155. -/
def execEndFibre (c : Bool) (s : State) : Result :=
  guarded (.endFibre c) s fun iss _ => .next (endFibres (advance s iss) iss.gid iss.lanes)

/-! ### Convergence words (R30, R156) -/

/-- topen: the gang becomes the expected set of an open token. -/
def topenToken (g : Group) (t : Nat) (lanes : List Nat) : Group :=
  { g with tokens := setAt g.tokens t { isOpen := true, expected := maskOf lanes, held := 0 } }

/-- R30, R156. -/
def execTopen (c : Bool) (t : BitVec 4) (s : State) : Result :=
  guarded (.topen c t) s fun iss g =>
    match g.tokens[t.toNat]? with
    | some k =>
      if k.held ≠ 0 then .next (trapWord s iss 0x04 iss.lanes (wordOf (.topen c t)))
      else .next (advance (setGroup s iss.gid (topenToken g t.toNat iss.lanes)) iss)
    | none => .next (advance s iss)

/-- fuse: the expected fibres of the gang are held; the token is checked. -/
def fuseToken (s : State) (g : Group) (t : Nat) (lanes : List Nat) : Group :=
  match g.tokens[t]? with
  | none => g
  | some k =>
    let held := if k.isOpen then k.held ||| (maskOf lanes &&& k.expected) else k.held
    let k1 := joinToken s g (lanes.filter fun l => k.isOpen && k.expected.getLsbD l) k
    checkToken s lanes { g with tokens := setAt g.tokens t { k1 with held := held } } t

/-- R30, R156. -/
def execFuse (c : Bool) (t : BitVec 4) (s : State) : Result :=
  guarded (.fuse c t) s fun iss _ =>
    .next (modGroup (advance s iss) iss.gid fun g => fuseToken s g t.toNat iss.lanes)

/-- leave: the gang leaves the expected set; the token is checked. -/
def leaveToken (s : State) (g : Group) (t : Nat) (lanes : List Nat) : Group :=
  match g.tokens[t]? with
  | none => g
  | some k =>
    let k1 := joinToken s g (lanes.filter fun l => k.expected.getLsbD l) k
    checkToken s lanes { g with tokens := setAt g.tokens t { k1 with expected := k1.expected &&& ~~~maskOf lanes } } t

/-- R30, R156. -/
def execLeave (c : Bool) (t : BitVec 4) (s : State) : Result :=
  guarded (.leave c t) s fun iss _ =>
    .next (modGroup (advance s iss) iss.gid fun g => leaveToken s g t.toNat iss.lanes)

/-! ### System words (R157 to R160) -/

/-- R157. -/
def execNop (c : Bool) (s : State) : Result := guarded (.nop c) s fun iss _ => .next (advance s iss)

/-- R158: while a soft request is pending, the fibres stop at the next chain. -/
def execYield (c : Bool) (s : State) : Result :=
  guarded (.yield c) s fun iss g =>
    let s1 := advance s iss
    .next (if g.softReq then modLanes s1 iss.gid iss.lanes fun f => { f with yielded := true } else s1)

/-- The accesses that a fence of a fibre holds its next M word for (R195), and the events of those that have taken their places. -/
def fencedOpen (s : State) (gid lane : Nat) (f : Fibre) : List Access :=
  match f.fence with
  | none => []
  | some (sc, n) => s.accesses.filter fun a =>
      a.gid == gid && a.lane == lane && decide (a.id < n) && decide (a.least ≤ sc) && decide (spaceOf a.kind ≠ 3)
def fencedDone (f : Fibre) : List Nat :=
  match f.fence with
  | none => []
  | some (sc, n) => (f.done.filter fun d => decide (d.least ≤ sc) && decide (d.word < n)).map fun d => d.event

/-- R157, R44: the first trigger word of a group is progress of its launch (R51). Its point lies after what the fibre's accesses must follow,
and after those that a fence of the fibre orders (R45, R265): while one of these has not taken its place, the point waits for it. -/
def execTrigger (c : Bool) (s : State) : Result :=
  guarded (.trigger c) s fun iss g =>
    let lane := iss.lanes.headD 0
    let f := g.fibre lane
    let s1 := advance s iss
    let after := f.floor.toList ++ fencedDone f
    let waits := fencedOpen s iss.gid lane f
    .next (if g.trig then s1
      else if waits.isEmpty then triggerGroup (progressOf s1 iss.gid) iss.gid { agent := fibreAgent g lane, after := after }
      else
        addAccess { progressOf (modGroup s1 iss.gid fun g => { g with trig := true }) iss.gid with nextId := s1.nextId + 1 }
          { id := s1.nextId, word := s1.nextId, gid := iss.gid, lane := lane, slot := none, kind := .trigger, addr := 0, size := 0
            after := after, extra := waits.map fun a => a.id, lanes := waits.map fun a => a.word })

/-- R159. -/
def execPass (c : Bool) (s : State) : Result := guarded (.pass c) s fun iss _ => .next (passToken (advance s iss) iss.gid)

/-- A breakpoint or trap instruction: precise, the detail word IMM16; the record carries the next chain's address (R160, R171). -/
def trapImm (s : State) (iss : Issue) (g : Group) (cause : Nat) (imm : BitVec 16) : State :=
  deliverTrap s g iss.gid cause iss.lanes
    { trapRecordOf g iss.gid cause iss.lanes (imm.setWidth 64) with next := iss.next }

/-- R160. -/
def execBrk (c : Bool) (imm : BitVec 16) (s : State) : Result :=
  guarded (.brk c imm) s fun iss g => .next (trapImm s iss g 0x14 imm)
/-- R160. -/
def execTrap (c : Bool) (imm : BitVec 16) (s : State) : Result :=
  guarded (.trap c imm) s fun iss g => .next (trapImm s iss g 0x16 imm)

/-- R162: the wait was made before the word issued. -/
def execWsb (c : Bool) (m : BitVec 8) (s : State) : Result := guarded (.wsb c m) s fun iss _ => .next (advance s iss)

/-! ### Relocation (R46, R47, R161) -/

/-- The home of an address, as a number: the HBM stack of its page in tier 0, else the die's link to the hub (R46), for host memory too
(log 132, DEDUCED). -/
def homeOf (s : State) (die pa : Nat) : Nat :=
  match placeOf s pa with
  | .tier0 d => 4 * d + Config.homeStack (pa / 2 ^ 18) % 4
  | _ => 8 + die

/-- The target core of a relocation (R46, R161): the issuing core when the address has no translation, and when the die of the nearest core
is not ready (log 110, DESIGN CHOICE). -/
def relocateTarget (s : State) (iss : Issue) (g : Group) (va : Dword) : Nat × State :=
  match residentLeaf s (coreOf iss.gid) g.pasid va with
  | (some (pa, _, _, _), s1) =>
    let t := Config.nearestCore g.part (homeOf s1 (dieOf iss.gid) pa) % 256
    (if readyBit s1 (4 + dieOfCore t) then t else coreOf iss.gid, s1)
  | (none, s1) => (coreOf iss.gid, s1)

/-- An issued matrix word of the group has still to write its landing slot (R219) (log 111, DEDUCED). -/
def landingDue (s : State) (gid : Nat) : Bool :=
  (getQuarter s (quarterOf gid)).queue.any fun x => x.gid == gid && (match x.kind with
    | .mtosp .. => false
    | _ => true)

/-- The outcome of a relocation in the order of R46's table. -/
def relocateCode (s : State) (gid : Nat) (g : Group) (target : Nat) : Nat :=
  if g.scratch ≠ 0 then 1
  else if !g.uncommitted.isEmpty || landingDue s gid then 2
  else if s.copies.any fun c => !c.hub && c.gid == gid then 3
  else if 1 < g.clsize then 4
  else if 1 < g.nstage then 5
  else if target = coreOf gid then 7
  else if !coreRoom s (quotaOf (pquota s g.part)) g target then 6
  else 0

/-- R161: a refusal or code 7 is delivered at once; a move stops the group and RELOCATE_MOVE delivers the code. -/
def execRelocate (o : EF) (s : State) : Result :=
  guarded (.relocate o) s fun iss g =>
    let va := (iss.sourceGroup g).pair (iss.lanes.headD 0) o.sa.toNat
    let t := relocateTarget s iss g va
    let code := relocateCode t.2 iss.gid g t.1
    match (if code = 0 then seatFor t.2 (quotaOf (pquota t.2 g.part)) t.1 g else none) with
    | some (gid, seat) =>
      let s1 := advance (modGroup t.2 iss.gid fun g => { g with moving := true }) iss
      .next { s1 with relocations := s1.relocations ++ [{ gid := iss.gid, seatGid := gid, seat := seat, target := t.1, lanes := iss.lanes, dst := o.d }] }
    | none =>
      .next (advance (modGroup t.2 iss.gid fun g =>
        iss.lanes.foldl (fun acc l => writeC acc l o.d.toNat (BitVec.ofNat 32 code)) g) iss)

/-! ### Control registers (R163 to R168) and predicate moves (R169) -/

/-- The accesses that were in flight before the issuing chain (R55). -/
def beforeChain (s : State) : State :=
  match s.issue.bind fun i => i.mark with
  | some m => { s with accesses := s.accesses.filter fun a => decide (a.id < m) }
  | none => s

/-- The pending bits of a fibre (R164). -/
def pendingBits (s : State) (gid lane : Nat) : Word :=
  (List.range 8).foldl (fun acc k => if slotPending (beforeChain s) gid lane k then acc ||| (1#32 <<< k) else acc) 0

/-- Live lane indices from lo, 32 of them (R164). -/
def liveBits (g : Group) (lo : Nat) : Word :=
  (List.range 32).foldl (fun acc k => if lo + k < g.width && (g.fibre (lo + k)).live then acc ||| (1#32 <<< k) else acc) 0

/-- The energy budget of a context in a core (R292). -/
def budgetOf (s : State) (f core : Nat) : Nat := tblGet 0 s.budgets (256 * f + core)

/-- EBUDGET (R164, R292). -/
def budgetWord (s : State) (f core : Nat) : Word :=
  if (getX s f 0x100).getLsbD 0 then BitVec.ofNat 32 (Nat.min (budgetOf s f core) 0xFFFFFFFF) else 0xFFFFFFFF

/-- WSPHASE of a die (R167): the slot in progress, whether its window lasts, and the time since it began. -/
def wsphaseWord (s : State) (die : Nat) : Word :=
  let slot := tblGet 0 s.avenue die
  let elapsed := Nat.min ((dieClock s die - 1000 * slot) * 4 / 5) 799
  BitVec.ofNat 32 (elapsed * 2 ^ 16 + (if tblGet false s.refresh die then 16 else 0) + slot % 16)

/-- CORELOC (R167). -/
def corelocWord (g : Group) (gid : Nat) : Word :=
  BitVec.ofNat 32 (g.part * 1024 + dieOf gid * 512 + coreOf gid % 128 * 4 + quarterOf gid % 4)

/-- The value of a control register for a fibre (R164); none for a number that the index does not list. The group is as it was before
the chain. -/
def csrValue (s : State) (gid : Nat) (g : Group) (lane n : Nat) : Option Word :=
  let f := g.fibre lane
  let w (x : Nat) : Option Word := some (BitVec.ofNat 32 x)
  match n with
  | 0x000 => some f.fstat
  | 0x001 => w lane
  | 0x002 => w f.wb
  | 0x003 => some (pendingBits s gid lane)
  | 0x004 => w (dieClock s (dieOf gid))
  | 0x005 => some f.cycleh
  | 0x010 => w g.width
  | 0x011 => w g.grank
  | 0x012 => w g.clsize
  | 0x013 => w g.clx.toNat
  | 0x014 => w g.cly.toNat
  | 0x015 => w g.clz.toNat
  | 0x016 => w g.stage
  | 0x017 => w g.nstage
  | 0x018 => some g.launch
  | 0x019 => some (liveBits g 0)
  | 0x01A => some (liveBits g 32)
  | 0x01B => w g.prio
  | 0x01C => w ((if (getQuarter s (quarterOf gid)).token = some gid then 2 else 0) + (if g.member then 1 else 0))
  | 0x01D => some g.skipcnt
  | 0x020 => some (corelocWord g gid)
  | 0x021 => some (wsphaseWord s (dieOf gid))
  | 0x022 => some (budgetWord s g.ctx (coreOf gid))
  | _ => none

/-- The registers with a field that a word may write (R164). -/
def csrWritable (n : Nat) : Bool := n == 0x000 || n == 0x01C || n == 0x01D

/-- The write of a control register by a fibre, field by field (R163, R165, R167, R159). -/
def csrWrite (s : State) (gid lane n : Nat) (v : Word) : State :=
  match n with
  | 0x000 => modFibre s gid lane fun f => { f with fstat := v &&& fstatWritable }
  | 0x01C => if v.getLsbD 0 then joinRing s gid else leaveRing s gid
  | 0x01D => modGroup s gid fun g => { g with skipcnt := v }
  | _ => s

/-- csrr: a gang of two passes reads what changes from clock to clock at its first pass (log 133, DEDUCED); a read of CYCLE also latches its high half (R164). The bits that earlier words of a chain set in FSTAT are there from their issue
step, so that no csrr of it is held (R121) (log 118, DESIGN CHOICE); the IX of a matrix word comes with the word's completion (log 117,
DESIGN CHOICE). -/
def csrRead (s : State) (iss : Issue) (src : Group) (r n : Nat) : State :=
  iss.lanes.foldl (fun t l =>
    let t1 := modGroup t iss.gid fun g => writeC g l r ((csrValue s iss.gid src l n).getD 0)
    if n = 4 then modFibre t1 iss.gid l fun f => { f with cycleh := BitVec.ofNat 32 (dieClock s (dieOf iss.gid) / 2 ^ 32) } else t1) s

/-- A control-register write, the fibres in ascending lane order, each combining its operand with the value it finds (R163). A write of FSTAT
waits no clock: the bits that earlier words set are there from their issue steps (R166) (log 118, DESIGN CHOICE). -/
def csrModify (i : Instr) (s : State) (r n : Nat) (h : Word → Word → Word) : Result :=
  guarded i s fun iss g =>
    if !csrWritable n then .next (trapWord s iss 0x01 iss.lanes (wordOf i))
    else
      let src := iss.sourceGroup g
      .next (advance (iss.lanes.foldl (fun t l =>
        match getGroup t iss.gid with
        | none => t
        | some now =>
          let old := (csrValue t iss.gid now l n).getD 0
          let v := src.reg l r
          let t1 := if n = 0 ∧ !(h (old ||| 0x80) v).getLsbD 7 then cancelIx t iss.gid l else t
          csrWrite t1 iss.gid l n (h old v)) s) iss)

/-- R163. -/
def execCsrr (c : Bool) (r : BitVec 7) (n : BitVec 12) (s : State) : Result :=
  guarded (.csrr c r n) s fun iss g =>
    if (csrValue s iss.gid g (iss.lanes.headD 0) n.toNat).isNone then
      .next (trapWord s iss 0x01 iss.lanes (wordOf (.csrr c r n)))
    else .next (advance (csrRead s iss (iss.sourceGroup g) r.toNat n.toNat) iss)
/-- R163. -/
def execCsrw (c : Bool) (r : BitVec 7) (n : BitVec 12) (s : State) : Result :=
  csrModify (.csrw c r n) s r.toNat n.toNat fun _ v => v
/-- R163. -/
def execCsrs (c : Bool) (r : BitVec 7) (n : BitVec 12) (s : State) : Result :=
  csrModify (.csrs c r n) s r.toNat n.toNat fun old v => old ||| v
/-- R163. -/
def execCsrc (c : Bool) (r : BitVec 7) (n : BitVec 12) (s : State) : Result :=
  csrModify (.csrc c r n) s r.toNat n.toNat fun old v => old &&& ~~~v

/-- R169. -/
def execRdpw (c : Bool) (r : BitVec 7) (s : State) : Result :=
  guarded (.rdpw c r) s fun iss g =>
    let src := iss.sourceGroup g
    .next (advance (modGroup s iss.gid fun g => iss.lanes.foldl (fun acc l => writeC acc l r.toNat (src.fibre l).pw) g) iss)

/-- R169. -/
def execWrpw (c : Bool) (r : BitVec 7) (s : State) : Result :=
  guarded (.wrpw c r) s fun iss g =>
    let src := iss.sourceGroup g
    .next (advance (modGroup s iss.gid fun g =>
      iss.lanes.foldl (fun acc l => acc.modFibre l fun f => { f with pw := src.reg l r.toNat }) g) iss)

/-! ### Words that modify the next one (R63) -/

/-- A prefix: a second of its kind is an illegal instruction, and one that ends its packet an illegal packet (R63, R77); else it applies
to the next word. -/
def takePrefix (i : Instr) (s : State) (present : Issue → Bool) (set : Issue → Issue) : Result :=
  withGang s fun iss _ =>
    if iss.pc.toNat % 12 = 8 then .next (trapWord s iss 0x02 iss.lanes (wordOf i))
    else if !i.wf || present iss then .next (trapWord s iss 0x01 iss.lanes (wordOf i))
    else .next { s with issue := some { set iss with pc := iss.pc + 4 } }

/-- R65. -/
def execRep (nr nc : BitVec 5) (ca cb : Bool) (rsd rsa rsb : BitVec 4) (s : State) : Result :=
  takePrefix (.rep nr nc ca cb rsd rsa rsb) s (fun i => i.rep.isSome) fun i =>
    { i with rep := some { nr := nr.toNat, nc := nc.toNat, ca := ca.toNat, cb := cb.toNat, rsd := rsd.toNat, rsa := rsa.toNat
                           rsb := rsb.toNat } }
/-- R69. -/
def execXl (pat : BitVec 3) (k : BitVec 6) (fill : Bool) (s : State) : Result :=
  takePrefix (.xl pat k fill) s (fun i => i.xl.isSome) fun i => { i with xl := some { pat := pat.toNat, k := k.toNat, own := fill } }
/-- R70. -/
def execGrd (sense : Bool) (bit : BitVec 5) (s : State) : Result :=
  takePrefix (.grd sense bit) s (fun i => i.grd.isSome) fun i => { i with grd := some (sense, bit) }
/-- R71. -/
def execExt (imm : BitVec 24) (s : State) : Result :=
  takePrefix (.ext imm) s (fun i => i.ext.isSome) fun i => { i with ext := some imm }

end Sys2Proof.Machine
end

