-- ==== Sys2Proof/Machine/MemWords.lean ====
section
/-! DEFINITION. The memory words (R175 to R198, R241): what each asks of its space at issue. An access that passes its checks is
recorded and takes its place at ACCESS_FINISH (Finish.lean). -/

namespace Sys2Proof.Machine

/-! ### Issue (R180, R181, R184) -/

/-- What a word asks for a participant: its accesses, or the address that failed a check at issue (R180). -/
abbrev Ask := Except Dword (List Access)

def Ask.failed : Ask → Option Dword
  | .error ea => some ea
  | .ok _ => none
def Ask.accesses : Ask → List Access
  | .error _ => []
  | .ok l => l

/-- Record an access of a word and begin its translation; an access whose place is known needs none. Its event must follow what its fibre's
slot waits, fences and range entries have ordered (R265, R269). -/
def startAccess (word : Nat) (s : State) (a : Access) : State :=
  let f := ((getGroup s a.gid).map fun g => g.fibre a.lane).getD {}
  let b := { a with id := s.nextId, word := word, after := f.floor.toList, behind := f.behind, issued := s.clock }
  let s1 := { s with nextId := s.nextId + 1 }
  if spaceOf b.kind = 0 then issueGlobal s1 b else addAccess s1 b

/-- The fibres whose accesses, of those recorded after the first n, entered the replay buffer with a cause, and the address of each
(R301). -/
def enteredWith (s : State) (n cause : Nat) : List (Nat × Dword) :=
  ((s.accesses.drop n).filter fun a => a.held && heldCause s a.id == some cause).map fun a => (a.lane, a.addr)

/-- One trap for the fibres of a word that meet a condition, with the lowest fibre's address (R171, R172) (log 37, DEDUCED). -/
def wordTrap (s : State) (gid cause : Nat) (met : List (Nat × Dword)) : State :=
  match (List.range 64).filterMap fun l => (met.find? fun m => m.1 == l) with
  | [] => s
  | (l, ea) :: rest => takeTrap s cause gid (l :: rest.map Prod.fst) ea

/-- Issue the accesses of a word for its participants, in ascending lane order, and raise its protection and migration traps (R172,
R180, R301). -/
def issueAsks (s : State) (gid : Nat) (asks : List (Nat × Ask)) : State :=
  let s1 := ((asks.map fun x => x.2.accesses).flatten).foldl (startAccess s.nextId) { s with nextId := s.nextId + 1 }
  let failed := asks.filterMap fun x => x.2.failed.map fun ea => (x.1, ea)
  wordTrap (wordTrap s1 gid 0x0E (failed ++ enteredWith s1 s.accesses.length 2)) gid 0x0D (enteredWith s1 s.accesses.length 3)

/-- A MEMORY WORD (R175, R184): each participant makes its own accesses. -/
def memWord (i : Instr) (s : State) (ask : State → Issue → Group → Nat → Ask) : Result :=
  guarded i s fun iss g =>
    let src := iss.sourceGroup g
    .next (issueAsks (advance s iss) iss.gid ((iss.participants g).map fun l => (l, ask s iss src l)))

/-- The event to come of a word that reads at its issue for one fibre (R210, R239, R244). -/
def wordWho (s : State) (g : Group) (lane : Nat) : Who :=
  let f := g.fibre lane
  { agent := fibreAgent g lane, word := s.nextId, born := f.born, after := f.floor.toList, behind := f.behind, issued := s.clock }

/-- Read n words of the core's scratchpad from a byte, one event each. -/
def readWords (w : Who) (core byte : Nat) : Nat → State → List Word × State
  | 0, s => ([], s)
  | n + 1, s =>
    let r := readSpace s w 1 0 (spadKey core byte) 4
    let t := readWords w core (byte + 4) n r.2
    (BitVec.ofNat 32 (natOfBytes r.1) :: t.1, t.2)

/-- The row of a register in its lane page, fixed at issue (R302). -/
def rowOf (g : Group) (lane n : Nat) : Nat := (g.fibre lane).wb + n

/-- The access of a participant before its word fills in what it moves. -/
def askOf (iss : Issue) (lane : Nat) (slot : Nat) (kind : AccessKind) (ea : Dword) (size : Nat) : Access :=
  { id := 0, word := 0, gid := iss.gid, lane := lane, slot := some slot, kind := kind, addr := ea, size := size }

/-- The least fence scope of a load or store by its hint (R264): a .byp access counts as missing L1. -/
def leastOfHint (rh : Nat) : Nat := if rh = 3 then 2 else 0

/-- The accesses of a load of an SZ code (R179, R184): a 16-byte load is two of 8 bytes, the lower address first. -/
def loadParts (a : Access) (sz row : Nat) : List Access :=
  if sz = 4 then
    [{ a with size := 8, sz := 4, row := row, nregs := 2 },
     { a with size := 8, sz := 4, addr := a.addr + 8, pa := a.pa.map fun p => p + 8, row := row + 2, nregs := 2 }]
  else [{ a with size := sizeBytes sz, sz := sz, row := row, nregs := sizeRegs sz }]

/-- The accesses of a store of the registers from D (R179, R184). -/
def storeParts (g : Group) (a : Access) (sz lane d : Nat) : List Access :=
  if sz = 4 then
    [{ a with size := 8, sz := 4, data := g.pair lane d },
     { a with size := 8, sz := 4, addr := a.addr + 8, pa := a.pa.map fun p => p + 8, data := g.pair lane (d + 2) }]
  else [{ a with size := sizeBytes sz, sz := sz, data := if sz = 3 then g.pair lane d else (g.reg lane d).setWidth 64 }]

/-- The alignment check (R179). -/
def alignedTo (ea : Dword) (n : Nat) (l : List Access) : Ask := if ea.toNat % n ≠ 0 then .error ea else .ok l

/-- ld (R183, R184). -/
def askLd (o : MM) (iss : Issue) (g : Group) (lane : Nat) : Ask :=
  let ea := memAddress g iss lane o.bp
  let a := { askOf iss lane o.ss.toNat .load ea 0 with hint := o.rh.toNat, least := leastOfHint o.rh.toNat }
  alignedTo ea (sizeBytes o.sz.toNat) (loadParts a o.sz.toNat (rowOf g lane o.d.toNat))

/-- st (R183, R184). -/
def askSt (o : MM) (iss : Issue) (g : Group) (lane : Nat) : Ask :=
  let ea := memAddress g iss lane o.bp
  let a := { askOf iss lane o.ss.toNat .store ea 0 with hint := o.rh.toNat, least := leastOfHint o.rh.toNat }
  alignedTo ea (sizeBytes o.sz.toNat) (storeParts g a o.sz.toNat lane o.d.toNat)

/-- A scratchpad access (R177, R179): the byte of the core that it names, or the address that failed. -/
def spadAsk (s : State) (iss : Issue) (g : Group) (lane : Nat) (o : MM) (own : Bool) (parts : Nat → List Access) : Ask :=
  let ea := memAddress g iss lane o.bp
  let n := sizeBytes o.sz.toNat
  match spadByte s iss.gid g (lowWord ea) n with
  | none => .error ea
  | some b => if own && (lowWord ea).getLsbD 23 then .error ea else alignedTo ea n (parts b)

/-- lds (R183, R184). -/
def askLds (o : MM) (s : State) (iss : Issue) (g : Group) (lane : Nat) : Ask :=
  spadAsk s iss g lane o false fun b =>
    loadParts { askOf iss lane o.ss.toNat .lds (memAddress g iss lane o.bp) 0 with pa := some b } o.sz.toNat (rowOf g lane o.d.toNat)

/-- sts and spill (R183, R184, R188). -/
def askSts (o : MM) (kind : AccessKind) (s : State) (iss : Issue) (g : Group) (lane : Nat) : Ask :=
  spadAsk s iss g lane o (kind == .spill) fun b =>
    storeParts g { askOf iss lane o.ss.toNat kind (memAddress g iss lane o.bp) 0 with pa := some b } o.sz.toNat lane o.d.toNat

/-! ### Spill forwarding (R188) -/

/-- The unwritten spills of a fibre, the most recent first. -/
def heldSpills (s : State) (gid lane : Nat) : List Access :=
  (s.accesses.filter fun a => a.gid == gid && a.lane == lane && a.kind == .spill).reverse

/-- The entry that holds an access. -/
def entryOf (s : State) (id : Nat) : Option SpillEntry := s.spills.find? fun e => e.accesses.contains id

/-- The bytes of an access lie in a spill's. -/
def insideOf (a b : Access) : Bool := decide (firstByte b ≤ firstByte a) && decide (firstByte a + a.size ≤ firstByte b + b.size)

/-- The bytes that a fill takes from a spill. -/
def takenFrom (a b : Access) : Dword := BitVec.ofNat 64 (b.data.toNat / 2 ^ (8 * (firstByte a - firstByte b)))

/-- Serve every part of a fill from the most recent entry of its fibre that overlaps it, when that entry holds all of its bytes
(R188). -/
def forwardFill (s : State) (parts : List Access) : List Access :=
  let first := parts.headD { id := 0, word := 0, gid := 0, lane := 0, slot := none, kind := .load, addr := 0, size := 0 }
  let held := heldSpills s first.gid first.lane
  match held.find? fun b => parts.any fun a => overlaps (firstByte a) a.size (firstByte b) b.size with
  | none => parts
  | some b0 =>
    match entryOf s b0.id with
    | none => parts
    | some e =>
      let here := held.filter fun b => e.accesses.contains b.id
      if parts.all fun a => here.any (insideOf a) then
        parts.map fun a =>
          match here.find? (insideOf a) with
          | some b => { a with kind := .fill (some b.id), data := takenFrom a b }
          | none => a
      else parts

/-- fill (R183, R188). -/
def askFill (o : MM) (s : State) (iss : Issue) (g : Group) (lane : Nat) : Ask :=
  spadAsk s iss g lane o true fun b =>
    forwardFill s (loadParts { askOf iss lane o.ss.toNat (.fill none) (memAddress g iss lane o.bp) 0 with pa := some b } o.sz.toNat
      (rowOf g lane o.d.toNat))

/-- The forwarding-table entries of the spills that a word has just issued: one for each pass (R188). -/
def enterSpills (s : State) (word core : Nat) : State :=
  let mine := fun page => (s.accesses.filter fun a => a.word == word && a.kind == .spill && a.lane / 32 == page).map fun a => a.id
  [0, 1].foldl (fun t page =>
    if (mine page).isEmpty then t
    else { t with spills := t.spills ++ [{ id := t.nextId, core := core, accesses := mine page }], nextId := t.nextId + 1 }) s

/-! ### The weight store (R178, R259) -/

/-- ldw (R183, R184). -/
def askLdw (o : MM) (s : State) (iss : Issue) (g : Group) (lane : Nat) : Ask :=
  let ea := memAddress g iss lane o.bp
  let n := sizeBytes o.sz.toNat
  if ea.toNat % n ≠ 0 then .error ea
  else if 2 ^ 31 ≤ ea.toNat ∨ weightReadable s g.part (dieOf iss.gid) g.regions.getLsbD ea.toNat n = false then .error ea
  else .ok (loadParts { askOf iss lane o.ss.toNat .ldw ea 0 with pa := some ea.toNat } o.sz.toNat (rowOf g lane o.d.toNat))

/-! ### Atomics and reductions (R191 to R194) -/

/-- The least fence scope of an atomic or reduction (R264). -/
def leastOfScope (sc : Nat) : Nat :=
  match sc with
  | 0 => 0
  | 3 => 2
  | _ => 1

/-- The access of an atomic or reduction (R193). -/
def askAtom (o : MAt) (aop : Nat) (kind : AccessKind) (iss : Issue) (g : Group) (lane : Nat) : Ask :=
  let ea := memAddress g iss lane o.bp
  let wide := o.ty = 2 ∨ o.ty = 3
  let n := if wide then 8 else 4
  let value := fun r => if wide then g.pair lane r else (g.reg lane r).setWidth 64
  let a := { askOf iss lane o.ss.toNat kind ea n with
    aop := aop, aty := o.ty.toNat, scope := o.sc.toNat, least := leastOfScope o.sc.toNat
    data := value o.d.toNat, data2 := if aop = 7 then value (o.d.toNat + (if wide then 2 else 1)) else 0
    row := rowOf g lane o.d.toNat, nregs := if kind == .atomic then (if wide then 2 else 1) else 0 }
  alignedTo ea n [a]

/-! ### The words -/

/-- R184. -/
def execLd (o : MM) (s : State) : Result := memWord (.ld o) s fun _ => askLd o
/-- R184. -/
def execSt (o : MM) (s : State) : Result := memWord (.st o) s fun _ => askSt o
/-- R184. -/
def execLds (o : MM) (s : State) : Result := memWord (.lds o) s (askLds o)
/-- R184. -/
def execSts (o : MM) (s : State) : Result := memWord (.sts o) s (askSts o .sts)
/-- R184. -/
def execLdw (o : MM) (s : State) : Result := memWord (.ldw o) s (askLdw o)

/-- A prefetch of one fibre (R187): its line goes into the L1 of the core, or into the L2 of the line's home die; nothing with .byp, at a
misaligned address (log 29, DEDUCED) or without a resident translation. -/
def prefetch (rh : Nat) (l2 : Bool) (gid : Nat) (g : Group) (s : State) (va : Dword) : State :=
  if rh = 3 ∨ va.toNat % (if l2 then 2 else 1) ≠ 0 then s
  else
    match residentLeaf s (coreOf gid) g.pasid va with
    | (none, s1) => s1
    | (some (pa, e, _, _), s1) =>
      let key := pageKey e (ctxKey s1 g.ctx)
      let line := locate s1 pa / 128
      let s2 := recallLine s1 key line
      if l2 then (cacheTouch s2 (l2Site s2 (coreOf gid) pa) g.part key line rh false).2
      else (throughCaches s2 (coreOf gid) g.part key pa rh false).2

/-- R187: a prefetch makes no access in time order, sets no slot, writes no register and raises no trap. -/
def execPf (c : Bool) (bp : BitVec 5) (rh : BitVec 2) (we : Bool) (ws : BitVec 3) (l2 : Bool) (s : State) : Result :=
  guarded (.pf c bp rh we ws l2) s fun iss g =>
    let src := iss.sourceGroup g
    .next ((iss.participants g).foldl (fun t l => prefetch rh.toNat l2 iss.gid g t (memAddress src iss l bp)) (advance s iss))

/-- R184, R188. -/
def execSpill (o : MM) (s : State) : Result :=
  guarded (.spill o) s fun iss g =>
    let src := iss.sourceGroup g
    let s1 := issueAsks (advance s iss) iss.gid ((iss.participants g).map fun l => (l, askSts o .spill s iss src l))
    .next (enterSpills s1 s.nextId (coreOf iss.gid))

/-- R184, R188. -/
def execFill (o : MM) (s : State) : Result := memWord (.fill o) s (askFill o)

/-- R193. -/
def execAtomAdd (o : MAt) (s : State) : Result := memWord (.atomAdd o) s fun _ => askAtom o 0 .atomic
/-- R193. -/
def execAtomMin (o : MAt) (s : State) : Result := memWord (.atomMin o) s fun _ => askAtom o 1 .atomic
/-- R193. -/
def execAtomMax (o : MAt) (s : State) : Result := memWord (.atomMax o) s fun _ => askAtom o 2 .atomic
/-- R193. -/
def execAtomAnd (o : MAt) (s : State) : Result := memWord (.atomAnd o) s fun _ => askAtom o 3 .atomic
/-- R193. -/
def execAtomOr (o : MAt) (s : State) : Result := memWord (.atomOr o) s fun _ => askAtom o 4 .atomic
/-- R193. -/
def execAtomXor (o : MAt) (s : State) : Result := memWord (.atomXor o) s fun _ => askAtom o 5 .atomic
/-- R193. -/
def execAtomExch (o : MAt) (s : State) : Result := memWord (.atomExch o) s fun _ => askAtom o 6 .atomic
/-- R193. -/
def execAtomCas (o : MAt) (s : State) : Result := memWord (.atomCas o) s fun _ => askAtom o 7 .atomic
/-- R193. -/
def execRedAdd (o : MAt) (s : State) : Result := memWord (.redAdd o) s fun _ => askAtom o 0 .reduction
/-- R193. -/
def execRedMin (o : MAt) (s : State) : Result := memWord (.redMin o) s fun _ => askAtom o 1 .reduction
/-- R193. -/
def execRedMax (o : MAt) (s : State) : Result := memWord (.redMax o) s fun _ => askAtom o 2 .reduction
/-- R193. -/
def execRedAnd (o : MAt) (s : State) : Result := memWord (.redAnd o) s fun _ => askAtom o 3 .reduction
/-- R193. -/
def execRedOr (o : MAt) (s : State) : Result := memWord (.redOr o) s fun _ => askAtom o 4 .reduction
/-- R193. -/
def execRedXor (o : MAt) (s : State) : Result := memWord (.redXor o) s fun _ => askAtom o 5 .reduction

/-! ### Fences and cache maintenance (R195, R196) -/

/-- R195: the participants' next M word waits for every access recorded before this point that the scope orders; fence.sys also sends the
fibre's writes to host memory and shared pages on to other agents (R263). -/
def execFence (c : Bool) (sc : BitVec 2) (s : State) : Result :=
  guarded (.fence c sc) s fun iss g =>
    let parts := iss.participants g
    let s1 := modLanes (advance s iss) iss.gid parts fun f => { f with fence := some (sc.toNat, s.nextId) }
    .next (if sc.toNat = 3 then parts.foldl (fun t l => sendOn t (fibreAgent g l) s.nextId) s1 else s1)

/-- What a cache-maintenance word does to a line whose leaf is known, in every cache: write it back, write it back and drop it, or drop it. -/
inductive LineOp
  | clean | cleanDrop | drop
  deriving DecidableEq, Repr

/-- The caches hold no copy of a line any more. -/
def forgetLine (s : State) (line : Nat) : State := { s with lines := s.lines.filter fun l => l.line != line }

/-- Apply a word to n lines from a line address: lines without a resident translation are skipped (R196). -/
def maintainLines (pasid : BitVec 20) (site : Nat) (op : Dword → LineOp) : Nat → Dword → State → State
  | 0, _, s => s
  | n + 1, va, s =>
    let s1 := match residentLeaf s site pasid va with
      | (some (pa, e, _, _), t) =>
        let line := locate t pa / 128
        (match op e with
        | .clean => cleanLine t line
        | .cleanDrop => forgetLine (cleanLine t line) line
        | .drop => dropLine t line)
      | (none, t) => t
    maintainLines pasid site op n (va + 128) s1

/-- The line of an address. -/
def lineBase (va : Dword) : Dword := va &&& ~~~(127#64)

/-- A cache-maintenance word (R196): each participant acts on its K lines, in the step in which the word issues, before the fibre's
unfinished stores take their places (log 114, DESIGN CHOICE). -/
def maintain (i : Instr) (s : State) (sa : BitVec 7) (k : BitVec 6) (op : Dword → LineOp) : Result :=
  guarded i s fun iss g =>
    let src := iss.sourceGroup g
    .next ((iss.participants g).foldl (fun t l =>
      maintainLines g.pasid (coreOf iss.gid) op (extK iss k) (lineBase (src.pair l sa.toNat)) t) (advance s iss))

/-- R196. -/
def execCln (c : Bool) (sa : BitVec 7) (k : BitVec 6) (s : State) : Result := maintain (.cln c sa k) s sa k fun _ => .clean
/-- R196: on memory that its translation marks non-coherent the dirty bytes are lost (R254). -/
def execInv (c : Bool) (sa : BitVec 7) (k : BitVec 6) (s : State) : Result :=
  maintain (.inv c sa k) s sa k fun e => if pteNC e then .drop else .cleanDrop
/-- R196. -/
def execClninv (c : Bool) (sa : BitVec 7) (k : BitVec 6) (s : State) : Result := maintain (.clninv c sa k) s sa k fun _ => .cleanDrop

/-! ### The scale load (R106, R107, R241) -/

/-- The shape and convergence checks of scld (R241). -/
def scldShape (iss : Issue) (g : Group) : Option Nat :=
  if g.width < 32 then some 0x05
  else if (List.range 32).all fun l => iss.lanes.contains l && (g.fibre l).live then none
  else some 0x04

/-- The scale-layout conditions (R107): a misaligned tile, or a tile that leaves the rows that its address selects. A tile in a stage peer's
rows is accepted, and bad zero fields or a stage without rows fail R177 (log 112, DESIGN CHOICE). -/
def scldLayoutBad (s : State) (iss : Issue) (g : Group) (sz : Nat) (ea : Dword) : Bool :=
  decide (ea.toNat % 512 ≠ 0)
    || (sz == 1 && bitsOf ea 31 24 == 0 && bitsOf ea 20 19 == 0
        && match spadRows s iss.gid g (lowWord ea) with
          | some (_, count) => decide (128 * count < bitsOf ea 18 0 + 512)
          | none => false)

/-- The address of a tile in its space: the byte of the core or of the die where it is known, or a failed check (R177, R178). -/
def scldPlace (s : State) (iss : Issue) (g : Group) (sz : Nat) (ea : Dword) : Except Dword (Option Nat) :=
  match sz with
  | 0 => .ok none
  | 1 =>
    match spadByte s iss.gid g (lowWord ea) 512 with
    | some b => .ok (some b)
    | none => .error ea
  | _ =>
    if 2 ^ 31 ≤ ea.toNat ∨ weightReadable s g.part (dieOf iss.gid) g.regions.getLsbD ea.toNat 512 = false then .error ea
    else .ok (some ea.toNat)

/-- The 64 accesses of a tile (R241), made from lane index 0 for slot SS, which aop holds, and the mark that keeps the slot of each written
fibre set. An uncorrectable error of one of them names lane index 0, and the others write their bytes (log 113, DESIGN CHOICE). -/
def scldAccesses (o : MM) (iss : Issue) (g : Group) (written : List Nat) (ea : Dword) (pa : Option Nat) : List Access :=
  let rows := (List.range 32).map fun l => rowOf g l o.d.toNat
  let part := fun k =>
    { askOf iss 0 o.ss.toNat (.scaleLoad o.sz.toNat) (ea + BitVec.ofNat 64 (8 * k)) 8 with
      slot := none, aop := o.ss.toNat, pa := pa.map fun p => p + 8 * k, sz := 8 * k, hint := o.rh.toNat, least := leastOfHint o.rh.toNat
      row := rowOf g 0 o.d.toNat, nregs := 4, lanes := rows, extra := written }
  (List.range 64).map part
    ++ written.map fun l => askOf iss l o.ss.toNat .result ea 0

/-- R241 (log 53, DEDUCED). -/
def execScld (o : MM) (s : State) : Result :=
  guarded (.scld o) s fun iss g =>
    let src := iss.sourceGroup g
    let w := wordOf (.scld o)
    match scldShape iss src with
    | some cause => .next (trapWord s iss cause iss.lanes w)
    | none =>
      let ea := memAddress src iss 0 o.bp
      let passing := iss.participants g
      if passing.isEmpty then .next (advance s iss)
      else if scldLayoutBad s iss src o.sz.toNat ea then .next (trapWord s iss 0x06 iss.lanes w)
      else
        let written := passing.filter fun l => decide (l < 32)
        match scldPlace s iss src o.sz.toNat ea with
        | .error a => .next (issueAsks (advance s iss) iss.gid (passing.map fun l => (l, .error a)))
        | .ok pa =>
          let marks := (passing.filter fun l => decide (32 ≤ l)).map fun l => askOf iss l o.ss.toNat .result ea 0
          .next (issueAsks (advance s iss) iss.gid [(0, .ok (scldAccesses o iss src written ea pa ++ marks))])

end Sys2Proof.Machine
end

