-- ==== Sys2Proof/Machine/Barrier.lean ====
section
/-! DEFINITION. Barrier objects and the barrier words (R202 to R207), and the updates that copy engines make to objects (R214). -/

namespace Sys2Proof.Machine

/-- The validity pattern (R202). -/
def barPattern : Nat := 0xB7A35C1D

/-- The fields of a barrier object (R202). -/
structure BarObj where
  valid : Nat
  expected : Nat
  pending : Nat
  phase : Nat
  ovr : Bool
  reserved : Nat
  bytes : Nat
  deriving DecidableEq, Repr

/-- The fields of 128 bits. -/
def barOfBits (v : Nat) : BarObj :=
  { valid := v / 2 ^ 96 % 2 ^ 32, expected := v / 2 ^ 84 % 2 ^ 12, pending := v / 2 ^ 72 % 2 ^ 12, phase := v / 2 ^ 68 % 16
    ovr := v / 2 ^ 67 % 2 == 1, reserved := v / 2 ^ 40 % 2 ^ 27, bytes := v % 2 ^ 40 }

def BarObj.bits (o : BarObj) : Nat :=
  o.valid * 2 ^ 96 + o.expected * 2 ^ 84 + o.pending * 2 ^ 72 + o.phase * 2 ^ 68 + (if o.ovr then 2 ^ 67 else 0)
    + o.reserved * 2 ^ 40 + o.bytes

def BarObj.isValid (o : BarObj) : Bool := o.valid == barPattern

/-- The object at a byte of a core's scratchpad. -/
def barAt (s : State) (core byte : Nat) : BarObj := barOfBits (natOfBytes (readSpadBytes s core byte 16))

/-- One update of an object at its point in time order (R202): the object found there, and the state with what h makes of it. -/
def updateBar (s : State) (w : Who) (core byte : Nat) (h : BarObj → Option BarObj) : BarObj × State :=
  let r := updateSpace s w 1 0 (spadKey core byte) 16 fun bs => (h (barOfBits (natOfBytes bs))).map fun o => bytesOf 16 o.bits
  (barOfBits (natOfBytes r.1), r.2)

/-- Complete(o): the phase turns when nothing is awaited (R204). -/
def BarObj.complete (o : BarObj) : BarObj :=
  if o.pending = 0 ∧ o.bytes = 0 then { o with phase := (o.phase + 1) % 16, pending := o.expected } else o

/-- bar.init (R204). -/
def barFresh (n : Nat) : BarObj :=
  { valid := barPattern, expected := n, pending := n, phase := 0, ovr := false, reserved := 0, bytes := 0 }

/-- An arrival of n: the object, and whether it overran (R204). -/
def BarObj.arrive (o : BarObj) (n : Nat) : BarObj × Bool :=
  if o.pending < n then ({ o with ovr := true, pending := 0 }.complete, true)
  else ({ o with pending := o.pending - n }.complete, false)

/-- bar.expect (R204): a 40-bit wrap. -/
def BarObj.expect (o : BarObj) (b : Nat) : BarObj := { o with bytes := (o.bytes + b) % 2 ^ 40 }.complete

/-- A counted word of a copy (R204). -/
def BarObj.count (o : BarObj) : BarObj := { o with bytes := (o.bytes + 2 ^ 40 - 4) % 2 ^ 40 }.complete

/-- DONE of R206 for phase p. -/
def BarObj.done (o : BarObj) (p : Nat) : Bool := o.isValid && o.phase != p

/-- The outcome of bar.wait and bar.test (R206). -/
def BarObj.outcome (o : BarObj) (p : Nat) : Word :=
  if o.isValid then
    BitVec.ofNat 32 (2 ^ 9 + (if o.ovr then 2 ^ 8 else 0) + o.phase * 2 ^ 4 + (if o.done p then 1 else 0))
  else 0

/-- The resident group that holds a scratchpad byte's row (R205). -/
def holderOf (s : State) (core byte : Nat) : Option Nat :=
  match s.rowHolds.find? fun h => h.core == core && decide (h.first ≤ byte / 128) && decide (byte / 128 < h.first + h.count) with
  | none => none
  | some h =>
    match getGroup s h.gid with
    | some g => if g.uid == h.uid && g.pos == h.pos && g.grank == h.grank && g.stage == h.stage then some h.gid else none
    | none => none

/-- The barrier-state trap (R205): in the group that holds the object, naming the arriving fibre when it belongs to it; none when that group
has ended (log 115, DESIGN CHOICE). -/
def barStateTrap (s : State) (core byte : Nat) (arriver : Option (Nat × Nat)) (detail : Dword) : State :=
  match holderOf s core byte with
  | none => s
  | some h =>
    match arriver with
    | some (gid, lane) => if gid = h then takeTrap s 0x10 h [lane] detail else takeEngineTrap s 0x10 h detail
    | none => takeEngineTrap s 0x10 h detail

/-! ### The updates of copy engines (R204, R205, R214) -/

/-- Count one 4-byte word into a receiver's object. -/
def countWord (s : State) (w : Who) (core byte : Nat) (detail : Dword) : State :=
  let r := updateBar s w core byte fun o => if o.isValid then some o.count else none
  if r.1.isValid then r.2 else barStateTrap r.2 core byte none detail

/-- The engine's arrival of 1 at a receiver's object; an overrun is raised in the kicking group. -/
def engineArrive (s : State) (w : Who) (kicker core byte : Nat) (detail : Dword) : State :=
  let r := updateBar s w core byte fun o => if o.isValid then some (o.arrive 1).1 else none
  if !r.1.isValid then barStateTrap r.2 core byte none detail
  else if (r.1.arrive 1).2 then takeEngineTrap r.2 0x11 kicker detail
  else r.2

/-! ### The words at issue (R203) -/

/-- A barrier word's request: the address check of R203, then its one access to the whole object. -/
def askBar (sa : BitVec 7) (d : Option (BitVec 7)) (kind : AccessKind) (n : Nat) (s : State) (iss : Issue) (g : Group)
    (lane : Nat) : Ask :=
  let addr := g.reg lane sa.toNat
  let ea : Dword := addr.setWidth 64
  match spadByte s iss.gid g addr 16 with
  | none => .error ea
  | some b =>
    let a := { askOf iss lane 7 kind ea 16 with pa := some b, data := BitVec.ofNat 64 n }
    alignedTo ea 16 [match d with
      | some r => { a with row := rowOf g lane r.toNat, nregs := 1 }
      | none => { a with slot := none }]

/-- R204. -/
def execBarInit (c : Bool) (sa : BitVec 7) (k : BitVec 6) (s : State) : Result :=
  memWord (.barInit c sa k) s fun t iss => askBar sa none .barInit (extK iss k) t iss
/-- R204, R205. -/
def execBarArrive (o : EF) (k : BitVec 6) (s : State) : Result :=
  memWord (.barArrive o k) s fun t iss => askBar o.sa (some o.d) .barArrive (extK iss k) t iss
/-- R204, R205. -/
def execBarExpect (c : Bool) (sa : BitVec 7) (k : BitVec 6) (s : State) : Result :=
  memWord (.barExpect c sa k) s fun t iss => askBar sa none .barExpect (extK iss k) t iss
/-- R206: D is read at issue as the bound. A save puts the fibre's counter back at the word (R329), whose address the access keeps. -/
def execBarWait (o : EF) (k : BitVec 4) (s : State) : Result :=
  memWord (.barWait o k) s fun t iss g l =>
    (askBar o.sa (some o.d) (.barWait (s.clock + (g.reg l o.d.toNat).toNat)) k.toNat t iss g l).map fun as =>
      as.map fun a => { a with data2 := iss.pc }
/-- R206. -/
def execBarTest (o : EF) (k : BitVec 4) (s : State) : Result :=
  memWord (.barTest o k) s fun t iss => askBar o.sa (some o.d) .barTest k.toNat t iss
/-- R204, R205. -/
def execBarInval (c : Bool) (sa : BitVec 7) (s : State) : Result :=
  memWord (.barInval c sa) s fun t iss => askBar sa none .barInval 0 t iss

/-! ### The words at their point in time order (R204 to R206) -/

/-- What a barrier word makes of the object that it finds; none for a read only (R204, R205). -/
def barChange (kind : AccessKind) (n : Nat) (o : BarObj) : Option BarObj :=
  match kind with
  | .barInit => some (barFresh n)
  | .barArrive => if o.isValid then some (o.arrive n).1 else none
  | .barExpect => if o.isValid then some (o.expect n) else none
  | .barInval => if o.isValid then some { o with valid := 0 } else none
  | _ => none

/-- A barrier word takes its place: its one update or read of the object (R202), its traps (R204, R205), and what it writes to D. An arrival
is progress of its launch (R51). A word that reads an object with an uncorrectable error fails by its data (R174, R358). -/
def performBar (s : State) (g : Group) (a : Access) : State :=
  let core := coreOf a.gid
  let byte := firstByte a
  let n := a.data.toNat
  if a.kind != .barInit && damagedIn s 1 (spadKey core byte) 16 then failAccess (logError s g.ctx 3 a.addr) a 0x12
  else
  let r := updateBar s (whoOf g a) core byte (barChange a.kind n)
  let o := r.1
  match a.kind with
  | .barInit | .barInval => finishWith r.2 a []
  | .barArrive =>
    if o.isValid then
      let s1 := progressOf r.2 a.gid
      finishWith (if (o.arrive n).2 then takeTrap s1 0x11 a.gid [a.lane] a.addr else s1) a [BitVec.ofNat 32 o.phase]
    else finishWith (barStateTrap r.2 core byte (some (a.gid, a.lane)) a.addr) a [0]
  | .barExpect => finishWith (if o.isValid then r.2 else barStateTrap r.2 core byte (some (a.gid, a.lane)) a.addr) a []
  | _ => finishWith r.2 a [o.outcome n]

/-- The waiting access of a fibre. -/
def waitOf (s : State) (gid lane : Nat) : Option Access :=
  s.accesses.find? fun a => a.gid == gid && a.lane == lane && (match a.kind with
    | .barWait _ => true
    | _ => false)

/-- End a fibre's wait when a condition on its object and its bound holds: the object is read once more, after every event so far (R206)
(log 94, DEDUCED). -/
def endWait (s : State) (gid lane : Nat) (h : BarObj → Access → Bool) : State :=
  match waitOf s gid lane, getGroup s gid with
  | some a, some g =>
    if !s.accesses.any (mustPrecede a) && h (barAt s (coreOf gid) (firstByte a)) a then
      noteDone (performBar { s with backs := 0 :: s.backs } g a) g a
    else s
  | _, _ => s

/-- R205, R206: DONE would be 1, or the object is not valid. -/
def execBarWaitWake (gid lane : Nat) (s : State) : Result :=
  .next (endWait s gid lane fun o a => !o.isValid || o.done a.data.toNat)

/-- R206: the bound has passed. -/
def execBarWaitBoundExpiry (gid lane : Nat) (s : State) : Result :=
  .next (endWait s gid lane fun _ a => match a.kind with
    | .barWait d => decide (d ≤ s.clock)
    | _ => false)

end Sys2Proof.Machine
end

