-- ==== Sys2Proof/Machine/Handles.lean ====
section
/-! DEFINITION. Key-value handles and the street directory (R247 to R250). -/

namespace Sys2Proof.Machine

/-! ### Reads that an engine of the part makes outside the replay buffer -/

/-- How a table read fails: it meets a fault or an uncorrectable error at an address, or it must wait (R248). -/
inductive LoadFail
  | fault (va : Dword) | wait
  deriving DecidableEq, Repr

/-- Read bytes at a virtual address for the street directory of a die, as one event (R249). The read waits for the host's translation (R300),
a handover (R313), a copy that owns the line (R271) and a reset of its key (R326). -/
def loadAt (s : State) (site die f : Nat) (pasid : BitVec 20) (va : Dword) (n : Nat) : Except LoadFail (List Byte) × State :=
  match translate s site pasid va .read with
  | (.ok pa e _ _, s1) =>
    let key := pageKey e (ctxKey s1 f)
    if underHandover s1 pa || copyOwns s1 pa || (key != plainKey && keyBusy s1 key) then (.error .wait, s1)
    else if !itemReadyAt s1 pa then (.error (.fault va), logError s1 f 2 (BitVec.ofNat 64 pa))
    else if damagedAt s1 pa n then (.error (.fault va), logError s1 f 3 (BitVec.ofNat 64 pa))
    else
      let s2 := countFor s1 pasid va.toNat die f true
      let r := readMem s2 { agent := .directory die, issued := s2.clock, far := farPlace pa e } key pa n
      (.ok r.1, r.2)
  | (.needAts, s1) =>
    (match atsFailed s1 site pasid va.toNat .dispatcher with
    | some s2 => (.error (.fault va), s2)
    | none => (.error .wait, askAts s1 site pasid va.toNat .read .dispatcher))
  | (_, s1) => (.error (.fault va), s1)

/-- Read n doublewords: those read, or how the first failure failed. -/
def loadDwords (s : State) (site die f : Nat) (pasid : BitVec 20) (va : Dword) : Nat → Except LoadFail (List Dword) × State
  | 0 => (.ok [], s)
  | n + 1 =>
    match loadAt s site die f pasid va 8 with
    | (.error e, s1) => (.error e, s1)
    | (.ok bs, s1) =>
      match loadDwords s1 site die f pasid (va + 8) n with
      | (.error e, s2) => (.error e, s2)
      | (.ok ds, s2) => (.ok (BitVec.ofNat 64 (natOfBytes bs) :: ds), s2)

/-! ### Handle-table entries (R247) -/

def handleIndex (h : Dword) : Nat := bitsOf h 63 40
def handleGen (h : Dword) : Nat := bitsOf h 39 28
def handleTenant (h : Dword) : Nat := bitsOf h 27 20
def handleBound (h : Dword) : Nat := bitsOf h 19 0

/-- The entries of a context's handle table, and the address of entry t (R247). -/
def tableEntries (s : State) (f : Nat) : Nat := 2 ^ Nat.min (bitsOf (getX s f 0x118) 4 0) 24
def tableEntryAt (s : State) (f t : Nat) : Dword := BitVec.ofNat 64 (bitsOf (getX s f 0x118) 56 12 * 4096 + 32 * t)

/-- The fields of an entry. -/
def entryDw (e : List Dword) (k : Nat) : Dword := (e[k]?).getD 0
def entryReservedOk (e : List Dword) : Bool :=
  bitsOf (entryDw e 0) 60 52 == 0 && bitsOf (entryDw e 0) 31 20 == 0 && bitsOf (entryDw e 2) 63 32 == 0 && entryDw e 3 == 0
def entryBlockTokens (e : List Dword) : Nat := 16 * 2 ^ bitsOf (entryDw e 0) 62 61
def entryBlocks (e : List Dword) : Nat := bitsOf (entryDw e 0) 19 0

/-- The largest sequence that becomes resident, and the mappings that a directory holds (R249). -/
def residentLimit : Nat := 65536
def directorySize : Nat := 2097152

/-- A resident sequence of a die (R249). -/
def findSeq (s : State) (die f t : Nat) : Option StreetSeq :=
  s.street.find? fun q => q.die == die && q.ctx == f && q.index == t

/-- What a resolve comes to (R248). -/
inductive Resolved
  | ok (addr : Dword) | bad | fault (va : Dword) | wait
  deriving DecidableEq, Repr

/-- A failed table read as the outcome of a resolve. -/
def LoadFail.resolved : LoadFail → Resolved
  | .fault va => .fault va
  | .wait => .wait

/-- The checks of R248 on an entry, and the block and the offset of a position. -/
def checkHandle (s : State) (f : Nat) (h : Dword) (p : Nat) (e : List Dword) : Option (Nat × Nat) :=
  let blk := p / entryBlockTokens e
  if !(entryDw e 0).getLsbD 63 || !entryReservedOk e then none
  else if handleTenant h ≠ bitsOf (entryDw e 0) 39 32 ∨ handleTenant h ≠ ctxKey s f then none
  else if handleGen h ≠ bitsOf (entryDw e 0) 51 40 then none
  else if handleBound h ≤ blk ∨ entryBlocks e ≤ blk then none
  else some (blk, p % entryBlockTokens e)

/-- The address of a position in its block; a block without storage fails (R248). -/
def blockAddress (e : List Dword) (off : Nat) (base : Dword) : Resolved :=
  if base = 0 then .bad else .ok (base + BitVec.ofNat 64 (off * bitsOf (entryDw e 2) 31 0))

/-- Mark a sequence as the most recently used of its directory. -/
def touchSeq (s : State) (q : StreetSeq) : State :=
  { s with street := s.street.filter (fun x => !(x.die == q.die && x.ctx == q.ctx && x.index == q.index)) ++ [q] }

/-! ### The directory (R249) -/

/-- The mappings that a die's directory holds. -/
def directoryLoad (s : State) (die : Nat) : Nat := ((s.street.filter fun q => q.die == die).map fun q => q.blocks.length).sum

/-- Evict the least recently used sequences of a die until a number of mappings fits. -/
def evictFor (die n : Nat) : Nat → State → State
  | 0, s => s
  | fuel + 1, s =>
    if directoryLoad s die + n ≤ directorySize then s
    else
      match s.street.find? fun q => q.die == die with
      | none => s
      | some q => evictFor die n fuel { s with street := s.street.filter fun x => !(x == q) }

/-- R249: read the entry of a sequence and its whole block table, and install them together, unless the sequence may not become resident;
or how a read failed (log 84, DEDUCED). -/
def installSeq (s : State) (site die f t : Nat) : Option LoadFail × State :=
  if (findSeq s die f t).isSome ∨ tableEntries s f ≤ t then (none, s)
  else
    match loadDwords s site die f (ctxPasid s f) (tableEntryAt s f t) 4 with
    | (.error e, s1) => (some e, s1)
    | (.ok e, s1) =>
      if residentLimit < entryBlocks e ∨ !(entryDw e 0).getLsbD 63 then (none, s1)
      else
        match loadDwords s1 site die f (ctxPasid s f) (entryDw e 1) (entryBlocks e) with
        | (.error e, s2) => (some e, s2)
        | (.ok bs, s2) =>
          let s3 := evictFor die bs.length s2.street.length s2
          (none, { s3 with street := s3.street ++ [{ die := die, ctx := f, index := t, entry := e, blocks := bs }] })

/-! ### Resolving (R248) -/

/-- Resolve through a resident sequence. -/
def resolveIn (s : State) (f : Nat) (h : Dword) (p : Nat) (q : StreetSeq) : Resolved × State :=
  match checkHandle s f h p q.entry with
  | none => (.bad, s)
  | some (blk, off) => (blockAddress q.entry off ((q.blocks[blk]?).getD 0), touchSeq s q)

/-- RESOLVE a handle at a position (R248): through the die's directory, which first installs the sequence when it is not resident and
may become so; from memory otherwise (R249). -/
def resolveHandle (s : State) (site die f : Nat) (h : Dword) (p : Nat) : Resolved × State :=
  let t := handleIndex h
  if tableEntries s f ≤ t then (.bad, s)
  else
    match installSeq s site die f t with
    | (some e, s0) => (e.resolved, s0)
    | (none, s0) =>
      match findSeq s0 die f t with
      | some q => resolveIn s0 f h p q
      | none =>
        match loadDwords s0 site die f (ctxPasid s f) (tableEntryAt s f t) 4 with
        | (.error e, s1) => (e.resolved, s1)
        | (.ok e, s1) =>
          match checkHandle s1 f h p e with
          | none => (.bad, s1)
          | some (blk, off) =>
            match loadDwords s1 site die f (ctxPasid s1 f) (entryDw e 1 + BitVec.ofNat 64 (8 * blk)) 1 with
            | (.error e, s2) => (e.resolved, s2)
            | (.ok b, s2) => (blockAddress e off (b.headD 0), s2)

/-- Resolve a run of positions: the addresses, or how the first failure failed. -/
def resolveRun (s : State) (site die f : Nat) (h : Dword) (p : Nat) : Nat → Except Resolved (List Dword) × State
  | 0 => (.ok [], s)
  | n + 1 =>
    match resolveHandle s site die f h p with
    | (.bad, s1) => (.error .bad, s1)
    | (.fault va, s1) => (.error (.fault va), s1)
    | (.wait, s1) => (.error .wait, s1)
    | (.ok a, s1) =>
      match resolveRun s1 site die f h (p + 1) n with
      | (.error e, s2) => (.error e, s2)
      | (.ok as, s2) => (.ok (a :: as), s2)

/-! ### kvres (R248) -/

/-- The handle and the position of a fibre. -/
def kvresOperands (g : Group) (lane : Nat) (o : EF) : Dword × Nat :=
  (g.pair lane o.sa.toNat, (g.reg lane (o.sa.toNat + 2)).toNat)

/-- Resolve for each participant in turn. -/
def resolveLanes (src : Group) (gid : Nat) (o : EF) : List Nat → State → List (Nat × Resolved) × State
  | [], s => ([], s)
  | l :: ls, s =>
    let h := kvresOperands src l o
    let r := resolveHandle s (coreOf gid) (dieOf gid) src.ctx h.1 h.2
    let t := resolveLanes src gid o ls r.2
    ((l, r.1) :: t.1, t.2)

/-- The detail word of a handle trap: the address of a table read that failed, else the instruction word (R171, R248). -/
def handleDetail (rs : List (Nat × Resolved)) (w : Word) : Dword :=
  match (rs.filter fun r => match r.2 with
      | .ok _ => false
      | _ => true).head? with
  | some (_, .fault va) => va
  | _ => w.setWidth 64

/-- A register result delivered on slot 7 (R199): one word, or a pair. -/
def askResult (iss : Issue) (g : Group) (lane d : Nat) (ws : List Word) : Access :=
  { askOf iss lane 7 .result 0 0 with row := rowOf g lane d, nregs := ws.length, data := pairVal ws }

/-- R248 (log 30, DEDUCED). -/
def execKvres (o : EF) (s : State) : Result :=
  guarded (.kvres o) s fun iss g =>
    let src := iss.sourceGroup g
    let r := resolveLanes src iss.gid o (iss.participants g) s
    match r.1.filterMap fun x => match x.2 with
        | .ok _ => none
        | _ => some x.1 with
    | [] =>
      .next (issueAsks (advance r.2 iss) iss.gid (r.1.map fun x => (x.1, match x.2 with
        | .ok a => Except.ok [{ askResult iss src x.1 o.d.toNat (pairWords a) with
            aop := 11, addr := (kvresOperands src x.1 o).1 }]
        | _ => Except.ok [])))
    | lanes =>
      if r.1.any fun x => x.2 == .wait then .next { s with ats := r.2.ats }
      else .next (takeTrap r.2 0x0B iss.gid lanes (handleDetail r.1 (wordOf (.kvres o))))

/-! ### Installation and invalidation (R249, R250) -/

/-- R249. -/
def execStreetDirectoryInstall (die f index : Nat) (s : State) : Result := .next (installSeq s (128 * die) die f index).2

/-- The kvres words in flight of a context whose handles name an index (R250). -/
def kvresOf (s : State) (f t : Nat) : List Nat :=
  (s.accesses.filter fun a => a.kind == .result && a.aop == 11 && handleIndex a.addr == t
    && (getGroup s a.gid).map (fun g => g.ctx) == some f).map fun a => a.id

/-- The copies of a context with rows that have resolved through an index (R250). -/
def copiesOf (s : State) (f t : Nat) : List Nat :=
  (s.copies.filter fun c => c.begun && c.ctx == f
    && ((c.sk == 4 && handleIndex (c.dw 1) == t) || (c.dk == 4 && handleIndex (c.dw 2) == t))).map fun c => c.id

/-- SDINV as it reads (R250): BUSY. -/
def sdinvBusy (s : State) (f : Nat) : Bool := (tblFind s.sdInv f).isSome

/-- A write of SDINV (R250): GO drops the index in both directories; BUSY lasts until older resolves are done. -/
def sdinvWrite (s : State) (f : Nat) (value : Dword) : State :=
  if sdinvBusy s f || !value.getLsbD 0 then s
  else
    let t := bitsOf value 63 40
    { s with street := s.street.filter fun q => !(q.ctx == f && q.index == t)
             sdInv := tblInsert s.sdInv f { accesses := kvresOf s f t, copies := copiesOf s f t, index := t } }

/-- R250. -/
def execSdinvGo (f : Nat) (value : Dword) (s : State) : Result := .next (gateCtx s f 0x120 fun s => sdinvWrite s f value)

/-- Every access and copy that an invalidation waits for has gone. -/
def invDone (s : State) (v : Invalidation) : Bool :=
  v.accesses.all (fun n => !s.accesses.any fun a => a.id == n)
    && v.copies.all fun n => !s.copies.any fun c => c.id == n

/-- R250. -/
def execSdinvComplete (f : Nat) (s : State) : Result :=
  match tblFind s.sdInv f with
  | none => .next s
  | some v => .next (if invDone s v then { s with sdInv := tblErase s.sdInv f } else s)

end Sys2Proof.Machine
end

