-- ==== Sys2Proof/Machine/CopyEng.lean ====
section
/-! DEFINITION. The copy request engines: kick, cstat, and the life of an accepted record (R200, R208 to R217, R270, R271, R315). A hub
copy engine runs the records of command lists by the same steps (R283). -/

namespace Sys2Proof.Machine

/-! ### Records at kick (R208 to R210) -/

/-- Fields of a record that has not been accepted. -/
abbrev CopyRecord := List Dword

def recDw (r : CopyRecord) (k : Nat) : Dword := (r[k]?).getD 0
def recDk (r : CopyRecord) : Nat := bitsOf (recDw r 0) 51 48
def recSk (r : CopyRecord) : Nat := bitsOf (recDw r 0) 47 44
def recMcast (r : CopyRecord) : Nat := bitsOf (recDw r 0) 55 52
def recLen (r : CopyRecord) : Nat := bitsOf (recDw r 0) 31 0
def recRows (r : CopyRecord) : Nat := bitsOf (recDw r 4) 31 0
def recBobj (r : CopyRecord) : Word := highWord (recDw r 4)
def recGd (r : CopyRecord) : Bool := (recDw r 0).getLsbD 41
def recHs (r : CopyRecord) : Bool := (recDw r 0).getLsbD 40
def recCounts (r : CopyRecord) : Bool := (recDw r 0).getLsbD 43 || (recDw r 0).getLsbD 42

/-- The ranks that MCAST selects. -/
def ranksOf (m : Nat) : List Nat := (List.range 4).filter fun r => m / 2 ^ r % 2 == 1

/-- The rows that the group of a rank of a kicking group's cluster instance holds (R209). -/
def rankHold (s : State) (g : Group) (rank : Nat) : Option RowHold :=
  s.rowHolds.find? fun h => h.uid == g.uid && h.pos == g.pos && h.stage == g.stage && h.grank == rank

/-- The receivers' row holds: those that MCAST selects for kind 2, the kicking group's own otherwise (R209). -/
def receiverRanks (g : Group) (r : CopyRecord) : List Nat := if recDk r = 2 then ranksOf (recMcast r) else [g.grank]

/-- Bytes of a scratchpad address with OTHER 0, whose STG is not used, in a hold's rows: the byte of its core (R177). -/
def holdByte (h : RowHold) (addr : Word) (n : Nat) : Option Nat :=
  if bitsOf addr 31 23 ≠ 0 ∨ bitsOf addr 20 19 ≠ 0 then none
  else if bitsOf addr 18 0 + n ≤ 128 * h.count then some (128 * h.first + bitsOf addr 18 0) else none

/-- An entry of the range scoreboard that a copy makes: a core and the bytes of one row, if they lie in rows. -/
def rowBytes (s : State) (gid : Nat) (g : Group) (kind : Nat) (hold : Option RowHold) (addr : Dword) (n : Nat) : Option Nat :=
  if kind = 1 then spadByte s gid g (lowWord addr) n else hold.bind fun h => holdByte h (lowWord addr) n

/-- The first and last scratchpad row that a side of a record touches (R200). -/
def touchedRows (s : State) (gid : Nat) (g : Group) (kind : Nat) (hold : Option RowHold) (base : Dword) (stride len rows : Nat) :
    Option (Nat × Nat) :=
  let spans := (List.range rows).filterMap fun r =>
    (rowBytes s gid g kind hold (copyRow base stride kind [] r) len).map fun b => (b / 128, (b + len - 1) / 128)
  match spans with
  | [] => none
  | x :: xs => some (xs.foldl (fun a y => (Nat.min a.1 y.1, Nat.max a.2 y.2)) x)

/-- The range entries of a record: core, write or read, first and last row (R200) (log 40, DESIGN CHOICE). -/
def rangeNeeds (s : State) (gid : Nat) (g : Group) (r : CopyRecord) : List (Nat × Bool × Nat × Nat) :=
  if recLen r = 0 then []
  else
    let dst := if recDk r = 1 ∨ recDk r = 2 then
        (receiverRanks g r).filterMap fun k =>
          let hold := rankHold s g k
          (touchedRows s gid g (recDk r) hold (recDw r 2) (bitsOf (recDw r 3) 31 0) (recLen r) (recRows r)).map fun t =>
            ((hold.map fun h => h.core).getD (coreOf gid), true, t.1, t.2)
      else []
    let src := if recSk r = 1 ∨ recSk r = 2 then
        let hold := (ranksOf (recMcast r)).head?.bind (rankHold s g)
        match touchedRows s gid g (recSk r) hold (recDw r 1) (bitsOf (recDw r 3) 63 32) (recLen r) (recRows r) with
        | some t => [(if recSk r = 2 then (hold.map fun h => h.core).getD (coreOf gid) else coreOf gid, false, t.1, t.2)]
        | none => []
      else []
    dst ++ src

/-- The entries of a core's range scoreboard in use. -/
def rangesUsed (s : State) (core : Nat) : Nat := (s.ranges.filter fun e => e.core == core).length

/-- The copies of a core in flight (log 38, DEDUCED). -/
def copiesInFlight (s : State) (core : Nat) : Nat := (s.copies.filter fun c => !c.hub && c.core == core).length

/-- The cores of the receivers of a record (R209). -/
def receiverCores (s : State) (g : Group) (r : CopyRecord) : List Nat :=
  (receiverRanks g r).filterMap fun k => (rankHold s g k).map fun h => h.core

/-- The retry row of the code table (R210): 2048 records are in flight, or the kicking core or a receiving core has no free range entry
(log 39, DEDUCED). -/
def kickRetry (s : State) (gid : Nat) (g : Group) (r : CopyRecord) : Bool :=
  let needs := rangeNeeds s gid g r
  decide (2048 ≤ copiesInFlight s (coreOf gid))
    || (coreOf gid :: receiverCores s g r ++ needs.map Prod.fst).any fun c =>
        decide (64 ≤ rangesUsed s c) || decide (64 < rangesUsed s c + (needs.filter fun n => n.1 == c).length)

/-- A reserved field is not 0 (R208). -/
def recReservedBad (r : CopyRecord) : Bool :=
  bitsOf (recDw r 0) 39 32 != 0 || highWord (recDw r 7) != 0 || (!recHs r && lowWord (recDw r 7) != 0)

/-- Row 5 of the code table: addresses, strides and lengths by kind. -/
def recShapeBad (r : CopyRecord) : Bool :=
  (decide (recSk r ≤ 3) && decide ((recDw r 1).toNat % 4 ≠ 0)) || (decide (recDk r ≤ 3) && decide ((recDw r 2).toNat % 4 ≠ 0))
    || decide (bitsOf (recDw r 3) 63 32 % 4 ≠ 0) || decide (bitsOf (recDw r 3) 31 0 % 4 ≠ 0) || decide (recLen r % 4 ≠ 0)
    || (recDk r == 5 && (recLen r != 128 || bitsOf (recDw r 3) 31 0 != 0 || bitsOf (recDw r 2) 63 14 != 0
        || bitsOf (recDw r 2) 7 2 != 0 || decide (64 < bitsOf (recDw r 2) 13 8 + recRows r)))

/-- Row 6: the multicast mask (R209). -/
def recMcastBad (g : Group) (r : CopyRecord) : Bool :=
  if recDk r = 2 ∨ recSk r = 2 then
    recMcast r == 0 || (recSk r == 2 && (ranksOf (recMcast r)).length != 1)
      || (ranksOf (recMcast r)).any fun k => decide (g.clsize ≤ k)
  else recMcast r != 0

/-- Row 8: the barrier object in every receiver's rows. -/
def recObjectBad (s : State) (g : Group) (r : CopyRecord) : Bool :=
  recCounts r && (decide ((recBobj r).toNat % 16 ≠ 0) || (receiverRanks g r).any fun k =>
    ((rankHold s g k).bind fun h => holdByte h (recBobj r) 16).isNone)

/-- The rows of the code table but for retry, in table order (R210). -/
def recordCode (s : State) (g : Group) (r : CopyRecord) : Option Nat :=
  if bitsOf (recDw r 0) 63 56 ≠ 1 then some 2
  else if 5 < recDk r ∨ 4 < recSk r then some 3
  else if recReservedBad r then some 4
  else if recShapeBad r then some 5
  else if recMcastBad g r then some 6
  else if recDk r = 5 ∧ g.lslots ≤ bitsOf (recDw r 2) 1 0 then some 7
  else if recObjectBad s g r then some 8
  else if (recHs r && recDk r != 3) || (recGd r && decide ((recDw r 6).toNat % 4 ≠ 0)) then some 9
  else none

/-- The code of a record: retry stands first in the table (R210). -/
def kickCode (s : State) (gid : Nat) (g : Group) (r : CopyRecord) : Option Nat :=
  if kickRetry s gid g r then some 1 else recordCode s g r

/-- How the record's handles fail, if they do (R210 step 4). -/
def recordHandles (s : State) (gid : Nat) (g : Group) (r : CopyRecord) : Option Resolved × State :=
  let side (s : State) (on : Bool) (h : Dword) (pos : Nat) : Option Resolved × State :=
    if on then
      match resolveRun s (coreOf gid) (dieOf gid) g.ctx h pos (recRows r) with
      | (.ok _, s1) => (none, s1)
      | (.error e, s1) => (some e, s1)
    else (none, s)
  let a := side s (recSk r == 4) (recDw r 1) (bitsOf (recDw r 5) 31 0)
  match a.1 with
  | some e => (some e, a.2)
  | none => side a.2 (recDk r == 4) (recDw r 2) (bitsOf (recDw r 5) 63 32)

/-- What the first phase of kick finds for a participant (R210). -/
inductive KickFound
  | aside (addr : Dword) | bad (addr : Dword) | code (n : Nat) | handle (how : Resolved) | fine (r : CopyRecord) (event : Nat)
  deriving DecidableEq, Repr

/-- The events of a fibre's stores, atomics, reductions and spills that have taken their places (R270). -/
def writesDone (f : Fibre) : List Nat := (f.done.filter fun d => d.wr).map fun d => d.event

/-- The record that a kick names, read as one event after the fibre's earlier stores (R210, R270): none when its address fails the first
step. -/
def readRecord (s : State) (gid : Nat) (g : Group) (lane : Nat) (addr : Word) : Option (CopyRecord × State) :=
  if addr.getLsbD 23 ∨ addr.toNat % 64 ≠ 0 then none
  else (spadByte s gid g addr 64).map fun b =>
    let w := wordWho s g lane
    let r := readSpace s { w with after := w.after ++ writesDone (g.fibre lane) } 1 0 (spadKey (coreOf gid) b) 64
    ((List.range 8).map fun k => BitVec.ofNat 64 (natOfBytes ((r.1.drop (8 * k)).take 8)), r.2)

/-- The first phase for one participant; a record whose read meets an uncorrectable error is not accepted (R358) (log 142, DEDUCED). -/
def kickFirst (s : State) (gid : Nat) (src : Group) (lane : Nat) (addr : Word) : KickFound × State :=
  match readRecord s gid src lane addr with
  | none => (.aside (addr.setWidth 64), s)
  | some (r, s0) =>
    if (spadByte s gid src addr 64).any fun b => damagedIn s 1 (spadKey (coreOf gid) b) 64 then
      (.bad (addr.setWidth 64), logError s0 src.ctx 3 (addr.setWidth 64))
    else
    match kickCode s0 gid src r with
    | some n => (.code n, s0)
    | none =>
      match recordHandles s0 gid src r with
      | (some how, s1) => (.handle how, s1)
      | (none, s1) => (.fine r s.events, s1)

def kickFirstAll (gid : Nat) (src : Group) (sa : Nat) : List Nat → State → List (Nat × KickFound) × State
  | [], s => ([], s)
  | l :: ls, s =>
    let a := kickFirst s gid src l (src.reg l sa)
    let t := kickFirstAll gid src sa ls a.2
    ((l, a.1) :: t.1, t.2)

/-- A word that finds in its checks that a table read must wait does not issue: only what it asked of the host remains (R300, R248). -/
def askedOnly (s t : State) : State := { s with ats := t.ats }

/-- A table read of a resolve must wait: the word waits to issue (R248). -/
def handleWaits (s : State) (gid : Nat) (g : Group) (lane : Nat) (i : Instr) : Option State :=
  match i with
  | .kvres o =>
    let h := kvresOperands g lane o
    let r := resolveHandle s (coreOf gid) (dieOf gid) g.ctx h.1 h.2
    if r.1 == .wait then some (askedOnly s r.2) else none
  | .kick o =>
    let r := kickFirst s gid g lane (g.reg lane o.sa.toNat)
    if r.1 == .handle .wait then some (askedOnly s r.2) else none
  | _ => none

/-! ### Tickets (R210, R216). A ticket's key is core x 2048 + place. -/

def ticketKey (core place : Nat) : Nat := core * 2048 + place
def getTicket (s : State) (core place : Nat) : Ticket := tblGet {} s.tickets (ticketKey core place)
def setTicket (s : State) (core place : Nat) (t : Ticket) : State :=
  { s with tickets := tblSet {} s.tickets (ticketKey core place) t }

/-- The places of a core with no record in flight. -/
def freePlaces (s : State) (core : Nat) : List Nat :=
  (List.range 2048).filter fun p => !s.copies.any fun c => !c.hub && c.core == core && c.place == p

/-- The place that an accepted record takes: which of the free ones the spec leaves open (log 16, DESIGN CHOICE). -/
def takePlace (s : State) (core : Nat) : Nat × State :=
  let ps := freePlaces s core
  ((ps[Config.ticketPlace s.fresh % ps.length]?).getD 0, { s with fresh := s.fresh + 1 })

/-- Accept a record: its range entries, its ticket, and the record in flight (R200, R210). The generations rise over the whole part, so
that a ticket names one record until they wrap (log 4, DESIGN CHOICE). Its events follow the event of its record's read; a kick is progress
of its launch (R51). -/
def acceptCopy (s : State) (gid : Nat) (g : Group) (r : CopyRecord) (event : Nat) : Word × State :=
  let core := coreOf gid
  let p := takePlace s core
  let id := p.2.nextId
  let gen := id % 2 ^ 20
  let s1 := setTicket { p.2 with nextId := id + 1 } core p.1 { gen := gen, state := 1, cause := 0, owner := some gid }
  let c : Copy := { id := id, hub := false, ctx := g.ctx, part := g.part, pasid := g.pasid, gid := gid, core := core, place := p.1
                    owner := id, record := r, receivers := receiverRanks g r, own := some event
                    source := if recSk r = 2 then (ranksOf (recMcast r)).head? else none }
  let s2 := { s1 with
    copies := s1.copies ++ [c]
    ranges := s1.ranges ++ (rangeNeeds s gid g r).map fun n =>
      { core := n.1, isWrite := n.2.1, first := n.2.2.1, last := n.2.2.2, owner := id } }
  (BitVec.ofNat 32 (gen * 2 ^ 11 + p.1), progressOf s2 gid)

/-- The second phase of kick for each participant in turn: its result word, if it gets one (R210). -/
def kickSecond (gid : Nat) (src : Group) : List (Nat × KickFound) → State → List (Nat × Word) × State
  | [], s => ([], s)
  | (l, f) :: rest, s =>
    let coded (n : Nat) : Word := BitVec.ofNat 32 (0x80000000 + n)
    match f with
    | .code n =>
      let t := kickSecond gid src rest s
      ((l, coded n) :: t.1, t.2)
    | .fine r event =>
      if kickRetry s gid src r then
        let t := kickSecond gid src rest s
        ((l, coded 1) :: t.1, t.2)
      else
        let a := acceptCopy s gid src r event
        let t := kickSecond gid src rest a.2
        ((l, a.1) :: t.1, t.2)
    | _ => kickSecond gid src rest s

/-- Each participant's answer to a kick, as requests for its result on slot 7; one set aside fails with its record's address. -/
def kickAsks (iss : Issue) (src : Group) (d : Nat) (found : List (Nat × KickFound)) (words : List (Nat × Word)) : List (Nat × Ask) :=
  found.map fun x =>
    (x.1, match x.2 with
      | .aside a => .error a
      | _ => .ok ((words.filter fun w => w.1 == x.1).map fun w => askResult iss src x.1 d [w.2]))

/-- R210. -/
def execKick (o : EF) (s : State) : Result :=
  guarded (.kick o) s fun iss g =>
    let src := iss.sourceGroup g
    let first := kickFirstAll iss.gid src o.sa.toNat (iss.participants g) s
    match first.1.filterMap fun x => match x.2 with
        | .handle how => some (x.1, how)
        | _ => none with
    | x :: rest =>
      if (x :: rest).any fun y => y.2 == .wait then .next (askedOnly s first.2)
      else .next (takeTrap first.2 0x0B iss.gid ((x :: rest).map Prod.fst) (handleDetail (x :: rest) (wordOf (.kick o))))
    | [] =>
      let second := kickSecond iss.gid src first.1 (advance first.2 iss)
      let s1 := issueAsks second.2 iss.gid (kickAsks iss src o.d.toNat first.1 second.1)
      let bad := first.1.filterMap fun x => match x.2 with
        | .bad a => some (x.1, a)
        | _ => none
      .next (if first.1.any fun x => match x.2 with
          | .aside _ => true
          | _ => false then s1 else wordTrap s1 iss.gid 0x12 bad)

/-- R216: the ticket is read at issue, its state at the word's point in time order. -/
def execCstat (o : EF) (s : State) : Result :=
  memWord (.cstat o) s fun _ iss g l =>
    .ok [{ askResult iss g l o.d.toNat [g.reg l o.sa.toNat] with kind := .cstat }]

/-- The word that cstat writes (R216). -/
def cstatWord (s : State) (core : Nat) (t : Word) : Word :=
  let k := getTicket s core (bitsOf t 10 0)
  if t.getLsbD 31 ∨ k.gen ≠ bitsOf t 30 11 then 3
  else BitVec.ofNat 32 (k.state + (if k.state = 2 then k.cause * 4 else 0))

/-! ### The end of a record (R211, R213, R214, R315) -/

def findCopy (s : State) (id : Nat) : Option Copy := s.copies.find? fun c => c.id == id
def modCopy (s : State) (id : Nat) (h : Copy → Copy) : State :=
  { s with copies := s.copies.map fun c => if c.id == id then h c else c }

/-- Release a copy's range entries; on one core only, when one is named. -/
def releaseRanges (s : State) (owner : Nat) (isWrite : Bool) (core : Option Nat) : State :=
  { s with ranges := s.ranges.filter fun e =>
      !(e.owner == owner && e.isWrite == isWrite && (match core with
        | some c => e.core == c
        | none => true)) }

/-- The die and the offset that a weight-store address of a copy names, none when a bit outside them is set (R178). -/
def weightPlace (c : Copy) (addr : Dword) : Option (Nat × Nat) :=
  if c.hub then (if bitsOf addr 63 33 = 0 ∧ addr.getLsbD 31 = false then some (bitsOf addr 32 32, bitsOf addr 30 0) else none)
  else if bitsOf addr 63 31 = 0 then some (dieOf c.gid, addr.toNat) else none

/-- Discard the hash records of a region whose bytes overlap n bytes from an offset of a die (R315). -/
def dropHashes (s : State) (part die off n : Nat) : State :=
  { s with regionsOf := s.regionsOf.map fun e =>
      if e.1 / 32 == part && e.2.die == die then
        (e.1, { e.2 with hashes := e.2.hashes.filter fun h => !overlaps (e.2.first * 2 ^ 19 + h.offset) h.count off n })
      else e }

/-- The weight-store bytes of every row of a record, as (die, offset). -/
def weightRows (c : Copy) : List (Nat × Nat) :=
  (List.range c.rows).filterMap fun r => weightPlace c (c.dstRow r)

/-- The record leaves: its entries are released, its ticket gets its state (R214, R216). -/
def endCopy (s : State) (c : Copy) (state cause : Nat) : State :=
  let s1 := releaseRanges (releaseRanges s c.owner true none) c.owner false none
  let s2 := { s1 with copies := s1.copies.filter fun x => !(x.id == c.id) }
  let last := latestOf s ((s.past.filter fun e => e.agent == .copy c.id).map fun e => e.id)
  if c.hub then finishRuns (noteOrder s2 (fun r => r.copies.contains c.id) (last.getD 0))
  else
    let t := getTicket s2 c.core c.place
    settleGroup (noteEngine (setTicket s2 c.core c.place { t with state := state, cause := cause, last := last }) c.gid last) c.gid

/-- A hub copy's error goes to the record that started it: CODE 4 with the index of the copy entry, and the record carries out no further
entry, nor a region command that it waits for (R281). -/
def noteHubError (s : State) (c : Copy) : State :=
  let mark (r : Run) : Run :=
    if r.copies.contains c.id && r.code == 0 then { r with code := 4, errIndex := c.place, ended := true } else r
  let gone := (s.queues.filterMap fun e => e.2.cur.bind fun r => if r.copies.contains c.id then r.regionWait else none)
  { s with regionCmds := s.regionCmds.filter fun x => !gone.contains x.id
           queues := s.queues.map fun e =>
      match e.2.cur with
      | some r =>
        if r.copies.contains c.id then (e.1, { e.2 with cur := none, ending := e.2.ending.map mark ++ [mark r] })
        else (e.1, { e.2 with ending := e.2.ending.map mark })
      | none => (e.1, { e.2 with ending := e.2.ending.map mark }) }

/-- THE STOP (R213): the record retires with status 2 and a cause; a copy of a group raises the trap when asked. -/
def stopCopy (s : State) (c : Copy) (cause : Nat) (raise : Option Dword) : State :=
  let s1 := if c.dk = 3 then (weightRows c).foldl (fun t w => dropHashes t c.part w.1 w.2 c.len) s else s
  let s2 := if c.hub then noteHubError s1 c
    else match raise with
      | some a => takeEngineTrap s1 cause c.gid a
      | none => s1
  endCopy s2 c 2 cause

/-- THE RETIREMENT (R214): a hashed copy leaves its hash record (R315). -/
def retireCopy (s : State) (c : Copy) : State :=
  let s1 :=
    if c.hs then
      match weightPlace c (c.dstRow 0) with
      | none => s
      | some (die, off) =>
        { s with regionsOf := s.regionsOf.map fun e =>
            if e.1 / 32 == c.part && e.2.die == die && decide (e.2.first ≤ off / 2 ^ 19)
                && decide (off / 2 ^ 19 < e.2.first + e.2.count) then
              (e.1, { e.2 with hashes := e.2.hashes ++ [{ chunk := (lowWord (c.dw 7)).toNat, offset := off - e.2.first * 2 ^ 19,
                                                          count := c.rows * c.len, digest := Config.sha384 c.hashed }] })
            else e }
    else s
  endCopy s1 c 0 0

/-! ### Accesses of a copy (R213) -/

/-- How an access of a copy ends, when it does not go through. -/
inductive CopyFail
  | held (cause : Nat) | stop (cause : Nat) | wait | ats
  deriving DecidableEq, Repr

def copySite (c : Copy) : Nat := if c.hub then hubSite else c.core

/-- A copy counts for its page (R305). -/
def countCopy (s : State) (c : Copy) (va : Nat) (e : Dword) : State :=
  if pteCE e then bumpCounter s c.pasid va (dieOfCore c.core % 2) c.ctx else s

/-- A translated access of a copy: its address, its key, and whether it goes to host memory or a shared page. -/
structure CopySpot where
  pa : Nat
  key : Nat
  far : Bool
  deriving DecidableEq, Repr

/-- An event to come of a copy, after its ownership point and some other events. -/
def copyWho (s : State) (c : Copy) (after : List Nat) (far : Bool) : Who :=
  { agent := .copy c.id, after := c.own.toList ++ after, issued := s.clock, far := far }

/-- Translate one global access of a copy, and the conditions that hold it (R213, R309, R313, R316). A read of a line that another copy
owns waits for it (R271). -/
def copyTranslate (s : State) (c : Copy) (va : Dword) (write : Bool) : Except CopyFail CopySpot × State :=
  match translate s (copySite c) c.pasid va (if write then .write else .read) with
  | (.fail n _, s1) => (.error (.held n), s1)
  | (.needAts, s1) => (.error .ats, askAts s1 (copySite c) c.pasid va.toNat (if write then .write else .read) .access)
  | (.ok pa e _ _, s1) =>
    if underHandover s1 pa then (.error (.held 5), s1)
    else if write && windowBlocks s1 .store pa then (.error (.held 4), s1)
    else if (!pteSH e && keyBusy s1 (ctxKey s1 c.ctx)) || otherOwns s1 c.id pa then (.error .wait, s1)
    else if !itemReadyAt s1 pa then (.error (.stop 0x12), logError s1 c.ctx 2 (BitVec.ofNat 64 pa))
    else if write && inSealedFrame s1 pa then (.error (.stop 0x0F), s1)
    else if !write && damagedAt s1 pa 4 then (.error (.stop 0x12), logError s1 c.ctx 3 (BitVec.ofNat 64 pa))
    else (.ok { pa := pa, key := pageKey e (ctxKey s1 c.ctx), far := farPlace pa e }, countCopy s1 c va.toNat e)

/-- An access of a copy does not go through: it is held in the replay buffer with the data that it would write, the record stops, or it is
tried again (R213, R302). -/
def failCopy (s : State) (c : Copy) (f : CopyFail) (addr : Dword) (req : Nat) (data : Dword) : State :=
  match f with
  | .wait => s
  | .ats => modCopy s c.id fun x => { x with needsAts := true }
  | .stop cause => stopCopy s c cause (some addr)
  | .held cause =>
    if c.hub then (if cause = 4 ∨ cause = 5 then s else stopCopy s c (if cause = 2 then 0x0E else if cause = 3 then 0x0D else 0x0C) none)
    else
      match enterReplay s c.core fun n =>
          { order := n, va := addr, pasid := c.pasid, cause := cause, req := req, size := 2, data := data, who := .copy c.id } with
      | none => s
      | some s1 =>
        let s2 := modCopy s1 c.id fun x => { x with held := true }
        if cause = 2 then takeEngineTrap s2 0x0E c.gid addr
        else if cause = 3 then takeEngineTrap s2 0x0D c.gid addr
        else s2

/-! ### The beginning of a record (R211, R212) -/

/-- The rows that a side of kind 4 resolves to, once (R209, R250) (log 41, DEDUCED). -/
def resolveSide (s : State) (c : Copy) (kind : Nat) (have_ : List Dword) (h : Dword) (pos n : Nat) : Except Resolved (List Dword) × State :=
  if !have_.isEmpty then (.ok have_, s)
  else if kind = 4 then resolveRun s (copySite c) (dieOfCore c.core) c.ctx h pos n else (.ok [], s)

/-- A side of kind 4 does not resolve: the record waits for a table read, or stops with the handle trap. -/
def failResolve (s : State) (c : Copy) (how : Resolved) (h : Dword) : State :=
  match how with
  | .wait => s
  | .fault va => stopCopy s c 0x0B (some va)
  | _ => stopCopy s c 0x0B (some h)

/-- An address that a copy will write whose translation the host has still to give (R300). -/
def unasked (s : State) (c : Copy) : Option Dword :=
  c.lineAddrs.find? fun va => (mapsTo s c.pasid va).isNone && (translate s (copySite c) c.pasid va .write).1 == .needAts

/-- The 4 KiB pages of delegated ranges that a copy writes, with the pages that the host has given for them. -/
def ownedPages (s : State) (c : Copy) : List (Nat × Nat) :=
  ((c.lineAddrs.filter fun va => decide (va.toNat < 2 ^ 57) && (match walk s c.pasid va.toNat with
    | .delegated _ _ => true
    | _ => false)).filterMap fun va => (mapsTo s c.pasid va).map fun pa => (va.toNat / 4096, pa / 4096)).eraseDups

/-- THE OWNERSHIP POINT (R212, R270, R271): a point of time order after the record's guard read; a record waits for it while another copy
owns a line that it will write (log 42, DEDUCED), and for the host's translations of its lines (R300). -/
def ownLines (s : State) (c : Copy) : State :=
  match unasked s c with
  | some va =>
    modCopy (askAts s (copySite c) c.pasid va.toNat .write .access) c.id fun _ => { c with needsAts := true }
  | none =>
    if c.lineAddrs.any fun va => (lineOf s c va).any fun n => s.copies.any fun d => d.id != c.id && ownsLine s d n then
      modCopy s c.id fun _ => c
    else
      let s1 := noteMark s (copyWho s c [] false)
      modCopy s1 c.id fun _ => { c with begun := true, own := some s.events, owned := ownedPages s c }

/-- Begin a record whose row count is known: a record of no byte retires at once; else its rows are resolved and its lines owned. -/
def beginRows (s : State) (c : Copy) (rows : Nat) : State :=
  let c1 := { c with rows := rows }
  if rows = 0 ∨ c.len = 0 then endCopy s c1 0 0
  else
    match resolveSide s c c.sk c.srcRows (c.dw 1) (bitsOf (c.dw 5) 31 0) rows with
    | (.error how, s1) => failResolve s1 c1 how (c.dw 1)
    | (.ok srcs, s1) =>
      match resolveSide s1 c c.dk c.dstRows (c.dw 2) (bitsOf (c.dw 5) 63 32) rows with
      | (.error how, s2) => failResolve s2 c1 how (c.dw 2)
      | (.ok dsts, s2) => ownLines s2 { c1 with srcRows := srcs, dstRows := dsts }

/-- Begin an accepted record: the guard read, once, then the ownership point (R211, R212, R270). -/
def beginCopy (s : State) (c : Copy) : State :=
  let rows := bitsOf (c.dw 4) 31 0
  if c.counted then beginRows s c c.rows
  else if (c.dw 0).getLsbD 41 then
    match copyTranslate s c (c.dw 6) false with
    | (.error f, s1) => failCopy s1 c f (c.dw 6) 6 0
    | (.ok p, s1) =>
      let r := readMem s1 (copyWho s1 c [] p.far) p.key p.pa 4
      let c1 := { c with own := some s1.events, counted := true, rows := Nat.min (natOfBytes r.1) rows }
      beginRows (modCopy r.2 c.id fun _ => c1) c1 c1.rows
  else beginRows s c rows

/-- The copy stands still: an access of it is held or waits for the host, or its group is being saved (R213, R329). -/
def copyStopped (s : State) (c : Copy) : Bool :=
  c.held || c.needsAts || (!c.hub && (getGroup s c.gid).any fun g => g.saving)

/-- R211. -/
def execCopyBegin (id : Nat) (s : State) : Result :=
  match findCopy s id with
  | none => .next s
  | some c => .next (if c.begun || copyStopped s c then s else beginCopy s c)

/-! ### One word (R211 to R214) -/

/-- Read the next source word of a copy, as one event after the ownership point. -/
def copyRead (s : State) (c : Copy) : Except (CopyFail × Dword) (List Byte) × State :=
  let addr := c.srcRow c.row + BitVec.ofNat 64 c.byte
  let fromSpace (space key : Nat) : Except (CopyFail × Dword) (List Byte) × State :=
    let r := readSpace s (copyWho s c [] false) space 0 key 4
    if damagedIn s space key 4 then (.error (.stop 0x12, addr), logError r.2 c.ctx 3 addr) else (.ok r.1, r.2)
  match c.sk with
  | 1 =>
    match (getGroup s c.gid).bind fun g => spadByte s c.gid g (lowWord addr) 4 with
    | some b => fromSpace 1 (spadKey c.core b)
    | none => (.error (.stop 0x0E, addr), s)
  | 2 =>
    match (getGroup s c.gid).bind fun g => (c.source.bind (rankHold s g)) with
    | some h =>
      match holdByte h (lowWord addr) 4 with
      | some b => fromSpace 1 (spadKey h.core b)
      | none => (.error (.stop 0x0E, addr), s)
    | none => (.error (.stop 0x0E, addr), s)
  | 3 =>
    match weightPlace c addr with
    | none => (.error (.stop 0x0E, addr), s)
    | some (die, off) =>
      let listed (r : Nat) : Bool := c.hub || ((getGroup s c.gid).map fun g => g.regions.getLsbD r).getD false
      if !readyBit s (8 + die) then (.error (.stop 0x12, addr), logError s c.ctx 2 addr)
      else if underRefresh s die off then (.error (.wait, addr), s)
      else if weightReadable s c.part die listed off 4 then fromSpace 2 (2 ^ 31 * die + off)
      else (.error (.stop 0x0E, addr), s)
  | _ =>
    match copyTranslate s c addr false with
    | (.error f, s1) => (.error (f, addr), s1)
    | (.ok p, s1) =>
      let r := readMem s1 (copyWho s1 c [] p.far) p.key p.pa 4
      (.ok r.1, r.2)

/-- The row hold of the receiver in progress. -/
def receiverHold (s : State) (c : Copy) : Option RowHold :=
  (getGroup s c.gid).bind fun g => ((c.receivers[c.recv]?).bind (rankHold s g))

/-- A commit issued before a copy has still to read the slot (R215). -/
def commitBefore (s : State) (gid ls id : Nat) : Bool :=
  s.accesses.any fun a => a.kind == .commit && a.gid == gid && a.aop == ls && decide (a.word < id)

/-- A landing slot takes a transfer (R219). -/
def markUncommitted (g : Group) (ls : Nat) : Group :=
  if g.uncommitted.contains ls then g else { g with uncommitted := g.uncommitted ++ [ls] }

/-- Write the next destination word of a copy, as one event after the event of its read; a write of a landing slot is none (R272). -/
def copyWrite (s : State) (c : Copy) (read : Nat) (bytes : List Byte) : Except (CopyFail × Dword) State × State :=
  let addr := c.dstRow c.row + BitVec.ofNat 64 c.byte
  match c.dk with
  | 1 =>
    match (getGroup s c.gid).bind fun g => spadByte s c.gid g (lowWord addr) 4 with
    | some b => (.ok (writeSpace s (copyWho s c [read] false) 1 0 (spadKey c.core b) bytes), s)
    | none => (.error (.stop 0x0E, addr), s)
  | 2 =>
    match (receiverHold s c).bind fun h => (holdByte h (lowWord addr) 4).map fun b => (h.core, b) with
    | some (core, b) => (.ok (writeSpace s (copyWho s c [read] false) 1 0 (spadKey core b) bytes), s)
    | none => (.error (.stop 0x0E, addr), s)
  | 3 =>
    match weightPlace c addr with
    | none => (.error (.stop 0x0E, addr), s)
    | some (die, off) =>
      if !readyBit s (8 + die) then (.error (.stop 0x12, addr), logError s c.ctx 2 addr)
      else if underRefresh s die off then (.error (.wait, addr), s)
      else
        match regionAt s c.part die off with
        | none => (.error (.stop 0x0E, addr), s)
        | some (_, x) =>
          if x.isSealed then (.error (.stop 0x0F, addr), s)
          else
            let s1 := dropHashes s c.part die off 4
            (.ok (writeSpace s1 (copyWho s1 c [read] false) 2 0 (2 ^ 31 * die + off) bytes), s)
  | 5 =>
    let ls := bitsOf (c.dw 2) 1 0
    if commitBefore s c.gid ls c.id then (.error (.wait, addr), s)
    else
      let row := bitsOf (c.dw 2) 13 8 + c.row
      (.ok (modGroup s c.gid fun g => markUncommitted (g.setLand ls row (c.byte / 4) (BitVec.ofNat 32 (natOfBytes bytes))) ls), s)
  | _ =>
    match copyTranslate s c addr true with
    | (.error f, s1) => (.error (f, addr), s1)
    | (.ok p, s1) => (.ok (writeMem s1 (copyWho s1 c [read] p.far) p.key p.pa bytes), s1)

/-- The core and byte of the receiver's barrier object. -/
def receiverObject (s : State) (c : Copy) : Option (Nat × Nat) :=
  (receiverHold s c).bind fun h => (holdByte h (highWord (c.dw 4)) 16).map fun b => (h.core, b)

/-- Count a written word into the receiver's object, after the event of its write (R214, R270). -/
def copyCount (s : State) (c : Copy) (write : Nat) : State :=
  if c.bc then
    match receiverObject s c with
    | some (core, b) => countWord s (copyWho s c [write] false) core b ((highWord (c.dw 4)).setWidth 64)
    | none => s
  else s

/-- A receiver is done: its arrival, after its writes and counts, then its write entry is released (R214, R270). -/
def receiverDone (s : State) (c : Copy) : State :=
  let mine := (c.placed.filter fun x => x.1 == c.recv).map Prod.snd
  let s1 :=
    if c.arrv then
      match receiverObject s c with
      | some (core, b) => engineArrive s (copyWho s c mine false) c.gid core b ((highWord (c.dw 4)).setWidth 64)
      | none => s
    else s
  match receiverHold s c with
  | some h => releaseRanges s1 c.owner true (some h.core)
  | none => s1

/-- Where a copy stands after the word in progress: its row, receiver and byte. The engine takes its words row by row, receiver by receiver
within a row, ascending, and reads a multicast source word again for each receiver; where their events lie in time order the agenda says
(log 116, DESIGN CHOICE). -/
def Copy.step (c : Copy) : Copy :=
  if c.byte + 4 < c.len then { c with byte := c.byte + 4 }
  else if c.recv + 1 < c.receivers.length then { c with byte := 0, recv := c.recv + 1 }
  else { c with byte := 0, recv := 0, row := c.row + 1 }

/-- The word in progress is the last one of its receiver, and the last of the record. -/
def Copy.lastOfReceiver (c : Copy) : Bool := decide (c.len ≤ c.byte + 4) && decide (c.rows ≤ c.row + 1)
def Copy.lastWord (c : Copy) : Bool := c.lastOfReceiver && decide (c.receivers.length ≤ c.recv + 1)

/-- The object that the word in progress counts into or arrives at has an uncorrectable error (R213, R358). -/
def objectBad (s : State) (c : Copy) : Bool :=
  (c.bc || (c.arrv && c.lastOfReceiver)) && (receiverObject s c).any fun o => damagedIn s 1 (spadKey o.1 o.2) 16

/-- The word in progress of a copy, read once: what has been read of it, or its read (R211). The read entry goes with the last read (R200). -/
def copySource (s : State) (c : Copy) : Except (CopyFail × Dword) (List Byte × Nat) × State :=
  match c.data with
  | some d => (.ok d, s)
  | none =>
    match copyRead s c with
    | (.error f, s1) => (.error f, s1)
    | (.ok bytes, s1) =>
      (.ok (bytes, s1.events - 1), if c.lastWord then releaseRanges s1 c.owner false none else s1)

/-- The word in progress has been read: it is written, and counted; then come the arrival and the retirement that it brings (R211 to R214). -/
def copyOut (s : State) (c : Copy) (bytes : List Byte) (read : Nat) : State :=
  match copyWrite s c read bytes with
  | (.error f, s1) => failCopy (modCopy s1 c.id fun x => { x with data := some (bytes, read) }) c f.1 f.2 5 (BitVec.ofNat 64 (natOfBytes bytes))
  | (.ok s1, _) =>
    if objectBad s c then
      let addr : Dword := (highWord (c.dw 4)).setWidth 64
      stopCopy (logError s1 c.ctx 3 addr) c 0x12 (some addr)
    else
    let s2 := copyCount s1 c (s1.events - 1)
    let made := if c.arrv then (List.range (s2.events - s.events)).map fun k => (c.recv, s.events + k) else []
    let cNow := { c with placed := c.placed ++ made, data := none }
    let s3 := if c.lastOfReceiver then receiverDone s2 cNow else s2
    let hashed := if c.hs then c.hashed ++ bytes else c.hashed
    let c1 := { cNow.step with hashed := hashed }
    let s4 := modCopy s3 c.id fun _ => c1
    if c.lastWord then retireCopy s4 c1 else s4

/-- ONE WORD of a copy: one read and one write, the read kept while the write waits (R211, R213). -/
def copyWord (s : State) (c : Copy) (err : Bool) : State :=
  match copySource s c with
  | (.error f, s1) => failCopy s1 c f.1 f.2 4 0
  | (.ok (bytes, read), s1) =>
    if err && c.data.isNone then
      let addr := c.srcRow c.row + BitVec.ofNat 64 c.byte
      stopCopy (logError s1 c.ctx 3 addr) c 0x12 (some addr)
    else copyOut s1 c bytes read

/-- R211. -/
def execCopyWordTransfer (id : Nat) (err : Bool) (s : State) : Result :=
  match findCopy s id with
  | none => .next s
  | some c => .next (if !c.begun || copyStopped s c then s else copyWord s c err)

end Sys2Proof.Machine
end

