-- ==== Sys2Proof/Machine/Tiers.lean ====
section
/-! DEFINITION. What the migration engine knows of pages: pin counts, cooling marks and its queue (R198, R305, R307, R311), and the words
place, pin and unpin (R197, R198). -/

namespace Sys2Proof.Machine

/-! ### Pages -/

/-- The pin count of a 256 KiB frame (R198, R316) (log 57, DEDUCED). -/
def pinCount (s : State) (frame : Nat) : Nat := tblGet 0 s.pins (frame / 2 ^ 18)
def setPin (s : State) (frame n : Nat) : State := { s with pins := tblSet 0 s.pins (frame / 2 ^ 18) n }

/-- A frame in a page has a pin count that is not 0. -/
def pageHeld (s : State) (p : PageInfo) : Bool :=
  s.pins.any fun e => decide (p.frame / 2 ^ 18 ≤ e.1) && decide (e.1 < (p.frame + 2 ^ p.bits) / 2 ^ 18)

/-- The page is pinned, by its entry or by its count. -/
def pagePinned (s : State) (p : PageInfo) : Bool := ptePin p.leaf || pageHeld s p

/-- A page is being moved. -/
def pageMoving (s : State) (pasid : BitVec 20) (p : PageInfo) : Bool := s.moves.any fun m => m.pasid == pasid && m.va == p.base

/-- A page is cooling (R311). -/
def pageCooling (s : State) (guest : Nat) (pasid : BitVec 20) (p : PageInfo) : Bool :=
  s.cooling.any fun c => c.1 == counterKey guest pasid (p.base / 2 ^ 18)

/-- The engine takes requests of a context (R308). -/
def migEnabled (s : State) (f : Nat) : Bool := (getX s f 0x138).getLsbD 0

/-! ### The queue (R307) -/

/-- Queue a request; none when the queue of 1024 is full. -/
def enqueueMove (s : State) (r : MigRequest) : Option State :=
  if 1024 ≤ s.migQueue.length then none
  else some { s with migQueue := s.migQueue ++ [{ r with id := s.nextId }], nextId := s.nextId + 1 }

/-- A place request: it replaces the target and the need-by point of one queued for its page (R307). -/
def enqueuePlace (s : State) (r : MigRequest) : Option State :=
  if s.migQueue.any fun x => x.pasid == r.pasid && x.va == r.va then
    some { s with migQueue := s.migQueue.map fun x =>
      if x.pasid == r.pasid && x.va == r.va then { x with target := r.target, needBy := r.needBy, die := r.die, core := r.core } else x }
  else enqueueMove s r

/-- PLACE (R197): the status, and the engine's queue after it (log 50, DESIGN CHOICE). -/
def placePage (s : State) (g : Group) (gid : Nat) (va : Dword) (tier : Nat) (needBy : Option Nat) : Nat × State :=
  if !migEnabled s g.ctx then (3, s)
  else
    match pageOf s g.pasid va.toNat with
    | none => (2, s)
    | some p =>
      if !pteAllow p.leaf tier || pagePinned s p then (1, s)
      else if tierOf s p.frame = tier && !pageMoving s g.pasid p then (4, s)
      else
        let r : MigRequest := { id := 0, ctx := g.ctx, pasid := g.pasid, va := p.base, target := tier, needBy := needBy, place := true
                                die := dieOf gid, core := coreOf gid, guest := guestOf s g.pasid }
        match enqueuePlace s r with
        | some s1 => (0, s1)
        | none => (3, s)

/-- PIN and UNPIN (R198): the status, and the counts after it. -/
def pinPage (s : State) (g : Group) (va : Dword) (up : Bool) : Nat × State :=
  match pageOf s g.pasid va.toNat with
  | none => (2, s)
  | some p =>
    let n := pinCount s p.frame
    if up then (if 65535 ≤ n then (1, s) else (0, setPin s p.frame (n + 1)))
    else (if n = 0 then (1, s) else (0, setPin s p.frame (n - 1)))

/-! ### The words -/

/-- A request to the engine for a participant: it acts at the word's place in time order, and its status goes to D on slot 7 (R199). -/
def askEngine (iss : Issue) (g : Group) (lane : Nat) (o : EF) (kind : AccessKind) (data : Dword) : Ask :=
  .ok [{ askResult iss g lane o.d.toNat [0] with kind := kind, addr := g.pair lane o.sa.toNat, data := data }]

/-- The need-by point of place, 256 NB clocks after its issue; 0 for none (R197, R311). -/
def needByClock (s : State) (iss : Issue) (n : BitVec 4) : Nat :=
  let nb := (iss.ext.map fun x => x.toNat * 16).getD 0 + n.toNat
  if nb = 0 then 0 else s.clock + 256 * nb

/-- R197. -/
def execPlace (o : EF) (n : BitVec 4) (t : BitVec 2) (s : State) : Result :=
  memWord (.place o n t) s fun s iss g l => askEngine iss g l o (.place t.toNat) (BitVec.ofNat 64 (needByClock s iss n))
/-- R198. -/
def execPin (o : EF) (s : State) : Result := memWord (.pin o) s fun _ iss g l => askEngine iss g l o (.pin true) 0
/-- R198. -/
def execUnpin (o : EF) (s : State) : Result := memWord (.unpin o) s fun _ iss g l => askEngine iss g l o (.pin false) 0

/-- The status of a request to the engine, and its effect (R197, R198). -/
def engineAct (s0 : State) (g : Group) (a : Access) : Nat × State :=
  let s := (residentLeaf s0 (coreOf a.gid) g.pasid a.addr).2
  match a.kind with
  | .place t => placePage s g a.gid a.addr t (if a.data = 0 then none else some a.data.toNat)
  | .pin up => pinPage s g a.addr up
  | _ => (0, s)

end Sys2Proof.Machine
end

