-- ==== Sys2Proof/Machine/Finish.lean ====
section
/-! DEFINITION. How recorded accesses finish (R181, R182, R188, R215, R216): ACCESS_FINISH, SPILL_ENTRY_WRITTEN and commit. -/

namespace Sys2Proof.Machine

/-- A store to scratchpad takes its place. -/
def storeSpad (s : State) (g : Group) (a : Access) : State :=
  let key := spadKey (coreOf a.gid) (firstByte a)
  let bytes := bytesOf a.size a.data.toNat
  let s1 := writeSpace s (whoOf g a) 1 0 key bytes
  noteChange s1 a.gid (changedBy s1 s.events bytes)

/-- A spill takes its place, unless a fill that its entry serves has brought it there before (R265 item 4); those fills keep its event. -/
def placeSpill (s : State) (g : Group) (a : Access) : State :=
  if a.placed.isSome then s
  else
    let s1 := storeSpad s g a
    { s1 with accesses := s1.accesses.map fun b => if b.id == a.id || b.kind == .fill (some a.id) then { b with placed := some s.events } else b }

/-- A fill that the entry of spill n serves: its event lies directly after the spill's (R188, R265 item 4). -/
def forwardedFill (s : State) (g : Group) (a : Access) (n : Nat) : State :=
  let s1 := match findAccess s n with
    | some b => placeSpill s g b
    | none => s
  let spot := ((findAccess s1 a.id).bind fun x => x.placed).bind fun e => s1.past.findIdx? fun x => x.id == e
  let k := spot.getD 0
  finishLoad (noteEvent s1 (whoOf g a) k 1 (spadKey (coreOf a.gid) (firstByte a)) a.size true [] (s1.past.take k)) a
    (bytesOf a.size a.data.toNat)

/-- A load of scratchpad or weight store, or a store to scratchpad, takes its place; an uncorrectable error fails a load (R174,
R358). -/
def performLocal (s : State) (g : Group) (a : Access) (err : Bool) : State :=
  let bad (s : State) : State := failAccess (logError s g.ctx 3 a.addr) a 0x12
  let load (space key : Nat) : State :=
    if err || damagedIn s space key a.size then bad s
    else
      let r := readSpace s (whoOf g a) space 0 key a.size
      finishLoad r.2 a r.1
  match a.kind with
  | .sts => finishWith (storeSpad s g a) a []
  | .spill => finishWith (placeSpill s g a) a []
  | .fill (some n) => forwardedFill s g a n
  | .lds | .fill none | .scaleLoad 1 => load 1 (spadKey (coreOf a.gid) (firstByte a))
  | .ldw | .scaleLoad _ =>
    let die := dieOf a.gid
    if !readyBit s (8 + die) then failAccess (logError s g.ctx 2 a.addr) a 0x12
    else load 2 (2 ^ 31 * die + firstByte a)
  | _ => performBar s g a

/-- The point of a trigger that has waited for accesses behind a fence (R45). -/
def performTrigger (s : State) (g : Group) (a : Access) : State :=
  finishWith (triggerPoint s g.uid { agent := fibreAgent g a.lane, after := triggerAfter s g a }) a []

/-- Deliver a result, the state of a ticket, or the status of a request to the migration engine (R197 to R199, R216). -/
def performResult (s : State) (g : Group) (a : Access) : State :=
  match a.kind with
  | .trigger => performTrigger s g a
  | .place _ | .pin _ =>
    let r := engineAct s g a
    finishWith r.2 a [BitVec.ofNat 32 r.1]
  | .cstat =>
    let v := cstatWord s (coreOf a.gid) (lowWord a.data)
    let last := (getTicket s (coreOf a.gid) (bitsOf (lowWord a.data) 10 0)).last
    finishWith (modFibre s a.gid a.lane fun f =>
      { f with done := f.done ++ if v.toNat % 4 = 0 ∨ v.toNat % 4 = 2 then
          last.toList.map fun e => { event := e, slot := a.slot, least := 0, word := a.word } else [] }) a [v]
  | _ => finishWith s a ((pairWords a.data).take a.nregs)

/-- An access takes its place, when it may (log 10, DEDUCED) (log 73, DESIGN CHOICE) (log 98, DESIGN CHOICE). -/
def finishAccess (s : State) (id : Nat) (err : Bool) : State :=
  match findAccess s id with
  | none => s
  | some a =>
    match getGroup s a.gid with
    | none => s
    | some g =>
      if spaceOf a.kind = 0 ∧ a.pa.isSome = true ∧ a.held = false ∧ behindHeld s a = true then holdAccess true s g a 6
      else if !canFinish s a then s
      else
        noteDone (match spaceOf a.kind, a.pa with
          | 0, none => translateAccess true s id
          | 0, some pa => performGlobal s g a pa err
          | 3, _ => performResult s g a
          | _, _ => performLocal s g a err) g a

/-- R181: the finishing of one access; err says that its data met an uncorrectable error (R358) (log 17, DESIGN CHOICE). -/
def execAccessFinish (id : Nat) (err : Bool) (s : State) : Result := .next (finishAccess s id err)

/-- Write one spill of an entry into its rows. -/
def writeSpill (s : State) (id : Nat) : State :=
  match findAccess s id with
  | none => s
  | some a =>
    match getGroup s a.gid with
    | none => s
    | some g => noteDone (performLocal s g a false) g a

/-- R188: an entry's bytes are written into scratchpad, and the entry is free. -/
def execSpillEntryWritten (id : Nat) (s : State) : Result :=
  match s.spills.find? fun e => e.id == id with
  | none => .next s
  | some e =>
    let mine := s.accesses.filter fun a => e.accesses.contains a.id
    if mine.any fun a => s.accesses.any fun b => mustPrecede a b && !e.accesses.contains b.id then .next s
    else .next { (e.accesses.foldl writeSpill s) with spills := s.spills.filter fun x => !(x.id == id) }

/-! ### commit (R215) -/

/-- R215: slot L of the group's own numbering; the rows are read once earlier transfers into it have completed. -/
def execCommit (o : EF) (l : BitVec 2) (s : State) : Result :=
  guarded (.commit o l) s fun iss g =>
    let src := iss.sourceGroup g
    let w := wordOf (.commit o l)
    let parts := iss.participants g
    let desc := fun p => src.reg p o.sa.toNat
    if !parts.isEmpty && decide (g.lslots ≤ l.toNat) then .next (trapWord s iss 0x05 parts w)
    else
      .next (issueAsks (advance s iss) iss.gid (parts.map fun p =>
        (p, .ok [{ askOf iss p 7 .commit 0 0 with
          aop := l.toNat, data := BitVec.ofNat 64 (commitFirst (desc p)), row := rowOf src p o.d.toNat
          nregs := commitCount (desc p) }])))

/-- Every transfer into the slot that a commit word waits for has completed. -/
def commitReady (s : State) (a : Access) : Bool :=
  !s.copies.any (fun c => !c.hub && c.gid == a.gid && c.dk == 5 && bitsOf (c.dw 2) 1 0 == a.aop && decide (c.id < a.word))
    && !(getQuarter s (quarterOf a.gid)).queue.any fun x => x.gid == a.gid && x.ls == a.aop && decide (x.id < a.word)

/-- The registers of one fibre from its slot. -/
def commitOne (s : State) (a : Access) : State :=
  match getGroup s a.gid with
  | none => s
  | some g =>
    finishWith s a ((List.range a.nregs).map fun k => g.landCell a.aop (a.data.toNat + k) (a.lane % 32))

/-- R215: the whole word's registers are written; the slot then holds no uncommitted contents. -/
def execCommitWriteback (id : Nat) (s : State) : Result :=
  match s.accesses.find? fun a => a.id == id && a.kind == .commit with
  | none => .next s
  | some a =>
    if commitReady s a then
      let mine := s.accesses.filter fun b => b.word == a.word && b.kind == .commit
      let s1 := modGroup s a.gid fun g => { g with uncommitted := g.uncommitted.filter fun k => k != a.aop }
      .next (mine.foldl commitOne s1)
    else .next s

end Sys2Proof.Machine
end

