-- ==== Sys2Proof/Machine/Tlb.lean ====
section
/-! DEFINITION. The commands that end replay entries (R303, R304), invalidation of the translation caches (R299, R300), and the host's
answers to ATS requests (R300). -/

namespace Sys2Proof.Machine

/-! ### Ends of replay entries (R303, R304) -/

def removeReplay (s : State) (key : Nat) : State := { s with replay := tblErase s.replay key }

/-- What an entry holds is no longer held. -/
def unhold (s : State) (w : ReplayWho) : State :=
  match w with
  | .access id => modAccess s id fun a => { a with held := false }
  | .copy id => modCopy s id fun c => { c with held := false }
  | .fetch gid lanes => modLanes s gid lanes fun f => { f with fetchHeld := false }

/-- A held access translates again and proceeds, or enters the buffer with its new cause; a copy or a fetch tries again (R303). -/
def retryWho (s : State) (w : ReplayWho) : State :=
  match w with
  | .access id => translateAccess true (unhold s w) id
  | _ => unhold s w

/-- The key of the entry that holds something. -/
def keyOfWho (s : State) (w : ReplayWho) : Option Nat := (s.replay.find? fun e => e.2.who == w).map Prod.fst

/-- An access ordered behind others replays when none of them is left (R304). -/
def retryBehind (s : State) (a : Access) : State :=
  match keyOfWho s (.access a.id) with
  | none => s
  | some k =>
    match tblFind s.replay k, findAccess s a.id with
    | some e, some b => if e.cause = 6 && !behindHeld s b then retryWho (removeReplay s k) e.who else s
    | _, _ => s

/-- The accesses of cause 6 whose entries have left replay, in program order (R301, R304). -/
def releaseBehind (s : State) : State := (s.accesses.filter fun a => a.held).foldl retryBehind s

/-- REPLAY of an entry (R303). -/
def replayNow (s : State) (key : Nat) : State :=
  match tblFind s.replay key with
  | none => s
  | some e => releaseBehind (retryWho (removeReplay s key) e.who)

/-- The trap code of a copy that stops on a cause (R213). -/
def causeTrap (cause : Nat) : Nat := if cause = 2 then 0x0E else if cause = 3 then 0x0D else 0x0C

/-- ABANDON of an entry (R303): the access is no event, its slot clears; a copy stops; with the page trap when asked; for a
copy of cause 0, 1 or 7 always, of cause 2 or 3 never, whose entry trap stands (R213). -/
def abandonNow (s : State) (key : Nat) (page : Bool) : State :=
  match tblFind s.replay key with
  | none => s
  | some e =>
    let s1 := unhold (removeReplay s key) e.who
    let s2 :=
      match e.who with
      | .access id =>
        match findAccess s1 id with
        | none => s1
        | some a => finishWith (if page then takeTrap s1 0x0C a.gid [a.lane] e.va else s1) a []
      | .copy id =>
        match findCopy s1 id with
        | none => s1
        | some c =>
          stopCopy s1 c (causeTrap e.cause) (if e.cause = 2 ∨ e.cause = 3 then none else some e.va)
      | .fetch gid lanes => if page then takeTrap s1 0x0C gid lanes e.va else s1
    releaseBehind s2

/-- The group whose access, copy or fetch an entry holds. -/
def replayGroup (s : State) (w : ReplayWho) : Option Nat :=
  match w with
  | .access id => (findAccess s id).map fun a => a.gid
  | .copy id => (findCopy s id).map fun c => c.gid
  | .fetch gid _ => some gid

/-- A command of a started kiosk on an entry that it may end: held, of cause 0, 1, 2, 3 or 7 (R303, R350, R354). -/
def rbcmd (s : State) (core entry : Nat) (h : State → Nat → State) : Result :=
  match tblFind s.replay (96 * core + entry) with
  | none => .next s
  | some e =>
    .next (if decide (entry < 96) && (getKiosk s core).started && !(e.cause == 4 || e.cause == 5 || e.cause == 6)
      then h s (96 * core + entry) else s)

/-- R303. -/
def execRbcmdReplay (core entry : Nat) (s : State) : Result := rbcmd s core entry replayNow
/-- R303. -/
def execRbcmdAbandon (core entry : Nat) (s : State) : Result := rbcmd s core entry fun t k => abandonNow t k false
/-- R303. -/
def execRbcmdAbandonPageTrap (core entry : Nat) (s : State) : Result := rbcmd s core entry fun t k => abandonNow t k true

/-- The keys of the entries that meet a test, in the order in which they entered. -/
def entriesInOrder (s : State) (p : Replay → Bool) : List Nat :=
  let es := s.replay.filter fun e => p e.2
  (es.foldr (fun e acc => insertBy (fun k => (tblFind s.replay k).elim 0 fun r => r.order) e.1 acc) [])

/-- Entries that the hardware ends replay in order (R304). -/
def replayAll (s : State) (p : Replay → Bool) : State := (entriesInOrder s p).foldl replayNow s

/-- An access of cause 4 meets no full window any more (R301, R304). -/
def windowOpen (s : State) (e : Replay) : Bool :=
  e.cause == 4 && !((mapsTo s e.pasid e.va).map (fun pa => (moveOf s pa).map fun m => m.phase) == some (some .final))

/-- An access of cause 5 meets no handover any more (R313). -/
def handoverOver (s : State) (e : Replay) : Bool :=
  e.cause == 5 && !((mapsTo s e.pasid e.va).map (underHandover s)).getD false

/-! ### Invalidation (R299, R300) -/

/-- The 256 KiB pages from a first page, all of them for a count of 0, hold part of a translation. -/
def inPages (first count base bits : Nat) : Bool :=
  count == 0 || overlaps (first * 2 ^ 18) (count * 2 ^ 18) base (2 ^ bits)

/-- The PASIDs of a partition (R299). -/
def partitionPasids (s : State) (p : Nat) : List (BitVec 20) :=
  ((ctxsOf s p).map fun f => ctxPasid s f :: (List.range 64).map fun q => queuePasid s f q).flatten

/-- Drop the cached translations that a test names, and note the accesses that went through one and have not taken their places. -/
def dropTlb (s : State) (p : BitVec 20 → Nat → Nat → Bool) : Invalidation × State :=
  let deps := s.accesses.filter fun a =>
    !a.held && a.pa.isSome && match a.tlbKey, getGroup s a.gid with
      | some k, some g => p g.pasid k.1 k.2
      | _, _ => false
  ({ accesses := deps.map fun a => a.id, copies := [] }, { s with tlb := s.tlb.filter fun t => !p t.pasid t.base t.bits })

/-- An issued access waits for this request. -/
def accessWaits (s : State) (r : AtsRequest) (a : Access) : Bool :=
  a.needsAts && coreOf a.gid == r.site && a.addr.toNat / 4096 * 4096 == r.va
    && (getGroup s a.gid).map (fun g => g.pasid) == some r.pasid

/-- The written fields of TLBINVC (R299). -/
def tlbinvcFields (v : Dword) : Dword := v &&& 0xFFFFF00000000004

/-- BUSY of TLBINVC (R299). -/
def tlbinvBusy (s : State) (f : Nat) : Bool := (tblFind s.tlbInv f).isSome

/-- What waits at the site for a page tries again. -/
def wakeAts (s : State) (r : AtsRequest) : State :=
  { s with accesses := s.accesses.map fun a => if accessWaits s r a then { a with needsAts := false } else a
           copies := s.copies.map fun c => if c.needsAts && copySite c == r.site && c.pasid == r.pasid
             then { c with needsAts := false } else c }

/-- The translations asked of the host before an invalidation are asked anew, after a fresh walk (R299, R300). -/
def staleAts (s : State) (p : BitVec 20 → Nat → Nat → Bool) : State :=
  let old (r : AtsRequest) : Bool := p r.pasid r.va 12
  (s.ats.filter old).foldl wakeAts { s with ats := s.ats.filter fun r => !old r }

/-- A write of TLBINVC (R299): GO drops the selected translations from every TLB. -/
def tlbinvWrite (s : State) (f : Nat) (v : Dword) : State :=
  let s1 := setX s f 0x130 (tlbinvcFields v)
  if v.getLsbD 0 && !tlbinvBusy s f then
    let a := getX s f 0x128
    let all := v.getLsbD 2
    let ps := if all then partitionPasids s (ctxPart s f) else [v.extractLsb' 44 20]
    let named (p : BitVec 20) (base bits : Nat) : Bool := ps.contains p && (all || inPages (bitsOf a 56 18) (bitsOf a 17 0) base bits)
    let d := dropTlb s1 named
    staleAts { d.2 with tlbInv := tblInsert d.2.tlbInv f d.1 } named
  else s1

/-- R299. -/
def execTlbinvGo (f : Nat) (value : Dword) (s : State) : Result :=
  .next (gateCtx s f 0x130 fun t => tlbinvWrite t f value)

/-- The key under which the host's ATS invalidations stand among the invalidations in progress. -/
def atsInvKey : Nat := 129

/-- An invalidation is done when every access that it waits for has gone or entered a replay buffer (R300). -/
def invPlaced (s : State) (v : Invalidation) : Bool :=
  v.accesses.all fun n => !s.accesses.any fun a => a.id == n && !a.held

/-- R300: BUSY clears; for the host's request the part sends its completion. -/
def execTlbinvComplete (f : Nat) (s : State) : Result :=
  match tblFind s.tlbInv f with
  | none => .next s
  | some v =>
    .next (if invPlaced s v then
      { s with tlbInv := tblErase s.tlbInv f
               atsCompletions := if f = atsInvKey then s.atsCompletions + v.index else s.atsCompletions }
    else s)

/-! ### ATS and PRI (R300) -/

/-- R300: the host's invalidation of 4 KiB pages; requests that meet one in progress complete with it. -/
def execAtsInvalidateRequest (pasid : BitVec 20) (va : Dword) (pages : Nat) (s : State) : Result :=
  let hit (p : BitVec 20) (base bits : Nat) : Bool :=
    p == pasid && overlaps (va.toNat / 4096 * 4096) (pages * 4096) base (2 ^ bits)
  let old := tblGet { accesses := [], copies := [] } s.tlbInv atsInvKey
  .next { s with tlb := s.tlb.filter fun t => !(t.ats && hit t.pasid t.base t.bits)
                 tlbInv := tblInsert s.tlbInv atsInvKey
                   { accesses := old.accesses ++ (dropTlb s hit).1.accesses, copies := [], index := old.index + 1 } }

/-- The entry that a completion leaves in a cache: 2^stu pages of 4 KiB of host memory, at most the delegated range, with the permissions
given; the completion carries stu below the page bits of its address (R300) (log 55, DEDUCED). -/
def atsEntry (s : State) (r : AtsRequest) (hpa : Dword) (rd wr ex : Bool) : TlbEntry :=
  let range : Nat × Dword := match walk s r.pasid r.va with
    | .delegated level e => (levelBits level, e &&& 0x0010000000000000)
    | _ => (12, 0)
  let bits := Nat.min (12 + bitsOf hpa 11 0) range.1
  let nc := range.2
  let bit (b : Bool) (n : Nat) : Dword := if b then 1#64 <<< n else 0
  { site := r.site, pasid := r.pasid, base := r.va / 2 ^ bits * 2 ^ bits, bits := bits
    pa := hostBase + hpa.toNat % 2 ^ 57 / 2 ^ bits * 2 ^ bits
    pte := nc ||| 0x180 ||| bit rd 4 ||| bit wr 5 ||| bit ex 6, pteAddr := 0, ats := true }

/-- The global accesses that a copy may wait with: its addresses with their request codes and whether they write (R208, R211, R212). -/
def copyNext (c : Copy) : List (Dword × Nat × Bool) :=
  if c.begun then [(c.srcRow c.row + BitVec.ofNat 64 c.byte, 4, false), (c.dstRow c.row + BitVec.ofNat 64 c.byte, 5, true)]
  else (c.dw 6, 6, false) :: c.lineAddrs.map fun va => (va, 5, true)

/-- The permissions that a request asked for are those of a need. -/
def AtsRequest.asksFor (r : AtsRequest) (n : Need) : Bool := r.rd == n.reads && r.wr == n.writes && r.ex == n.fetches

/-- The host gave no translation with the permissions asked for: accesses, copies and guard reads enter the buffer with cause 7; a fetch
or a dispatcher finds the failed answer when it tries again (R301). -/
def failAts (s : State) (r : AtsRequest) : State :=
  match r.who with
  | .access =>
    let s1 := { s with ats := s.ats.filter fun x => !(x == r) }
    let s2 := (s1.accesses.filter fun a => accessWaits s1 r a && r.asksFor (needOf a.kind)).foldl (fun t a =>
      match getGroup t a.gid with
      | some g => holdAccess true (modAccess t a.id fun x => { x with needsAts := false }) g a 7
      | none => t) s1
    (s2.copies.filter fun c => c.needsAts && copySite c == r.site && c.pasid == r.pasid).foldl (fun t c =>
      match (copyNext c).find? fun n => n.1.toNat / 4096 * 4096 == r.va && r.asksFor (if n.2.2 then .write else .read) with
      | some n =>
        let word : Dword := match n.2.2, c.data with
          | true, some d => BitVec.ofNat 64 (natOfBytes d.1)
          | _, _ => 0
        failCopy (modCopy t c.id fun x => { x with needsAts := false }) { c with needsAts := false } (.held 7) n.1 n.2.1 word
      | none => t) s2
  | _ => { s with ats := s.ats.map fun x => if x == r then { x with pri := false, failed := true } else x }

/-- The answer of the host to one request (R300). -/
def answerAts (hpa : Dword) (rd wr ex : Bool) (s : State) (r : AtsRequest) : State :=
  let s1 := if rd || wr || ex then fillTlbs s (atsEntry s r hpa rd wr ex) else s
  if (!r.rd || rd) && (!r.wr || wr) && (!r.ex || ex) then
    wakeAts { s1 with ats := s1.ats.filter fun x => !(x == r) } r
  else if ((pasidEntry s1 r.pasid).map fun e => e.getLsbD 0) == some true then
    { s1 with ats := s1.ats.map fun x => if x == r then { x with pri := true } else x
              pagerequests := if s1.pagerequests.contains (r.pasid, r.va) then s1.pagerequests
                              else s1.pagerequests ++ [(r.pasid, r.va)] }
  else failAts s1 r

/-- The unanswered requests for a page, those with a page request out or those without. -/
def atsOf (s : State) (pasid : BitVec 20) (va : Dword) (pri : Bool) : List AtsRequest :=
  s.ats.filter fun r => r.pasid == pasid && r.va == va.toNat / 4096 * 4096 && r.pri == pri && !r.failed

/-- R300. -/
def execAtsTranslationCompletion (pasid : BitVec 20) (va hpa : Dword) (rd wr ex : Bool) (s : State) : Result :=
  .next (finishRuns ((atsOf s pasid va false).foldl (answerAts hpa rd wr ex) s))

/-- R300: after a page response the translation is asked for again; a failed response fails what waits. -/
def execPriPageResponse (pasid : BitVec 20) (va : Dword) (ok : Bool) (s : State) : Result :=
  let s1 := { s with pagerequests := s.pagerequests.filter fun x => !(x == (pasid, va.toNat / 4096 * 4096)) }
  let rs := atsOf s pasid va true
  .next (if ok then { s1 with ats := s1.ats.map fun x => if rs.contains x then { x with pri := false } else x }
    else finishRuns (rs.foldl failAts s1))

end Sys2Proof.Machine
end

