-- ==== Sys2Proof/Machine/Image.lean ====
section
/-! DEFINITION. Group images and the save area (R329, R330, R333, R334): writing a stopped position into memory, and reading it back. -/

namespace Sys2Proof.Machine

def dwBytes (v : Dword) : List Byte := bytesOf 8 v.toNat
def wordBytes (v : Word) : List Byte := bytesOf 4 v.toNat

/-- A doubleword of fields, each given by its lowest bit and its value. -/
def packFields (fs : List (Nat × Nat)) : Dword := BitVec.ofNat 64 ((fs.map fun f => f.2 * 2 ^ f.1).sum)

/-- The WIDTH and CLSIZE codes (R286, R333). -/
def widthCode (w : Nat) : Nat := Nat.log2 w - 3

/-! ### Writing (R329, R333) -/

/-- STATE of a fibre record (R333). -/
def slotCode (f : Fibre) : Nat :=
  match f.slot with
  | .free => 0
  | .live => 1
  | .ended => 2
  | .parked => 3

/-- The pending bits that the accesses in a list set for a lane. -/
def pendingIn (open_ : List Access) (lane : Nat) : Nat :=
  ((List.range 8).map fun k => if open_.any fun a => a.lane == lane && a.slot == some k then 2 ^ k else 0).sum

/-- An access that waits for a held access: the mark of a slot that scld sets (R241), and a trigger's point (R45). -/
def waitsHeld (s : State) (a : Access) : Bool :=
  (a.kind == .result && s.accesses.any fun b => b.held && b.word == a.word && b.gid == a.gid)
    || (a.kind == .trigger && s.accesses.any fun b => b.held && a.extra.contains b.id)

/-- The accesses of a group whose slots stay pending in its image (R329). -/
def openOf (s : State) (gid : Nat) : List Access := s.accesses.filter fun a => a.gid == gid && (a.held || waitsHeld s a)

/-- A fibre record of 32 bytes (R333). -/
def fibreBytes (f : Fibre) (pending : Nat) : List Byte :=
  dwBytes (packFields [(62, slotCode f), (0, f.pc.toNat % 2 ^ 57)])
    ++ dwBytes (packFields [(32, f.pw.toNat), (0, f.fstat.toNat)])
    ++ dwBytes (packFields [(44, f.wb % 1024), (36, f.progress % 256), (28, pending)])
    ++ dwBytes (packFields [(0, f.cycleh.toNat)])

def tokenBytes (k : Token) : List Byte :=
  dwBytes (if k.isOpen then 1 else 0) ++ dwBytes k.expected ++ dwBytes k.held

/-- The registers, page by page and row by row (R333). -/
def registerBytes (g : Group) : List Byte :=
  ((List.range g.pages).map fun p => ((List.range g.rows).map fun r =>
    ((List.range (Nat.min g.width 32)).map fun j => wordBytes (g.cell (32 * p + j) r)).flatten).flatten).flatten

/-- The landing slots, row 0 first (R209, R333). -/
def landingBytes (g : Group) : List Byte :=
  ((List.range g.lslots).map fun ls => ((List.range 64).map fun r =>
    ((List.range 32).map fun c => wordBytes (g.landCell ls r c)).flatten).flatten).flatten

/-- A copy as a restartable record of 128 bytes (R333); a row count of 0 marks a record that has not begun. -/
def copyBytes (c : Copy) : List Byte :=
  ((List.range 8).map fun k => dwBytes (c.dw k)).flatten
    ++ dwBytes (packFields [(32, c.recv % 16), (0, c.row % 2 ^ 32)]) ++ dwBytes (packFields [(0, c.byte)])
    ++ dwBytes (packFields [(0, if c.begun then c.rows else 0)]) ++ List.replicate 40 0

/-- The scoreboard slot of an access: a part of scld holds it in aop (R241). -/
def Access.ss (a : Access) : Nat :=
  match a.kind with
  | .scaleLoad _ => a.aop
  | _ => a.slot.getD 0

/-- WHO of a fibre's entry (R302). -/
def whoField (gid : Nat) (a : Access) (row opx : Nat) : Nat :=
  quarterOf gid % 4 * 2 ^ 30 + groupSlotOf gid * 2 ^ 26 + a.lane % 64 * 2 ^ 20 + a.ss % 8 * 2 ^ 17 + row % 1024 * 2 ^ 7 + opx % 128

/-- A replay entry of 32 bytes (R302) (log 64, DEDUCED). -/
def replayBytes (e : Replay) (who : Nat) : List Byte :=
  dwBytes e.va ++ dwBytes (packFields [(44, e.pasid.toNat), (40, e.cause), (36, e.req), (34, e.size), (32, e.sc), (0, who)])
    ++ dwBytes e.data ++ dwBytes e.data2

/-- The held accesses of a group with their entries, in program order. -/
def heldOf (s : State) (gid : Nat) : List (Access × Replay) :=
  (s.accesses.filter fun a => a.gid == gid && a.held).filterMap fun a =>
    (s.replay.find? fun e => e.2.who == .access a.id).map fun e => (a, e.2)

/-- The copies of a group, and the rows that the group holds in its core. -/
def copiesOfGroup (s : State) (gid : Nat) : List Copy := s.copies.filter fun c => !c.hub && c.gid == gid

/-- The part of a group's image through its scratchpad rows (R333), with the accesses that keep its slots pending. -/
def imageHead (s : State) (gid : Nat) (g : Group) (open_ : List Access) : List Byte :=
  let words := fun (n : Nat) (l : List Word) => ((List.range n).map fun i => wordBytes ((l[i]?).getD 0)).flatten
  dwBytes (packFields [(56, 1), (54, widthCode g.width), (43, g.rows), (40, g.lslots), (28, g.scratch), (26, g.grank), (24, g.stage)])
    ++ dwBytes (pairOf g.skipcnt g.launch)
    ++ dwBytes (packFields [(52, g.nstage - 1), (50, Nat.log2 g.clsize), (48, g.prio), (32, g.clz.toNat), (16, g.cly.toNat), (0, g.clx.toNat)])
    ++ dwBytes (pairOf g.c0 g.c1)
    ++ dwBytes (packFields [(9, if g.trig then 1 else 0), (0, g.docn)])
    ++ dwBytes (packFields [(16, (heldOf s gid).length), (0, (copiesOfGroup s gid).length)]) ++ List.replicate 16 0
    ++ words 16 g.maskWords ++ words 256 g.bounds ++ (g.tokens.map tokenBytes).flatten
    ++ ((List.range g.width).map fun i => fibreBytes (g.fibre i) (pendingIn open_ i)).flatten
    ++ registerBytes g ++ landingBytes g ++ readSpadBytes s (coreOf gid) (128 * g.spOrigin) (128 * g.scratch)

/-- A GROUP IMAGE (R333), with its scratchpad rows, copies and replay entries (log 63, DEDUCED). -/
def imageBytes (s : State) (gid : Nat) (g : Group) : List Byte :=
  imageHead s gid g (openOf s gid) ++ ((copiesOfGroup s gid).map copyBytes).flatten
    ++ ((heldOf s gid).map fun h => replayBytes h.2 (whoField gid h.1 h.2.row h.2.opx)).flatten

/-- The image of a group stopped for saving, its scratchpad rows as they stand now: they are saved with the position's last group (R329). -/
def withRows (s : State) (gid : Nat) (g : Group) : List Byte :=
  let at_ := 0x600 + 32 * g.width + (if g.width = 64 then 2 else 1) * g.rows * 4 * Nat.min g.width 32 + 8192 * g.lslots
  g.image.take at_ ++ readSpadBytes s (coreOf gid) (128 * g.spOrigin) (128 * g.scratch) ++ g.image.drop (at_ + 128 * g.scratch)

/-- The resident groups of a position in rank, then stage, order (R334). -/
def groupsOfPosition (s : State) (uid pos : Nat) : List (Nat × Group) :=
  let mine := s.groups.filter fun e => e.2.uid == uid && e.2.pos == pos
  ((List.range 4).map fun r => ((List.range 4).map fun t => mine.filter fun e => e.2.grank == r && e.2.stage == t).flatten).flatten

/-- A SAVED POSITION (R334): its header and its images. -/
def positionBytes (s : State) (launch : Word) (pos : Nat) (gs : List (Nat × Group)) : List Byte :=
  let body := (gs.map fun e => withRows s e.1 e.2).flatten
  dwBytes (launch.setWidth 64) ++ dwBytes (BitVec.ofNat 64 pos) ++ dwBytes (BitVec.ofNat 64 gs.length)
    ++ dwBytes (BitVec.ofNat 64 (64 + body.length)) ++ List.replicate 32 0 ++ body

/-- The save area of a context (R321): its base and its bytes. -/
def saveBase (s : State) (f : Nat) : Nat := bitsOf (getX s 0 (saveOffset f)) 51 16 * 2 ^ 16
def saveSize (s : State) (f : Nat) : Nat := bitsOf (getX s 0 (saveOffset f)) 15 0 * 2 ^ 20

/-- Where the next position goes: after those that the area holds; the operator tables take its first 32 KiB (R334) (log 66, DESIGN
CHOICE). -/
def saveTop (s : State) (f : Nat) : Nat := ((getCtx s f).saved.map fun p => p.addr + p.len).foldl Nat.max (saveBase s f + 2 ^ 15)

/-- What a group stopped for saving has in flight leaves the part (R329): its held accesses and their entries, its copies with their ranges. -/
def unloadHeld (s : State) (gid : Nat) : State :=
  let ids := (s.accesses.filter fun a => a.gid == gid).map fun a => a.id
  let copies := (copiesOfGroup s gid).map fun c => c.id
  let mine (w : ReplayWho) : Bool := match w with
    | .access id => ids.contains id
    | .copy id => copies.contains id
    | .fetch g _ => g == gid
  { s with accesses := s.accesses.filter fun a => !(a.gid == gid)
           copies := s.copies.filter fun c => !copies.contains c.id
           ranges := s.ranges.filter fun e => !copies.contains e.owner
           replay := s.replay.filter fun e => !mine e.2.who
           tickets := s.tickets.map fun e => if e.2.owner = some gid ∧ e.1 / 2048 = coreOf gid
             then (e.1, { e.2 with state := 3, owner := none }) else e }

/-- A trigger of the group that still waits for held accesses (R45): its lane, their places in the image, and the events that it follows. -/
def trigDueOf (s : State) (gid : Nat) (g : Group) : Option (Nat × List Nat × List Nat) :=
  (s.accesses.find? fun a => a.gid == gid && a.kind == .trigger).map fun a =>
    let held := heldOf s gid
    (a.lane, (List.range held.length).filter fun i => (held[i]?).any fun h => a.extra.contains h.1.id, triggerAfter s g a)

/-- What a saved position keeps of a group beside its image. -/
def seatOf (g : Group) : Group :=
  { g with regs := [], land := [], maskWords := [], bounds := [], tokens := [], image := []
           fibres := g.fibres.map fun f =>
             { passBreak := f.passBreak, done := f.done, floor := f.floor, waited := f.waited, fence := f.fence, fenceFloor := f.fenceFloor, fetchFloor := f.fetchFloor
               fetchFence := f.fetchFence, behind := f.behind, born := f.born } }

/-- SAVE a position all of whose groups are stopped: none when the area is too small (R331). Each image was made when its group stopped; where
an image stands in memory depends on those before it, so the position is written with its last group (log 67, DEDUCED). -/
def savePosition (s : State) (f uid pos : Nat) (swapped : Bool) : Option State :=
  let gs := groupsOfPosition s uid pos
  let launch := ((gs.map fun e => e.2.launch).headD 0)
  let bytes := positionBytes s launch pos gs
  let top := saveTop s f
  if saveBase s f + saveSize s f < top + bytes.length then none
  else
    let s1 := gs.foldl (fun t e => removeGroup t e.1) (writeTop s .caches (ctxKey s f) top bytes)
    let s2 := { s1 with rowHolds := s1.rowHolds.filter fun h => !(h.uid == uid && h.pos == pos) }
    let c := getCtx s2 f
    some (setCtx s2 f { c with saved := c.saved ++ [{ uid := uid, pos := pos, addr := top, len := bytes.length, waits := swapped, swapped := swapped
                                                      seats := gs.map fun e => (e.1, seatOf e.2) }] })

/-! ### Reading back (R330, R331) -/

/-- A field of n bytes at an offset of an image. -/
def imgNat (b : List Byte) (off n : Nat) : Nat := natOfBytes ((b.drop off).take n)
def imgDw (b : List Byte) (off : Nat) : Dword := BitVec.ofNat 64 (imgNat b off 8)
def imgWord (b : List Byte) (off : Nat) : Word := BitVec.ofNat 32 (imgNat b off 4)

/-- The offsets of the parts of an image after its fibre records (R333). -/
structure ImageLayout where
  regs : Nat
  land : Nat
  scratch : Nat
  copies : Nat
  replay : Nat
  total : Nat
  deriving DecidableEq, Repr

def layoutOf (width rows lslots scratch ncopy nrepl : Nat) : ImageLayout :=
  let regs := 0x600 + 32 * width
  let land := regs + (if width = 64 then 2 else 1) * rows * 4 * Nat.min width 32
  let sp := land + 8192 * lslots
  let copies := sp + 128 * scratch
  let replay := copies + 128 * ncopy
  { regs := regs, land := land, scratch := sp, copies := copies, replay := replay, total := replay + 32 * nrepl }

/-- A copy record keeps the format of R208: its version, kinds and reserved fields, and the shapes that R210 asks of them. -/
def copyRecordOk (r : CopyRecord) : Bool :=
  bitsOf (recDw r 0) 63 56 == 1 && decide (recDk r ≤ 5) && decide (recSk r ≤ 4) && !recReservedBad r && !recShapeBad r
    && !(recHs r && recDk r != 3) && !(recGd r && decide ((recDw r 6).toNat % 4 ≠ 0))

/-- The copies of an image keep the format: their records, and nothing outside their progress fields (R208, R333). -/
def copiesOk (b : List Byte) (off n : Nat) : Bool :=
  (List.range n).all fun i =>
    let o := off + 128 * i
    copyRecordOk ((List.range 8).map fun k => imgDw b (o + 8 * k)) && bitsOf (imgDw b (o + 64)) 63 36 == 0 && bitsOf (imgDw b (o + 72)) 63 32 == 0 && bitsOf (imgDw b (o + 80)) 63 32 == 0
      && imgNat b (o + 88) 40 == 0

/-- The replay entries of an image keep the format (R302): a request code that is used, and a cause. -/
def entriesOk (b : List Byte) (off n : Nat) : Bool :=
  (List.range n).all fun i =>
    let w := imgDw b (off + 32 * i + 8)
    decide (bitsOf w 39 36 ≤ 8) && decide (bitsOf w 43 40 ≤ 7)

/-- The header of an image keeps the format and its launch's shape (R331, R333). -/
def imageOk (l : Launch) (b : List Byte) : Bool :=
  let h := imgDw b 0
  let d := imgDw b 16
  bitsOf h 63 56 == 1 && bitsOf h 55 54 == widthCode l.width && bitsOf h 53 43 == l.regs && bitsOf h 42 40 == l.lslots
    && bitsOf h 39 28 == l.scratch && decide (bitsOf h 27 26 < l.cls) && decide (bitsOf h 25 24 < l.nstage) && bitsOf h 23 0 == 0
    && bitsOf d 63 54 == 0 && bitsOf d 53 52 == l.nstage - 1 && bitsOf d 51 50 == Nat.log2 l.cls
    && bitsOf (imgDw b 32) 63 10 == 0 && decide (bitsOf (imgDw b 32) 8 0 ≤ 256) && bitsOf (imgDw b 40) 63 32 == 0
    && imgNat b 0x30 16 == 0
    && (List.range 16).all (fun k => imgNat b (0x480 + 24 * k) 8 / 2 == 0)
    && (List.range l.width).all fun i =>
      let y := layoutOf l.width l.regs l.lslots l.scratch (imgNat b 0x28 2) (imgNat b 0x2A 2)
      copiesOk b y.copies (imgNat b 0x28 2) && entriesOk b y.replay (imgNat b 0x2A 2)
      && bitsOf (imgDw b (0x600 + 32 * i)) 61 57 == 0 && bitsOf (imgDw b (0x610 + 32 * i)) 63 54 == 0
        && bitsOf (imgDw b (0x610 + 32 * i)) 27 0 == 0 && bitsOf (imgDw b (0x618 + 32 * i)) 63 32 == 0

/-- A fibre from its record; its latches are invalid (R330). -/
def fibreFrom (b : List Byte) (off : Nat) : Fibre :=
  let d0 := imgDw b off
  let d2 := imgDw b (off + 16)
  { slot := match bitsOf d0 63 62 with
      | 0 => .free
      | 1 => .live
      | 2 => .ended
      | _ => .parked
    pc := d0 &&& 0x01FFFFFFFFFFFFFF, fstat := imgWord b (off + 8), pw := imgWord b (off + 12)
    wb := bitsOf d2 53 44, progress := bitsOf d2 43 36, cycleh := imgWord b (off + 24) }

/-- The registers of an image in a group (R333). -/
def registersFrom (b : List Byte) (off : Nat) (g : Group) : Group :=
  let n := Nat.min g.width 32
  (List.range (g.pages * g.rows * n)).foldl (fun acc i =>
    acc.setCell (32 * (i / n / g.rows) + i % n) (i / n % g.rows) (imgWord b (off + 4 * i))) { g with regs := [] }

/-- The landing slots of an image in a group. -/
def landingFrom (b : List Byte) (off : Nat) (g : Group) : Group :=
  (List.range (g.lslots * 2048)).foldl (fun acc i =>
    acc.setLand (i / 2048) (i / 32 % 64) (i % 32) (imgWord b (off + 4 * i))) { g with land := [] }

/-- A group from its image (R330): what the image does not hold is as in a new group. -/
def groupFrom (l : Launch) (pos : Nat) (b : List Byte) : Group :=
  let h := imgDw b 0
  let g := launchGroup l pos (bitsOf h 27 26) (bitsOf h 25 24)
  let y := layoutOf g.width g.rows g.lslots g.scratch 0 0
  let g1 : Group :=
    { g with skipcnt := imgWord b 8, c0 := imgWord b 24, c1 := imgWord b 28, trig := (imgDw b 32).getLsbD 9
             docn := bitsOf (imgDw b 32) 8 0
             maskWords := (List.range 16).map fun k => imgWord b (0x40 + 4 * k)
             bounds := (List.range 256).map fun k => imgWord b (0x80 + 4 * k)
             tokens := (List.range 16).map fun k =>
               { isOpen := (imgDw b (0x480 + 24 * k)).getLsbD 0, expected := imgDw b (0x488 + 24 * k), held := imgDw b (0x490 + 24 * k) }
             fibres := (List.range g.width).map fun i => fibreFrom b (0x600 + 32 * i) }
  landingFrom b y.land (registersFrom b y.regs g1)

/-- The access kind of a saved entry's request code. -/
def kindOfReq (req : Nat) : AccessKind :=
  match req with
  | 1 => .store
  | 2 => .atomic
  | 3 => .reduction
  | 8 => .scaleLoad 0
  | _ => .load

/-- The pending bit of a slot in an image's fibre record. -/
def pendingFrom (b : List Byte) (lane k : Nat) : Bool := (imgDw b (0x610 + 32 * lane)).getLsbD (28 + k)

/-- An access from its saved entry (R302): DATA and WHO hold everything that the replay needs, with the pending bits of the fibres that a part
of scld writes (log 68, DEDUCED). Its events follow what those of its fibre follow. -/
def accessFrom (b : List Byte) (off gid id base : Nat) (g : Group) : Access :=
  let w := imgDw b (off + 8)
  let req := bitsOf w 39 36
  let opx := bitsOf w 6 0
  let row := bitsOf w 16 7 % g.rows
  let ma := req == 2 || req == 3
  let ss := bitsOf w 19 17
  let f := g.fibre (bitsOf w 25 20)
  { id := id, word := if req = 8 then base + ss else id, gid := gid, lane := bitsOf w 25 20, slot := if req = 8 then none else some ss
    kind := kindOfReq req, after := f.floor.toList ++ g.since.toList, behind := f.behind
    addr := imgDw b off, size := 2 ^ bitsOf w 35 34
    sz := if req = 8 then (imgNat b off 8) % 512 else if ma then 0 else opx / 16
    hint := if ma then 0 else opx / 4 % 4, aop := if ma then opx / 8 else if req = 8 then ss else 0, aty := if ma then opx % 8 else 0, scope := bitsOf w 33 32
    least := if !ma && req != 8 && opx / 4 % 4 == 3 then 2 else 0
    data := imgDw b (off + 16), data2 := imgDw b (off + 24), row := row, nregs := 2
    lanes := if req = 8 then List.replicate 32 row else [], extra := if req = 8 then (List.range 32).filter fun l => pendingFrom b l ss else [] }

/-- The weight-store bytes that a hashed copy has written so far, in row order (R315) (log 65, DEDUCED). -/
def hashedSoFar (s : State) (c : Copy) : List Byte :=
  if c.hs then
    ((List.range (c.row + 1)).map fun r =>
      match weightPlace c (c.dstRow r) with
      | some (die, off) => (List.range (if r < c.row then c.len else c.byte)).map fun i => readWeight s die (off + i)
      | none => []).flatten
  else []

/-- RESUME a saved copy on a group's new core, with a new place and new range entries (R330). One that had begun goes on from its progress
once COPY_BEGIN has resolved its handles and owned its lines again: its row count stands in its record, and its guard has been read. Its
events follow that of its restoration. -/
def resumeCopy (b : List Byte) (off gid : Nat) (s : State) : State :=
  match getGroup s gid with
  | none => s
  | some g =>
    let record := (List.range 8).map fun k => imgDw b (off + 8 * k)
    let rows := imgNat b (off + 80) 4
    let kept := if rows = 0 then record
      else setAt (setAt record 0 (record.headD 0 &&& ~~~(1#64 <<< 41))) 4 (withBits (record.getD 4 0) 31 0 rows)
    let id := s.nextId
    modCopy (acceptCopy s gid g kept (s.events - 1)).2 id fun c =>
      let c := { c with rows := rows, row := imgNat b (off + 64) 4, recv := bitsOf (imgDw b (off + 64)) 35 32, byte := imgNat b (off + 72) 4 }
      { c with hashed := hashedSoFar s c }

/-- REPLAY a saved entry on the group's new core, as a new access (R304, R330). -/
def resumeAccess (b : List Byte) (off gid base : Nat) (s : State) : State :=
  match getGroup s gid with
  | none => s
  | some g =>
    let a := { accessFrom b off gid s.nextId base g with issued := s.clock }
    translateAccess true (addAccess { s with nextId := s.nextId + 1 } a) a.id

/-- The marks that keep the slots of scld pending in the fibres that its parts write (R241). -/
def resumeMarks (b : List Byte) (gid base : Nat) (s : State) : State :=
  let parts := s.accesses.filter fun a => a.gid == gid && decide (base ≤ a.word) && decide (a.word < base + 8)
  match getGroup s gid with
  | none => s
  | some g =>
    ((parts.map fun a => a.aop).eraseDups).foldl (fun t k =>
      ((List.range g.width).filter fun l => pendingFrom b l k && !slotPending s gid l k).foldl (fun u l =>
        addAccess { u with nextId := u.nextId + 1 }
          { id := u.nextId, word := base + k, gid := gid, lane := l, slot := some k, kind := .result, addr := 0, size := 0 }) t) s

/-- The fences that fibres had passed and not yet waited out hold for their replayed accesses (R195). -/
def resumeFences (s : State) (gid : Nat) : State :=
  modGroup s gid fun g => { g with fibres := g.fibres.map fun f =>
    { f with fence := f.fence.map fun x => (x.1, s.nextId), fetchFence := f.fetchFence.map fun x => (x.1, s.nextId) } }

/-- A trigger that had still to wait waits for the replayed accesses (R45). -/
def resumeTrigger (s : State) (gid base : Nat) : State :=
  match getGroup s gid with
  | none => s
  | some g =>
    match g.trigDue with
    | none => s
    | some (lane, places, after) =>
      let held := s.accesses.filter fun a => a.gid == gid && decide (base ≤ a.id) && a.kind != .result
      let mine := places.filterMap fun i => held[i]?
      addAccess (modGroup { s with nextId := s.nextId + 1 } gid fun g => { g with trigDue := none })
        { id := s.nextId, word := s.nextId, gid := gid, lane := lane, slot := none, kind := .trigger, addr := 0, size := 0
          after := after, extra := mine.map fun a => a.id, lanes := mine.map fun a => a.word }

/-- What a group's image brings beside the group and its rows: copies and held accesses. -/
def resumeHeld (s : State) (gid : Nat) (b : List Byte) : State :=
  match getGroup s gid with
  | none => s
  | some g =>
    let ncopy := imgNat b 0x28 2
    let nrepl := imgNat b 0x2A 2
    let y := layoutOf g.width g.rows g.lslots g.scratch ncopy nrepl
    let s2 := (List.range ncopy).foldl (fun t i => resumeCopy b (y.copies + 128 * i) gid t) s
    let base := s2.nextId
    let s3 := (List.range nrepl).foldl (fun t i => resumeAccess b (y.replay + 32 * i) gid base t) { s2 with nextId := base + 8 }
    resumeTrigger (resumeFences (resumeMarks b gid base s3) gid) gid base

/-- What a placed group's image brings beside the group: its rows, copies and held accesses. -/
def resumeGroup (s : State) (gid : Nat) (b : List Byte) : State :=
  match getGroup s gid with
  | none => s
  | some g =>
    let y := layoutOf g.width g.rows g.lslots g.scratch 0 0
    resumeHeld (writeSpadBytes s (coreOf gid) (128 * g.spOrigin) ((b.drop y.scratch).take (128 * g.scratch))) gid b

/-- The images of a saved position, one after another; none when one breaks the format (R331). -/
def splitImages (l : Launch) (b : List Byte) : Nat → Option (List (List Byte))
  | 0 => some []
  | n + 1 =>
    let y := layoutOf l.width l.regs l.lslots l.scratch (imgNat b 0x28 2) (imgNat b 0x2A 2)
    if imageOk l b && decide (y.total ≤ b.length) then (splitImages l (b.drop y.total) n).map fun r => b.take y.total :: r else none

/-- A group of a saved position with what its seat keeps. -/
def withSeat (seats : List (Nat × Group)) (g : Group) : Group :=
  match seats.find? fun e => e.2.grank == g.grank && e.2.stage == g.stage with
  | none => g
  | some e =>
    { g with uncommitted := e.2.uncommitted, since := e.2.since, engines := e.2.engines, trigDue := e.2.trigDue
             fibres := (g.fibres.zip (List.range g.width)).map fun x =>
               let k := e.2.fibre x.2
               { x.1 with passBreak := k.passBreak, done := k.done, floor := k.floor, waited := k.waited, fence := k.fence, fenceFloor := k.fenceFloor
                          fetchFloor := k.fetchFloor, fetchFence := k.fetchFence, behind := k.behind, born := k.born } }

/-- Where a group stood is still free: its slot, rows, landing slots and scratchpad rows. -/
def seatFree (s : State) (gid : Nat) (g : Group) : Bool :=
  (seatsOn s (quarterOf gid)).all (fun e => e.1 != gid && (e.2.lsOrigin.all fun k => !g.lsOrigin.contains k)
      && (!overlaps e.2.rowOrigin (rowsNeeded e.2.width e.2.rows) g.rowOrigin (rowsNeeded g.width g.rows)
        || (e.2.rowOrigin == g.rowOrigin && e.2.uid == g.uid && !overlaps e.2.laneOrigin e.2.width g.laneOrigin g.width)))
    && s.rowHolds.all fun h => !(h.core == coreOf gid && overlaps h.first h.count g.spOrigin g.scratch)

/-- Place groups where they stood (R331): none when a place is taken. -/
def placeBack (s : State) : List (Nat × Group) → Option State
  | [] => some s
  | (gid, g) :: rest => if seatFree s gid g then placeBack (sitDown s gid { g with admitted := s.nextId }) rest else none

/-- How the restore of a position ends. -/
inductive Restored
  | placed (s : State) | noRoom | malformed

/-- The groups of a saved position with their images; none when one breaks the format (R331). -/
def savedGroups (s : State) (l : Launch) (p : SavedPos) : Option (List (Group × List Byte) × State) :=
  let r := readTop s .caches (ctxKey s l.ctx) p.addr p.len
  let n := imgNat r.1 16 8
  if imgNat r.1 8 8 ≠ p.pos ∨ n = 0 ∨ 16 < n ∨ imgNat r.1 24 8 ≠ p.len ∨ imgNat r.1 32 32 ≠ 0 then none
  else (splitImages l (r.1.drop 64) n).map fun images => (images.map fun b => (withSeat p.seats (groupFrom l p.pos b), b), r.2)

/-- What the images of placed groups bring; the position is no longer saved. -/
def resumePosition (s : State) (l : Launch) (p : SavedPos) (placed : List (Nat × List Byte)) : State :=
  let c := getCtx s l.ctx
  placed.foldl (fun t x => resumeGroup t x.1 x.2)
    (setCtx s l.ctx { c with saved := c.saved.filter fun x => !(x.uid == p.uid && x.pos == p.pos) })

/-- RESTORE a saved position whole, at a placement made afresh (R330): it waits when nothing has room for it. -/
def restorePosition (s : State) (l : Launch) (p : SavedPos) : Restored :=
  match savedGroups s l p with
  | none => .malformed
  | some (gs, s0) =>
    let stages := (List.range 4).map fun t => gs.filter fun x => x.1.stage == t
    match placePosition s0 l.part (launchDies s0 l) (stages.map fun x => x.map Prod.fst) with
    | none => .noRoom
    | some (gids, s1) => .placed (resumePosition s1 l p (gids.zip (stages.flatten.map Prod.snd)))

/-- RESTORE a saved position in place (R331), or afresh when something else has taken its place meanwhile. -/
def restoreBack (s : State) (l : Launch) (p : SavedPos) : Restored :=
  match savedGroups s l p with
  | none => .malformed
  | some (gs, s0) =>
    let put := gs.filterMap fun x => (p.seats.find? fun e => e.2.grank == x.1.grank && e.2.stage == x.1.stage).map fun e =>
      (e.1, { x.1 with rowOrigin := e.2.rowOrigin, laneOrigin := e.2.laneOrigin, spOrigin := e.2.spOrigin, lsOrigin := e.2.lsOrigin })
    match placeBack s0 put with
    | some s1 => .placed (resumePosition s1 l p ((put.map Prod.fst).zip (gs.map Prod.snd)))
    | none => restorePosition s l p

/-! ### Operator tables in the save area (R334) -/

/-- An entry as 16 bytes, bit 31 of the first word set for a loaded one (R334, R238). -/
def opBytes (d : Option OpDesc) : List Byte :=
  match d with
  | some d => wordBytes (d.ctl ||| 0x80000000) ++ wordBytes d.ident ++ wordBytes d.pad ++ wordBytes d.tail
  | none => List.replicate 16 0

def opKeyOf (core f n : Nat) : Nat := (core * 129 + f) * 16 + n

/-- The context's entries 8 to 15 of every core, as the save area holds them. -/
def opTableBytes (s : State) (f : Nat) : List Byte :=
  ((List.range 256).map fun c => ((List.range 8).map fun i => opBytes (tblFind s.opTab (opKeyOf c f (8 + i)))).flatten).flatten

/-- The entries of a context leave the cores. -/
def dropOps (s : State) (f : Nat) : State := { s with opTab := s.opTab.filter fun e => e.1 / 16 % 129 != f }

/-- Write the entries to the save area (R334). -/
def saveOps (s : State) (f : Nat) : State := dropOps (writeTop s .caches (ctxKey s f) (saveBase s f) (opTableBytes s f)) f

/-- One entry from the save area. -/
def opFrom (b : List Byte) (f : Nat) (s : State) (k : Nat) : State :=
  let off := 16 * k
  if (imgWord b off).getLsbD 31 then
    let d : OpDesc :=
      { ctl := imgWord b off &&& 0x7FFFFFFF, ident := imgWord b (off + 4), pad := imgWord b (off + 8), tail := imgWord b (off + 12) }
    { s with opTab := tblInsert s.opTab (opKeyOf (k / 8) f (8 + k % 8)) d }
  else s

/-- The entries return to each core (R330). -/
def restoreOps (s : State) (f : Nat) : State :=
  let r := readTop s .caches (ctxKey s f) (saveBase s f) (2 ^ 15)
  (List.range 2048).foldl (opFrom r.1 f) r.2

end Sys2Proof.Machine
end

