-- ==== Sys2Proof/Machine/Submit.lean ====
section
/-! DEFINITION. Submission (R278 to R281) and the command lists that dispatchers carry out (R282 to R286, R293). -/

namespace Sys2Proof.Machine

/-! ### Submission pages (R278, R279) -/

def dispOf (s : State) (f q : Nat) : Nat := bitsOf (sqcfg s f q) 43 38
def depthOf (s : State) (f q : Nat) : Nat := Nat.max (bitsOf (sqcfg s f q) 37 30) 15 + 1
/-- The queue accepts submissions: its EN is set and its function's context exists (R332, R348). -/
def queueEnabled (s : State) (f q : Nat) : Bool :=
  readyBit s 0 && decide (f < 129) && decide (q < 64) && ctxExists s f && (sqcfg s f q).getLsbD 0

/-- The records of the queue are carried out: its function's context exists (R332). -/
def queueLive (s : State) (f q : Nat) : Bool := readyBit s 0 && decide (f < 129) && decide (q < 64) && ctxExists s f

/-- The submission is answered with retry (R279). -/
def mustRetry (s : State) (f q : Nat) : Bool :=
  !queueEnabled s f q || decide (depthOf s f q ≤ (getQueue s f q).pending.length)
    || tblGet 0 s.intake (dispOf s f q) == hubClock s + 1

/-- A context has work while it holds an accepted record or an unended launch (R323). -/
def hasWork (s : State) (f : Nat) : Bool :=
  s.launches.any (fun l => l.ctx == f)
    || s.queues.any fun e => e.1 / 64 == f && (!e.2.pending.isEmpty || e.2.cur.isSome || !e.2.ending.isEmpty)

/-- ACCEPT (R279): the record enters the queue whole, at a point of time order after some events. -/
def acceptRecord (s : State) (f q : Nat) (record : List Dword) (after : List Nat) : State :=
  let v := getQueue s f q
  let s1 := setQueue (noteMark s { agent := .dispatcher (queueKey f q), after := after }) f q { v with pending := v.pending ++ [record] }
  let s2 := { s1 with intake := tblSet 0 s1.intake (dispOf s f q) (hubClock s + 1) }
  if hasWork s f then s2 else setCtx s2 f { getCtx s2 f with workSince := some s2.clock }

/-- A submission after some events of its submitter: whether it is accepted, and the state after it. -/
def submit (s : State) (f q : Nat) (record : List Dword) (after : List Nat) : Bool × State :=
  if mustRetry s f q then (false, s) else (true, acceptRecord s f q record after)

/-- The completion of a Deferrable Memory Write to a submission page: 0 Successful, 1 Unsupported Request, 2 Request Retry (R278, R279,
R344). -/
def completeDmw (s : State) (f q status : Nat) : State := { s with completions := s.completions ++ [(f, q, status)] }

/-- R278, R279: a Deferrable Memory Write to a submission page. A misaligned one, and one that is not of 128 bytes within the page, is
completed as an Unsupported Request (log 122, DEDUCED). -/
def execSubmitDmw (f q offset : Nat) (record : List Dword) (s : State) : Result :=
  .next (if !readyBit s 18 || decide (129 ≤ f) || decide (64 ≤ q) then s
    else if offset % 128 ≠ 0 ∨ 4096 ≤ offset ∨ record.length ≠ 16 then completeDmw s f q 1
    else
      let r := submit s f q record []
      completeDmw r.2 f q (if r.1 then 0 else 2))

/-- R278: any other store to a submission page is discarded. -/
def execSubmissionPageStore (_ _ _ : Nat) (s : State) : Result := .next s

/-! ### Taking a record (R280) -/

def recordDw (r : List Dword) (k : Nat) : Dword := (r[k]?).getD 0

/-- The record is valid: VER 1, reserved fields 0, LIST and STATUS aligned. -/
def recordOk (r : List Dword) : Bool :=
  bitsOf (recordDw r 0) 63 56 == 1 && bitsOf (recordDw r 0) 55 32 == 0 && (r.drop 3).all (fun d => d == 0)
    && (recordDw r 1).toNat % 32 == 0 && (recordDw r 2).toNat % 8 == 0

/-- End the current record of a queue with an error at its current entry (R281). -/
def failRun (s : State) (f q : Nat) (r : Run) (code : Nat) : State :=
  endRun s f q (if r.code = 0 then { r with code := code, errIndex := r.index } else r)

/-- A dispatcher's access of n bytes has failed: CODE 8 (R281); one that fails at its address is logged (R355, R358). -/
def failRead (s : State) (f q : Nat) (r : Run) (va : Dword) (n : Nat) (need : Need) : State := failRun (hubLog s f q va n need) f q r 8

/-- R280: the dispatcher takes the next record of a queue; an invalid one ends with CODE 1. -/
def execDispatchRecord (f q : Nat) (s : State) : Result :=
  let v := getQueue s f q
  match v.cur, v.pending with
  | none, rec0 :: rest =>
    if !queueLive s f q then .next s
    else
      let id := takeId s
      let r : Run := { id := id.1, tag := lowWord (recordDw rec0 0), status := recordDw rec0 2, pc := recordDw rec0 1 }
      let s1 := setQueue id.2 f q { v with pending := rest, cur := some r }
      .next (if recordOk rec0 then s1 else failRun s1 f q r 1)
  | _, _ => .next s

/-! ### Entries (R282, R283) -/

def cmdType (e : List Dword) : Nat := bitsOf (recordDw e 0) 63 60
def cmdDep (e : List Dword) : Nat := bitsOf (recordDw e 0) 59 58

def cmdWide (e : List Dword) : Bool := (recordDw e 0).getLsbD 53
def cmdBytes (e : List Dword) : Nat := if cmdWide e then 8 else 4

/-- Address and high halves of a wait-on-value, skip-if or signal entry; the mask is DW3. -/
def valueShapeOk (e : List Dword) (mask : Bool) : Bool :=
  decide ((recordDw e 1).toNat % cmdBytes e = 0)
    && (cmdWide e || (highWord (recordDw e 2) == 0 && (!mask || highWord (recordDw e 3) == 0)))

/-- CMP of an entry on what a location holds (R283). -/
def cmpHolds (e : List Dword) (v : Nat) : Bool :=
  let a := v &&& (recordDw e 3).toNat
  let b := (recordDw e 2).toNat &&& (recordDw e 3).toNat
  match bitsOf (recordDw e 0) 55 54 with
  | 0 => decide (a = b)
  | 1 => decide (a ≠ b)
  | 2 => decide (b ≤ a)
  | _ => decide (a < b)

/-- Every earlier launch of the record has triggered, or completed. -/
def launchesTriggered (s : State) (r : Run) : Bool :=
  r.launches.all fun u => match findLaunch s u with
    | none => true
    | some l => decide (l.groups ≤ l.trigGroups)

/-- The DEP condition of an entry holds (R282). -/
def depHolds (s : State) (r : Run) (dep : Nat) : Bool :=
  if dep = 0 then true
  else if dep = 1 then launchesTriggered s r && r.copies.all fun c => !s.copies.any fun k => k.id == c
  else runDone s r

/-- The current record of a queue is at an entry that it could carry out now. -/
def canProceed (s : State) (key : Nat) : Bool :=
  match (tblGet {} s.queues key).cur with
  | none => false
  | some r =>
    let f := key / 64
    let q := key % 64
    r.regionWait.isNone && queueLive s f q &&
      if r.waiting then
        !hubWaits s f q (recordDw r.entry 1) .read && match hubRead { s with backs := [] } f q (recordDw r.entry 1) (cmdBytes r.entry) with
          | none => true
          | some (bs, _) => cmpHolds r.entry (natOfBytes bs)
      else
        !hubWaits s f q r.pc .read && match hubReadDwords s f q r.pc 4 with
          | none => true
          | some (e, _) => decide (12 ≤ cmdType e) || cmdDep e == 3 || depHolds s r (cmdDep e)

/-- It is the queue's turn in its dispatcher's ring (R283): no queue between the one served last and this one can proceed. -/
def ringTurn (s : State) (f q : Nat) : Bool :=
  let key := queueKey f q
  let d := dispOf s f q
  let last := tblGet 0 s.ring d
  let others := (s.queues.map Prod.fst).filter fun k => k != key && dispOf s (k / 64) (k % 64) == d
  let between (k : Nat) : Bool := if last ≤ key then decide (last ≤ k) && decide (k < key) else decide (last ≤ k) || decide (k < key)
  others.all fun k => !(between k && canProceed s k)

/-- The dispatcher has served a queue: the ring goes on after it. -/
def served (s : State) (f q : Nat) : State := { s with ring := tblSet 0 s.ring (dispOf s f q) (queueKey f q + 1) }

/-- The DEP condition of an entry takes a point of time order, after the triggers and completions that it waits for (R282). -/
def passDep (s : State) (f q : Nat) (r : Run) (dep : Nat) : State :=
  if dep = 0 then s else noteMark s { agent := .dispatcher (queueKey f q), after := r.after }

/-- CARRY OUT an entry of a type (R281 to R284): the entry is read, and its effect follows when its DEP condition holds. A read that
faults ends the record with CODE 8, an invalid type or DEP with CODE 1. -/
def carryOut (s : State) (f q type : Nat) (h : State → Run → List Dword → State) : Result :=
  match (getQueue s f q).cur with
  | none => .next s
  | some r =>
    if r.waiting || r.regionWait.isSome || !queueLive s f q then .next s
    else if hubWaits s f q r.pc .read then .next (hubAsk s f q r.pc .read)
    else if !ringTurn s f q then .next s
    else
      match hubReadDwords s f q r.pc 4 with
      | none => .next (failRead (served s f q) f q r r.pc 32 .read)
      | some (e, s1) =>
        if 12 ≤ cmdType e ∨ cmdDep e = 3 then .next (failRun (served s1 f q) f q r 1)
        else if cmdType e ≠ type ∨ !depHolds s r (cmdDep e) then .next s
        else .next (h (passDep (served s1 f q) f q r (cmdDep e)) r e)

def setRun (s : State) (f q : Nat) (r : Run) : State := setQueue s f q { getQueue s f q with cur := some r }

/-- The record goes on at an address. -/
def goTo (s : State) (f q : Nat) (r : Run) (pc : Dword) : State :=
  setRun s f q { r with pc := pc, index := r.index + 1, waiting := false, regionWait := none, entry := [] }
def goOn (s : State) (f q : Nat) (r : Run) : State := goTo s f q r (r.pc + 32)

/-! ### Launches (R283, R286) -/

/-- A launch descriptor keeps its limits (R286). -/
def descriptorOk (d : List Dword) : Bool :=
  let w := recordDw d
  let width := 8 * 2 ^ bitsOf (w 3) 1 0
  let n := bitsOf (w 3) 19 9
  (w 0).toNat % 4 == 0 && decide ((w 0).toNat < 2 ^ 57)
    && decide ((bitsOf (w 2) 15 0 + 1) * (bitsOf (w 2) 31 16 + 1) * (bitsOf (w 2) 47 32 + 1) ≤ 2 ^ 32)
    && bitsOf (w 2) 49 48 != 3 && decide (bitsOf (w 2) 58 56 ≤ 4) && bitsOf (w 2) 63 59 == 0
    && decide (bitsOf (w 3) 8 2 < width) && decide (n % 8 = 0) && decide (8 ≤ n) && decide (n ≤ (if width = 64 then 512 else 1024))
    && decide (bitsOf (w 3) 31 20 ≤ 3072) && bitsOf (w 3) 63 48 == 0 && (d.drop 5).all fun x => x == 0

/-- The launch that a descriptor declares (R37, R286). -/
def launchOf (s : State) (f q : Nat) (r : Run) (d : List Dword) : Launch :=
  let w := recordDw d
  { uid := s.nextId, ctx := f, part := ctxPart s f, queue := q, record := r.id, pasid := queuePasid s f q, entry := w 0, arg := w 1
    gx := bitsOf (w 2) 15 0 + 1, gy := bitsOf (w 2) 31 16 + 1, gz := bitsOf (w 2) 47 32 + 1, cls := 2 ^ bitsOf (w 2) 49 48
    nstage := bitsOf (w 2) 51 50 + 1, prio := bitsOf (w 2) 53 52, fullres := (w 2).getLsbD 54, swap := (w 2).getLsbD 55
    lslots := bitsOf (w 2) 58 56, width := 8 * 2 ^ bitsOf (w 3) 1 0, live := bitsOf (w 3) 8 2 + 1, regs := bitsOf (w 3) 19 9
    scratch := bitsOf (w 3) 31 20, rto := bitsOf (w 3) 47 32, launch := lowWord (w 4), regions := highWord (w 4)
    lastProgress := s.clock }

/-- The reserved fields of an entry: bits of DW0 below DEP that it does not use, and whole doublewords (R283). -/
def reservedZero (e : List Dword) (used : Dword) (dws : List Nat) : Bool :=
  (recordDw e 0 &&& 0x03FFFFFFFFFFFFFF &&& ~~~used) == 0 && dws.all fun k => recordDw e k == 0

/-- R283. -/
def execCmdLaunch (f q : Nat) (s : State) : Result :=
  carryOut s f q 0 fun s r e =>
    let a := recordDw e 1
    if !reservedZero e 0 [2, 3] || decide (a.toNat % 128 ≠ 0) then failRun s f q r 1
    else if hubWaits s f q a .read then hubAsk s f q a .read
    else
      match hubReadDwords s f q a 16 with
      | none => failRead s f q r a 128 .read
      | some (d, s1) =>
        if !descriptorOk d then failRun s1 f q r 2
        else
          let l := { launchOf s1 f q r d with order := some (s1.events - 1) }
          goOn { s1 with nextId := s1.nextId + 1, launches := s1.launches ++ [l] } f q { r with launches := r.launches ++ [l.uid] }

/-! ### Copies (R283) -/

/-- The record of a copy entry keeps the limits of R283 and meets no row of the code table. -/
def hubRecordOk (d : CopyRecord) : Bool :=
  bitsOf (recDw d 0) 63 56 == 1 && (recSk d == 0 || recSk d == 3) && (recDk d == 0 || recDk d == 3) && recMcast d == 0
    && !recCounts d && !recGd d && !recReservedBad d && !recShapeBad d && !(recHs d && recDk d != 3)

/-- R283. -/
def execCmdCopy (f q : Nat) (s : State) : Result :=
  carryOut s f q 1 fun s r e =>
    let a := recordDw e 1
    if !reservedZero e 0 [2, 3] || decide (a.toNat % 64 ≠ 0) then failRun s f q r 1
    else if hubWaits s f q a .read then hubAsk s f q a .read
    else
      match hubReadDwords s f q a 8 with
      | none => failRead s f q r a 64 .read
      | some (d, s1) =>
        if !hubRecordOk d then failRun s1 f q r 1
        else
          let c : Copy := { id := s1.nextId, hub := true, ctx := f, part := ctxPart s f, pasid := queuePasid s f q, gid := 0, core := 0
                            place := r.index, owner := s1.nextId, record := d, receivers := [0], source := none
                            own := some (s1.events - 1) }
          goOn { s1 with nextId := s1.nextId + 1, copies := s1.copies ++ [c] } f q { r with copies := r.copies ++ [c.id] }

/-! ### Values (R283) -/

/-- Read the location of an entry: what follows with its value, or CODE 8. -/
def withLocation (s : State) (f q : Nat) (r : Run) (e : List Dword) (h : State → Nat → State) : State :=
  let a := recordDw e 1
  if hubWaits s f q a .read then hubAsk s f q a .read
  else
    match hubRead s f q a (cmdBytes e) with
    | none => failRead s f q r a (cmdBytes e) .read
    | some (bs, s1) => h s1 (natOfBytes bs)

/-- R283: the first read of the location; while CMP does not hold the record waits. -/
def execCmdWaitOnValue (f q : Nat) (s : State) : Result :=
  carryOut s f q 2 fun s r e =>
    if !reservedZero e 0x00E0000000000000 [] || !valueShapeOk e true then failRun s f q r 1
    else withLocation s f q r e fun s1 v =>
      if cmpHolds e v then goOn s1 f q r else setRun s1 f q { r with waiting := true, entry := e }

/-- R283: one more read of the location; when CMP holds, or the read fails, the record goes on or ends in its queue's turn. -/
def execWaitOnValuePoll (f q : Nat) (s : State) : Result :=
  match (getQueue s f q).cur with
  | none => .next s
  | some r =>
    .next (if r.waiting && queueLive s f q && ringTurn s f q then
      let t := withLocation s f q r r.entry fun s1 v => if cmpHolds r.entry v then goOn s1 f q r else s1
      if (getQueue t f q).cur.any fun x => x.waiting then t else served t f q
    else s)

/-- R283: reads once; the next N entries are passed over when CMP holds. -/
def execCmdSkipIf (f q : Nat) (s : State) : Result :=
  carryOut s f q 4 fun s r e =>
    let n := bitsOf (recordDw e 0) 47 32
    if !reservedZero e 0x00E0FFFF00000000 [] || !valueShapeOk e true || n == 0 then failRun s f q r 1
    else withLocation s f q r e fun s1 v =>
      goTo s1 f q r (if cmpHolds e v then r.pc + BitVec.ofNat 64 (32 * (n + 1)) else r.pc + 32)

/-- R283: a store, or an atomic add, as one access. -/
def execCmdSignal (f q : Nat) (s : State) : Result :=
  carryOut s f q 3 fun s r e =>
    let a := recordDw e 1
    let n := cmdBytes e
    let need : Need := if (recordDw e 0).getLsbD 55 then .both else .write
    if !reservedZero e 0x00A0000000000000 [3] || !valueShapeOk e false then failRun s f q r 1
    else if hubWaits s f q a need then hubAsk s f q a need
    else
      match (if need = .both then hubAdd s f q a n (recordDw e 2).toNat else hubWrite s f q a (bytesOf n (recordDw e 2).toNat)) with
      | none => failRead s f q r a n need
      | some s1 => goOn s1 f q r

/-! ### Control (R283) -/

/-- R283 (log 60, DEDUCED). -/
def execCmdJump (f q : Nat) (s : State) : Result :=
  carryOut s f q 5 fun s r e =>
    if !reservedZero e 0 [2, 3] || decide ((recordDw e 1).toNat % 32 ≠ 0) then failRun s f q r 1
    else goTo s f q r (recordDw e 1)

/-- R283: depth 8. -/
def execCmdCall (f q : Nat) (s : State) : Result :=
  carryOut s f q 6 fun s r e =>
    if !reservedZero e 0 [2, 3] || decide ((recordDw e 1).toNat % 32 ≠ 0) then failRun s f q r 1
    else if 8 ≤ r.stack.length then failRun s f q r 6
    else goTo s f q { r with stack := (r.pc + 32) :: r.stack } (recordDw e 1)

/-- R283: with nothing to pop, the record ends. -/
def execCmdReturn (f q : Nat) (s : State) : Result :=
  carryOut s f q 7 fun s r e =>
    if !reservedZero e 0 [1, 2, 3] then failRun s f q r 1
    else
      match r.stack with
      | a :: rest => goTo s f q { r with stack := rest } a
      | [] => endRun s f q r

/-! ### Region commands (R258, R259, R283) -/

/-- The record waits for its region command to take effect. -/
def waitRegion (s : State) (f q : Nat) (r : Run) (c : RegionCmd) : State :=
  setRun { s with nextId := s.nextId + 1, regionCmds := s.regionCmds ++ [{ c with id := s.nextId }] } f q
    { r with regionWait := some s.nextId }

/-- A region command of an entry; the kind is the entry's type. -/
def regionCmdOf (s : State) (f q : Nat) (e : List Dword) : RegionCmd :=
  { id := 0, ctx := f, queue := q, part := ctxPart s f, kind := cmdType e, region := bitsOf (recordDw e 0) 36 32
    die := bitsOf (recordDw e 0) 37 37, first := bitsOf (recordDw e 1) 31 0, count := bitsOf (recordDw e 1) 63 32
    manifest := recordDw e 1, pasid := queuePasid s f q }

/-- The granules of an open lie in the partition's avenues of the die; 256 granules make an avenue (R255, R257, R317). -/
def granulesOk (s : State) (p die first count : Nat) : Bool :=
  let share := pshare s p
  let avenues := if die = 0 then bitsOf share 15 0 else bitsOf share 31 16
  decide (0 < count) && decide (first + count ≤ 4096)
    && (List.range 16).all fun a => !overlaps (256 * a) 256 first count || avenues / 2 ^ a % 2 == 1

/-- R283. -/
def execCmdSeal (f q : Nat) (s : State) : Result :=
  carryOut s f q 8 fun s r e =>
    if !reservedZero e 0x0000001F00000000 [2, 3] then failRun s f q r 1
    else waitRegion s f q r (regionCmdOf s f q e)

/-- R283. -/
def execCmdOpen (f q : Nat) (s : State) : Result :=
  carryOut s f q 9 fun s r e =>
    let c := regionCmdOf s f q e
    if !reservedZero e 0x0000003F00000000 [2, 3] || !granulesOk s c.part c.die c.first c.count then failRun s f q r 1
    else waitRegion s f q r c

/-- R283. -/
def execCmdRelease (f q : Nat) (s : State) : Result :=
  carryOut s f q 10 fun s r e =>
    if !reservedZero e 0x0000001F00000000 [1, 2, 3] then failRun s f q r 1
    else waitRegion s f q r (regionCmdOf s f q e)

/-! ### Notification (R293, R342) -/

/-- THE USER TRAP is delivered to a hart, or lost (R342). -/
def deliverUserTrap (s : State) (h : Nat) (v : Dword) : State :=
  let x := getHart s h
  if x.nutstat.getLsbD 0 || x.nutstat.getLsbD 1 then setHart s h { x with nutstat := x.nutstat ||| 4 }
  else setHart s h { x with nutval := v, nutstat := x.nutstat ||| 1 }

/-- A write to bytes of package memory ends the wait of every hart whose Zawrs reservation covers one of them (R293). -/
def wakeHarts (s : State) (pa n : Nat) : State :=
  let covered (h : Hart) : Bool := h.resv.any fun r => overlaps r.1 r.2.1 (locate s (forwarded s pa)) n
  { s with harts := s.harts.map fun e => if e.2.wrs.isSome && covered e.2 then (e.1, { e.2 with wrs := none }) else e }

/-- R293. -/
def execCmdNotify (f q : Nat) (s : State) : Result :=
  carryOut s f q 11 fun s r e =>
    let a := recordDw e 1
    let mode := bitsOf (recordDw e 0) 55 54
    let hart := bitsOf (recordDw e 3) 6 0
    if !reservedZero e 0x00C0000000000000 [] || bitsOf (recordDw e 3) 63 7 != 0 || decide (a.toNat % 8 ≠ 0) || decide (2 ≤ mode)
        || (mode == 1 && decide (95 < hart)) then failRun s f q r 1
    else if hubWaits s f q a .write then hubAsk s f q a .write
    else
      match hubSpot s f q a 8 .write with
      | none => failRead s f q r a 8 .write
      | some h =>
        if mode == 1 && decide (hostBase ≤ h.pa) then failRun s f q r 1
        else
          let s1 := writeMem h.after { h.who with sent := true } h.key h.pa (bytesOf 8 (recordDw e 2).toNat)
          let s2 := if hostBase ≤ h.pa then s1 else wakeHarts s1 h.pa 8
          goOn (if mode = 1 then deliverUserTrap s2 hart (recordDw e 2) else s2) f q r

end Sys2Proof.Machine
end

