-- ==== Sys2Proof/Machine/Preempt.lean ====
section
/-! DEFINITION. Kills and context resets (R332), the pre-emption ladder (R328 to R331), switches between the contexts of a partition
(R323), and swapping (R52). -/

namespace Sys2Proof.Machine

/-! ### Kills (R332) -/

/-- Abandon an access of a killed launch: it is no event (R277). -/
def abandonAccess (s : State) (id : Nat) : State :=
  { s with accesses := s.accesses.filter fun a => !(a.id == id), replay := s.replay.filter fun e => !(e.2.who == .access id) }

/-- An access of a killed group that would not complete by itself: held, waiting for the host, or a fibre's wait at a barrier. -/
def endless (a : Access) : Bool :=
  a.held || a.needsAts || match a.kind with
    | .barWait _ => true
    | _ => false

/-- End every fibre of a group as if by end; its held accesses are abandoned, its copies retire without writing further. -/
def killGroup (s : State) (gid : Nat) : State :=
  let s1 := modGroup s gid fun g =>
    { g with stopping := false, parked := false, saving := false, image := [], trigDue := none, softReq := false, moving := false }
  let s2 := { s1 with relocations := s1.relocations.filter fun r => !(r.gid == gid)
                      replay := s1.replay.filter fun e => match e.2.who with
                        | .fetch g _ => !(g == gid)
                        | .copy id => !(copiesOfGroup s1 gid).any fun c => c.id == id
                        | .access _ => true }
  let s3 := ((s2.accesses.filter fun a => a.gid == gid && endless a).map fun a => a.id).foldl abandonAccess s2
  let s4 := (copiesOfGroup s3 gid).foldl (fun t c => endCopy t c 2 0) s3
  match getGroup s4 gid with
  | none => s4
  | some g => endFibres s4 gid g.liveLanes

/-- The record of a killed launch carries out no further entry, nor a region command that it waits for, and ends with CODE 7, once what it
started has completed. -/
def endRecordOf (s : State) (l : Launch) : State :=
  let mark (r : Run) : Run := if r.launches.contains l.uid && r.code == 0 then { r with code := 7, errIndex := r.index, ended := true } else r
  let k := queueKey l.ctx l.queue
  match tblFind s.queues k with
  | none => s
  | some v =>
    let v1 := match v.cur with
      | some r => if r.launches.contains l.uid then { v with cur := none, ending := v.ending.map mark ++ [mark r] }
                  else { v with ending := v.ending.map mark }
      | none => { v with ending := v.ending.map mark }
    let gone := v.cur.bind fun r => if r.launches.contains l.uid then r.regionWait else none
    { s with queues := tblInsert s.queues k v1, regionCmds := s.regionCmds.filter fun x => gone != some x.id }

/-- KILL a launch (R332). -/
def killLaunch (s : State) (uid : Nat) : State :=
  match findLaunch s uid with
  | none => s
  | some l =>
    let s1 := modLaunch (endRecordOf s l) uid fun l => { l with killed := true, swapping := false }
    let c := getCtx s1 l.ctx
    let s2 := setCtx s1 l.ctx { c with saved := c.saved.filter fun p => !(p.uid == uid) }
    let gids := (s2.groups.filter fun e => e.2.uid == uid).map Prod.fst
    checkLaunch (gids.foldl killGroup s2) uid

/-- Kill a launch of a context, and log it: each kill is logged (R331, R332). -/
def killLogged (s : State) (f uid : Nat) : State := logError (killLaunch s uid) f 5 0

/-- The context-scope expert registers (R348). -/
def contextScope (offset : Nat) : Bool :=
  (decide (0x100 ≤ offset) && decide (offset < 0x198)) || offset == 0x1A0

/-- The budget of a context is 0 in every core (R292). -/
def zeroBudgets (s : State) (f : Nat) : State := { s with budgets := s.budgets.filter fun e => !(e.1 / 256 == f) }

/-- The tile counters of a partition are 0 in every core (R319). -/
def zeroTiles (s : State) (part : Nat) : State := { s with tiles := s.tiles.filter fun e => !(e.1 % 48 / 3 == part) }

/-- RESET A CONTEXT (R332): every launch ends, each logged as a kill is (log 139, DEDUCED), and its records, images and operator-table entries go; its own registers take their
reset values, and the tile counters of its partition are 0 (R319) (log 123, DEDUCED). -/
def contextReset (s : State) (f : Nat) : State :=
  let uids := (s.launches.filter fun l => l.ctx == f).map fun l => l.uid
  let s1 := uids.foldl (fun t u => killLogged t f u) s
  let s2 := (s1.copies.filter fun c => c.hub && c.ctx == f).foldl (fun t c => endCopy t c 2 0) s1
  let s3 := zeroTiles (dropOps s2 f) (ctxPart s f)
  let started (r : Run) : Bool := r.launches.any fun u => uids.contains u
  { (zeroBudgets s3 f) with
    queues := s3.queues.map fun e =>
      if e.1 / 64 = f then (e.1, { pending := [], cur := none, ending := e.2.ending.filter started }) else e
    regionCmds := s3.regionCmds.filter fun c => !(c.ctx == f)
    ladders := s3.ladders.filter fun x => !(x.ctx == f)
    migQueue := s3.migQueue.filter fun r => !(r.ctx == f)
    street := s3.street.filter fun x => !(x.ctx == f)
    tlbInv := tblErase s3.tlbInv f
    sdInv := tblErase s3.sdInv f
    contexts := tblErase s3.contexts f
    xreg := s3.xreg.filter fun e => !(e.1 / 2 ^ 20 == f && contextScope (e.1 % 2 ^ 20)) }

/-! ### The ladder (R328) -/

/-- The grace and kill times of a context in clocks (R321). -/
def graceClocks (s : State) (f : Nat) : Nat :=
  let v := bitsOf (getX s 0 (ladderOffset f)) 31 0
  usClocks (if v = 0 then 200 else v)
def killClocks (s : State) (f : Nat) : Nat :=
  let v := bitsOf (getX s 0 (ladderOffset f)) 63 32
  usClocks (if v = 0 then 10000 else v)

/-- The positions of a context that have a resident group. -/
def residentPositions (s : State) (f : Nat) : List (Nat × Nat) :=
  ((s.groups.filter fun e => e.2.ctx == f).map fun e => (e.2.uid, e.2.pos)).eraseDups

def Ladder.has (x : Ladder) (g : Group) : Bool := x.set.contains (g.uid, g.pos)

/-- Change every group of a ladder's set. -/
def modSet (s : State) (set : List (Nat × Nat)) (h : Group → Group) : State :=
  { s with groups := s.groups.map fun e => if set.contains (e.2.uid, e.2.pos) then (e.1, h e.2) else e }

/-- START a ladder on a set of positions: the soft request becomes pending (R328). -/
def startLadder (s : State) (f : Nat) (why : LadderWhy) (set : List (Nat × Nat)) : State :=
  modSet { s with ladders := s.ladders ++ [{ id := s.nextId, ctx := f, why := why, set := set, t0 := s.clock }], nextId := s.nextId + 1 }
    set fun g => { g with softReq := true }

/-- A soft request is withdrawn: every fibre stopped at a yield is ready again (R158). -/
def withdraw (g : Group) : Group :=
  { g with softReq := false, saving := false, image := [], fibres := g.fibres.map fun f => { f with yielded := false } }

/-- The set of a ladder has no group left on a core, and the context's key serves accesses (R326). -/
def ladderSettled (s : State) (x : Ladder) : Bool := !s.groups.any (fun e => x.has e.2) && !keyBusy s (ctxKey s x.ctx)

/-- A context has a ladder in progress. -/
def onLadder (s : State) (f : Nat) : Bool := s.ladders.any fun x => x.ctx == f

/-- Forced: the group is to stop at its next boundary (R328). -/
def forcedStop (s : State) (g : Group) : Bool := s.ladders.any fun x => x.forced && x.has g

/-- Stopped at a yield point (R158). -/
def atYield (s : State) (gid : Nat) (g : Group) : Bool :=
  g.liveLanes.all fun i => (g.fibre i).yielded || g.held i || (waitOf s gid i).isSome

/-- Every word that the group issued has completed, but for held accesses, the slots that wait for one, and waits at barriers (R329). -/
def groupDrained (s : State) (gid : Nat) : Bool :=
  s.accesses.all (fun a => !(a.gid == gid) || a.held || waitsHeld s a || match a.kind with
      | .barWait _ => true
      | _ => false)
    && !matrixBusy s gid && !s.tableLoads.any fun t => t.gid == gid

/-- The group of a ladder may be saved now; the write of its image waits while the context's key is reset (R326). -/
def saveReady (s : State) (x : Ladder) (gid : Nat) (g : Group) : Bool :=
  x.has g && !keyBusy s (ctxKey s x.ctx) && !g.saving && !g.moving && (x.forced || atYield s gid g) && groupDrained s gid

/-- A fibre that waits in bar.wait goes back to its word (R329). -/
def backToWait (s : State) (gid : Nat) (lane : Nat) : State :=
  match waitOf s gid lane with
  | none => s
  | some a => dropAccess (modFibre s gid lane fun f => { f with pc := a.data2, progress := 0 }) a.id

/-- STOP A GROUP FOR SAVING (R329 steps 1 to 5): its waits go back to their words, its held fetches are given up, and its image is made: its
held accesses leave the buffer, and its copies stop, for it. -/
def markSaved (s : State) (gid : Nat) (g : Group) : State :=
  let s1 := (List.range g.width).foldl (fun t i => backToWait t gid i) s
  let s2 := leaveRing (modGroup s1 gid fun g =>
    { g with saving := true, softReq := false, fibres := g.fibres.map fun f => { f with yielded := false, fetchHeld := false } }) gid
  match getGroup s2 gid with
  | none => s2
  | some h => unloadHeld (modGroup s2 gid fun g => { g with image := imageBytes s2 gid h, trigDue := trigDueOf s2 gid h }) gid

/-- Every resident group of a position is stopped for saving. -/
def positionSaved (s : State) (uid pos : Nat) : Bool :=
  s.groups.all fun e => !(e.2.uid == uid && e.2.pos == pos) || e.2.saving

/-- Restore the positions of a set that have been saved, in place (R331) or afresh (R330). -/
def restoreSet (s : State) (f : Nat) (set : List (Nat × Nat)) (back : Bool) : State :=
  ((getCtx s f).saved.filter fun p => set.contains (p.uid, p.pos)).foldl (fun t p =>
    match findLaunch t p.uid with
    | none => t
    | some l =>
      match (if back then restoreBack t l p else restorePosition t l p) with
      | .placed t1 => t1
      | .noRoom => t
      | .malformed => killLogged t f p.uid) s

/-- The groups that a ladder had stopped take back, in place, what their images brought away: copies and held accesses (R331). -/
def reclaimHeld (s : State) (set : List (Nat × Nat)) : State :=
  (s.groups.filter fun e => set.contains (e.2.uid, e.2.pos) && e.2.saving).foldl (fun t e => resumeHeld t e.1 e.2.image) s

def dropLadder (s : State) (id : Nat) : State := { s with ladders := s.ladders.filter fun x => !(x.id == id) }

/-! ### Swapping (R52) -/

/-- The groups of the next position of a launch, when it has one that has never been admitted (R40). -/
def nextFresh (l : Launch) : Option (List (List Group)) := if l.nextPos < l.positions then some (positionGroups l l.nextPos) else none

/-- The swapped-out position of a launch whose turn comes: the lowest-numbered one (R40, R52). -/
def nextSwapped (s : State) (l : Launch) : Option SavedPos :=
  let ps := (getCtx s l.ctx).saved.filter fun p => p.uid == l.uid && p.waits
  ps.find? fun p => ps.all fun q => decide (p.pos ≤ q.pos)

/-- The next position of a launch in the order of R40 can be placed now. -/
def nextFits (s : State) (l : Launch) : Bool :=
  match nextFresh l with
  | some gs => (placePosition s l.part (launchDies s l) gs).isSome
  | none =>
    match nextSwapped s l with
    | none => true
    | some p => match restorePosition s l p with
      | .noRoom => false
      | _ => true

/-- The resident position of a launch with the highest number. -/
def lastResident (s : State) (uid : Nat) : Option Nat :=
  (((s.groups.filter fun e => e.2.uid == uid).map fun e => e.2.pos).foldl (fun m p => match m with
    | none => some p
    | some q => some (Nat.max q p)) none)

/-- One step of swapping: the highest resident position goes, until the next one can be placed (R52). -/
def swapStep (s : State) (uid : Nat) : State :=
  match findLaunch s uid with
  | none => s
  | some l =>
    let stop := modLaunch s uid fun l => { l with swapping := false }
    if !l.swapping then s
    else if nextFits s l then stop
    else
      match lastResident s uid with
      | none => stop
      | some p => startLadder s l.ctx (.swap uid) [(uid, p)]

/-- ABANDON a ladder for want of room in the save area (R331): cause 4 is logged, and what its groups still held replays when nothing holds
it any more. A context that is being disabled needs no image: it is reset (R321, R332). -/
def abandonLadder (s : State) (x : Ladder) : State :=
  if x.why = .disable then contextReset (dropLadder s x.id) x.ctx
  else
    let s1 := modSet (reclaimHeld (dropLadder s x.id) x.set) x.set withdraw
    let s2 := match x.why with
      | .swap uid => modLaunch s1 uid fun l => { l with swapping := false }
      | _ => s1
    let s3 := logError (restoreSet s2 x.ctx x.set true) x.ctx 4 (BitVec.ofNat 64 (saveBase s x.ctx))
    let s4 := releaseBehind (replayAll s3 fun e => windowOpen s3 e || handoverOver s3 e)
    match x.why with
    | .swap _ => s4
    | _ => ((s4.launches.filter fun l => l.ctx == x.ctx && l.swapping).map fun l => l.uid).foldl swapStep s4

/-! ### The ends of a ladder -/

/-- A context has loaded operator-table entries. -/
def hasOps (s : State) (f : Nat) : Bool := s.opTab.any fun e => e.1 / 16 % 129 == f

/-- The context is saved: its groups are off the cores and its operator-table entries in its area, when it has room for them (R323,
R334). -/
def contextSaved (s : State) (f : Nat) : State :=
  let keep := decide (2 ^ 15 ≤ saveSize s f)
  let s1 := if keep then saveOps s f else s
  let c := getCtx s1 f
  setCtx { s1 with launches := s1.launches.map fun l => if l.ctx == f then { l with swapping := false } else l } f
    { c with resident := false, opsSaved := keep, workSince := if hasWork s1 f then some s1.clock else none }

/-- FINISH a ladder whose set has left the cores, by what it was for; entries that the save area cannot hold abandon a switch (R331). -/
def finishLadder (s : State) (x : Ladder) : State :=
  let s1 := dropLadder s x.id
  match x.why with
  | .switch | .owner =>
    if hasOps s x.ctx && decide (saveSize s x.ctx < 2 ^ 15) then abandonLadder s x else contextSaved s1 x.ctx
  | .disable => contextReset s1 x.ctx
  | .swap uid => swapStep s1 uid

/-- Finish every ladder of a context that is settled. -/
def settleLadders (s : State) (f : Nat) : State :=
  (s.ladders.filter fun x => x.ctx == f).foldl (fun t x => if ladderSettled t x then finishLadder t x else t) s

/-- R329: a stopped group is saved; a position goes to memory with its last group, and a ladder ends with its last position. -/
def execGroupSave (gid : Nat) (s : State) : Result :=
  match getGroup s gid with
  | none => .next s
  | some g =>
    match s.ladders.find? fun x => saveReady s x gid g with
    | none => .next s
    | some x =>
      let s1 := markSaved s gid g
      .next (if !positionSaved s1 g.uid g.pos then s1
        else
          match savePosition s1 x.ctx g.uid g.pos (match x.why with
              | .swap _ => true
              | _ => false) with
          | none => abandonLadder s1 x
          | some s2 => settleLadders s2 x.ctx)

/-- R328: at the end of the grace time the groups that are left are forced to stop. -/
def execPreemptGraceExpiry (id : Nat) (s : State) : Result :=
  match s.ladders.find? fun x => x.id == id with
  | none => .next s
  | some x =>
    .next (if ladderSettled s x then finishLadder s x
      else if x.t0 + graceClocks s x.ctx ≤ s.clock then
        { s with ladders := s.ladders.map fun y => if y.id == id then { y with forced := true } else y }
      else s)

/-- R328, R332: at the kill time the launches with a group in the set are killed, and the kill is logged (log 70, DEDUCED). The ladder ends
once their groups have left the cores (R323). -/
def execPreemptKillExpiry (id : Nat) (s : State) : Result :=
  match s.ladders.find? fun x => x.id == id with
  | none => .next s
  | some x =>
    let due := Nat.max (x.t0 + killClocks s x.ctx) (x.t0 + graceClocks s x.ctx + usClocks 10)
    .next (if ladderSettled s x then finishLadder s x
      else if x.forced && decide (due ≤ s.clock) then
        let uids := (x.set.map Prod.fst).eraseDups.filter fun u => (findLaunch s u).any fun l => !l.killed
        if uids.isEmpty then s
        else
          let s1 := uids.foldl (fun t u => killLogged t x.ctx u) s
          if ladderSettled s1 x then finishLadder s1 x else s1
      else s)

/-! ### Contexts in turn (R323) -/

/-- The resident context of a partition; one that is being disabled is resident until its reset. -/
def residentOf (s : State) (p : Nat) : Option Nat := (List.range 129).find? fun f => (getCtx s f).resident && ctxPart s f == p

/-- Another context of the partition has work. -/
def othersWork (s : State) (p f : Nat) : Bool := (ctxsOf s p).any fun h => h != f && hasWork s h

/-- The time slice of a context in clocks (R321). -/
def sliceClocks (s : State) (f : Nat) : Nat :=
  let v := bitsOf (bindReg s f) 63 32
  usClocks (if v = 0 then 2000 else v)

/-- A switch is due when its condition holds: the ladder starts on every group of the resident context. -/
def switchWhen (s : State) (p : Nat) (h : Nat → Bool) : State :=
  match residentOf s p with
  | none => s
  | some f => if h f && othersWork s p f && !onLadder s f then startLadder s f .switch (residentPositions s f) else s

/-- R323: the resident context's slice has passed. -/
def execTimeSliceExpiry (p : Nat) (s : State) : Result :=
  .next (switchWhen s p fun f => decide ((getCtx s f).since + sliceClocks s f ≤ s.clock))

/-- R323: the resident context has no work, or its slice has passed. -/
def execContextSwitch (p : Nat) (s : State) : Result :=
  .next (switchWhen s p fun f => !hasWork s f || decide ((getCtx s f).since + sliceClocks s f ≤ s.clock))

/-- No group of another context of the partition stands on a core: every image is written, and killed groups have ended. -/
def coresClear (s : State) (p : Nat) : Bool := !s.groups.any fun e => e.2.part == p

/-- The saved context with work that has waited longest. -/
def longestWaiting (s : State) (p : Nat) : Option Nat :=
  let fs := (ctxsOf s p).filter fun f => hasWork s f && !(getCtx s f).resident && !onLadder s f
  let since (f : Nat) : Nat := ((getCtx s f).workSince).getD 0
  fs.find? fun f => fs.all fun h => decide (since f ≤ since h)

/-- A context becomes resident: its entries return to the cores, and its positions are restored; those without room wait for admission
(R318, R330). -/
def makeResident (s : State) (f : Nat) : State :=
  let c := getCtx s f
  let s1 := setCtx s f { c with resident := true, since := s.clock, workSince := none, opsSaved := false }
  let s2 := if c.opsSaved then restoreOps s1 f else s1
  let s3 := restoreSet s2 f ((c.saved.filter fun p => !p.waits).map fun p => (p.uid, p.pos)) false
  let d := getCtx s3 f
  setCtx s3 f { d with saved := d.saved.map fun p => { p with waits := true } }

/-- R323, R330: once every image is written, the saved context with work that has waited longest is restored. -/
def execContextRestore (p : Nat) (s : State) : Result :=
  let s1 := match residentOf s p with
    | some f => settleLadders s f
    | none => s
  .next (match residentOf s1 p with
    | some _ => s1
    | none =>
      match longestWaiting s1 p with
      | some f => if coresClear s1 p && !keyBusy s1 (ctxKey s1 f) then makeResident s1 f else s1
      | none => s1)

/-- R328: the owner's command starts the ladder on every group of a context; it does nothing while a ladder of the context runs or the context
is not resident (log 140, DESIGN CHOICE). -/
def execOwnerPreemptionCommand (f : Nat) (s : State) : Result :=
  .next (if decide (f < 129) && ctxExists s f && (getCtx s f).resident && !onLadder s f then
      startLadder s f .owner (residentPositions s f)
    else s)

end Sys2Proof.Machine
end

