-- ==== Sys2Proof/Machine/Fetch.lean ====
section
/-! DEFINITION. Which fibres may run (R25), the fetch of packets (R86, R87, R301), and the move of a relocated group (R46 to R48). -/

namespace Sys2Proof.Machine

/-! ### Running fibres (R25) -/

/-- The group is neither parked nor stopping, nor being relocated or pre-empted. -/
def groupRuns (s : State) (g : Group) : Bool := !g.stopping && !g.parked && !g.moving && !g.saving && !forcedStop s g

/-- The fibre is live and held by nothing but what its next word may wait on. -/
def fibreRuns (s : State) (gid : Nat) (g : Group) (lane : Nat) : Bool :=
  let f := g.fibre lane
  f.slot == .live && !f.yielded && !f.fetchHeld && f.pipeHold.isNone && !g.held lane && (waitOf s gid lane).isNone

/-- The running fibres of a group, none while the group itself does not run. -/
def runningLanes (s : State) (gid : Nat) (g : Group) : List Nat :=
  if groupRuns s g then (List.range g.width).filter (fibreRuns s gid g) else []

/-! ### Fetch (R86, R87) -/

/-- The address of the packet that holds a counter (R53), and the position of its word in it. -/
def packetBase (pc : Dword) : Nat := pc.toNat / 12 * 12
def packetPos (pc : Dword) : Nat := pc.toNat % 12 / 4

/-- The fibre holds the packet of its next word. -/
def hasPacket (f : Fibre) : Bool := f.packet.map Prod.fst == some (packetBase f.pc)

/-- What the fetch of a word comes to; bad names the cause under which an error at an address is logged. -/
inductive Fetched
  | word (w : Word) | held (cause : Nat) | wait | bad (cause pa : Nat)
  deriving DecidableEq, Repr

/-- A fibre's fetches wait for the fence that it passed before a taken branch (R87). -/
def fenceHolds (s : State) (gid lane : Nat) (f : Fibre) : Bool :=
  f.fetchFence.any fun x => s.accesses.any fun a =>
    a.gid == gid && a.lane == lane && decide (a.id < x.2) && decide (a.least ≤ x.1) && decide (spaceOf a.kind ≠ 3)

/-- The events that a fibre's fetches must follow: its admission (R87), what a fence before a taken branch has ordered, which later fetches
follow too, and what such a fence orders still. -/
def fetchAfter (g : Group) (f : Fibre) : List Nat :=
  let met := match f.fetchFence with
    | some (sc, n) => (f.done.filter fun d => decide (d.least ≤ sc) && decide (d.word < n)).map fun d => d.event
    | none => []
  g.since.toList ++ f.fetchFloor.toList ++ (if f.fetchFence.isSome then f.fenceFloor.toList else []) ++ met

/-- A fetch reads through the L2, and counts when it misses it (R86, R254, R305) (log 103, DESIGN CHOICE). -/
def fetchThrough (s : State) (core : Nat) (g : Group) (key pa : Nat) (va : Dword) : State :=
  let s1 := recallLines s key (locate s pa) 4
  let c := cacheTouch s1 (l2Site s1 core pa) g.part key (locate s1 pa / 128) 0 false
  countFor c.2 g.pasid va.toNat (dieOfCore core) g.ctx (!c.1)

/-- Fetch one word for some fibres (R86, R87): it waits for the host's translation (R300), a copy that owns the line (R271) and a reset of
its key (R326). -/
def fetchWord (s : State) (core : Nat) (g : Group) (lanes : List Nat) (va : Dword) : Fetched × State :=
  match atsFailed s core g.pasid va.toNat .fetch with
  | some s1 => (.held 7, s1)
  | none =>
    match translate s core g.pasid va .fetch with
    | (.fail cause _, s1) => (.held cause, s1)
    | (.needAts, s1) => (.wait, askAts s1 core g.pasid va.toNat .fetch .fetch)
    | (.ok pa e _ _, s1) =>
      let key := pageKey e (ctxKey s1 g.ctx)
      if underHandover s1 pa then (.held 5, s1)
      else if copyOwns s1 pa || (key != plainKey && keyBusy s1 key) then (.wait, s1)
      else if !itemReadyAt s1 pa then (.bad 2 pa, s1)
      else if damagedAt s1 pa 4 then (.bad 3 pa, s1)
      else
        let w : Who := { agent := fetchAgent g (lanes.headD 0), after := (lanes.map fun l => fetchAfter g (g.fibre l)).flatten
                         issued := s1.clock, far := farPlace pa e }
        let r := readMem (fetchThrough s1 core g key pa va) w key pa 4
        (.word (BitVec.ofNat 32 (natOfBytes r.1)), r.2)

/-- A fetch cannot complete: it enters the replay buffer, with the trap of a protection or migration condition (R301); a full buffer
leaves it to a later try. -/
def holdFetch (s : State) (g : Group) (gid : Nat) (lanes : List Nat) (va : Dword) (cause : Nat) : State :=
  match enterReplay s (coreOf gid) fun n =>
      { order := n, va := va, pasid := g.pasid, cause := cause, req := 7, size := 2, who := .fetch gid lanes } with
  | none => s
  | some s1 =>
    let s2 := modLanes s1 gid lanes fun f => { f with fetchHeld := true }
    if cause = 2 then takeTrap s2 0x0E gid lanes va else if cause = 3 then takeTrap s2 0x0D gid lanes va else s2

/-- Fetch the words of a packet from the first, and give the packet to the fibres when all three have come. -/
def fetchWords (s : State) (g : Group) (gid base : Nat) (lanes : List Nat) (got : List Word) : Nat → State
  | 0 => modLanes s gid lanes fun f =>
      { f with packet := some (base, got), fetchFloor := latestOf s (fetchAfter g f), fetchFence := none }
  | n + 1 =>
    let va : Dword := BitVec.ofNat 64 (base + 4 * got.length)
    match fetchWord s (coreOf gid) g lanes va with
    | (.word w, s1) => fetchWords s1 g gid base lanes (got ++ [w]) n
    | (.held cause, s1) => holdFetch s1 g gid lanes va cause
    | (.wait, s1) => s1
    | (.bad cause pa, s1) => takeTrap (logError s1 g.ctx cause (BitVec.ofNat 64 pa)) 0x12 gid lanes va

/-- FETCH for the gang of a running fibre that does not hold its packet (log 78, DEDUCED). -/
def fetchFor (s : State) (gid lane : Nat) : State :=
  match getGroup s gid with
  | none => s
  | some g =>
    let f := g.fibre lane
    if !hasPacket f && (runningLanes s gid g).contains lane && !fenceHolds s gid lane f then
      fetchWords s g gid (packetBase f.pc)
        ((runningLanes s gid g).filter fun l => (g.fibre l).pc == f.pc && !hasPacket (g.fibre l) && !fenceHolds s gid l (g.fibre l)) [] 3
    else s

/-- R86. -/
def execInstructionFetch (gid lane : Nat) (s : State) : Result := .next (fetchFor s gid lane)

/-! ### Relocation (R46 to R48) -/

/-- The group as its image brings it to the target: latches, packets and what its old quarter alone knew stay behind (log 79, DEDUCED). -/
def movedGroup (g : Group) : Group :=
  { g with moving := false, member := false, lastA := none, waited := 0, starvedAt := none
           fibres := g.fibres.map fun f =>
             { f with latchValid := 0, packet := none, avail := [], fetchHeld := false, missed := 0, starvedAt := none } }

/-- Every scoreboard slot of the group has cleared, and nothing else of it is under way (R48 step 2). -/
def moveReady (s : State) (gid : Nat) (g : Group) : Bool :=
  g.moving && !g.stopping && !g.parked && !g.saving && groupQuiet s gid

/-- The code of a move reaches D and l7 of a fibre: readable under R85 from the clock on which issue resumes (R161). -/
def deliverCode (now : Nat) (g : Group) (lane d : Nat) : Group :=
  (writeC g lane d 0).modFibre lane fun f =>
    { f with avail := tblSet 0 (tblSet 0 f.avail (f.wb + d) (now + 2)) (latchKey 7) (now + 1) }

/-- Install the group in the room that was kept for it, and deliver code 0 to the fibres that asked, whose l7 is valid on the new quarter
until a chain issues there without them (R47, R48 steps 3 to 5, R62, R161) (log 79, DEDUCED). -/
def installMoved (s : State) (gid : Nat) (g : Group) (r : Relocation) : State :=
  let s1 := removeGroup s gid
  let s2 := { s1 with rowHolds := s1.rowHolds.filter fun h => !(h.gid == gid && h.uid == g.uid && h.pos == g.pos)
                      replay := s1.replay.filter fun e => match e.2.who with
                        | .fetch n _ => n != gid
                        | _ => true }
  let h : Group := { movedGroup g with rowOrigin := r.seat.rowOrigin, laneOrigin := r.seat.laneOrigin, spOrigin := r.seat.spOrigin
                                       lsOrigin := r.seat.lsOrigin }
  let asked := r.lanes.filter fun l => (h.fibre l).live
  let s3 := sitDown s2 r.seatGid (asked.foldl (fun acc l => deliverCode s.clock acc l r.dst.toNat) h)
  let q := quarterOf r.seatGid
  setQuarter s3 q { getQuarter s3 q with lastGangs := (getQuarter s3 q).lastGangs ++ [(r.seatGid, (maskOf asked).toNat)] }

/-- R48: the move waits for the group's slots, and for room at the target. -/
def execRelocateMove (gid : Nat) (s : State) : Result :=
  match s.relocations.find? (fun r => r.gid == gid), getGroup s gid with
  | some r, some g => .next (if moveReady s gid g then installMoved s gid g r else s)
  | _, _ => .next s

end Sys2Proof.Machine
end

