-- ==== Sys2Proof/Machine/Tile.lean ====
section
/-! DEFINITION. The arithmetic of matrix words: element decoding (R88, R93 to R95), scales (R103 to R106), sparsity (R108, R109), block
sums (R110 to R114) and the semirings of the operator table (R231 to R237). -/

namespace Sys2Proof.Machine

/-! ### Input formats and depths (R222) -/

/-- The input formats of matrix words. -/
inductive MatIn
  | e4m3 | e5m2 | i8 | bf16 | f16 | e2m1 | i4x | f32 | i32 | b1
  deriving DecidableEq, Repr

def MatIn.width : MatIn → Nat
  | .e4m3 | .e5m2 | .i8 => 8
  | .bf16 | .f16 => 16
  | .e2m1 | .i4x => 4
  | .f32 | .i32 => 32
  | .b1 => 1

/-- The inputs of a pair code of mma (R229): A, then B. -/
def pairInputs (code : Nat) : MatIn × MatIn :=
  match code with
  | 0 => (.e4m3, .e4m3)
  | 1 => (.e4m3, .e5m2)
  | 2 => (.e5m2, .e4m3)
  | 3 => (.e5m2, .e5m2)
  | 4 => (.i8, .i8)
  | 5 => (.bf16, .bf16)
  | 6 => (.f16, .f16)
  | 7 => (.e2m1, .e2m1)
  | _ => (.i4x, .i4x)

/-- The input of a type of smm (R232). -/
def smmInput (ty : Nat) : MatIn :=
  match ty with
  | 0 => .f32
  | 1 => .i32
  | 2 => .bf16
  | _ => .b1

/-- The dense depth of an input width (R222). -/
def denseDepth (width : Nat) : Nat := if width = 32 then 8 else 512 / width

/-- The elements of a scale block (R104). -/
def scaleBlock (f : MatIn) : Nat := if f = .i4x then 16 else 32

/-! ### Elements (R88, R93 to R95) -/

/-- Bits of a run of bytes: element k of n-bit elements (R88). -/
def elementBits (width : Nat) (bytes : List (BitVec 8)) (k : Nat) : Nat :=
  if width < 8 then ((bytes[k * width / 8]?).getD 0).toNat / 2 ^ (k * width % 8) % 2 ^ width
  else (List.range (width / 8)).foldr (fun i acc => ((bytes[k * (width / 8) + i]?).getD 0).toNat + 256 * acc) 0

/-- The elements of the bytes of an I4X block, two for each byte; none for an illegal code (R94). The flag says that the first byte is
given up to an outlier. -/
def i4xElements : Bool → List (BitVec 8) → List (Option Fv)
  | _, [] => []
  | true, _ :: rest => some (.fin false 0 0) :: some (.fin false 0 0) :: i4xElements false rest
  | false, b :: rest =>
    let lo := b.toNat % 16
    let hi := b.toNat / 16
    let e1 : Option Fv := if hi = 8 then none else some (fvOfInt (signedBits 4 hi))
    match lo, rest with
    | 8, n :: _ => some (e4m3.decode n.toNat) :: e1 :: i4xElements true rest
    | 8, [] => none :: e1 :: i4xElements false rest
    | _, _ => some (fvOfInt (signedBits 4 lo)) :: e1 :: i4xElements false rest

/-- Element k of a run, unscaled; none for an illegal code (R88, R94). -/
def decodeElement (f : MatIn) (bytes : List (BitVec 8)) (k : Nat) : Option Fv :=
  let x := elementBits f.width bytes k
  match f with
  | .e4m3 => some (e4m3.decode x)
  | .e5m2 => some (e5m2.decode x)
  | .bf16 => some (bf16.decode x)
  | .f16 => some (fp16.decode x)
  | .e2m1 => some (e2m1.decode x)
  | .f32 => some (fp32.decode x)
  | .i8 => some (fvOfInt (signedBits 8 x))
  | .i32 => some (fvOfInt (signedBits 32 x))
  | .b1 => some (.fin false x 0)
  | .i4x => ((i4xElements false ((bytes.drop (k / 16 * 8)).take 8))[k % 16]?).getD none

/-- An element times its block's scale (R103): a NaN scale makes it a NaN. -/
def scaleFv (v : Fv) (code : Nat) : Fv :=
  if code = 255 then .nan false
  else
    match v with
    | .fin n m e => .fin n m (e + ((code : Int) - 127))
    | w => w

/-! ### Block sums (R112, R113) -/

/-- The exponent of the leading bit of the largest finite magnitude that is not zero. -/
def leadExp : List Fv → Option Int
  | [] => none
  | .fin _ m e :: rest =>
    if m = 0 then leadExp rest
    else
      let x : Int := (Nat.log2 m : Int) + e
      match leadExp rest with
      | some y => some (if x < y then y else x)
      | none => some x
  | _ :: rest => leadExp rest

/-- Truncate towards zero to a multiple of 2^q. -/
def truncFv (q : Int) : Fv → Fv
  | .fin n m e => if q ≤ e then .fin n m e else .fin n (if (Nat.log2 m : Int) + 1 < q - e then 0 else m / pow2 (q - e)) q
  | v => v

def Fv.isFin : Fv → Bool
  | .fin _ _ _ => true
  | _ => false

/-- Align40 (R112). -/
def align40 (ps : List Fv) : List Fv :=
  if ps.all Fv.isFin then
    match leadExp ps with
    | some e => ps.map (truncFv (e - 40))
    | none => ps
  else ps

/-- How an entry rounds FP32 results: ties away from zero, saturating overflow (R113, R231). -/
structure Rounding where
  away : Bool := false
  sat : Bool := false
  deriving DecidableEq, Repr

/-- A value rounded once to FP32 under an entry (R113, R233). -/
def roundEntry (r : Rounding) (v : Fv) : Nat :=
  match v with
  | .nan _ => fp32.canon
  | .inf n => fp32.infBits n
  | .fin n m e => (fp32.roundFin (if r.sat then .saturate else .ieee) (if r.away then 4 else 0) n m e).1

/-- BlockRound (R113). -/
def blockRound (r : Rounding) (acc : Nat) (ps : List Fv) : Nat := roundEntry r (fvSum false (fp32.decode acc :: ps)).1

/-- The accumulator through the K-blocks of n products, in ascending K (R111); an omitted position gives no term. -/
def blockSums (r : Rounding) (align : Bool) (n : Nat) : Nat → Nat → List (Option Fv) → Nat
  | 0, acc, _ => acc
  | fuel + 1, acc, ps =>
    if ps.isEmpty then acc
    else
      let block := (ps.take n).filterMap id
      blockSums r align n fuel (blockRound r acc (if align then align40 block else block)) (ps.drop n)

/-! ### Semirings (R233 to R238) -/

/-- What an operator-table entry says, for the type in use. -/
structure Semi where
  cmb : Nat
  red : Nat
  number : Bool := false
  rounding : Rounding := {}
  ill : Nat := 0
  ident : Nat
  pad : Nat
  skip : Bool := true
  deriving DecidableEq, Repr

/-- The fixed entries: combine, reduce, identity as FP32 and as INT32 (R236). -/
def fixedOps (e : Nat) : Nat × Nat × Nat × Nat :=
  match e with
  | 0 => (0, 0, 0, 0)
  | 1 => (1, 1, 0x7F800000, 0x7FFFFFFF)
  | 2 => (1, 2, 0xFF800000, 0x80000000)
  | 3 => (0, 2, 0xFF800000, 0x80000000)
  | 4 => (2, 2, 0xFF800000, 0x80000000)
  | 5 => (3, 1, 0x7F800000, 0x7FFFFFFF)
  | 6 => (4, 3, 0, 0)
  | _ => (4, 4, 0, 0)

/-- A fixed entry for a type of smm (0 f32, 1 i32, 2 bf16, 3 b1); its padding value is its identity (R236). -/
def fixedSemi (e ty : Nat) : Semi :=
  let o := fixedOps e
  let ident := if ty = 1 ∨ ty = 3 then o.2.2.2 else o.2.2.1
  { cmb := if ty = 3 then 4 else o.1, red := o.2.1, ident := ident, pad := if ty = 2 then ident / 65536 else ident, skip := e != 3 }

/-- A fixed entry accepts a type (R237). -/
def fixedAllows (e ty : Nat) : Bool := if e = 0 then true else if e ≤ 5 then ty != 3 else ty == 3

/-- A term of a semiring under FP types: the exact combine (R233). -/
def combineFp (cmb : Nat) (number : Bool) (a b : Fv) : Fv :=
  match cmb with
  | 0 => (fvMul a b).1
  | 1 => (fvSum false [a, b]).1
  | _ =>
    if a.isNan || b.isNan then (if number && !(a.isNan && b.isNan) then (if a.isNan then b else a) else .nan false)
    else if cmb = 2 then (if fvBelow a b then a else b)
    else (if fvBelow a b then b else a)

/-- The least or greatest of values that are not NaN. -/
def extremeFv (max : Bool) : Fv → List Fv → Fv
  | x, [] => x
  | x, y :: ys => extremeFv max (if fvBelow x y == max then y else x) ys

/-- Reduction by min or max of the accumulator and the terms, rounded once (R233). -/
def reduceFp (s : Semi) (acc : Nat) (terms : List Fv) : Nat :=
  let all := fp32.decode acc :: terms
  if !s.number && all.any Fv.isNan then fp32.canon
  else
    match all.filter fun v => !v.isNan with
    | [] => fp32.canon
    | x :: xs => roundEntry s.rounding (extremeFv (s.red == 2) x xs)

/-- An INT32 value with the two codes of R234 as infinities. -/
inductive Iv
  | ninf | fin (n : Int) | pinf
  deriving DecidableEq, Repr

def ivOf (n : Int) : Iv := if n = 2147483647 then .pinf else if n = -2147483648 then .ninf else .fin n

/-- Saturated to the two codes (R234). -/
def ivSat (n : Int) : Iv := if 2147483647 ≤ n then .pinf else if n ≤ -2147483648 then .ninf else .fin n

def Iv.toInt : Iv → Int
  | .ninf => -2147483648
  | .fin n => n
  | .pinf => 2147483647

/-- A sum of any number of values under R234: opposite infinities give the identity (log 46, DEDUCED). -/
def ivSum (ident : Int) (xs : List Iv) : Iv :=
  let p := xs.contains .pinf
  let n := xs.contains .ninf
  if p && n then ivOf ident
  else if p then .pinf
  else if n then .ninf
  else ivSat ((xs.map Iv.toInt).sum)

/-- A product under R234. -/
def ivMul (a b : Iv) : Iv :=
  match a, b with
  | .fin x, .fin y => ivSat (x * y)
  | x, y => if x = .fin 0 ∨ y = .fin 0 then .fin 0 else if decide (x.toInt < 0) == decide (y.toInt < 0) then .pinf else .ninf

/-- A term under i32 (R234). -/
def combineInt (cmb : Nat) (ident : Int) (a b : Iv) : Iv :=
  match cmb with
  | 0 => ivMul a b
  | 1 => ivSum ident [a, b]
  | 2 => if a.toInt ≤ b.toInt then a else b
  | _ => if a.toInt ≤ b.toInt then b else a

/-- The least or greatest of values. -/
def extremeInt (max : Bool) : Int → List Int → Int
  | x, [] => x
  | x, y :: ys => extremeInt max (if (decide (x ≤ y)) == max then y else x) ys

/-- A cell under i32: times and plus wrap, the other entries follow R234. -/
def cellInt (s : Semi) (acc : Int) (pairs : List (Int × Int)) : Int :=
  if s.cmb = 0 ∧ s.red = 0 then acc + (pairs.map fun p => p.1 * p.2).sum
  else
    let ident := signedBits 32 s.ident
    let terms := pairs.map fun p => combineInt s.cmb ident (ivOf p.1) (ivOf p.2)
    if s.red = 0 then (ivSum ident (ivOf acc :: terms)).toInt else extremeInt (s.red == 2) acc (terms.map Iv.toInt)

/-- A cell under b1 (R233, R237). -/
def cellBits (red acc : Nat) (pairs : List (Nat × Nat)) : Nat :=
  let ones := (pairs.filter fun p => p.1 = 1 ∧ p.2 = 1).length
  match red with
  | 0 => (acc + ones) % 2 ^ 32
  | 3 => if acc % 2 = 1 ∨ 0 < ones then 1 else 0
  | _ => (acc + ones) % 2

/-- A cell under an FP type: block sums for plus (R111, R233), one reduction for min and max. -/
def cellFp (s : Semi) (bf : Bool) (acc : Nat) (terms : List (Option Fv)) : Nat :=
  if s.red = 0 then blockSums s.rounding (bf && s.cmb == 0) (if bf then 16 else 8) terms.length acc terms
  else reduceFp s acc (terms.filterMap id)

end Sys2Proof.Machine
end

