-- ==== Sys2Proof/Machine/Matrix.lean ====
section
/-! DEFINITION. The matrix unit of a quarter (R218 to R240): issue checks, gather, execution, the operator table and the landing
words. -/

namespace Sys2Proof.Machine

/-! ### The operator table (R235 to R239) -/

/-- The key of entry n of a context's table in a core. -/
def opKey (core ctx n : Nat) : Nat := (core * 129 + ctx) * 16 + n

/-- A loaded entry (8 to 15), none when it is unloaded. -/
def loadedEntry (s : State) (gid ctx n : Nat) : Option OpDesc := tblFind s.opTab (opKey (coreOf gid) ctx n)

/-- The fields of a descriptor (R238). -/
def OpDesc.cmb (d : OpDesc) : Nat := bitsOf d.ctl 3 0
def OpDesc.red (d : OpDesc) : Nat := bitsOf d.ctl 7 4
def OpDesc.ty (d : OpDesc) : Nat := bitsOf d.ctl 9 8
def OpDesc.skip (d : OpDesc) : Bool := d.ctl.getLsbD 15

/-- A loaded entry as a semiring (R231, R233, R238). -/
def OpDesc.semi (d : OpDesc) : Semi :=
  { cmb := d.cmb, red := d.red, number := d.ctl.getLsbD 10, rounding := { away := d.ctl.getLsbD 11, sat := d.ctl.getLsbD 12 }
    ill := bitsOf d.ctl 14 13, ident := d.ident.toNat, pad := d.pad.toNat, skip := d.skip }

/-- The pairs with which SKIP may be set (R239): IDENT is the identity of RED and the absorbing element of CMB. -/
def skipOk (d : OpDesc) : Bool :=
  let i := d.ident.toNat
  let int := d.ty == 1
  let pos := if int then 0x7FFFFFFF else 0x7F800000
  let neg := if int then 0x80000000 else 0xFF800000
  match d.cmb, d.red with
  | 0, 0 => i == 0
  | 1, 1 => i == pos
  | 1, 2 => i == neg
  | 2, 2 => i == neg
  | 3, 1 => i == pos
  | 4, _ => i == 0
  | _, _ => false

/-- A descriptor loads (R239). -/
def descOk (d : OpDesc) : Bool :=
  bitsOf d.ctl 31 16 == 0 && d.tail == 0 && decide (d.cmb ≤ 4) && decide (d.red ≤ 4)
    && !(d.ty == 3 && (d.cmb != 4 || d.red == 1 || d.red == 2))
    && !(d.ty != 3 && (d.cmb == 4 || d.red == 3 || d.red == 4))
    && (!d.skip || skipOk d)

/-! ### What a matrix word is -/

def XKind.isMatrix : XKind → Bool
  | .mma _ _ => true
  | .smm _ _ => true
  | _ => false
def XKind.sparse : XKind → Bool
  | .mma _ s => s
  | .smm _ s => s
  | _ => false
def XKind.inputs : XKind → MatIn × MatIn
  | .mma p _ => pairInputs p
  | .smm t _ => (smmInput t, smmInput t)
  | _ => (.f32, .f32)
def XKind.pairCode : XKind → Option Nat
  | .mma p _ => some p
  | _ => none

/-- The fields of MCTL (R221). -/
def mctlEnt (m : Word) : Nat := bitsOf m 31 28
def mctlSpn (m : Word) : Nat := bitsOf m 27 26
def mctlBs (m : Word) : Nat := bitsOf m 25 23
def mctlCols (m : Word) : Nat := bitsOf m 18 14 + 1

/-- N of a sparse word (R221). -/
def sparseN (m : Word) : Nat :=
  match mctlSpn m with
  | 1 => 8
  | 2 => 4
  | _ => 2

/-- K, KL and the sizes of R222. -/
def depthK (k : XKind) : Nat := denseDepth k.inputs.1.width
def depthKL (k : XKind) (m : Word) : Nat := if k.sparse then (if sparseN m = 8 then 2 else 4) * depthK k else depthK k
def sliceBytes (k : XKind) (m : Word) : Nat := depthKL k m * k.inputs.1.width / 8
def columnBytes (k : XKind) (m : Word) : Nat :=
  (if k.sparse then depthKL k m * sparseN m / 16 else depthKL k m) * k.inputs.2.width / 8

/-- The word's elements carry scales (R103, R229). -/
def usesScales (k : XKind) (m : Word) : Bool :=
  match k.pairCode with
  | some p => p == 7 || p == 8 || (decide (p ≤ 3) && m.getLsbD 22)
  | none => false

/-- Registers of scales, of metadata, and of the whole side block (R222, R223). -/
def scaleRegs (k : XKind) (m : Word) : Nat := if usesScales k m then 8 * (depthKL k m / depthK k) else 0
def metaRegs (k : XKind) (m : Word) : Nat := if k.sparse then (depthKL k m / 16 * 4 * sparseN m + 31) / 32 else 0
def sideRegs (k : XKind) (m : Word) : Nat := scaleRegs k m + metaRegs k m

/-! ### The checks at issue (R224) -/

/-- R28, R219: the shape of the group, the gang, the landing slot. -/
def groupShape (iss : Issue) (g : Group) (ls : Nat) : Option Nat :=
  if g.width < 32 then some 0x05
  else if !(List.range g.width).all fun l => iss.lanes.contains l && (g.fibre l).live then some 0x04
  else if g.lslots ≤ ls then some 0x05
  else none

/-- The illegal-instruction conditions of step 2 that rest on MCTL and on the blocks (R106, R220 to R223); those of the encoding stand in
WellFormed (log 92, DEDUCED). -/
def matrixIllegal (k : XKind) (m : Word) (sa sb : Nat) : Bool :=
  let scl := m.getLsbD 22
  bitsOf m 19 19 != 0 || bitsOf m 13 10 != 0 || sa % 4 != 0 || sb % 4 != 0
    || (k.pairCode.isNone && mctlEnt m != 0)
    || (if k.sparse then mctlSpn m == 0 else mctlSpn m != 0)
    || (scl && (match k.pairCode with
        | some p => decide (3 < p)
        | none => true))
    || decide (depthKL k m < bitsOf m 9 0)
    || (sideRegs k m == 0 && sb != 0)
    || (usesScales k m && decide (8 < mctlBs m + depthK k / scaleBlock k.inputs.1))

/-- Step 3: the lanes in which a register of the side block leaves its window (R23, R223) (log 44, DEDUCED). -/
def sideFails (g : Group) (k : XKind) (m : Word) (sb : Nat) : List Nat :=
  if sideRegs k m = 0 then [] else (List.range 32).filter fun l => !g.inRange l sb (sideRegs k m)

/-- The operator-table entry that a word names (R231, R232). -/
def entryOfWord (k : XKind) (m : Word) (ent : Nat) : Nat := if k.pairCode.isSome then mctlEnt m else ent

/-- Step 4: the operator-table conditions (R231, R232, R236). -/
def operatorBad (s : State) (gid ctx : Nat) (k : XKind) (ent : Nat) : Bool :=
  match k with
  | .mma p _ =>
    if ent = 0 then false
    else
      match loadedEntry s gid ctx ent with
      | none => true
      | some d => decide (ent < 8) || d.cmb != 0 || d.red != 0 || d.ty != (if p = 4 then 1 else 0)
  | .smm ty sparse =>
    if ent < 8 then !fixedAllows ent ty || (sparse && !(fixedSemi ent ty).skip)
    else
      match loadedEntry s gid ctx ent with
      | none => true
      | some d => d.ty != ty || (sparse && !d.skip)
  | _ => false

/-- The side block as it is read at issue: register by register, lanes 0 to 31. -/
def sideBlock (g : Group) (k : XKind) (m : Word) (sb : Nat) : List (List Word) :=
  (List.range (sideRegs k m)).map fun r => (List.range 32).map fun l => g.reg l (sb + r)

def sideWord (side : List (List Word)) (r l : Nat) : Word := (((side[r]?).getD [])[l]?).getD 0

/-- The position of stored value m of group g of column n (R108, R223). -/
def metaPos (k : XKind) (mc : Word) (side : List (List Word)) (n grp m : Nat) : Nat :=
  let t := 4 * sparseN mc * grp + 4 * m
  (sideWord side (scaleRegs k mc + t / 32) n).toNat / 2 ^ (t % 32) % 16

/-- The positions of a group rise strictly (R109). -/
def groupRises (k : XKind) (mc : Word) (side : List (List Word)) (n grp : Nat) : Bool :=
  (List.range (sparseN mc - 1)).all fun m => decide (metaPos k mc side n grp m < metaPos k mc side n grp (m + 1))

/-- Step 5: the lowest failing line, and within it the lowest failing group (R109). -/
def metaFails (k : XKind) (mc : Word) (side : List (List Word)) : Option (Nat × Nat) :=
  if !k.sparse then none
  else (List.range (mctlCols mc)).findSome? fun n =>
    ((List.range (depthKL k mc / 16)).find? fun grp => !groupRises k mc side n grp).map fun grp => (n, grp)

/-! ### The A latch that a word keeps (R225) -/

/-- The gather whose A operand the group's previous matrix word used, when a word of this width and depth may keep it: a latch is its, or it
still waits for one. -/
def keptGather (s : State) (gid : Nat) (g : Group) (k : XKind) (m : Word) : Option Nat :=
  match g.lastA with
  | none => none
  | some (id, width, kl) =>
    let q := getQuarter s (quarterOf gid)
    if m.getLsbD 20 && width == k.inputs.1.width && kl == depthKL k m
        && (q.latchA.any (fun l => l.gather == id && decide (id ≠ 0)) || q.queue.any fun x => x.id == id && x.latchA.isNone) then some id
    else none

/-- The free latch that a gather takes: one that holds nothing, or else the one gathered earlier (R225). -/
def freeLatch (ls : List MatLatch) : Option Nat :=
  let free := (List.range ls.length).filter fun i => match ls[i]? with
    | some l => l.users.isEmpty
    | none => false
  let age : Nat → Nat := fun i => match ls[i]? with
    | some l => l.gather
    | none => 0
  match free with
  | [] => none
  | i :: is => some (is.foldl (fun b j => if age j < age b then j else b) i)

/-- The latch that a gather has. -/
def latchOf (ls : List MatLatch) (gather : Nat) : Option Nat :=
  (List.range ls.length).find? fun i => match ls[i]? with
    | some l => l.gather == gather
    | none => false

/-- Register a word as a user of a latch. -/
def useLatch (ls : List MatLatch) (i user : Nat) : List MatLatch :=
  match ls[i]? with
  | some l => setAt ls i { l with users := l.users ++ [user] }
  | none => ls

/-- Give a latch to a gather. -/
def takeLatch (ls : List MatLatch) (i gather : Nat) : List MatLatch := setAt ls i { gather := gather, users := [gather] }

/-- A matrix word gets its latches, those that it has not: from its issue they are in use (R225). A word that keeps A takes the latch that
the kept gather has. -/
def grantOne (q : Quarter) (x : XOp) : Quarter :=
  let put (q : Quarter) (h : XOp → XOp) : Quarter := { q with queue := q.queue.map fun y => if y.id == x.id then h y else y }
  let q1 :=
    if x.latchA.isSome then q
    else
      match x.keep with
      | some n =>
        match latchOf q.latchA n with
        | some i => put { q with latchA := useLatch q.latchA i x.id } fun y => { y with latchA := some i }
        | none => q
      | none =>
        match freeLatch q.latchA with
        | some i => put { q with latchA := takeLatch q.latchA i x.id } fun y => { y with latchA := some i }
        | none => q
  if x.latchB.isSome then q1
  else
    match freeLatch q1.latchB with
    | some i => put { q1 with latchB := takeLatch q1.latchB i x.id } fun y => { y with latchB := some i }
    | none => q1

/-- The matrix words of a quarter get the latches that are free, in issue order. -/
def grantLatches (q : Quarter) : Quarter :=
  (q.queue.filter fun x => x.kind.isMatrix).foldl (fun a x => grantOne a ((a.queue.find? fun y => y.id == x.id).getD x)) q

/-! ### Range entries of a gather (R200, R227) -/

/-- A padded row's address (R220). -/
def paddedRow (a : Word) : Bool := a == 0xFFFFFFFF

/-- The scratchpad runs that a gather reads: address and length. -/
def gatherRuns (k : XKind) (m : Word) (keep : Bool) (aAddr : List Word) (bAddr : Word) : List (Word × Nat) :=
  (if keep then [] else (aAddr.filter fun a => !paddedRow a).map fun a => (a, sliceBytes k m))
    ++ if m.getLsbD 21 then []
       else (List.range (mctlCols m)).map fun n => (bAddr + BitVec.ofNat 32 (n * columnBytes k m), columnBytes k m)

/-- The first row of the group that an address selects, which may be the issuing group under either form of address (R177). -/
def rowsSelector (s : State) (gid : Nat) (g : Group) (a : Word) : Option Nat := (spadRows s gid g a).map Prod.fst

/-- The read entries of a gather: one for each group whose rows it reads, first and last row (R200, R227). -/
def gatherEntries (s : State) (gid : Nat) (g : Group) (runs : List (Word × Nat)) : List (Nat × Nat) :=
  ((runs.map fun r => rowsSelector s gid g r.1).eraseDups).filterMap fun sel =>
    let spans := (runs.filter fun r => rowsSelector s gid g r.1 == sel).filterMap fun r =>
      (spadByte s gid g r.1 r.2).map fun b => (b / 128, (b + r.2 - 1) / 128)
    match spans with
    | [] => none
    | x :: xs => some (xs.foldl (fun a y => (Nat.min a.1 y.1, Nat.max a.2 y.2)) x)

def addRanges (s : State) (core owner : Nat) (isWrite : Bool) (rows : List (Nat × Nat)) : State :=
  { s with ranges := s.ranges ++ rows.map fun r => { core := core, isWrite := isWrite, first := r.1, last := r.2, owner := owner } }

/-- Put an X group word into its quarter's queue. -/
def queueOp (s : State) (q : Nat) (x : XOp) : State :=
  let v := getQuarter s q
  setQuarter s q { v with queue := v.queue ++ [x] }

/-! ### Issue of a matrix word (R224, R225) -/

/-- The word has passed its checks: it reads its operands and joins the queue. -/
def issueMatrix (s : State) (iss : Issue) (g : Group) (k : XKind) (ls sa sb ent : Nat) : State :=
  let m := g.reg 0 (sa + 3)
  let aAddr := (List.range 64).map fun r => if r < 32 then g.reg r sa else g.reg (r - 32) (sa + 1)
  let bAddr := g.reg 0 (sa + 2)
  let id := s.nextId
  let kept := keptGather s iss.gid g k m
  let e := entryOfWord k m ent
  let x : XOp := { id := id, gid := iss.gid, kind := k, ls := ls, aAddr := aAddr, bAddr := bAddr, mctl := m
                   side := sideBlock g k m sb, entryNo := e, entry := (loadedEntry s iss.gid g.ctx e).getD {}, keep := kept }
  let q := quarterOf iss.gid
  let s1 := addRanges { s with nextId := id + 1 } (coreOf iss.gid) id false
    (gatherEntries s iss.gid g (gatherRuns k m kept.isSome aAddr bAddr))
  let s2 := queueOp s1 q x
  let s3 := setQuarter s2 q { grantLatches (getQuarter s2 q) with lastMatrix := some s.clock }
  modGroup s3 iss.gid fun g => { g with lastA := some (kept.getD id, k.inputs.1.width, depthKL k m) }

/-- A MATRIX WORD: the checks of R224 in order, then its issue. -/
def matrixWord (i : Instr) (s : State) (k : XKind) (o : XF) (ent : Nat) : Result :=
  guarded i s fun iss g =>
    let src := iss.sourceGroup g
    let w := wordOf i
    let sa := o.sa.toNat
    let sb := o.sb.toNat
    let m := src.reg 0 (sa + 3)
    match groupShape iss src o.ls.toNat with
    | some cause => .next (trapWord s iss cause iss.lanes w)
    | none =>
      if matrixIllegal k m sa sb then .next (trapWord s iss 0x01 iss.lanes w)
      else
        match sideFails src k m sb with
        | l :: ls => .next (trapWord s iss 0x03 (l :: ls) w)
        | [] =>
          if operatorBad s iss.gid src.ctx k (entryOfWord k m ent) then .next (trapWord s iss 0x08 iss.lanes w)
          else
            match metaFails k m (sideBlock src k m sb) with
            | some bad =>
              .next (deliverTrap s g iss.gid 0x07 iss.lanes
                { trapRecordOf g iss.gid 0x07 iss.lanes (w.setWidth 64) with line := some bad })
            | none => .next (issueMatrix (advance s iss) iss src k o.ls.toNat sa sb ent)

/-- R229. -/
def execMma (o : XF) (p : BitVec 4) (s : State) : Result := matrixWord (.mma o p) s (.mma p.toNat false) o 0
/-- R229. -/
def execMmaSp (o : XF) (p : BitVec 4) (s : State) : Result := matrixWord (.mmaSp o p) s (.mma p.toNat true) o 0
/-- R232. -/
def execSmm (o : XF) (ty : BitVec 2) (ent : BitVec 4) (s : State) : Result :=
  matrixWord (.smm o ty ent) s (.smm ty.toNat false) o ent.toNat
/-- R232. -/
def execSmmSp (o : XF) (ty : BitVec 2) (ent : BitVec 4) (s : State) : Result :=
  matrixWord (.smmSp o ty ent) s (.smm ty.toNat true) o ent.toNat

/-! ### The gather (R225 to R228) -/

/-- The next matrix word of a quarter whose gather is not done. -/
def pendingGather (q : Quarter) : Option XOp := q.queue.find? fun x => x.kind.isMatrix && !x.gathered

/-- A run that a gather reads: the space, the key of its first byte, its length, and its address as the word gives it. -/
structure GatherRun where
  space : Nat
  key : Nat
  size : Nat
  addr : Dword
  deriving DecidableEq, Repr

/-- A run of scratchpad for a gather: an address that fails is given back (R228). -/
def spadRun (s : State) (x : XOp) (g : Group) (a : Word) (n align : Nat) : Except Dword GatherRun :=
  match spadByte s x.gid g a n with
  | none => .error (a.setWidth 64)
  | some b =>
    if a.toNat % align ≠ 0 then .error (a.setWidth 64)
    else .ok { space := 1, key := spadKey (coreOf x.gid) b, size := n, addr := a.setWidth 64 }

/-- Plan a list of runs, none for a padded one; the first failing address in order. -/
def planAll (plan : Nat → Option (Except Dword GatherRun)) : List Nat → Except Dword (List (Option GatherRun))
  | [] => .ok []
  | i :: is =>
    match plan i with
    | some (.error a) => .error a
    | r =>
      match planAll plan is with
      | .error a => .error a
      | .ok rest => .ok ((match r with
          | some (.ok b) => some b
          | _ => none) :: rest)

/-- The A slices of a word (R220, R222); none when it keeps a gathered A operand. -/
def planA (s : State) (x : XOp) (g : Group) : Except Dword (List (Option GatherRun)) :=
  let n := sliceBytes x.kind x.mctl
  if x.keep.isSome then .ok []
  else
    planAll (fun r =>
      let a := (x.aAddr[r]?).getD 0
      if paddedRow a then none else some (spadRun s x g a n (Nat.min n 128))) (List.range 64)

/-- The B columns of a word, from scratchpad or from the weight store (R220, R222, R227). -/
def planB (s : State) (x : XOp) (g : Group) : Except Dword (List (Option GatherRun)) :=
  let n := columnBytes x.kind x.mctl
  let die := dieOf x.gid
  planAll (fun c =>
    if mctlCols x.mctl ≤ c then none
    else if x.mctl.getLsbD 21 then
      let a := x.bAddr.toNat + c * n
      if x.bAddr.toNat % n ≠ 0 ∨ 2 ^ 31 ≤ a ∨ weightReadable s g.part die g.regions.getLsbD a n = false then
        some (.error (BitVec.ofNat 64 a))
      else some (.ok { space := 2, key := 2 ^ 31 * die + a, size := n, addr := BitVec.ofNat 64 a })
    else some (spadRun s x g (x.bAddr + BitVec.ofNat 32 (c * n)) n n)) (List.range 32)

/-- Read n words of a space from a byte, one event each: no word tears (R227). -/
def readRun (w : Who) (space key : Nat) : Nat → State → List Byte × State
  | 0, s => ([], s)
  | n + 1, s =>
    let r := readSpace s w space 0 key 4
    let t := readRun w space (key + 4) n r.2
    (r.1 ++ t.1, t.2)

/-- Read the runs of a plan. -/
def readPlan (w : Who) : List (Option GatherRun) → State → List (Option (List Byte)) × State
  | [], s => ([], s)
  | none :: rs, s =>
    let t := readPlan w rs s
    (none :: t.1, t.2)
  | some r :: rs, s =>
    let b := readRun w r.space r.key (r.size / 4) s
    let t := readPlan w rs b.2
    (some b.1 :: t.1, t.2)

/-- The rows of a core that a word's gather reads. -/
def gatherRows (s : State) (x : XOp) (g : Group) : List (Nat × Nat) :=
  (gatherRuns x.kind x.mctl x.keep.isSome x.aAddr x.bAddr).filterMap fun r =>
    (spadByte s x.gid g r.1 r.2).map fun b => (b / 128, (b + r.2 - 1) / 128)

/-- Some rows of a gather lie among the rows first to last. -/
def rowsHit (rows : List (Nat × Nat)) (first last : Nat) : Bool := rows.any fun r => decide (r.1 ≤ last) && decide (first ≤ r.2)

/-- The write entries that a gather waits for (R227). An mtosp that stands behind the word in its quarter's queue is none (log 120, DEDUCED). -/
def gatherMeets (s : State) (q : Nat) (x : XOp) (g : Group) : List RangeEntry :=
  let rows := gatherRows s x g
  s.ranges.filter fun e => e.isWrite && e.core == coreOf x.gid && rowsHit rows e.first e.last
    && !(getQuarter s q).queue.any fun y => y.id == e.owner && decide (x.id < y.id)

/-- A gather waits for a write entry, for earlier stores, spills, barrier words and mtosp of its group to its rows, and for an avenue
under refresh (R226, R227). -/
def gatherWaits (s : State) (q : Nat) (x : XOp) (g : Group) : Bool :=
  let rows := gatherRows s x g
  !(gatherMeets s q x g).isEmpty
    || s.accesses.any (fun a => a.gid == x.gid && decide (a.id < x.id) && spaceOf a.kind == 1 && !(match a.kind with
          | .lds | .fill _ | .scaleLoad _ => true
          | _ => false) && rowsHit rows (firstByte a / 128) ((firstByte a + a.size - 1) / 128))
    || (x.mctl.getLsbD 21 && (List.range (mctlCols x.mctl)).any fun c =>
          underRefresh s (dieOf x.gid) (x.bAddr.toNat + c * columnBytes x.kind x.mctl))

/-- A fibre of the group makes the event. -/
def Event.ofGroup (e : Event) (g : Group) : Bool :=
  match e.agent with
  | .fibre uid pos stage grank _ => uid == g.uid && pos == g.pos && stage == g.stage && grank == g.grank
  | _ => false

/-- A word's reads as events to come (R227): after the earlier writes of its group to its rows, those of earlier mtosp words, and those of
the copies that it waited for. -/
def gatherWho (s : State) (x : XOp) (g : Group) : Who :=
  let rows := gatherRows s x g
  let base := spadKey (coreOf x.gid) 0
  let earlier (e : Event) : Bool :=
    e.writes && e.space == 1 && decide (base ≤ e.first) && rowsHit rows ((e.first - base) / 128) ((e.first + e.size - 1 - base) / 128)
      && ((e.ofGroup g && decide (e.word < x.id)) || (match e.agent with
        | .matrix n => decide (n < x.id)
        | _ => false))
  { agent := .matrix x.id, after := (s.past.filter earlier).map fun e => e.id, behind := x.behind, issued := s.clock }

/-- A word leaves the queue: its entries and latches are released, and the words behind it get the latches (R225, R228). -/
def dropOp (s : State) (q : Nat) (x : XOp) : State :=
  let v := getQuarter s q
  let free (ls : List MatLatch) := ls.map fun l => { l with users := l.users.filter fun u => u != x.id }
  let last := latestOf s ((s.past.filter fun e => e.agent == .matrix x.id).map fun e => e.id)
  let s1 := noteEngine (setQuarter s q (grantLatches
    { v with queue := v.queue.filter (fun y => !(y.id == x.id)), latchA := free v.latchA, latchB := free v.latchB })) x.gid last
  settleGroup { s1 with ranges := s1.ranges.filter fun e => !(e.owner == x.id) } x.gid

/-- A latch that a gather was to fill holds nothing. -/
def emptyLatch (gather : Nat) (ls : List MatLatch) : List MatLatch := ls.map fun l => if l.gather == gather then {} else l

/-- The words that were to keep the A operand of a gather that has failed gather their own: each takes its read entries now (R225, R227)
(log 83, DEDUCED). -/
def orphanKeepers (s : State) (q : Nat) (x : XOp) : State :=
  let v := getQuarter s q
  let orphans := v.queue.filter fun y => y.keep == some x.id
  let s1 := setQuarter s q
    { v with queue := v.queue.map fun y => if y.keep == some x.id then { y with keep := none, latchA := none } else y }
  orphans.foldl (fun t y =>
    match getGroup t y.gid with
    | some g => addRanges t (coreOf y.gid) y.id false (gatherEntries t y.gid g
        ((y.aAddr.filter fun a => !paddedRow a).map fun a => (a, sliceBytes y.kind y.mctl)))
    | none => t) s1

/-- A word's gather fails: a deferred trap, the landing slot as it was (R228) (log 45, DEDUCED). -/
def failGather (s : State) (q : Nat) (x : XOp) (g : Group) (cause : Nat) (addr : Dword) : State :=
  let s1 := orphanKeepers (takeTrap s cause x.gid (List.range g.width) addr) q x
  let v := getQuarter s1 q
  dropOp (setQuarter s1 q { v with latchA := if x.keep.isSome then v.latchA else emptyLatch x.id v.latchA, latchB := emptyLatch x.id v.latchB }) q x

/-- Put gathered data into a latch. -/
def fillLatch (ls : List MatLatch) (i : Nat) (data : List (Option (List Byte))) : List MatLatch :=
  match ls[i]? with
  | some l => setAt ls i { l with data := data }
  | none => ls

/-- The gather of a word completes: its latches hold its operands, and its read entries are released (R225, R227); or it meets an
uncorrectable error in one of its runs (R228). -/
def completeGather (s : State) (q : Nat) (x : XOp) (g : Group) (err : Bool) : State :=
  match x.latchA, x.latchB with
  | some la, some lb =>
    match planA s x g, planB s x g with
    | .error a, _ => failGather s q x g 0x0E a
    | _, .error a => failGather s q x g 0x0E a
    | .ok ra, .ok rb =>
      let runs := (ra ++ rb).filterMap id
      let broken := runs.find? fun r => damagedIn s r.space r.key r.size
      if err || broken.isSome then
        let f := takeFresh s
        let a := ((broken.or (runs[Config.failedRun f.1 % runs.length]?)).map fun r => r.addr).getD (x.bAddr.setWidth 64)
        failGather (logError f.2 g.ctx 3 a) q x g 0x12 a
      else
        let w := gatherWho s x g
        let da := readPlan w ra s
        let db := readPlan w rb da.2
        let s1 := db.2
        let v := getQuarter s1 q
        let s2 := setQuarter s1 q { v with
          latchA := if x.keep.isSome then v.latchA else fillLatch v.latchA la da.1
          latchB := fillLatch v.latchB lb db.1
          queue := v.queue.map fun y => if y.id == x.id then { y with gathered := true } else y }
        { s2 with ranges := s2.ranges.filter fun e => !(e.owner == x.id) }
  | _, _ => s

/-- A gather that waits notes whose entries it waits for (R269). -/
def noteGatherWait (s : State) (q : Nat) (x : XOp) (g : Group) : State :=
  let met := ((gatherMeets s q x g).map fun e => e.owner).filter fun o => !x.behind.contains o
  if met.isEmpty then s
  else
    let v := getQuarter s q
    setQuarter s q { v with queue := v.queue.map fun y => if y.id == x.id then { y with behind := y.behind ++ met } else y }

/-- R226: the gather of the quarter's next matrix word completes, or meets an uncorrectable error. -/
def execMatrixGatherComplete (quarter : Nat) (err : Bool) (s : State) : Result :=
  match pendingGather (getQuarter s quarter) with
  | none => .next s
  | some x =>
    match getGroup s x.gid with
    | none => .next s
    | some g =>
      .next (if gatherWaits s quarter x g then noteGatherWait s quarter x g else completeGather s quarter x g err)

/-! ### Execution (R230, R233) -/

/-- The bytes of a latch's run. -/
def latchRun (ls : List MatLatch) (i : Option Nat) (n : Nat) : Option (List Byte) :=
  match i.bind fun k => ls[k]? with
  | some l => (l.data[n]?).getD none
  | none => none

/-- The scale code of a line and a logical position (R106, R223). -/
def scaleCode (x : XOp) (isB : Bool) (line k : Nat) : Nat :=
  let kd := depthK x.kind
  let blk := mctlBs x.mctl + k % kd / scaleBlock x.kind.inputs.1
  let r := 8 * (k / kd) + (if isB then 4 else 0) + 2 * (blk / 4) + line / 32
  (sideWord x.side r (line % 32)).toNat / 256 ^ (blk % 4) % 256

/-- The stored index of a logical position of a column, none when it is omitted (R108). -/
def storedIndex (x : XOp) (n k : Nat) : Option Nat :=
  if x.kind.sparse then
    let nn := sparseN x.mctl
    ((List.range nn).find? fun m => metaPos x.kind x.mctl x.side n (k / 16) m == k % 16).map fun m => k / 16 * nn + m
  else some k

/-- KV with 0 as the whole depth (R221). -/
def validDepth (x : XOp) : Nat := if bitsOf x.mctl 9 0 = 0 then depthKL x.kind x.mctl else bitsOf x.mctl 9 0

/-- The semiring of a word: its entry, for its type (R231, R236, R238). -/
def semiOf (x : XOp) : Semi :=
  if x.entryNo < 8 then
    (match x.kind with
      | .mma p _ => fixedSemi 0 (if p = 4 then 1 else 0)
      | .smm ty _ => fixedSemi x.entryNo ty
      | _ => fixedSemi 0 0)
  else x.entry.semi

/-- The padding value as a number (R231, R236, R238). -/
def padFv (x : XOp) : Fv :=
  let p := (semiOf x).pad
  match x.kind.inputs.1 with
  | .i8 | .i32 => fvOfInt (signedBits 32 p)
  | .b1 => .fin false (p % 2) 0
  | .bf16 => if x.kind.pairCode.isSome then fp32.decode p else bf16.decode (p % 65536)
  | _ => fp32.decode p

/-- The value of an illegal I4X code (R95). -/
def illegalValue (x : XOp) : Fv :=
  match (semiOf x).ill with
  | 0 => .fin false 0 0
  | 1 => .fin true 8 0
  | 2 => .nan false
  | _ => padFv x

/-- A decoded element with its scale. -/
def scaled (x : XOp) (isB : Bool) (line k : Nat) (v : Option Fv) : Fv :=
  let v := v.getD (illegalValue x)
  if usesScales x.kind x.mctl then scaleFv v (scaleCode x isB line k) else v

/-- A(m, k) of R230. -/
def elemA (v : Quarter) (x : XOp) (m k : Nat) : Fv :=
  match latchRun v.latchA x.latchA m with
  | none => padFv x
  | some b => if validDepth x ≤ k then padFv x else scaled x false m k (decodeElement x.kind.inputs.1 b k)

/-- B(k, n) of R230; none for an omitted position. -/
def elemB (v : Quarter) (x : XOp) (n k : Nat) : Option Fv :=
  match latchRun v.latchB x.latchB n with
  | none => some (padFv x)
  | some b =>
    if validDepth x ≤ k then some (padFv x)
    else (storedIndex x n k).map fun i => scaled x true n k (decodeElement x.kind.inputs.2 b i)

/-- The integer of an exact integral value. -/
def intOfFv : Fv → Int
  | .fin n m e => if n then -((m * pow2 e : Nat) : Int) else ((m * pow2 e : Nat) : Int)
  | _ => 0

/-- An omitted position gives +0 under times / plus of entry 0 and of mma, and no term elsewhere (R230, R233, R236) (log 47, DEDUCED). -/
def omittedZero (x : XOp) : Bool := x.kind.pairCode.isSome || x.entryNo == 0

/-- One cell of R230 and R233. -/
def matrixCell (v : Quarter) (x : XOp) (acc : Word) (m n : Nat) : Word :=
  let ks := List.range (depthKL x.kind x.mctl)
  let semi := semiOf x
  let pairs := ks.filterMap fun k => (elemB v x n k).map fun b => (elemA v x m k, b)
  let f := x.kind.inputs
  match f.1 with
  | .i8 | .i32 =>
    BitVec.ofInt 32 (cellInt semi (signedBits 32 acc.toNat) (pairs.map fun p => (intOfFv p.1, intOfFv p.2)))
  | .b1 =>
    BitVec.ofNat 32 (cellBits semi.red acc.toNat (pairs.map fun p => ((intOfFv p.1).toNat, (intOfFv p.2).toNat)))
  | _ =>
    let term := fun k => match elemB v x n k with
      | some b => some (combineFp semi.cmb semi.number (elemA v x m k) b)
      | none => if omittedZero x then some (.fin false 0 0) else none
    if x.kind.pairCode.isSome then
      let wide := f.1.width = 16
      BitVec.ofNat 32 (blockSums semi.rounding wide (if wide then 16 else 32) ks.length acc.toNat (ks.map term))
    else BitVec.ofNat 32 (cellFp semi (f.1 == .bf16) acc.toNat (ks.map term))

/-- An element that the word uses decodes through an illegal code (R95). -/
def usesIllegal (v : Quarter) (x : XOp) : Bool :=
  x.kind.inputs.1 == .i4x && (List.range (validDepth x)).any fun k =>
    (List.range 64).any (fun m => match latchRun v.latchA x.latchA m with
      | some b => (decodeElement .i4x b k).isNone
      | none => false)
    || (List.range 32).any fun n => match latchRun v.latchB x.latchB n, storedIndex x n k with
      | some b, some i => (decodeElement .i4x b i).isNone
      | _, _ => false

/-- Write every cell of a landing slot (log 49, DEDUCED). -/
def writeSlot (g : Group) (ls : Nat) (cell : Nat → Nat → Word) : Group :=
  (List.range 64).foldl (fun acc m => (List.range 32).foldl (fun h n => h.setLand ls m n (cell m n)) acc) g

/-- The results of a word reach its landing slot, and IX its fibres (R95, R225, R230), but not where a later word has written over it
(R166). -/
def writeResults (g : Group) (v : Quarter) (x : XOp) : Group :=
  let g1 := markUncommitted (writeSlot g x.ls fun m n => matrixCell v x (g.landCell x.ls m n) m n) x.ls
  if usesIllegal v x then
    { g1 with fibres := (g1.fibres.zip (List.range g1.fibres.length)).map fun f =>
        if f.1.live && !x.ixOff.contains f.2 then raiseStatus f.1 { ix := true } else f.1 }
  else g1

/-- The word at the head of a quarter's queue. -/
def headOp (s : State) (q : Nat) : Option XOp := (getQuarter s q).queue.head?

/-- R225: the word at the head executes once its latches are filled and every commit before it has read the slot (R215). -/
def execMatrixExecute (quarter : Nat) (s : State) : Result :=
  match headOp s quarter with
  | none => .next s
  | some x =>
    if x.kind.isMatrix && x.gathered && !x.begun && !commitBefore s x.gid x.ls x.id then
      let v := getQuarter s quarter
      .next (setQuarter s quarter { v with queue := v.queue.map fun y => if y.id == x.id then { y with begun := true } else y })
    else .next s

/-- R225, R230, R233: the execution ends, and its results stand in the landing slot. -/
def execMatrixExecuteComplete (quarter : Nat) (s : State) : Result :=
  match headOp s quarter with
  | none => .next s
  | some x =>
    if x.kind.isMatrix && x.begun then
      .next (dropOp (modGroup s x.gid fun g => writeResults g (getQuarter s quarter) x) quarter x)
    else .next s

/-! ### Landing words (R240) -/

/-- A group word of the landing family: R28 and R219, then its own check. -/
def landingWord (i : Instr) (s : State) (ls : Nat) (h : Issue → Group → Group → Result) : Result :=
  guarded i s fun iss g =>
    match groupShape iss (iss.sourceGroup g) ls with
    | some cause => .next (trapWord s iss cause iss.lanes (wordOf i))
    | none => h iss g (iss.sourceGroup g)

/-- Queue a fill of a slot. -/
def queueFill (s : State) (iss : Issue) (ls : Nat) (v : Word) : State :=
  queueOp { (advance s iss) with nextId := s.nextId + 1 } (quarterOf iss.gid)
    { id := s.nextId, gid := iss.gid, kind := .fill v, ls := ls }

/-- R240. -/
def execMzero (c : Bool) (ec ls : BitVec 2) (s : State) : Result :=
  landingWord (.mzero c ec ls) s ls.toNat fun iss _ _ => .next (queueFill s iss ls.toNat 0)

/-- The identity that mfill writes; none where it raises the operator-table trap (R240). -/
def fillIdentity (s : State) (gid ctx e : Nat) (int : Bool) : Option Word :=
  if e < 8 then
    if 6 ≤ e && !int then none
    else
      let o := fixedOps e
      some (BitVec.ofNat 32 (if int then o.2.2.2 else o.2.2.1))
  else
    match loadedEntry s gid ctx e with
    | none => none
    | some d => if (d.ty == 1 || d.ty == 3) == int then some d.ident else none

/-- mfill of either format. -/
def mfill (i : Instr) (s : State) (ls : BitVec 2) (ent : BitVec 4) (int : Bool) : Result :=
  landingWord i s ls.toNat fun iss _ src =>
    match fillIdentity s iss.gid src.ctx ent.toNat int with
    | none => .next (trapWord s iss 0x08 iss.lanes (wordOf i))
    | some v => .next (queueFill s iss ls.toNat v)

/-- R240. -/
def execMfillF32 (c : Bool) (ec ls : BitVec 2) (ent : BitVec 4) (s : State) : Result :=
  mfill (.mfillF32 c ec ls ent) s ls ent false
/-- R240. -/
def execMfillI32 (c : Bool) (ec ls : BitVec 2) (ent : BitVec 4) (s : State) : Result :=
  mfill (.mfillI32 c ec ls ent) s ls ent true

/-- The first row of mtosp that fails its check at issue (R240). -/
def mtospFails (s : State) (gid : Nat) (g : Group) (addr : Word) (count : Nat) : Option Dword :=
  if addr.toNat % 128 ≠ 0 then some (addr.setWidth 64)
  else ((List.range count).find? fun k => (spadByte s gid g (addr + BitVec.ofNat 32 (128 * k)) 128).isNone).map fun k =>
    (addr + BitVec.ofNat 32 (128 * k)).setWidth 64

/-- R240: the rows' write entry is taken at issue. -/
def execMtosp (o : XF) (s : State) : Result :=
  landingWord (.mtosp o) s o.ls.toNat fun iss _ src =>
    let addr := src.reg 0 o.sa.toNat
    let desc := src.reg 0 o.sb.toNat
    let count := commitCount desc
    match mtospFails s iss.gid src addr count with
    | some a => .next (takeTrap (advance s iss) 0x0E iss.gid iss.lanes a)
    | none =>
      let byte := (spadByte s iss.gid src addr (128 * count)).getD 0
      let s1 := queueOp { (advance s iss) with nextId := s.nextId + 1 } (quarterOf iss.gid)
        { id := s.nextId, gid := iss.gid, kind := .mtosp byte (commitFirst desc) count, ls := o.ls.toNat }
      .next (if count = 0 then s1 else addRanges s1 (coreOf iss.gid) s.nextId true [(byte / 128, byte / 128 + count - 1)])

/-- The transfers by copies into the slot of a word that it waits for have completed (R240). -/
def slotQuiet (s : State) (x : XOp) : Bool :=
  !s.copies.any (fun c => !c.hub && c.gid == x.gid && c.dk == 5 && bitsOf (c.dw 2) 1 0 == x.ls && decide (c.id < x.id))
    && !commitBefore s x.gid x.ls x.id

/-- R240: a fill executes. -/
def execLandingExecute (quarter : Nat) (s : State) : Result :=
  match headOp s quarter with
  | none => .next s
  | some x =>
    match x.kind with
    | .fill v =>
      if slotQuiet s x then
        .next (dropOp (modGroup s x.gid fun g => markUncommitted (writeSlot g x.ls fun _ _ => v) x.ls) quarter x)
      else .next s
    | _ => .next s

/-- The bytes of a landing-slot row (R209). -/
def landRow (g : Group) (ls row : Nat) : List Byte := ((List.range 32).map fun n => bytesOf 4 (g.landCell ls row n).toNat).flatten

/-- R240: the word at the head writes its next row, as one event after the rows that its unit has written before; then, or at once for no
row, the slot holds no uncommitted contents. -/
def execMtospRowWrite (quarter : Nat) (s : State) : Result :=
  match headOp s quarter with
  | none => .next s
  | some x =>
    match x.kind, getGroup s x.gid with
    | .mtosp byte first count, some g =>
      if slotQuiet s x then
        let row := spadKey (coreOf x.gid) (byte + 128 * x.rowsDone)
        let v0 := getQuarter s quarter
        let s1 := if count = 0 then s
          else writeSpace (setQuarter s quarter { v0 with wrote := some s.events })
            { agent := .matrix x.id, after := v0.wrote.toList, issued := s.clock } 1 0 row (landRow g x.ls (first + x.rowsDone))
        if count ≤ x.rowsDone + 1 then
          .next (dropOp (modGroup s1 x.gid fun g => { g with uncommitted := g.uncommitted.filter fun k => k != x.ls }) quarter x)
        else
          let v := getQuarter s1 quarter
          .next (setQuarter s1 quarter { v with queue := v.queue.map fun y =>
            if y.id == x.id then { y with rowsDone := x.rowsDone + 1, begun := true } else y })
      else .next s
    | _, _ => .next s

/-! ### opld (R238, R239) -/

/-- The gang's fibres are not ready until a table load is done. -/
def startLoad (s : State) (iss : Issue) (t : TableLoad) : State :=
  let s1 := modLanes (advance s iss) iss.gid iss.lanes fun f => { f with pipeHold := some s.nextId }
  { s1 with nextId := s.nextId + 1, tableLoads := s1.tableLoads ++ [{ t with id := s.nextId, gid := iss.gid, lanes := iss.lanes }] }

/-- A load of n bytes of a table from the core's scratchpad: the byte, or none when the address fails (R177, R239, R244). -/
def tableByte (s : State) (gid : Nat) (g : Group) (addr : Word) (n align : Nat) : Option Nat :=
  if addr.toNat % align ≠ 0 then none else spadByte s gid g addr n

/-- The read of a table met an uncorrectable error: nothing is loaded (R174, R358). -/
def brokenTable (s : State) (iss : Issue) (g : Group) (addr : Dword) : State :=
  takeTrap (logError s g.ctx 3 addr) 0x12 iss.gid iss.lanes addr

/-- R239: the descriptor is read and checked at issue; the entry is loaded when the load is done (log 48, DEDUCED). -/
def execOpld (c : Bool) (ec : BitVec 2) (sa : BitVec 7) (n : BitVec 3) (s : State) : Result :=
  guarded (.opld c ec sa n) s fun iss g =>
    let src := iss.sourceGroup g
    let addr := src.reg (iss.lanes.headD 0) sa.toNat
    match tableByte s iss.gid src addr 16 16 with
    | none => .next (takeTrap (advance s iss) 0x0E iss.gid iss.lanes (addr.setWidth 64))
    | some b =>
      let r := readWords (wordWho s src (iss.lanes.headD 0)) (coreOf iss.gid) b 4 s
      let w := fun k => (r.1[k]?).getD 0
      let d : OpDesc := { ctl := w 0, ident := w 1, pad := w 2, tail := w 3 }
      if damagedIn s 1 (spadKey (coreOf iss.gid) b) 16 then .next (brokenTable (advance r.2 iss) iss g (addr.setWidth 64))
      else if !descOk d then .next (trapWord r.2 iss 0x08 iss.lanes (wordOf (.opld c ec sa n)))
      else .next (startLoad r.2 iss { id := 0, gid := 0, lanes := [], entry := some (8 + n.toNat), desc := d })

/-- A table load is over: its fibres go on. -/
def endLoad (s : State) (t : TableLoad) : State :=
  let s1 := { s with tableLoads := s.tableLoads.filter fun x => !(x.id == t.id) }
  settleGroup (modLanes s1 t.gid t.lanes fun f => if f.pipeHold = some t.id then { f with pipeHold := none } else f) t.gid

/-- R235, R239: the entry is loaded. -/
def execOpldLoadDone (id : Nat) (s : State) : Result :=
  match s.tableLoads.find? fun t => t.id == id with
  | none => .next s
  | some t =>
    match t.entry, getGroup s t.gid with
    | some n, some g => .next (endLoad { s with opTab := tblInsert s.opTab (opKey (coreOf t.gid) g.ctx n) t.desc } t)
    | _, _ => .next s

end Sys2Proof.Machine
end

