-- ==== Sys2Proof/Machine/Mask.lean ====
section
/-! DEFINITION. The mask unit (R242 to R246). -/

namespace Sys2Proof.Machine

/-! ### Programs (R242, R244) -/

def maskOp (w : Word) : Nat := bitsOf w 31 30

/-- The words of a program keep the rules of R244: no illegal code up to the first END, an END, and nothing beside it in END. -/
def maskWordsOk : List Word → Bool
  | [] => false
  | w :: ws =>
    match maskOp w with
    | 0 => bitsOf w 29 0 == 0
    | 3 => false
    | _ => maskWordsOk ws

/-- Boundaries ascend strictly below 2^31 (R244). -/
def boundsOk : List Word → Bool
  | [] => true
  | [b] => decide (b.toNat < 2 ^ 31)
  | a :: b :: rest => decide (a.toNat < b.toNat) && boundsOk (b :: rest)

/-- The boundaries of a group's program. -/
def Group.docs (g : Group) : List Word := (List.range g.docn).map fun i => (g.bounds[i]?).getD 0

/-- The group's program would pass the checks of R244 (R354). -/
def programOk (g : Group) : Bool := maskWordsOk g.maskWords && boundsOk g.docs

/-! ### Key sets (R242, R243) -/

/-- The value of a base for query position q (R242). -/
def maskBase (g : Group) (q code : Nat) : Int :=
  let docs := g.docs.map fun b => b.toNat
  let d := (docs.filter fun b => decide (b ≤ q)).length
  match code with
  | 0 => 0
  | 1 => q
  | 2 => if d = 0 then 0 else (((docs[d - 1]?).getD 0 : Nat) : Int)
  | 3 => (((docs[d]?).getD (2 ^ 31) : Nat) : Int)
  | 4 => (q : Int) + g.c0.toInt
  | 5 => (q : Int) + g.c1.toInt
  | 6 => g.c0.toInt
  | _ => g.c1.toInt

def clampKey (x : Int) : Nat := if x < 0 then 0 else if 2147483648 < x then 2147483648 else x.toNat

/-- The interval of a mask word (R243). -/
def maskInterval (g : Group) (q : Nat) (w : Word) : Nat × Nat :=
  (clampKey (maskBase g q (bitsOf w 29 27) + signedBits 12 (bitsOf w 26 15)),
   clampKey (maskBase g q (bitsOf w 14 12) + signedBits 12 (bitsOf w 11 0)))

/-- Merge an interval into a sorted list of disjoint intervals that do not touch (R243). -/
def mergeInterval (i : Nat × Nat) : List (Nat × Nat) → List (Nat × Nat)
  | [] => [i]
  | x :: xs =>
    if i.2 < x.1 then i :: x :: xs
    else if x.2 < i.1 then x :: mergeInterval i xs
    else mergeInterval (Nat.min i.1 x.1, Nat.max i.2 x.2) xs

/-- Add an interval, when it is not empty. -/
def addInterval (i : Nat × Nat) (s : List (Nat × Nat)) : List (Nat × Nat) := if i.1 < i.2 then mergeInterval i s else s

/-- Keep what lies in an interval. -/
def clipInterval (i : Nat × Nat) (s : List (Nat × Nat)) : List (Nat × Nat) :=
  (s.map fun x => (Nat.max x.1 i.1, Nat.min x.2 i.2)).filter fun x => decide (x.1 < x.2)

/-- S(q) through the words of a program; none when it holds more than four intervals (R243). -/
def keySetFrom (g : Group) (q : Nat) : List Word → List (Nat × Nat) → Option (List (Nat × Nat))
  | [], s => some s
  | w :: ws, s =>
    if maskOp w = 0 then some s
    else
      let i := maskInterval g q w
      let s1 := if maskOp w = 1 then addInterval i s else clipInterval i s
      if 4 < s1.length then none else keySetFrom g q ws s1

def keySet (g : Group) (q : Nat) : Option (List (Nat × Nat)) := keySetFrom g q g.maskWords []

/-- Key k is allowed by a key set. -/
def allowed (s : List (Nat × Nat)) (k : Nat) : Bool := s.any fun i => decide (i.1 ≤ k) && decide (k < i.2)

/-! ### mclass and mbits (R245, R246) -/

/-- The rows of a tile; none when one overflows. -/
def tileRows (g : Group) (q0 n : Nat) : Option (List (List (Nat × Nat))) := (List.range n).mapM fun i => keySet g (q0 + i)

/-- mclass: 2 full, 1 partial, 0 empty. -/
def classOf (rows : List (List (Nat × Nat))) (k0 : Nat) : Nat :=
  let hits := rows.map fun s => ((List.range 64).filter fun j => allowed s (k0 + j)).length
  if hits.all fun h => h == 64 then 2 else if hits.all fun h => h == 0 then 0 else 1

/-- mbits: the allowed keys of one row. -/
def bitsOfRow (s : List (Nat × Nat)) (k0 : Nat) : Dword := maskOf ((List.range 64).filter fun j => allowed s (k0 + j))

/-- The fibres of a mask word that raise the mask-program trap (R245, R354). -/
def maskBadLanes (g : Group) (lanes : List Nat) (sa : Nat) : List Nat :=
  lanes.filter fun l => !programOk g || decide (2 ^ 31 - 64 < (g.reg l sa).toNat) || decide (2 ^ 31 - 64 < (g.reg l (sa + 1)).toNat)

/-- A mask word: its two precise traps, then its result for each fibre (R245). -/
def maskWord (i : Instr) (s : State) (sa rows : Nat) (write : State → Issue → Group → State) : Result :=
  guarded i s fun iss g =>
    let src := iss.sourceGroup g
    match maskBadLanes src iss.lanes sa with
    | l :: ls => .next (trapWord s iss 0x09 (l :: ls) (wordOf i))
    | [] =>
      match iss.lanes.filter fun l => (tileRows src (src.reg l sa).toNat rows).isNone with
      | l :: ls => .next (trapWord s iss 0x0A (l :: ls) (wordOf i))
      | [] => .next (write (advance s iss) iss src)

/-- The key of a core's tile counter of a partition: empty, partial, full (R246, R319). -/
def tileKey (core part kind : Nat) : Nat := 48 * core + 3 * part + kind

def bumpTile (s : State) (core part kind : Nat) : State :=
  { s with tiles := tblSet 0 s.tiles (tileKey core part kind) (tblGet 0 s.tiles (tileKey core part kind) + 1) }

/-- The class of a fibre's tile. -/
def laneClass (src : Group) (sa l : Nat) : Nat :=
  classOf ((tileRows src (src.reg l sa).toNat 64).getD []) (src.reg l (sa + 1)).toNat

/-- One fibre's class: its result, the latch, SKIPCNT for an empty tile, and the core's counter of the partition (R245, R246). -/
def writeClass (gid : Nat) (src : Group) (sa sb : Nat) (s : State) (l : Nat) : State :=
  let k := laneClass src sa l
  let s1 := modGroup s gid fun g =>
    ({ g with skipcnt := if k = 0 then g.skipcnt + 1 else g.skipcnt }.setReg l sb (BitVec.ofNat 32 k)).modFibre l fun f =>
      pushLatch f 6 6 (BitVec.ofNat 32 k)
  bumpTile s1 (coreOf gid) src.part k

/-- R245, R246. -/
def execMclass (c : Bool) (ec : BitVec 2) (sa sb : BitVec 7) (s : State) : Result :=
  maskWord (.mclass c ec sa sb) s sa.toNat 64 fun t iss src =>
    iss.lanes.foldl (writeClass iss.gid src sa.toNat sb.toNat) t

/-- One fibre's bits. -/
def writeMbits (gid : Nat) (src : Group) (sa sb : Nat) (s : State) (l : Nat) : State :=
  let v := bitsOfRow ((keySet src (src.reg l sa).toNat).getD []) (src.reg l (sa + 1)).toNat
  modGroup s gid fun g => (g.setBlock l sb (pairWords v)).modFibre l fun f => pushLatch f 6 6 (lowWord v)

/-- R245. -/
def execMbits (c : Bool) (ec : BitVec 2) (sa sb : BitVec 7) (s : State) : Result :=
  maskWord (.mbits c ec sa sb) s sa.toNat 1 fun t iss src =>
    iss.lanes.foldl (writeMbits iss.gid src sa.toNat sb.toNat) t

/-! ### mpld (R244) -/

/-- What mpld finds: an address that fails, an uncorrectable error, a program that fails its checks, or a program. -/
inductive MaskImage
  | fault (addr : Word) | broken (addr : Word) | bad | ok (words : List Word) (c0 c1 : Word) (bounds : List Word)
  deriving DecidableEq, Repr

/-- Read an image and its boundaries, each word one event (R244): an address that fails fails the load before its program is checked, but a
list of more than 256 boundaries is not read (log 121, DEDUCED). -/
def readMask (s : State) (gid lane : Nat) (g : Group) (addr : Word) : MaskImage × State :=
  match tableByte s gid g addr 128 128 with
  | none => (.fault addr, s)
  | some b =>
    let who := wordWho s g lane
    let r := readWords who (coreOf gid) b 32 s
    let at_ := fun k => (r.1[k]?).getD 0
    let docs := at_ 18
    let n := (at_ 19).toNat
    let sound := (r.1.drop 20).all (fun x => x == 0) && maskWordsOk (r.1.take 16)
    if damagedIn s 1 (spadKey (coreOf gid) b) 128 then (.broken addr, r.2)
    else if docs.toNat % 4 ≠ 0 then (.fault docs, r.2)
    else if 256 < n then (.bad, r.2)
    else if n = 0 then (if sound then .ok (r.1.take 16) (at_ 16) (at_ 17) [] else .bad, r.2)
    else
      match (List.range n).find? fun k => (spadByte s gid g (docs + BitVec.ofNat 32 (4 * k)) 4).isNone with
      | some k => (.fault (docs + BitVec.ofNat 32 (4 * k)), r.2)
      | none =>
        let d := (spadByte s gid g docs 4).getD 0
        let l := readWords who (coreOf gid) d n r.2
        (if damagedIn s 1 (spadKey (coreOf gid) d) (4 * n) then .broken docs else if sound && boundsOk l.1 then .ok (r.1.take 16) (at_ 16) (at_ 17) l.1 else .bad, l.2)

/-- R244: the image is read and checked at issue; the program is the group's when the load is done. -/
def execMpld (c : Bool) (ec : BitVec 2) (sa : BitVec 7) (s : State) : Result :=
  guarded (.mpld c ec sa) s fun iss g =>
    let src := iss.sourceGroup g
    match readMask s iss.gid (iss.lanes.headD 0) src (src.reg (iss.lanes.headD 0) sa.toNat) with
    | (.fault a, s1) => .next (takeTrap (advance s1 iss) 0x0E iss.gid iss.lanes (a.setWidth 64))
    | (.broken a, s1) => .next (brokenTable (advance s1 iss) iss g (a.setWidth 64))
    | (.bad, s1) => .next (trapWord s1 iss 0x09 iss.lanes (wordOf (.mpld c ec sa)))
    | (.ok words c0 c1 bounds, s1) =>
      .next (startLoad s1 iss { id := 0, gid := 0, lanes := [], maskWords := words, c0 := c0, c1 := c1, bounds := bounds })

/-- R242, R244: every later mask word of the group uses the new program (log 52, DESIGN CHOICE). -/
def execMpldLoadDone (id : Nat) (s : State) : Result :=
  match s.tableLoads.find? fun t => t.id == id with
  | none => .next s
  | some t =>
    match t.entry with
    | some _ => .next s
    | none =>
      .next (endLoad (modGroup s t.gid fun g =>
        { g with maskWords := t.maskWords, c0 := t.c0, c1 := t.c1, bounds := t.bounds, docn := t.bounds.length }) t)

end Sys2Proof.Machine
end

