-- ==== Sys2Proof/Machine/Chain.lean ====
section
/-! DEFINITION. Chains (R53 to R55, R63, R76, R77): which words issue together, what they name, the checks that cover the whole chain, and
what a chain waits for before it can issue (R25, R85, R148, R292). -/

namespace Sys2Proof.Machine

/-! ### The words of a chain (R54, R77) -/

def opOfWord (w : Word) : Nat := (field w 24 7).toNat
def isPrefixWord (w : Word) : Bool := decide (0x7B ≤ opOfWord w) && decide (opOfWord w ≤ 0x7E)
/-- A word that is not a prefix has its chain bit set. -/
def chainBit (w : Word) : Bool := !isPrefixWord w && w.getLsbD 31

/-- A chain: its words with their positions in the packet, prefixes included, and whether an illegal-packet condition of R77 that
depends on the words' places holds. -/
structure Chain where
  words : List (Nat × Word) := []
  bad : Bool := false
  deriving DecidableEq, Repr

/-- The words of a chain from its first word that is not a prefix. -/
def chainTail : List (Nat × Word) → Chain
  | [] => { bad := true }
  | (p, w) :: rest =>
    if !chainBit w then { words := [(p, w)] }
    else
      match rest with
      | [] => { words := [(p, w)], bad := true }
      | (_, v) :: _ =>
        if isPrefixWord v then { words := [(p, w)], bad := true }
        else
          let t := chainTail rest
          { words := (p, w) :: t.words, bad := t.bad }

/-- The chain that the first of the words begins. -/
def chainHead : List (Nat × Word) → Chain
  | [] => { bad := true }
  | (p, w) :: rest =>
    if isPrefixWord w then
      let t := chainHead rest
      { words := (p, w) :: t.words, bad := t.bad }
    else chainTail ((p, w) :: rest)

/-- A list names something twice. -/
def hasTwice {α : Type} [BEq α] : List α → Bool
  | [] => false
  | x :: xs => xs.contains x || hasTwice xs

/-- The words of a chain that are not prefixes. -/
def Chain.body (c : Chain) : List (Nat × Word) := c.words.filter fun x => !isPrefixWord x.2
def Chain.prefixes (c : Chain) : List (Nat × Word) := c.words.filter fun x => isPrefixWord x.2

/-- The word of a chain carries a rep prefix (R65): opcode 0x7B. -/
def Chain.hasRep (c : Chain) : Bool := c.prefixes.any fun x => opOfWord x.2 == 0x7B

/-- THE CHAIN that a fibre reaches at a position of a packet. -/
def chainAt (packet : List Word) (pos : Nat) : Chain :=
  let placed := (List.range packet.length).zip packet
  let c := chainHead (placed.drop pos)
  let before := decide (0 < pos) && chainBit ((packet[pos - 1]?).getD 0)
  let twice := hasTwice (c.body.filterMap fun x => pipeOfCode (opOfWord x.2))
  { c with bad := c.bad || before || twice || (c.hasRep && (c.body.head?.map fun x => chainBit x.2) == some true) }

/-- The chain of a fibre that holds its packet. -/
def nextChain (f : Fibre) : Chain :=
  match f.packet with
  | some (_, ws) => chainAt ws (packetPos f.pc)
  | none => { bad := true }

/-- The instruction of a word, none when it has no decoding (R78). -/
def instrOf (w : Word) : Option Instr :=
  match decode w with
  | .ok i => some i
  | .error _ => none

/-- Add a prefix to what stands before the next word: none when its kind already stands there (R63). -/
def withPrefix (iss : Issue) : Instr → Option Issue
  | .rep nr nc ca cb rsd rsa rsb =>
    if iss.rep.isSome then none
    else some { iss with rep := some { nr := nr.toNat, nc := nc.toNat, ca := ca.toNat, cb := cb.toNat, rsd := rsd.toNat
                                       rsa := rsa.toNat, rsb := rsb.toNat } }
  | .xl pat k fill => if iss.xl.isSome then none else some { iss with xl := some { pat := pat.toNat, k := k.toNat, own := fill } }
  | .grd sense bit => if iss.grd.isSome then none else some { iss with grd := some (sense, bit) }
  | .ext imm => if iss.ext.isSome then none else some { iss with ext := some imm }
  | _ => none

/-- The issue with a chain's prefixes; the word that stands first in error. -/
def withPrefixes (iss : Issue) : List (Nat × Word) → Except Word Issue
  | [] => .ok iss
  | (_, w) :: rest =>
    match (instrOf w).bind (withPrefix iss) with
    | some iss1 => withPrefixes iss1 rest
    | none => .error w

/-- The issue without prefixes. -/
def Issue.bare (iss : Issue) : Issue := { iss with rep := none, xl := none, grd := none, ext := none }

/-- The issue of a gang at a chain, before its first word. -/
def issueAt (gid : Nat) (lanes : List Nat) (pc : Dword) (c : Chain) : Issue :=
  let base := packetBase pc
  let last := (c.words.getLast?.map Prod.fst).getD (packetPos pc)
  { gid := gid, lanes := lanes, start := pc, pc := pc, next := BitVec.ofNat 64 (base + 4 * (last + 1)) }

/-- The instructions of a chain's body, each with the issue as it stands at its word: prefixes stand before the first only. -/
def bodyIssues (iss : Issue) : List (Nat × Word) → List (Issue × Word)
  | [] => []
  | (p, w) :: rest =>
    ({ iss with pc := BitVec.ofNat 64 (packetBase iss.start + 4 * p) }, w) :: bodyIssues iss.bare rest

/-! ### What the words name (R55, R77, R85) -/

/-- A source in the fibre's own registers. -/
def ownUse (x : Option Src) : List Use :=
  match x with
  | some x => if x.latch || x.m then [] else [(x.code, x.sh.count)]
  | none => []

/-- The latch that a source names. -/
def latchUse (x : Option Src) : List Nat :=
  match x with
  | some x => if x.latch then [x.code - 120] else []
  | none => []

/-- The registers of other lanes that a modified source reads: the lane of each, and the register (R62, R85). -/
def foreignUse (g : Group) (iss : Issue) (lane : Nat) (x : Option Src) : List (Nat × Use) :=
  match x with
  | some x =>
    if x.latch || !x.m then []
    else
      let j := (sourceLane iss g.width lane).getD lane
      [(j, (x.code, x.sh.count))] ++ (if fillOwn iss then [(lane, (x.code, x.sh.count))] else [])
  | none => []

/-- The register destinations of a word (R61, R77, R151) (log 86, DEDUCED). -/
def destsOf (g : Group) (lanes : List Nat) (i : Instr) : List Use :=
  match vecForm i with
  | some f => if f.nw || f.pbit then [] else [(f.d, f.dsh.count)]
  | none =>
    match i with
    | .ld o | .lds o | .ldw o | .fill o => [(o.d.toNat, sizeRegs o.sz.toNat)]
    | .scld o => [(o.d.toNat, 4)]
    | .atomAdd o | .atomMin o | .atomMax o | .atomAnd o | .atomOr o | .atomXor o | .atomExch o | .atomCas o =>
        [(o.d.toNat, atomicRegs 0 o.ty.toNat)]
    | .kvres o => [(o.d.toNat, 2)]
    | .barArrive o _ | .barWait o _ | .barTest o _ | .kick o | .cstat o | .place o _ _ | .pin o | .unpin o | .relocate o =>
        [(o.d.toNat, 1)]
    | .commit o _ => [(o.d.toNat, (lanes.map fun l => commitCount (g.reg l o.sa.toNat)).foldl Nat.max 0)]
    | .spawn _ d _ _ => [(d.toNat, 1)]
    | .csrr _ r _ | .rdpw _ r => [(r.toNat, 1)]
    | .call _ fr _ | .calli _ fr _ => if 2 ≤ fr.toNat then [(fr.toNat - 2, 2)] else []
    | .mclass _ _ _ sb => [(sb.toNat, 1)]
    | .mbits _ _ _ sb => [(sb.toNat, 2)]
    | _ => []

/-- The register sources of a word in the fibre's own window. -/
def sourcesOf (i : Instr) : List Use :=
  match vecForm i with
  | some f => ownUse f.a ++ ownUse f.b ++ (if f.acc then [(f.d, f.dsh.count)] else [])
  | none =>
    match i with
    | .ld o | .lds o | .ldw o | .fill o => [(2 * o.bp.toNat, 2)]
    | .scld _ => []
    | .kvres o => [(o.sa.toNat, 3)]
    | .barArrive o _ | .barTest o _ | .kick o | .cstat o => [(o.sa.toNat, 1)]
    | .place o _ _ | .pin o | .unpin o | .relocate o => [(o.sa.toNat, 2)]
    | .mclass _ _ sa _ | .mbits _ _ sa _ => [(sa.toNat, 2)]
    | .spawn _ _ sa _ => [(sa.toNat, 1)]
    | .csrr .. | .rdpw .. => []
    | _ => wordUses i

/-- The X group words (R218), which act once for the whole group. -/
def matrixParts (i : Instr) : Option (XKind × XF) :=
  match i with
  | .mma o p => some (.mma p.toNat false, o)
  | .mmaSp o p => some (.mma p.toNat true, o)
  | .smm o ty _ => some (.smm ty.toNat false, o)
  | .smmSp o ty _ => some (.smm ty.toNat true, o)
  | _ => none

/-- The registers of a matrix word's side block, in the lanes that it reads (R223). -/
def sideUses (g : Group) (i : Instr) : List (Nat × Use) :=
  match matrixParts i with
  | some (k, o) =>
    let n := sideRegs k (g.reg 0 (o.sa.toNat + 3))
    if n = 0 then [] else (List.range 32).map fun l => (l, (o.sb.toNat, n))
  | none => []

/-- Every register that a word reads, by lane (R85): its own sources, those of other lanes, and the descriptors and side blocks of the words
that read them in fixed lanes (R218, R220, R223). -/
def readsOf (g : Group) (iss : Issue) (lanes : List Nat) (lane : Nat) (i : Instr) : List (Nat × Use) :=
  ((sourcesOf i).map fun u => (lane, u)) ++ laneUses i lanes ++ sideUses g i
    ++ (match vecForm i with
        | some f => foreignUse g iss lane f.a ++ foreignUse g iss lane f.b
        | none => [])

/-- The pw bits that a word writes. -/
def pwDests (i : Instr) : BitVec 32 :=
  match i with
  | .wrpw _ _ => 0xFFFFFFFF
  | _ =>
    match vecForm i with
    | some f => if f.pbit then 1#32 <<< (f.d % 32) else 0
    | none => 0

/-- The pw bits that a word reads (R148). -/
def readsPw (i : Instr) : List Nat :=
  match i with
  | .bps _ k _ | .bpc _ k _ => [k.toNat]
  | .rdpw .. => List.range 32
  | _ =>
    match vecForm i with
    | some f => if f.pbit then [f.d % 32] else []
    | none => []

/-- Two uses share a register; a code of 120 or more names none. -/
def usesMeet (a b : List Use) : Bool :=
  (a.filter fun x => decide (x.1 < 120)).any fun x => (b.filter fun y => decide (y.1 < 120)).any fun y => overlaps x.1 x.2 y.1 y.2

/-- Two words of a chain write one register or one pw bit (R77), whatever else their fields hold. -/
def destsClash (g : Group) (lanes : List Nat) : List Instr → Bool
  | [] => false
  | i :: rest =>
    rest.any (fun j => usesMeet (destsOf g lanes i) (destsOf g lanes j) || (pwDests i &&& pwDests j) != 0) || destsClash g lanes rest

/-! ### The checks of R76 over the whole chain -/

/-- A precise trap that a chain meets before any word acts: the cause, the fibres, the instruction word of the record. -/
abbrev Refused := Nat × List Nat × Word

/-- The first word of a chain body whose check gives a cause, and the fibres of every word that gives it (log 80, DEDUCED). -/
def causeIn (g : Group) (cause : Nat) (ws : List (Issue × Word)) : Option Refused :=
  let met := ws.filterMap fun x => (instrOf x.2).bind fun i => (checkWord i x.1 g).bind fun c =>
    if c.1 = cause then some (c.2, x.2) else none
  match met with
  | [] => none
  | (_, w) :: _ =>
    let lanes := (met.map Prod.fst).flatten
    some (cause, (List.range 64).filter fun l => lanes.contains l, w)

/-- THE CHECKS of R76, steps 1 to 3, each over the whole chain. -/
def checkChain (g : Group) (iss : Issue) (c : Chain) : Option Refused :=
  let first := (c.words.head?.map Prod.snd).getD 0
  let instrs := c.body.filterMap fun x => candidate x.2
  if c.bad || destsClash g iss.lanes instrs then some (0x02, iss.lanes, first)
  else
    match withPrefixes iss c.prefixes with
    | .error w => some (0x01, iss.lanes, w)
    | .ok iss1 =>
      match c.body.find? fun x => (instrOf x.2).isNone with
      | some x => some (0x01, iss.lanes, x.2)
      | none =>
        let ws := bodyIssues iss1 c.body
        match causeIn g 0x02 ws with
        | some r => some r
        | none =>
          match causeIn g 0x01 ws with
          | some r => some r
          | none => causeIn g 0x03 ws

/-! ### What a word waits for (R25, R181, R188, R195, R200, R201, R210, R225, R227, R239, R301, R337) -/

/-- The slot on which a word waits with WE (R58). -/
def slotWaited (i : Instr) : Option Nat :=
  match i with
  | .ld o | .st o | .lds o | .sts o | .ldw o | .spill o | .fill o | .scld o => if o.we then some o.ws.toNat else none
  | .pf _ _ _ we ws _ => if we then some ws.toNat else none
  | _ => none

/-- The slot against which a word records its accesses, and how many of them. -/
def slotTaken (i : Instr) : Option (Nat × Nat) :=
  match i with
  | .ld o | .st o | .lds o | .sts o | .ldw o | .spill o | .fill o => some (o.ss.toNat, if o.sz = 4 then 2 else 1)
  | .scld o => some (o.ss.toNat, 1)
  | .atomAdd o | .atomMin o | .atomMax o | .atomAnd o | .atomOr o | .atomXor o | .atomExch o | .atomCas o
  | .redAdd o | .redMin o | .redMax o | .redAnd o | .redOr o | .redXor o => some (o.ss.toNat, 1)
  | .barArrive .. | .barWait .. | .barTest .. | .kick _ | .cstat _ | .commit .. | .place .. | .pin _ | .unpin _ | .kvres _ => some (7, 1)
  | _ => none

/-- The slots that a word waits for: the one that it names, or those of a wsb (R25, R181). -/
def slotsNamed (i : Instr) : List Nat :=
  (slotWaited i).toList ++ (match i with
    | .wsb _ m => (List.range 8).filter fun k => m.getLsbD k
    | _ => [])

/-- A word waits on scoreboard slots of the fibre that it names. -/
def slotsBusy (s : State) (gid lane : Nat) (i : Instr) : Bool := (slotsNamed i).any (slotPending s gid lane)

/-- A word would record a 64th access against a slot (R181). -/
def slotFull (s : State) (gid lane : Nat) (i : Instr) : Bool :=
  (slotTaken i).any fun x => decide (63 < slotCount s gid lane x.1 + x.2)

/-- A fence of the fibre still waits (R195). -/
def fenceWaits (s : State) (gid lane : Nat) (f : Fibre) : Bool :=
  f.fence.any fun x => s.accesses.any fun a =>
    a.gid == gid && a.lane == lane && decide (a.id < x.2) && decide (a.least ≤ x.1) && decide (spaceOf a.kind ≠ 3)

/-- The scratchpad bytes that a word touches for a fibre: first byte in the core, count, whether it writes them. opld, mpld and scld act
for the whole gang from one lane (R239, R241, R244). -/
def scratchTouch (s : State) (gid : Nat) (g : Group) (iss : Issue) (lane low : Nat) (i : Instr) : List (Nat × Nat × Bool) :=
  let place (addr : Word) (n : Nat) (wr : Bool) := ((spadByte s gid g addr n).map fun b => (b, n, wr)).toList
  let mem (o : MM) (wr : Bool) := place (lowWord (memAddress g iss lane o.bp)) (sizeBytes o.sz.toNat) wr
  match i with
  | .lds o | .fill o => mem o false
  | .sts o | .spill o => mem o true
  | .scld o => if o.sz = 1 then place (lowWord (memAddress g iss 0 o.bp)) 512 false else []
  | .barInit _ sa _ | .barExpect _ sa _ | .barInval _ sa => place (g.reg lane sa.toNat) 16 true
  | .barArrive o _ => place (g.reg lane o.sa.toNat) 16 true
  | .barWait o _ | .barTest o _ => place (g.reg lane o.sa.toNat) 16 false
  | .kick o => place (g.reg lane o.sa.toNat) 64 false
  | .opld _ _ sa _ => place (g.reg low sa.toNat) 16 false
  | .mpld _ _ sa =>
    place (g.reg low sa.toNat) 128 false
      ++ (match spadByte s gid g (g.reg low sa.toNat) 128 with
          | some b =>
            let at_ (k : Nat) : Word := BitVec.ofNat 32 (natOfBytes (readSpadBytes s (coreOf gid) (b + 4 * k) 4))
            if (at_ 19).toNat = 0 ∨ 256 < (at_ 19).toNat then [] else place (at_ 18) (4 * (at_ 19).toNat) false
          | none => [])
  | _ => []

/-- A range entry makes the access wait (R201). -/
def rangeMeets (core : Nat) (e : RangeEntry) (t : Nat × Nat × Bool) : Bool :=
  e.core == core && decide (e.first ≤ (t.1 + t.2.1 - 1) / 128) && decide (t.1 / 128 ≤ e.last) && (e.isWrite || t.2.2)

/-- The range entries that the core has free. -/
def freeRanges (s : State) (core : Nat) : Nat := 64 - (s.ranges.filter fun e => e.core == core).length

/-- A word makes global accesses. -/
def isGlobalWord (i : Instr) : Bool :=
  match i with
  | .ld _ | .st _ | .atomAdd _ | .atomMin _ | .atomMax _ | .atomAnd _ | .atomOr _ | .atomXor _ | .atomExch _ | .atomCas _
  | .redAdd _ | .redMin _ | .redMax _ | .redAnd _ | .redOr _ | .redXor _ => true
  | .scld o => o.sz == 0
  | _ => false

/-- A store of the fibre has not taken its place (R210, R239). -/
def storesOpen (s : State) (gid lane : Nat) (scratchOnly : Bool) : Bool :=
  s.accesses.any fun a => a.gid == gid && a.lane == lane && a.kind.isStore && (!scratchOnly || spaceOf a.kind == 1)

/-- The words that act once for the whole group (R218). -/
def isGroupWord (i : Instr) : Bool :=
  match i with
  | .mzero .. | .mfillF32 .. | .mfillI32 .. | .mtosp _ => true
  | _ => (matrixParts i).isSome

/-- The read entries that a matrix word's gather needs (R227). -/
def entriesNeeded (s : State) (gid : Nat) (g : Group) (k : XKind) (o : XF) : Nat :=
  let m := g.reg 0 (o.sa.toNat + 3)
  let aAddr := (List.range 64).map fun r => if r < 32 then g.reg r o.sa.toNat else g.reg (r - 32) (o.sa.toNat + 1)
  (gatherEntries s gid g (gatherRuns k m (keptGather s gid g k m).isSome aAddr (g.reg 0 (o.sa.toNat + 2)))).length

/-- The matrix unit cannot take the word now (R225): the fibre stays ready under R25. -/
def unitWaits (s : State) (gid : Nat) (i : Instr) : Bool :=
  (matrixParts i).isSome &&
    let v := getQuarter s (quarterOf gid)
    v.lastMatrix.any (fun t => decide (s.clock < t + 32)) || decide (2 ≤ (v.queue.filter fun x => !x.begun).length)

/-- The range scoreboard cannot take the word (R227, R240) (log 83, DEDUCED). -/
def rangesFull (s : State) (gid : Nat) (g : Group) (i : Instr) : Bool :=
  match matrixParts i with
  | some (k, o) => decide (freeRanges s (coreOf gid) < entriesNeeded s gid g k o)
  | none =>
    match i with
    | .mtosp _ => decide (freeRanges s (coreOf gid) < 1)
    | _ => false

/-- The lane pages of a gang: its passes (R26). -/
def passesOf (lanes : List Nat) : Nat := if lanes.any (fun l => decide (l < 32)) && lanes.any (fun l => decide (32 ≤ l)) then 2 else 1

/-- The range entries that make a word of a fibre wait (R201). -/
def entriesMet (s : State) (gid : Nat) (g : Group) (iss : Issue) (lane low : Nat) (i : Instr) : List RangeEntry :=
  s.ranges.filter fun e => (scratchTouch s gid g iss lane low i).any (rangeMeets (coreOf gid) e)

/-- A word whose wait is one for all the fibres that issue it together: the loads that act for a gang, and a spill (R188, R239, R241,
R244). -/
def waitsTogether (i : Instr) : Bool :=
  match i with
  | .opld .. | .mpld .. | .scld _ | .spill _ => true
  | _ => false

/-- What a word waits for in one fibre, besides its energy and the matrix unit (R25). A fibre that fails the grd test makes no access, so no
full slot, no entry and no table read holds it (R70). -/
def wordWaits (s : State) (gid : Nat) (g : Group) (lane : Nat) (iss : Issue) (i : Instr) : Bool :=
  slotsBusy s gid lane i
    || (pipeOf i == some .m && fenceWaits s gid lane (g.fibre lane))
    || (!iss.excluded g lane && (slotFull s gid lane i
      || (!(waitsTogether i && i matches .opld .. | .mpld .. | .scld _) && !(entriesMet s gid g iss lane lane i).isEmpty)
      || (isGlobalWord i && (replaySlot s (coreOf gid)).isNone)
      || (handleWaits s gid g lane i).isSome
      || (i matches .kick _ && storesOpen s gid lane false)))
    || ((isGroupWord i || i matches .scld _) && g.fibres.any fun f => f.slot == .parked)
    || rangesFull s gid g i

/-- What a word waits for in all the fibres that are ready to issue it together: a spill for an entry for each pass (R188); opld and mpld for
the stores and the entries of the lowest of them (R239, R244); scld, while any of them passes the grd test, for the entries over its tile
(R241). -/
def gangWaits (s : State) (gid : Nat) (g : Group) (ready : List Nat) (lane : Nat) (iss : Issue) (i : Instr) : Bool :=
  let low := ready.headD lane
  let acting := ready.filter fun l => !iss.excluded g l
  match i with
  | .spill _ =>
    !acting.isEmpty && decide (64 < (s.spills.filter fun e => e.core == coreOf gid).length + passesOf acting)
  | .opld .. | .mpld .. => storesOpen s gid low true || !(entriesMet s gid g iss low low i).isEmpty
  | .scld _ =>
    !acting.isEmpty && ((isGlobalWord i && (replaySlot s (coreOf gid)).isNone) || !(entriesMet s gid g iss low low i).isEmpty)
  | _ => false

/-! ### Energy (R251, R292) -/

/-- The least energy class of an X word. -/
def energyFloor (w : Word) : Nat :=
  let big := bitsOf w 3 0 == 7 || bitsOf w 3 0 == 8
  match opOfWord w with
  | 0x60 => if big then 2 else 1
  | 0x61 => if big then 3 else 2
  | 0x62 => 1
  | 0x63 => 2
  | _ => 0

/-- The weight of a word in one pass. -/
def energyWeight (w : Word) : Nat :=
  let units (k : Nat) : Nat := if k = 0 then 0 else 2 ^ (k - 1)
  match pipeOfCode (opOfWord w) with
  | some .s => units (bitsOf w 7 6)
  | some .x => units (Nat.max (bitsOf w 23 22) (energyFloor w))
  | _ => 0

def Chain.weight (c : Chain) : Nat := (c.body.map fun x => energyWeight x.2).sum

/-- The budget lets a chain of a group issue. -/
def payable (s : State) (gid : Nat) (g : Group) (c : Chain) : Bool :=
  !(getX s g.ctx 0x100).getLsbD 0 || c.weight == 0 || decide (1 ≤ budgetOf s g.ctx (coreOf gid))

/-- Charge a chain that issues (R292) (log 82, DEDUCED). -/
def charge (s : State) (gid ctx units : Nat) : State :=
  if (getX s ctx 0x100).getLsbD 0 then
    let k := 256 * ctx + coreOf gid
    { s with budgets := tblSet 0 s.budgets k (tblGet 0 s.budgets k - units) }
  else s

/-! ### Latencies (R85, R148) -/

/-- The rows of a use in a fibre's window. -/
def rowsOfUse (f : Fibre) (u : Use) : List Nat := (List.range u.2).map fun k => f.wb + u.1 + k

/-- What a word with its prefixes reads for a lane: the lane whose table holds each key. Under rep, what its next element reads (R65) (log
106, DEDUCED). -/
def keysNow (g : Group) (lanes : List Nat) (iss : Issue) (lane : Nat) (i : Instr) : List (Nat × Nat) :=
  let f := g.fibre lane
  let regs (us : List (Nat × Use)) : List (Nat × Nat) := (us.map fun u => (rowsOfUse (g.fibre u.1) u.2).map fun k => (u.1, k)).flatten
  let pw := (match iss.grd with
    | some (_, bit) => [(lane, pwKey bit.toNat)]
    | none => []) ++ (readsPw i).map fun k => (lane, pwKey k)
  match iss.rep, vecForm i with
  | some r, some v =>
    let e := elementForm v r (if f.progress < r.nr * r.nc then f.progress else 0)
    regs ((ownUse e.a ++ ownUse e.b ++ (if e.acc then [(e.d, e.dsh.count)] else [])).map (fun u => (lane, u))
      ++ foreignUse g iss lane e.a ++ foreignUse g iss lane e.b) ++ pw
  | _, some v => regs (readsOf g iss lanes lane i) ++ (latchUse v.a ++ latchUse v.b).map (fun k => (lane, latchKey k)) ++ pw
  | _, none => regs (readsOf g iss lanes lane i) ++ pw

/-- Something that a chain reads for a lane is not yet available at a clock. -/
def latencyHolds (now : Nat) (g : Group) (lanes : List Nat) (lane : Nat) (ws : List (Issue × Instr)) : Bool :=
  decide (now < (g.fibre lane).readyAt)
    || ws.any fun x => (keysNow g lanes x.1 lane x.2).any fun k => decide (now < tblGet 0 (g.fibre k.1).avail k.2)

/-- Where a running fibre stands: not ready; ready but held by the matrix unit, or by a latency; free on the next clock, where the second
pass of a gang over both lane pages issues (R85); or free now. -/
inductive LaneState
  | waits | unit | latency | next | ok
  deriving DecidableEq, Repr

/-- The running fibres at a fibre's counter with its progress, which would issue with it (R33, R68). -/
def peersOf (g : Group) (running : List Nat) (lane : Nat) : List Nat :=
  running.filter fun l => (g.fibre l).pc == (g.fibre lane).pc && (g.fibre l).progress == (g.fibre lane).progress

/-- The words of a fibre's next chain, each with its issue. -/
def nextWords (gid : Nat) (g : Group) (lane : Nat) : Option (List (Issue × Instr)) :=
  let f := g.fibre lane
  let c := nextChain f
  match withPrefixes (issueAt gid [lane] f.pc c) c.prefixes with
  | .error _ => none
  | .ok iss => some ((bodyIssues iss c.body).filterMap fun x => (instrOf x.2).map fun i => (x.1, i))

/-- The state of a running fibre, but for the waits that it shares with those that issue with it. -/
def ownState (s : State) (gid : Nat) (g : Group) (peers : List Nat) (lane : Nat) (ws : List (Issue × Instr)) : LaneState :=
  let f := g.fibre lane
  if !hasPacket f || s.clock < f.startAt then .waits
  else if ws.any (fun x => wordWaits s gid g lane x.1 x.2) || !payable s gid g (nextChain f) then .waits
  else if ws.any fun x => unitWaits s gid x.2 then .unit
  else if !latencyHolds s.clock g peers lane ws then .ok
  else if !latencyHolds (s.clock + 1) g peers lane ws && decide (32 ≤ lane) then .next
  else .latency

/-- The fibres at a fibre's counter that would issue with it now. -/
def readyPeers (s : State) (gid : Nat) (g : Group) (running : List Nat) (lane : Nat) : List Nat :=
  let peers := peersOf g running lane
  peers.filter fun l =>
    match ownState s gid g peers l ((nextWords gid g l).getD []) with
    | .ok | .next => true
    | _ => false

/-- The state of a running fibre. -/
def laneState (s : State) (gid : Nat) (g : Group) (running : List Nat) (lane : Nat) : LaneState :=
  let f := g.fibre lane
  match nextWords gid g lane with
  | none => if !hasPacket f || s.clock < f.startAt then .waits else if s.clock < f.readyAt then .latency else .ok
  | some ws =>
    let own := ownState s gid g (peersOf g running lane) lane ws
    let together := own != .waits && ws.any (fun x => waitsTogether x.2)
    if together && ws.any (fun x => gangWaits s gid g (readyPeers s gid g running lane) lane x.1 x.2) then .waits else own

end Sys2Proof.Machine
end

