-- ==== Sys2Proof/Machine/Regions.lean ====
section
/-! DEFINITION. The effect of region commands (R258, R259) and the verification of a weight image (R314 to R316). -/

namespace Sys2Proof.Machine

def regionKey (part region : Nat) : Nat := 32 * part + region

/-! ### Reading an image (R314) -/

/-- How a seal stops: a step of R316 fails, with the address of a read that failed, if one did; or a read must wait. -/
inductive SealFail
  | step (va : Option Dword) | wait (va : Dword)
  deriving DecidableEq, Repr

/-- Read n bytes of the record's address space in at most some pieces that cross no multiple of 32 bytes, and so no page. -/
def hubReadPieces (s : State) (f q : Nat) (va : Dword) : Nat → Nat → Except SealFail (List Byte × State)
  | 0, _ => .ok ([], s)
  | _ + 1, 0 => .ok ([], s)
  | pieces + 1, n =>
    let k := Nat.min n (32 - va.toNat % 32)
    if hubWaits s f q va .read then .error (.wait va)
    else
      match hubRead s f q va k with
      | none => .error (.step (some va))
      | some (b, s1) =>
        match hubReadPieces s1 f q (va + BitVec.ofNat 64 k) pieces (n - k) with
        | .error e => .error e
        | .ok (bs, s2) => .ok (b ++ bs, s2)

/-- Read n bytes of the record's address space, over its pages. -/
def hubReadLong (s : State) (f q : Nat) (va : Dword) (n : Nat) : Except SealFail (List Byte × State) :=
  hubReadPieces s f q va (n / 32 + 2) n

/-- The manifest's fixed fields and its bytes (R314). -/
structure Manifest where
  bytes : List Byte
  n : Nat
  imgLen : Nat
  cl : Nat
  key : Nat
  m : Nat
  deriving DecidableEq, Repr

def Manifest.field (x : Manifest) (offset len : Nat) : Nat := natOfBytes ((x.bytes.drop offset).take len)
def Manifest.bytesAt (x : Manifest) (offset len : Nat) : List Byte := (x.bytes.drop offset).take len

/-- The manifest at an address, with its reserved fields zero and its values in range: step 1 of R316. -/
def readManifest (s : State) (f q : Nat) (va : Dword) : Except SealFail (Manifest × State) :=
  match hubReadLong s f q va 32 with
  | .error e => .error e
  | .ok (head, s1) =>
    let w (o n : Nat) : Nat := natOfBytes ((head.drop o).take n)
    let n := w 4 4
    if w 0 4 ≠ 1 ∨ n = 0 ∨ 65536 < n ∨ w 16 1 < 16 ∨ 26 < w 16 1 ∨ w 16 4 / 2 ^ 12 ≠ 0 ∨ w 24 8 ≠ 0 ∨ n < w 20 4 then .error (.step none)
    else
      match hubReadLong s1 f q va (32 + 64 * n + 96) with
      | .error e => .error e
      | .ok (bytes, s2) =>
        let x : Manifest := { bytes := bytes, n := n, imgLen := w 8 8, cl := w 16 1, key := w 16 4 / 2 ^ 8 % 16, m := w 20 4 }
        if (List.range n).all fun c => x.field (0x58 + 64 * c) 8 == 0 then .ok (x, s2) else .error (.step none)

/-- The bytes of chunk c (R314). -/
def Manifest.chunkLen (x : Manifest) (c : Nat) : Nat := if c + 1 = x.n then x.imgLen - c * 2 ^ x.cl else 2 ^ x.cl
def Manifest.digest (x : Manifest) (c : Nat) : List Byte := x.bytesAt (0x20 + 64 * c) 48
def Manifest.place (x : Manifest) (c : Nat) : Nat := x.field (0x50 + 64 * c) 8

/-- Steps 2 and 3 of R316: the signature, and the sizes against the region's. -/
def manifestSound (s : State) (x : Manifest) (regionBytes : Nat) : Bool :=
  (match tblFind s.pubKeys x.key with
    | none => false
    | some k => Config.ecdsaVerify k (Config.sha384 (x.bytesAt 0 (0x20 + 64 * x.n))) (x.bytesAt (0x20 + 64 * x.n) 96))
    && decide (x.m * 2 ^ x.cl ≤ regionBytes) && decide (x.imgLen ≤ x.n * 2 ^ x.cl)

/-- Step 4: every chunk of the region was hashed where the manifest puts it. -/
def chunksHashed (x : Manifest) (r : Region) : Bool :=
  (List.range x.m).all fun c => r.hashes.any fun h =>
    h.chunk == c && h.offset == x.place c && h.count == x.chunkLen c && h.digest == x.digest c

/-- Step 5 for chunks from c on: they hash in place, and the frames that hold them. -/
def remainderFrames (s : State) (f q : Nat) (x : Manifest) (c : Nat) : Nat → Except SealFail (List Nat × State)
  | 0 => .ok ([], s)
  | k + 1 =>
    let va : Dword := BitVec.ofNat 64 (x.place c)
    if va.toNat % 2 ^ 18 ≠ 0 then .error (.step none)
    else
      match hubReadLong s f q va (x.chunkLen c) with
      | .error e => .error e
      | .ok (bs, s1) =>
        if Config.sha384 bs = x.digest c then
          let mine := (List.range ((x.chunkLen c + 2 ^ 18 - 1) / 2 ^ 18)).filterMap fun i =>
            (mapsTo s1 (queuePasid s1 f q) (va + BitVec.ofNat 64 (i * 2 ^ 18))).map fun pa => pa / 2 ^ 18
          (remainderFrames s1 f q x (c + 1) k).map fun t => (mine ++ t.1, t.2)
        else .error (.step none)

/-- THE VERIFICATION of a seal (R316): the frames to pin, or how a step fails. -/
def verifyImage (s : State) (c : RegionCmd) (r : Region) : Except SealFail (List Nat × State) :=
  match readManifest s c.ctx c.queue c.manifest with
  | .error e => .error e
  | .ok (x, s1) =>
    if manifestSound s1 x (r.count * 2 ^ 19) && chunksHashed x r then
      (remainderFrames s1 c.ctx c.queue x x.m (x.n - x.m)).map fun t => (t.1.eraseDups, t.2)
    else .error (.step none)

/-! ### Effects (R258, R259, R320) -/

def raisePins (s : State) (frames : List Nat) : State :=
  frames.foldl (fun t n => setPin t (n * 2 ^ 18) (pinCount t (n * 2 ^ 18) + 1)) s
def lowerPins (s : State) (frames : List Nat) : State :=
  frames.foldl (fun t n => setPin t (n * 2 ^ 18) (pinCount t (n * 2 ^ 18) - 1)) s

/-- Give granules to a tenant: those that last belonged to another are zeroed (R320). -/
def claimGranules (s : State) (die first count tenant : Nat) : State :=
  let mine := (List.range count).map fun i => 4096 * die + first + i
  let foreign := mine.filter fun g => tblGet 0 s.granuleTenant g != tenant + 1
  { s with weights := s.weights.filter fun e => !foreign.contains (e.1 / 2 ^ 19)
           granuleTenant := mine.foldl (fun t g => tblSet 0 t g (tenant + 1)) s.granuleTenant }

/-- Granules of a die that no region of any partition holds. -/
def granulesFree (s : State) (die first count : Nat) : Bool :=
  s.regionsOf.all fun e => !(e.2.die == die && overlaps e.2.first e.2.count first count)

/-- How a region command comes out: done, failed with a CODE, or its seal still waits. -/
inductive RegionDone
  | done (s : State) | fails (code : Nat) (s : State) | waits (s : State)

/-- The effect of a region command (R258, R281, R283) (log 59, DEDUCED); a read of a seal that fails at an unmapped address or on an
uncorrectable error is logged (R339, R358). -/
def regionEffect (s : State) (c : RegionCmd) : RegionDone :=
  let k := regionKey c.part c.region
  match c.kind, tblFind s.regionsOf k with
  | 8, some r =>
    if r.isSealed then .fails 1 s
    else
      match verifyImage s c r with
      | .error (.wait va) => .waits (hubAsk s c.ctx c.queue va .read)
      | .error (.step va) => .fails 5 (va.elim s fun a => hubLog s c.ctx c.queue a 1 .read)
      | .ok (frames, s1) =>
        .done (raisePins { s1 with regionsOf := tblInsert s1.regionsOf k { r with isSealed := true, frames := frames } } frames)
  | 9, none =>
    if granulesFree s c.die c.first c.count then
      let s1 := claimGranules s c.die c.first c.count (tenantOf s (ctxKey s c.ctx))
      .done { s1 with regionsOf := tblInsert s1.regionsOf k { die := c.die, first := c.first, count := c.count } }
    else .fails 1 s
  | 9, some r =>
    if r.isSealed then
      .done (lowerPins { s with regionsOf := tblInsert s.regionsOf k { r with isSealed := false, frames := [], hashes := [] } } r.frames)
    else .fails 1 s
  | 10, some r => .done (lowerPins { s with regionsOf := tblErase s.regionsOf k } r.frames)
  | _, _ => .fails 1 s

/-- The command is one event (R259): after every write to its region, and before every admission to come. -/
def regionEvent (s : State) (c : RegionCmd) : State :=
  let writes := match tblFind s.regionsOf (regionKey c.part c.region) with
    | some r => (s.past.filter fun e => e.writes && e.meets 2 (2 ^ 31 * r.die + r.first * 2 ^ 19) (r.count * 2 ^ 19)).map fun e => e.id
    | none => []
  let s1 := noteMark s { agent := .dispatcher (queueKey c.ctx c.queue), after := writes }
  noteMark s1 { agent := .admission, after := [s.events] }

/-- A launch of the partition that has a position admitted and has not completed uses the region (R259). -/
def regionUsed (s : State) (part region : Nat) : Bool :=
  s.launches.any fun l => l.part == part && l.regions.getLsbD region && decide (0 < l.nextPos)

/-- A copy in flight writes the region (R259). -/
def regionWritten (s : State) (r : Region) : Bool :=
  s.copies.any fun c => c.dk == 3 && (List.range (if c.begun then c.rows else bitsOf (c.dw 4) 31 0)).any fun i =>
    match weightPlace c (c.dstRow i) with
    | some (die, off) => die == r.die && overlaps (r.first * 2 ^ 19) (r.count * 2 ^ 19) off c.len
    | none => false

/-- The command may take effect (R259). -/
def regionFree (s : State) (c : RegionCmd) : Bool :=
  !regionUsed s c.part c.region && match tblFind s.regionsOf (regionKey c.part c.region) with
    | some r => !regionWritten s r
    | none => true

/-- R259: the command takes effect, and its record goes on, or ends with an error. -/
def execRegionCommandEffect (id : Nat) (s : State) : Result :=
  match s.regionCmds.find? fun c => c.id == id with
  | none => .next s
  | some c =>
    match (getQueue s c.ctx c.queue).cur with
    | none => .next s
    | some r =>
      if r.regionWait ≠ some id ∨ !regionFree s c then .next s
      else
        let gone (t : State) : State := { t with regionCmds := t.regionCmds.filter fun x => !(x.id == id) }
        .next (match regionEffect (regionEvent s c) c with
          | .done s1 => goOn (gone s1) c.ctx c.queue r
          | .fails code s1 => failRun (gone s1) c.ctx c.queue { r with regionWait := none } code
          | .waits s1 => { s with ats := s1.ats })

end Sys2Proof.Machine
end

