-- ==== Sys2Proof/Machine/Admission.lean ====
section
/-! DEFINITION. Admission of launches and their positions (R40 to R42, R287, R288), and the residency timeout (R51, R52). -/

namespace Sys2Proof.Machine

/-! ### Readiness and refusal (R40, R42, R287) -/

/-- Every region that a launch lists is sealed. -/
def regionsSealed (s : State) (l : Launch) : Bool :=
  (regionNumbers l.regions).all fun r => (tblFind s.regionsOf (regionKey l.part r)).any fun x => x.isSealed

/-- The part with every core empty and every die ready: what a partition's quotas hold at their full size. -/
def emptied (s : State) : State := { s with groups := [], rowHolds := [], relocations := [], ready := s.ready ||| 0x30 }

/-- Place a number of positions of one shape, one after another. -/
def placeMany (s : State) (l : Launch) : List Nat → Option (List Nat × State)
  | [] => some ([], s)
  | p :: ps =>
    match placePosition s l.part (launchDies s l) (positionGroups l p) with
    | none => none
    | some (gids, s1) => (placeMany s1 l ps).map fun r => (gids ++ r.1, r.2)

/-- The launch must be refused: no core cluster could hold a position, or, with full residency, the quotas cannot hold all of them
(R40, R42). A partition holds at most 64 group slots in each of 256 cores. -/
def mustRefuse (s : State) (l : Launch) : Bool :=
  let e := emptied s
  (placePosition e l.part (launchDies e l) (positionGroups l 0)).isNone
    || (l.fullres && (decide (16384 < l.positions) || (placeMany e l (List.range l.positions)).isNone))

/-- The refused launch completes with the refused-residency status (R42, R281). -/
def refuseLaunch (s : State) (l : Launch) : State :=
  completeLaunch (noteRun s l.ctx l.queue l.record fun r => { r with refused := true }) l.uid

/-- R287: a launch becomes ready once its regions are sealed, or is refused. -/
def execLaunchReady (uid : Nat) (s : State) : Result :=
  match findLaunch s uid with
  | none => .next s
  | some l =>
    .next (if l.ready || l.killed || !regionsSealed s l then s
      else if mustRefuse s l then refuseLaunch s l
      else { (modLaunch s uid fun l => { l with ready := true, readyOrder := s.nextId, waitSince := some s.clock, lastProgress := s.clock })
             with nextId := s.nextId + 1 })

/-! ### Order (R287) -/

/-- A launch comes before another in the order of admission. -/
def comesBefore (a b : Launch) : Bool :=
  decide (b.prio < a.prio) || (a.prio == b.prio && decide (a.readyOrder < b.readyOrder))

/-- The launch has a position to admit or to restore. -/
def hasNext (s : State) (l : Launch) : Bool := decide (l.nextPos < l.positions) || (nextSwapped s l).isSome

/-- Before its first admission a launch waits for its regions to be sealed (R287), and for the region commands that wait on one (R259). -/
def regionsWait (s : State) (l : Launch) : Bool :=
  l.nextPos == 0 && (!regionsSealed s l || s.regionCmds.any fun c => c.part == l.part && l.regions.getLsbD c.region)

/-- The launch takes part in admission now: ready, of the resident context with no ladder in progress, its regions sealed (R259, R287, R323)
(log 69, DEDUCED). -/
def inAdmission (s : State) (l : Launch) : Bool :=
  l.ready && !l.killed && (getCtx s l.ctx).resident && ctxExists s l.ctx && !onLadder s l.ctx && hasNext s l && !regionsWait s l

/-- THE ADMISSION of placed groups is an event of time order (R260), after what the launch's entry waited for (R45) and the region commands
before it (R259); the accesses and fetches of their fibres follow it (R87). -/
def admitted (s : State) (l : Launch) (gids : List Nat) : State :=
  let s1 := noteMark s { agent := .admission, after := l.order.toList }
  gids.foldl (fun t n => modGroup t n fun g =>
    { g with since := some s.events, fibres := g.fibres.map fun f => { f with floor := some s.events } }) s1

/-- All positions of a full-residency launch, which are admitted at once. -/
def admitAll (s : State) (l : Launch) : Option State :=
  (placeMany s l (List.range l.positions)).map fun r => modLaunch (admitted r.2 l r.1) l.uid fun l => { l with nextPos := l.positions }

/-- Admit the next position of a launch, or restore its lowest swapped-out one: none when it cannot be placed. -/
def admitNext (s : State) (l : Launch) : Option State :=
  match nextFresh l with
  | some gs =>
    if l.fullres && l.nextPos == 0 then admitAll s l
    else
      (placePosition s l.part (launchDies s l) gs).map fun r =>
        modLaunch (admitted r.2 l r.1) l.uid fun l => { l with nextPos := l.nextPos + 1 }
  | none =>
    match nextSwapped s l with
    | none => none
    | some p =>
      match restorePosition s l p with
      | .placed s1 => some s1
      | .noRoom => none
      | .malformed => some (killLogged s l.ctx l.uid)

/-- The next position of a launch has waited 1 ms (R287). -/
def waitedLong (s : State) (l : Launch) : Bool := l.blocking || l.waitSince.any fun t => decide (t + usClocks 1000 ≤ s.clock)

/-- Earlier launches of the partition hold this one back: one that could be placed, or one that has waited 1 ms. -/
def heldBack (s : State) (l : Launch) : Bool :=
  s.launches.any fun m => m.part == l.part && m.uid != l.uid && inAdmission s m && comesBefore m l
    && (waitedLong s m || (admitNext s m).isSome)

/-- R40, R41, R287: the next position of a launch is admitted and placed whole. -/
def execPositionAdmit (uid : Nat) (s : State) : Result :=
  match findLaunch s uid with
  | none => .next s
  | some l =>
    if !inAdmission s l || heldBack s l then .next s
    else
      match admitNext s l with
      | none => .next s
      | some s1 => .next (modLaunch s1 uid fun l => { l with blocking := false, waitSince := some s.clock })

/-- R287: a launch whose next position has waited 1 ms holds back those after it. -/
def execAdmissionWaitExpiry (uid : Nat) (s : State) : Result :=
  match findLaunch s uid with
  | none => .next s
  | some l =>
    .next (if inAdmission s l && waitedLong s l && (admitNext s l).isNone then
        modLaunch s uid fun l => { l with blocking := true }
      else s)

/-! ### Residency (R51, R52) -/

/-- The residency timeout of a launch in clocks. -/
def timeoutClocks (l : Launch) : Nat := usClocks (if l.rto = 0 then 10000 else l.rto)

/-- The cores that hold a resident group of a launch. -/
def coresOfLaunch (s : State) (uid : Nat) : List Nat :=
  ((s.groups.filter fun e => e.2.uid == uid).map fun e => coreOf e.1).eraseDups

/-- A residency record (R353). -/
def residencyRecord (l : Launch) : TrapRecord :=
  { cause := 0x13, gid := 0, part := l.part, vf := vfNumber l.ctx, mask := 0, detail := 0, counter := 0, progress := 0
    launch := l.launch, residency := true }

/-- A ladder takes the whole context off its cores: a switch, an owner's command, or its end. -/
def contextLeaves (s : State) (f : Nat) : Bool :=
  s.ladders.any fun x => x.ctx == f && (match x.why with
    | .swap _ => false
    | _ => true)

/-- THE RESIDENCY FAULT (R51): a record for each kiosk, the counter restarts, and swapping starts when it is allowed (R52). While every position
of the context is leaving its cores anyway its steps wait: they go on when that ladder is abandoned, and end with it otherwise (log 143,
DEDUCED). -/
def residencyFault (s : State) (l : Launch) : State :=
  let s1 := (coresOfLaunch s l.uid).foldl (fun t c =>
    let k := getKiosk t c
    setKiosk t c { k with waiting := k.waiting ++ [residencyRecord l] }) s
  let s2 := modLaunch s1 l.uid fun l => { l with lastProgress := s.clock }
  if l.swap && !l.swapping && (getCtx s2 l.ctx).resident then
    let s3 := modLaunch s2 l.uid fun l => { l with swapping := true }
    if contextLeaves s3 l.ctx then s3 else swapStep s3 l.uid
  else s2

/-- R51: a launch with a position that is neither resident nor ended has made no progress for its timeout (log 72, DEDUCED). -/
def execResidencyTimeout (uid : Nat) (s : State) : Result :=
  match findLaunch s uid with
  | none => .next s
  | some l =>
    let outside := decide (l.nextPos < l.positions) || (getCtx s l.ctx).saved.any fun p => p.uid == uid && p.swapped
    .next (if l.ready && !l.killed && outside && decide (l.lastProgress + timeoutClocks l ≤ s.clock) then residencyFault s l else s)

end Sys2Proof.Machine
end

