-- ==== Sys2Proof/Machine/Timers.lean ====
section
/-! DEFINITION. What the passing of time brings: the refresh of the weight store (R256), refill points (R292) and starvation (R290). -/

namespace Sys2Proof.Machine

/-- The next slot of a die begins, when its time has come, and its avenue is under refresh (R256). -/
def avenueDue (die : Nat) (s : State) : State :=
  let j := tblGet 0 s.avenue die
  if die < 2 && readyBit s (4 + die) && decide (1000 * (j + 1) ≤ dieClock s die) then
    { s with avenue := tblSet 0 s.avenue die (j + 1), refresh := tblSet false s.refresh die true }
  else s

/-- The window of a die's slot in progress ends, when its time has come (R256). -/
def windowDue (die : Nat) (s : State) : State :=
  let j := tblGet 0 s.avenue die
  if decide (1000 * j + 500 ≤ dieClock s die) then { s with refresh := tblSet false s.refresh die false } else s

/-- R256: the next slot of a die begins. -/
def execAvenueSlot (die : Nat) (s : State) : Result := .next (avenueDue die s)
/-- R256: the window of the slot in progress ends. -/
def execRefreshWindowEnd (die : Nat) (s : State) : Result := .next (windowDue die s)

/-- The registers of the energy budget (R292, R348). -/
def ebRate (s : State) (f : Nat) : Nat := bitsOf (getX s f 0x108) 31 0
def ebCap (s : State) (f : Nat) : Nat := bitsOf (getX s f 0x110) 31 0
def ebEnabled (s : State) (f : Nat) : Bool := (getX s f 0x100).getLsbD 0

/-- The contexts that exist. -/
def liveContexts (s : State) : List Nat := (List.range 129).filter (ctxExists s)

/-- Refill the budget of a context in a core. -/
def refillOne (s : State) (f core : Nat) : State :=
  let k := 256 * f + core
  { s with budgets := tblSet 0 s.budgets k (Nat.min (tblGet 0 s.budgets k + ebRate s f) (ebCap s f)) }

/-- A refill point of a die, when its time has come: once per microsecond (R292). -/
def refillDue (die : Nat) (s : State) : State :=
  let n := tblGet 0 s.refills die
  if die < 2 && readyBit s (4 + die) && decide (1250 * (n + 1) ≤ dieClock s die) then
    ((liveContexts s).filter (ebEnabled s)).foldl (fun t f =>
      ((List.range 128).map fun c => 128 * die + c).foldl (fun u c => refillOne u f c) t)
      { s with refills := tblSet 0 s.refills die (n + 1) }
  else s

/-- R292: a refill point of a die. -/
def execRefillPoint (die : Nat) (s : State) : Result := .next (refillDue die s)

/-- What the time of a die brings at once: its slots, windows and refill points. -/
def timeOf (die : Nat) (s : State) : State := refillDue die (windowDue die (avenueDue die s))

/-- R290: a group that has been ready for 512 clocks without issuing is starved. -/
def execGroupStarved (gid : Nat) (s : State) : Result :=
  .next (modGroup s gid fun g =>
    if g.starvedAt.isNone && decide (512 ≤ g.waited) then { g with starvedAt := some s.clock } else g)

/-- R290: a fibre that has been ready in 16 issues of its group without it is starved. -/
def execFibreStarved (gid lane : Nat) (s : State) : Result :=
  .next (modFibre s gid lane fun f =>
    if f.starvedAt.isNone && decide (16 ≤ f.missed) && f.live then { f with starvedAt := some s.clock } else f)

end Sys2Proof.Machine
end

