-- ==== Sys2Proof/Machine/Registers.lean ====
section
/-! DEFINITION. Writes of the expert registers (R8, R9, R292, R318, R321, R322, R326, R338, R339, R346, R348, R350, R356). -/

namespace Sys2Proof.Machine

/-! ### Shares (R317, R318) -/

/-- Two runs of a share overlap; an empty one overlaps nothing. -/
def shareClash (a n b m : Nat) : Bool := decide (0 < n) && decide (0 < m) && overlaps a n b m

def quotaClash (u v : Quota) : Bool :=
  shareClash u.gsf u.gsn v.gsf v.gsn || shareClash u.rrf u.rrn v.rrf v.rrn || shareClash u.lsf u.lsn v.lsf v.lsn
    || shareClash u.spf u.spn v.spf v.spn

def otherParts (p : Nat) : List Nat := (List.range 16).filter fun i => i != p

/-- A PQUOTA value may be written (R318). -/
def quotaOk (s : State) (p : Nat) (v : Dword) : Bool :=
  let u := quotaOf v
  decide (u.gsf + u.gsn ≤ 16) && decide (u.rrf + u.rrn ≤ 1024) && decide (u.lsf + u.lsn ≤ 4) && decide (u.spf + u.spn ≤ 3072)
    && (otherParts p).all (fun i => !quotaClash u (quotaOf (pquota s i)))
    && !s.groups.any fun e => e.2.part == p

def pquotaMask : Dword := 0x07FFFFFFFFFFC000
def pshareMask : Dword := 0x000FFFFFFFFFFFFF

/-- A PSHARE value may be written (R318). -/
def shareOk (s : State) (p : Nat) (v : Dword) : Bool :=
  (otherParts p).all (fun i => (pshare s i &&& v &&& pshareMask) == 0)
    && s.regionsOf.all fun e => !(e.1 / 32 == p) || (List.range 16).all fun a =>
      !overlaps (256 * a) 256 e.2.first e.2.count || v.getLsbD (16 * e.2.die + a)

def writePquota (s : State) (p : Nat) (v : Dword) : State :=
  gateHub s 0 (0x1100 + 8 * p) fun s =>
    if quotaOk s p v then setX s 0 (0x1100 + 8 * p) (v &&& pquotaMask) else refuseWrite s 0 (0x1100 + 8 * p)
def writePshare (s : State) (p : Nat) (v : Dword) : State :=
  gateHub s 0 (0x1180 + 8 * p) fun s =>
    if shareOk s p v then setX s 0 (0x1180 + 8 * p) (v &&& pshareMask) else refuseWrite s 0 (0x1180 + 8 * p)

/-- R318. -/
def execPquotaWrite (p : Nat) (v : Dword) (s : State) : Result := .next (if p < 16 then writePquota s p v else s)
/-- R318. -/
def execPshareWrite (p : Nat) (v : Dword) (s : State) : Result := .next (if p < 16 then writePshare s p v else s)

/-! ### Bindings (R321, R322) -/

def bindMask : Dword := 0xFFFFFFFF00FFF001

/-- A context comes to exist (R292, R321). -/
def createContext (s : State) (f : Nat) : State := dropOps (zeroBudgets (setCtx s f {}) f) f

/-- A context stops existing: its groups go down the ladder, then it is reset (R328, R332) (log 71, DEDUCED). -/
def disableContext (s : State) (f : Nat) : State :=
  if (residentPositions s f).isEmpty then contextReset s f
  else startLadder { s with ladders := s.ladders.filter fun x => !(x.ctx == f) } f .disable (residentPositions s f)

/-- Something of a context that no longer exists still stands on the cores. -/
def leaving (s : State) (f : Nat) : Bool := onLadder s f || s.groups.any fun e => e.2.ctx == f

/-- The write of a binding register (R321, R322); while a context that was disabled still leaves the cores it is refused (log 34, DESIGN CHOICE). -/
def writeBind (s : State) (f : Nat) (v : Dword) : State :=
  gateHub s 0 (bindOffset f) fun s =>
    let old := bindReg s f
    let new := v &&& bindMask
    let fixed := bitsOf old 23 12 == bitsOf new 23 12
    if (old.getLsbD 0 && !fixed) || (!old.getLsbD 0 && leaving s f) then refuseWrite s 0 (bindOffset f)
    else
      let s1 := setX s 0 (bindOffset f) new
      if old.getLsbD 0 && !new.getLsbD 0 then disableContext s1 f
      else if !old.getLsbD 0 && new.getLsbD 0 then createContext s1 f
      else s1

/-- R321. -/
def execVfbindWrite (vf : Nat) (v : Dword) (s : State) : Result := .next (if vf < 128 then writeBind s (1 + vf) v else s)
/-- R322. -/
def execPfbindWrite (v : Dword) (s : State) : Result := .next (writeBind s 0 v)

/-- The save area of a function changes only while its context does not exist (R321). -/
def writeSave (s : State) (f : Nat) (v : Dword) : State :=
  let new := v &&& 0x000FFFFFFFFFFFFF
  if ctxExists s f && new != getX s 0 (saveOffset f) then refuseWrite s 0 (saveOffset f) else setX s 0 (saveOffset f) new

/-! ### Keys (R326) -/

def kslotOffset (k : Nat) : Nat := 0x2000 + 8 * k

/-- Begin the reset of a key slot: every line tagged with it is dropped without write-back, and the slot is BUSY. -/
def resetSlot (s : State) (k : Nat) : State :=
  let dirty := (s.stale.filter fun e => (tblFind s.memTag e.1).map Prod.fst == some k).map fun e => e.1 / 128
  let s1 := dirty.eraseDups.foldl dropBytes s
  setX { s1 with lines := s1.lines.filter fun l => l.key != k } 0 (kslotOffset k) (getX s 0 (kslotOffset k) ||| 2)

/-- An enabled virtual function names a slot. -/
def slotNamed (s : State) (k : Nat) : Bool := (List.range 128).any fun v => ctxExists s (1 + v) && ctxKey s (1 + v) == k

/-- R326: a reset is refused while an enabled virtual function names the slot; one in progress is left to complete. -/
def execKslotReset (k : Nat) (s : State) : Result :=
  .next (if k < 256 then
      gateHub s 0 (kslotOffset k) fun s =>
        if slotNamed s k then refuseWrite s 0 (kslotOffset k) else if keyBusy s k then s else resetSlot s k
    else s)

/-- A new key is drawn, and the slot is valid (R326, R343). -/
def drawKey (s : State) (k : Nat) : State :=
  { (setX s 0 (kslotOffset k) 4) with keyGen := tblSet 0 s.keyGen k (tblGet 0 s.keyGen k + 1) }

/-- R326. -/
def execKslotResetDone (k : Nat) (s : State) : Result := .next (if k < 256 && keyBusy s k then drawKey s k else s)

/-! ### Budgets and queues (R285, R292, R348) -/

def writeEbctl (s : State) (f : Nat) (v : Dword) : State :=
  gateCtx s f 0x100 fun s =>
    let s1 := if v.getLsbD 0 && !ebEnabled s f then zeroBudgets s f else s
    setX s1 f 0x100 (v &&& 1)

/-- R292. -/
def execEbctlWrite (f : Nat) (v : Dword) (s : State) : Result := .next (writeEbctl s f v)

def sqOffset (q : Nat) : Nat := 0x400 + 8 * q
def sqMask : Dword := 0xFFFFFFFFC0000001

/-- The enabled queues that name a dispatcher. -/
def queuesOnDisp (s : State) (d : Nat) : Nat :=
  (s.xreg.filter fun e =>
    decide (0x400 ≤ e.1 % 2 ^ 20) && decide (e.1 % 2 ^ 20 < 0x600) && e.2.getLsbD 0 && bitsOf e.2 43 38 == d).length

/-- A pending record of an ended queue ends with CODE 7. -/
def endedRun (r : List Dword) : Run :=
  { id := 0, tag := lowWord (recordDw r 0), status := recordDw r 2, pc := 0, code := 7, ended := true }

/-- A launch of an ended queue that has no position admitted ends (R285, R287). -/
def dropUnadmitted (s : State) (f q : Nat) : State :=
  (s.launches.filter fun l => l.ctx == f && l.queue == q && l.nextPos == 0).foldl (fun t l => completeLaunch t l.uid) s

/-- END A QUEUE (R285): its records end with CODE 7; admitted launches run on. -/
def endQueue (s : State) (f q : Nat) : State :=
  let v := getQueue s f q
  let stop (r : Run) : Run := { r with code := if r.code = 0 then 7 else r.code, errIndex := if r.code = 0 then r.index else r.errIndex
                                       ended := true, waiting := false, regionWait := none }
  let now := match v.cur with
    | some r => [stop r]
    | none => []
  let s1 := setQueue s f q { pending := [], cur := none, ending := v.ending ++ now ++ v.pending.map endedRun }
  let s2 := { s1 with regionCmds := s1.regionCmds.filter fun c => !(c.ctx == f && c.queue == q) }
  finishRuns (dropUnadmitted s2 f q)

/-- The write of SQCFG (R322, R348). -/
def writeSqcfg (s : State) (f q : Nat) (v : Dword) : State :=
  gateHub s f (sqOffset q) fun s =>
    let old := sqcfg s f q
    let new := v &&& sqMask
    let on := old.getLsbD 0
    let moved := bitsOf old 63 30 != bitsOf new 63 30
    let full := decide (16 ≤ queuesOnDisp s (bitsOf new 43 38))
    if (on && moved) || (!on && new.getLsbD 0 && (full || (f == 0 && !ctxExists s 0))) then refuseWrite s f (sqOffset q)
    else
      let s1 := setX s f (sqOffset q) new
      if v.getLsbD 1 then endQueue s1 f q else s1

/-- R348. -/
def execSqcfgWrite (f q : Nat) (v : Dword) (s : State) : Result := .next (if f < 129 ∧ q < 64 then writeSqcfg s f q v else s)
/-- R285. -/
def execSqcfgEnd (f q : Nat) (s : State) : Result :=
  .next (if f < 129 ∧ q < 64 then gateHub s f (sqOffset q) fun s => endQueue s f q else s)

/-! ### CXL decoders (R346) -/

def hdmRegOffset (port dec : Nat) (r : HdmReg) : Nat :=
  hdmOffset port dec + match r with
    | .base => 0
    | .size => 8
    | .device => 16

def hdmMask (r : HdmReg) : Dword :=
  match r with
  | .base => 0x000FFFFFF0000001
  | _ => 0x000FFFFFF0000000

/-- The window of a decoder, by its registers. -/
def hdmWindow (s : State) (n : Nat) : Nat × Nat :=
  (bitsOf (getX s 0 (hdmOffset (n / 4) (n % 4))) 51 28 * 2 ^ 28, bitsOf (getX s 0 (hdmOffset (n / 4) (n % 4) + 8)) 51 28 * 2 ^ 28)

/-- An enabled decoder keeps the conditions of R346. -/
def hdmOk (s : State) (n : Nat) : Bool :=
  let w := hdmWindow s n
  !(getX s 0 (hdmOffset (n / 4) (n % 4))).getLsbD 0
    || (decide (0x1000000000000 ≤ w.1) && decide (w.1 + w.2 ≤ 0xF000000000000)
        && (List.range 32).all fun m => m == n || !(getX s 0 (hdmOffset (m / 4) (m % 4))).getLsbD 0
          || !shareClash w.1 w.2 (hdmWindow s m).1 (hdmWindow s m).2)

/-- The write of a decoder register: while the decoder is enabled only its EN may change (R346). -/
def writeHdm (s : State) (port dec : Nat) (r : HdmReg) (v : Dword) : State :=
  let off := hdmRegOffset port dec r
  gateHub s 0 off fun s =>
    let new := v &&& hdmMask r
    let old := getX s 0 off
    let on := (getX s 0 (hdmOffset port dec)).getLsbD 0
    let s1 := setX s 0 off new
    if (on && bitsOf old 63 1 != bitsOf new 63 1) || !hdmOk s1 (4 * port + dec) then refuseWrite s 0 off else s1

/-- R346. -/
def execCxlhdmWrite (port dec : Nat) (r : HdmReg) (v : Dword) (s : State) : Result :=
  .next (if port < 8 ∧ dec < 4 then writeHdm s port dec r v else s)

/-! ### Function-level reset (R8, R326, R332, R348) -/

/-- The registers that a function's reset leaves: the physical function's key slots (R326). -/
def keptByReset (offset : Nat) : Bool := decide (0x2000 ≤ offset) && decide (offset < 0x2800)

/-- The registers of a function take their reset values, and its error log is empty. -/
def clearFunction (s : State) (f : Nat) : State :=
  { s with xreg := s.xreg.filter fun e => !(e.1 / 2 ^ 20 == f) || (f == 0 && keptByReset (e.1 % 2 ^ 20))
           errLog := tblErase s.errLog f, errOvf := s.errOvf.filter fun x => x != f }

/-- Another enabled function names the slot of a function. -/
def slotShared (s : State) (f : Nat) : Bool :=
  (List.range 129).any fun h => h != f && ctxExists s h && ctxKey s h == ctxKey s f

/-- RESET of a virtual function: its context, its registers, then its key slot when no other enabled function names it. -/
def resetVf (s : State) (f : Nat) : State :=
  let s1 := clearFunction (if ctxExists s f || leaving s f then contextReset s f else s) f
  if ctxExists s f && !slotShared s f && !keyBusy s (ctxKey s f) then resetSlot s1 (ctxKey s f) else s1

/-- The read-only fields of the physical function's registers take their reset values (R8): no slot is busy, a reset in progress drawing
its key, no kiosk has started, no publisher key loads, and no item is ready or failed until it reports again (log 124, DEDUCED). -/
def clearStatus (s : State) : State :=
  let s1 := ((List.range 256).filter (keyBusy s)).foldl drawKey s
  { s1 with kiosks := s1.kiosks.map fun e => (e.1, { e.2 with started := false }), keyLoad := none, ready := 0, failed := 0 }

/-- RESET of the physical function: it owns every binding, so every context is reset with it (log 62, DEDUCED). -/
def resetPf (s : State) : State := clearStatus (clearFunction ((List.range 129).foldl contextReset s) 0)

/-- R348. -/
def execFctlReset (f : Nat) (s : State) : Result :=
  .next (if f < 129 then gateHub s f 0 fun s => if f = 0 then resetPf s else resetVf s f else s)

/-! ### Error log (R338, R339) -/

def popLog (s : State) (f : Nat) : State := { s with errLog := tblSet [] s.errLog f ((tblGet [] s.errLog f).drop 1) }
def clearOvf (s : State) (f : Nat) : State := { s with errOvf := s.errOvf.filter fun x => x != f }

/-- R339. -/
def execErrstatPop (f : Nat) (s : State) : Result := .next (if f < 129 then gateHub s f 0x198 fun s => popLog s f else s)
/-- R338. -/
def execErrstatOvfClear (f : Nat) (s : State) : Result := .next (if f < 129 then gateHub s f 0x198 fun s => clearOvf s f else s)

/-! ### Kiosks and publisher keys (R350, R356) -/

/-- The cores of ready dies. -/
def readyCores (s : State) : List Nat := (List.range 256).filter fun c => readyBit s (4 + dieOfCore c)
/-- RUN of KBOOT. -/
def kiosksRun (s : State) : Bool := !(readyCores s).isEmpty && (readyCores s).all fun c => (getKiosk s c).started

/-- The hart number of a core's kiosk. -/
def kioskHart (core : Nat) : Nat := 96 + core

/-- A kiosk leaves reset: its hart starts in M-mode at ENTRY (R350), its other registers at their reset values (log 6, DESIGN CHOICE). -/
def startKiosk (s : State) (core : Nat) : State :=
  if (getKiosk s core).started then s
  else setHart (setKiosk s core { getKiosk s core with started := true }) (kioskHart core)
      { pc := BitVec.ofNat 64 (4 * bitsOf (getX s 0 0x3000) 51 2) }

/-- The write of KBOOT (R350): the kiosks that are in reset start; those that run already run on (log 125, DESIGN CHOICE). -/
def writeKboot (s : State) (v : Dword) : State :=
  gateHub s 0 0x3000 fun s =>
    let s1 := setX s 0 0x3000 (v &&& 0x000FFFFFFFFFFFFC)
    if v.getLsbD 0 && !kiosksRun s then (readyCores s).foldl startKiosk s1 else s1

/-- R350. -/
def execKbootGo (v : Dword) (s : State) : Result := .next (writeKboot s v)

/-- The write of RTPKC (R356): its SLOT and ERR bits are kept; LOAD while BUSY is ignored (log 35, DESIGN CHOICE). -/
def writeRtpkc (s : State) (v : Dword) : State :=
  gateHub s 0 0x3010 fun s =>
    let s1 := setX s 0 0x3010 ((getX s 0 0x3010 &&& 0x400) ||| (v &&& 0xF))
    if v.getLsbD 8 && s.keyLoad.isNone then { s1 with keyLoad := some (bitsOf v 3 0) } else s1

/-- R356. -/
def execRtpkcLoad (v : Dword) (s : State) : Result := .next (writeRtpkc s v)

/-- The 97 bytes of the public key in RTPKB (R356). -/
def rtpkb (s : State) : List Byte := (((List.range 13).map fun i => bytesOf 8 (getX s 0 (0x3100 + 8 * i)).toNat).flatten).take 97

/-- R356: the slot takes the key, unless its point is not on the curve. -/
def execRtpkcLoadDone (s : State) : Result :=
  match s.keyLoad with
  | none => .next s
  | some k =>
    let key := rtpkb s
    let s1 := { s with keyLoad := none }
    .next (if key.headD 0 == 4 && Config.onCurve key then
      { (setX s1 0 0x3010 (getX s1 0 0x3010 &&& ~~~(0x400#64))) with pubKeys := tblInsert s.pubKeys k key }
    else setX s1 0 0x3010 (getX s1 0 0x3010 ||| 0x400))

/-! ### Every other register (R8, R9, R348) -/

/-- The writable bits of a context-scope register without an effect of its own, none when it is none of them. -/
def ctxRegMask (offset : Nat) : Option Dword :=
  match offset with
  | 0x108 | 0x110 => some 0x00000000FFFFFFFF
  | 0x118 => some 0x01FFFFFFFFFFF01F
  | 0x128 => some 0x01FFFFFFFFFFFFFF
  | 0x138 => some 0x000FFFFFFFFFFC01
  | 0x140 | 0x148 | 0x150 => some 0xFFFFFFFFFFFFFFFF
  | 0x158 => some 3
  | 0x160 | 0x168 | 0x170 | 0x178 => some 0x01FFFFFFFFFFFFFD
  | 0x180 | 0x188 | 0x190 => some 0
  | 0x1A0 => some 0x00000000000FFFFF
  | _ => none

/-- The same of the physical function's registers. -/
def pfRegMask (offset : Nat) : Option Dword :=
  if offset = 0x1000 then some 0x000FFFFFFFFFF01F
  else if 0x1A00 ≤ offset ∧ offset < 0x1E00 ∧ offset % 8 = 0 then some 0xFFFFFFFFFFFFFFFF
  else if offset = 0x1E10 then some 0xFFFFFFFFFFFFFFFF
  else if 0x2800 ≤ offset ∧ offset < 0x3000 ∧ offset % 8 = 0 then some 0x0000FFFF0000FFFF
  else if offset = 0x3008 then some 0
  else if offset = 0x3018 then some 0x000FFFFFFFFFFFFD
  else if 0x3100 ≤ offset ∧ offset < 0x3168 ∧ offset % 8 = 0 then some 0xFFFFFFFFFFFFFFFF
  else none

/-- Set a register's writable bits; the others keep what they hold (R8, R9). -/
def writeMasked (s : State) (f offset : Nat) (mask v : Dword) : State :=
  setX s f offset ((getX s f offset &&& ~~~mask) ||| (v &&& mask))

/-- A write to a physical-function register, by offset (R348). -/
def writePf (s : State) (offset : Nat) (v : Dword) : State :=
  match pfRegMask offset with
  | some m => writeMasked s 0 offset m v
  | none =>
    if offset % 8 ≠ 0 then refuseWrite s 0 offset
    else if 0x1100 ≤ offset ∧ offset < 0x1180 then writePquota s ((offset - 0x1100) / 8) v
    else if 0x1180 ≤ offset ∧ offset < 0x1200 then writePshare s ((offset - 0x1180) / 8) v
    else if 0x1200 ≤ offset ∧ offset < 0x1600 then writeBind s (1 + (offset - 0x1200) / 8) v
    else if 0x1600 ≤ offset ∧ offset < 0x1A00 then writeSave s (1 + (offset - 0x1600) / 8) v
    else if offset = 0x1E00 then writeBind s 0 v
    else if offset = 0x1E08 then writeSave s 0 v
    else if 0x2000 ≤ offset ∧ offset < 0x2800 then
      let k := (offset - 0x2000) / 8
      if !v.getLsbD 0 then s else if slotNamed s k then refuseWrite s 0 offset else if keyBusy s k then s else resetSlot s k
    else if offset = 0x3000 then writeKboot s v
    else if offset = 0x3010 then writeRtpkc s v
    else if 0x3400 ≤ offset ∧ offset < 0x3800 then
      let n := (offset - 0x3400) / 32
      match (offset - 0x3400) % 32 with
      | 0 => writeHdm s (n / 4) (n % 4) .base v
      | 8 => writeHdm s (n / 4) (n % 4) .size v
      | 16 => writeHdm s (n / 4) (n % 4) .device v
      | _ => refuseWrite s 0 offset
    else refuseWrite s 0 offset

/-- A write to ERRSTAT (R338): POP, and OVF by writing 1. -/
def writeErrstat (s : State) (f : Nat) (v : Dword) : State :=
  let s1 := if v.getLsbD 8 then clearOvf s f else s
  if v.getLsbD 9 then popLog s1 f else s1

/-- A WRITE TO ANY REGISTER of a function, by its offset in BAR0 (R8, R348): a register of the physical function reached through a
virtual function, and an offset that is not listed, refuse it. -/
def writeRegister (s : State) (f offset : Nat) (v : Dword) : State :=
  gateHub s f offset fun s =>
    if offset = 0 then (if v.getLsbD 1 then (if f = 0 then resetPf s else resetVf s f) else s)
    else if offset = 0x198 then writeErrstat s f v
    else if 0x200 ≤ offset ∧ offset < 0x300 then s
    else if 0x400 ≤ offset ∧ offset < 0x600 ∧ offset % 8 = 0 then writeSqcfg s f ((offset - 0x400) / 8) v
    else if offset = 0x100 then writeEbctl s f v
    else if offset = 0x120 then gateCtx s f offset fun s => sdinvWrite s f v
    else if offset = 0x130 then gateCtx s f offset fun s => tlbinvWrite s f v
    else
      match ctxRegMask offset with
      | some m => gateCtx s f offset fun s => writeMasked s f offset m v
      | none => if f = 0 then writePf s offset v else refuseWrite s f offset

/-- R8, R348. -/
def execRegisterWrite (f offset : Nat) (v : Dword) (s : State) : Result :=
  .next (if f < 129 then writeRegister s f offset v else s)

end Sys2Proof.Machine
end

