-- ==== Sys2Proof/Machine/Bringup.lean ====
section
/-! DEFINITION. Bring-up (R355) and management (R344, R347). -/

namespace Sys2Proof.Machine

/-- Stage 1 begins: the root of trust draws the owner's key for slot 0 (R343), and the hub counts its clocks from here (R338). -/
def startUp (s : State) : State := { drawKey s 0 with power := .on, hubStart := s.clock }

/-- R355 stage 0: the root-of-trust ROM checks the hub image; a failure leaves recovery mode (R347). -/
def execPowerOn (imageOk : Bool) (s : State) : Result :=
  .next (if s.power = .off then (if imageOk then startUp s else { s with power := .recovery }) else s)

/-- The stage of an item has begun (R355): the items of stage 1 at once, those of stage 2 when the hub runs or has failed, the kiosks when they
have started. -/
def stageBegun (s : State) (item : Nat) : Bool :=
  s.power == .on && decide (item < 20) &&
    (if item < 4 then true else if item < 19 then readyBit s 0 || s.failed.getLsbD 0 else readyBit s 0 && kiosksRun s)

/-- A compute die starts: its clock, its refresh slots and its refill points count from here (R5, R256, R292). -/
def startDie (s : State) (die : Nat) : State :=
  { s with dieReady := tblSet 0 s.dieReady die s.clock, avenue := tblSet 0 s.avenue die 0
           refresh := tblSet false s.refresh die true, refills := tblSet 0 s.refills die 0 }

/-- R355: an item sets its READY bit, or its FAILED bit, once. -/
def execItemReady (item : Nat) (failed : Bool) (s : State) : Result :=
  .next (if stageBegun s item && !s.ready.getLsbD item && !s.failed.getLsbD item then
      if failed then { s with failed := s.failed ||| (1#20 <<< item) }
      else
        let s1 := { s with ready := s.ready ||| (1#20 <<< item) }
        if item = 4 ∨ item = 5 then startDie s1 (item - 4) else s1
    else s)

/-- The management endpoint runs: in recovery mode, or when item 3 is ready (R347, R355). -/
def managementUp (s : State) : Bool := s.power == .recovery || (s.power == .on && readyBit s 3)

/-- Send a message over management; what it carries the spec leaves to its standards. -/
def sendMgmt (s : State) (number : Nat) (value : Nat → Word) : State :=
  { s with mgmt := s.mgmt ++ [{ number := number, value := value s.fresh }], fresh := s.fresh + 1 }

/-- The number of the state sensor that reports the image check; the other sensors follow it (R347) (log 147, DESIGN CHOICE). -/
def imageSensor : Nat := 0

/-- R347: a monitoring and control message is answered with the value of the sensor that it names: in recovery mode the state sensor reports
the failed image check, 1; out of it the part offers no such sensor. -/
def execPldmMonitorControl (message : Nat) (s : State) : Result :=
  .next (if !managementUp s then s
    else if message = imageSensor then (if s.power = .recovery then sendMgmt s message fun _ => 1 else s)
    else sendMgmt s message (Config.sensorValue message))

/-- R344, R347: an attestation message is answered, over management or over the PCIe port's DOE; IDE streams and
TDISP hold no state here (log 129, DESIGN CHOICE). -/
def execSpdmMessage (message : Nat) (s : State) : Result :=
  .next (if managementUp s || readyBit s 18 then sendMgmt s message Config.attestationAnswer else s)

/-- R347: an update completes. In recovery mode the part starts again from stage 0 with the new image. -/
def execPldmFirmwareUpdate (imageOk : Bool) (s : State) : Result :=
  .next (if s.power = .recovery then (if imageOk then startUp s else s) else s)

end Sys2Proof.Machine
end

