-- ==== Sys2Proof/Machine/FloatVec.lean ====
section
/-! DEFINITION. The floating-point, packed and conversion words (R128, R133 to R141). -/

namespace Sys2Proof.Machine

/-- A lane operation on 32-bit values that rounds in the fibre's mode. -/
def fpOp (h : Nat → Nat → Nat → Nat → Nat × Status) : LaneOp := fun a b c mode =>
  let r := h mode (a.headD 0).toNat (b.headD 0).toNat (c.headD 0).toNat
  ([BitVec.ofNat 32 r.1], r.2)

/-- A packed lane operation. -/
def packedOp (h : Nat → Nat → Nat → Nat → Nat × Status) : LaneOp := fun a b c mode =>
  let r := packed (h mode) (a.headD 0) (b.headD 0) (c.headD 0)
  ([r.1], r.2)

/-- R136: two FP32 values rounded into the halves of a word. -/
def packWords (f : FpFormat) (mode a b : Nat) : Nat × Status :=
  let lo := cvtToFp f false mode (fp32.decode a)
  let hi := cvtToFp f false mode (fp32.decode b)
  (lo.1 + 65536 * hi.1, lo.2.or hi.2)

/-- The format of a type code of rnd and of the special functions (R74, R138). -/
def fpOfCode (t : Nat) : FpFormat :=
  match t with
  | 0 => fp32
  | 1 => fp16
  | _ => bf16

/-- R133. -/
def execAddF32 (o : RR) (s : State) : Result := runVec (.addF32 o) s fun _ => fpOp fun mode a b _ => fpAdd fp32 mode a b
/-- R133. -/
def execSubF32 (o : RR) (s : State) : Result := runVec (.subF32 o) s fun _ => fpOp fun mode a b _ => fpSub fp32 mode a b
/-- R133. -/
def execMulF32 (o : RR) (s : State) : Result := runVec (.mulF32 o) s fun _ => fpOp fun mode a b _ => fpMul fp32 mode a b
/-- R133, R115. -/
def execFmaF32 (o : RR) (s : State) : Result := runVec (.fmaF32 o) s fun _ => fpOp fun mode a b c => fpFma fp32 mode a b c
/-- R101. -/
def execMinF32 (o : RR) (s : State) : Result := runVec (.minF32 o) s fun _ => fpOp fun _ a b _ => fpMinMax fp32 false false a b
/-- R101. -/
def execMaxF32 (o : RR) (s : State) : Result := runVec (.maxF32 o) s fun _ => fpOp fun _ a b _ => fpMinMax fp32 true false a b
/-- R101. -/
def execMinnumF32 (o : RR) (s : State) : Result := runVec (.minnumF32 o) s fun _ => fpOp fun _ a b _ => fpMinMax fp32 false true a b
/-- R101. -/
def execMaxnumF32 (o : RR) (s : State) : Result := runVec (.maxnumF32 o) s fun _ => fpOp fun _ a b _ => fpMinMax fp32 true true a b
/-- R134. -/
def execScaleF32 (o : RR) (s : State) : Result := runVec (.scaleF32 o) s fun _ => fpOp fun mode a b _ => fpScale mode a (signedBits 32 b)
/-- R128, R101. -/
def execCmpEqF32 (o : CP) (s : State) : Result := runVec (.cmpEqF32 o) s fun _ => cmpOp fun a b => fpCompare .eq a.toNat b.toNat
/-- R128, R101. -/
def execCmpLtF32 (o : CP) (s : State) : Result := runVec (.cmpLtF32 o) s fun _ => cmpOp fun a b => fpCompare .lt a.toNat b.toNat
/-- R128, R101. -/
def execCmpLeF32 (o : CP) (s : State) : Result := runVec (.cmpLeF32 o) s fun _ => cmpOp fun a b => fpCompare .le a.toNat b.toNat
/-- R128, R101. -/
def execCmpUnF32 (o : CP) (s : State) : Result := runVec (.cmpUnF32 o) s fun _ => cmpOp fun a b => fpCompare .un a.toNat b.toNat
/-- R135. -/
def execAddBf16 (o : RR) (s : State) : Result := runVec (.addBf16 o) s fun _ => packedOp fun mode a b _ => fpAdd bf16 mode a b
/-- R135. -/
def execMulBf16 (o : RR) (s : State) : Result := runVec (.mulBf16 o) s fun _ => packedOp fun mode a b _ => fpMul bf16 mode a b
/-- R135, R115. -/
def execFmaBf16 (o : RR) (s : State) : Result := runVec (.fmaBf16 o) s fun _ => packedOp fun mode a b c => fpFma bf16 mode a b c
/-- R136. -/
def execPackBf16 (o : RR) (s : State) : Result := runVec (.packBf16 o) s fun _ => fpOp fun mode a b _ => packWords bf16 mode a b
/-- R135. -/
def execAddF16 (o : RR) (s : State) : Result := runVec (.addF16 o) s fun _ => packedOp fun mode a b _ => fpAdd fp16 mode a b
/-- R135. -/
def execMulF16 (o : RR) (s : State) : Result := runVec (.mulF16 o) s fun _ => packedOp fun mode a b _ => fpMul fp16 mode a b
/-- R135, R115. -/
def execFmaF16 (o : RR) (s : State) : Result := runVec (.fmaF16 o) s fun _ => packedOp fun mode a b c => fpFma fp16 mode a b c
/-- R136. -/
def execPackF16 (o : RR) (s : State) : Result := runVec (.packF16 o) s fun _ => fpOp fun mode a b _ => packWords fp16 mode a b
/-- R137. -/
def execDot4E4m3 (o : RR) (s : State) : Result := runVec (.dot4E4m3 o) s fun _ => fpOp fun mode a b c => dot4 mode a b c
/-- R138, R139. -/
def execCvt (o : RU) (t s : BitVec 4) (st : State) : Result :=
  runVec (.cvt o t s) st fun _ => fpOp fun mode a _ _ => convert t.toNat s.toNat mode a
/-- R141. -/
def execRnd (o : RU) (t : BitVec 2) (s : State) : Result :=
  runVec (.rnd o t) s fun _ => fpOp fun mode a _ _ =>
    roundIntegral (fpOfCode t.toNat) mode (a % 2 ^ ((fpOfCode t.toNat).magBits + 1))

end Sys2Proof.Machine
end

