-- ==== Sys2Proof/Machine/Cross.lean ====
section
/-! DEFINITION. The cross-lane words (R143 to R146). -/

namespace Sys2Proof.Machine

/-- What a cross-lane word computes from its participants' values, in ascending lane order, and the rounding mode of the lowest: each
participant's result, and status bits for every participant (R145). -/
abbrev CrossOp := List (Nat × Word) → Nat → List (Nat × List Word) × Status

/-- One element of a cross-lane word: participants alone contribute and are written (R143). -/
def crossElement (src g : Group) (iss : Issue) (f : VecForm) (op : CrossOp) : Group :=
  let parts := iss.lanes.filter fun l => !iss.excluded src l
  let reads := parts.map fun l => (l, readOperand src iss l f.a)
  let mode := match parts with
    | l :: _ => roundingMode (src.fibre l)
    | [] => 0
  let r := op (reads.map fun x => (x.1, x.2.1.headD 0)) mode
  let g1 := (iss.lanes.filter fun l => iss.excluded src l).foldl (fun acc l => latchExcluded acc f l) g
  r.1.foldl (fun acc x =>
    writeVec acc f x.1 x.2 (r.2.or { ll := ((reads.find? fun y => y.1 == x.1).map fun y => y.2.2).getD false })) g1

/-- THE CROSS-LANE WORD. -/
def runCross (i : Instr) (s : State) (op : CrossOp) : Result :=
  guarded i s fun iss g =>
    match vecForm i with
    | none => .next s
    | some f => .next (runElements s iss g f fun e => crossElement (iss.sourceGroup g) g iss e op)

/-- The same word for every participant. -/
def toAll (w : Word) : List (Nat × Word) → List (Nat × List Word) := fun xs => xs.map fun x => (x.1, [w])

def testOp (h : List Word → Bool) : CrossOp := fun xs _ => (toAll (if h (xs.map Prod.snd) then 1 else 0) xs, {})

/-- The 64-bit mask of the participants whose value is not zero. -/
def nzmaskOp : CrossOp := fun xs _ =>
  let m := maskOf ((xs.filter fun x => x.2 != 0).map Prod.fst)
  (xs.map fun x => (x.1, [lowWord m, highWord m]), {})

/-- The number of participants with a lower lane index whose value is not zero. -/
def lcntOp : CrossOp := fun xs _ =>
  (xs.map fun x => (x.1, [BitVec.ofNat 32 (xs.filter fun y => decide (y.1 < x.1) && y.2 != 0).length]), {})

/-- Combine of an operator (R143), rounding in one mode for the whole word (R145). -/
def combine (op mode : Nat) (s x : Word) : Word × Status :=
  let fp (r : Nat × Status) : Word × Status := (BitVec.ofNat 32 r.1, r.2)
  match op with
  | 0 => (s + x, {})
  | 1 => (if s.sle x then s else x, {})
  | 2 => (if s.ule x then s else x, {})
  | 3 => (if x.sle s then s else x, {})
  | 4 => (if x.ule s then s else x, {})
  | 5 => (s &&& x, {})
  | 6 => (s ||| x, {})
  | 7 => (s ^^^ x, {})
  | 8 => fp (fpAdd fp32 mode s.toNat x.toNat)
  | 9 => fp (fpMinMax fp32 false false s.toNat x.toNat)
  | _ => fp (fpMinMax fp32 true false s.toNat x.toNat)

/-- The identity that scan.exc gives (R143). -/
def crossIdentity (op : Nat) : Word :=
  match op with
  | 1 => 0x7FFFFFFF
  | 2 => 0xFFFFFFFF
  | 3 => 0x80000000
  | 5 => 0xFFFFFFFF
  | 8 => 0x80000000
  | 9 => 0x7F800000
  | 10 => 0xFF800000
  | _ => 0

/-- Canon (R144): a NaN under operators 8 to 10 becomes the canonical NaN, NV if it signals. -/
def canonWord (op : Nat) (x : Word) : Word × Status :=
  if op < 8 then (x, {})
  else
    match fp32.decode x.toNat with
    | .nan s => (0x7FC00000, { nv := s })
    | _ => (x, {})

/-- The values of s as each participant is combined, strictly from left to right (R144): before, after, for each lane. -/
def scanFrom (op mode : Nat) : Option Word → List (Nat × Word) → List (Nat × Word × Word) × Status
  | _, [] => ([], {})
  | s, (l, x) :: rest =>
    let c := match s with
      | none => canonWord op x
      | some v => combine op mode v x
    let r := scanFrom op mode (some c.1) rest
    ((l, s.getD (crossIdentity op), c.1) :: r.1, c.2.or r.2)

def scanIncOp (op : Nat) : CrossOp := fun xs mode =>
  let r := scanFrom op mode none xs
  (r.1.map fun x => (x.1, [x.2.2]), r.2)

def scanExcOp (op : Nat) : CrossOp := fun xs mode =>
  let r := scanFrom op mode none xs
  (r.1.map fun x => (x.1, [x.2.1]), r.2)

def reduceOp (op : Nat) : CrossOp := fun xs mode =>
  let r := scanFrom op mode none xs
  let last := match r.1.getLast? with
    | some x => x.2.2
    | none => 0
  (toAll last xs, r.2)

/-- R143. -/
def execAllNz (c nw : Bool) (d sa : BitVec 7) (s : State) : Result :=
  runCross (.allNz c nw d sa) s (testOp fun xs => xs.all fun x => x != 0)
/-- R143. -/
def execAnyNz (c nw : Bool) (d sa : BitVec 7) (s : State) : Result :=
  runCross (.anyNz c nw d sa) s (testOp fun xs => xs.any fun x => x != 0)
/-- R143. -/
def execAllEq (c nw : Bool) (d sa : BitVec 7) (s : State) : Result :=
  runCross (.allEq c nw d sa) s (testOp fun xs => xs.all fun x => x == xs.headD 0)
/-- R143. -/
def execNzmask (c nw : Bool) (d sa : BitVec 7) (s : State) : Result :=
  runCross (.nzmask c nw d sa) s (nzmaskOp)
/-- R143, R144. -/
def execScanInc (c nw : Bool) (d sa : BitVec 7) (op : BitVec 5) (s : State) : Result :=
  runCross (.scanInc c nw d sa op) s (scanIncOp op.toNat)
/-- R143, R144. -/
def execScanExc (c nw : Bool) (d sa : BitVec 7) (op : BitVec 5) (s : State) : Result :=
  runCross (.scanExc c nw d sa op) s (scanExcOp op.toNat)
/-- R143, R144. -/
def execReduce (c nw : Bool) (d sa : BitVec 7) (op : BitVec 5) (s : State) : Result :=
  runCross (.reduce c nw d sa op) s (reduceOp op.toNat)
/-- R143. -/
def execLcnt (c nw : Bool) (d sa : BitVec 7) (s : State) : Result :=
  runCross (.lcnt c nw d sa) s (lcntOp)

end Sys2Proof.Machine
end

