-- ==== Sys2Proof/Machine/Kiosk.lean ====
section
/-! DEFINITION. Parking and the trap queue (R171 to R173), and what a kiosk does through its service window (R336, R337, R350 to
R354). -/

namespace Sys2Proof.Machine

/-! ### Parking and the queue (R171) -/

/-- Step 3 of R171: the group is parked once every fibre has stopped and its matrix and landing words have completed (R228). Issue stops
with the trap, at an instruction boundary. -/
def execGroupPark (gid : Nat) (s : State) : Result :=
  match getGroup s gid with
  | none => .next s
  | some g =>
    if g.stopping && !g.parked && !matrixBusy s gid && (s.issue.map fun i => i.gid) != some gid then
      .next (modGroup s gid fun g => { g with parked := true })
    else .next s

/-- A record may enter its queue: its group is parked or gone, a residency record has none, and a fibre-stop record's fibres have
stopped (R171, R173, R337). -/
def mayEnter (s : State) (r : TrapRecord) : Bool :=
  r.residency || match getGroup s r.gid with
    | none => true
    | some g => g.parked || !g.stopping

/-- The waiting records without the first that meets a test, and that record. -/
def takeFirst (p : TrapRecord → Bool) : List TrapRecord → Option (TrapRecord × List TrapRecord)
  | [] => none
  | r :: rest =>
    if p r then some (r, rest)
    else (takeFirst p rest).map fun x => (x.1, r :: x.2)

/-- Step 4 of R171: a waiting record enters the queue of 64. -/
def execTrapQueueEnter (core : Nat) (s : State) : Result :=
  let k := getKiosk s core
  if 64 ≤ k.queue.length then .next s
  else
    match takeFirst (mayEnter s) k.waiting with
    | none => .next s
    | some (r, rest) => .next (setKiosk s core { k with queue := k.queue ++ [r], waiting := rest })

/-! ### The service window (R351) -/

/-- Run a command of a started kiosk (R350). -/
def byKiosk (s : State) (core : Nat) (h : Kiosk → State) : Result :=
  let k := getKiosk s core
  .next (if k.started then h k else s)

/-- R351: the oldest record leaves the queue. -/
def execTqpop (core : Nat) (s : State) : Result :=
  byKiosk s core fun k => setKiosk s core { k with queue := k.queue.drop 1 }

/-- The group that WINSEL names. -/
def selectedGid (core : Nat) (k : Kiosk) : Nat := 64 * core + 16 * bitsOf k.winsel 1 0 + bitsOf k.winsel 5 2

/-- RESIDENT (R351, R354): the selected group stands on the core and is not pre-empted. -/
def selectedGroup (s : State) (core : Nat) (k : Kiosk) : Option (Nat × Group) :=
  match getGroup s (selectedGid core k) with
  | some g => if g.saving then none else some (selectedGid core k, g)
  | none => none

/-- A command of WINCMD on the selected group, if the group admits it (R354). -/
def wincmd (s : State) (core : Nat) (admits : Group → Bool) (h : State → Nat → Group → State) : Result :=
  byKiosk s core fun k =>
    match selectedGroup s core k with
    | some (gid, g) => if admits g then h s gid g else s
    | none => s

/-- A record of the group still waits for room in the queue: the group stays parked until it has entered (R171) (log 76, DEDUCED). -/
def recordWaits (s : State) (gid : Nat) : Bool := (getKiosk s (coreOf gid)).waiting.any fun r => !r.residency && r.gid == gid

/-- R173: the group resumes. -/
def execWincmdRelease (core : Nat) (s : State) : Result :=
  wincmd s core (fun g => g.parked) fun s gid _ => if recordWaits s gid then s else settleGroup (releaseGroup s gid) gid

/-- R173: every fibre of the group ends. -/
def execWincmdEnd (core : Nat) (s : State) : Result :=
  wincmd s core (fun g => g.parked) fun s gid g =>
    endFibres (modGroup s gid fun g => { g with stopping := false, parked := false }) gid g.liveLanes

/-- R336. -/
def execWincmdEnterSingleStep (core : Nat) (s : State) : Result :=
  wincmd s core (fun g => g.parked) fun s gid _ => modGroup s gid fun g => { g with singleStep := true }
/-- R336. -/
def execWincmdLeaveSingleStep (core : Nat) (s : State) : Result :=
  wincmd s core (fun g => g.parked) fun s gid _ => modGroup s gid fun g => { g with singleStep := false }

/-- R337. -/
def execWincmdReleaseFibre (core lane : Nat) (s : State) : Result :=
  wincmd s core (fun g => decide (lane < g.width) && (g.fibre lane).slot == .parked) fun s gid _ => releaseFibre s gid lane

/-! ### Writes through the parking window (R333, R354) -/

/-- Write one doubleword of a fibre record: STATE 00 frees the slot, other states and the pending bits are ignored. -/
def writeFibreRecord (f : Fibre) (k : Nat) (v : Dword) : Fibre :=
  match k with
  | 0 => { f with slot := if bitsOf v 63 62 = 0 then .free else f.slot, pc := BitVec.ofNat 64 (bitsOf v 56 2 * 4) }
  | 1 => { f with pw := highWord v, fstat := lowWord v &&& fstatWritable }
  | 2 => { f with wb := bitsOf v 53 44, progress := bitsOf v 43 36 }
  | _ => { f with cycleh := lowWord v }

/-- Write one doubleword of the convergence table (R29, R333). -/
def writeTokenDw (t : Token) (k : Nat) (v : Dword) : Token :=
  match k with
  | 0 => { t with isOpen := v.getLsbD 0 }
  | 1 => { t with expected := v }
  | _ => { t with held := v }

/-- Two neighbouring words of a list. -/
def writeWords (l : List Word) (i : Nat) (v : Dword) : List Word := setAt (setAt l i (lowWord v)) (i + 1) (highWord v)

/-- The boundaries as the image holds them: 256 of them. -/
def allBounds (g : Group) : List Word := (List.range 256).map fun i => (g.bounds[i]?).getD 0

/-- Write a doubleword of the group's image below its scratchpad rows; the header cannot be written (R354). -/
def writeImage (g : Group) (o : Nat) (v : Dword) : Group :=
  let lay := layoutOf g.width g.rows g.lslots g.scratch 0 0
  if o < 0x40 then g
  else if o < 0x80 then { g with maskWords := writeWords g.maskWords ((o - 0x40) / 4) v }
  else if o < 0x480 then { g with bounds := writeWords (allBounds g) ((o - 0x80) / 4) v }
  else if o < 0x600 then
    let i := (o - 0x480) / 24
    { g with tokens := setAt g.tokens i (writeTokenDw ((g.tokens[i]?).getD {}) ((o - 0x480) % 24 / 8) v) }
  else if o < lay.regs then g.modFibre ((o - 0x600) / 32) fun f => writeFibreRecord f ((o - 0x600) % 32 / 8) v
  else if o < lay.land then
    let w := (o - lay.regs) / 4
    let across := Nat.min g.width 32
    let page := w / (g.rows * across)
    let row := w % (g.rows * across) / across
    let lane := 32 * page + w % across
    (g.setCell lane row (lowWord v)).setCell (lane + 1) row (highWord v)
  else if o < lay.scratch then
    let b := o - lay.land
    (g.setLand (b / 8192) (b % 8192 / 128) (b % 128 / 4) (lowWord v)).setLand (b / 8192) (b % 8192 / 128) (b % 128 / 4 + 1) (highWord v)
  else g

/-- A write through WINDOW: only while the group is parked (R354) (log 75, DEDUCED). -/
def writeWindow (s : State) (core : Nat) (k : Kiosk) (o : Nat) (v : Dword) : State :=
  match selectedGroup s core k with
  | none => s
  | some (gid, g) =>
    let lay := layoutOf g.width g.rows g.lslots g.scratch 0 0
    if !g.parked then s
    else if o < lay.scratch then setGroup s gid (writeImage g o v)
    else if o < lay.copies then writeSpadBytes s core (128 * g.spOrigin + (o - lay.scratch)) (bytesOf 8 v.toNat)
    else s

/-- R351, R354: a doubleword write to the service window: the mailbox to the host, WINSEL, or the parking window. An offset of MBIN
stands for the host's write to its side of that mailbox. -/
def execWindowWrite (core offset : Nat) (v : Dword) (s : State) : Result :=
  if offset % 8 ≠ 0 then .next s
  else if 0x2080 ≤ offset ∧ offset < 0x2100 then
    let k := getKiosk s core
    .next (setKiosk s core { k with mbin := tblSet 0 k.mbin ((offset - 0x2080) / 8) v })
  else byKiosk s core fun k =>
    if 0x2000 ≤ offset ∧ offset < 0x2080 then setKiosk s core { k with mbout := tblSet 0 k.mbout ((offset - 0x2000) / 8) v }
    else if offset = 0x4000 then setKiosk s core { k with winsel := v &&& 0x3F }
    else if 0x100000 ≤ offset then writeWindow s core k (offset - 0x100000) v
    else s

end Sys2Proof.Machine
end

