-- ==== Sys2Proof/Machine/Reading.lean ====
section
/-! DEFINITION. What a read of an expert register, of a submission page, of a mailbox or of a kiosk's service window returns (R8, R9, R278,
R319, R338, R348, R349, R351, R354). -/

namespace Sys2Proof.Machine

/-! ### Expert registers (R8, R9, R348) -/

def bitAt (b : Bool) (n : Nat) : Dword := if b then 1#64 <<< n else 0

/-- UP of FCTL: the function's context exists, and both compute dies report ready, since a partition's shares lie on both (log 123,
DEDUCED). It reads the same at once after the function's own reset, which leaves the binding as it is (log 137, DEDUCED). -/
def functionUp (s : State) (f : Nat) : Bool := ctxExists s f && readyBit s 4 && readyBit s 5

/-- A tile counter of a context's partition, 0 empty, 1 partial, 2 full: the sum over every core (R319). -/
def tileSum (s : State) (f kind : Nat) : Dword :=
  (List.range 256).foldl (fun v core => v + tblGet 0 s.tiles (tileKey core (ctxPart s f) kind)) 0

/-- ERRSTAT: OVF and COUNT (R338). -/
def errstatValue (s : State) (f : Nat) : Dword :=
  bitAt (s.errOvf.contains f) 8 ||| BitVec.ofNat 64 (tblGet [] s.errLog f).length

/-- Doubleword k of an error log's entries: two of each, 0 where there is none (R338). -/
def errentValue (s : State) (f k : Nat) : Dword :=
  match (tblGet [] s.errLog f)[k / 2]? with
  | none => 0
  | some e =>
    if k % 2 = 1 then e.addr else BitVec.ofNat 64 (e.cause % 256 * 2 ^ 56 + e.vf % 256 * 2 ^ 40 + e.time % 2 ^ 40)

/-- READY: FAILED above the ready bits (R355). -/
def readyValue (s : State) : Dword := (s.failed.zeroExtend 64 <<< 32) ||| s.ready.zeroExtend 64

/-- A context-scope register (R348): fields that software writes read back, the others as the part stands; none for another offset. -/
def readCtxReg (s : State) (f offset : Nat) : Option Dword :=
  match offset with
  | 0x100 => some (getX s f 0x100)
  | 0x120 => some (bitAt (sdinvBusy s f) 1)
  | 0x130 => some ((getX s f 0x130 &&& ~~~(1#64)) ||| bitAt (tlbinvBusy s f) 1)
  | 0x180 => some (tileSum s f 0)
  | 0x188 => some (tileSum s f 1)
  | 0x190 => some (tileSum s f 2)
  | _ => if (ctxRegMask offset).isSome then some (getX s f offset) else none

/-- A register of the physical function (R348), 0 for an offset that is not listed. -/
def readPf (s : State) (offset : Nat) : Dword :=
  if offset % 8 ≠ 0 then 0
  else if offset = 0x3000 then getX s 0 0x3000 ||| bitAt (kiosksRun s) 1
  else if offset = 0x3008 then readyValue s
  else if offset = 0x3010 then getX s 0 0x3010 ||| bitAt s.keyLoad.isSome 9
  else if (pfRegMask offset).isSome || (decide (0x1100 ≤ offset) && decide (offset < 0x1A00)) || offset == 0x1E00 || offset == 0x1E08
      || (decide (0x2000 ≤ offset) && decide (offset < 0x2800))
      || (decide (0x3400 ≤ offset) && decide (offset < 0x3800) && offset % 32 != 24) then getX s 0 offset
  else 0

/-- The value of a function's register at an offset of BAR0 (R8, R9, R348): a register of the physical function reached through a virtual
function, an offset that is not listed, a write-only or reserved field, and a context-scope register of the physical function without
a context (R322) read as zero. -/
def registerValue (s : State) (f offset : Nat) : Dword :=
  if offset = 0 then bitAt (functionUp s f) 0
  else if offset = 0x198 then errstatValue s f
  else if 0x200 ≤ offset ∧ offset < 0x300 ∧ offset % 8 = 0 then errentValue s f ((offset - 0x200) / 8)
  else if 0x400 ≤ offset ∧ offset < 0x600 ∧ offset % 8 = 0 then getX s f offset
  else
    match readCtxReg s f offset with
    | some v => if ctxExists s f then v else 0
    | none => if f = 0 then readPf s offset else 0

/-- READ A REGISTER of a function: until the hub is ready it returns an error and is logged with cause 2 (R355). -/
def readRegister (s : State) (f offset : Nat) : Option Dword × State :=
  if readyBit s 0 then (some (registerValue s f offset), s) else (none, logError s f 2 (registerAddress f offset))

/-! ### The service window (R351, R353) -/

/-- The eight doublewords of a trap record (R353). -/
def recordDws (r : TrapRecord) : List Dword :=
  [BitVec.ofNat 64 (r.cause % 256 + quarterOf r.gid % 4 * 2 ^ 8 + groupSlotOf r.gid * 2 ^ 10 + r.part % 16 * 2 ^ 14 + r.vf % 256 * 2 ^ 18)
   , r.mask, r.detail, r.counter, BitVec.ofNat 64 r.progress, r.launch.zeroExtend 64, 0, 0]

/-- Bits 64 x k of the mask of held replay entries of a core (R351). -/
def heldEntries (s : State) (core k : Nat) : Dword :=
  maskOf ((List.range 64).filter fun i => decide (64 * k + i < 96) && (tblFind s.replay (96 * core + (64 * k + i))).isSome)

/-- The WHO field of a replay entry (R302): a fibre's access, a copy's ticket, or the lowest lane of a fetch. -/
def entryWho (s : State) (e : Replay) : Nat :=
  match e.who with
  | .access id => ((s.accesses.find? fun a => a.id == id).map fun a => whoField a.gid a e.row e.opx).getD 0
  | .copy id => ((s.copies.find? fun c => c.id == id).map fun c => (getTicket s c.core c.place).gen * 2 ^ 11 + c.place).getD 0
  | .fetch gid lanes => quarterOf gid % 4 * 2 ^ 30 + groupSlotOf gid * 2 ^ 26 + lanes.headD 0 * 2 ^ 20

/-- Doubleword k of replay entry e of a core, 0 where none is held. -/
def replayDw (s : State) (core e k : Nat) : Dword :=
  match tblFind s.replay (96 * core + e) with
  | none => 0
  | some r => BitVec.ofNat 64 (natOfBytes (((replayBytes r (entryWho s r)).drop (8 * k)).take 8))

/-- The group has parked (R351). -/
def selectedParked (s : State) (core : Nat) (k : Kiosk) : Bool := (selectedGroup s core k).any fun e => e.2.parked

/-- WINSEL: the selection, PARKED and RESIDENT (R351). -/
def winselValue (s : State) (core : Nat) (k : Kiosk) : Dword :=
  (k.winsel &&& 0x3F) ||| bitAt (selectedParked s core k) 8 ||| bitAt (selectedGroup s core k).isSome 9

/-- The parking window (R333, R354): the selected group's image through its scratchpad rows, with a pending bit for each access that has
not finished; zero where no group is resident; none beyond the image. -/
def windowValue (s : State) (core : Nat) (k : Kiosk) (o : Nat) : Option Dword :=
  match selectedGroup s core k with
  | none => some 0
  | some (gid, g) =>
    if o < (layoutOf g.width g.rows g.lslots g.scratch 0 0).copies then
      some (BitVec.ofNat 64 (natOfBytes (((imageHead s gid g (s.accesses.filter fun a => a.gid == gid)).drop o).take 8)))
    else none

/-- READ THE SERVICE WINDOW of a core at a doubleword (R351); none for an offset that is not listed. A write-only one reads as zero
(R8). -/
def serviceValue (s : State) (core offset : Nat) : Option Dword :=
  let k := getKiosk s core
  if offset < 0x40 then some (((k.queue.head?).map fun r => ((recordDws r)[offset / 8]?).getD 0).getD 0)
  else if offset = 0x40 then some (BitVec.ofNat 64 k.queue.length)
  else if offset = 0x48 ∨ offset = 0x110 ∨ offset = 0x2100 ∨ offset = 0x4008 then some 0
  else if offset = 0x100 then some (heldEntries s core 0)
  else if offset = 0x108 then some (heldEntries s core 1)
  else if 0x1000 ≤ offset ∧ offset < 0x1C00 then some (replayDw s core ((offset - 0x1000) / 32) ((offset - 0x1000) % 32 / 8))
  else if 0x2000 ≤ offset ∧ offset < 0x2080 then some (tblGet 0 k.mbout ((offset - 0x2000) / 8))
  else if 0x2080 ≤ offset ∧ offset < 0x2100 then some (tblGet 0 k.mbin ((offset - 0x2080) / 8))
  else if offset = 0x4000 then some (winselValue s core k)
  else if 0x100000 ≤ offset then windowValue s core k (offset - 0x100000)
  else none

/-- The machine external interrupt of a kiosk is pending while its trap queue or its replay buffer holds an entry (R351). -/
def kioskPending (s : State) (core : Nat) : Bool :=
  decide ((getKiosk s core).queue ≠ []) || s.replay.any fun e => e.1 / 96 == core

/-- A doubleword of the host side of a mailbox (R351): 256 bytes a core, MBOUT and then MBIN. -/
def mailboxValue (s : State) (core offset : Nat) : Dword :=
  if offset < 0x80 then tblGet 0 (getKiosk s core).mbout (offset / 8)
  else tblGet 0 (getKiosk s core).mbin ((offset - 0x80) / 8)

end Sys2Proof.Machine
end

