-- ==== Sys2Proof/Machine/HartCore.lean ====
section
/-! DEFINITION. The harts of the host die (R340 to R343) and of the kiosks (R350): their registers and control registers, how an exception
is taken and returned from, interrupts with the interrupt files of AIA, and translation in one stage or two. What the spec says by naming
the RISC-V profile is taken from the RISC-V manuals (log 100, PRESUMED). -/

namespace Sys2Proof.Machine

/-! ### Registers -/

/-- Integer register n: x0 reads as 0. -/
def Hart.reg (h : Hart) (n : Nat) : Dword := if n = 0 then 0 else tblGet 0 h.x n
/-- Write integer register n: a write to x0 is discarded. -/
def Hart.setReg (h : Hart) (n : Nat) (v : Dword) : Hart := if n = 0 then h else { h with x := tblSet 0 h.x n v }
/-- Byte b of vector register n, VLEN being 256 bits (R340). -/
def Hart.vbyte (h : Hart) (n b : Nat) : Byte := tblGet 0 h.v (32 * n + b)
/-- Floating-point register n. -/
def Hart.freg (h : Hart) (n : Nat) : Dword := tblGet 0 h.f n
def Hart.setFreg (h : Hart) (n : Nat) (v : Dword) : Hart := { h with f := tblSet 0 h.f n v }

def Hart.csr (h : Hart) (k : Nat) : Dword := tblGet 0 h.csrs k
def Hart.setCsr (h : Hart) (k : Nat) (v : Dword) : Hart := { h with csrs := tblSet 0 h.csrs k v }

/-- The numbers of a hart's registers among all of them: integer, floating-point, vector and control registers, and the result of an
access. -/
def keyF (n : Nat) : Nat := 32 + n
def keyV (n : Nat) : Nat := 64 + n
def keyCsr (k : Nat) : Nat := 4096 + k
def keyResult (id : Nat) : Nat := 65536 + id

/-- The bytes of a vector register, and a vector register with other bytes. -/
def Hart.vbytes (h : Hart) (n : Nat) : List Byte := (List.range 32).map (h.vbyte n)
def Hart.setVbytes (h : Hart) (first : Nat) (bytes : List Byte) : Hart :=
  { h with v := ((bytes.zip (List.range bytes.length)).foldl (fun t x => tblSet 0 t (first + x.2) x.1) h.v) }

/-- A register by its number among all of them, and a write of it. -/
def Hart.get (h : Hart) (key : Nat) : Nat :=
  if key < 32 then (h.reg key).toNat
  else if key < 64 then (h.freg (key - 32)).toNat
  else if key < 96 then natOfBytes (h.vbytes (key - 64))
  else (h.csr (key - 4096)).toNat
def Hart.put (h : Hart) (key v : Nat) : Hart :=
  if key < 32 then h.setReg key (BitVec.ofNat 64 v)
  else if key < 64 then h.setFreg (key - 32) (BitVec.ofNat 64 v)
  else if key < 96 then h.setVbytes (32 * (key - 64)) (bytesOf 32 v)
  else h.setCsr (key - 4096) (BitVec.ofNat 64 v)

/-- The key slot of the hart's accesses (R343): SLOT while EN is set, else 0. -/
def Hart.keySlot (h : Hart) : Nat := if h.nkey.getLsbD 8 then bitsOf h.nkey 7 0 else 0

/-- The hart is a kiosk (R350). -/
def isKiosk (n : Nat) : Bool := decide (96 ≤ n)

/-- Run an effect for the issuing hart. -/
def withHart (s : State) (h : Nat → Hart → Result) : Result :=
  match s.hartIssue with
  | none => .fault .noIssuingHart
  | some n => h n (getHart s n)

/-! ### Control registers, by their RISC-V numbers -/

def csrFflags : Nat := 0x001
def csrFrm : Nat := 0x002
def csrVstart : Nat := 0x008
def csrVxsat : Nat := 0x009
def csrVxrm : Nat := 0x00A
def csrVl : Nat := 0xC20
def csrVtype : Nat := 0xC21
def csrMstatus : Nat := 0x300
def csrMedeleg : Nat := 0x302
def csrMideleg : Nat := 0x303
def csrMie : Nat := 0x304
def csrMtvec : Nat := 0x305
def csrMenvcfg : Nat := 0x30A
def csrMepc : Nat := 0x341
def csrMcause : Nat := 0x342
def csrMtval : Nat := 0x343
def csrMip : Nat := 0x344
def csrMtinst : Nat := 0x34A
def csrMtval2 : Nat := 0x34B
def csrStvec : Nat := 0x105
def csrSenvcfg : Nat := 0x10A
def csrSepc : Nat := 0x141
def csrScause : Nat := 0x142
def csrStval : Nat := 0x143
def csrStimecmp : Nat := 0x14D
def csrSatp : Nat := 0x180
def csrVsstatus : Nat := 0x200
def csrVstvec : Nat := 0x205
def csrVsepc : Nat := 0x241
def csrVscause : Nat := 0x242
def csrVstval : Nat := 0x243
def csrVstimecmp : Nat := 0x24D
def csrVsatp : Nat := 0x280
def csrHstatus : Nat := 0x600
def csrHedeleg : Nat := 0x602
def csrHideleg : Nat := 0x603
def csrHtimedelta : Nat := 0x605
def csrHgeie : Nat := 0x607
def csrHvictl : Nat := 0x609
def csrHenvcfg : Nat := 0x60A
def csrHtval : Nat := 0x643
def csrHvip : Nat := 0x645
def csrHtinst : Nat := 0x64A
def csrHgatp : Nat := 0x680

/-- A field of a control register replaced. -/
def Hart.setField (h : Hart) (k hi lo v : Nat) : Hart := h.setCsr k (withBits (h.csr k) hi lo v)

/-- A bit and a field of mstatus. -/
def Hart.status (h : Hart) (bit : Nat) : Bool := (h.csr csrMstatus).getLsbD bit
def Hart.setStatus (h : Hart) (hi lo v : Nat) : Hart := h.setCsr csrMstatus (withBits (h.csr csrMstatus) hi lo v)

def bitNat (b : Bool) : Nat := if b then 1 else 0

/-! ### Privilege -/

/-- The level of a mode: 0 user, 1 supervisor, 3 machine. -/
def Priv.level : Priv → Nat
  | .m => 3
  | .s | .vs => 1
  | .u | .vu => 0

def Priv.isVirtual : Priv → Bool
  | .vs | .vu => true
  | _ => false

/-- The hart runs in U-mode or VU-mode. -/
def Priv.isUser : Priv → Bool
  | .u | .vu => true
  | _ => false

/-- The mode of a level, virtual or not. -/
def privOf (virt : Bool) (level : Nat) : Priv :=
  match level with
  | 0 => if virt then .vu else .u
  | 1 => if virt then .vs else .s
  | _ => .m

/-- The mode under which the hart's loads and stores go: that of MPP and MPV while MPRV is set. -/
def Hart.dataPriv (h : Hart) : Priv :=
  if h.status 17 && h.priv == .m then privOf (h.status 39) (bitsOf (h.csr csrMstatus) 12 11) else h.priv

/-- A unit whose state field is in two bits of mstatus, and under a guest of vsstatus, is off: 0 in either. -/
def Hart.unitOff (h : Hart) (lo : Nat) : Bool :=
  bitsOf (h.csr csrMstatus) (lo + 1) lo == 0 || (h.priv.isVirtual && bitsOf (h.csr csrVsstatus) (lo + 1) lo == 0)
/-- VS and FS are Off (R341). -/
def Hart.vsOff (h : Hart) : Bool := h.unitOff 9
def Hart.fsOff (h : Hart) : Bool := h.unitOff 13

/-- A unit's state becomes Dirty. -/
def Hart.dirty (h : Hart) (lo : Nat) : Hart :=
  let h1 := h.setStatus (lo + 1) lo 3
  if h.priv.isVirtual then h1.setField csrVsstatus (lo + 1) lo 3 else h1

/-! ### Exceptions -/

/-- The RISC-V number of an exception. -/
def HartExc.code (p : Priv) : HartExc → Nat
  | .illegalInstruction _ => 2
  | .virtualInstruction _ => 22
  | .breakpoint => 3
  | .ecall => if p.isUser then 8 else if p = .s then 9 else if p = .vs then 10 else 11
  | .misaligned k _ _ => match k with
    | .fetch => 0
    | .load => 4
    | .store => 6
  | .accessFault k _ _ => match k with
    | .fetch => 1
    | .load => 5
    | .store => 7
  | .pageFault k _ _ => match k with
    | .fetch => 12
    | .load => 13
    | .store => 15
  | .guestPageFault k _ _ _ => match k with
    | .fetch => 20
    | .load => 21
    | .store => 23

/-- What an exception reports: the word or the address, 0 for those with neither. -/
def HartExc.value : HartExc → Dword
  | .illegalInstruction w | .virtualInstruction w => w.setWidth 64
  | .misaligned _ a _ | .accessFault _ a _ | .pageFault _ a _ | .guestPageFault _ a _ _ => a
  | _ => 0

/-- The exception reports an address of a guest. -/
def HartExc.ofGuest : HartExc → Bool
  | .misaligned _ _ v | .accessFault _ _ v | .pageFault _ _ v => v
  | .guestPageFault .. => true
  | _ => false

/-- The guest's physical address of a guest page fault, and the pseudo-instruction for an access to the guest's own page tables. -/
def HartExc.guestAddr : HartExc → Dword
  | .guestPageFault _ _ a _ => a
  | _ => 0
def HartExc.pseudo : HartExc → Dword
  | .guestPageFault _ _ _ true => 0x3000
  | _ => 0

/-- Where a trap vector sends a cause: vectored for interrupts. -/
def vectorOf (tvec : Dword) (interrupt : Bool) (code : Nat) : Dword :=
  BitVec.ofNat 64 (tvec.toNat / 4 * 4 + (if interrupt && tvec.getLsbD 0 then 4 * code else 0))

/-- What a trap carries: whether it is an interrupt, its number, the value it reports, whether that is an address of a guest, the guest's
physical address, and the pseudo-instruction. -/
structure TrapInfo where
  interrupt : Bool
  code : Nat
  value : Dword := 0
  ofGuest : Bool := false
  guestAddr : Dword := 0
  pseudo : Dword := 0
  deriving DecidableEq, Repr

def TrapInfo.cause (i : TrapInfo) : Dword := BitVec.ofNat 64 ((if i.interrupt then 2 ^ 63 else 0) + i.code)

/-- ENTER A TRAP in M-mode: the counter, the cause and the values are saved, and the interrupt enable and the mode stacked. -/
def Hart.trapToM (h : Hart) (i : TrapInfo) : Hart :=
  let h1 := ((((h.setCsr csrMepc h.pc).setCsr csrMcause i.cause).setCsr csrMtval i.value).setCsr csrMtval2 (i.guestAddr >>> 2)).setCsr csrMtinst i.pseudo
  let h2 := ((h1.setStatus 7 7 (bitNat (h.status 3))).setStatus 3 3 0).setStatus 12 11 h.priv.level
  { ((h2.setStatus 39 39 (bitNat h.priv.isVirtual)).setStatus 38 38 (bitNat i.ofGuest)) with
    priv := .m, pc := vectorOf (h.csr csrMtvec) i.interrupt i.code }

/-- ENTER A TRAP in S-mode, from a guest with the guest's mode in hstatus. -/
def Hart.trapToS (h : Hart) (i : TrapInfo) : Hart :=
  let h1 := ((((h.setCsr csrSepc h.pc).setCsr csrScause i.cause).setCsr csrStval i.value).setCsr csrHtval (i.guestAddr >>> 2)).setCsr csrHtinst i.pseudo
  let h2 := ((h1.setStatus 5 5 (bitNat (h.status 1))).setStatus 1 1 0).setStatus 8 8 h.priv.level
  let h3 := (h2.setField csrHstatus 7 7 (bitNat h.priv.isVirtual)).setField csrHstatus 6 6 (bitNat i.ofGuest)
  { (if h.priv.isVirtual then h3.setField csrHstatus 8 8 h.priv.level else h3) with
    priv := .s, pc := vectorOf (h.csr csrStvec) i.interrupt i.code }

/-- ENTER A TRAP in VS-mode. -/
def Hart.trapToVs (h : Hart) (i : TrapInfo) : Hart :=
  let h1 := ((h.setCsr csrVsepc h.pc).setCsr csrVscause i.cause).setCsr csrVstval i.value
  let old := h.csr csrVsstatus
  { (h1.setCsr csrVsstatus (withBits (withBits (withBits old 5 5 (bitNat (old.getLsbD 1))) 1 1 0) 8 8 h.priv.level)) with
    priv := .vs, pc := vectorOf (h.csr csrVstvec) i.interrupt i.code }

/-- ENTER A TRAP in the mode that takes it. -/
def Hart.enterTrap (h : Hart) (target : Priv) (i : TrapInfo) : Hart :=
  match target with
  | .s | .u => h.trapToS i
  | .vs | .vu => h.trapToVs i
  | .m => h.trapToM i

/-- The mode that takes an exception: M-mode unless medeleg gives it to S-mode, and hedeleg a guest's to VS-mode. -/
def Hart.excTarget (h : Hart) (code : Nat) : Priv :=
  if 1 < h.priv.level || !(h.csr csrMedeleg).getLsbD code then .m
  else if h.priv.isVirtual && (h.csr csrHedeleg).getLsbD code then .vs
  else .s

/-- What an exception's trap carries. -/
def HartExc.info (e : HartExc) (p : Priv) : TrapInfo :=
  { interrupt := false, code := e.code p, value := e.value, ofGuest := e.ofGuest, guestAddr := e.guestAddr, pseudo := e.pseudo }

/-- An exception of a hart: its trap is entered (log 77, PRESUMED). -/
def hartException (s : State) (n : Nat) (e : HartExc) : State :=
  let h := getHart s n
  let target := if isKiosk n then .m else h.excTarget (e.code h.priv)
  setHart s n { (h.enterTrap target (e.info h.priv)) with exc := some e }

/-! ### Interrupt files (AIA) -/

/-- An interrupt file of the hart's IMSIC; its registers have the numbers by which they are selected. -/
def Hart.file (h : Hart) (k : Nat) : Tbl Dword := tblGet [] h.files k
def Hart.setFileReg (h : Hart) (k r : Nat) (v : Dword) : Hart := { h with files := tblSet [] h.files k (tblSet 0 (h.file k) r v) }

/-- The least identity that is pending and enabled below the threshold, 0 for none. -/
def topIdentity (f : Tbl Dword) : Nat :=
  let found := (List.range 32).findSome? fun k =>
    let w := tblGet 0 f (0x80 + 2 * k) &&& tblGet 0 f (0xC0 + 2 * k)
    if w = 0 then none else ((List.range 64).find? fun i => w.getLsbD i).map fun i => 64 * k + i
  match found with
  | some i => if tblGet 0 f 0x72 = 0 ∨ i < (tblGet 0 f 0x72).toNat then i else 0
  | none => 0

/-- The file raises its interrupt: delivery is on and an identity waits. -/
def fileRaises (f : Tbl Dword) : Bool := tblGet 0 f 0x70 == 1 && topIdentity f != 0

/-- A bit of an identity in a file's array of pending bits: set by a message, cleared by a claim. -/
def Hart.setPending (h : Hart) (k id : Nat) (on : Bool) : Hart :=
  if id = 0 ∨ 2048 ≤ id then h
  else
    let r := 0x80 + 2 * (id / 64)
    h.setFileReg k r (withBits (tblGet 0 (h.file k) r) (id % 64) (id % 64) (bitNat on))

/-- The guest file that hstatus selects: its file number, none for no guest. -/
def Hart.guestFile (h : Hart) : Option Nat :=
  let g := bitsOf (h.csr csrHstatus) 17 12
  if g = 0 then none else some (1 + g)

/-- The guest files that raise their interrupts, by guest number. -/
def Hart.guestPending (h : Hart) : Dword :=
  h.files.foldl (fun v e => if 2 ≤ e.1 && fileRaises e.2 then v ||| (1#64 <<< (e.1 - 1)) else v) 0

/-! ### Interrupts -/

/-- A timer comparison is on and has come (Sstc). -/
def Hart.timerDue (h : Hart) (s : State) (enable compareReg : Nat) (delta : Dword) : Bool :=
  (h.csr enable).getLsbD 63 && (h.csr compareReg).ule (Config.hartTime s.clock + delta)

/-- The pending interrupts: those that software has set, those that the interrupt files and the timers raise, and a kiosk's machine external
interrupt (R351). -/
def pendingOf (s : State) (n : Nat) (h : Hart) : Dword :=
  if isKiosk n then h.csr csrMip ||| (if kioskPending s (n - 96) then 0x800 else 0)
  else
    let timer := (h.csr csrMenvcfg).getLsbD 63
    (h.csr csrMip &&& (if timer then 0x2202 else 0x2222)) ||| (h.csr csrHvip &&& 0x444)
      ||| (if fileRaises (h.file 0) then 0x800 else 0) ||| (if fileRaises (h.file 1) then 0x200 else 0)
      ||| (if h.timerDue s csrMenvcfg csrStimecmp 0 then 0x20 else 0)
      ||| (if timer && h.timerDue s csrHenvcfg csrVstimecmp (h.csr csrHtimedelta) then 0x40 else 0)
      ||| (if h.guestFile.any fun k => fileRaises (h.file k) then 0x400 else 0)
      ||| (if h.guestPending &&& h.csr csrHgeie = 0 then 0 else 0x1000)

/-- The bits of mideleg: those of the guests and of the guest external interrupt are always delegated. -/
def Hart.mideleg (h : Hart) : Dword := h.csr csrMideleg ||| 0x1444

/-- The first of some pending interrupts. -/
def firstInterrupt (v : Dword) : Option Nat := [11, 3, 7, 9, 1, 5, 12, 10, 2, 6, 13].find? fun i => v.getLsbD i

/-- The interrupt that the hart takes next and the mode that takes it: those of M-mode before those delegated to S-mode, and these before
those delegated to VS-mode, which sees them under the numbers of S-mode. -/
def interruptOf (s : State) (n : Nat) (h : Hart) : Option (Priv × Nat) :=
  let set := pendingOf s n h &&& h.csr csrMie
  if set = 0 then none
  else
    let level := h.priv.level
    let deleg := if isKiosk n then 0 else h.mideleg
    let guest := deleg &&& h.csr csrHideleg
    let forM := decide (level < 3) || h.status 3
    let forS := !isKiosk n && (decide (level < 1) || h.priv.isVirtual || (h.priv == .s && h.status 1))
    let forVs := h.priv == .vu || (h.priv == .vs && (h.csr csrVsstatus).getLsbD 1)
    match (if forM then firstInterrupt (set &&& ~~~deleg) else none) with
    | some i => some (.m, i)
    | none =>
      match (if forS then firstInterrupt (set &&& deleg &&& ~~~guest) else none) with
      | some i => some (.s, i)
      | none => (if forVs then firstInterrupt (set &&& guest) else none).map fun i => (.vs, if i = 13 then 13 else i - 1)

/-- Take an interrupt; it ends a Zawrs wait. -/
def takeInterrupt (s : State) (n : Nat) (h : Hart) (x : Priv × Nat) : State :=
  setHart s n { (h.enterTrap x.1 { interrupt := true, code := x.2 }) with wrs := none }

/-! ### Returns -/

/-- Return from a trap of M-mode. -/
def Hart.mret (h : Hart) : Hart :=
  let level := bitsOf (h.csr csrMstatus) 12 11
  let p := privOf (h.status 39) level
  let h1 := ((((h.setStatus 3 3 (bitNat (h.status 7))).setStatus 7 7 1).setStatus 12 11 0).setStatus 39 39 0)
  { (if p = .m then h1 else h1.setStatus 17 17 0) with priv := p, pc := h.csr csrMepc }

/-- Return from a trap of S-mode. -/
def Hart.sret (h : Hart) : Hart :=
  let p := privOf ((h.csr csrHstatus).getLsbD 7) (bitNat (h.status 8))
  let h1 := (((h.setStatus 1 1 (bitNat (h.status 5))).setStatus 5 5 1).setStatus 8 8 0).setStatus 17 17 0
  { (h1.setField csrHstatus 7 7 0) with priv := p, pc := h.csr csrSepc }

/-- Return from a trap of VS-mode. -/
def Hart.vsret (h : Hart) : Hart :=
  let old := h.csr csrVsstatus
  { (h.setCsr csrVsstatus (withBits (withBits (withBits old 1 1 (bitNat (old.getLsbD 5))) 5 5 1) 8 8 0)) with
    priv := privOf true (bitNat (old.getLsbD 8)), pc := h.csr csrVsepc }

/-! ### Page tables -/

/-- The agent of a hart's events (R260), and of its instruction fetches. -/
def hartAgent (n : Nat) : Agent := if isKiosk n then .kiosk (n - 96) else .hart n

/-- How a translation of a hart ends without an address: a page fault, an access fault with the cause and the address that are logged, or a
guest page fault with the guest's physical address and whether the access was one to the guest's own tables. -/
inductive WalkEnd
  | page | access (cause pa : Nat) | guest (gpa : Nat) (implicit : Bool)
  deriving DecidableEq, Repr

/-- A doubleword of a hart's page tables: read under its key slot as it stands (R339, R355, R358). -/
def tableDw (s : State) (n : Nat) (h : Hart) (pa : Nat) : Except WalkEnd Dword :=
  if !itemReadyAt s pa then .error (.access 2 pa)
  else if damagedAt s pa 8 then .error (.access 3 pa)
  else .ok (BitVec.ofNat 64 (natOfBytes (bytesAt s { agent := hartAgent n } 0 h.keySlot pa 8 0)))

/-- What an entry of a page table at a level is: a leaf with its frame and the bits of its page, a pointer to the next table, or neither (V, R, W,
X, U, A, D, NAPOT pages of 64 KiB, and a memory type where one is allowed). -/
inductive RvPte
  | leaf (base bits : Nat) | next (table : Nat) | bad
  deriving DecidableEq, Repr

def rvPte (types : Bool) (level : Nat) (e : Dword) : RvPte :=
  let ppn := bitsOf e 53 10
  let kind := bitsOf e 62 61
  if !e.getLsbD 0 || (!e.getLsbD 1 && e.getLsbD 2) || bitsOf e 60 54 != 0 || kind == 3 || (kind != 0 && !types) then .bad
  else if e.getLsbD 1 || e.getLsbD 3 then
    if e.getLsbD 63 then (if level = 0 ∧ ppn % 16 = 8 then .leaf (ppn / 16 * 65536) 16 else .bad)
    else if ppn % 2 ^ (9 * level) = 0 then .leaf (ppn * 4096) (12 + 9 * level) else .bad
  else if e.getLsbD 63 || kind != 0 || e.getLsbD 4 || e.getLsbD 6 || e.getLsbD 7 then .bad
  else .next ppn

/-- WALK page tables from a level down. The tables are read by one function, and another says whether a leaf allows the access; span is the
number of entries of the first table. -/
def walkTable (read : Nat → Except WalkEnd Dword) (allows : Dword → Bool) (types : Bool) (va : Nat) : Nat → Nat → Nat → Except WalkEnd Nat
  | 0, _, _ => .error .page
  | level + 1, span, table =>
    match read (table * 4096 + va / 2 ^ (12 + 9 * level) % span * 8) with
    | .error x => .error x
    | .ok e =>
      match rvPte types level e with
      | .leaf base bits => if allows e then .ok (base + va % 2 ^ bits) else .error .page
      | .next t => walkTable read allows types va level 512 t
      | .bad => .error .page

/-- The levels of a translation mode: Sv39, Sv48 and Sv57. -/
def levelsOf (atp : Dword) : Nat :=
  match bitsOf atp 63 60 with
  | 8 => 3
  | 9 => 4
  | 10 => 5
  | _ => 0

/-- A leaf allows a use: R (or X where executable pages may be read, or only X where the access reads code), W and D, X; and A. -/
def leafUse (k : HartUse) (mxr code : Bool) (e : Dword) : Bool :=
  (match k with
    | .fetch => e.getLsbD 3
    | .load => if code then e.getLsbD 3 else e.getLsbD 1 || (mxr && e.getLsbD 3)
    | .store => e.getLsbD 2 && e.getLsbD 7)
  && e.getLsbD 6

/-- A leaf allows a mode: user pages to user modes, and to supervisor modes only data under SUM. -/
def leafMode (p : Priv) (k : HartUse) (sum : Bool) (e : Dword) : Bool :=
  if p.isUser then e.getLsbD 4 else !e.getLsbD 4 || (k != .fetch && sum)

/-- THE SECOND STAGE: a guest's physical address through hgatp, every access being one of a user; what the access is for, as the first stage sees
it, decides the fault. -/
def guestStage (s : State) (n : Nat) (h : Hart) (k : HartUse) (code implicit : Bool) (gpa : Nat) : Except WalkEnd Nat :=
  let atp := h.csr csrHgatp
  let levels := levelsOf atp
  if levels = 0 then .ok gpa
  else if 2 ^ (14 + 9 * levels) ≤ gpa then .error (.guest gpa implicit)
  else
    match walkTable (tableDw s n h) (fun e => e.getLsbD 4 && leafUse k (h.status 19) code e) ((h.csr csrMenvcfg).getLsbD 62) gpa levels 2048
        (bitsOf atp 43 2 * 4) with
    | .error .page => .error (.guest gpa implicit)
    | r => r

/-- The address is the sign extension of its low bits. -/
def canonical (va : Dword) (bits : Nat) : Bool :=
  let top := va.toNat / 2 ^ (bits - 1)
  top == 0 || top == 2 ^ (65 - bits) - 1

/-- THE FIRST STAGE: an address through satp, or a guest's through vsatp, whose tables lie at the guest's physical addresses. -/
def firstStage (s : State) (n : Nat) (h : Hart) (p : Priv) (k : HartUse) (code : Bool) (va : Dword) : Except WalkEnd Nat :=
  let virt := p.isVirtual
  let atp := h.csr (if virt then csrVsatp else csrSatp)
  let levels := levelsOf atp
  if levels = 0 then .ok va.toNat
  else if !canonical va (12 + 9 * levels) then .error .page
  else
    let read (pa : Nat) : Except WalkEnd Dword :=
      if virt then
        match guestStage s n h .load false true pa with
        | .ok q => tableDw s n h q
        | .error x => .error x
      else tableDw s n h pa
    let sum := if virt then (h.csr csrVsstatus).getLsbD 18 else h.status 18
    let mxr := h.status 19 || (virt && (h.csr csrVsstatus).getLsbD 19)
    let types := (h.csr csrMenvcfg).getLsbD 62 && (!virt || (h.csr csrHenvcfg).getLsbD 62)
    walkTable read (fun e => leafMode p k sum e && leafUse k mxr code e) types (va.toNat % 2 ^ (12 + 9 * levels)) levels 512 (bitsOf atp 43 0)

/-- An address as pointer masking leaves it (Ssnpm): without its top bits, which become the bit below them, or 0 without translation. -/
def Hart.masked (h : Hart) (p : Priv) (k : HartUse) (va : Dword) : Dword :=
  let cfg := match p with
    | .m => 0
    | .s => h.csr csrMenvcfg
    | .vs => h.csr csrHenvcfg
    | _ => h.csr csrSenvcfg
  let off := match bitsOf cfg 33 32 with
    | 2 => 7
    | 3 => 16
    | _ => 0
  let mxr := h.status 19 || (p.isVirtual && (h.csr csrVsstatus).getLsbD 19)
  if off = 0 ∨ k = .fetch ∨ mxr = true then va
  else if levelsOf (h.csr (if p.isVirtual then csrVsatp else csrSatp)) = 0 then (va <<< off) >>> off
  else (va <<< off).sshiftRight off

/-- Where a translation leads: a physical address, or an exception and what is logged of it. -/
inductive HartAddr
  | at (pa : Nat) | raise (e : HartExc) (bad : Option (Nat × Nat))
  deriving DecidableEq, Repr

/-- TRANSLATE an address of a hart for a mode: M-mode addresses are physical, the others go through one stage, and a guest's through two. -/
def translateFor (s : State) (n : Nat) (h : Hart) (p : Priv) (k : HartUse) (code : Bool) (va : Dword) : HartAddr :=
  if p = .m then .at va.toNat
  else
    let stages : Except WalkEnd Nat := match firstStage s n h p k code va with
      | .ok a => if p.isVirtual then guestStage s n h k code false a else .ok a
      | .error x => .error x
    match stages with
    | .ok pa => .at pa
    | .error .page => .raise (.pageFault k va p.isVirtual) none
    | .error (.access cause pa) => .raise (.accessFault k va p.isVirtual) (some (cause, pa))
    | .error (.guest gpa implicit) => .raise (.guestPageFault k va (BitVec.ofNat 64 gpa) implicit) none

/-- The mode of a hart's access. -/
def Hart.modeFor (h : Hart) (k : HartUse) : Priv := if k = .fetch then h.priv else h.dataPriv

/-- TRANSLATE an address of a hart. -/
def hartTranslate (s : State) (n : Nat) (h : Hart) (k : HartUse) (va : Dword) : HartAddr := translateFor s n h (h.modeFor k) k false va

/-- What a translation met is logged (R339, R355, R358). -/
def logBad (s : State) (bad : Option (Nat × Nat)) : State :=
  match bad with
  | some (cause, pa) => logError s 0 cause (BitVec.ofNat 64 pa)
  | none => s

/-- A translation of the mode reads page tables, and a reset of their key slot keeps it (R326). -/
def walkWaits (s : State) (h : Hart) (p : Priv) : Bool :=
  p != .m && keyBusy s h.keySlot
    && (levelsOf (h.csr (if p.isVirtual then csrVsatp else csrSatp)) != 0 || (p.isVirtual && levelsOf (h.csr csrHgatp) != 0))

end Sys2Proof.Machine
end

