-- ==== Sys2Proof/Machine/HartCsr.lean ====
section
/-! DEFINITION. The control registers of a hart and of a kiosk: which there are, who may use them, how each reads and what a write leaves (R342,
R343, and the RISC-V privileged and interrupt architectures, log 100, PRESUMED). A kiosk has M-mode and U-mode and no Nothal extension but
nkey. -/

namespace Sys2Proof.Machine

/-! ### Which control registers there are -/

/-- The register that a guest's use of a supervisor register names: the guest's own. -/
def csrNumber (h : Hart) (k : Nat) : Nat :=
  if !h.priv.isVirtual then k
  else if [0x100, 0x104, 0x105, 0x140, 0x141, 0x142, 0x143, 0x144, 0x14D, 0x150, 0x151, 0x15C, 0x180, 0xDB0].contains k then k + 0x100
  else k

def csrOnes : Dword := 0xFFFFFFFFFFFFFFFF

/-- The bits of a control register that a write changes and a read shows, for those that are no more than that. -/
def csrMask (kiosk : Bool) (k : Nat) : Option Dword :=
  match k with
  | 0x001 => some 0x1F
  | 0x002 => some 7
  | 0x305 => some 0xFFFFFFFFFFFFFFFD
  | 0x306 => some 0xFFFFFFFF
  | 0x340 | 0x342 | 0x343 => some csrOnes
  | 0x341 => some 0xFFFFFFFFFFFFFFFE
  | 0x304 => some (if kiosk then 0x888 else 0x3EEE)
  | 0x30A => some (if kiosk then 1 else 0xC0000003000000F1)
  | _ =>
    if kiosk then none
    else
      match k with
      | 0x008 => some 0xFF
      | 0x009 => some 1
      | 0x00A => some 3
      | 0x302 => some 0xF0B7FF
      | 0x303 => some 0x2222
      | 0x10A => some 0x3000000F1
      | 0x60A => some 0xC0000003000000F1
      | 0x105 | 0x205 => some 0xFFFFFFFFFFFFFFFD
      | 0x106 | 0x606 => some 0xFFFFFFFF
      | 0x141 | 0x241 => some 0xFFFFFFFFFFFFFFFE
      | 0x140 | 0x142 | 0x143 | 0x240 | 0x242 | 0x243 | 0x14D | 0x24D | 0x605 | 0x643 | 0x64A | 0x34A | 0x34B | 0x646 | 0x647 => some csrOnes
      | 0x602 => some 0xB1FF
      | 0x603 | 0x645 => some 0x444
      | 0x607 => some 0xFFFFFFFFFFFFFFFE
      | 0x609 => some 0x4FFF03FF
      | 0x30C | 0x60C => some 0xDC00000000000000
      | 0x30D | 0x30E | 0x30F | 0x60D | 0x60E | 0x60F => some 0x8000000000000000
      | 0x150 | 0x250 | 0x350 => some 0xFFF
      | _ => none

/-- The value of a control register that never changes, by its number. -/
def csrFixed (n k : Nat) : Option Dword :=
  let kiosk := isKiosk n
  if k = 0x301 then some (if kiosk then 0x800000000010112D else 0x80000000003411AF)
  else if k = 0xF14 then some (BitVec.ofNat 64 (if kiosk then n - 96 else n))
  else if (0xF11 ≤ k ∧ k ≤ 0xF13) ∨ k = 0xF15 ∨ k = 0x320 ∨ (0x323 ≤ k ∧ k ≤ 0x33F) ∨ (0xB03 ≤ k ∧ k ≤ 0xB1F) ∨ (0xC03 ≤ k ∧ k ≤ 0xC1F)
      ∨ (0x3A0 ≤ k ∧ k ≤ 0x3AF ∧ k % 2 = 0) ∨ (0x3B0 ≤ k ∧ k ≤ 0x3EF) then some 0
  else if kiosk then none
  else if k = 0xC22 then some 32
  else if k = 0x308 ∨ k = 0x608 ∨ k = 0xDA0 ∨ (0x10C ≤ k ∧ k ≤ 0x10F) then some 0
  else none

/-- The control registers with a meaning of their own. -/
def csrSpecial (kiosk : Bool) (k : Nat) : Bool :=
  [0x003, 0x300, 0x344, 0x180, 0x7C0, 0xB00, 0xB02, 0xC00, 0xC01, 0xC02].contains k
    || (!kiosk && [0x00F, 0xC20, 0xC21, 0x800, 0x801, 0x802, 0x803, 0x100, 0x104, 0x144, 0x200, 0x204, 0x244, 0x280, 0x600, 0x604, 0x644, 0x680
                  , 0xE12, 0xFB0, 0xDB0, 0xEB0, 0x309, 0x151, 0x251, 0x351, 0x15C, 0x25C, 0x35C].contains k)

def csrExists (n k : Nat) : Bool := (csrMask (isKiosk n) k).isSome || (csrFixed n k).isSome || csrSpecial (isKiosk n) k

/-! ### Who may use them -/

/-- Whether a use goes on, is illegal, or is a guest's that its host may carry out. -/
inductive CsrUse
  | allowed | illegal | guest
  deriving DecidableEq, Repr

def CsrUse.andThen (a b : CsrUse) : CsrUse := if a = .allowed then b else a

/-- The number of the enable bit of a counter, when a register is one. -/
def counterBit (k : Nat) : Option Nat := if 0xC00 ≤ k ∧ k ≤ 0xC1F then some (k - 0xC00) else none

/-- A counter is enabled for a mode: by mcounteren, for a guest by hcounteren, for a user by scounteren. -/
def counterUse (n : Nat) (h : Hart) (bit : Nat) : CsrUse :=
  if h.priv = .m then .allowed
  else if !(h.csr 0x306).getLsbD bit then .illegal
  else if h.priv.isVirtual && !(h.csr 0x606).getLsbD bit then .guest
  else if h.priv.isUser && !isKiosk n && !(h.csr 0x106).getLsbD bit then (if h.priv.isVirtual then .guest else .illegal)
  else .allowed

/-- The bit of mstateen0 and hstateen0, or of one of the other three, under which a register stands: its number and the index. -/
def stateenBit (k : Nat) : Option (Nat × Nat) :=
  match k with
  | 0x10A | 0x60A => some (62, 0)
  | 0x10C | 0x60C => some (63, 0)
  | 0x10D | 0x60D => some (63, 1)
  | 0x10E | 0x60E => some (63, 2)
  | 0x10F | 0x60F => some (63, 3)
  | 0x150 | 0x151 | 0x250 | 0x251 => some (60, 0)
  | 0x15C | 0x25C => some (58, 0)
  | 0x646 | 0x647 | 0x608 | 0x609 | 0xDB0 | 0xEB0 => some (59, 0)
  | _ => none

def stateenUse (h : Hart) (k : Nat) : CsrUse :=
  match stateenBit k with
  | none => .allowed
  | some (bit, i) =>
    if h.priv = .m then .allowed
    else if !(h.csr (0x30C + i)).getLsbD bit then .illegal
    else if h.priv.isVirtual && !(h.csr (0x60C + i)).getLsbD bit then .guest
    else .allowed

/-- The supervisor timer comparisons need TM and STCE. -/
def timerUse (h : Hart) (k : Nat) : CsrUse :=
  if (k ≠ csrStimecmp ∧ k ≠ csrVstimecmp) ∨ h.priv = .m then .allowed
  else if !((h.csr 0x306).getLsbD 1 && (h.csr csrMenvcfg).getLsbD 63) then .illegal
  else if h.priv.isVirtual && !((h.csr 0x606).getLsbD 1 && (h.csr csrHenvcfg).getLsbD 63) then .guest
  else .allowed

/-- The interrupt file that an indirect register reaches, none for a guest's without a guest file. -/
def fileOf (h : Hart) (k : Nat) : Option Nat :=
  match k / 256 with
  | 3 => some 0
  | 1 => some 1
  | _ => h.guestFile

/-- The number that selects what mireg, sireg or vsireg reaches. -/
def selectOf (h : Hart) (k : Nat) : Nat := (h.csr (k - 1)).toNat

/-- An indirect register reaches something: interrupt priorities, or a register of its file, those of its arrays having even numbers. -/
def indirectUse (h : Hart) (k : Nat) : CsrUse :=
  if k % 256 = 0x51 then
    let sel := selectOf h k
    let bad : CsrUse := if h.priv.isVirtual then .guest else .illegal
    if 0x30 ≤ sel ∧ sel ≤ 0x3F then (if sel % 2 = 0 then .allowed else bad)
    else if sel = 0x70 ∨ sel = 0x72 ∨ (0x80 ≤ sel ∧ sel ≤ 0xFF ∧ sel % 2 = 0) then (if (fileOf h k).isSome then .allowed else bad)
    else bad
  else if k % 256 = 0x5C then (if (fileOf h k).isSome then .allowed else if h.priv.isVirtual then .guest else .illegal)
  else .allowed

/-- Whether a use of a control register goes on: k is the number in the word, j the register that it names. -/
def csrUse (n : Nat) (h : Hart) (k j : Nat) (writes : Bool) : CsrUse :=
  let virt := h.priv.isVirtual
  let level := h.priv.level
  let need := k / 256 % 4
  let denied : CsrUse := if virt then .guest else .illegal
  if !csrExists n k || (writes && decide (k / 1024 = 3)) then .illegal
  else if need = 3 ∧ level < 3 then .illegal
  else if need = 2 ∧ level < 3 ∧ (virt = true ∨ level = 0) then denied
  else if need < 2 ∧ level < need then denied
  else
    (if decide (k ≤ 3) && h.fsOff then CsrUse.illegal else .allowed).andThen
    ((if [0x008, 0x009, 0x00A, 0x00F, 0xC20, 0xC21, 0xC22].contains k && h.vsOff then CsrUse.illegal else .allowed).andThen
    ((if (k == csrSatp || k == csrHgatp) && h.priv == .s && h.status 20 then CsrUse.illegal
      else if k == csrSatp && h.priv == .vs && (h.csr csrHstatus).getLsbD 20 then CsrUse.guest else CsrUse.allowed).andThen
    ((match counterBit k with
      | some b => counterUse n h b
      | none => .allowed).andThen
    ((timerUse h j).andThen ((if isKiosk n then CsrUse.allowed else stateenUse h k).andThen (indirectUse h j))))))

/-! ### How they read -/

/-- SD: a unit's state is Dirty. -/
def dirtyBit (v : Dword) : Dword := if bitsOf v 10 9 = 3 ∨ bitsOf v 14 13 = 3 then 0x8000000000000000 else 0

/-- How mstatus reads: the machine is 64 bits wide in every mode. -/
def mstatusValue (n : Nat) (h : Hart) : Dword :=
  h.csr csrMstatus ||| (if isKiosk n then 0x200000000 else 0xA00000000) ||| dirtyBit (h.csr csrMstatus)

/-- What sstatus and vsstatus show, and what a write of them changes. -/
def sstatusRead : Dword := 0x80000003000C6722
def sstatusMask : Dword := 0xC6722

/-- What mstatus lets software write. -/
def mstatusMask (kiosk : Bool) : Dword := if kiosk then 0x227888 else 0xC0007E7FAA

/-- The highest of the interrupts that a mode may take, with its priority (AIA). -/
def topInterrupt (set : Dword) : Dword :=
  match firstInterrupt set with
  | some i => BitVec.ofNat 64 (65536 * i + 1)
  | none => 0

/-- The interrupts delegated to VS-mode under their numbers there. -/
def guestView (h : Hart) (v : Dword) : Dword := (v &&& h.csr csrHideleg &&& 0x444) >>> 1

/-- The identity at the top of a file, as the claim register of the file reads. -/
def topValue (f : Tbl Dword) : Dword := BitVec.ofNat 64 (65537 * topIdentity f)

/-- What mireg, sireg or vsireg reads: priorities are 0. -/
def indirectValue (h : Hart) (k : Nat) : Dword :=
  match fileOf h k with
  | some f => if 0x70 ≤ selectOf h k then tblGet 0 (h.file f) (selectOf h k) else 0
  | none => 0

/-- READ a control register; a counter's n-th reading is a free value. -/
def readCsr (s : State) (n : Nat) (h : Hart) (k : Nat) : Dword :=
  let set := pendingOf s n h &&& h.csr csrMie
  match csrFixed n k with
  | some v => v
  | none =>
    match k with
    | 0x003 => (h.csr csrFrm <<< 5) ||| h.csr csrFflags
    | 0x00F => (h.csr csrVxrm <<< 1) ||| h.csr csrVxsat
    | 0x300 => mstatusValue n h
    | 0x100 => mstatusValue n h &&& sstatusRead
    | 0x200 => h.csr csrVsstatus ||| 0x200000000 ||| dirtyBit (h.csr csrVsstatus)
    | 0x600 => h.csr csrHstatus ||| 0x200000000
    | 0x303 => h.mideleg
    | 0x344 => pendingOf s n h
    | 0x309 => h.csr csrMip &&& 0x222
    | 0x104 => h.csr csrMie &&& h.mideleg &&& 0x2222
    | 0x144 => pendingOf s n h &&& h.mideleg &&& 0x2222
    | 0x604 => h.csr csrMie &&& 0x1444
    | 0x644 => pendingOf s n h &&& 0x1444
    | 0x204 => guestView h (h.csr csrMie)
    | 0x244 => guestView h (pendingOf s n h)
    | 0xE12 => h.guestPending
    | 0xFB0 => topInterrupt (set &&& ~~~h.mideleg)
    | 0xDB0 => topInterrupt (set &&& h.mideleg &&& ~~~(h.csr csrHideleg))
    | 0xEB0 =>
      let v := h.csr csrHvictl
      if v.getLsbD 30 then BitVec.ofNat 64 (65536 * bitsOf v 27 16 + (if v.getLsbD 8 then bitsOf v 7 0 else 1)) else topInterrupt (guestView h set)
    | 0x35C | 0x15C | 0x25C => ((fileOf h k).map fun f => topValue (h.file f)).getD 0
    | 0x351 | 0x151 | 0x251 => indirectValue h k
    | 0xB00 | 0xB02 | 0xC00 | 0xC02 => Config.hartCounter s.fresh
    | 0xC01 => Config.hartTime s.clock + (if h.priv.isVirtual then h.csr csrHtimedelta else 0)
    | 0x800 => h.nutvec
    | 0x801 => h.nutepc
    | 0x802 => h.nutval
    | 0x803 => h.nutstat
    | 0x7C0 => h.nkey
    | _ => h.csr k

/-! ### What a write leaves -/

/-- A write under a mask of bits. -/
def underMask (old mask v : Dword) : Dword := (old &&& ~~~mask) ||| (v &&& mask)

/-- The mstatus that a write leaves: MPP holds no level that the hart does not have. -/
def Hart.writeMstatus (h : Hart) (kiosk : Bool) (mask v : Dword) : Hart :=
  let new := underMask (h.csr csrMstatus) (mask &&& mstatusMask kiosk) v
  let level := bitsOf new 12 11
  h.setCsr csrMstatus (if level = 2 ∨ (kiosk = true ∧ level = 1) then withBits new 12 11 0 else new)

/-- A translation register that a write leaves: a mode that there is not leaves it as it was; a kiosk has Sv48 alone (R350). -/
def Hart.writeAtp (h : Hart) (kiosk : Bool) (k : Nat) (v : Dword) : Hart :=
  if (if kiosk then [0, 9] else [0, 8, 9, 10]).contains (bitsOf v 63 60) then h.setCsr k v else h

/-- The interrupt-pending bits that hvip holds for mip, hip and vsip: VSSIP. -/
def Hart.writeVssip (h : Hart) (v : Dword) : Hart := h.setCsr csrHvip (underMask (h.csr csrHvip) 4 v)

/-- What a write through mireg, sireg or vsireg leaves. -/
def Hart.writeIndirect (h : Hart) (k : Nat) (v : Dword) : Hart :=
  match fileOf h k with
  | none => h
  | some f =>
    match selectOf h k with
    | 0x70 => h.setFileReg f 0x70 (v &&& 1)
    | 0x72 => h.setFileReg f 0x72 (v &&& 0x7FF)
    | r => if 0x80 ≤ r ∧ r ≤ 0xFF then
        (if r = 0x80 ∨ r = 0xC0 then h.setFileReg f r (v &&& ~~~(1#64)) else h.setFileReg f r v) else h

/-- A write of a claim register: the identity at the top of its file is no longer pending. -/
def Hart.claim (h : Hart) (k : Nat) : Hart :=
  match fileOf h k with
  | some f => h.setPending f (topIdentity (h.file f)) false
  | none => h

/-- WRITE a control register: zero bits stay zero (R342, R343). -/
def writeCsr (n : Nat) (h : Hart) (k : Nat) (v : Dword) : Hart :=
  let kiosk := isKiosk n
  match csrMask kiosk k with
  | some m => h.setCsr k (v &&& m)
  | none =>
    match k with
    | 0x003 => (h.setCsr csrFrm ((v >>> 5) &&& 7)).setCsr csrFflags (v &&& 0x1F)
    | 0x00F => (h.setCsr csrVxrm ((v >>> 1) &&& 3)).setCsr csrVxsat (v &&& 1)
    | 0x300 => h.writeMstatus kiosk csrOnes v
    | 0x100 => h.writeMstatus kiosk sstatusMask v
    | 0x200 => h.setCsr csrVsstatus (v &&& sstatusMask)
    | 0x600 => h.setCsr csrHstatus (v &&& 0x73F3C0)
    | 0x180 => h.writeAtp kiosk k v
    | 0x280 => h.writeAtp kiosk k v
    | 0x680 => h.writeAtp kiosk k (v &&& 0xF3FFFFFFFFFFFFFC)
    | 0x344 => if kiosk then h else (h.setCsr csrMip (v &&& 0x2222)).writeVssip v
    | 0x309 => h.setCsr csrMip (underMask (h.csr csrMip) 0x222 v)
    | 0x104 => h.setCsr csrMie (underMask (h.csr csrMie) (h.mideleg &&& 0x2222) v)
    | 0x144 => h.setCsr csrMip (underMask (h.csr csrMip) (h.mideleg &&& 0x2002) v)
    | 0x604 => h.setCsr csrMie (underMask (h.csr csrMie) 0x1444 v)
    | 0x644 => h.writeVssip v
    | 0x204 => h.setCsr csrMie (underMask (h.csr csrMie) (h.csr csrHideleg &&& 0x444) (v <<< 1))
    | 0x244 => if (h.csr csrHideleg).getLsbD 2 then h.writeVssip (v <<< 1) else h
    | 0x35C | 0x15C | 0x25C => h.claim k
    | 0x351 | 0x151 | 0x251 => h.writeIndirect k v
    | 0x800 => { h with nutvec := v &&& 0xFFFFFFFFFFFFFFFD }
    | 0x801 => { h with nutepc := v }
    | 0x802 => { h with nutval := v }
    | 0x803 => { h with nutstat := v &&& 7 }
    | 0x7C0 => { h with nkey := v &&& 0x1FF }
    | _ => h

/-- A write of a register of the floating-point or of the vector unit makes the unit's state Dirty. -/
def Hart.csrDirty (h : Hart) (k : Nat) : Hart :=
  if k ≤ 3 then h.dirty 13 else if [0x008, 0x009, 0x00A, 0x00F].contains k then h.dirty 9 else h

end Sys2Proof.Machine
end

