-- ==== Sys2Proof/Machine/HartIsa.lean ====
section
/-! DEFINITION. The words of a hart's RISC-V instruction set without memory: fields and immediates, the arithmetic of RV64I, M, Zba, Zbb,
Zbs and Zicond, atomic operations, and the compressed words as the words they stand for (R340, R350; log 100, PRESUMED). -/

namespace Sys2Proof.Machine

/-! ### Fields and immediates -/

/-- A signed number as a doubleword. -/
def dwordOfInt (v : Int) : Dword := BitVec.ofInt 64 v

/-- The number of some bits of a word, the top one a sign. -/
def signedOf (bits v : Nat) : Int := if 2 ^ (bits - 1) ≤ v then (v : Int) - (2 : Int) ^ bits else v

def rvRd (w : Word) : Nat := bitsOf w 11 7
def rvRs1 (w : Word) : Nat := bitsOf w 19 15
def rvRs2 (w : Word) : Nat := bitsOf w 24 20
def rvF3 (w : Word) : Nat := bitsOf w 14 12
def rvF7 (w : Word) : Nat := bitsOf w 31 25
def immI (w : Word) : Dword := dwordOfInt (signedOf 12 (bitsOf w 31 20))
def immS (w : Word) : Dword := dwordOfInt (signedOf 12 (bitsOf w 31 25 * 32 + bitsOf w 11 7))
def immB (w : Word) : Dword :=
  dwordOfInt (signedOf 13 (bitsOf w 31 31 * 4096 + bitsOf w 7 7 * 2048 + bitsOf w 30 25 * 32 + bitsOf w 11 8 * 2))
def immU (w : Word) : Dword := dwordOfInt (signedOf 32 (bitsOf w 31 12 * 4096))
def immJ (w : Word) : Dword :=
  dwordOfInt (signedOf 21 (bitsOf w 31 31 * 2 ^ 20 + bitsOf w 19 12 * 4096 + bitsOf w 20 20 * 2048 + bitsOf w 30 21 * 2))

/-! ### Arithmetic -/

/-- The sign extension of a result's low 32 bits. -/
def sext32 (v : Dword) : Dword := (v.setWidth 32).signExtend 64

def boolDword (b : Bool) : Dword := if b then 1 else 0

/-- Quotients and remainders of RISC-V: division by 0 gives all ones and the dividend. -/
def rvDiv {n : Nat} (a b : BitVec n) : BitVec n := if b = 0 then BitVec.allOnes n else a.sdiv b
def rvDivu {n : Nat} (a b : BitVec n) : BitVec n := if b = 0 then BitVec.allOnes n else a.udiv b
def rvRem {n : Nat} (a b : BitVec n) : BitVec n := if b = 0 then a else a.srem b
def rvRemu {n : Nat} (a b : BitVec n) : BitVec n := if b = 0 then a else a.umod b

/-- The high half of a product of two numbers. -/
def mulHigh (a b : Int) : Dword := dwordOfInt (a * b / (2 : Int) ^ 64)

/-- Leading zeros of the low n bits. -/
def clzOf (n v : Nat) : Nat := if v % 2 ^ n = 0 then n else n - 1 - Nat.log2 (v % 2 ^ n)
/-- Trailing zeros of the low n bits. -/
def ctzOf (n v : Nat) : Nat := ((List.range n).find? fun i => v.testBit i).getD n
def popOf (n v : Nat) : Nat := ((List.range n).filter fun i => v.testBit i).length

/-- A function of each byte. -/
def eachByte (f : Byte → Byte) (v : Dword) : Dword := BitVec.ofNat 64 (natOfBytes ((bytesOf 8 v.toNat).map f))

/-- A register-register operation of opcode 0x33, by funct7 and funct3. -/
def aluOp (f7 f3 : Nat) (a b : Dword) : Option Dword :=
  let k := b.toNat % 64
  match f7, f3 with
  | 0x00, 0 => some (a + b)
  | 0x20, 0 => some (a - b)
  | 0x00, 1 => some (a <<< k)
  | 0x00, 2 => some (boolDword (a.slt b))
  | 0x00, 3 => some (boolDword (a.ult b))
  | 0x00, 4 => some (a ^^^ b)
  | 0x00, 5 => some (a >>> k)
  | 0x20, 5 => some (a.sshiftRight k)
  | 0x00, 6 => some (a ||| b)
  | 0x00, 7 => some (a &&& b)
  | 0x01, 0 => some (a * b)
  | 0x01, 1 => some (mulHigh a.toInt b.toInt)
  | 0x01, 2 => some (mulHigh a.toInt b.toNat)
  | 0x01, 3 => some (mulHigh a.toNat b.toNat)
  | 0x01, 4 => some (rvDiv a b)
  | 0x01, 5 => some (rvDivu a b)
  | 0x01, 6 => some (rvRem a b)
  | 0x01, 7 => some (rvRemu a b)
  | 0x07, 5 => some (if b = 0 then 0 else a)
  | 0x07, 7 => some (if b = 0 then a else 0)
  | 0x10, 2 => some ((a <<< 1) + b)
  | 0x10, 4 => some ((a <<< 2) + b)
  | 0x10, 6 => some ((a <<< 3) + b)
  | 0x20, 4 => some (~~~(a ^^^ b))
  | 0x20, 6 => some (a ||| ~~~b)
  | 0x20, 7 => some (a &&& ~~~b)
  | 0x05, 4 => some (if a.slt b then a else b)
  | 0x05, 5 => some (if a.ult b then a else b)
  | 0x05, 6 => some (if a.slt b then b else a)
  | 0x05, 7 => some (if a.ult b then b else a)
  | 0x30, 1 => some (a.rotateLeft k)
  | 0x30, 5 => some (a.rotateRight k)
  | 0x14, 1 => some (a ||| (1#64 <<< k))
  | 0x24, 1 => some (a &&& ~~~(1#64 <<< k))
  | 0x34, 1 => some (a ^^^ (1#64 <<< k))
  | 0x24, 5 => some (boolDword (a.getLsbD k))
  | _, _ => none

/-- A register-register operation of opcode 0x3B on the low 32 bits; ZEXT.H has no second register. -/
def aluOp32 (f7 f3 : Nat) (a b : Dword) : Option Dword :=
  let x : Word := a.setWidth 32
  let y : Word := b.setWidth 32
  let k := b.toNat % 32
  match f7, f3 with
  | 0x00, 0 => some (sext32 (a + b))
  | 0x20, 0 => some (sext32 (a - b))
  | 0x00, 1 => some ((x <<< k).signExtend 64)
  | 0x00, 5 => some ((x >>> k).signExtend 64)
  | 0x20, 5 => some ((x.sshiftRight k).signExtend 64)
  | 0x01, 0 => some ((x * y).signExtend 64)
  | 0x01, 4 => some ((rvDiv x y).signExtend 64)
  | 0x01, 5 => some ((rvDivu x y).signExtend 64)
  | 0x01, 6 => some ((rvRem x y).signExtend 64)
  | 0x01, 7 => some ((rvRemu x y).signExtend 64)
  | 0x04, 0 => some (x.setWidth 64 + b)
  | 0x10, 2 => some ((x.setWidth 64 <<< 1) + b)
  | 0x10, 4 => some ((x.setWidth 64 <<< 2) + b)
  | 0x10, 6 => some ((x.setWidth 64 <<< 3) + b)
  | 0x04, 4 => some ((x.setWidth 16).setWidth 64)
  | 0x30, 1 => some ((x.rotateLeft k).signExtend 64)
  | 0x30, 5 => some ((x.rotateRight k).signExtend 64)
  | _, _ => none

/-- A unary operation of opcode 0x13 with funct7 0x30 and funct3 1, by bits [24:20]. -/
def unaryOp (k : Nat) (a : Dword) : Option Dword :=
  match k with
  | 0 => some (BitVec.ofNat 64 (clzOf 64 a.toNat))
  | 1 => some (BitVec.ofNat 64 (ctzOf 64 a.toNat))
  | 2 => some (BitVec.ofNat 64 (popOf 64 a.toNat))
  | 4 => some ((a.setWidth 8).signExtend 64)
  | 5 => some ((a.setWidth 16).signExtend 64)
  | _ => none

/-- An operation with an immediate of opcode 0x13. -/
def aluImm (w : Word) (a : Dword) : Option Dword :=
  let f6 := bitsOf w 31 26
  let k := bitsOf w 25 20
  match rvF3 w with
  | 1 => if bitsOf w 31 25 = 0x30 then unaryOp (rvRs2 w) a
    else if f6 = 0 ∨ f6 = 0x0A ∨ f6 = 0x12 ∨ f6 = 0x1A then aluOp (2 * f6) 1 a (BitVec.ofNat 64 k) else none
  | 5 => if bitsOf w 31 20 = 0x287 then some (eachByte (fun b => if b = 0 then 0 else 0xFF) a)
    else if bitsOf w 31 20 = 0x6B8 then some (BitVec.ofNat 64 (natOfBytes (bytesOf 8 a.toNat).reverse))
    else if f6 = 0 ∨ f6 = 0x10 ∨ f6 = 0x12 ∨ f6 = 0x18 then aluOp (2 * f6) 5 a (BitVec.ofNat 64 k) else none
  | f3 => aluOp 0 f3 a (immI w)

/-- An operation with an immediate of opcode 0x1B. -/
def aluImm32 (w : Word) (a : Dword) : Option Dword :=
  let x := a.toNat % 2 ^ 32
  match rvF3 w with
  | 0 => some (sext32 (a + immI w))
  | 1 =>
    if rvF7 w = 0x30 then
      (match rvRs2 w with
        | 0 => some (BitVec.ofNat 64 (clzOf 32 x))
        | 1 => some (BitVec.ofNat 64 (ctzOf 32 x))
        | 2 => some (BitVec.ofNat 64 (popOf 32 x))
        | _ => none)
    else if bitsOf w 31 26 = 2 then some ((BitVec.ofNat 64 x) <<< bitsOf w 25 20)
    else if rvF7 w = 0 then aluOp32 0 1 a (BitVec.ofNat 64 (rvRs2 w)) else none
  | 5 => if rvF7 w = 0 ∨ rvF7 w = 0x20 ∨ rvF7 w = 0x30 then aluOp32 (rvF7 w) 5 a (BitVec.ofNat 64 (rvRs2 w)) else none
  | _ => none

/-- Whether a branch is taken, none for no branch. -/
def branchHolds (f3 : Nat) (a b : Dword) : Option Bool :=
  match f3 with
  | 0 => some (a == b)
  | 1 => some (a != b)
  | 4 => some (a.slt b)
  | 5 => some (!a.slt b)
  | 6 => some (a.ult b)
  | 7 => some (!a.ult b)
  | _ => none

/-- What an AMO writes, by funct5, for an operand of some bits. -/
def amoOp (f5 bits : Nat) (v old : Nat) : Option Nat :=
  let x := signedOf bits (old % 2 ^ bits)
  let y := signedOf bits (v % 2 ^ bits)
  match f5 with
  | 0x00 => some (old + v)
  | 0x01 => some v
  | 0x04 => some (old ^^^ v)
  | 0x08 => some (old ||| v)
  | 0x0C => some (old &&& v)
  | 0x10 => some (if x ≤ y then old else v)
  | 0x14 => some (if x ≤ y then v else old)
  | 0x18 => some (Nat.min (old % 2 ^ bits) (v % 2 ^ bits))
  | 0x1C => some (Nat.max (old % 2 ^ bits) (v % 2 ^ bits))
  | _ => none

/-! ### Compressed words -/

/-- Words of the formats I, S, R, B, U and J from their fields. -/
def wordI (op f3 rd rs1 : Nat) (imm : Int) : Word :=
  BitVec.ofNat 32 ((imm % 4096).toNat * 2 ^ 20 + rs1 * 2 ^ 15 + f3 * 2 ^ 12 + rd * 2 ^ 7 + op)
def wordS (op f3 rs1 rs2 imm : Nat) : Word :=
  BitVec.ofNat 32 (imm / 32 % 128 * 2 ^ 25 + rs2 * 2 ^ 20 + rs1 * 2 ^ 15 + f3 * 2 ^ 12 + imm % 32 * 2 ^ 7 + op)
def wordR (op f7 f3 rd rs1 rs2 : Nat) : Word :=
  BitVec.ofNat 32 (f7 * 2 ^ 25 + rs2 * 2 ^ 20 + rs1 * 2 ^ 15 + f3 * 2 ^ 12 + rd * 2 ^ 7 + op)
def wordB (f3 rs1 : Nat) (imm : Int) : Word :=
  let v := (imm % 8192).toNat
  BitVec.ofNat 32 (v / 4096 * 2 ^ 31 + v / 32 % 64 * 2 ^ 25 + rs1 * 2 ^ 15 + f3 * 2 ^ 12 + v / 2 % 16 * 2 ^ 8 + v / 2048 % 2 * 2 ^ 7 + 0x63)
def wordU (rd : Nat) (imm : Int) : Word := BitVec.ofNat 32 ((imm % 2 ^ 20).toNat * 4096 + rd * 2 ^ 7 + 0x37)
def wordJ (imm : Int) : Word :=
  let v := (imm % 2 ^ 21).toNat
  BitVec.ofNat 32 (v / 2 ^ 20 * 2 ^ 31 + v / 2 % 1024 * 2 ^ 21 + v / 2048 % 2 * 2 ^ 20 + v / 4096 % 256 * 2 ^ 12 + 0x6F)

/-- The 6-bit signed immediate of most compressed words, and the offsets of branches and jumps. -/
def immC (c : Word) : Int := signedOf 6 (bitsOf c 12 12 * 32 + bitsOf c 6 2)
def immCb (c : Word) : Int :=
  signedOf 9 (bitsOf c 12 12 * 256 + bitsOf c 6 5 * 64 + bitsOf c 2 2 * 32 + bitsOf c 11 10 * 8 + bitsOf c 4 3 * 2)
def immCj (c : Word) : Int :=
  signedOf 12 (bitsOf c 12 12 * 2048 + bitsOf c 8 8 * 1024 + bitsOf c 10 9 * 256 + bitsOf c 6 6 * 128 + bitsOf c 7 7 * 64 + bitsOf c 2 2 * 32
    + bitsOf c 11 11 * 16 + bitsOf c 5 3 * 2)
def immCw (c : Word) : Nat := bitsOf c 5 5 * 64 + bitsOf c 12 10 * 8 + bitsOf c 6 6 * 4
def immCd (c : Word) : Nat := bitsOf c 6 5 * 64 + bitsOf c 12 10 * 8

/-- What a compressed word comes to: the word it stands for, or an illegal word. -/
inductive Compressed
  | word (w : Word) | illegal
  deriving DecidableEq, Repr

/-- The Zcb words with one register, which the host-die harts have. -/
def expandUnary (c : Word) (rd : Nat) : Compressed :=
  match bitsOf c 4 2 with
  | 0 => .word (wordI 0x13 7 rd rd 255)
  | 1 => .word (wordI 0x13 1 rd rd 0x604)
  | 2 => .word (wordR 0x3B 4 4 rd rd 0)
  | 3 => .word (wordI 0x13 1 rd rd 0x605)
  | 4 => .word (wordR 0x3B 4 0 rd rd 0)
  | 5 => .word (wordI 0x13 4 rd rd (-1))
  | _ => .illegal

/-- The Zcb loads and stores of bytes and halfwords. -/
def expandNarrow (c : Word) : Compressed :=
  let r := 8 + bitsOf c 4 2
  let base := 8 + bitsOf c 9 7
  let half := 2 * bitsOf c 5 5
  match bitsOf c 12 10, bitsOf c 6 6 with
  | 0, k => .word (wordI 0x03 4 r base ((half + k : Nat) : Int))
  | 1, 0 => .word (wordI 0x03 5 r base (half : Nat))
  | 1, _ => .word (wordI 0x03 1 r base (half : Nat))
  | 2, k => .word (wordS 0x23 0 base r (half + k))
  | 3, 0 => .word (wordS 0x23 1 base r half)
  | _, _ => .illegal

/-- The compressed words of quadrant 1 with funct3 4. -/
def expandArith (zcb : Bool) (c : Word) : Compressed :=
  let rd := 8 + bitsOf c 9 7
  let rs := 8 + bitsOf c 4 2
  let sh : Int := (bitsOf c 12 12 * 32 + bitsOf c 6 2 : Nat)
  match bitsOf c 11 10, bitsOf c 12 12, bitsOf c 6 5 with
  | 0, _, _ => .word (wordI 0x13 5 rd rd sh)
  | 1, _, _ => .word (wordI 0x13 5 rd rd (0x400 + sh))
  | 2, _, _ => .word (wordI 0x13 7 rd rd (immC c))
  | _, 0, 0 => .word (wordR 0x33 0x20 0 rd rd rs)
  | _, 0, 1 => .word (wordR 0x33 0 4 rd rd rs)
  | _, 0, 2 => .word (wordR 0x33 0 6 rd rd rs)
  | _, 0, _ => .word (wordR 0x33 0 7 rd rd rs)
  | _, _, 0 => .word (wordR 0x3B 0x20 0 rd rd rs)
  | _, _, 1 => .word (wordR 0x3B 0 0 rd rd rs)
  | _, _, 2 => if zcb then .word (wordR 0x33 1 0 rd rd rs) else .illegal
  | _, _, _ => if zcb then expandUnary c rd else .illegal

/-- The compressed words of quadrant 2 with funct3 4. -/
def expandJump (c : Word) : Compressed :=
  let rd := bitsOf c 11 7
  let rs := bitsOf c 6 2
  if bitsOf c 12 12 = 0 then
    if rs = 0 then (if rd = 0 then .illegal else .word (wordI 0x67 0 0 rd 0)) else .word (wordR 0x33 0 0 rd 0 rs)
  else if rs = 0 then (if rd = 0 then .word 0x00100073 else .word (wordI 0x67 0 1 rd 0))
  else .word (wordR 0x33 0 0 rd rd rs)

/-- EXPAND a compressed word, by its quadrant and funct3. The may-be-operations of Zcmop do nothing. -/
def expandC (zcb : Bool) (c : Word) : Compressed :=
  let rd := bitsOf c 11 7
  let rdp := 8 + bitsOf c 4 2
  let rsp := 8 + bitsOf c 9 7
  match bitsOf c 1 0, bitsOf c 15 13 with
  | 0, 0 =>
    let imm := bitsOf c 10 7 * 64 + bitsOf c 12 11 * 16 + bitsOf c 5 5 * 8 + bitsOf c 6 6 * 4
    if imm = 0 then .illegal else .word (wordI 0x13 0 rdp 2 imm)
  | 0, 2 => .word (wordI 0x03 2 rdp rsp (immCw c))
  | 0, 3 => .word (wordI 0x03 3 rdp rsp (immCd c))
  | 0, 1 => .word (wordI 0x07 3 rdp rsp (immCd c))
  | 0, 5 => .word (wordS 0x27 3 rsp rdp (immCd c))
  | 0, 6 => .word (wordS 0x23 2 rsp rdp (immCw c))
  | 0, 7 => .word (wordS 0x23 3 rsp rdp (immCd c))
  | 0, _ => if zcb then expandNarrow c else .illegal
  | 1, 0 => .word (wordI 0x13 0 rd rd (immC c))
  | 1, 1 => if rd = 0 then .illegal else .word (wordI 0x1B 0 rd rd (immC c))
  | 1, 2 => .word (wordI 0x13 0 rd 0 (immC c))
  | 1, 3 =>
    if bitsOf c 12 12 = 0 ∧ bitsOf c 6 2 = 0 then (if zcb && rd % 2 == 1 && decide (rd < 16) then .word 0x13 else .illegal)
    else if rd = 2 then
      .word (wordI 0x13 0 2 2 (signedOf 10 (bitsOf c 12 12 * 512 + bitsOf c 4 3 * 128 + bitsOf c 5 5 * 64 + bitsOf c 2 2 * 32 + bitsOf c 6 6 * 16)))
    else .word (wordU rd (immC c))
  | 1, 4 => expandArith zcb c
  | 1, 5 => .word (wordJ (immCj c))
  | 1, 6 => .word (wordB 0 rsp (immCb c))
  | 1, _ => .word (wordB 1 rsp (immCb c))
  | 2, 0 => .word (wordI 0x13 1 rd rd (bitsOf c 12 12 * 32 + bitsOf c 6 2 : Nat))
  | 2, 2 => if rd = 0 then .illegal else .word (wordI 0x03 2 rd 2 (bitsOf c 3 2 * 64 + bitsOf c 12 12 * 32 + bitsOf c 6 4 * 4 : Nat))
  | 2, 3 => if rd = 0 then .illegal else .word (wordI 0x03 3 rd 2 (bitsOf c 4 2 * 64 + bitsOf c 12 12 * 32 + bitsOf c 6 5 * 8 : Nat))
  | 2, 4 => expandJump c
  | 2, 1 => .word (wordI 0x07 3 rd 2 (bitsOf c 4 2 * 64 + bitsOf c 12 12 * 32 + bitsOf c 6 5 * 8 : Nat))
  | 2, 5 => .word (wordS 0x27 3 2 (bitsOf c 6 2) (bitsOf c 9 7 * 64 + bitsOf c 12 10 * 8))
  | 2, 6 => .word (wordS 0x23 2 2 (bitsOf c 6 2) (bitsOf c 8 7 * 64 + bitsOf c 12 9 * 4))
  | 2, 7 => .word (wordS 0x23 3 2 (bitsOf c 6 2) (bitsOf c 9 7 * 64 + bitsOf c 12 10 * 8))
  | _, _ => .illegal

end Sys2Proof.Machine
end

