-- ==== Sys2Proof/Machine/HartFp.lean ====
section
/-! DEFINITION. Floating-point arithmetic of the harts and kiosks as RISC-V has it: F and D, and on the host die Zfhmin and Zfa (R340, R350; log
100, PRESUMED). Values are exact and rounded once by the operations of Float.lean; underflow is judged after rounding. -/

namespace Sys2Proof.Machine

def fp64 : FpFormat := ⟨11, 52, 1023, 0x7FEFFFFFFFFFFFFF, true, true, 0x7FF8000000000000⟩

/-- The exception flags as fflags has them: inexact, underflow, overflow, division by zero, invalid. -/
def flagNx : Nat := 1
def flagUf : Nat := 2
def flagOf : Nat := 4
def flagDz : Nat := 8
def flagNv : Nat := 16

def nvIf (b : Bool) : Nat := if b then flagNv else 0

/-- The rounding mode of Float.lean for one of RISC-V: 0 to nearest even, 1 towards zero, 2 down, 3 up, 4 to nearest with ties away. -/
def rvMode (rm : Nat) : Nat :=
  match rm with
  | 2 => 3
  | 3 => 2
  | k => k

/-- The width of a format, and its values cut to it. -/
def FpFormat.width (f : FpFormat) : Nat := f.magBits + 1

/-! ### Rounding -/

/-- A value rounded to the format's precision with its exponent unbounded lies below the least normal number. -/
def FpFormat.tiny (f : FpFormat) (mode : Nat) (neg : Bool) (m : Nat) (e : Int) : Bool :=
  let q := (Nat.log2 m : Int) + e - f.mb
  let r := roundMag mode neg m e q false
  decide ((Nat.log2 r.1 : Int) + q < 1 - (f.bias : Int))

/-- Round a finite value: the encoding and the flags. -/
def rvRound (f : FpFormat) (mode : Nat) (neg : Bool) (m : Nat) (e : Int) : Nat × Nat :=
  if m = 0 then (f.sign neg, 0)
  else
    let r := f.roundBits mode neg m e false
    if f.maxFinite < r.1 then (f.overflowBits .ieee mode neg, flagOf + flagNx)
    else (f.sign neg + r.1, if r.2 then flagNx + (if f.tiny mode neg m e then flagUf else 0) else 0)

/-- Round a finite value to odd: towards zero, with the last bit set where that is inexact. -/
def rvRoundOdd (f : FpFormat) (neg : Bool) (m : Nat) (e : Int) : Nat × Nat :=
  let r := rvRound f 1 neg m e
  (if r.2 % 2 = 1 ∧ r.1 % 2 = 0 then r.1 + 1 else r.1, r.2)

/-- Round a value, with the invalid flag of its operation. -/
def rvFinish (f : FpFormat) (mode : Nat) (r : Fv × Bool) : Nat × Nat :=
  match r.1 with
  | .nan _ => (f.canon, nvIf r.2)
  | .inf neg => (f.infBits neg, nvIf r.2)
  | .fin neg m e => rvRound f mode neg m e

/-! ### Arithmetic on values -/

def Fv.negateIf (b : Bool) (v : Fv) : Fv := if b then v.negate else v

/-- A sum. -/
def rvAdd (f : FpFormat) (mode : Nat) (a b : Fv) : Nat × Nat := rvFinish f mode (fvSum (mode == 3) [a, b])
def rvMul (f : FpFormat) (mode : Nat) (a b : Fv) : Nat × Nat := rvFinish f mode (fvMul a b)
/-- A product and a sum, rounded once. -/
def rvFma (f : FpFormat) (mode : Nat) (a b c : Fv) : Nat × Nat :=
  let p := fvMul a b
  let r := fvSum (mode == 3) [p.1, c]
  rvFinish f mode (r.1, p.2 || r.2)

/-- A quotient of finite nonzero magnitudes as a dyadic number whose last bit stands for what is left. -/
def quotientOf (m1 m2 : Nat) (e : Int) : Nat × Int :=
  let k := 128 + Nat.log2 m2
  (2 * (m1 * 2 ^ k / m2) + (if m1 * 2 ^ k % m2 = 0 then 0 else 1), e - k - 1)

def rvQuotient (f : FpFormat) (mode : Nat) (a b : Fv) : Nat × Nat :=
  match a, b with
  | .nan s, y => (f.canon, nvIf (s || y.isSignalling))
  | x, .nan s => (f.canon, nvIf (s || x.isSignalling))
  | .inf _, .inf _ => (f.canon, flagNv)
  | .inf n, .fin n' _ _ => (f.infBits (n != n'), 0)
  | .fin n _ _, .inf n' => (f.sign (n != n'), 0)
  | .fin n m e, .fin n' m' e' =>
    if m' = 0 then (if m = 0 then (f.canon, flagNv) else (f.infBits (n != n'), flagDz))
    else if m = 0 then (f.sign (n != n'), 0)
    else
      let q := quotientOf m m' (e - e')
      rvRound f mode (n != n') q.1 q.2

def rvSqrt (f : FpFormat) (mode : Nat) (a : Fv) : Nat × Nat :=
  match a with
  | .nan s => (f.canon, nvIf s)
  | .inf neg => if neg then (f.canon, flagNv) else (f.infBits false, 0)
  | .fin neg m e =>
    if m = 0 then (f.sign neg, 0)
    else if neg then (f.canon, flagNv)
    else
      let odd := e % 2 == 1
      let m1 := (if odd then 2 * m else m) * 4 ^ 64
      let q := Nat.sqrt m1
      rvRound f mode false (2 * q + (if q * q = m1 then 0 else 1)) ((if odd then e - 1 else e) / 2 - 65)

/-- Minimum and maximum of encodings: a NaN gives way to a number, or with Zfa wins. -/
def rvMinMax (f : FpFormat) (max number : Bool) (a b : Nat) : Nat × Nat :=
  let r := fpMinMax f max number a b
  (r.1, nvIf r.2.nv)

/-- Comparisons: 0 less or equal, 1 less, 2 equal; a quiet one is invalid for signalling NaNs alone. -/
def rvCompare (rel : Nat) (quiet : Bool) (a b : Fv) : Bool × Nat :=
  let nan := a.isNan || b.isNan
  let sig := a.isSignalling || b.isSignalling
  let holds := match rel with
    | 0 => fvCompare a b != .gt
    | 1 => fvCompare a b == .lt
    | _ => fvCompare a b == .eq
  (!nan && holds, nvIf (if quiet || rel == 2 then sig else nan))

/-- The sign of an encoding replaced: 0 with another's, 1 with its opposite, 2 with their exclusive or. -/
def rvSignInject (f : FpFormat) (kind a b : Nat) : Nat :=
  let sa := a / 2 ^ f.magBits % 2
  let sb := b / 2 ^ f.magBits % 2
  a % 2 ^ f.magBits + 2 ^ f.magBits * (match kind with
    | 0 => sb
    | 1 => 1 - sb
    | _ => (sa + sb) % 2)

/-- The class of an encoding, one bit of ten. -/
def rvClass (f : FpFormat) (a : Nat) : Nat :=
  let low := a % 2 ^ f.magBits < 2 ^ f.mb
  match f.decode a with
  | .nan s => if s then 0x100 else 0x200
  | .inf neg => if neg then 1 else 0x80
  | .fin neg m _ =>
    if m = 0 then (if neg then 8 else 0x10) else if low then (if neg then 4 else 0x20) else if neg then 2 else 0x40

/-! ### Conversions -/

/-- To an integer of some bits: out of range gives the nearest end and is invalid, a NaN the upper end. -/
def rvToInt (bits : Nat) (signed : Bool) (mode : Nat) (v : Fv) : Nat × Nat :=
  let lo : Int := if signed then -(2 : Int) ^ (bits - 1) else 0
  let hi : Int := if signed then (2 : Int) ^ (bits - 1) - 1 else (2 : Int) ^ bits - 1
  let r : Int × Nat := match v with
    | .nan _ => (hi, flagNv)
    | .inf neg => (if neg then lo else hi, flagNv)
    | .fin neg m e =>
      let q := roundMag mode neg m e 0 false
      let n : Int := if neg then -((q.1 : Nat) : Int) else ((q.1 : Nat) : Int)
      if n < lo then (lo, flagNv) else if hi < n then (hi, flagNv) else (n, if q.2 then flagNx else 0)
  ((r.1 % (2 : Int) ^ bits).toNat, r.2)

/-- The low 32 bits of a value rounded towards zero (Zfa), with the flags of its conversion. -/
def rvToIntMod (v : Fv) : Nat × Nat :=
  match v with
  | .fin neg m e =>
    let q := roundMag 1 neg m e 0 false
    let n : Int := if neg then -((q.1 : Nat) : Int) else ((q.1 : Nat) : Int)
    ((n % (2 : Int) ^ 32).toNat, if n < -(2 : Int) ^ 31 ∨ (2 : Int) ^ 31 ≤ n then flagNv else if q.2 then flagNx else 0)
  | _ => (0, flagNv)

def rvOfInt (f : FpFormat) (mode : Nat) (n : Int) : Nat × Nat := rvRound f mode (decide (n < 0)) n.natAbs 0

/-- To another format. -/
def rvConvert (f : FpFormat) (mode : Nat) (v : Fv) : Nat × Nat := rvFinish f mode (v, v.isSignalling)

/-- To an integral value of the same format (Zfa); it is inexact where it says so. -/
def rvRoundInt (f : FpFormat) (mode : Nat) (inexact : Bool) (a : Nat) : Nat × Nat :=
  match f.decode a with
  | .nan s => (f.canon, nvIf s)
  | .inf neg => (f.infBits neg, 0)
  | .fin neg m e =>
    let q := roundMag mode neg m e 0 false
    ((rvRound f 0 neg q.1 0).1, if inexact && q.2 then flagNx else 0)

/-- The constants of Zfa by number, from 2 on as 2^-k or a small number of sixteenths; the first two and the last two stand by themselves. -/
def rvConstant (f : FpFormat) (k : Nat) : Nat :=
  let of (m : Nat) (e : Int) : Nat := (rvRound f 0 false m e).1
  match k with
  | 0 => (rvRound f 0 true 1 0).1
  | 1 => 2 ^ f.mb
  | 2 => of 1 (-16)
  | 3 => of 1 (-15)
  | 4 => of 1 (-8)
  | 5 => of 1 (-7)
  | 6 => of 1 (-4)
  | 7 => of 1 (-3)
  | 24 => of 8 0
  | 25 => of 16 0
  | 26 => of 128 0
  | 27 => of 256 0
  | 28 => of 1 15
  | 29 => of 1 16
  | 30 => f.infBits false
  | 31 => f.canon
  | _ => if k < 12 then of (k - 4) (-4) else if k < 16 then of (k - 8) (-3) else if k < 20 then of (k - 12) (-2)
    else if k < 23 then of (k - 16) (-1) else of 4 0

/-! ### Registers -/

/-- The value of a format that a floating-point register holds: a narrower value stands under ones, and any other content is its canonical
NaN. -/
def Hart.fval (h : Hart) (f : FpFormat) (n : Nat) : Nat :=
  let v := (h.freg n).toNat
  if f.width = 64 then v else if v / 2 ^ f.width = 2 ^ (64 - f.width) - 1 then v % 2 ^ f.width else f.canon

/-- A value of a format as a register holds it. -/
def boxed (f : FpFormat) (v : Nat) : Dword := BitVec.ofNat 64 ((2 ^ 64 - 2 ^ f.width) % 2 ^ 64 + v % 2 ^ f.width)

/-- What a floating-point word gives: a value for an integer or a floating-point register, and flags. -/
structure FpOut where
  toX : Bool
  value : Dword
  flags : Nat := 0
  deriving DecidableEq, Repr

/-- The format that two bits of a word name; half precision only for moves and conversions of the host-die harts (Zfhmin). -/
def fmtOf (k : Nat) : Option FpFormat :=
  match k with
  | 0 => some fp32
  | 1 => some fp64
  | 2 => some fp16
  | _ => none

/-- The rounding mode of a word: its own, or frm's; none for one that there is not. -/
def Hart.roundingMode (h : Hart) (rm : Nat) : Option Nat :=
  let k := if rm = 7 then (h.csr csrFrm).toNat else rm
  if k ≤ 4 then some (rvMode k) else none

/-- An integer result: 32-bit ones with their sign. -/
def intResult (bits v : Nat) : Dword := if bits = 32 then dwordOfInt (signedOf 32 v) else BitVec.ofNat 64 v

/-- A word of opcode 0x53 without rounding mode: sign injection, minimum and maximum, comparisons, moves, classes and constants. -/
def fpPlain (zfa : Bool) (h : Hart) (w : Word) (f : FpFormat) : Option FpOut :=
  let a := h.fval f (rvRs1 w)
  let b := h.fval f (rvRs2 w)
  let toF (r : Nat × Nat) : Option FpOut := some { toX := false, value := boxed f r.1, flags := r.2 }
  let toBool (r : Bool × Nat) : Option FpOut := some { toX := true, value := boolDword r.1, flags := r.2 }
  match bitsOf w 31 27, rvF3 w, f.width == 16 with
  | 0x04, 0, false => toF (rvSignInject f 0 a b, 0)
  | 0x04, 1, false => toF (rvSignInject f 1 a b, 0)
  | 0x04, 2, false => toF (rvSignInject f 2 a b, 0)
  | 0x05, 0, false => toF (rvMinMax f false true a b)
  | 0x05, 1, false => toF (rvMinMax f true true a b)
  | 0x05, 2, false => if zfa then toF (rvMinMax f false false a b) else none
  | 0x05, 3, false => if zfa then toF (rvMinMax f true false a b) else none
  | 0x14, 0, false => toBool (rvCompare 0 false (f.decode a) (f.decode b))
  | 0x14, 1, false => toBool (rvCompare 1 false (f.decode a) (f.decode b))
  | 0x14, 2, false => toBool (rvCompare 2 true (f.decode a) (f.decode b))
  | 0x14, 4, false => if zfa then toBool (rvCompare 0 true (f.decode a) (f.decode b)) else none
  | 0x14, 5, false => if zfa then toBool (rvCompare 1 true (f.decode a) (f.decode b)) else none
  | 0x1C, 0, _ => if rvRs2 w = 0 then
      some { toX := true, value := dwordOfInt (signedOf f.width ((h.freg (rvRs1 w)).toNat % 2 ^ f.width)) } else none
  | 0x1C, 1, false => if rvRs2 w = 0 then some { toX := true, value := BitVec.ofNat 64 (rvClass f a) } else none
  | 0x1E, 0, half =>
    if rvRs2 w = 0 then some { toX := false, value := boxed f ((h.reg (rvRs1 w)).toNat % 2 ^ f.width) }
    else if rvRs2 w = 1 && zfa && !half then toF (rvConstant f (rvRs1 w), 0) else none
  | _, _, _ => none

/-- A word of opcode 0x53 that rounds: arithmetic and conversions. -/
def fpRounding (zfa : Bool) (h : Hart) (w : Word) (f : FpFormat) (mode : Nat) : Option FpOut :=
  let a := f.decode (h.fval f (rvRs1 w))
  let b := f.decode (h.fval f (rvRs2 w))
  let half := f.width == 16
  let toF (r : Nat × Nat) : Option FpOut := some { toX := false, value := boxed f r.1, flags := r.2 }
  let toX (bits : Nat) (r : Nat × Nat) : Option FpOut := some { toX := true, value := intResult bits r.1, flags := r.2 }
  let x := h.reg (rvRs1 w)
  match bitsOf w 31 27, half with
  | 0x00, false => toF (rvAdd f mode a b)
  | 0x01, false => toF (rvAdd f mode a b.negate)
  | 0x02, false => toF (rvMul f mode a b)
  | 0x03, false => toF (rvQuotient f mode a b)
  | 0x0B, false => if rvRs2 w = 0 then toF (rvSqrt f mode a) else none
  | 0x08, _ =>
    (match rvRs2 w with
      | 4 => if zfa && !half then toF (rvRoundInt f mode false (h.fval f (rvRs1 w))) else none
      | 5 => if zfa && !half then toF (rvRoundInt f mode true (h.fval f (rvRs1 w))) else none
      | k =>
        match fmtOf k with
        | some g => if g.width = f.width ∨ (g.width = 16 ∧ zfa = false) then none else toF (rvConvert f mode (g.decode (h.fval g (rvRs1 w))))
        | none => none)
  | 0x18, false =>
    (match rvRs2 w with
      | 0 => toX 32 (rvToInt 32 true mode a)
      | 1 => toX 32 (rvToInt 32 false mode a)
      | 2 => toX 64 (rvToInt 64 true mode a)
      | 3 => toX 64 (rvToInt 64 false mode a)
      | 8 => if zfa && f.width == 64 && rvF3 w == 1 then toX 32 (rvToIntMod a) else none
      | _ => none)
  | 0x1A, false =>
    (match rvRs2 w with
      | 0 => toF (rvOfInt f mode (signedOf 32 (x.toNat % 2 ^ 32)))
      | 1 => toF (rvOfInt f mode (x.toNat % 2 ^ 32 : Nat))
      | 2 => toF (rvOfInt f mode x.toInt)
      | 3 => toF (rvOfInt f mode x.toNat)
      | _ => none)
  | _, _ => none

/-- A word of a multiply-add opcode: the product's sign and the sum's. -/
def fpMulAdd (h : Hart) (w : Word) (f : FpFormat) (mode : Nat) : Option FpOut :=
  if f.width = 16 then none
  else
    let a := f.decode (h.fval f (rvRs1 w))
    let b := f.decode (h.fval f (rvRs2 w))
    let c := f.decode (h.fval f (bitsOf w 31 27))
    let op := bitsOf w 3 2
    let r := rvFma f mode (a.negateIf (decide (2 ≤ op))) b (c.negateIf (op == 1 || op == 3))
    some { toX := false, value := boxed f r.1, flags := r.2 }

/-- A FLOATING-POINT WORD without memory (opcodes 0x43, 0x47, 0x4B, 0x4F and 0x53), none where it is illegal. zfa says whether the hart has
Zfa and Zfhmin. -/
def fpWord (zfa : Bool) (h : Hart) (w : Word) : Option FpOut :=
  match fmtOf (bitsOf w 26 25) with
  | none => none
  | some f =>
    if f.width = 16 ∧ zfa = false then none
    else if bitsOf w 6 0 = 0x53 then
      match fpPlain zfa h w f with
      | some r => some r
      | none =>
        if [0x04, 0x05, 0x14, 0x1C, 0x1E].contains (bitsOf w 31 27) then none
        else
          match h.roundingMode (rvF3 w) with
          | some mode => fpRounding zfa h w f mode
          | none => none
    else
      match h.roundingMode (rvF3 w) with
      | some mode => fpMulAdd h w f mode
      | none => none

end Sys2Proof.Machine
end

