-- ==== Sys2Proof/Machine/HartVec.lean ====
section
/-! DEFINITION. The vector unit of the host-die harts as RISC-V has it (V with VLEN 256, Zvbb; R340; log 149, PRESUMED): its configuration, the
elements of its registers, what a word does to each element, and the integer operations on elements. -/

namespace Sys2Proof.Machine

/-! ### Configuration -/

/-- What vtype, vl and vstart say: the width of an element, the registers of a group in eighths, and what becomes of elements beyond vl and of
masked ones. -/
structure VCfg where
  sew : Nat
  lmul : Nat
  vl : Nat
  vstart : Nat
  ta : Bool
  ma : Bool
  deriving DecidableEq, Repr

/-- The registers of a group, in eighths, by vlmul; 0 for the reserved code. -/
def lmulOf (k : Nat) : Nat :=
  match k with
  | 0 => 8
  | 1 => 16
  | 2 => 32
  | 3 => 64
  | 5 => 1
  | 6 => 2
  | 7 => 4
  | _ => 0

/-- A vtype that the unit has: elements of 8 to 64 bits, and in a fraction of a register no wider than the fraction of 64 bits. -/
def vtypeOk (v : Nat) : Bool :=
  let sew := 8 * 2 ^ (v / 8 % 8)
  let lmul := lmulOf (v % 8)
  decide (v < 256) && lmul != 0 && decide (sew ≤ 64) && decide (8 * sew ≤ 64 * Nat.min lmul 8)

/-- The elements of a group. -/
def vlmaxOf (sew lmul : Nat) : Nat := 32 * lmul / sew

def Hart.vill (h : Hart) : Bool := (h.csr csrVtype).getLsbD 63

/-- The configuration, as vtype holds it. -/
def Hart.vcfg (h : Hart) : VCfg :=
  let t := (h.csr csrVtype).toNat
  { sew := 8 * 2 ^ (t / 8 % 8), lmul := lmulOf (t % 8), vl := (h.csr csrVl).toNat, vstart := (h.csr csrVstart).toNat
    ta := t.testBit 6, ma := t.testBit 7 }

/-- VSETVLI, VSETIVLI and VSETVL: the new vtype and vl; a vtype that the unit does not have sets vill. -/
def Hart.setVtype (h : Hart) (rd t : Nat) (avl : Option Nat) : Hart :=
  let max := vlmaxOf (8 * 2 ^ (t / 8 % 8)) (lmulOf (t % 8))
  let keeps := !h.vill && vlmaxOf h.vcfg.sew h.vcfg.lmul == max
  let fits := vtypeOk t && (avl.isSome || keeps)
  let vl := if fits then Nat.min (avl.getD (h.csr csrVl).toNat) max else 0
  let h1 := (h.setCsr csrVtype (if fits then BitVec.ofNat 64 t else 0x8000000000000000)).setCsr csrVl (BitVec.ofNat 64 vl)
  h1.setReg rd (BitVec.ofNat 64 vl)

/-- A word that sets the configuration: its rd takes the new vl. -/
def Hart.vset (h : Hart) (w : Word) : Option Hart :=
  let rd := rvRd w
  let fromReg : Option Nat :=
    if rvRs1 w ≠ 0 then some (h.reg (rvRs1 w)).toNat else if rd ≠ 0 then some (2 ^ 64 - 1) else none
  if !w.getLsbD 31 then some (h.setVtype rd (bitsOf w 30 20) fromReg)
  else if w.getLsbD 30 then some (h.setVtype rd (bitsOf w 29 20) (some (rvRs1 w)))
  else if bitsOf w 30 25 = 0 then some (h.setVtype rd (h.reg (rvRs2 w)).toNat fromReg)
  else none

/-! ### Groups of registers and their elements -/

/-- A group of registers that a word names: its first register, its size in eighths of a register and the width of its elements, 1 for a
mask. -/
structure VGroup where
  reg : Nat
  emul : Nat
  eew : Nat
  deriving DecidableEq, Repr

/-- The registers that a group takes. -/
def VGroup.count (g : VGroup) : Nat := Nat.max (g.emul / 8) 1
def VGroup.regs (g : VGroup) : List Nat := (List.range g.count).map fun i => g.reg + i

/-- A group that there is: of 1/8 to 8 registers, aligned to its size, within the 32, with elements of 8 to 64 bits or a mask's. -/
def VGroup.ok (g : VGroup) : Bool :=
  decide (1 ≤ g.emul) && decide (g.emul ≤ 64) && g.reg % g.count == 0 && decide (g.reg + g.count ≤ 32) && [1, 8, 16, 32, 64].contains g.eew

/-- A mask register, and a register that holds one element. -/
def maskGroup (r : Nat) : VGroup := { reg := r, emul := 8, eew := 1 }
def scalarGroup (r eew : Nat) : VGroup := { reg := r, emul := 8, eew := eew }

/-- A destination and a source may overlap: with elements of one width anywhere; a narrower destination in the lowest register of the source;
a wider one in its own highest registers, over a whole register or more. -/
def mayOverlap (d g : VGroup) : Bool :=
  if d.reg + d.count ≤ g.reg ∨ g.reg + g.count ≤ d.reg ∨ d.eew = g.eew then true
  else if d.eew < g.eew then d.reg == g.reg
  else decide (8 ≤ g.emul) && g.reg + g.count == d.reg + d.count

def VGroup.apart (d g : VGroup) : Bool := decide (d.reg + d.count ≤ g.reg) || decide (g.reg + g.count ≤ d.reg)

/-- Element i of the registers from one on, and a write of it. -/
def Hart.vel (h : Hart) (reg eew i : Nat) : Nat := natOfBytes ((List.range (eew / 8)).map fun b => tblGet 0 h.v (32 * reg + i * (eew / 8) + b))
def Hart.setVel (h : Hart) (reg eew i v : Nat) : Hart := h.setVbytes (32 * reg + i * (eew / 8)) (bytesOf (eew / 8) v)

/-- Bit i of a mask register, and a write of it. -/
def Hart.vbit (h : Hart) (reg i : Nat) : Bool := (tblGet 0 h.v (32 * reg + i / 8)).getLsbD (i % 8)
def Hart.setVbit (h : Hart) (reg i : Nat) (b : Bool) : Hart :=
  let k := 32 * reg + i / 8
  let bit : Byte := 1#8 <<< (i % 8)
  { h with v := tblSet 0 h.v k (if b then tblGet 0 h.v k ||| bit else tblGet 0 h.v k &&& ~~~bit) }

/-- Element i becomes agnostic: each byte stays or takes ones (Config.agnosticOnes). num is the number of the word. -/
def Hart.blurEl (h : Hart) (num reg eew i : Nat) : Hart :=
  (List.range (eew / 8)).foldl (fun t b =>
    let k := 32 * reg + i * (eew / 8) + b
    if Config.agnosticOnes num k then { t with v := tblSet 0 t.v k 0xFF } else t) h
def Hart.blurBit (h : Hart) (num reg i : Nat) : Hart :=
  if Config.agnosticOnes num (1024 + 256 * reg + i) then h.setVbit reg i true else h

/-! ### What a word does to each element -/

/-- What an element of the destination becomes: a value with flags (bit 5 is vxsat), or nothing. -/
abbrev LaneFn := Hart → Nat → Option (Nat × Nat)

/-- RUN a word over the elements of its destination from vstart on: a body element that is active takes its value, one that is masked off may be
agnostic, and so may one beyond vl. Nothing happens where vstart is not below vl. -/
def Hart.overLanes (h : Hart) (c : VCfg) (num : Nat) (masked : Bool) (d : VGroup) (lane : LaneFn) : Hart × Nat :=
  if c.vl ≤ c.vstart then (h, 0)
  else
    (List.range (if d.eew = 1 then 256 else 256 * d.count / d.eew)).foldl (fun acc i =>
      let t := acc.1
      let blur (on : Bool) : Hart × Nat := if on then (if d.eew = 1 then t.blurBit num d.reg i else t.blurEl num d.reg d.eew i, acc.2) else acc
      if i < c.vstart then acc
      else if c.vl ≤ i then blur (c.ta || d.eew == 1)
      else if masked && !h.vbit 0 i then blur c.ma
      else
        match lane h i with
        | some (v, fl) => (if d.eew = 1 then t.setVbit d.reg i (v % 2 == 1) else t.setVel d.reg d.eew i v, acc.2 ||| fl)
        | none => acc) (h, 0)

/-- The flags of a word: fflags, and vxsat in bit 5. -/
def Hart.addFlags (h : Hart) (fl : Nat) : Hart :=
  let h1 := if fl % 32 = 0 then h else h.setCsr csrFflags (h.csr csrFflags ||| BitVec.ofNat 64 (fl % 32))
  if fl / 32 % 2 = 1 then h1.setCsr csrVxsat 1 else h1

/-- A vector word: the registers that it reads and writes, and what it does to a hart whose sources stand. strict says that the destination may
overlap no source, masked that it takes v0 as its mask, single that it writes one element, fp that it needs the floating-point unit, fromStart
that it may not begin at an element other than the first. -/
structure VWord where
  dst : Option VGroup := none
  srcs : List VGroup := []
  masked : Bool := false
  strict : Bool := false
  single : Bool := false
  srcX : List Nat := []
  srcF : List Nat := []
  dstX : Option Nat := none
  dstF : Option Nat := none
  fp : Bool := false
  fromStart : Bool := false
  run : Hart → Hart

/-- The word is not reserved: its groups are there and overlap as they may, and a masked destination other than a mask or a single element
is not v0. -/
def VWord.ok (x : VWord) (c : VCfg) : Bool :=
  x.srcs.all VGroup.ok && !(x.fromStart && c.vstart != 0)
    && (match x.dst with
      | none => true
      | some d => d.ok && (x.single || x.srcs.all fun g => if x.strict then d.apart g else mayOverlap d g)
          && !(x.masked && !x.single && (d.eew != 1 || x.strict) && d.reg == 0))

/-! ### Integer operations on elements -/

/-- A value of some bits. -/
def cut (bits : Nat) (v : Int) : Nat := (v % (2 : Int) ^ bits).toNat

/-- A number shifted right by some bits and rounded by vxrm: 0 to nearest up, 1 to nearest even, 2 down, 3 to odd. -/
def roundOff (vxrm : Nat) (v : Int) (d : Nat) : Int :=
  if d = 0 then v
  else
    let q := v / (2 : Int) ^ d
    let low := (v % (2 : Int) ^ d).toNat
    let half := 2 ^ (d - 1)
    let up := match vxrm with
      | 0 => decide (half ≤ low)
      | 1 => decide (half < low) || (low == half && q % 2 == 1)
      | 2 => false
      | _ => q % 2 == 0 && low != 0
    if up then q + 1 else q

/-- A number held within some bits, and whether that changed it (vxsat). -/
def saturate (signed : Bool) (bits : Nat) (v : Int) : Nat × Nat :=
  let lo : Int := if signed then -(2 : Int) ^ (bits - 1) else 0
  let hi : Int := if signed then (2 : Int) ^ (bits - 1) - 1 else (2 : Int) ^ bits - 1
  if v < lo then (cut bits lo, 32) else if hi < v then (cut bits hi, 32) else (cut bits v, 0)

def rotateRight (bits v k : Nat) : Nat := (v / 2 ^ (k % bits) + v * 2 ^ (bits - k % bits)) % 2 ^ bits

def rvReverse (bits v : Nat) : Nat := (List.range bits).foldl (fun r i => 2 * r + v / 2 ^ i % 2) 0
def mapBytes (bits : Nat) (g : Nat → Nat) (v : Nat) : Nat := natOfBytes ((bytesOf (bits / 8) v).map fun b => BitVec.ofNat 8 (g b.toNat))

/-- An operation of OPIVV, OPIVX and OPIVI on elements of one width: a of vs2, b of vs1, the register or the immediate. -/
def intLane (f6 sew vxrm a b : Nat) : Option (Nat × Nat) :=
  let sa := signedOf sew a
  let sb := signedOf sew b
  let k := b % sew
  let plain (v : Nat) : Option (Nat × Nat) := some (v % 2 ^ sew, 0)
  match f6 with
  | 0x00 => plain (a + b)
  | 0x01 => plain (a - Nat.land a b)
  | 0x02 => some (cut sew (a - b : Int), 0)
  | 0x03 => some (cut sew (b - a : Int), 0)
  | 0x04 => plain (Nat.min a b)
  | 0x05 => plain (if sa ≤ sb then a else b)
  | 0x06 => plain (Nat.max a b)
  | 0x07 => plain (if sa ≤ sb then b else a)
  | 0x09 => plain (Nat.land a b)
  | 0x0A => plain (Nat.lor a b)
  | 0x0B => plain (Nat.xor a b)
  | 0x14 => plain (rotateRight sew a b)
  | 0x15 => plain (rotateRight sew a (sew - k))
  | 0x20 => some (saturate false sew (a + b))
  | 0x21 => some (saturate true sew (sa + sb))
  | 0x22 => some (saturate false sew (a - b : Int))
  | 0x23 => some (saturate true sew (sa - sb))
  | 0x25 => plain (a * 2 ^ k)
  | 0x27 => some (saturate true sew (roundOff vxrm (sa * sb) (sew - 1)))
  | 0x28 => plain (a / 2 ^ k)
  | 0x29 => some (cut sew (sa / (2 : Int) ^ k), 0)
  | 0x2A => some (cut sew (roundOff vxrm a k), 0)
  | 0x2B => some (cut sew (roundOff vxrm sa k), 0)
  | _ => none

/-- A comparison of elements. -/
def compareLane (f6 sew a b : Nat) : Option Bool :=
  let sa := signedOf sew a
  let sb := signedOf sew b
  match f6 with
  | 0x18 => some (a == b)
  | 0x19 => some (a != b)
  | 0x1A => some (decide (a < b))
  | 0x1B => some (decide (sa < sb))
  | 0x1C => some (decide (a ≤ b))
  | 0x1D => some (decide (sa ≤ sb))
  | 0x1E => some (decide (b < a))
  | 0x1F => some (decide (sb < sa))
  | _ => none

/-- Add and subtract with a carry, and the carry out. -/
def carryLane (f6 sew a b c : Nat) : Nat :=
  match f6 with
  | 0x10 => (a + b + c) % 2 ^ sew
  | 0x11 => (a + b + c) / 2 ^ sew
  | 0x12 => cut sew ((a : Int) - b - c)
  | _ => if (a : Int) - b - c < 0 then 1 else 0

/-- A narrowing operation: a is twice as wide as the result. -/
def narrowLane (f6 sew vxrm a b : Nat) : Option (Nat × Nat) :=
  let k := b % (2 * sew)
  match f6 with
  | 0x2C => some (a / 2 ^ k % 2 ^ sew, 0)
  | 0x2D => some (cut sew (signedOf (2 * sew) a / (2 : Int) ^ k), 0)
  | 0x2E => some (saturate false sew (roundOff vxrm a k))
  | 0x2F => some (saturate true sew (roundOff vxrm (signedOf (2 * sew) a) k))
  | _ => none

/-- An operation of OPMVV and OPMVX on elements of one width; c is the old element of vd. -/
def multLane (f6 sew vxrm a b c : Nat) : Option (Nat × Nat) :=
  let sa := signedOf sew a
  let sb := signedOf sew b
  let sc := signedOf sew c
  let plain (v : Int) : Option (Nat × Nat) := some (cut sew v, 0)
  match f6 with
  | 0x08 => plain (roundOff vxrm (a + b) 1)
  | 0x09 => plain (roundOff vxrm (sa + sb) 1)
  | 0x0A => plain (roundOff vxrm (a - b : Int) 1)
  | 0x0B => plain (roundOff vxrm (sa - sb) 1)
  | 0x20 => plain (if b = 0 then -1 else (a / b : Nat))
  | 0x21 => plain (if b = 0 then -1 else Int.tdiv sa sb)
  | 0x22 => plain (if b = 0 then a else (a % b : Nat))
  | 0x23 => plain (if b = 0 then sa else Int.tmod sa sb)
  | 0x24 => plain (a * b / 2 ^ sew : Nat)
  | 0x25 => plain (a * b : Nat)
  | 0x26 => plain (sa * b / (2 : Int) ^ sew)
  | 0x27 => plain (sa * sb / (2 : Int) ^ sew)
  | 0x29 => plain (sb * sc + sa)
  | 0x2B => plain (sa - sb * sc)
  | 0x2D => plain (sb * sa + sc)
  | 0x2F => plain (sc - sb * sa)
  | _ => none

/-- A widening operation: the result is twice as wide as b, and for 0x34 to 0x37 as a is too; c is the old element of vd. -/
def widenLane (f6 sew a b c : Nat) : Option Nat :=
  let sa := signedOf sew a
  let sb := signedOf sew b
  let out (v : Int) : Option Nat := some (cut (2 * sew) v)
  match f6 with
  | 0x30 => out (a + b : Nat)
  | 0x31 => out (sa + sb)
  | 0x32 => out ((a : Int) - b)
  | 0x33 => out (sa - sb)
  | 0x34 => out (a + b : Nat)
  | 0x35 => out (a + sb)
  | 0x36 => out ((a : Int) - b)
  | 0x37 => out (a - sb)
  | 0x38 => out (a * b : Nat)
  | 0x3A => out (sa * b)
  | 0x3B => out (sa * sb)
  | 0x3C => out (a * b + c : Nat)
  | 0x3D => out (sa * sb + c)
  | 0x3E => out (sa * b + c)
  | 0x3F => out (a * sb + c)
  | _ => none

/-- The step of an integer reduction. -/
def reduceLane (f6 sew acc a : Nat) : Nat :=
  match f6 with
  | 0 => (acc + a) % 2 ^ sew
  | 1 => Nat.land acc a
  | 2 => Nat.lor acc a
  | 3 => Nat.xor acc a
  | 4 => Nat.min acc a
  | 5 => if signedOf sew acc ≤ signedOf sew a then acc else a
  | 6 => Nat.max acc a
  | _ => if signedOf sew acc ≤ signedOf sew a then a else acc

/-- An operation of one operand by the number in vs1: extensions are by themselves. -/
def unaryLane (k sew a : Nat) : Option Nat :=
  match k with
  | 8 => some (mapBytes sew (rvReverse 8) a)
  | 9 => some (natOfBytes (bytesOf (sew / 8) a).reverse)
  | 10 => some (rvReverse sew a)
  | 12 => some (clzOf sew a)
  | 13 => some (ctzOf sew a)
  | 14 => some (popOf sew a)
  | _ => none

/-- An operation of two masks. -/
def maskLane (f6 : Nat) (a b : Bool) : Bool :=
  match f6 with
  | 0x18 => a && !b
  | 0x19 => a && b
  | 0x1A => a || b
  | 0x1B => a != b
  | 0x1C => a || !b
  | 0x1D => !(a && b)
  | 0x1E => !(a || b)
  | _ => a == b

end Sys2Proof.Machine
end

