-- ==== Sys2Proof/Machine/HartVecOps.lean ====
section
/-! DEFINITION. The vector words of the host-die harts without memory (opcode 0x57): each as the registers that it uses and what it does (R340; log
149, PRESUMED). -/

namespace Sys2Proof.Machine

/-! ### Floating-point operations on elements -/

/-- The format of elements of a width, for arithmetic. -/
def vfFormat (sew : Nat) : Option FpFormat := if sew = 32 then some fp32 else if sew = 64 then some fp64 else none

/-- An operation of OPFVV and OPFVF: a of vs2, b of vs1 or the register, c the old element of vd. -/
def vfLane (f6 : Nat) (f : FpFormat) (mode a b c : Nat) : Option (Nat × Nat) :=
  let va := f.decode a
  let vb := f.decode b
  let vc := f.decode c
  match f6 with
  | 0x00 => some (rvAdd f mode va vb)
  | 0x02 => some (rvAdd f mode va vb.negate)
  | 0x04 => some (rvMinMax f false true a b)
  | 0x06 => some (rvMinMax f true true a b)
  | 0x08 => some (rvSignInject f 0 a b, 0)
  | 0x09 => some (rvSignInject f 1 a b, 0)
  | 0x0A => some (rvSignInject f 2 a b, 0)
  | 0x20 => some (rvQuotient f mode va vb)
  | 0x21 => some (rvQuotient f mode vb va)
  | 0x24 => some (rvMul f mode va vb)
  | 0x27 => some (rvAdd f mode vb va.negate)
  | 0x28 => some (rvFma f mode vb vc va)
  | 0x29 => some (rvFma f mode vb.negate vc va.negate)
  | 0x2A => some (rvFma f mode vb vc va.negate)
  | 0x2B => some (rvFma f mode vb.negate vc va)
  | 0x2C => some (rvFma f mode vb va vc)
  | 0x2D => some (rvFma f mode vb.negate va vc.negate)
  | 0x2E => some (rvFma f mode vb va vc.negate)
  | 0x2F => some (rvFma f mode vb.negate va vc)
  | _ => none

/-- The words of vfLane that have only a register operand. -/
def vfScalarOnly (f6 : Nat) : Bool := f6 == 0x21 || f6 == 0x27

/-- A widening operation: f narrow, g wide; for 0x34 and 0x36 a is wide; c is the old element of vd. -/
def vfWiden (f6 : Nat) (f g : FpFormat) (mode a b c : Nat) : Option (Nat × Nat) :=
  let va := (if f6 = 0x34 ∨ f6 = 0x36 then g else f).decode a
  let vb := f.decode b
  let vc := g.decode c
  match f6 with
  | 0x30 | 0x34 => some (rvAdd g mode va vb)
  | 0x32 | 0x36 => some (rvAdd g mode va vb.negate)
  | 0x38 => some (rvMul g mode va vb)
  | 0x3C => some (rvFma g mode vb va vc)
  | 0x3D => some (rvFma g mode vb.negate va vc.negate)
  | 0x3E => some (rvFma g mode vb va vc.negate)
  | 0x3F => some (rvFma g mode vb.negate va vc)
  | _ => none

/-- A comparison of floating-point elements. -/
def vfCompare (f6 : Nat) (f : FpFormat) (a b : Nat) : Option (Bool × Nat) :=
  let va := f.decode a
  let vb := f.decode b
  match f6 with
  | 0x18 => some (rvCompare 2 true va vb)
  | 0x19 => some (rvCompare 0 false va vb)
  | 0x1B => some (rvCompare 1 false va vb)
  | 0x1C => some (!(rvCompare 2 true va vb).1, (rvCompare 2 true va vb).2)
  | 0x1D => some (rvCompare 1 false vb va)
  | 0x1F => some (rvCompare 0 false vb va)
  | _ => none

/-- The 7-bit estimate of 1 / x for the i-th of 128 intervals of [1, 2), rounded to nearest at the interval's middle. -/
def recipSeven (i : Nat) : Nat := (256 * (255 - 2 * i) + (257 + 2 * i)) / (2 * (257 + 2 * i))

/-- The 7-bit estimate of 1 / sqrt(x) for the i-th of 64 intervals of [1, 2), or of [2, 4) where the exponent's last bit is 0. -/
def rsqrtSeven (odd : Bool) (i : Nat) : Nat := (Nat.sqrt (33554432 / ((129 + 2 * i) * (if odd then 1 else 2))) + 1) / 2 - 128

/-- The exponent field of a nonzero finite value with its leading bit moved to its place, and its fraction. -/
def FpFormat.normal (f : FpFormat) (m : Nat) (e : Int) : Int × Nat :=
  let lead := Nat.log2 m
  (e + lead + f.bias, m * 2 ^ (f.mb - lead) % 2 ^ f.mb)

/-- vfrec7: an estimate of the reciprocal. -/
def vfRec7 (f : FpFormat) (mode a : Nat) : Nat × Nat :=
  match f.decode a with
  | .nan s => (f.canon, nvIf s)
  | .inf neg => (f.sign neg, 0)
  | .fin neg m e =>
    if m = 0 then (f.infBits neg, flagDz)
    else
      let x := f.normal m e
      let out : Int := 2 * f.bias - 1 - x.1
      if x.1 < -1 then (f.overflowBits .ieee mode neg, flagOf + flagNx)
      else
        let frac := recipSeven (x.2 / 2 ^ (f.mb - 7)) * 2 ^ (f.mb - 7)
        if 0 < out then (f.sign neg + out.toNat * 2 ^ f.mb + frac, 0)
        else if out = 0 then (f.sign neg + (2 ^ f.mb + frac) / 2, 0)
        else (f.sign neg + (2 ^ f.mb + frac) / 4, 0)

/-- vfrsqrt7: an estimate of the reciprocal square root. -/
def vfRsqrt7 (f : FpFormat) (a : Nat) : Nat × Nat :=
  match f.decode a with
  | .nan s => (f.canon, nvIf s)
  | .inf neg => if neg then (f.canon, flagNv) else (0, 0)
  | .fin neg m e =>
    if m = 0 then (f.infBits neg, flagDz)
    else if neg then (f.canon, flagNv)
    else
      let x := f.normal m e
      let out := ((3 * f.bias - 1 - x.1) / 2).toNat
      (out * 2 ^ f.mb + rsqrtSeven (x.1 % 2 == 1) (x.2 / 2 ^ (f.mb - 6)) * 2 ^ (f.mb - 7), 0)

/-- A conversion of elements: the widths of source and destination in bits, and what becomes of an element. -/
structure VConvert where
  srcBits : Nat
  dstBits : Nat
  fn : Nat → Nat × Nat

/-- The format of a conversion's operand, half precision only from and to single. -/
def vcFormat (bits : Nat) : FpFormat := if bits = 16 then fp16 else if bits = 32 then fp32 else fp64

/-- A conversion by the number in vs1 (VFUNARY0): of one width, widening and narrowing. -/
def vfConvert (k sew mode : Nat) : Option VConvert :=
  let kind := k % 8
  let src := if k < 16 then sew else 2 * sew
  let dst := if k / 8 = 1 then 2 * sew else sew
  let fs := vcFormat src
  let fd := vcFormat dst
  let floatSrc := src == 32 || src == 64
  let floatDst := dst == 32 || dst == 64
  let toInt (signed : Bool) (mode : Nat) : Option VConvert :=
    if floatSrc && decide (8 ≤ dst) && decide (dst ≤ 64) then some ⟨src, dst, fun a => rvToInt dst signed mode (fs.decode a)⟩ else none
  let ofInt (signed : Bool) : Option VConvert :=
    if floatDst && decide (src ≤ 64) && decide (8 ≤ src) then
      some ⟨src, dst, fun a => rvOfInt fd mode (if signed then signedOf src a else (a : Nat))⟩ else none
  if 24 ≤ k then none
  else
    match kind with
    | 0 => toInt false mode
    | 1 => toInt true mode
    | 2 => ofInt false
    | 3 => ofInt true
    | 4 => if (k = 12 ∧ (sew = 16 ∨ sew = 32)) ∨ (k = 20 ∧ (sew = 16 ∨ sew = 32)) then
        some ⟨src, dst, fun a => rvConvert fd mode (fs.decode a)⟩ else none
    | 5 => if k = 21 ∧ sew = 32 then
        some ⟨src, dst, fun a => match fs.decode a with
          | .fin neg m e => rvRoundOdd fd neg m e
          | v => rvConvert fd 1 v⟩ else none
    | 6 => toInt false 1
    | _ => toInt true 1

/-- The operation of one operand (VFUNARY1). -/
def vfUnary (k : Nat) (f : FpFormat) (mode a : Nat) : Option (Nat × Nat) :=
  match k with
  | 0 => some (rvSqrt f mode (f.decode a))
  | 4 => some (vfRsqrt7 f a)
  | 5 => some (vfRec7 f mode a)
  | 16 => some (rvClass f a, 0)
  | _ => none

/-- The step of a floating-point reduction. -/
def vfReduce (f6 : Nat) (f : FpFormat) (mode acc a : Nat) : Nat × Nat :=
  match f6 with
  | 5 => rvMinMax f false true acc a
  | 7 => rvMinMax f true true acc a
  | _ => rvAdd f mode (f.decode acc) (f.decode a)

/-! ### The second operand -/

/-- The second operand of a word: the group, registers and values that it comes from. An immediate is signed or not. -/
structure VSecond where
  groups : List VGroup := []
  xs : List Nat := []
  fs : List Nat := []
  value : Hart → Nat → Nat

/-- By funct3: 0 to 2 a vector, 3 an immediate, 4 and 6 an integer register, 5 a floating-point register; elements of some width in a group
of some size. -/
def vSecond (w : Word) (emul eew : Nat) (signed : Bool) : VSecond :=
  let r := rvRs1 w
  match rvF3 w with
  | 3 => { value := fun _ _ => if signed then cut eew (signedOf 5 r) else r }
  | 4 | 6 => { xs := [r], value := fun h _ => (h.reg r).toNat % 2 ^ eew }
  | 5 => { fs := [r], value := fun h _ => h.fval (vcFormat eew) r }
  | _ => { groups := [{ reg := r, emul := emul, eew := eew }], value := fun h i => h.vel r eew i }

def VSecond.isVector (b : VSecond) : Bool := !b.groups.isEmpty

/-! ### Words over elements -/

/-- A word that gives each element of its destination a value. -/
def laneWord (c : VCfg) (num : Nat) (masked : Bool) (d : VGroup) (srcs : List VGroup) (b : VSecond) (lane : LaneFn) : VWord :=
  { dst := some d, srcs := srcs ++ b.groups, masked := masked, srcX := b.xs, srcF := b.fs
    run := fun h => let r := h.overLanes c num masked d lane; r.1.addFlags r.2 }

/-- The groups of a word's vd and vs2 in elements of the configuration. -/
def vdGroup (c : VCfg) (w : Word) : VGroup := { reg := rvRd w, emul := c.lmul, eew := c.sew }
def vs2Group (c : VCfg) (w : Word) : VGroup := { reg := rvRs2 w, emul := c.lmul, eew := c.sew }
/-- The same with elements and group twice as wide. -/
def VGroup.wide (g : VGroup) : VGroup := { g with emul := 2 * g.emul, eew := 2 * g.eew }

/-- What a word does with its first active element number on, as a scalar at element 0 of vd: the elements beyond are tail. -/
def Hart.writeScalar (h : Hart) (c : VCfg) (num reg eew v : Nat) : Hart :=
  if c.vl ≤ c.vstart then h
  else
    (List.range (256 / eew - 1)).foldl (fun t i => if c.ta then t.blurEl num reg eew (i + 1) else t) (h.setVel reg eew 0 v)

/-- A reduction: from element 0 of vs1 over the active elements of vs2. -/
def reduceWord (c : VCfg) (num : Nat) (w : Word) (masked : Bool) (eew : Nat) (value : Nat → Nat) (step : Nat → Nat → Nat × Nat) : VWord :=
  { dst := some (scalarGroup (rvRd w) eew), srcs := [scalarGroup (rvRs1 w) eew, vs2Group c w], masked := masked, single := true, fromStart := true
    run := fun h =>
      let r := (List.range c.vl).foldl (fun acc i =>
        if masked && !h.vbit 0 i then acc
        else
          let x := step acc.1 (value (h.vel (rvRs2 w) c.sew i))
          (x.1, acc.2 ||| x.2)) (h.vel (rvRs1 w) eew 0, 0)
      (h.writeScalar c num (rvRd w) eew r.1).addFlags r.2 }

/-- The element of vs2 at an index, 0 beyond the group. -/
def gathered (h : Hart) (c : VCfg) (w : Word) (k : Nat) : Nat := if vlmaxOf c.sew c.lmul ≤ k then 0 else h.vel (rvRs2 w) c.sew k

/-- A permutation: element i of vd is the element of vs2 at an index, or stays. -/
def permuteWord (c : VCfg) (num : Nat) (w : Word) (masked strict : Bool) (b : VSecond) (lane : LaneFn) : VWord :=
  { (laneWord c num masked (vdGroup c w) [vs2Group c w] b lane) with strict := strict }

/-- The offset of a slide and the index of a gather: a whole register, or an immediate without sign. -/
def wholeSecond (w : Word) : VSecond :=
  if rvF3 w = 3 then { value := fun _ _ => rvRs1 w } else { xs := [rvRs1 w], value := fun h _ => (h.reg (rvRs1 w)).toNat }

/-- Copies of whole registers, whatever vl holds. -/
def moveWord (c : VCfg) (w : Word) (n : Nat) : VWord :=
  { dst := some { reg := rvRd w, emul := 8 * n, eew := c.sew }, srcs := [{ reg := rvRs2 w, emul := 8 * n, eew := c.sew }]
    run := fun h =>
      let first := c.vstart * (c.sew / 8)
      h.setVbytes (32 * rvRd w + first) ((List.range (32 * n - first)).map fun i => tblGet 0 h.v (32 * rvRs2 w + first + i)) }

/-- The integer words of OPIVV, OPIVI and OPIVX. -/
def vIntWord (c : VCfg) (num : Nat) (h0 : Hart) (w : Word) : Option VWord :=
  let f6 := bitsOf w 31 26
  let form := rvF3 w
  let masked := !w.getLsbD 25
  let vxrm := (h0.csr csrVxrm).toNat
  let d := vdGroup c w
  let a := vs2Group c w
  let unsignedImm := f6 == 0x14 || f6 == 0x15 || decide (0x25 ≤ f6)
  let b := vSecond w c.lmul c.sew (!unsignedImm)
  let allowed := match form with
    | 0 => f6 != 0x03
    | 3 => ! [0x01, 0x02, 0x04, 0x05, 0x06, 0x07, 0x22, 0x23].contains f6
    | _ => true
  if 0x18 ≤ f6 ∧ f6 ≤ 0x1F then
    (if (form = 0 ∧ 0x1E ≤ f6) ∨ (form = 3 ∧ (f6 = 0x1A ∨ f6 = 0x1B)) then none
      else some (laneWord c num masked (maskGroup (rvRd w)) [a] b fun h i =>
        (compareLane f6 c.sew (h.vel a.reg c.sew i) (b.value h i)).map fun x => (bitNat x, 0)))
  else if 0x10 ≤ f6 ∧ f6 ≤ 0x13 then
    (if (f6 % 2 = 0 ∧ (masked = false ∨ rvRd w = 0)) ∨ (form = 3 ∧ 0x12 ≤ f6) then none
      else
        let out := if f6 % 2 = 1 then maskGroup (rvRd w) else d
        some { (laneWord c num false out [a] b fun h i =>
          some (carryLane f6 c.sew (h.vel a.reg c.sew i) (b.value h i) (bitNat (masked && h.vbit 0 i)), 0)) with
            srcs := [a] ++ b.groups ++ (if masked then [maskGroup 0] else []) })
  else if f6 = 0x17 then
    (if masked then
      (if rvRd w = 0 then none
        else some { (laneWord c num false d [a] b fun h i => some (if h.vbit 0 i then b.value h i else h.vel a.reg c.sew i, 0)) with
          srcs := [a] ++ b.groups ++ [maskGroup 0] })
      else if rvRs2 w = 0 then some (laneWord c num false d [] b fun h i => some (b.value h i, 0)) else none)
  else if f6 = 0x0C then
    (
      let ix := if form = 0 then vSecond w c.lmul c.sew false else wholeSecond w
      some (permuteWord c num w masked true ix fun h i => some (gathered h c w (ix.value h i), 0)))
  else if f6 = 0x0E then
    (if form = 0 then
      let ix := vSecond w (16 * c.lmul / c.sew) 16 false
      some (permuteWord c num w masked true ix fun h i => some (gathered h c w (ix.value h i), 0))
      else
        let shift := wholeSecond w
        some (permuteWord c num w masked true shift fun h i =>
          if i < shift.value h 0 then none else some (h.vel a.reg c.sew (i - shift.value h 0), 0)))
  else if f6 = 0x0F then
    (if form = 0 then none
      else
        let shift := wholeSecond w
        some (permuteWord c num w masked false shift fun h i => some (gathered h c w (i + shift.value h 0), 0)))
  else if f6 = 0x30 ∨ f6 = 0x31 then
    (if form ≠ 0 ∨ 32 < c.sew then none
      else some (reduceWord c num w masked (2 * c.sew) (fun v => if f6 = 0x31 then cut (2 * c.sew) (signedOf c.sew v) else v)
        fun acc v => ((acc + v) % 2 ^ (2 * c.sew), 0)))
  else if 0x2C ≤ f6 ∧ f6 ≤ 0x2F then
    (if 32 < c.sew then none
      else some (laneWord c num masked d [a.wide] b fun h i => narrowLane f6 c.sew vxrm (h.vel a.reg (2 * c.sew) i) (b.value h i)))
  else if f6 = 0x35 then
    (if 32 < c.sew then none
      else some (laneWord c num masked d.wide [a] b fun h i =>
        some (h.vel a.reg c.sew i * 2 ^ (b.value h i % (2 * c.sew)) % 2 ^ (2 * c.sew), 0)))
  else if f6 = 0x27 ∧ form = 3 then
    (if masked = false ∧ [0, 1, 3, 7].contains (rvRs1 w) then some (moveWord c w (rvRs1 w + 1)) else none)
  else if form = 3 ∧ f6 = 0x15 then
    some (laneWord c num masked d [a] b fun h i => intLane 0x14 c.sew vxrm (h.vel a.reg c.sew i) (32 + rvRs1 w))
  else if allowed && (intLane f6 c.sew 0 0 0).isSome then
    some (laneWord c num masked d [a] b fun h i => intLane f6 c.sew vxrm (h.vel a.reg c.sew i) (b.value h i))
  else none

/-- The first active element of vs2 that is set. -/
def firstSet (h : Hart) (c : VCfg) (w : Word) (masked : Bool) : Option Nat :=
  (List.range c.vl).find? fun i => (!masked || h.vbit 0 i) && h.vbit (rvRs2 w) i

/-- The words of OPMVV and OPMVX whose vs1 or vs2 says what they do: scalar moves, counts, extensions, masks up to the first set, iota, index,
compress. -/
def vUnaryWord (c : VCfg) (num : Nat) (w : Word) : Option VWord :=
  let f6 := bitsOf w 31 26
  let masked := !w.getLsbD 25
  let k := rvRs1 w
  let d := vdGroup c w
  let a := vs2Group c w
  let nothing : VSecond := { value := fun _ _ => 0 }
  let vector := rvF3 w == 2
  let toX (v : Hart → Dword) (mask : Bool) : VWord :=
    { srcs := [if mask then maskGroup (rvRs2 w) else scalarGroup (rvRs2 w) c.sew], masked := masked, dstX := some (rvRd w), fromStart := mask
      run := fun h => h.setReg (rvRd w) (v h) }
  let upTo (g : Nat → Nat → Bool) : VWord :=
    { (laneWord c num masked (maskGroup (rvRd w)) [maskGroup (rvRs2 w)] nothing fun h i =>
        some (bitNat ((firstSet h c w masked).elim (g i c.vl) (g i)), 0)) with strict := true, fromStart := true }
  match f6 with
  | 0x10 =>
    if !vector then
      (if rvRs2 w = 0 ∧ masked = false then
        some { dst := some (scalarGroup (rvRd w) c.sew), single := true, srcX := [k]
               run := fun h => h.writeScalar c num (rvRd w) c.sew ((h.reg k).toNat % 2 ^ c.sew) }
        else none)
    else
      (match k with
        | 0 => if masked then none else some (toX (fun h => dwordOfInt (signedOf c.sew (h.vel (rvRs2 w) c.sew 0))) false)
        | 16 => some (toX (fun h => BitVec.ofNat 64 ((List.range c.vl).filter fun i => (!masked || h.vbit 0 i) && h.vbit (rvRs2 w) i).length) true)
        | 17 => some (toX (fun h => ((firstSet h c w masked).map fun i => BitVec.ofNat 64 i).getD csrOnes) true)
        | _ => none)
  | 0x12 =>
    if !vector then none
    else if 2 ≤ k ∧ k ≤ 7 then
      (
        let n := 2 ^ (4 - k / 2)
        if c.sew / n < 8 ∨ c.lmul / n = 0 then none
        else some (laneWord c num masked d [{ reg := rvRs2 w, emul := c.lmul / n, eew := c.sew / n }] nothing fun h i =>
          let v := h.vel (rvRs2 w) (c.sew / n) i
          some (if k % 2 = 1 then cut c.sew (signedOf (c.sew / n) v) else v, 0)))
    else if (unaryLane k c.sew 0).isSome then
      some (laneWord c num masked d [a] nothing fun h i => (unaryLane k c.sew (h.vel a.reg c.sew i)).map fun v => (v, 0))
    else none
  | 0x14 =>
    if !vector then none
    else
      (match k with
        | 1 => some (upTo fun i first => decide (i < first))
        | 2 => some (upTo fun i first => i == first)
        | 3 => some (upTo fun i first => decide (i ≤ first))
        | 16 => some { (laneWord c num masked d [maskGroup (rvRs2 w)] nothing fun h i =>
            some (((List.range i).filter fun j => (!masked || h.vbit 0 j) && h.vbit (rvRs2 w) j).length, 0)) with strict := true, fromStart := true }
        | 17 => if rvRs2 w = 0 then some (laneWord c num masked d [] nothing fun _ i => some (i, 0)) else none
        | _ => none)
  | 0x17 =>
    if !vector || masked then none
    else
      let picks (h : Hart) : List Nat := (List.range c.vl).filter fun i => h.vbit k i
      some { dst := some d, srcs := [a, maskGroup k], strict := true, fromStart := true
             run := fun h => (h.overLanes { c with vl := (picks h).length } num false d fun h i =>
               ((picks h)[i]?).map fun j => (h.vel a.reg c.sew j, 0)).1 }
  | _ => none

/-- The words of OPMVV and OPMVX. -/
def vMultWord (c : VCfg) (num : Nat) (h0 : Hart) (w : Word) : Option VWord :=
  let f6 := bitsOf w 31 26
  let vector := rvF3 w == 2
  let masked := !w.getLsbD 25
  let vxrm := (h0.csr csrVxrm).toNat
  let d := vdGroup c w
  let a := vs2Group c w
  let b := vSecond w c.lmul c.sew true
  if f6 < 8 then (if vector then some (reduceWord c num w masked c.sew id fun acc v => (reduceLane f6 c.sew acc v, 0)) else none)
  else if 0x18 ≤ f6 ∧ f6 ≤ 0x1F then
    (if vector && !masked then
      some { dst := some (maskGroup (rvRd w)), srcs := [maskGroup (rvRs1 w), maskGroup (rvRs2 w)]
             run := fun h => (h.overLanes c num false (maskGroup (rvRd w)) fun h i =>
               some (bitNat (maskLane f6 (h.vbit (rvRs2 w) i) (h.vbit (rvRs1 w) i)), 0)).1 }
      else none)
  else if f6 = 0x0E ∨ f6 = 0x0F then
    (if vector then none
      else some (permuteWord c num w masked (f6 == 0x0E) b fun h i =>
        if f6 = 0x0E then some (if i = 0 then b.value h i else h.vel a.reg c.sew (i - 1), 0)
        else some (if i + 1 = c.vl then b.value h i else gathered h c w (i + 1), 0)))
  else if 0x30 ≤ f6 then
    (if 32 < c.sew ∨ (f6 = 0x3E ∧ vector = true) ∨ (widenLane f6 c.sew 0 0 0).isNone then none
      else
        let wideA := decide (0x34 ≤ f6) && decide (f6 ≤ 0x37)
        some (laneWord c num masked d.wide (if wideA then [a.wide] else if 0x3C ≤ f6 then [a, d.wide] else [a]) b fun h i =>
          (widenLane f6 c.sew (h.vel a.reg (if wideA then 2 * c.sew else c.sew) i) (b.value h i) (h.vel d.reg (2 * c.sew) i)).map fun v => (v, 0)))
  else if (multLane f6 c.sew 0 0 0 0).isSome then
    some (laneWord c num masked d (if 0x29 ≤ f6 then [a, d] else [a]) b fun h i =>
      multLane f6 c.sew vxrm (h.vel a.reg c.sew i) (b.value h i) (h.vel d.reg c.sew i))
  else vUnaryWord c num w

/-- The words of OPFVV and OPFVF, under a rounding mode. -/
def vFpWord (c : VCfg) (num : Nat) (w : Word) (mode : Nat) : Option VWord :=
  let f6 := bitsOf w 31 26
  let vector := rvF3 w == 1
  let masked := !w.getLsbD 25
  let d := vdGroup c w
  let a := vs2Group c w
  let b := vSecond w c.lmul c.sew true
  let nothing : VSecond := { value := fun _ _ => 0 }
  let floating (x : VWord) : Option VWord := some { x with fp := true }
  if f6 = 0x12 then
    (if !vector then none
      else
        match vfConvert (rvRs1 w) c.sew mode with
        | none => none
        | some v =>
          let group (r bits : Nat) : VGroup := { reg := r, emul := c.lmul * bits / c.sew, eew := bits }
          floating (laneWord c num masked (group (rvRd w) v.dstBits) [group (rvRs2 w) v.srcBits] nothing fun h i => some (v.fn (h.vel (rvRs2 w) v.srcBits i))))
  else
    match vfFormat c.sew with
    | none => none
    | some f =>
      if f6 = 0x13 then
        (if vector && (vfUnary (rvRs1 w) f mode 0).isSome then
          floating (laneWord c num masked d [a] nothing fun h i => vfUnary (rvRs1 w) f mode (h.vel a.reg c.sew i)) else none)
      else if f6 = 0x10 then
        (if masked then none
          else if vector then
            (if rvRs1 w = 0 then
              floating { srcs := [scalarGroup (rvRs2 w) c.sew], dstF := some (rvRd w)
                         run := fun h => h.setFreg (rvRd w) (boxed f (h.vel (rvRs2 w) c.sew 0)) }
              else none)
          else if rvRs2 w = 0 then
            floating { dst := some (scalarGroup (rvRd w) c.sew), single := true, srcF := [rvRs1 w]
                       run := fun h => h.writeScalar c num (rvRd w) c.sew (h.fval f (rvRs1 w)) }
          else none)
      else if [1, 3, 5, 7].contains f6 then
        (if vector then floating (reduceWord c num w masked c.sew id (vfReduce f6 f mode)) else none)
      else if f6 = 0x31 ∨ f6 = 0x33 then
        (if vector && c.sew == 32 then
          floating (reduceWord c num w masked 64 id fun acc v => rvAdd fp64 mode (fp64.decode acc) (fp32.decode v)) else none)
      else if f6 = 0x0E ∨ f6 = 0x0F then
        (if vector then none
          else floating (permuteWord c num w masked (f6 == 0x0E) b fun h i =>
            if f6 = 0x0E then some (if i = 0 then b.value h i else h.vel a.reg c.sew (i - 1), 0)
            else some (if i + 1 = c.vl then b.value h i else gathered h c w (i + 1), 0)))
      else if f6 = 0x17 then
        (if vector then none
          else if masked then
            (if rvRd w = 0 then none
              else floating { (laneWord c num false d [a] b fun h i => some (if h.vbit 0 i then b.value h i else h.vel a.reg c.sew i, 0)) with
                srcs := [a, maskGroup 0] })
          else if rvRs2 w = 0 then floating (laneWord c num false d [] b fun h i => some (b.value h i, 0)) else none)
      else if 0x18 ≤ f6 ∧ f6 ≤ 0x1F then
        (if (vector = true ∧ 0x1D ≤ f6) ∨ (vfCompare f6 f 0 0).isNone then none
          else floating (laneWord c num masked (maskGroup (rvRd w)) [a] b fun h i =>
            (vfCompare f6 f (h.vel a.reg c.sew i) (b.value h i)).map fun x => (bitNat x.1, x.2)))
      else if 0x30 ≤ f6 then
        (if c.sew ≠ 32 ∨ (vfWiden f6 fp32 fp64 mode 0 0 0).isNone then none
          else
            let wideA := f6 == 0x34 || f6 == 0x36
            floating (laneWord c num masked d.wide (if wideA then [a.wide] else if 0x3C ≤ f6 then [a, d.wide] else [a]) b fun h i =>
              vfWiden f6 fp32 fp64 mode (h.vel a.reg (if wideA then 64 else 32) i) (b.value h i) (h.vel d.reg 64 i)))
      else if (vfLane f6 f mode 0 0 0).isNone || (vector && vfScalarOnly f6) then none
      else floating (laneWord c num masked d (if 0x28 ≤ f6 then [a, d] else [a]) b fun h i =>
        vfLane f6 f mode (h.vel a.reg c.sew i) (b.value h i) (h.vel d.reg c.sew i))

/-- A VECTOR WORD of opcode 0x57 other than one that sets the configuration, none where it is reserved. -/
def vWord (h : Hart) (num : Nat) (w : Word) : Option VWord :=
  let c := h.vcfg
  let found := match rvF3 w with
    | 0 | 3 | 4 => vIntWord c num h w
    | 2 | 6 => vMultWord c num h w
    | 1 | 5 => (h.roundingMode 7).bind fun mode => vFpWord c num w mode
    | _ => none
  if h.vill then none else found.filter fun x => x.ok c

end Sys2Proof.Machine
end

