-- ==== Sys2Proof/Machine/HartVecMem.lean ====
section
/-! DEFINITION. The vector loads and stores of the host-die harts (R340; log 149, PRESUMED): which elements they move between which bytes of the
vector registers and which addresses. -/

namespace Sys2Proof.Machine

/-- How a word finds the address of an element of a field. -/
inductive VAddress
  | unit | strided | indexed (g : VGroup)
  deriving DecidableEq, Repr

/-- A vector load or store: the group of a field, the number of fields and of elements, the element that it begins with, its addresses, whether it
takes v0 as its mask, whether its elements go in order, whether only the first element may fault, and whether it moves whole registers or
a mask. -/
structure VMem where
  group : VGroup
  nf : Nat
  n : Nat
  first : Nat
  address : VAddress
  masked : Bool
  ordered : Bool := false
  faultFirst : Bool := false
  whole : Bool := false
  deriving DecidableEq, Repr

/-- The width of elements that bits [14:12] of a load or store name. -/
def vWidth (k : Nat) : Option Nat :=
  match k with
  | 0 => some 8
  | 5 => some 16
  | 6 => some 32
  | 7 => some 64
  | _ => none

/-- The registers of a load or store: those of every field. -/
def VMem.regs (m : VMem) : List Nat := (List.range (m.nf * m.group.count)).map fun i => m.group.reg + i

/-- The groups of its fields are there, and its index group lies as it may. -/
def VMem.ok (m : VMem) (load : Bool) : Bool :=
  m.group.ok && decide (m.nf * m.group.count ≤ 8) && decide (m.group.reg + m.nf * m.group.count ≤ 32)
    && !(load && m.masked && m.group.reg == 0)
    && (match m.address with
      | .indexed g => g.ok && (!load || (if m.nf = 1 then mayOverlap m.group g
          else decide (m.group.reg + m.nf * m.group.count ≤ g.reg) || decide (g.reg + g.count ≤ m.group.reg)))
      | _ => true)

/-- The elements of a width in groups of the configuration: the size of a group in eighths, none where it is no whole number of them. -/
def emulFor (c : VCfg) (eew : Nat) : Option Nat := if eew * c.lmul % c.sew = 0 then some (eew * c.lmul / c.sew) else none

/-- A VECTOR LOAD OR STORE, none where it is reserved. -/
def vMem (h : Hart) (load : Bool) (w : Word) : Option VMem :=
  let c := h.vcfg
  let nf := bitsOf w 31 29 + 1
  let masked := !w.getLsbD 25
  let mop := bitsOf w 27 26
  let unit := rvRs2 w
  match vWidth (rvF3 w) with
  | none => none
  | some eew =>
    let found : Option VMem :=
      if w.getLsbD 28 then none
      else if mop = 0 ∧ unit = 8 then
        (if masked || ! [1, 2, 4, 8].contains nf || (!load && eew != 8) then none
          else some { group := { reg := rvRd w, emul := 8 * nf, eew := eew }, nf := 1, n := 256 * nf / eew, first := c.vstart, address := .unit
                      masked := false, whole := true })
      else if h.vill then none
      else if mop = 0 ∧ unit = 11 then
        (if masked || nf != 1 || eew != 8 then none
          else some { group := { reg := rvRd w, emul := 8, eew := 8 }, nf := 1, n := (c.vl + 7) / 8, first := c.vstart, address := .unit
                      masked := false, whole := true })
      else if mop % 2 = 1 then
        (emulFor c eew).map fun e =>
          { group := { reg := rvRd w, emul := c.lmul, eew := c.sew }, nf := nf, n := c.vl, first := c.vstart
            address := .indexed { reg := rvRs2 w, emul := e, eew := eew }, masked := masked, ordered := mop == 3 }
      else if mop = 2 ∨ unit = 0 ∨ (unit = 16 ∧ load = true) then
        (emulFor c eew).map fun e =>
          { group := { reg := rvRd w, emul := e, eew := eew }, nf := nf, n := c.vl, first := c.vstart
            address := if mop = 2 then .strided else .unit, masked := masked, faultFirst := mop == 0 && unit == 16 }
      else none
    found.filter fun m => m.ok load

/-- The elements that a load or store moves, in order: the element, its field, and the first of its bytes among those of the registers. -/
def VMem.elements (m : VMem) (h : Hart) : List (Nat × Nat × Nat) :=
  let size := m.group.eew / 8
  (((List.range m.n).filter fun i => decide (m.first ≤ i) && (!m.masked || h.vbit 0 i)).map fun i =>
    (List.range m.nf).map fun f => (i, f, 32 * (m.group.reg + f * m.group.count) + i * size)).flatten

/-- The address of an element. -/
def VMem.addressOf (m : VMem) (h : Hart) (w : Word) (i f : Nat) : Dword :=
  let size := m.group.eew / 8
  let base := h.reg (rvRs1 w)
  match m.address with
  | .unit => base + BitVec.ofNat 64 ((i * m.nf + f) * size)
  | .strided => base + h.reg (rvRs2 w) * BitVec.ofNat 64 i + BitVec.ofNat 64 (f * size)
  | .indexed g => base + BitVec.ofNat 64 (h.vel g.reg g.eew i) + BitVec.ofNat 64 (f * size)

/-- The registers after a load whose first elements have been read: their bytes, and where all have been read the elements beyond vl and the
masked ones, which may be agnostic. -/
def Hart.vLoaded (h : Hart) (num : Nat) (w : Word) (bytes : List Byte) : Hart :=
  match vMem h true w with
  | none => h
  | some m =>
    let size := m.group.eew / 8
    let all := m.elements h
    let done := bytes.length / size
    let h1 := ((all.take done).zip (List.range done)).foldl (fun t x => t.setVbytes x.1.2.2 ((bytes.drop (x.2 * size)).take size)) h
    let c := h.vcfg
    if m.whole || decide (done < all.length) || decide (m.n ≤ m.first) then h1
    else
      (List.range m.nf).foldl (fun t f =>
        (List.range (256 * m.group.count / m.group.eew)).foldl (fun t i =>
          let reg := m.group.reg + f * m.group.count
          if i < m.first then t
          else if m.n ≤ i then (if c.ta then t.blurEl num reg m.group.eew i else t)
          else if m.masked && !h.vbit 0 i && c.ma then t.blurEl num reg m.group.eew i else t) t) h1

end Sys2Proof.Machine
end

