-- ==== Sys2Proof/Machine/HartWord.lean ====
section
/-! DEFINITION. The words of a hart that compute registers from registers, and the ends of those that read memory: which registers each uses and
what it gives (R340, R350; log 100, PRESUMED). A word whose sources are not known yet runs later by the same definition (R275). -/

namespace Sys2Proof.Machine

/-- A loaded value widened: funct3 gives the size and the sign. -/
def loadedValue (f3 : Nat) (v : List Byte) : Dword :=
  let x := natOfBytes v
  if 4 ≤ f3 then BitVec.ofNat 64 x else dwordOfInt (signedOf (8 * v.length) x)

/-- A word of opcode 0x07 or 0x27 is a vector one by its width. -/
def isVectorWidth (w : Word) : Bool := (vWidth (rvF3 w)).isSome

/-- A word of Zbs, which a kiosk does not have. -/
def isZbs (w : Word) : Bool :=
  let f6 := bitsOf w 31 26
  (bitsOf w 6 0 == 0x13 || (bitsOf w 6 0 == 0x33 && !w.getLsbD 25))
    && ((rvF3 w == 1 && (f6 == 0x0A || f6 == 0x12 || f6 == 0x1A)) || (rvF3 w == 5 && f6 == 0x12))

/-! ### What a word gives -/

/-- The format of a floating-point load or store by funct3: half precision on the host die (Zfhmin). -/
def fpLoadFormat (kiosk : Bool) (f3 : Nat) : Option FpFormat :=
  match f3 with
  | 1 => if kiosk then none else some fp16
  | 2 => some fp32
  | 3 => some fp64
  | _ => none

/-- A floating-point result taken: its register, the flags, and the unit's state. -/
def Hart.takeFp (h : Hart) (w : Word) (r : FpOut) : Hart :=
  (if r.toX then h.setReg (rvRd w) r.value else h.setFreg (rvRd w) r.value).addFlags r.flags

/-- An arithmetic word of RV64I, M, Zba, Zbb, Zbs and Zicond. -/
def aluWord (kiosk : Bool) (h : Hart) (w : Word) : Option Dword :=
  let a := h.reg (rvRs1 w)
  let b := h.reg (rvRs2 w)
  if kiosk && isZbs w then none
  else
    match bitsOf w 6 0 with
    | 0x37 => some (immU w)
    | 0x17 => some (h.pc + immU w)
    | 0x13 => aluImm w a
    | 0x1B => aluImm32 w a
    | 0x33 => aluOp (rvF7 w) (rvF3 w) a b
    | 0x3B => if rvF7 w = 4 ∧ rvF3 w = 4 ∧ rvRs2 w ≠ 0 then none else aluOp32 (rvF7 w) (rvF3 w) a b
    | _ => none

/-- THE RESULT of a word on a hart whose sources stand: num is its number, and bytes what it has loaded; none where it is illegal. -/
def rvCompute (kiosk : Bool) (h : Hart) (num : Nat) (w : Word) (bytes : List Byte) : Option Hart :=
  match bitsOf w 6 0 with
  | 0x03 => some (h.setReg (rvRd w) (loadedValue (rvF3 w) bytes))
  | 0x07 =>
    if isVectorWidth w then some (h.vLoaded num w bytes)
    else (fpLoadFormat kiosk (rvF3 w)).map fun f => h.setFreg (rvRd w) (boxed f (natOfBytes bytes))
  | 0x2F => some (h.setReg (rvRd w) (if bitsOf w 31 27 = 3 then BitVec.ofNat 64 (natOfBytes bytes) else loadedValue (rvF3 w) bytes))
  | 0x73 => some (h.setReg (rvRd w) (loadedValue (if rvRs2 w = 0 then 0 else 4) bytes))
  | 0x43 | 0x47 | 0x4B | 0x4F | 0x53 => (fpWord (!kiosk) h w).map fun r => h.takeFp w r
  | 0x57 => (vWord h num w).map fun x => x.run h
  | _ => (aluWord kiosk h w).map fun v => h.setReg (rvRd w) v

/-! ### Which registers a word uses -/

/-- The registers that a word reads and those that it gives, by their numbers among all (RVWMO's source and destination registers). -/
structure Uses where
  src : List Nat := []
  dst : List Nat := []
  deriving DecidableEq, Repr

/-- The control registers that a vector word reads, and the flags that it may add to. -/
def vectorState : List Nat := [csrVl, csrVtype, csrVstart, csrVxrm, csrFrm].map keyCsr

/-- The uses of a vector word: a destination register keeps what the word does not write. -/
def VWord.uses (x : VWord) (w : Word) : Uses :=
  let out := (x.dst.map VGroup.regs).getD []
  let sat := decide (rvF3 w % 4 ≠ 1) && decide (rvF3 w % 4 ≠ 2) && [0x20, 0x21, 0x22, 0x23, 0x27, 0x2E, 0x2F].contains (bitsOf w 31 26)
  let flags := (if x.fp then [keyCsr csrFflags] else []) ++ (if sat then [keyCsr csrVxsat] else [])
  { src := ((x.srcs.map VGroup.regs).flatten ++ out ++ (if x.masked then [0] else [])).map keyV ++ x.srcX ++ x.srcF.map keyF ++ vectorState ++ flags
    dst := out.map keyV ++ x.dstX.toList ++ (x.dstF.map keyF).toList ++ flags }

/-- The uses of a floating-point word of opcode 0x53. -/
def fpUses (w : Word) : Uses :=
  let f5 := bitsOf w 31 27
  let flags := if [0x04, 0x1C, 0x1E].contains f5 then [] else [keyCsr csrFflags]
  let first := if f5 = 0x1A ∨ f5 = 0x1E then [rvRs1 w] else [keyF (rvRs1 w)]
  let second := if [0x00, 0x01, 0x02, 0x03, 0x04, 0x05, 0x14].contains f5 then [keyF (rvRs2 w)] else []
  { src := first ++ second ++ [keyCsr csrFrm] ++ flags
    dst := (if [0x14, 0x18, 0x1C].contains f5 then [rvRd w] else [keyF (rvRd w)]) ++ flags }

/-- THE USES of a word that rvCompute gives a result of; those of a load are its end's. -/
def rvUses (h : Hart) (w : Word) : Uses :=
  let raw : Uses := match bitsOf w 6 0 with
    | 0x13 | 0x1B => { src := [rvRs1 w], dst := [rvRd w] }
    | 0x33 | 0x3B => { src := [rvRs1 w, rvRs2 w], dst := [rvRd w] }
    | 0x07 =>
      if isVectorWidth w then
        (match vMem h true w with
          | some m => { src := (m.regs ++ (if m.masked then [0] else [])).map keyV ++ vectorState, dst := m.regs.map keyV }
          | none => {})
      else { dst := [keyF (rvRd w)] }
    | 0x43 | 0x47 | 0x4B | 0x4F =>
      { src := [keyF (rvRs1 w), keyF (rvRs2 w), keyF (bitsOf w 31 27), keyCsr csrFrm, keyCsr csrFflags], dst := [keyF (rvRd w), keyCsr csrFflags] }
    | 0x53 => fpUses w
    | 0x57 => ((vWord h 0 w).map fun x => x.uses w).getD {}
    | _ => { dst := [rvRd w] }
  { raw with dst := raw.dst.filter fun k => k != 0 }

/-- A word works on the floating-point or the vector unit. -/
def usesFp (w : Word) : Bool :=
  match bitsOf w 6 0 with
  | 0x07 | 0x27 => !isVectorWidth w
  | 0x43 | 0x47 | 0x4B | 0x4F | 0x53 => true
  | 0x57 => rvF3 w == 1 || rvF3 w == 5
  | _ => false
def usesVector (w : Word) : Bool :=
  match bitsOf w 6 0 with
  | 0x07 | 0x27 => isVectorWidth w
  | 0x57 => true
  | _ => false

/-- A word whose unit is off, or that a kiosk does not have, is illegal. -/
def unitDenied (kiosk : Bool) (h : Hart) (w : Word) : Bool := (usesFp w && h.fsOff) || (usesVector w && (kiosk || h.vsOff))

/-- The state of the units that a word works on becomes Dirty, and after a vector word vstart is 0. -/
def Hart.usedUnits (h : Hart) (w : Word) : Hart :=
  let h1 := if usesFp w then h.dirty 13 else h
  if usesVector w then (h1.dirty 9).setCsr csrVstart 0 else h1

end Sys2Proof.Machine
end

