-- ==== Sys2Proof/Machine/HartMem.lean ====
section
/-! DEFINITION. The accesses of harts and kiosks (R260, R261, R274 to R276, R349, R351): memory in RVWMO order, where an access waits in program
order among the hart's operations until it takes its place in time order, and device registers in program order. -/

namespace Sys2Proof.Machine

/-! ### What a physical address names for a hart (R295, R349, R351) -/

inductive HartPlace
  | memory | register (f offset : Nat) | page (f q : Nat) | mailbox (core offset : Nat) | window (core offset : Nat)
  | imsic (hart file offset : Nat) | none
  deriving DecidableEq, Repr

/-- The submission page that a physical address lies in (R349): function and queue. -/
def submissionPage (pa : Nat) : Option (Nat × Nat) :=
  let base := 0xF900000000000
  if base ≤ pa ∧ pa < base + 0x40000 * 129 then some ((pa - base) / 0x40000, (pa - base) % 0x40000 / 4096) else none

/-- What a physical address names for a hart; host memory is reached by none (log 127, DESIGN CHOICE), and the interrupt files lie where
Config.imsicFile says, outside everything else. -/
def hartPlace (s : State) (n pa : Nat) : HartPlace :=
  let window := 0xF000000000000
  let regs := 0xF800000000000
  let boxes := 0xFA00000000000
  if isKiosk n ∧ window ≤ pa ∧ pa < window + 0x200000 then .window (n - 96) (pa - window)
  else if regs ≤ pa ∧ pa < regs + 0x100000 * 129 then .register ((pa - regs) / 0x100000) ((pa - regs) % 0x100000)
  else if boxes ≤ pa ∧ pa < boxes + 256 * 256 then .mailbox ((pa - boxes) / 256) ((pa - boxes) % 256)
  else
    match submissionPage pa with
    | some (f, q) => .page f q
    | none =>
      if pa < hostBase ∧ placeOf s pa ≠ .unmapped then .memory
      else
        match Config.imsicFile (pa / 4096) with
        | some (h, k) => if h < 96 then .imsic h k (pa % 4096) else .none
        | none => .none

/-! ### Waiting operations and the registers that they give -/

def HartOp.isAccess (x : HartOp) : Bool := x.kind != .compute
def HartOp.loads (x : HartOp) : Bool := x.kind == .load || x.kind == .lr || x.kind == .amo
def HartOp.stores (x : HartOp) : Bool := x.kind == .store || x.kind == .sc || x.kind == .amo
/-- The access reserves, or ends a reservation. -/
def HartOp.reserves (x : HartOp) : Bool := x.kind == .lr || x.kind == .sc
/-- Every source of an operation is known. -/
def HartOp.known (x : HartOp) : Bool := x.src.all fun a => a.source.isNone
/-- The operations that are still to give a source. -/
def HartOp.awaits (x : HartOp) : List Nat := x.src.filterMap fun a => a.source
/-- The load events that its sources depend on. -/
def HartOp.sourceDeps (x : HartOp) : List Nat := x.src.filterMap fun a => a.dep
/-- The bytes that a store or an atomic takes from its source. -/
def HartOp.data (x : HartOp) : List Byte := bytesOf x.size (((x.src.head?).map fun a => a.value / 256 ^ x.offset).getD 0)

/-- The load event that a register depends on, as a list. -/
def Hart.dep (h : Hart) (k : Nat) : List Nat := if k = 0 ∨ tblGet 0 h.taint k = 0 then [] else [tblGet 0 h.taint k - 1]
def Hart.depsOf (h : Hart) (keys : List Nat) : List Nat := (keys.map h.dep).flatten

/-- A register depends on the latest of some load events, and no waiting operation gives it any more. -/
def Hart.setDep (s : State) (h : Hart) (k : Nat) (events : List Nat) : Hart :=
  if k = 0 then h
  else { h with taint := tblSet 0 h.taint k (((latestOf s events).map fun e => e + 1).getD 0), owner := tblSet 0 h.owner k 0 }

/-- The waiting operations that are to give some registers. -/
def Hart.owners (h : Hart) (keys : List Nat) : List Nat := (keys.map fun k => tblGet 0 h.owner k).filterMap fun o => if o = 0 then none else some (o - 1)

/-- A register as a source. -/
def Hart.source (h : Hart) (k : Nat) : HartSrc :=
  match tblGet 0 h.owner k with
  | 0 => { key := k, value := h.get k, dep := (h.dep k).head? }
  | o + 1 => { key := k, source := some o }

/-- An operation joins those that wait, and gives its registers from now on. -/
def Hart.addOp (h : Hart) (x : HartOp) : Hart :=
  { h with ops := h.ops ++ [x], owner := x.dst.foldl (fun t k => tblSet 0 t k (x.id + 1)) h.owner }

/-- A source takes the value that an operation gives for it. -/
def HartSrc.take (a : HartSrc) (id key v : Nat) (dep : Option Nat) : HartSrc :=
  if a.source = some id ∧ a.key = key then { a with value := v, dep := dep, source := none } else a

/-- AN OPERATION GIVES a register, or an access its result: to the operations that wait for it, and to the register unless a later operation or
word has taken it over. -/
def Hart.give (h : Hart) (id : Nat) (dep : Option Nat) (x : Nat × Nat) : Hart :=
  let h1 := { h with ops := h.ops.map fun y => { y with src := y.src.map fun a => a.take id x.1 x.2 dep } }
  if tblGet 0 h1.owner x.1 = id + 1 then
    { (h1.put x.1 x.2) with owner := tblSet 0 h1.owner x.1 0, taint := tblSet 0 h1.taint x.1 ((dep.map fun e => e + 1).getD 0) }
  else h1

/-- What a computing operation gives, its sources put into their registers. -/
def HartOp.outcome (kiosk : Bool) (h : Hart) (x : HartOp) : List (Nat × Nat) :=
  let h1 := (x.src.filter fun a => decide (a.key < 65536)).foldl (fun t a => t.put a.key a.value) h
  let bytes := ((x.src.filter fun a => decide (65536 ≤ a.key)).map fun a => bytesOf a.size a.value).flatten
  match rvCompute kiosk h1 x.id x.word bytes with
  | some h2 => x.dst.map fun k => (k, h2.get k)
  | none => []

/-- RUN the computing operations whose sources are known, as far as they bring each other on. -/
def settleOps : Nat → State → Nat → State
  | 0, s, _ => s
  | fuel + 1, s, n =>
    let h := getHart s n
    match h.ops.find? fun x => !x.isAccess && x.known with
    | none => s
    | some x =>
      let dep := latestOf s x.sourceDeps
      let h1 := { h with ops := h.ops.filter fun y => y.id != x.id }
      settleOps fuel (setHart s n ((x.outcome (isKiosk n) h).foldl (fun t v => t.give x.id dep v) h1)) n

/-! ### Time order of a hart (R274, R275) -/

/-- The event to come of a hart's access, which must follow some events. -/
def hartWho (s : State) (n id : Nat) (after : List Nat) : Who := { agent := hartAgent n, word := id, after := after, issued := s.clock }

/-- The event that a state made last. -/
def lastEvent (s : State) : Nat := s.events - 1

/-- The access waits: for a reset of its key (R326), the end of a handover (R313), a copy that owns the line (R271), or a move (R309). -/
def hartBlocked (s : State) (key pa : Nat) (write atomic : Bool) : Bool :=
  keyBusy s key || underHandover s pa || copyOwns s pa || (write && windowFull s pa) || (atomic && inFinal s 0 pa)

/-- A kiosk's access goes through the L1 of its core (R253, R350); a host-die hart's goes to memory (log 103, DESIGN CHOICE). -/
def hartCaches (s : State) (n key pa : Nat) (store : Bool) : State :=
  if isKiosk n then (cacheTouch s (n - 96) 0 key (locate s pa / 128) 0 store).2 else s

/-- A hart's write that no cache holds has gone to its tier. -/
def hartWrote (s : State) (n pa : Nat) : State := if isKiosk n then s else cleanUnheld s (locate s pa)

/-- Whether two accesses of a hart touch a common byte. -/
def HartOp.meets (x y : HartOp) : Bool := overlaps x.pa x.size y.pa y.size

/-- AN OLDER ACCESS KEEPS ONE FROM ITS PLACE: it must go first; both reserve; or they touch a common byte, unless the later is a load that the
older, a store whose bytes are known, serves (R274, R275). -/
def HartOp.keeps (y x : HartOp) : Bool :=
  decide (y.id < x.id) && y.isAccess
    && (x.follows.contains y.id || (x.reserves && y.reserves) || (y.meets x && !(x.kind == .load && y.kind == .store && y.known)))

/-- An access of a hart may take its place. -/
def mayPlace (s : State) (h : Hart) (x : HartOp) : Bool :=
  x.isAccess && x.known && !(h.ops.any fun y => y.keeps x) && !hartBlocked s x.key x.pa x.stores (x.kind == .amo || x.kind == .sc)

/-- The stores not yet placed that serve bytes of a load. -/
def serving (h : Hart) (x : HartOp) : List HartOp := h.ops.filter fun y => decide (y.id < x.id) && y.kind == .store && y.meets x

/-- The byte that the youngest of some stores gives of an address. -/
def servedByte (ys : List HartOp) (pa : Nat) : Option Byte :=
  (ys.reverse.find? fun y => decide (y.pa ≤ pa) && decide (pa < y.pa + y.size)).bind fun y => y.data[pa - y.pa]?

/-- A number of an operation turned from a list of waiting ones into an event that the list's accesses follow. -/
def floorAfter (s : State) (floor : Option Nat) (first : List Nat) (id : Nat) (e : Option Nat) : Option Nat :=
  if first.contains id then laterOf s floor e else floor

/-- AN ACCESS HAS TAKEN ITS PLACE, with an event unless it made none: it no longer waits, what must follow it notes the event, its result goes
to those that wait for it. -/
def accessPlaced (s : State) (n : Nat) (x : HartOp) (e : Option Nat) (result : List Byte) : State :=
  let h := getHart s n
  let drop (l : List Nat) : List Nat := l.filter fun i => i != x.id
  let h1 : Hart := { h with
    ops := (h.ops.filter fun y => y.id != x.id).map fun y =>
      if y.follows.contains x.id then { y with follows := drop y.follows, after := e.toList ++ y.after } else y
    loaded := if x.loads then laterOf s h.loaded e else h.loaded
    stored := if x.stores then laterOf s h.stored e else h.stored
    loadFloor := floorAfter s h.loadFloor h.loadsFirst x.id e
    storeFloor := floorAfter s h.storeFloor h.storesFirst x.id e
    rcscFloor := floorAfter s h.rcscFloor h.rcscFirst x.id e
    loadsFirst := drop h.loadsFirst
    storesFirst := drop h.storesFirst
    readsFirst := drop h.readsFirst
    writesFirst := drop h.writesFirst
    rcscFirst := drop h.rcscFirst }
  settleOps (h.ops.length + 1) (setHart s n (h1.give x.id e (keyResult x.id, natOfBytes result))) n

/-- PLACE A LOAD: each byte comes from the youngest store of the hart's own that is not placed yet and holds it, the others from memory at a
place in time order. It follows what the address and the value of such a store depend on, and such a store follows it. -/
def placeLoad (s : State) (n : Nat) (x : HartOp) : State :=
  let h := getHart s n
  let ys := serving h x
  let served := (List.range x.size).map fun i => servedByte ys (x.pa + i)
  let who := hartWho s n x.id (x.after ++ (ys.map fun y => y.deps ++ y.sourceDeps).flatten)
  let r : List Byte × State :=
    if served.all Option.isSome then ([], noteMark s who) else readMem (hartCaches s n x.key x.pa false) who x.key x.pa x.size
  let bytes := (served.zip (List.range x.size)).map fun b => b.1.getD ((r.1[b.2]?).getD 0)
  let e := lastEvent r.2
  let h1 := getHart r.2 n
  let s1 := setHart r.2 n { h1 with ops := h1.ops.map fun y => if ys.any fun z => z.id == y.id then { y with after := e :: y.after } else y }
  accessPlaced s1 n x (some e) bytes

/-- PLACE A STORE. -/
def placeStore (s : State) (n : Nat) (x : HartOp) : State :=
  let s1 := hartWrote (writeMem (hartCaches s n x.key x.pa true) (hartWho s n x.id (x.after ++ x.sourceDeps)) x.key x.pa x.data) n x.pa
  accessPlaced s1 n x (some (lastEvent s1)) []

/-- PLACE AN AMO: one read and write at one point of time order (R261). -/
def placeAmo (s : State) (n : Nat) (x : HartOp) : State :=
  let op (old : Nat) : Nat := (amoOp (bitsOf x.word 31 27) (8 * x.size) (natOfBytes x.data) old).getD 0
  let r := updateSpace (hartCaches s n x.key x.pa true) (hartWho s n x.id (x.after ++ x.sourceDeps)) 0 x.key x.pa x.size
    fun old => some (bytesOf x.size (op (natOfBytes old)))
  accessPlaced (hartWrote r.2 n x.pa) n x (some (lastEvent r.2)) r.1

/-- The bytes of a reservation (log 126, DESIGN CHOICE): 64, aligned. -/
def reservationSize : Nat := 64

/-- PLACE AN LR: a load that takes the reservation. -/
def placeLr (s : State) (n : Nat) (x : HartOp) : State :=
  let r := readMem (hartCaches s n x.key x.pa false) (hartWho s n x.id x.after) x.key x.pa x.size
  let e := lastEvent r.2
  let spot := locate r.2 (forwarded r.2 x.pa)
  accessPlaced (setHart r.2 n { getHart r.2 n with resv := some (spot / reservationSize * reservationSize, reservationSize, e) }) n x (some e) r.1

/-- A write of another agent to the hart's reservation lies after it in time order, or there is no reservation (R275). -/
def reservationLost (s : State) (n : Nat) : Bool :=
  match (getHart s n).resv with
  | none => true
  | some (first, size, e) =>
    (s.past.takeWhile fun x => x.id != e).any fun x => x.writes && x.meets 0 first size && x.agent != hartAgent n

/-- The hart's reservation covers bytes. -/
def reservationCovers (s : State) (n pa size : Nat) : Bool :=
  let spot := locate s (forwarded s pa)
  (getHart s n).resv.any fun r => decide (r.1 ≤ spot) && decide (spot + size ≤ r.1 + r.2.1)

/-- PLACE AN SC: the store happens when the reservation holds, after the load that took it; 0 on success, 1 on failure (R275). -/
def placeSc (s : State) (n : Nat) (x : HartOp) : State :=
  let h := getHart s n
  let gone (u : State) : State := setHart u n { getHart u n with resv := none }
  if !reservationCovers s n x.pa x.size || reservationLost s n then accessPlaced (gone s) n x none [1]
  else
    let after := x.after ++ x.sourceDeps ++ (h.resv.map fun r => r.2.2).toList
    let r := updateSpace (hartCaches s n x.key x.pa true) (hartWho s n x.id after) 0 x.key x.pa x.size fun _ => some x.data
    accessPlaced (gone (hartWrote r.2 n x.pa)) n x (some (lastEvent r.2)) [0]

/-- PLACE an access that may take its place. -/
def placeOp (s : State) (n : Nat) (x : HartOp) : State :=
  match x.kind with
  | .load => placeLoad s n x
  | .store => placeStore s n x
  | .amo => placeAmo s n x
  | .lr => placeLr s n x
  | .sc => placeSc s n x
  | .compute => s

/-- Place the hart's operation that stands at a place of its list, when it may take its place in time order. -/
def placeAt (s : State) (n i : Nat) : State :=
  match (getHart s n).ops[i]? with
  | some x => if mayPlace s (getHart s n) x then placeOp s n x else s
  | none => s

/-- Place one operation by number, when it may be placed. -/
def placeId (s : State) (n id : Nat) : State :=
  match (getHart s n).ops.find? fun x => x.id == id with
  | some x => if mayPlace s (getHart s n) x then placeOp s n x else s
  | none => s

/-- Place the oldest of the hart's accesses that may take their places. -/
def placeOldest (s : State) (n : Nat) : State :=
  match (getHart s n).ops.find? (mayPlace s (getHart s n)) with
  | some x => placeOp s n x
  | none => s

/-- What some operations wait for among the others, themselves included. -/
def neededBy (h : Hart) : Nat → List Nat → List Nat
  | 0, ids => ids
  | fuel + 1, ids =>
    let more := (h.ops.filter fun x => ids.contains x.id).map fun x => x.awaits ++ (h.ops.filter fun y => y.keeps x).map fun y => y.id
    neededBy h fuel (ids ++ more.flatten.filter fun i => !ids.contains i)

/-- A word of the hart waits for some of its operations: the oldest access that these need and that may be placed takes its place. -/
def placeTowards (s : State) (n : Nat) (ids : List Nat) : State :=
  let h := getHart s n
  let need := neededBy h h.ops.length ids
  match h.ops.find? fun x => need.contains x.id && mayPlace s h x with
  | some x => placeOp s n x
  | none => s

/-! ### Device registers (R348, R349, R351, R354) -/

/-- The state that an effect without another outcome leaves. -/
def resultState (s : State) (r : Result) : State :=
  match r with
  | .next t => t
  | _ => s

/-- An access to a submission page while the hub is not ready is logged (R355). -/
def notReady (s : State) (f q : Nat) : State := logError s f 2 (BitVec.ofNat 64 (0xF900000000000 + 0x40000 * f + 4096 * q))

/-- A doubleword of a device, none for an error response; an interrupt file reads as 0. -/
def deviceRead (s : State) (p : HartPlace) : Option Dword × State :=
  match p with
  | .register f off => readRegister s f off
  | .page f q => if readyBit s 0 then (some 0, s) else (none, notReady s f q)
  | .mailbox core off => (some (mailboxValue s core off), s)
  | .window core off => (serviceValue s core off, s)
  | .imsic .. => (some 0, s)
  | _ => (none, s)

/-- A register write was refused: it has been logged so (R339, R355). -/
def registerRefused (s : State) (f off : Nat) (v : Dword) : Bool :=
  (writeRegister { s with errLog := [], errOvf := [] } f off v).errLog.any fun e =>
    e.2.any fun x => (x.cause == 1 || x.cause == 2) && x.addr == registerAddress f off

/-- A write to an interrupt file (AIA): a word to its first doubleword makes the identity pending that it names. -/
def imsicWrite (s : State) (hart file off : Nat) (v : Nat) : State :=
  if off = 0 then setHart s hart ((getHart s hart).setPending file v true) else s

/-- AN MSI of a kiosk's doorbell: one 4-byte write to what the address names, an interrupt file or memory. One that reaches no place is logged
(R339, R355); a device register takes no write of 4 bytes (log 152, DESIGN CHOICE). -/
def deliverMsi (s : State) (core pa : Nat) (v : Word) : State :=
  match hartPlace s (96 + core) pa with
  | .imsic h k off => imsicWrite s h k off v.toNat
  | .memory => if itemReadyAt s pa then writeTop s (.kiosk core) 0 pa (bytesOf 4 v.toNat) else logError s 0 2 (BitVec.ofNat 64 pa)
  | .none => logError s 0 2 (BitVec.ofNat 64 pa)
  | _ => s

/-- R352: an MSI of the low word of the value to the target that KMSIA holds. -/
def execMbbell (core : Nat) (v : Dword) (s : State) : Result :=
  byKiosk s core fun _ =>
    let t := getX s 0 0x3018
    let pa := bitsOf t 51 2 * 4
    if t.getLsbD 0 then deliverMsi { s with msis := s.msis ++ [(pa, lowWord v)] } core pa (lowWord v) else s

/-- A write to the service window by its kiosk (R351, R354): none for an access fault, at an offset that is not listed or a write to WINDOW
that is ignored. -/
def serviceWrite (s : State) (core off : Nat) (v : Dword) : Option State :=
  let w := execWindowWrite core off v s
  if off = 0x48 then some (resultState s (execTqpop core s))
  else if off = 0x110 then
    let e := bitsOf v 6 0
    match bitsOf v 9 8 with
    | 0 => some (resultState s (execRbcmdReplay core e s))
    | 1 => some (resultState s (execRbcmdAbandon core e s))
    | 2 => some (resultState s (execRbcmdAbandonPageTrap core e s))
    | _ => some s
  else if off = 0x2100 then some (resultState s (execMbbell core v s))
  else if off = 0x4008 then
    match bitsOf v 2 0 with
    | 0 => some (resultState s (execWincmdRelease core s))
    | 1 => some (resultState s (execWincmdEnd core s))
    | 2 => some (resultState s (execWincmdEnterSingleStep core s))
    | 3 => some (resultState s (execWincmdLeaveSingleStep core s))
    | 4 => some (resultState s (execWincmdReleaseFibre core (bitsOf v 13 8) s))
    | _ => some s
  else if off < 0x2080 ∨ off = 0x4000 then (if (serviceValue s core off).isSome then some (resultState s w) else none)
  else if off < 0x2100 then some s
  else if 0x100040 ≤ off then
    (if selectedParked s core (getKiosk s core) && (serviceValue s core off).isSome then some (resultState s w) else none)
  else none

/-- A doubleword write to a device, none for an error response. -/
def deviceWrite (s : State) (p : HartPlace) (v : Dword) : Option State × State :=
  match p with
  | .register f off =>
    let t := writeRegister s f off v
    (if registerRefused s f off v then none else some t, t)
  | .page f q => if readyBit s 0 then (some s, s) else (none, notReady s f q)
  | .mailbox core off => (some (if 0x80 ≤ off then resultState s (execWindowWrite core (0x2000 + off) v s) else s), s)
  | .window core off => (serviceWrite s core off v, s)
  | _ => (none, s)

/-- LOAD from a device: naturally aligned, its bytes of the doubleword (log 126, DESIGN CHOICE), none for an error response. -/
def loadDevice (s : State) (n pa size : Nat) : Option (List Byte) × State :=
  match deviceRead s (hartPlace s n (pa / 8 * 8)) with
  | (some v, t) => (some (((bytesOf 8 v.toNat).drop (pa % 8)).take size), t)
  | (none, t) => (none, t)

/-- STORE to a device: an aligned doubleword, or a word to an interrupt file (log 126, DESIGN CHOICE); none for an error response. -/
def storeDevice (s : State) (n pa : Nat) (bytes : List Byte) : Option State × State :=
  match hartPlace s n pa with
  | .imsic h k off => if bytes.length = 4 then (some (imsicWrite s h k off (natOfBytes bytes)), s) else (none, s)
  | .page f q => if !readyBit s 0 then (none, notReady s f q) else (some s, s)
  | p => if bytes.length ≠ 8 then (none, s) else deviceWrite s p (BitVec.ofNat 64 (natOfBytes bytes))

/-! ### The parts of a word's access -/

/-- A part of an access: an address, how many bytes, for a store the register that they come from and where in it they begin, and whether it is
a byte of a misaligned part. -/
structure HartPart where
  va : Dword
  size : Nat
  data : Nat := 0
  offset : Nat := 0
  split : Bool := false
  deriving DecidableEq, Repr

/-- A part as its accesses: a misaligned one byte by byte (log 126, DESIGN CHOICE). -/
def HartPart.pieces (x : HartPart) : List HartPart :=
  if x.va.toNat % x.size = 0 then [x]
  else (List.range x.size).map fun i => { va := x.va + BitVec.ofNat 64 i, size := 1, data := x.data, offset := x.offset + i, split := true }

/-- How a word goes to memory: its kind, the mode and the use for which it is translated, and whether it reads code (HLVX). -/
structure HartReach where
  kind : HartOpKind
  mode : Priv
  use : HartUse
  code : Bool := false
  deriving DecidableEq, Repr

/-- WHERE A PIECE GOES: its physical address, or the exception and what is logged: an unmapped address, an item that is not ready, an
uncorrectable error (R339, R355, R358); a store to a sealed frame is refused (R316) (log 150, DEDUCED). -/
def pieceAt (s : State) (n : Nat) (h : Hart) (r : HartReach) (x : HartPart) : HartAddr :=
  let fault (bad : Option (Nat × Nat)) : HartAddr := .raise (.accessFault r.use x.va r.mode.isVirtual) bad
  match translateFor s n h r.mode r.use r.code x.va with
  | .raise e bad => .raise e bad
  | .at pa =>
    match hartPlace s n pa with
    | .none => fault (some (2, pa))
    | .memory =>
      if !itemReadyAt s pa then fault (some (2, pa))
      else if r.kind != .store && damagedAt s pa x.size then fault (some (3, pa))
      else if r.use == .store && inSealedFrame s pa then fault none
      else .at pa
    | _ => if x.split || r.kind == .amo || r.kind == .lr || r.kind == .sc || decide (pa % x.size ≠ 0) then fault none else .at pa

/-- The pieces that have an address, up to the first that has none, and why that has none. -/
def piecesAt (s : State) (n : Nat) (h : Hart) (r : HartReach) : List HartPart → List (HartPart × Nat) × Option (HartExc × Option (Nat × Nat))
  | [] => ([], none)
  | x :: xs =>
    match pieceAt s n h r x with
    | .raise e bad => ([], some (e, bad))
    | .at pa =>
      let t := piecesAt s n h r xs
      ((x, pa) :: t.1, t.2)

/-! ### Issue of accesses -/

/-- What a word's access must go behind, and what it goes before: acquire and release of an atomic, the load events on which its address
depends, and those on which a vector store depends by its length and mask. -/
structure HartOrder where
  aq : Bool := false
  rl : Bool := false
  deps : List Nat := []
  control : List Nat := []

/-- AN ACCESS JOINS THE WAITING ONES (R275): behind the floors and the fences' accesses of its kind, with .rl behind everything, and atomics with
.aq or .rl behind each other; with .aq before everything later. -/
def addHartOp (s : State) (n : Nat) (x : HartOp) (o : HartOrder) : State :=
  let h := getHart s n
  let rcsc := o.aq || o.rl
  let all := (h.ops.filter HartOp.isAccess).map fun y => y.id
  let follows := (if x.loads then h.loadsFirst else []) ++ (if x.stores then h.storesFirst else []) ++ (if o.rl then all else [])
    ++ (if rcsc then h.rcscFirst else [])
  let after := [if x.loads then h.loadFloor else none, if x.stores then h.storeFloor else none, if x.stores then h.branched else none
    , if o.rl then h.loaded else none, if o.rl then h.stored else none, if o.rl then h.devRead else none, if o.rl then h.devWrite else none
    , if rcsc then h.rcscFloor else none].filterMap fun e => e
  let h1 := h.addOp { x with follows := follows, after := after ++ o.deps ++ (if x.stores then o.control else []), deps := o.deps }
  setHart s n { h1 with
    loadsFirst := if o.aq then h1.loadsFirst ++ [x.id] else h1.loadsFirst
    storesFirst := if o.aq then h1.storesFirst ++ [x.id] else h1.storesFirst
    readsFirst := if o.aq then h1.readsFirst ++ [x.id] else h1.readsFirst
    writesFirst := if o.aq then h1.writesFirst ++ [x.id] else h1.writesFirst
    rcscFirst := if rcsc then h1.rcscFirst ++ [x.id] else h1.rcscFirst }

/-- The newest event, if there is one. -/
def newestEvent (s : State) : Option Nat := s.past.head?.map fun e => e.id

/-- What an access that has begun comes to: the state, the sources that stand for what it loads, and the fault of a device. -/
structure HartBegun where
  state : State
  src : List HartSrc := []
  fault : Option (HartExc × State) := none

/-- BEGIN one piece of a word: to memory it waits for its place, to a device it is made at once. -/
def beginPiece (n : Nat) (w : Word) (r : HartReach) (o : HartOrder) (b : HartBegun) (x : HartPart × Nat) : HartBegun :=
  let s := b.state
  let pa := x.2
  let fault (t : State) : HartBegun := { b with fault := some (.accessFault r.use x.1.va r.mode.isVirtual, t) }
  if b.fault.isSome then b
  else if hartPlace s n pa = .memory then
    let t := takeId s
    let h := getHart s n
    let op : HartOp := { id := t.1, kind := r.kind, word := w, pa := pa, size := x.1.size, key := h.keySlot, offset := x.1.offset
                         src := if r.kind == .load || r.kind == .lr then [] else [h.source x.1.data] }
    { b with state := addHartOp t.2 n op o
             src := b.src ++ (if r.kind = .store then [] else
               [{ key := keyResult t.1, size := if r.kind = .sc then 1 else x.1.size, source := some t.1 }]) }
  else if r.kind = .store then
    match storeDevice s n pa (bytesOf x.1.size ((getHart s n).get x.1.data / 256 ^ x.1.offset)) with
    | (some t, _) => { b with state := setHart t n { getHart t n with devWrite := newestEvent t } }
    | (none, t) => fault t
  else
    match loadDevice s n pa x.1.size with
    | (some v, t) => { b with state := setHart t n { getHart t n with devRead := newestEvent t }
                              src := b.src ++ [{ key := keyResult 0, size := x.1.size, value := natOfBytes v }] }
    | (none, t) => fault t

/-- What a piece to a device waits for: the accesses that a fence puts before device accesses of its kind, and its data. -/
def deviceWaits (s : State) (n : Nat) (h : Hart) (r : HartReach) (x : HartPart × Nat) : List Nat :=
  if hartPlace s n x.2 = .memory then []
  else if r.kind = .store then h.writesFirst ++ h.owners [x.1.data] else h.readsFirst

/-- The end of a word that has begun its accesses: an operation that computes its registers from what they load. -/
def finishWord (s : State) (n : Nat) (w : Word) (u : Uses) (src : List HartSrc) : State :=
  if u.dst.isEmpty then s
  else
    let t := takeId s
    let h := getHart t.2 n
    let op : HartOp := { id := t.1, kind := .compute, word := w, src := (u.src.map h.source) ++ src, dst := u.dst }
    settleOps (h.ops.length + 2) (setHart t.2 n (h.addOp op)) n

/-- Place the loads that a word has begun, oldest first, as far as they may be placed. -/
def placeNow (s : State) (n : Nat) (src : List HartSrc) : State :=
  (src.filterMap fun a => a.source).foldl (fun t id => placeId t n id) s

/-- Later stores follow what an access's address depends on (R275, as RVWMO has it). -/
def addressFloor (s : State) (n : Nat) (deps : List Nat) : State :=
  let h := getHart s n
  setHart s n { h with storeFloor := laterOf s h.storeFloor (latestOf s deps) }

/-! ### Fences (R275) -/

/-- The sets of a FENCE: device reads, device writes, loads and stores, before and after. -/
structure FenceSets where
  i : Bool
  o : Bool
  r : Bool
  w : Bool
  deriving DecidableEq, Repr

/-- FENCE: the earlier accesses of the first sets go before the later ones of the second. -/
def Hart.fence (s : State) (h : Hart) (p q : FenceSets) : Hart :=
  let ids := (h.ops.filter fun x => (p.r && x.loads) || (p.w && x.stores)).map fun x => x.id
  let floor := latestOf s ([if p.r then h.loaded else none, if p.w then h.stored else none, if p.i then h.devRead else none
    , if p.o then h.devWrite else none].filterMap fun e => e)
  { h with
    loadFloor := if q.r then laterOf s h.loadFloor floor else h.loadFloor
    storeFloor := if q.w then laterOf s h.storeFloor floor else h.storeFloor
    loadsFirst := if q.r then h.loadsFirst ++ ids else h.loadsFirst
    storesFirst := if q.w then h.storesFirst ++ ids else h.storesFirst
    readsFirst := if q.i then h.readsFirst ++ ids else h.readsFirst
    writesFirst := if q.o then h.writesFirst ++ ids else h.writesFirst }

/-- Every earlier access of a hart has taken its place. -/
def Hart.drained (h : Hart) : Bool := !(h.ops.any HartOp.isAccess)

/-- The numbers of the hart's waiting accesses, and of its waiting stores. -/
def Hart.waitingIds (h : Hart) : List Nat := (h.ops.filter HartOp.isAccess).map fun x => x.id
def Hart.waitingStores (h : Hart) : List Nat := (h.ops.filter HartOp.stores).map fun x => x.id

end Sys2Proof.Machine
end

