-- ==== Sys2Proof/Machine/HostDie.lean ====
section
/-! DEFINITION. The Nothal extensions of the host-die harts (R340 to R342): their two instructions and the taking of a user trap. -/

namespace Sys2Proof.Machine

/-! ### nsubmit (R341) -/

/-- Byte i of the record that nsubmit stores from vs2. -/
def recordByte (h : Hart) (vs2 i : Nat) : Byte := h.vbyte (vs2 + i / 32) (i % 32)

/-- The record as its 16 doublewords. -/
def recordOfHart (h : Hart) (vs2 : Nat) : List Dword :=
  (List.range 16).map fun k => BitVec.ofNat 64 (natOfBytes ((List.range 8).map fun j => recordByte h vs2 (8 * k + j)))

/-- What every earlier access of a hart comes before (R275): the latest of its loads and stores and of its device accesses. -/
def Hart.allBefore (h : Hart) : List Nat := [h.loaded, h.stored, h.devRead, h.devWrite].filterMap fun e => e

/-- The submission: every earlier access of the hart goes before the record's store (R275). 0 to rd on accept and 1 on retry. -/
def submitFrom (s : State) (n f q : Nat) (record : List Dword) (rd : Nat) : State :=
  let r := submit s f q record (getHart s n).allBefore
  let h := getHart r.2 n
  setHart r.2 n { (Hart.setDep r.2 (h.setReg rd (if r.1 then 0 else 1)) rd []) with pc := h.pc + 4 }

/-- R341: while an earlier access of the hart has not taken its place, the oldest that may take it does, and the word waits; so it does while
its translation is kept from the page tables (R326). -/
def execNsubmit (vs2 rs1 rd : BitVec 5) (s : State) : Result :=
  withHart s fun n h =>
    if !h.drained then .next (placeTowards s n h.waitingIds)
    else
      let va := h.masked h.dataPriv .store (h.reg rs1.toNat)
      let fault : HartExc := .accessFault .store va h.dataPriv.isVirtual
      if vs2.toNat % 4 ≠ 0 ∨ h.vsOff = true then .next (hartException s n (.illegalInstruction ((encodeHart (.nsubmit vs2 rs1 rd)).getD 0)))
      else if va.toNat % 128 ≠ 0 then .next (hartException s n fault)
      else if walkWaits s h h.dataPriv then .next s
      else
        match hartTranslate s n h .store va with
        | .raise e bad => .next (hartException (logBad s bad) n e)
        | .at pa =>
          match submissionPage pa with
          | none => .next (hartException s n fault)
          | some (f, q) =>
            if !readyBit s 0 then .next (hartException (logError s f 2 (BitVec.ofNat 64 pa)) n fault)
            else .next (submitFrom s n f q (recordOfHart h vs2.toNat) rd.toNat)

/-! ### User traps (R342) -/

/-- The bits of nutstat. -/
def nutPend (h : Hart) : Bool := h.nutstat.getLsbD 0
def nutAct (h : Hart) : Bool := h.nutstat.getLsbD 1

/-- R342: return from the handler. R342 names no zero bit of nutepc: the jump goes to the address as it stands, bit 0 included (log 141, DESIGN
CHOICE). -/
def execNuret (s : State) : Result :=
  withHart s fun n h =>
    if nutAct h then .next (setHart s n { h with pc := h.nutepc, nutstat := h.nutstat &&& ~~~(2#64) })
    else .next (hartException s n (.illegalInstruction 0x0000100B))

/-- R342: the trap is taken at an instruction boundary; it ends a Zawrs wait. -/
def execUserTrapTake (hart : Nat) (s : State) : Result :=
  let h := getHart s hart
  .next (if decide (hart < 96) && h.priv.isUser && h.nutvec.getLsbD 0 && nutPend h && !nutAct h then
      setHart s hart { h with wrs := none, nutepc := h.pc, nutstat := (h.nutstat ||| 2#64) &&& ~~~(1#64), pc := BitVec.ofNat 64 (bitsOf h.nutvec 63 2 * 4) }
    else s)

end Sys2Proof.Machine
end

