-- ==== Sys2Proof/Machine/Integer.lean ====
section
/-! DEFINITION. The integer, compare, pair, bit and immediate words (R124 to R132). -/

namespace Sys2Proof.Machine

/-- The count of a shift (R125): b[7:0]. -/
def shiftCount (b : Word) : Nat := b.toNat % 256
/-- The field descriptor of R125: position b[4:0] and length b[13:8], at most 32. -/
def fieldPos (b : Word) : Nat := b.toNat % 32
def fieldLen (b : Word) : Nat := Nat.min (bitsOf b 13 8) 32

def shlWord (a b : Word) : Word := if shiftCount b < 32 then a <<< shiftCount b else 0
def shrLogical (a b : Word) : Word := if shiftCount b < 32 then a >>> shiftCount b else 0
def shrArith (a b : Word) : Word := a.sshiftRight (Nat.min (shiftCount b) 32)
/-- bfx.n32: the field, zero-extended. -/
def bfxUnsigned (a b : Word) : Word := BitVec.ofNat 32 (a.toNat / 2 ^ fieldPos b % 2 ^ fieldLen b)
/-- bfx.i32: the field of a sign-extended, sign-extended from its length. -/
def bfxSigned (a b : Word) : Word :=
  let y := (a.sshiftRight (fieldPos b)).toNat % 2 ^ fieldLen b
  if fieldLen b = 0 then 0
  else if 2 ^ (fieldLen b - 1) ≤ y then BitVec.ofInt 32 ((y : Int) - 2 ^ fieldLen b) else BitVec.ofNat 32 y
/-- bfi: a's low bits into the field of c. -/
def bfiWord (a b c : Word) : Word :=
  let m : Word := BitVec.ofNat 32 ((2 ^ fieldLen b - 1) * 2 ^ fieldPos b)
  (c &&& ~~~m) ||| ((a <<< fieldPos b) &&& m)

def minSigned (a b : Word) : Word := if a.sle b then a else b
def maxSigned (a b : Word) : Word := if b.sle a then a else b
def minUnsigned (a b : Word) : Word := if a.ule b then a else b
def maxUnsigned (a b : Word) : Word := if b.ule a then a else b
/-- Bits [63:32] of the signed product. -/
def mulHighSigned (a b : Word) : Word := (a.signExtend 64 * b.signExtend 64).extractLsb' 32 32
def mulHighUnsigned (a b : Word) : Word := (a.setWidth 64 * b.setWidth 64).extractLsb' 32 32

/-- The number of zero bits above the highest set bit. -/
def countLeading (a : Word) : Nat := if a = 0 then 32 else 31 - Nat.log2 a.toNat
def countOnes {n : Nat} (a : BitVec n) : Nat := ((List.range n).filter fun k => a.getLsbD k).length
def reverseBits (a : Word) : Word :=
  (List.range 32).foldl (fun acc k => if a.getLsbD (31 - k) then acc ||| (1#32 <<< k) else acc) 0

/-- A 64-bit value from its bits. -/
def ofBits64 (h : Nat → Bool) : Dword := (List.range 64).foldl (fun acc k => if h k then acc ||| (1#64 <<< k) else acc) 0

def shl64 (a : Dword) (b : Word) : Dword := if shiftCount b < 64 then a <<< shiftCount b else 0
def shrLogical64 (a : Dword) (b : Word) : Dword := if shiftCount b < 64 then a >>> shiftCount b else 0
def shrArith64 (a : Dword) (b : Word) : Dword := a.sshiftRight (Nat.min (shiftCount b) 64)

/-- R130: the low bits of a to the set positions of b. -/
def depositBits (a b : Dword) : Dword :=
  ofBits64 fun k => b.getLsbD k && a.getLsbD ((List.range k).filter fun i => b.getLsbD i).length
/-- R130: the bits of a at the set positions of b, packed. -/
def extractBits (a b : Dword) : Dword :=
  let at_ := (List.range 64).filter fun i => b.getLsbD i
  ofBits64 fun k => match at_[k]? with
    | some i => a.getLsbD i
    | none => false
/-- R131: bit k of the result is bit C[6k+5:6k] of a. -/
def permBits (a : Dword) (control : List Word) : Dword :=
  let c := control.foldr (fun w acc => w.toNat + 2 ^ 32 * acc) 0
  ofBits64 fun k => a.getLsbD (c / 2 ^ (6 * k) % 64)
/-- R132: the product of two 8 by 8 matrices over GF(2). -/
def gf2Product (a b : Dword) : Dword :=
  ofBits64 fun n => ((List.range 8).filter fun k => a.getLsbD (8 * (n / 8) + k) && b.getLsbD (8 * k + n % 8)).length % 2 == 1

/-- R124. -/
def execAddI32 (o : RR) (s : State) : Result := runVec (.addI32 o) s fun _ => intOp fun a b _ => a + b
/-- R124. -/
def execSubI32 (o : RR) (s : State) : Result := runVec (.subI32 o) s fun _ => intOp fun a b _ => a - b
/-- R124. -/
def execMulI32 (o : RR) (s : State) : Result := runVec (.mulI32 o) s fun _ => intOp fun a b _ => a * b
/-- R124. -/
def execMulhI32 (o : RR) (s : State) : Result := runVec (.mulhI32 o) s fun _ => intOp fun a b _ => mulHighSigned a b
/-- R124. -/
def execMulhN32 (o : RR) (s : State) : Result := runVec (.mulhN32 o) s fun _ => intOp fun a b _ => mulHighUnsigned a b
/-- R124, R119. -/
def execMadI32 (o : RR) (s : State) : Result := runVec (.madI32 o) s fun _ => intOp fun a b c => a * b + c
/-- R124. -/
def execMinI32 (o : RR) (s : State) : Result := runVec (.minI32 o) s fun _ => intOp fun a b _ => minSigned a b
/-- R124. -/
def execMinN32 (o : RR) (s : State) : Result := runVec (.minN32 o) s fun _ => intOp fun a b _ => minUnsigned a b
/-- R124. -/
def execMaxI32 (o : RR) (s : State) : Result := runVec (.maxI32 o) s fun _ => intOp fun a b _ => maxSigned a b
/-- R124. -/
def execMaxN32 (o : RR) (s : State) : Result := runVec (.maxN32 o) s fun _ => intOp fun a b _ => maxUnsigned a b
/-- R124. -/
def execAndW (o : RR) (s : State) : Result := runVec (.andW o) s fun _ => intOp fun a b _ => a &&& b
/-- R124. -/
def execOrW (o : RR) (s : State) : Result := runVec (.orW o) s fun _ => intOp fun a b _ => a ||| b
/-- R124. -/
def execXorW (o : RR) (s : State) : Result := runVec (.xorW o) s fun _ => intOp fun a b _ => a ^^^ b
/-- R125. -/
def execShl (o : RR) (s : State) : Result := runVec (.shl o) s fun _ => intOp fun a b _ => shlWord a b
/-- R125. -/
def execShrN32 (o : RR) (s : State) : Result := runVec (.shrN32 o) s fun _ => intOp fun a b _ => shrLogical a b
/-- R125. -/
def execShrI32 (o : RR) (s : State) : Result := runVec (.shrI32 o) s fun _ => intOp fun a b _ => shrArith a b
/-- R124. -/
def execRotl (o : RR) (s : State) : Result := runVec (.rotl o) s fun _ => intOp fun a b _ => a.rotateLeft (b.toNat % 32)
/-- R124. -/
def execRotr (o : RR) (s : State) : Result := runVec (.rotr o) s fun _ => intOp fun a b _ => a.rotateRight (b.toNat % 32)
/-- R125. -/
def execBfxN32 (o : RR) (s : State) : Result := runVec (.bfxN32 o) s fun _ => intOp fun a b _ => bfxUnsigned a b
/-- R125. -/
def execBfxI32 (o : RR) (s : State) : Result := runVec (.bfxI32 o) s fun _ => intOp fun a b _ => bfxSigned a b
/-- R125, R119. -/
def execBfi (o : RR) (s : State) : Result := runVec (.bfi o) s fun _ => intOp fun a b c => bfiWord a b c
/-- R124, R119. -/
def execSel (o : RR) (s : State) : Result := runVec (.sel o) s fun _ => intOp fun a b c => if c ≠ 0 then a else b
/-- R128. -/
def execCmpEqI32 (o : CP) (s : State) : Result := runVec (.cmpEqI32 o) s fun _ => cmpOp fun a b => (a == b, {})
/-- R128. -/
def execCmpNeI32 (o : CP) (s : State) : Result := runVec (.cmpNeI32 o) s fun _ => cmpOp fun a b => (a != b, {})
/-- R128. -/
def execCmpLtI32 (o : CP) (s : State) : Result := runVec (.cmpLtI32 o) s fun _ => cmpOp fun a b => (a.slt b, {})
/-- R128. -/
def execCmpLtN32 (o : CP) (s : State) : Result := runVec (.cmpLtN32 o) s fun _ => cmpOp fun a b => (a.ult b, {})
/-- R128. -/
def execCmpLeI32 (o : CP) (s : State) : Result := runVec (.cmpLeI32 o) s fun _ => cmpOp fun a b => (a.sle b, {})
/-- R128. -/
def execCmpLeN32 (o : CP) (s : State) : Result := runVec (.cmpLeN32 o) s fun _ => cmpOp fun a b => (a.ule b, {})
/-- R129. -/
def execAddI64 (o : RR) (s : State) : Result := runVec (.addI64 o) s fun _ => pairOp fun a b _ => a + b
/-- R129. -/
def execSubI64 (o : RR) (s : State) : Result := runVec (.subI64 o) s fun _ => pairOp fun a b _ => a - b
/-- R129. -/
def execShlI64 (o : RR) (s : State) : Result := runVec (.shlI64 o) s fun _ => pairOp fun a _ w => shl64 a (w.headD 0)
/-- R129. -/
def execShrN64 (o : RR) (s : State) : Result := runVec (.shrN64 o) s fun _ => pairOp fun a _ w => shrLogical64 a (w.headD 0)
/-- R129. -/
def execShrI64 (o : RR) (s : State) : Result := runVec (.shrI64 o) s fun _ => pairOp fun a _ w => shrArith64 a (w.headD 0)
/-- R130. -/
def execBdep (o : RR) (s : State) : Result := runVec (.bdep o) s fun _ => pairOp fun a b _ => depositBits a b
/-- R130. -/
def execBext (o : RR) (s : State) : Result := runVec (.bext o) s fun _ => pairOp fun a b _ => extractBits a b
/-- R131. -/
def execBperm (o : RR) (s : State) : Result := runVec (.bperm o) s fun _ => pairOp fun a _ w => permBits a w
/-- R132. -/
def execGfm8 (o : RR) (s : State) : Result := runVec (.gfm8 o) s fun _ => pairOp fun a b _ => gf2Product a b
/-- R126. -/
def execAddi (o : RI) (s : State) : Result := runVec (.addi o) s fun iss => intOp fun a _ _ => a + riImm iss o.imm true
/-- R126. -/
def execAndi (o : RI) (s : State) : Result := runVec (.andi o) s fun iss => intOp fun a _ _ => a &&& riImm iss o.imm false
/-- R126. -/
def execOri (o : RI) (s : State) : Result := runVec (.ori o) s fun iss => intOp fun a _ _ => a ||| riImm iss o.imm false
/-- R126. -/
def execXori (o : RI) (s : State) : Result := runVec (.xori o) s fun iss => intOp fun a _ _ => a ^^^ riImm iss o.imm false
/-- R126. -/
def execShli (o : RI) (s : State) : Result := runVec (.shli o) s fun _ => intOp fun a _ _ => a <<< o.imm.toNat
/-- R126. -/
def execShriN32 (o : RI) (s : State) : Result := runVec (.shriN32 o) s fun _ => intOp fun a _ _ => a >>> o.imm.toNat
/-- R126. -/
def execShriI32 (o : RI) (s : State) : Result := runVec (.shriI32 o) s fun _ => intOp fun a _ _ => a.sshiftRight o.imm.toNat
/-- The immediate of movi (R71, R126): sign-extended, or IMM24[15:0]:IMM16 with ext. -/
def moviImm (iss : Issue) (imm : BitVec 16) : Word :=
  match iss.ext with
  | some k => k.extractLsb' 0 16 ++ imm
  | none => imm.signExtend 32

/-- R126. -/
def execMovi (c nw : Bool) (d : BitVec 7) (imm : BitVec 16) (s : State) : Result :=
  runVec (.movi c nw d imm) s fun iss => intOp fun _ _ _ => moviImm iss imm

/-- R127. -/
def execAbsI32 (o : RU) (s : State) : Result := runVec (.absI32 o) s fun _ => intOp fun a _ _ => if a.getLsbD 31 then 0 - a else a
/-- R127. -/
def execNegI32 (o : RU) (s : State) : Result := runVec (.negI32 o) s fun _ => intOp fun a _ _ => 0 - a
/-- R127. -/
def execNotW (o : RU) (s : State) : Result := runVec (.notW o) s fun _ => intOp fun a _ _ => ~~~a
/-- R127. -/
def execClz (o : RU) (s : State) : Result := runVec (.clz o) s fun _ => intOp fun a _ _ => BitVec.ofNat 32 (countLeading a)
/-- R127. -/
def execPopc (o : RU) (s : State) : Result := runVec (.popc o) s fun _ => intOp fun a _ _ => BitVec.ofNat 32 (countOnes a)
/-- R127. -/
def execBrev (o : RU) (s : State) : Result := runVec (.brev o) s fun _ => intOp fun a _ _ => reverseBits a
/-- R127. -/
def execMov (o : RU) (s : State) : Result := runVec (.mov o) s fun _ => intOp fun a _ _ => a

end Sys2Proof.Machine
end

