-- ==== Sys2Proof/Machine/Migrate.lean ====
section
/-! DEFINITION. The migration engine (R305 to R312) and the handover of shared pages (R313). -/

namespace Sys2Proof.Machine

/-! ### Access counters (R305) -/

/-- R305: a counter at its guest's threshold goes to 0, and a move to PREF is queued when nothing forbids it. -/
def execAccessCounterThreshold (guest : Nat) (pasid : BitVec 20) (page : Nat) (s : State) : Result :=
  let k := counterKey guest pasid page
  let c := tblGet {} s.counters k
  if thresholdOf s guest = 0 ∨ c.count < thresholdOf s guest then .next s
  else
    let s1 := { s with counters := tblErase s.counters k }
    .next (match pageOf s1 pasid (page * 2 ^ 18) with
      | none => s1
      | some p =>
        let pref := ptePref p.leaf
        if pref = 3 ∨ tierOf s1 p.frame = pref then s1
        else if pagePinned s1 p || pageCooling s1 guest pasid p || !migEnabled s1 c.ctx then s1
        else (enqueueMove s1 { id := 0, ctx := c.ctx, pasid := pasid, va := p.base, target := pref, needBy := none, place := false
                               die := c.die, core := 0, guest := guest }).getD s1)

/-! ### Frame rings (R308) -/

/-- The address of a ring descriptor of a context: size class, tier slot, direction. -/
def ringAt (s : State) (f cls slot dir : Nat) : Nat := bitsOf (getX s f 0x138) 51 10 * 1024 + 32 * (8 * cls + 2 * slot + dir)

/-- The engine reads a doubleword of a ring or of a page table for a context: an event, under the context's key (R260, R324); none where the
address gets an error response, which is logged (R339, R355, R358). -/
def engineRead (s : State) (f pa : Nat) : Option Nat × State :=
  match entryError s pa with
  | some cause => (none, logError s f cause (BitVec.ofNat 64 pa))
  | none =>
    let r := readTop s .migration (ctxKey s f) pa 8
    (some (natOfBytes r.1), r.2)

/-- The engine writes a doubleword for a context. -/
def engineWrite (s : State) (f pa v : Nat) : State :=
  match entryError s pa with
  | some cause => logError s f cause (BitVec.ofNat 64 pa)
  | none => writeTop s .migration (ctxKey s f) pa (bytesOf 8 v)

/-- A ring descriptor as the engine reads it (R308). -/
structure Ring where
  base : Nat
  log2 : Nat
  mine : Nat
  theirs : Nat
  deriving DecidableEq, Repr

/-- The address of an entry of a ring, by index; indices run freely (log 33, DEDUCED). -/
def Ring.entry (r : Ring) (index : Nat) : Nat := r.base + 8 * (index % 2 ^ (r.log2 % 32))

/-- Read a descriptor, doubleword by doubleword: none where one gets an error response. -/
def readRing (s : State) (f desc : Nat) : Option Ring × State :=
  let a := engineRead s f desc
  let b := engineRead a.2 f (desc + 8)
  let c := engineRead b.2 f (desc + 16)
  let d := engineRead c.2 f (desc + 24)
  (match a.1, b.1, c.1, d.1 with
    | some base, some n, some mine, some theirs => some { base := base, log2 := n, mine := mine, theirs := theirs }
    | _, _, _, _ => none, d.2)

/-- Take a frame from a free ring: none when it is empty, or when an access to it gets an error response (log 145, DESIGN CHOICE). -/
def takeFrame (s : State) (f desc : Nat) : Option Nat × State :=
  match readRing s f desc with
  | (some r, s1) =>
    if r.mine = r.theirs then (none, s1)
    else
      match engineRead s1 f (r.entry r.mine) with
      | (some frame, s2) => (some frame, engineWrite s2 f (desc + 16) (r.mine + 1))
      | (none, s2) => (none, s2)
  | (none, s1) => (none, s1)

/-- Put a frame back where it was taken from. -/
def untakeFrame (s : State) (f desc frame : Nat) : State :=
  match readRing s f desc with
  | (some r, s1) =>
    let i := (r.mine + 2 ^ 64 - 1) % 2 ^ 64
    engineWrite (engineWrite s1 f (r.entry i) frame) f (desc + 16) i
  | (none, s1) => s1

/-- Give a frame to a returned ring: none when it is full; one that cannot be read takes nothing (log 145, DESIGN CHOICE). -/
def giveFrame (s : State) (f desc frame : Nat) : Option State :=
  match readRing s f desc with
  | (some r, s1) =>
    if 2 ^ (r.log2 % 32) ≤ (r.mine + 2 ^ 64 - r.theirs) % 2 ^ 64 then none
    else some (engineWrite (engineWrite s1 f (r.entry r.mine) frame) f (desc + 16) (r.mine + 1))
  | (none, s1) => some s1

/-- Add 1 to a counting register of a context (R308). -/
def bumpX (s : State) (f offset : Nat) : State := setX s f offset (getX s f offset + 1)
def countDrop (s : State) (f : Nat) : State := bumpX s f 0x140
def countLate (s : State) (f : Nat) : State := bumpX s f 0x148
def countNoFrame (s : State) (f : Nat) : State := bumpX s f 0x150

/-! ### Starting a move (R307, R309, R311, R312) -/

/-- The need-by point has passed (R311). -/
def pastPoint (s : State) (needBy : Option Nat) : Bool := (needBy.map fun n => decide (n < s.clock)).getD false

/-- A page that a request names is being moved: the request is behind the move. -/
def behindMove (s : State) (r : MigRequest) : Bool := s.moves.any fun m => m.pasid == r.pasid && m.va == r.va

/-- The request with the earliest point of a list, the first of equals. -/
def earliest : List MigRequest → Option MigRequest
  | [] => none
  | r :: rs =>
    match earliest rs with
    | none => some r
    | some x => if r.needBy.getD 0 ≤ x.needBy.getD 0 then some r else some x

/-- The request that starts next (R307); the engine does nothing under a key that is being reset (R326). -/
def nextRequest (s : State) : Option MigRequest :=
  let q := s.migQueue.filter fun r => !behindMove s r && !keyBusy s (ctxKey s r.ctx)
  (earliest (q.filter fun r => r.needBy.isSome)).orElse fun _ =>
    (q.find? fun r => r.place).orElse fun _ => q.head?

def dropRequest (s : State) (id : Nat) : State := { s with migQueue := s.migQueue.filter fun r => !(r.id == id) }

/-- The tier slot of a frame (R308). -/
def tierSlot (s : State) (frame : Nat) : Nat :=
  match placeOf s frame with
  | .tier0 d => d
  | .tier1 => 2
  | _ => 3

/-- The tier slot that a request's target names; tier 0 of the requesting die. -/
def targetSlot (r : MigRequest) : Nat := if r.target = 0 then r.die % 2 else r.target + 1

/-- The size class of a page (R308). -/
def sizeClass (bits : Nat) : Nat := if bits = 18 then 0 else if bits = 25 then 1 else 2

/-- The engine puts a cell into the memory of a tier. -/
def putCell (s : State) (a : Nat) (c : Cell) : State :=
  { s with mem := tblSet 0 s.mem a c.1, stale := tblErase s.stale a
           memTag := match c.2 with
             | some k => tblInsert s.memTag a k
             | none => tblErase s.memTag a }

/-- Copy one byte of a page to its new frame, under the key of the context that the engine serves (R324): what the engine reads it writes. -/
def copyByte (key src dst : Nat) (s : State) (o : Nat) : State :=
  let c := cellAt s (locate s (src + o))
  putCell s (locate s (dst + o))
    (match c.2 with
      | none => c
      | some _ => (openCell s key (locate s (src + o)) (cellAt s), some (keyNow s key)))

/-- The offsets of a frame of 2^bits bytes at which memory holds anything. -/
def heldOffsets (s : State) (frame bits : Nat) : List Nat :=
  (s.mem.filterMap fun e => offsetIn s frame bits e.1) ++ (s.memTag.filterMap fun e => offsetIn s frame bits e.1)

/-- An access of the engine to a page that it moves is an event after every event so far (R260). Its writes give no access another value:
each access to the page has one place in time order, whichever frame serves it (R309), and finds what that place holds. -/
def engineEvent (s : State) (a n : Nat) (rd : Bool) : State := noteEvent s { agent := .migration } 0 0 (locate s a) n rd [] []

/-- Copy one 128-byte line of a page: a read and a write. -/
def copyLine (key src dst : Nat) (s : State) (line : Nat) : State :=
  let s1 := ((List.range 128).map fun i => 128 * line + i).foldl (copyByte key src dst) (engineEvent s (src + 128 * line) 128 true)
  engineEvent s1 (dst + 128 * line) 128 false

/-- Copy every line of the page, in ascending order (R309), before any access of another agent (log 51, DEDUCED); of lines that hold nothing in
either frame nothing is to be copied (log 146, DEDUCED). -/
def copyPage (s : State) (key src dst bits : Nat) : State :=
  let ls := (heldOffsets s src bits ++ heldOffsets s dst bits).foldl (fun (t : Tbl Unit) o => tblInsert t (o / 128) ()) []
  (ls.map Prod.fst).foldl (copyLine key src dst) s

/-- The entries of a page as the engine reads them at the start of a move (R310). -/
def readPtes (s : State) (f : Nat) : List Nat → List (Nat × Dword) × State
  | [] => ([], s)
  | a :: as =>
    let r := engineRead s f a
    let t := readPtes r.2 f as
    ((a, BitVec.ofNat 64 (r.1.getD 0)) :: t.1, t.2)

/-- Start a request whose page may move: it takes a frame, and the copying begins (R308, R309) (log 51, DEDUCED) (log 74, DEDUCED). -/
def startMove (s : State) (r : MigRequest) (p : PageInfo) : State :=
  match takeFrame s r.ctx (ringAt s r.ctx (sizeClass p.bits) (targetSlot r) 0) with
  | (none, s1) => countNoFrame s1 r.ctx
  | (some dst, s1) =>
    let e := readPtes s1 r.ctx (p.ptes.map Prod.fst)
    let m : Move := { id := r.id, ctx := r.ctx, pasid := r.pasid, va := p.base, bits := p.bits, src := p.frame, dst := dst
                      dstSlot := targetSlot r, cls := sizeClass p.bits, ptes := e.1, needBy := r.needBy, guest := r.guest }
    copyPage { e.2 with moves := e.2.moves ++ [m] } (ctxKey s1 r.ctx) p.frame dst p.bits

/-- R307: the engine starts its next request, when fewer than 16 moves run. -/
def execMigrationStart (s : State) : Result :=
  if 16 ≤ s.moves.length then .next s
  else
    match nextRequest s with
    | none => .next s
    | some r =>
      let s1 := dropRequest s r.id
      .next (if pastPoint s r.needBy then countDrop s1 r.ctx
        else
          match pageOf s1 r.pasid r.va with
          | none => s1
          | some p =>
            if tierOf s1 p.frame = r.target || pagePinned s1 p || pteSH p.leaf then s1 else startMove s1 r p)

/-- R311: a queued request's point passes. -/
def execNeedByExpiry (id : Nat) (s : State) : Result :=
  match s.migQueue.find? fun r => r.id == id with
  | none => .next s
  | some r => .next (if pastPoint s r.needBy then countDrop (dropRequest s id) r.ctx else s)

/-! ### The phases (R309, R310) -/

def modMove (s : State) (id : Nat) (h : Move → Move) : State := { s with moves := s.moves.map fun m => if m.id == id then h m else m }
def dropMove (s : State) (id : Nat) : State := { s with moves := s.moves.filter fun m => !(m.id == id) }

/-- R309: every line is copied; the final phase begins. -/
def execMigrationCopyDone (id : Nat) (s : State) : Result :=
  .next (modMove s id fun m => if m.phase = .copying then { m with phase := .final } else m)

/-- The compare-and-swap of one entry (R310), one event under the context's key: whether it found the value of the move's start. -/
def swapPte (s : State) (f : Nat) (e : Nat × Dword) (new : Dword) : Bool × State :=
  match entryError s e.1 with
  | some cause => (false, logError s f cause (BitVec.ofNat 64 e.1))
  | none =>
    let r := updateSpace { s with backs := [] } { agent := .migration } 0 (ctxKey s f) e.1 8 fun bs =>
      if natOfBytes bs = e.2.toNat then some (bytesOf 8 new.toNat) else none
    (natOfBytes r.1 == e.2.toNat, { r.2 with backs := s.backs })

/-- The entries with the new frame in PFN alone (R310). -/
def ptesMoved (m : Move) : List ((Nat × Dword) × Dword) :=
  (List.range m.ptes.length).map fun i =>
    let e := (m.ptes[i]?).getD (0, 0)
    (e, withBits e.2 51 18 (m.dst / 2 ^ 18 + i))

/-- Swap the entries of a page, all or none (log 56, DEDUCED): when one differs, its compare-and-swap alone is made. -/
def swapPtes (s : State) (m : Move) : Bool × State :=
  match (ptesMoved m).find? fun e => !(swapPte s m.ctx e.1 e.2).1 with
  | some e => (false, (swapPte s m.ctx e.1 e.2).2)
  | none => (true, (ptesMoved m).foldl (fun t e => (swapPte t m.ctx e.1 e.2).2) s)

/-- Apply the write window in acceptance order (log 58, DEDUCED): the writes took their places when they were accepted (R309). -/
def applyWindow (s : State) (m : Move) (base : Nat) : State :=
  m.window.foldl (fun t w =>
    engineEvent ((List.range w.2.length).foldl (fun u i =>
      putCell u (locate u (base + (w.1 - m.src) + i)) ((w.2[i]?).getD 0, some (keyNow u (ctxKey u m.ctx)))) t)
      (base + (w.1 - m.src)) w.2.length false) s

/-- The events to a page name its bytes by its new frame from the switch on, and so do its pins (R198, R312) and the sealed frames of regions
(R316). -/
def renamePage (s : State) (m : Move) : State :=
  let event (e : Event) : Event :=
    match (if e.space = 0 then offsetIn s m.src m.bits e.first else none) with
    | some o => { e with first := locate s (m.dst + o) }
    | none => e
  let frame (n : Nat) : Nat :=
    if m.src / 2 ^ 18 ≤ n ∧ n < (m.src + 2 ^ m.bits) / 2 ^ 18 then n - m.src / 2 ^ 18 + m.dst / 2 ^ 18 else n
  { s with past := s.past.map event
           pins := s.pins.foldl (fun t e => tblSet 0 t (frame e.1) e.2) []
           regionsOf := s.regionsOf.map fun e => (e.1, { e.2 with frames := e.2.frames.map frame }) }

/-- THE ABORT (R310): the window goes to the source, the frame back to its ring. -/
def abortMove (s : State) (m : Move) : State :=
  let s1 := applyWindow (dropMove s m.id) m m.src
  let s2 := countNoFrame (untakeFrame s1 m.ctx (ringAt s1 m.ctx m.cls m.dstSlot 0) m.dst) m.ctx
  replayAll s2 (windowOpen s2)

/-- THE SWITCH (R309, R310), the entries being rewritten: old translations are dropped, the window is applied; held accesses replay. -/
def switchMove (s : State) (m : Move) : State :=
  let d := dropTlb s fun p base bits => p == m.pasid && overlaps m.va (2 ^ m.bits) base (2 ^ bits)
  let s2 := applyWindow (modMove d.2 m.id fun x => { x with phase := .switching, window := [], deps := d.1.accesses }) m m.dst
  let s3 := renamePage s2 m
  replayAll s3 (windowOpen s3)

/-- R309, R310: the marked lines are recopied, and the move switches, or aborts when an entry has changed. -/
def execMigrationSwitch (id : Nat) (s : State) : Result :=
  match s.moves.find? fun m => m.id == id && m.phase == .final with
  | none => .next s
  | some m =>
    if keyBusy s (ctxKey s m.ctx) then .next s
    else
      let r := swapPtes (m.marked.foldl (copyLine (ctxKey s m.ctx) m.src m.dst) s) m
      .next (if r.1 then switchMove r.2 m else abortMove r.2 m)

/-- Accesses that the move's invalidation waits for, and forwarded ones, are gone (R309). -/
def moveQuiet (s : State) (m : Move) : Bool :=
  !s.accesses.any fun a => !a.held && (m.deps.contains a.id ||
    (match a.pa with
      | some pa => spaceOf a.kind == 0 && decide (m.src ≤ pa) && decide (pa < m.src + 2 ^ m.bits)
      | none => false))

/-- Mark a page as cooling; the oldest of 256 marks gives way (R311). -/
def markCooling (s : State) (key : Nat) (guest : Nat) : State :=
  let rest := s.cooling.filter fun c => !(c.1 == key)
  let kept := if 256 ≤ rest.length then rest.drop 1 else rest
  { s with cooling := kept ++ [(key, s.clock + usClocks (bitsOf (getX s 0 (0x2800 + 8 * guest)) 47 32))] }

/-- The counters of a page that has moved are reset (R305). -/
def resetCounters (s : State) (m : Move) : State :=
  let lo := counterKey m.guest m.pasid (m.va / 2 ^ 18)
  { s with counters := s.counters.filter fun e => !(decide (lo ≤ e.1) && decide (e.1 < lo + 2 ^ (m.bits - 18))) }

/-- R309, R311: the move ends, its source frame is returned; while the returned ring is full it waits. -/
def execMigrationEnd (id : Nat) (s : State) : Result :=
  match s.moves.find? fun m => m.id == id && m.phase == .switching with
  | none => .next s
  | some m =>
    if !moveQuiet s m || keyBusy s (ctxKey s m.ctx) then .next s
    else
      match giveFrame s m.ctx (ringAt s m.ctx m.cls (tierSlot s m.src) 1) m.src with
      | none => .next s
      | some s1 =>
        let s2 := resetCounters (dropMove s1 m.id) m
        .next (if pastPoint s m.needBy then
            markCooling (countLate s2 m.ctx) (counterKey m.guest m.pasid (m.va / 2 ^ 18)) m.guest
          else s2)

/-- R311: the cooling time of a marked page ends. -/
def execCoolingExpiry (key : Nat) (s : State) : Result :=
  .next { s with cooling := s.cooling.filter fun c => !(c.1 == key && decide (c.2 ≤ s.clock)) }

/-! ### Shared pages (R313) -/

/-- The places of a table of 2^bits bytes, in units of n bytes, at which memory holds anything. -/
def heldPlaces (s : State) (table bits n : Nat) : List Nat :=
  ((heldOffsets s table bits).foldl (fun (t : Tbl Unit) o => tblInsert t (o / n) ()) []).map Prod.fst

/-- The virtual addresses that the leaves below a table map, one for each leaf. -/
def leavesBelow (s : State) (va table level : Nat) : Nat → List Nat
  | 0 => []
  | fuel + 1 => ((heldPlaces s table 16 8).map fun i =>
      let e : Dword := BitVec.ofNat 64 (readClear s (table + 8 * i) 8)
      let here := va + i * 2 ^ levelBits level
      if pteKind e = 1 then leavesBelow s here (pteTable e) (level + 1) fuel
      else if pteKind e = 2 then [here] else []).flatten

/-- The pages with SH set that the tables of some PASID map at a physical address (R298, R313). -/
def sharedPages (s : State) (pa : Nat) : List PageInfo :=
  let tab := bitsOf (getX s 0 0x1000) 51 12 * 4096
  ((heldPlaces s tab 24 16).map fun n =>
    let pasid := BitVec.ofNat 20 n
    match pasidEntry s pasid with
    | none => []
    | some e => (leavesBelow s 0 (bitsOf e 51 16 * 2 ^ 16) 0 3).filterMap fun va =>
        (pageOf s pasid va).filter fun p => pteSH p.leaf && decide (p.frame ≤ pa) && decide (pa < p.frame + 2 ^ p.bits)).flatten

/-- R313: the hub hands over the whole page of a back-invalidated line, as the leaf with SH set that maps it gives its size, one page of a
port at a time: its dirty lines are written back, and its cached lines dropped. A line of no shared page is none of the rule's (log 97,
DESIGN CHOICE). -/
def execBackInvalidate (pa : Nat) (s : State) : Result :=
  match placeOf s pa, sharedPages s pa with
  | .tier2 port, p :: ps =>
    if s.handovers.any fun h => h.port == port then .next s
    else
      let n := ps.foldl (fun m q => Nat.max m q.bits) p.bits
      let page := pa / 2 ^ n * 2 ^ n
      .next { s with handovers := s.handovers ++ [{ pa := page, bits := n, port := port }]
                     stale := s.stale.filter fun e => (offsetIn s page n e.1).isNone
                     lines := s.lines.filter fun l => (offsetIn s page n (128 * l.line)).isNone }
  | _, _ => .next s

/-- R313, R304: the handover ends, and the accesses that it held replay in order. -/
def execPageHandoverComplete (pa : Nat) (s : State) : Result :=
  let covers (h : Handover) : Bool := decide (h.pa ≤ pa) && decide (pa < h.pa + 2 ^ h.bits)
  let s1 := { s with handovers := s.handovers.filter fun h => !covers h }
  .next (if s.handovers.any covers then replayAll s1 (handoverOver s1) else s)

end Sys2Proof.Machine
end

