-- ==== Sys2Proof/Machine/Special.lean ====
section
/-! DEFINITION. The special functions (R116, R117, R142, R363). The exact result is found as a number of hundreds of bits; a word returns
a value within the bound of R116 of it, which one is not fixed by the spec (Config.specialPick). -/

namespace Sys2Proof.Machine

/-- The scale of the fixed-point numbers below: 2^320. -/
def fixBits : Nat := 320
def fixOne : Int := 2 ^ 320
/-- Pi x 2^320, rounded down. -/
def fixPi : Int := 0x3243f6a8885a308d313198a2e03707344a4093822299f31d0082efa98ec4e6c89452821e638d01377
/-- The natural logarithm of 2 x 2^320, rounded down. -/
def fixLn2 : Int := 0xb17217f7d1cf79abc9e3b39803f2f6af40f343267298b62d8a0d175b8baafa2be7b876206debac98

/-- Product and quotient of fixed-point numbers, rounded down. -/
def fixMul (a b : Int) : Int := a * b / fixOne
def fixDiv (a b : Int) : Int := a * fixOne / b

/-- m x 2^e as a fixed-point number. -/
def fixOf (neg : Bool) (m : Nat) (e : Int) : Int :=
  let v : Int := if 0 ≤ e + fixBits then ((m * pow2 (e + fixBits) : Nat) : Int) else ((m / pow2 (-(e + fixBits)) : Nat) : Int)
  if neg then -v else v

/-- The sum of r^n / n! from term n on. -/
def expSeries (r : Int) : Nat → Nat → Int → Int
  | 0, _, _ => 0
  | fuel + 1, n, term => term + expSeries r fuel (n + 1) (fixMul term r / ((n : Int) + 1))

/-- e^x for a fixed-point x, as a fixed-point number times 2^k. -/
def fixExp (x : Int) : Int × Int :=
  let k := x / fixLn2
  (expSeries (x - k * fixLn2) 90 0 fixOne, k)

/-- The odd series z + z^3/3 + z^5/5 + ... -/
def atanhSeries (z2 : Int) : Nat → Nat → Int → Int
  | 0, _, _ => 0
  | fuel + 1, n, power => power / (2 * (n : Int) + 1) + atanhSeries z2 fuel (n + 1) (fixMul power z2)

/-- The logarithm of m x 2^e. -/
def fixLog (m : Nat) (e : Int) : Int :=
  let lead := Nat.log2 m
  let y := fixOf false m (-(lead : Int))
  let low := decide (2 * y < 3 * fixOne)
  let y1 := if low then y else y / 2
  let k : Int := e + lead + (if low then 0 else 1)
  let z := fixDiv (y1 - fixOne) (y1 + fixOne)
  k * fixLn2 + 2 * atanhSeries (fixMul z z) 80 0 z

/-- The alternating series of sine (from term x) and cosine (from term 1). -/
def trigSeries (x2 : Int) : Nat → Nat → Int → Int
  | 0, _, _ => 0
  | fuel + 1, n, term => term + trigSeries x2 fuel (n + 2) (-(fixMul term x2) / (((n : Int) + 1) * ((n : Int) + 2)))

def fixSin (x : Int) : Int :=
  let r := x % (2 * fixPi)
  trigSeries (fixMul r r) 60 1 r
def fixCos (x : Int) : Int :=
  let r := x % (2 * fixPi)
  trigSeries (fixMul r r) 60 0 fixOne

/-- What the numbers of fixExp, fixLog and fixTanh may differ from the exact ones, and those of fixSin and fixCos, in units of the scale. -/
def fixErr : Nat := 2 ^ 20
def trigErr : Nat := 2 ^ 140

/-- tanh of a fixed-point x of magnitude below 64. -/
def fixTanh (x : Int) : Int :=
  let e := fixExp (2 * x)
  let v := if 0 ≤ e.2 then e.1 * ((2 : Int) ^ e.2.toNat) else e.1 / ((2 : Int) ^ (-e.2).toNat)
  fixDiv (v - fixOne) (v + fixOne)

/-- The place of a value in the order of a format: +0 is 0 and -0 is -1. -/
def indexOf (neg : Bool) (mag : Nat) : Int := if neg then -(mag : Int) - 1 else mag
/-- The encoding at a place. -/
def FpFormat.ofIndex (f : FpFormat) (i : Int) : Nat := if i < 0 then f.sign true + (-i - 1).toNat else i.toNat

/-- The unit in the last place in the binade of a magnitude (R116), as an exponent of 2. -/
def FpFormat.ulpExp (f : FpFormat) (m : Nat) (e : Int) : Int :=
  let q := (Nat.log2 m : Int) + e - f.mb
  if q < f.minUnit then f.minUnit else q

/-- The least (or greatest) place whose value is not below (not above) v x 2^e, within the finite values. -/
def FpFormat.bound (f : FpFormat) (upper : Bool) (v e : Int) : Int :=
  let neg := decide (v < 0)
  let r := if v = 0 then 0 else (f.roundBits (if upper then 3 else 2) neg v.natAbs e false).1
  let c := if f.maxFinite < r then f.maxFinite else r
  if c = 0 then (if upper then 0 else -1) else indexOf neg c

/-- A value within a bound a x 2^b of a number that lies nearer than err x 2^e to v x 2^e: one of those within the bound less err of it, the
one that the part picks. -/
def FpFormat.within (f : FpFormat) (v e : Int) (err a : Nat) (b : Int) (limit : Int) (pick : Nat) : Nat :=
  let s : Int := if b < e then b - 8 else e - 8
  let w := v * ((2 : Int) ^ (e - s).toNat)
  let d : Int := ((a * pow2 (b - s) - err * pow2 (e - s) : Nat) : Int)
  let lo0 := f.bound false (w - d) s
  let hi0 := f.bound true (w + d) s
  let lo := if lo0 < -limit - 1 then -limit - 1 else lo0
  let hi := if limit < hi0 then limit else hi0
  f.ofIndex (lo + ((pick % (hi - lo + 1).toNat : Nat) : Int))

/-- A quotient n / d of magnitudes times 2^e, correctly rounded to nearest, ties to even (R116). -/
def FpFormat.roundQuotient (f : FpFormat) (neg : Bool) (n d : Nat) (e : Int) : Nat × Bool :=
  let k := 64 + Nat.log2 d
  let q := n * 2 ^ k / d
  let sticky := n * 2 ^ k % d != 0
  let r := f.roundBits 0 neg (2 * q + (if sticky then 1 else 0)) (e - k - 1) false
  (r.1, r.2)

/-- 1 / x (R116, R363). -/
def specialRcp (f : FpFormat) (neg : Bool) (m : Nat) (e : Int) : Nat × Status :=
  let r := f.roundQuotient neg 1 m (-e)
  if f.maxFinite < r.1 then (f.infBits neg, { ovf := true })
  else (f.sign neg + r.1, { uf := r.2 && r.1 < 2 ^ f.mb })

/-- The square root, correctly rounded (R116). -/
def specialSqrt (f : FpFormat) (m : Nat) (e : Int) : Nat :=
  let odd := e % 2 == 1
  let m1 := (if odd then 2 * m else m) * 4 ^ 64
  let e1 := (if odd then e - 1 else e) / 2 - 64
  let q := Nat.sqrt m1
  (f.roundBits 0 false (2 * q + (if q * q == m1 then 0 else 1)) (e1 - 1) false).1

/-- The reciprocal square root: exact for powers of 4 (R116). -/
def specialRsqrt (f : FpFormat) (m : Nat) (e : Int) (narrow : Bool) (pick : Nat) : Nat :=
  let odd := e % 2 == 1
  let m1 := if odd then 2 * m else m
  let e1 := (if odd then e - 1 else e) / 2
  let r := Nat.sqrt m1
  if r * r == m1 && 2 ^ Nat.log2 r == r then (f.roundBits 0 false 1 (-e1 - (Nat.log2 r : Int)) false).1
  else
    let y := Nat.sqrt (4 ^ 200 / m1)
    let v : Int := y
    let e2 := -e1 - 200
    f.within v e2 1 1 (f.ulpExp y e2 - (if narrow then 1 else 0)) f.maxFinite pick

/-- The bound of R116 on a function's result as a times 2^b: ulps of the result, or an absolute bound for sine and cosine. -/
def ulpBound (f : FpFormat) (ulps : Nat) (v e : Int) : Nat × Int := (ulps, f.ulpExp v.natAbs e)

/-- The larger of two bounds. -/
def largerBound (x y : Nat × Int) : Nat × Int :=
  let s := if x.2 < y.2 then x.2 else y.2
  if x.1 * pow2 (x.2 - s) < y.1 * pow2 (y.2 - s) then y else x

/-- e^x for a finite nonzero x (R116, R363): never below +0 (R117). -/
def specialExp (f : FpFormat) (ulps : Nat) (neg : Bool) (m : Nat) (e : Int) (pick : Nat) : Nat × Status :=
  let x := fixOf neg m e
  if 200 * fixOne < x then (f.infBits false, { ovf := true })
  else if x < -200 * fixOne then (0, { uf := true })
  else
    let y := fixExp x
    let ye := y.2 - fixBits
    let near := f.roundBits 0 false y.1.natAbs ye true
    if f.maxFinite < near.1 then (f.infBits false, { ovf := true })
    else if (Nat.log2 y.1.natAbs : Int) + ye < f.minUnit then (0, { uf := true })
    else
      let b := ulpBound f ulps y.1 ye
      let r := f.within y.1 ye fixErr b.1 b.2 f.maxFinite pick
      (if f.sign true ≤ r then 0 else r, { uf := near.1 < 2 ^ f.mb })

/-- A sine or cosine at a finite nonzero operand (R116): within ulps or an absolute bound, within 2^-20 beyond 2^20, or half a unit
where the format has no value so near (log 25, DEDUCED). -/
def specialTrig (f : FpFormat) (ulps : Nat) (abs : Int) (cosine neg : Bool) (m : Nat) (e : Int) (pick : Nat) : Nat :=
  let x := fixOf neg m e
  let y := if cosine then fixCos x else fixSin x
  let half : Nat × Int := (1, (ulpBound f 1 y (-320)).2 - 1)
  let b := if 2 ^ 20 * fixOne < x.natAbs then largerBound (1, -20) half
    else largerBound (ulpBound f ulps y (-320)) (1, abs)
  f.within y (-320) trigErr b.1 b.2 f.maxFinite pick

/-- tanh at a finite nonzero operand: 1 in magnitude where the exact result rounds to it, and never above (R117). At a power of two the exact
result lies just below it, in the binade below. -/
def specialTanh (f : FpFormat) (ulps : Nat) (neg : Bool) (m : Nat) (e : Int) (pick : Nat) : Nat :=
  let x := fixOf neg m e
  let y := if 64 * fixOne ≤ x then fixOne - 2 ^ 200 else if x ≤ -64 * fixOne then 2 ^ 200 - fixOne else fixTanh x
  let b := ulpBound f ulps (y.natAbs - fixErr : Nat) (-320)
  let one := f.bias * 2 ^ f.mb
  if (f.roundBits 0 false y.natAbs (-320) false).1 = one then f.sign neg + one
  else f.within y (-320) fixErr b.1 b.2 (one : Int) pick

/-- A special function by its code (R74) at an operand: the special inputs of R117, else a value within the bound. -/
def specialFn (fn ty x : Nat) : Nat × Status :=
  let f := fpOfCode ty
  let ulps := if ty = 0 then 2 else 1
  let pick := Config.specialPick fn ty (BitVec.ofNat 32 x)
  let one := f.bias * 2 ^ f.mb
  let bad : Nat × Status := (f.canon, { nv := true })
  match f.decode x with
  | .nan s => (f.canon, { nv := s })
  | .inf neg =>
    match fn with
    | 0 => (if neg then 0 else f.infBits false, {})
    | 1 | 4 => if neg then bad else (f.infBits false, {})
    | 2 => (f.sign neg, {})
    | 3 => if neg then bad else (0, {})
    | 5 | 6 => bad
    | _ => (f.sign neg + one, {})
  | .fin neg m e =>
    if m = 0 then
      match fn with
      | 0 | 6 => (one, {})
      | 1 => (f.infBits true, { dz := true })
      | 2 | 3 => (f.infBits neg, { dz := true })
      | _ => (f.sign neg, {})
    else
      match fn with
      | 0 => specialExp f ulps neg m e pick
      | 1 =>
        if neg then bad
        else if x = one then (0, {})
        else
          let y := fixLog m e
          let b := ulpBound f ulps y (-320)
          (f.within y (-320) fixErr b.1 b.2 f.maxFinite pick, {})
      | 2 => specialRcp f neg m e
      | 3 => if neg then bad else (specialRsqrt f m e (ty != 0) pick, {})
      | 4 => if neg then bad else (specialSqrt f m e, {})
      | 5 => (specialTrig f ulps (if ty = 0 then -22 else -10) false neg m e pick, {})
      | 6 => (specialTrig f ulps (if ty = 0 then -22 else -10) true neg m e pick, {})
      | _ => (specialTanh f ulps neg m e pick, {})

/-- A special-function lane operation (R142): FP16 and BF16 operands stand in bits [15:0]. -/
def specialOp (fn : Nat) (o : SF) : LaneOp := fun a _ _ _ =>
  let r := specialFn fn o.ty.toNat ((a.headD 0).toNat % 2 ^ ((fpOfCode o.ty.toNat).magBits + 1))
  ([BitVec.ofNat 32 r.1], r.2)

/-- R116, R117, R142. -/
def execExp (o : SF) (s : State) : Result := runVec (.exp o) s fun _ => specialOp 0 o
/-- R116, R117, R142. -/
def execLog (o : SF) (s : State) : Result := runVec (.log o) s fun _ => specialOp 1 o
/-- R116, R117, R142. -/
def execRcp (o : SF) (s : State) : Result := runVec (.rcp o) s fun _ => specialOp 2 o
/-- R116, R117, R142. -/
def execRsqrt (o : SF) (s : State) : Result := runVec (.rsqrt o) s fun _ => specialOp 3 o
/-- R116, R117, R142. -/
def execSqrt (o : SF) (s : State) : Result := runVec (.sqrt o) s fun _ => specialOp 4 o
/-- R116, R117, R142. -/
def execSin (o : SF) (s : State) : Result := runVec (.sin o) s fun _ => specialOp 5 o
/-- R116, R117, R142. -/
def execCos (o : SF) (s : State) : Result := runVec (.cos o) s fun _ => specialOp 6 o
/-- R116, R117, R142. -/
def execTanh (o : SF) (s : State) : Result := runVec (.tanh o) s fun _ => specialOp 7 o

end Sys2Proof.Machine
end

