-- ==== Sys2Proof/Machine/Dispatch.lean ====
section
/-! DEFINITION. What each instruction does: one arm for each constructor of Instr, one direct call of its meaning. -/

namespace Sys2Proof.Machine

def exec (i : Instr) (s : State) : Host.Outcome State Fault Refusal :=
  match i with
  | .addI32 o => Sys2Proof.Machine.execAddI32 o s
  | .subI32 o => Sys2Proof.Machine.execSubI32 o s
  | .mulI32 o => Sys2Proof.Machine.execMulI32 o s
  | .mulhI32 o => Sys2Proof.Machine.execMulhI32 o s
  | .mulhN32 o => Sys2Proof.Machine.execMulhN32 o s
  | .madI32 o => Sys2Proof.Machine.execMadI32 o s
  | .minI32 o => Sys2Proof.Machine.execMinI32 o s
  | .minN32 o => Sys2Proof.Machine.execMinN32 o s
  | .maxI32 o => Sys2Proof.Machine.execMaxI32 o s
  | .maxN32 o => Sys2Proof.Machine.execMaxN32 o s
  | .andW o => Sys2Proof.Machine.execAndW o s
  | .orW o => Sys2Proof.Machine.execOrW o s
  | .xorW o => Sys2Proof.Machine.execXorW o s
  | .shl o => Sys2Proof.Machine.execShl o s
  | .shrN32 o => Sys2Proof.Machine.execShrN32 o s
  | .shrI32 o => Sys2Proof.Machine.execShrI32 o s
  | .rotl o => Sys2Proof.Machine.execRotl o s
  | .rotr o => Sys2Proof.Machine.execRotr o s
  | .bfxN32 o => Sys2Proof.Machine.execBfxN32 o s
  | .bfxI32 o => Sys2Proof.Machine.execBfxI32 o s
  | .bfi o => Sys2Proof.Machine.execBfi o s
  | .sel o => Sys2Proof.Machine.execSel o s
  | .cmpEqI32 o => Sys2Proof.Machine.execCmpEqI32 o s
  | .cmpNeI32 o => Sys2Proof.Machine.execCmpNeI32 o s
  | .cmpLtI32 o => Sys2Proof.Machine.execCmpLtI32 o s
  | .cmpLtN32 o => Sys2Proof.Machine.execCmpLtN32 o s
  | .cmpLeI32 o => Sys2Proof.Machine.execCmpLeI32 o s
  | .cmpLeN32 o => Sys2Proof.Machine.execCmpLeN32 o s
  | .addI64 o => Sys2Proof.Machine.execAddI64 o s
  | .subI64 o => Sys2Proof.Machine.execSubI64 o s
  | .shlI64 o => Sys2Proof.Machine.execShlI64 o s
  | .shrN64 o => Sys2Proof.Machine.execShrN64 o s
  | .shrI64 o => Sys2Proof.Machine.execShrI64 o s
  | .bdep o => Sys2Proof.Machine.execBdep o s
  | .bext o => Sys2Proof.Machine.execBext o s
  | .bperm o => Sys2Proof.Machine.execBperm o s
  | .gfm8 o => Sys2Proof.Machine.execGfm8 o s
  | .addi o => Sys2Proof.Machine.execAddi o s
  | .andi o => Sys2Proof.Machine.execAndi o s
  | .ori o => Sys2Proof.Machine.execOri o s
  | .xori o => Sys2Proof.Machine.execXori o s
  | .shli o => Sys2Proof.Machine.execShli o s
  | .shriN32 o => Sys2Proof.Machine.execShriN32 o s
  | .shriI32 o => Sys2Proof.Machine.execShriI32 o s
  | .movi c nw d imm => Sys2Proof.Machine.execMovi c nw d imm s
  | .absI32 o => Sys2Proof.Machine.execAbsI32 o s
  | .negI32 o => Sys2Proof.Machine.execNegI32 o s
  | .notW o => Sys2Proof.Machine.execNotW o s
  | .clz o => Sys2Proof.Machine.execClz o s
  | .popc o => Sys2Proof.Machine.execPopc o s
  | .brev o => Sys2Proof.Machine.execBrev o s
  | .mov o => Sys2Proof.Machine.execMov o s
  | .addF32 o => Sys2Proof.Machine.execAddF32 o s
  | .subF32 o => Sys2Proof.Machine.execSubF32 o s
  | .mulF32 o => Sys2Proof.Machine.execMulF32 o s
  | .fmaF32 o => Sys2Proof.Machine.execFmaF32 o s
  | .minF32 o => Sys2Proof.Machine.execMinF32 o s
  | .maxF32 o => Sys2Proof.Machine.execMaxF32 o s
  | .minnumF32 o => Sys2Proof.Machine.execMinnumF32 o s
  | .maxnumF32 o => Sys2Proof.Machine.execMaxnumF32 o s
  | .scaleF32 o => Sys2Proof.Machine.execScaleF32 o s
  | .cmpEqF32 o => Sys2Proof.Machine.execCmpEqF32 o s
  | .cmpLtF32 o => Sys2Proof.Machine.execCmpLtF32 o s
  | .cmpLeF32 o => Sys2Proof.Machine.execCmpLeF32 o s
  | .cmpUnF32 o => Sys2Proof.Machine.execCmpUnF32 o s
  | .cvt o t src => Sys2Proof.Machine.execCvt o t src s
  | .rnd o t => Sys2Proof.Machine.execRnd o t s
  | .addBf16 o => Sys2Proof.Machine.execAddBf16 o s
  | .mulBf16 o => Sys2Proof.Machine.execMulBf16 o s
  | .fmaBf16 o => Sys2Proof.Machine.execFmaBf16 o s
  | .addF16 o => Sys2Proof.Machine.execAddF16 o s
  | .mulF16 o => Sys2Proof.Machine.execMulF16 o s
  | .fmaF16 o => Sys2Proof.Machine.execFmaF16 o s
  | .packBf16 o => Sys2Proof.Machine.execPackBf16 o s
  | .packF16 o => Sys2Proof.Machine.execPackF16 o s
  | .dot4E4m3 o => Sys2Proof.Machine.execDot4E4m3 o s
  | .allNz c nw d sa => Sys2Proof.Machine.execAllNz c nw d sa s
  | .anyNz c nw d sa => Sys2Proof.Machine.execAnyNz c nw d sa s
  | .allEq c nw d sa => Sys2Proof.Machine.execAllEq c nw d sa s
  | .nzmask c nw d sa => Sys2Proof.Machine.execNzmask c nw d sa s
  | .scanInc c nw d sa op => Sys2Proof.Machine.execScanInc c nw d sa op s
  | .scanExc c nw d sa op => Sys2Proof.Machine.execScanExc c nw d sa op s
  | .reduce c nw d sa op => Sys2Proof.Machine.execReduce c nw d sa op s
  | .lcnt c nw d sa => Sys2Proof.Machine.execLcnt c nw d sa s
  | .exp o => Sys2Proof.Machine.execExp o s
  | .log o => Sys2Proof.Machine.execLog o s
  | .rcp o => Sys2Proof.Machine.execRcp o s
  | .rsqrt o => Sys2Proof.Machine.execRsqrt o s
  | .sqrt o => Sys2Proof.Machine.execSqrt o s
  | .sin o => Sys2Proof.Machine.execSin o s
  | .cos o => Sys2Proof.Machine.execCos o s
  | .tanh o => Sys2Proof.Machine.execTanh o s
  | .ld o => Sys2Proof.Machine.execLd o s
  | .st o => Sys2Proof.Machine.execSt o s
  | .lds o => Sys2Proof.Machine.execLds o s
  | .sts o => Sys2Proof.Machine.execSts o s
  | .ldw o => Sys2Proof.Machine.execLdw o s
  | .pf c bp rh we ws l2 => Sys2Proof.Machine.execPf c bp rh we ws l2 s
  | .spill o => Sys2Proof.Machine.execSpill o s
  | .fill o => Sys2Proof.Machine.execFill o s
  | .scld o => Sys2Proof.Machine.execScld o s
  | .atomAdd o => Sys2Proof.Machine.execAtomAdd o s
  | .atomMin o => Sys2Proof.Machine.execAtomMin o s
  | .atomMax o => Sys2Proof.Machine.execAtomMax o s
  | .atomAnd o => Sys2Proof.Machine.execAtomAnd o s
  | .atomOr o => Sys2Proof.Machine.execAtomOr o s
  | .atomXor o => Sys2Proof.Machine.execAtomXor o s
  | .atomExch o => Sys2Proof.Machine.execAtomExch o s
  | .atomCas o => Sys2Proof.Machine.execAtomCas o s
  | .redAdd o => Sys2Proof.Machine.execRedAdd o s
  | .redMin o => Sys2Proof.Machine.execRedMin o s
  | .redMax o => Sys2Proof.Machine.execRedMax o s
  | .redAnd o => Sys2Proof.Machine.execRedAnd o s
  | .redOr o => Sys2Proof.Machine.execRedOr o s
  | .redXor o => Sys2Proof.Machine.execRedXor o s
  | .kvres o => Sys2Proof.Machine.execKvres o s
  | .fence c sc => Sys2Proof.Machine.execFence c sc s
  | .barInit c sa k => Sys2Proof.Machine.execBarInit c sa k s
  | .barArrive o k => Sys2Proof.Machine.execBarArrive o k s
  | .barExpect c sa k => Sys2Proof.Machine.execBarExpect c sa k s
  | .barWait o k => Sys2Proof.Machine.execBarWait o k s
  | .barTest o k => Sys2Proof.Machine.execBarTest o k s
  | .barInval c sa => Sys2Proof.Machine.execBarInval c sa s
  | .kick o => Sys2Proof.Machine.execKick o s
  | .cstat o => Sys2Proof.Machine.execCstat o s
  | .commit o l => Sys2Proof.Machine.execCommit o l s
  | .cln c sa k => Sys2Proof.Machine.execCln c sa k s
  | .inv c sa k => Sys2Proof.Machine.execInv c sa k s
  | .clninv c sa k => Sys2Proof.Machine.execClninv c sa k s
  | .place o n t => Sys2Proof.Machine.execPlace o n t s
  | .pin o => Sys2Proof.Machine.execPin o s
  | .unpin o => Sys2Proof.Machine.execUnpin o s
  | .mma o p => Sys2Proof.Machine.execMma o p s
  | .mmaSp o p => Sys2Proof.Machine.execMmaSp o p s
  | .smm o ty ent => Sys2Proof.Machine.execSmm o ty ent s
  | .smmSp o ty ent => Sys2Proof.Machine.execSmmSp o ty ent s
  | .opld c ec sa n => Sys2Proof.Machine.execOpld c ec sa n s
  | .mzero c ec ls => Sys2Proof.Machine.execMzero c ec ls s
  | .mfillF32 c ec ls ent => Sys2Proof.Machine.execMfillF32 c ec ls ent s
  | .mfillI32 c ec ls ent => Sys2Proof.Machine.execMfillI32 c ec ls ent s
  | .mtosp o => Sys2Proof.Machine.execMtosp o s
  | .mpld c ec sa => Sys2Proof.Machine.execMpld c ec sa s
  | .mclass c ec sa sb => Sys2Proof.Machine.execMclass c ec sa sb s
  | .mbits c ec sa sb => Sys2Proof.Machine.execMbits c ec sa sb s
  | .bz c sa off => Sys2Proof.Machine.execBz c sa off s
  | .bnz c sa off => Sys2Proof.Machine.execBnz c sa off s
  | .bps c k off => Sys2Proof.Machine.execBps c k off s
  | .bpc c k off => Sys2Proof.Machine.execBpc c k off s
  | .jmp c off => Sys2Proof.Machine.execJmp c off s
  | .call c fr off => Sys2Proof.Machine.execCall c fr off s
  | .calli c fr sa => Sys2Proof.Machine.execCalli c fr sa s
  | .jmpi c sa => Sys2Proof.Machine.execJmpi c sa s
  | .ret c => Sys2Proof.Machine.execRet c s
  | .spawn c d sa off => Sys2Proof.Machine.execSpawn c d sa off s
  | .topen c t => Sys2Proof.Machine.execTopen c t s
  | .fuse c t => Sys2Proof.Machine.execFuse c t s
  | .leave c t => Sys2Proof.Machine.execLeave c t s
  | .nop c => Sys2Proof.Machine.execNop c s
  | .endFibre c => Sys2Proof.Machine.execEndFibre c s
  | .yield c => Sys2Proof.Machine.execYield c s
  | .trigger c => Sys2Proof.Machine.execTrigger c s
  | .pass c => Sys2Proof.Machine.execPass c s
  | .brk c imm => Sys2Proof.Machine.execBrk c imm s
  | .trap c imm => Sys2Proof.Machine.execTrap c imm s
  | .relocate o => Sys2Proof.Machine.execRelocate o s
  | .wsb c m => Sys2Proof.Machine.execWsb c m s
  | .csrr c r n => Sys2Proof.Machine.execCsrr c r n s
  | .csrw c r n => Sys2Proof.Machine.execCsrw c r n s
  | .csrs c r n => Sys2Proof.Machine.execCsrs c r n s
  | .csrc c r n => Sys2Proof.Machine.execCsrc c r n s
  | .rdpw c r => Sys2Proof.Machine.execRdpw c r s
  | .wrpw c r => Sys2Proof.Machine.execWrpw c r s
  | .rep nr nc ca cb rsd rsa rsb => Sys2Proof.Machine.execRep nr nc ca cb rsd rsa rsb s
  | .xl pat k fill => Sys2Proof.Machine.execXl pat k fill s
  | .grd sense bit => Sys2Proof.Machine.execGrd sense bit s
  | .ext imm => Sys2Proof.Machine.execExt imm s
  | .nsubmit vs2 rs1 rd => Sys2Proof.Machine.execNsubmit vs2 rs1 rd s
  | .nuret => Sys2Proof.Machine.execNuret s
  | .groupPark gid => Sys2Proof.Machine.execGroupPark gid s
  | .trapQueueEnter core => Sys2Proof.Machine.execTrapQueueEnter core s
  | .accessFinish id err => Sys2Proof.Machine.execAccessFinish id err s
  | .spillEntryWritten id => Sys2Proof.Machine.execSpillEntryWritten id s
  | .instructionFetch gid lane => Sys2Proof.Machine.execInstructionFetch gid lane s
  | .relocateMove gid => Sys2Proof.Machine.execRelocateMove gid s
  | .barWaitWake gid lane => Sys2Proof.Machine.execBarWaitWake gid lane s
  | .barWaitBoundExpiry gid lane => Sys2Proof.Machine.execBarWaitBoundExpiry gid lane s
  | .groupStarved gid => Sys2Proof.Machine.execGroupStarved gid s
  | .fibreStarved gid lane => Sys2Proof.Machine.execFibreStarved gid lane s
  | .copyBegin id => Sys2Proof.Machine.execCopyBegin id s
  | .copyWordTransfer id err => Sys2Proof.Machine.execCopyWordTransfer id err s
  | .matrixGatherComplete quarter err => Sys2Proof.Machine.execMatrixGatherComplete quarter err s
  | .matrixExecute quarter => Sys2Proof.Machine.execMatrixExecute quarter s
  | .matrixExecuteComplete quarter => Sys2Proof.Machine.execMatrixExecuteComplete quarter s
  | .landingExecute quarter => Sys2Proof.Machine.execLandingExecute quarter s
  | .mtospRowWrite quarter => Sys2Proof.Machine.execMtospRowWrite quarter s
  | .commitWriteback id => Sys2Proof.Machine.execCommitWriteback id s
  | .opldLoadDone id => Sys2Proof.Machine.execOpldLoadDone id s
  | .mpldLoadDone id => Sys2Proof.Machine.execMpldLoadDone id s
  | .streetDirectoryInstall die f index => Sys2Proof.Machine.execStreetDirectoryInstall die f index s
  | .sdinvGo f value => Sys2Proof.Machine.execSdinvGo f value s
  | .sdinvComplete f => Sys2Proof.Machine.execSdinvComplete f s
  | .avenueSlot die => Sys2Proof.Machine.execAvenueSlot die s
  | .refreshWindowEnd die => Sys2Proof.Machine.execRefreshWindowEnd die s
  | .submitDmw f q offset record => Sys2Proof.Machine.execSubmitDmw f q offset record s
  | .submissionPageStore f q offset => Sys2Proof.Machine.execSubmissionPageStore f q offset s
  | .dispatchRecord f q => Sys2Proof.Machine.execDispatchRecord f q s
  | .cmdLaunch f q => Sys2Proof.Machine.execCmdLaunch f q s
  | .cmdCopy f q => Sys2Proof.Machine.execCmdCopy f q s
  | .cmdWaitOnValue f q => Sys2Proof.Machine.execCmdWaitOnValue f q s
  | .waitOnValuePoll f q => Sys2Proof.Machine.execWaitOnValuePoll f q s
  | .cmdSignal f q => Sys2Proof.Machine.execCmdSignal f q s
  | .cmdSkipIf f q => Sys2Proof.Machine.execCmdSkipIf f q s
  | .cmdJump f q => Sys2Proof.Machine.execCmdJump f q s
  | .cmdCall f q => Sys2Proof.Machine.execCmdCall f q s
  | .cmdReturn f q => Sys2Proof.Machine.execCmdReturn f q s
  | .cmdSeal f q => Sys2Proof.Machine.execCmdSeal f q s
  | .cmdOpen f q => Sys2Proof.Machine.execCmdOpen f q s
  | .cmdRelease f q => Sys2Proof.Machine.execCmdRelease f q s
  | .cmdNotify f q => Sys2Proof.Machine.execCmdNotify f q s
  | .regionCommandEffect id => Sys2Proof.Machine.execRegionCommandEffect id s
  | .launchReady uid => Sys2Proof.Machine.execLaunchReady uid s
  | .positionAdmit uid => Sys2Proof.Machine.execPositionAdmit uid s
  | .admissionWaitExpiry uid => Sys2Proof.Machine.execAdmissionWaitExpiry uid s
  | .residencyTimeout uid => Sys2Proof.Machine.execResidencyTimeout uid s
  | .refillPoint die => Sys2Proof.Machine.execRefillPoint die s
  | .tlbinvGo f value => Sys2Proof.Machine.execTlbinvGo f value s
  | .tlbinvComplete f => Sys2Proof.Machine.execTlbinvComplete f s
  | .atsInvalidateRequest pasid va pages => Sys2Proof.Machine.execAtsInvalidateRequest pasid va pages s
  | .atsTranslationCompletion pasid va hpa rd wr ex => Sys2Proof.Machine.execAtsTranslationCompletion pasid va hpa rd wr ex s
  | .priPageResponse pasid va ok => Sys2Proof.Machine.execPriPageResponse pasid va ok s
  | .rbcmdReplay core entry => Sys2Proof.Machine.execRbcmdReplay core entry s
  | .rbcmdAbandon core entry => Sys2Proof.Machine.execRbcmdAbandon core entry s
  | .rbcmdAbandonPageTrap core entry => Sys2Proof.Machine.execRbcmdAbandonPageTrap core entry s
  | .accessCounterThreshold guest pasid page => Sys2Proof.Machine.execAccessCounterThreshold guest pasid page s
  | .migrationStart => Sys2Proof.Machine.execMigrationStart s
  | .migrationCopyDone id => Sys2Proof.Machine.execMigrationCopyDone id s
  | .migrationSwitch id => Sys2Proof.Machine.execMigrationSwitch id s
  | .migrationEnd id => Sys2Proof.Machine.execMigrationEnd id s
  | .needByExpiry id => Sys2Proof.Machine.execNeedByExpiry id s
  | .coolingExpiry key => Sys2Proof.Machine.execCoolingExpiry key s
  | .backInvalidate pa => Sys2Proof.Machine.execBackInvalidate pa s
  | .pageHandoverComplete pa => Sys2Proof.Machine.execPageHandoverComplete pa s
  | .timeSliceExpiry p => Sys2Proof.Machine.execTimeSliceExpiry p s
  | .contextSwitch p => Sys2Proof.Machine.execContextSwitch p s
  | .groupSave gid => Sys2Proof.Machine.execGroupSave gid s
  | .preemptGraceExpiry id => Sys2Proof.Machine.execPreemptGraceExpiry id s
  | .preemptKillExpiry id => Sys2Proof.Machine.execPreemptKillExpiry id s
  | .contextRestore p => Sys2Proof.Machine.execContextRestore p s
  | .pquotaWrite p v => Sys2Proof.Machine.execPquotaWrite p v s
  | .pshareWrite p v => Sys2Proof.Machine.execPshareWrite p v s
  | .vfbindWrite vf v => Sys2Proof.Machine.execVfbindWrite vf v s
  | .pfbindWrite v => Sys2Proof.Machine.execPfbindWrite v s
  | .kslotReset k => Sys2Proof.Machine.execKslotReset k s
  | .kslotResetDone k => Sys2Proof.Machine.execKslotResetDone k s
  | .ebctlWrite f v => Sys2Proof.Machine.execEbctlWrite f v s
  | .sqcfgWrite f q v => Sys2Proof.Machine.execSqcfgWrite f q v s
  | .sqcfgEnd f q => Sys2Proof.Machine.execSqcfgEnd f q s
  | .cxlhdmWrite port dec r v => Sys2Proof.Machine.execCxlhdmWrite port dec r v s
  | .fctlReset f => Sys2Proof.Machine.execFctlReset f s
  | .registerWrite f offset v => Sys2Proof.Machine.execRegisterWrite f offset v s
  | .errstatPop f => Sys2Proof.Machine.execErrstatPop f s
  | .errstatOvfClear f => Sys2Proof.Machine.execErrstatOvfClear f s
  | .kbootGo v => Sys2Proof.Machine.execKbootGo v s
  | .rtpkcLoad v => Sys2Proof.Machine.execRtpkcLoad v s
  | .rtpkcLoadDone => Sys2Proof.Machine.execRtpkcLoadDone s
  | .tqpop core => Sys2Proof.Machine.execTqpop core s
  | .mbbell core v => Sys2Proof.Machine.execMbbell core v s
  | .wincmdRelease core => Sys2Proof.Machine.execWincmdRelease core s
  | .wincmdEnd core => Sys2Proof.Machine.execWincmdEnd core s
  | .wincmdEnterSingleStep core => Sys2Proof.Machine.execWincmdEnterSingleStep core s
  | .wincmdLeaveSingleStep core => Sys2Proof.Machine.execWincmdLeaveSingleStep core s
  | .wincmdReleaseFibre core lane => Sys2Proof.Machine.execWincmdReleaseFibre core lane s
  | .windowWrite core offset v => Sys2Proof.Machine.execWindowWrite core offset v s
  | .userTrapTake hart => Sys2Proof.Machine.execUserTrapTake hart s
  | .powerOn imageOk => Sys2Proof.Machine.execPowerOn imageOk s
  | .itemReady item failed => Sys2Proof.Machine.execItemReady item failed s
  | .pldmMonitorControl message => Sys2Proof.Machine.execPldmMonitorControl message s
  | .pldmFirmwareUpdate imageOk => Sys2Proof.Machine.execPldmFirmwareUpdate imageOk s
  | .spdmMessage message => Sys2Proof.Machine.execSpdmMessage message s
  | .ownerPreemptionCommand f => Sys2Proof.Machine.execOwnerPreemptionCommand f s

end Sys2Proof.Machine
end

