-- ==== Sys2Proof/Machine/HartRun.lean ====
section
/-! DEFINITION. How a hart of the host die or a kiosk runs its next word (R340 to R343, R350): RVA23 with the hypervisor extension on the host
die, RV64GC with Zba, Zbb, Zicond and Zawrs on a kiosk (log 100, PRESUMED), and the Nothal extensions. A word that needs a register which
a waiting load is to give, other than to compute from it, waits until that load has taken its place. -/

namespace Sys2Proof.Machine

/-! ### Running one word -/

/-- What a hart's word comes to: the next state, an exception, or a wait for some of the hart's operations. -/
inductive HartEnd
  | ok (s : State) | raise (e : HartExc) (s : State) | wait (ids : List Nat)

/-- Wait for the operations that are to give some registers, else go on. -/
def HartEnd.after (h : Hart) (keys : List Nat) (r : HartEnd) : HartEnd := if (h.owners keys).isEmpty then r else .wait (h.owners keys)

/-- The counter goes on to the next word. -/
def hartGoOn (s : State) (n len : Nat) : State :=
  let h := getHart s n
  setHart s n { h with pc := h.pc + BitVec.ofNat 64 len }

/-- A register written at once, with the load events that its value depends on. -/
def hartSet (s : State) (n rd : Nat) (v : Dword) (deps : List Nat) : State :=
  setHart s n (Hart.setDep s ((getHart s n).setReg rd v) rd deps)

/-- A word that computes registers: at once, or when its sources are known. -/
def runCompute (s : State) (n len : Nat) (h : Hart) (w : Word) : HartEnd :=
  if (rvCompute (isKiosk n) h 0 w []).isNone then .raise (.illegalInstruction w) s
  else
    let t := finishWord s n w (rvUses h w) []
    .ok (hartGoOn (setHart t n ((getHart t n).usedUnits w)) n len)

/-! ### Loads, stores and atomics -/

/-- A word of one access: it begins its pieces, its registers are computed from what they load, and its loads take their places unless the hart
runs ahead of them. -/
def runAccess (s : State) (n len : Nat) (h : Hart) (w : Word) (ahead : Bool) (r : HartReach) (o : HartOrder) (x : List HartPart) : HartEnd :=
  if walkWaits s h r.mode then .wait []
  else
    match piecesAt s n h r x with
    | (_, some (e, bad)) => .raise e (logBad s bad)
    | (good, none) =>
      match (good.map (deviceWaits s n h r)).flatten with
      | id :: ids => .wait (id :: ids)
      | [] =>
        let b := good.foldl (beginPiece n w r o) { state := s }
        match b.fault with
        | some (e, t) => .raise e t
        | none =>
          let t := if r.kind = .store then b.state else finishWord b.state n w (rvUses h w) b.src
          let u := addressFloor t n o.deps
          let v := if ahead then u else placeNow u n b.src
          .ok (hartGoOn (setHart v n ((getHart v n).usedUnits w)) n len)

/-- How a hart's plain loads and stores go. -/
def reachOf (h : Hart) (kind : HartOpKind) : HartReach :=
  { kind := kind, mode := h.dataPriv, use := if kind = .load ∨ kind = .lr then .load else .store }

/-- The address of a word by its base register and an offset. -/
def addressFrom (h : Hart) (r : HartReach) (rs1 : Nat) (off : Dword) : Dword := if r.code then h.reg rs1 + off else h.masked r.mode r.use (h.reg rs1 + off)

/-- A scalar load or store of an address. -/
def runScalar (s : State) (n len : Nat) (h : Hart) (w : Word) (ahead : Bool) (r : HartReach) (off : Dword) (size data : Nat) : HartEnd :=
  let rs1 := rvRs1 w
  .after h [rs1] (runAccess s n len h w ahead r { deps := h.dep rs1 }
    (HartPart.pieces { va := addressFrom h r rs1 off, size := size, data := data }))

/-- An atomic word (opcode 0x2F): aligned. -/
def runAtomic (s : State) (n len : Nat) (h : Hart) (w : Word) (ahead : Bool) : HartEnd :=
  let f5 := bitsOf w 31 27
  let size := 2 ^ rvF3 w
  let kind : HartOpKind := if f5 = 2 then .lr else if f5 = 3 then .sc else .amo
  let r := reachOf h kind
  let va := addressFrom h r (rvRs1 w) 0
  if !(rvF3 w == 2 || rvF3 w == 3) || (f5 == 2 && rvRs2 w != 0) || (decide (3 < f5 ∨ f5 < 2) && (amoOp f5 (8 * size) 0 0).isNone) then
    .raise (.illegalInstruction w) s
  else
    .after h [rvRs1 w] (if va.toNat % size ≠ 0 then .raise (.misaligned r.use va r.mode.isVirtual) s
      else runAccess s n len h w ahead r { aq := w.getLsbD 26, rl := w.getLsbD 25, deps := h.dep (rvRs1 w) }
        [{ va := va, size := size, data := rvRs2 w }])

/-- The number of whole parts among the first pieces. -/
def wholeParts : List (List HartPart) → Nat → Nat
  | [], _ => 0
  | x :: xs, k => if x.length ≤ k then 1 + wholeParts xs (k - x.length) else 0

/-- A VECTOR LOAD OR STORE: its elements in order, up to one that faults. That one leaves its number in vstart and raises its exception, or for a
load of which only the first may fault cuts vl. -/
def runVectorAccess (s : State) (n len : Nat) (h : Hart) (w : Word) (ahead : Bool) (load : Bool) (m : VMem) : HartEnd :=
  let r := reachOf h (if load then .load else .store)
  let index := match m.address with
    | .indexed g => g.regs.map keyV
    | .strided => [rvRs2 w]
    | .unit => []
  let mask := if m.masked then [keyV 0] else []
  let o : HartOrder := { deps := h.depsOf (rvRs1 w :: index), control := h.depsOf (keyCsr csrVl :: mask) }
  .after h (rvRs1 w :: (index ++ mask)) (
    if walkWaits s h r.mode then .wait []
    else
      let all := m.elements h
      let parts := all.map fun x =>
        HartPart.pieces { va := h.masked r.mode r.use (m.addressOf h w x.1 x.2.1), size := m.group.eew / 8, data := keyV (x.2.2 / 32), offset := x.2.2 % 32 }
      let found := piecesAt s n h r parts.flatten
      let done := wholeParts parts found.1.length
      let good := found.1.take (parts.take done).flatten.length
      match (good.map (deviceWaits s n h r)).flatten with
      | id :: ids => .wait (id :: ids)
      | [] =>
        let b := good.foldl (beginPiece n w r o) { state := s }
        match b.fault with
        | some (e, t) => .raise e t
        | none =>
          let t := addressFloor (if load then finishWord b.state n w (rvUses h w) b.src else b.state) n o.deps
          let u := if ahead then t else placeNow t n b.src
          let k := getHart u n
          let stop := ((all[done]?).map fun x => x.1).getD 0
          match found.2 with
          | none => .ok (hartGoOn (setHart u n (k.usedUnits w)) n len)
          | some (e, bad) =>
            if m.faultFirst && decide (0 < stop) then
              .ok (hartGoOn (setHart u n ((k.setCsr csrVl (BitVec.ofNat 64 stop)).usedUnits w)) n len)
            else .raise e (logBad (setHart u n ((k.usedUnits w).setCsr csrVstart (BitVec.ofNat 64 stop))) bad))

/-- A load (opcodes 0x03 and 0x07). -/
def runLoad (s : State) (n len : Nat) (h : Hart) (w : Word) (ahead : Bool) : HartEnd :=
  let fp := bitsOf w 6 0 == 0x07
  if fp && isVectorWidth w then
    (match vMem h true w with
      | some m => runVectorAccess s n len h w ahead true m
      | none => .raise (.illegalInstruction w) s)
  else if (if fp then (fpLoadFormat (isKiosk n) (rvF3 w)).isNone else rvF3 w == 7) then .raise (.illegalInstruction w) s
  else runScalar s n len h w ahead (reachOf h .load) (immI w) (2 ^ (rvF3 w % 4)) 0

/-- A store (opcodes 0x23 and 0x27). -/
def runStore (s : State) (n len : Nat) (h : Hart) (w : Word) : HartEnd :=
  let fp := bitsOf w 6 0 == 0x27
  if fp && isVectorWidth w then
    (match vMem h false w with
      | some m => runVectorAccess s n len h w false false m
      | none => .raise (.illegalInstruction w) s)
  else if (if fp then (fpLoadFormat (isKiosk n) (rvF3 w)).isNone else decide (4 ≤ rvF3 w)) then .raise (.illegalInstruction w) s
  else runScalar s n len h w false (reachOf h .store) (immS w) (2 ^ rvF3 w) (if fp then keyF (rvRs2 w) else rvRs2 w)

/-! ### Fences and cache blocks (opcode 0x0F) -/

/-- What a bit of an environment register lets a mode do: menvcfg below M-mode, then henvcfg for a guest and senvcfg for a user. -/
def envAllows (n : Nat) (h : Hart) (allows : Dword → Bool) : CsrUse :=
  if h.priv = .m then .allowed
  else if !allows (h.csr csrMenvcfg) then .illegal
  else if h.priv.isVirtual && !allows (h.csr csrHenvcfg) then .guest
  else if h.priv.isUser && !isKiosk n && !allows (h.csr csrSenvcfg) then (if h.priv.isVirtual then .guest else .illegal)
  else .allowed

/-- A use that is not allowed raises its exception. -/
def CsrUse.orElse (u : CsrUse) (s : State) (w : Word) (r : HartEnd) : HartEnd :=
  match u with
  | .allowed => r
  | .illegal => .raise (.illegalInstruction w) s
  | .guest => .raise (.virtualInstruction w) s

/-- Device accesses of a fence count as memory accesses too, where FIOM says so. -/
def fiom (n : Nat) (h : Hart) : Bool :=
  h.priv != .m && ((h.csr csrMenvcfg).getLsbD 0 || (h.priv.isVirtual && (h.csr csrHenvcfg).getLsbD 0)
    || (h.priv.isUser && !isKiosk n && (h.csr csrSenvcfg).getLsbD 0))

/-- The sets that four bits of a FENCE name. -/
def fenceSets (implied : Bool) (v : Nat) : FenceSets :=
  { i := v.testBit 3, o := v.testBit 2, r := v.testBit 1 || (implied && v.testBit 3), w := v.testBit 0 || (implied && v.testBit 2) }

/-- The lines of a cache block leave every cache: dirty bytes are written back (R189); with keep the lines stay, clean. -/
def cleanBlock (s : State) (pa : Nat) (keep : Bool) : State :=
  let line := locate s pa / 128
  let t := cleanLine s line
  if keep then t else { t with lines := t.lines.filter fun l => l.line != line }

/-- CBO.CLEAN, CBO.FLUSH and CBO.INVAL on the 64 bytes that hold an address: an invalidation flushes (log 151, DESIGN CHOICE); they wait for the
hart's earlier accesses of the block. -/
def runBlock (s : State) (n len : Nat) (h : Hart) (w : Word) (keep : Bool) : HartEnd :=
  let r : HartReach := { kind := .load, mode := h.dataPriv, use := .load }
  let va := h.masked r.mode .store (h.reg (rvRs1 w))
  let block : Dword := BitVec.ofNat 64 (va.toNat / 64 * 64)
  let asStore (e : HartExc) : HartExc := match e with
    | .pageFault _ _ v => .pageFault .store va v
    | .accessFault _ _ v => .accessFault .store va v
    | .guestPageFault _ _ g i => .guestPageFault .store va g i
    | e => e
  .after h [rvRs1 w] (
    if walkWaits s h r.mode then .wait []
    else
      match translateFor s n h r.mode .load false block with
      | .raise e bad => .raise (asStore e) (logBad s bad)
      | .at pa =>
        if hartPlace s n pa ≠ .memory then .raise (.accessFault .store va r.mode.isVirtual) s
        else
          match (h.ops.filter fun x => x.isAccess && overlaps x.pa x.size pa 64).map fun x => x.id with
          | id :: ids => .wait (id :: ids)
          | [] => .ok (hartGoOn (addressFloor (cleanBlock s pa keep) n (h.dep (rvRs1 w))) n len))

/-- FENCE, FENCE.TSO, FENCE.I and the cache-block words. A fetch may come from memory as it stood after the latest FENCE.I, which waits until the
hart's stores have taken their places. -/
def runFence (s : State) (n len : Nat) (h : Hart) (w : Word) : HartEnd :=
  match rvF3 w with
  | 0 =>
    let h1 :=
      if bitsOf w 31 28 = 8 then
        Hart.fence s (Hart.fence s h { i := false, o := false, r := true, w := false } { i := false, o := false, r := true, w := true })
          { i := false, o := false, r := false, w := true } { i := false, o := false, r := false, w := true }
      else Hart.fence s h (fenceSets (fiom n h) (bitsOf w 27 24)) (fenceSets (fiom n h) (bitsOf w 23 20))
    .ok (hartGoOn (setHart s n h1) n len)
  | 1 =>
    if h.waitingStores.isEmpty then .ok (hartGoOn (setHart s n { h with fetchFloor := laterOf s h.fetchFloor h.stored }) n len)
    else .wait h.waitingStores
  | 2 =>
    if isKiosk n ∨ rvRd w ≠ 0 then .raise (.illegalInstruction w) s
    else
      (match bitsOf w 31 20 with
        | 0 => (envAllows n h fun v => bitsOf v 5 4 % 2 == 1).orElse s w (runBlock s n len h w false)
        | 1 => (envAllows n h fun v => v.getLsbD 6).orElse s w (runBlock s n len h w true)
        | 2 => (envAllows n h fun v => v.getLsbD 6).orElse s w (runBlock s n len h w false)
        | 4 =>
          let r := reachOf h .store
          let va := (h.masked r.mode .store (h.reg (rvRs1 w))).toNat / 64 * 64
          (envAllows n h fun v => v.getLsbD 7).orElse s w (.after h [rvRs1 w] (runAccess s n len h w false r { deps := h.dep (rvRs1 w) }
            ((List.range 8).map fun i => { va := BitVec.ofNat 64 (va + 8 * i), size := 8 })))
        | _ => .raise (.illegalInstruction w) s)
  | _ => .raise (.illegalInstruction w) s

/-! ### Control registers and privileged words (opcode 0x73) -/

/-- The stored registers that a control register's reading depends on. -/
def csrKeys (k : Nat) : List Nat :=
  match k with
  | 0x003 => [keyCsr csrFflags, keyCsr csrFrm]
  | 0x00F => [keyCsr csrVxsat, keyCsr csrVxrm]
  | k => [keyCsr k]

/-- What a word that sets or clears bits starts from: the value read, but in mip the external interrupt's bit as software has left it. -/
def csrKept (h : Hart) (k : Nat) (old : Dword) : Dword := if k = csrMip then withBits old 9 9 (bitNat ((h.csr csrMip).getLsbD 9)) else old

/-- A word that reads and writes a control register; the load events that a register's value depends on go with the value (R275). -/
def runCsr (s : State) (n len : Nat) (h : Hart) (w : Word) : HartEnd :=
  let k := bitsOf w 31 20
  let j := csrNumber h k
  let imm := decide (4 ≤ rvF3 w)
  let op := rvF3 w % 4
  let src : Dword := if imm then BitVec.ofNat 64 (rvRs1 w) else h.reg (rvRs1 w)
  let writes := op == 1 || rvRs1 w != 0
  (csrUse n h k j writes).orElse s w (.after h ((if imm then [] else [rvRs1 w]) ++ csrKeys j) (
    let old := readCsr s n h j
    let kept := csrKept h j old
    let new := match op with
      | 1 => src
      | 2 => kept ||| src
      | _ => kept &&& ~~~src
    let from1 := if imm then [] else h.dep (rvRs1 w)
    let from2 := h.depsOf (csrKeys j)
    let s1 := { s with fresh := s.fresh + 1 }
    let s2 :=
      if writes then
        setHart s1 n ((csrKeys j).foldl (fun t key => Hart.setDep s1 t key (if op = 1 then from1 else from1 ++ from2)) ((writeCsr n h j new).csrDirty j))
      else s1
    .ok (hartGoOn (hartSet s2 n (rvRd w) old from2) n len)))

/-- What a word that only a supervisor of its world may use comes to: a guest's supervisor under a bit of hstatus, the supervisor under a bit of
mstatus that takes it away. -/
def supervisorUse (h : Hart) (statusBit hstatusBit : Nat) : CsrUse :=
  match h.priv with
  | .m => .allowed
  | .s => if h.status statusBit then .illegal else .allowed
  | .u => .illegal
  | .vs => if (h.csr csrHstatus).getLsbD hstatusBit then .guest else .allowed
  | .vu => .guest

/-- What a word of the hypervisor comes to. -/
def hypervisorUse (n : Nat) (h : Hart) (user : Bool) : CsrUse :=
  if isKiosk n then .illegal
  else if h.priv.isVirtual then .guest
  else if h.priv = .u && !(user && (h.csr csrHstatus).getLsbD 9) then .illegal
  else .allowed

/-- A fence of the page tables: the hart's stores take their places first, and no hart keeps a translation (log 126, DESIGN CHOICE). -/
def tableFence (s : State) (n len : Nat) (h : Hart) : HartEnd :=
  if h.waitingStores.isEmpty then .ok (hartGoOn s n len) else .wait h.waitingStores

/-- A Zawrs wait begins once the hart's reservations have taken their places. -/
def runWait (s : State) (n len : Nat) (h : Hart) (deadline : Option Nat) : HartEnd :=
  match (h.ops.filter HartOp.reserves).map fun x => x.id with
  | [] => .ok (setHart s n { h with wrs := some deadline, pc := h.pc + BitVec.ofNat 64 len })
  | id :: ids => .wait (id :: ids)

/-- A return or another privileged word (funct3 0). -/
def runPrivileged (s : State) (n len : Nat) (h : Hart) (w : Word) : HartEnd :=
  let illegal : HartEnd := .raise (.illegalInstruction w) s
  let kiosk := isKiosk n
  match bitsOf w 31 7 with
  | 0x0000000 => .raise .ecall s
  | 0x0002000 => .raise .breakpoint s
  | 0x0604000 => if h.priv = .m then .ok (setHart s n h.mret) else illegal
  | 0x0204000 =>
    if kiosk then illegal
    else (supervisorUse h 22 22).orElse s w (.ok (setHart s n (if h.priv.isVirtual then h.vsret else h.sret)))
  | 0x020A000 =>
    if kiosk then (if h.priv = .m ∨ h.status 21 = false then .ok (hartGoOn s n len) else illegal)
    else if h.priv != .m && h.status 21 then illegal
    else (supervisorUse h 21 21).orElse s w (.ok (hartGoOn s n len))
  | 0x001A000 => runWait s n len h none
  | 0x003A000 => runWait s n len h (some (s.clock + Config.wrsBound))
  | 0x0300000 | 0x0302000 => if kiosk then illegal else if h.priv = .u then illegal else if h.priv = .vu then .raise (.virtualInstruction w) s
      else tableFence s n len h
  | _ =>
    if rvRd w ≠ 0 then illegal
    else
      match rvF7 w with
      | 0x09 => (supervisorUse h 20 20).orElse s w (tableFence s n len h)
      | 0x0B => if kiosk then illegal else (supervisorUse h 20 20).orElse s w (tableFence s n len h)
      | 0x11 | 0x13 => (hypervisorUse n h false).orElse s w (tableFence s n len h)
      | 0x31 | 0x33 => ((hypervisorUse n h false).andThen (if h.priv = .s && h.status 20 then .illegal else .allowed)).orElse s w (tableFence s n len h)
      | _ => illegal

/-- A load or store of the hypervisor through a guest's tables (funct3 4), or a may-be-operation of Zimop, which gives 0. -/
def runHypervisor (s : State) (n len : Nat) (h : Hart) (w : Word) (ahead : Bool) : HartEnd :=
  let f7 := rvF7 w
  let k := rvRs2 w
  let size := 2 ^ (f7 / 2 % 4)
  let mode := privOf true (bitsOf (h.csr csrHstatus) 8 8)
  let go (r : HartReach) (data : Nat) : HartEnd := (hypervisorUse n h true).orElse s w (runScalar s n len h w ahead r 0 size data)
  if w.getLsbD 31 && bitsOf w 29 28 == 0 && (w.getLsbD 25 || bitsOf w 25 22 == 7) && !isKiosk n then
    .ok (hartGoOn (hartSet s n (rvRd w) 0 []) n len)
  else if f7 / 8 ≠ 6 then .raise (.illegalInstruction w) s
  else if f7 % 2 = 1 then (if rvRd w = 0 then go { kind := .store, mode := mode, use := .store } k else .raise (.illegalInstruction w) s)
  else if k = 0 ∨ (k = 1 ∧ size < 8) then go { kind := .load, mode := mode, use := .load } 0
  else if k = 3 ∧ (size = 2 ∨ size = 4) then go { kind := .load, mode := mode, use := .load, code := true } 0
  else .raise (.illegalInstruction w) s

/-! ### Control transfer and configuration -/

/-- A jump or a branch: a target that is not a multiple of 2 cannot arise. What it depends on comes before the hart's later stores. -/
def hartJump (s : State) (n len rd : Nat) (target : Dword) (deps : List Nat) : State :=
  let t := hartSet s n rd ((getHart s n).pc + BitVec.ofNat 64 len) []
  let h := getHart t n
  setHart t n { h with pc := target &&& ~~~(1#64), branched := laterOf t h.branched (latestOf t deps) }

/-- A word that sets the vector configuration. -/
def runVset (s : State) (n len : Nat) (h : Hart) (w : Word) : HartEnd :=
  let keys := if w.getLsbD 31 && w.getLsbD 30 then [] else if w.getLsbD 31 then [rvRs1 w, rvRs2 w] else [rvRs1 w]
  match h.vset w with
  | none => .raise (.illegalInstruction w) s
  | some _ => .after h keys (
      match h.vset w with
      | none => .raise (.illegalInstruction w) s
      | some h1 =>
        let deps := h.depsOf keys
        let h2 := [rvRd w, keyCsr csrVl, keyCsr csrVtype].foldl (fun t k => Hart.setDep s t k deps) h1
        .ok (hartGoOn (setHart s n (h2.usedUnits w)) n len))

/-- RUN one word of standard RISC-V of a given length. -/
def runRv (s : State) (n len : Nat) (h : Hart) (w : Word) (ahead : Bool) : HartEnd :=
  if unitDenied (isKiosk n) h w then .raise (.illegalInstruction w) s
  else
    match bitsOf w 6 0 with
    | 0x6F => .ok (hartJump s n len (rvRd w) (h.pc + immJ w) [])
    | 0x67 =>
      if rvF3 w ≠ 0 then .raise (.illegalInstruction w) s
      else .after h [rvRs1 w] (.ok (hartJump s n len (rvRd w) (h.reg (rvRs1 w) + immI w) (h.dep (rvRs1 w))))
    | 0x63 =>
      let deps := h.depsOf [rvRs1 w, rvRs2 w]
      (match branchHolds (rvF3 w) (h.reg (rvRs1 w)) (h.reg (rvRs2 w)) with
        | none => .raise (.illegalInstruction w) s
        | some taken => .after h [rvRs1 w, rvRs2 w]
            (.ok (hartJump s n len 0 (if taken then h.pc + immB w else h.pc + BitVec.ofNat 64 len) deps)))
    | 0x03 | 0x07 => runLoad s n len h w ahead
    | 0x23 | 0x27 => runStore s n len h w
    | 0x2F => runAtomic s n len h w ahead
    | 0x0F => runFence s n len h w
    | 0x73 => if rvF3 w = 0 then runPrivileged s n len h w else if rvF3 w = 4 then runHypervisor s n len h w ahead else runCsr s n len h w
    | 0x57 => if rvF3 w = 7 then runVset s n len h w else runCompute s n len h w
    | _ => runCompute s n len h w

/-! ### Fetch -/

/-- The bytes of a word at a hart's counter, read as the hart's own events (log 126, DESIGN CHOICE), or the exception that the fetch
takes, with what is logged of it (R339, R355, R358). -/
def hartBytes (s : State) (n : Nat) (h : Hart) (va : Dword) (size : Nat) : Except (HartExc × State) (List Byte × State) :=
  let fault (bad : Option (Nat × Nat)) : Except (HartExc × State) (List Byte × State) :=
    .error (.accessFault .fetch va h.priv.isVirtual, logBad s bad)
  match hartTranslate s n h .fetch va with
  | .raise e bad => .error (e, logBad s bad)
  | .at pa =>
    if hartPlace s n pa = .none then fault (some (2, pa))
    else if hartPlace s n pa ≠ .memory then fault none
    else if !itemReadyAt s pa then fault (some (2, pa))
    else if damagedAt s pa size then fault (some (3, pa))
    else .ok (readMem s { agent := .hartFetch n, after := h.fetchFloor.toList, issued := s.clock } h.keySlot pa size)

/-- The word at a hart's counter: 2 bytes when its low bits are not 11, else 4. -/
def hartWord (s : State) (n : Nat) (h : Hart) : Except (HartExc × State) (Word × State) :=
  match hartBytes s n h h.pc 2 with
  | .error e => .error e
  | .ok (lo, s1) =>
    if natOfBytes lo % 4 ≠ 3 then .ok (BitVec.ofNat 32 (natOfBytes lo), s1)
    else
      match hartBytes s1 n h (h.pc + 2) 2 with
      | .error e => .error e
      | .ok (hi, s2) => .ok (BitVec.ofNat 32 (natOfBytes (lo ++ hi)), s2)

/-- A fetch waits, as a load does (R271, R313, R326). -/
def hartFetchWaits (s : State) (n : Nat) (h : Hart) : Bool :=
  walkWaits s h h.priv
    || (match hartTranslate s n h .fetch h.pc with
        | .at pa => hartPlace s n pa == .memory && hartBlocked s h.keySlot pa false false
        | .raise .. => false)

/-! ### The turn of a hart -/

/-- The hart may run: a host-die hart once its item is ready (R355), a kiosk once it has started (R350). -/
def hartRuns (s : State) (n : Nat) : Bool :=
  if isKiosk n then decide (n < 352) && (getKiosk s (n - 96)).started else readyBit s 1

/-- The Zawrs wait of the hart is over (R275). -/
def waitOver (s : State) (n : Nat) (h : Hart) : Bool :=
  match h.wrs with
  | none => true
  | some deadline => reservationLost s n || (deadline.any fun t => decide (t ≤ s.clock))

/-- The end of a word as an outcome of the machine; a word that waits leaves the state before its fetch, s0, but for an access that takes its
place. -/
def endOfWord (s0 : State) (n : Nat) (r : HartEnd) : Result :=
  match r with
  | .ok t => .next t
  | .raise e t => .next (hartException t n e)
  | .wait ids => .next (placeTowards s0 n ids)

/-- Run a fetched word: one of the Nothal extensions, which a kiosk does not have; a custom-0 word that is neither is an illegal
instruction (R340). -/
def runHartWord (s0 s : State) (n : Nat) (h : Hart) (w : Word) (ahead : Bool) : Result :=
  match (if isKiosk n then none else decodeHart w) with
  | some i =>
    (match exec i { s with hartIssue := some n } with
      | .next t => .next { t with hartIssue := none }
      | o => o)
  | none =>
    if field w 0 7 == 0x0B then .next (hartException s n (.illegalInstruction w))
    else if field w 0 2 == 3 then endOfWord s0 n (runRv s n 4 h w ahead)
    else
      match expandC (!isKiosk n) w with
      | .word x => endOfWord s0 n (runRv s n 2 h x ahead)
      | .illegal => .next (hartException s n (.illegalInstruction w))

/-- A HART RUNS: it takes an interrupt, or its next word; while it waits it does nothing. With ahead its loads wait for their places. -/
def hartTurn (s : State) (n : Nat) (ahead : Bool) : Result :=
  let h := getHart s n
  if !hartRuns s n then .next s
  else
    match interruptOf s n h with
    | some x => .next (takeInterrupt s n h x)
    | none =>
      if !waitOver s n h || hartFetchWaits s n h then .next s
      else
        let s1 := if h.wrs.isSome then setHart s n { h with wrs := none } else s
        match hartWord s1 n (getHart s1 n) with
        | .error e => .next (hartException e.2 n e.1)
        | .ok (w, s2) => runHartWord s s2 n (getHart s2 n) w ahead

end Sys2Proof.Machine
end

