-- ==== Sys2Proof/Machine/Issue.lean ====
section
/-! DEFINITION. Issue: how a quarter chooses a gang and issues its chain (R25 to R27, R54 to R56, R62, R67, R68, R85, R170, R289 to R292,
R336), what a clock brings, and which turn comes next. -/

namespace Sys2Proof.Machine

/-! ### Gangs (R25, R27, R68, R289) -/

/-- The fibres of one group that issue together. -/
structure Gang where
  gid : Nat
  lanes : List Nat
  deriving DecidableEq, Repr

/-- A group of a quarter and the states of its running fibres. -/
structure Standing where
  gid : Nat
  g : Group
  states : List (Nat × LaneState)

def Standing.lanesIn (x : Standing) (st : LaneState) : List Nat := (x.states.filter fun e => e.2 == st).map Prod.fst

def standingOf (s : State) (e : Nat × Group) : Standing :=
  let run := runningLanes s e.1 e.2
  { gid := e.1, g := e.2, states := run.map fun l => (l, laneState s e.1 e.2 run l) }

/-- Fetch for every running fibre of a quarter that does not hold its packet (R86). -/
def fetchQuarter (s : State) (q : Nat) : State :=
  (groupsOn s q).foldl (fun t e => (runningLanes t e.1 e.2).foldl (fun u l => fetchFor u e.1 l) t) s

/-- The owners of the range entries that a fibre's next word waits on (R269). -/
def ownersMet (s : State) (gid : Nat) (g : Group) (running : List Nat) (lane : Nat) : List Nat :=
  if !hasPacket (g.fibre lane) then []
  else
    match nextWords gid g lane with
    | none => []
    | some ws =>
      let low := if ws.any fun x => waitsTogether x.2 then (readyPeers s gid g running lane).headD lane else lane
      (ws.map fun x => (entriesMet s gid g x.1 lane low x.2).map fun e => e.owner).flatten

/-- Note for every running fibre of a quarter the owners of the entries that it waits on. -/
def noteOwners (s : State) (q : Nat) : State :=
  (groupsOn s q).foldl (fun t e =>
    let run := runningLanes s e.1 e.2
    run.foldl (fun u l =>
      match (ownersMet s e.1 e.2 run l).filter fun o => !(e.2.fibre l).behind.contains o with
      | [] => u
      | os => modFibre u e.1 l fun f => { f with behind := f.behind ++ os }) t) s

/-- Ask the host for the translations that the table reads of a quarter's next words wait for (R248, R300). -/
def askTables (s : State) (q : Nat) : State :=
  (groupsOn s q).foldl (fun t e =>
    (runningLanes s e.1 e.2).foldl (fun u l =>
      if !hasPacket (e.2.fibre l) then u
      else ((nextWords e.1 e.2 l).getD []).foldl (fun v x => (handleWaits v e.1 e.2 l x.2).getD v) u) t) s

/-- The fibres that issue together at a counter with a progress (R33, R68): those that can issue now, and those of the second lane page that
can on the next clock, when the gang spans both (R85). -/
def gangWith (x : Standing) (pc : Dword) (progress : Nat) : List Nat :=
  let here (l : Nat) : Bool := (x.g.fibre l).pc == pc && (x.g.fibre l).progress == progress
  let oks := (x.lanesIn .ok).filter here
  let both := oks.any fun l => decide (l < 32)
  (List.range 64).filter fun l => oks.contains l || (both && (x.lanesIn .next).contains l && here l)

/-- The fibres that can issue at a counter: those whose progress equals that of the lowest (R68). -/
def gangAt (x : Standing) (pc : Dword) : List Nat :=
  match (x.lanesIn .ok).filter fun l => (x.g.fibre l).pc == pc with
  | [] => []
  | l :: _ => gangWith x pc (x.g.fibre l).progress

/-- The fibre that has been starved longest, the lowest lane of equals (R289 step 4). -/
def longestStarved (g : Group) (lanes : List Nat) : Option Nat :=
  lanes.foldl (fun best l =>
    match (g.fibre l).starvedAt, best with
    | none, b => b
    | some _, none => some l
    | some t, some b => if t < ((g.fibre b).starvedAt.getD 0) then some l else some b) none

/-- The counter that a group would issue at, when it is a candidate (R289 steps 2 and 4). -/
def chosenCounter (x : Standing) : Option Dword :=
  let oks := x.lanesIn .ok
  match longestStarved x.g oks with
  | some l => some (x.g.fibre l).pc
  | none =>
    if (x.lanesIn .latency ++ x.lanesIn .next).any fun l => (x.g.fibre l).starvedAt.isSome then none
    else
      match oks with
      | [] => none
      | l :: ls => some (ls.foldl (fun m k => if (x.g.fibre k).pc.toNat < m.toNat then (x.g.fibre k).pc else m) (x.g.fibre l).pc)

/-- One list of numbers is below another in dictionary order. -/
def lexBelow : List Nat → List Nat → Bool
  | [], _ => false
  | _ :: _, [] => false
  | a :: as, b :: bs => decide (a < b) || (a == b && lexBelow as bs)

/-- The order of candidates (R289 step 3): the least is taken. -/
def rankOf (s : State) (x : Standing) : List Nat :=
  [if x.g.starvedAt.isSome then 0 else 1, x.g.starvedAt.getD 0
   , if (getQuarter s (quarterOf x.gid)).token = some x.gid then 0 else 1, 3 - x.g.prio, x.g.admitted, groupSlotOf x.gid]

/-- The group taken among the candidates. -/
def chosenGroup (s : State) (xs : List Standing) : Option Standing :=
  (xs.filter fun x => (chosenCounter x).isSome).foldl (fun best x =>
    match best with
    | none => some x
    | some b => if lexBelow (rankOf s x) (rankOf s b) then some x else some b) none

/-- The counter of a gang. -/
def Standing.counter (x : Standing) (lanes : List Nat) : Dword := (x.g.fibre (lanes.headD 0)).pc

/-- The chain may be packed: it holds no X word and no cross-lane word (R28, R146) (log 81, DEDUCED). -/
def packable (c : Chain) : Bool := c.body.all fun w => pipeOfCode (opOfWord w.2) != some .x && opOfWord w.2 != 0x46

/-- The gangs of other groups that issue with a gang (R27). -/
def packedWith (xs : List Standing) (x : Standing) (lanes : List Nat) : List Gang :=
  let f := x.g.fibre (lanes.headD 0)
  if 16 < x.g.width || !packable (nextChain f) then []
  else
    ((xs.filter fun y => y.gid != x.gid && y.g.uid == x.g.uid && decide (y.g.width ≤ 16) && y.g.rowOrigin == x.g.rowOrigin
        && y.g.rows == x.g.rows).map fun y =>
      { gid := y.gid, lanes := (gangAt y f.pc).filter fun l => (y.g.fibre l).progress == f.progress }).filter fun u => !u.lanes.isEmpty

/-- What a quarter does on its clock. -/
inductive Choice
  | none | keep | go (gangs : List Gang)
  deriving DecidableEq, Repr

/-- The gang that holds the quarter (R56): it issues, with every fibre ready at its counter (R33), waits out a latency, or has lost its
hold: its next word or element waits on something else, its energy among them (R289, R291). -/
def heldChoice (xs : List Standing) (gid base : Nat) (lanes : List Nat) : Choice :=
  match xs.find? fun x => x.gid == gid with
  | none => .none
  | some x =>
    let f := x.g.fibre (lanes.headD 0)
    let same := lanes.all fun l => (x.g.fibre l).pc == f.pc && (x.g.fibre l).progress == f.progress && x.states.any fun e => e.1 == l
    let gang := gangWith x f.pc f.progress
    if !same || packetBase f.pc != base then .none
    else if lanes.all gang.contains then .go ({ gid := gid, lanes := gang } :: packedWith xs x gang)
    else if lanes.all (fun l => x.states.contains (l, .ok) || x.states.contains (l, .next) || x.states.contains (l, .latency)) then .keep
    else .none

/-- What the gangs that hold a quarter come to: packed gangs of several groups hold it each for itself (R56). One that can issue does;
otherwise one that waits out a latency keeps the quarter. -/
def holdsChoice (xs : List Standing) (hs : List Hold) : Choice :=
  let cs := hs.map fun h => heldChoice xs h.gid h.base h.lanes
  (cs.find? fun c => c matches .go _).getD (if cs.contains .keep then .keep else .none)

/-- THE CHOICE of a quarter (R289). -/
def chooseGangs (s : State) (q : Nat) (xs : List Standing) : Choice :=
  match holdsChoice xs (getQuarter s q).hold with
  | .none =>
    match chosenGroup s xs with
    | none => .none
    | some x =>
      match chosenCounter x with
      | none => .none
      | some pc =>
        let lanes := gangAt x pc
        .go ({ gid := x.gid, lanes := lanes } :: packedWith xs x lanes)
  | c => c

/-! ### Running a chain (R55, R76, R170, R336) -/

/-- Run the prefixes of a chain. -/
def runPrefixes : List (Nat × Word) → State → Result
  | [], s => .next s
  | (_, w) :: rest, s =>
    match instrOf w with
    | none => .next s
    | some i =>
      match exec i s with
      | .next t => runPrefixes rest t
      | o => o

/-- Run the words of a chain, each with its issue. -/
def runBody : List (Issue × Word) → State → Result
  | [], s => .next s
  | (iss, w) :: rest, s =>
    match instrOf w with
    | none => .next s
    | some i =>
      match exec i { s with issue := some iss } with
      | .next t => runBody rest t
      | o => o

/-- The words in the order of their effects: a control word last (R55). -/
def controlLast (ws : List (Issue × Word)) : List (Issue × Word) :=
  ws.filter (fun x => pipeOfCode (opOfWord x.2) != some .c) ++ ws.filter fun x => pipeOfCode (opOfWord x.2) == some .c

/-- The events of a fibre's accesses that a slot wait has found clear go before what follows (R265 item 1). -/
def passSlots (s : State) (slots : List Nat) (f : Fibre) : Fibre :=
  let met (d : Done) : Bool := d.slot.any slots.contains
  let e := latestOf s ((f.done.filter met).map fun d => d.event)
  { f with floor := laterOf s f.floor e, waited := laterOf s f.waited e, done := f.done.filter fun d => !met d }

/-- The events that a fence of the fibre orders go before what follows (R265 item 3), and before the fetches after a taken branch (R87). -/
def passFence (s : State) (f : Fibre) : Fibre :=
  match f.fence with
  | none => f
  | some (sc, n) =>
    let met (d : Done) : Bool := decide (d.least ≤ sc) && decide (d.word < n)
    let e := latestOf s ((f.done.filter met).map fun d => d.event)
    { f with fence := none, floor := laterOf s f.floor e, fenceFloor := laterOf s f.fenceFloor (laterOf s e f.floor)
             done := f.done.filter fun d => !met d }

/-- A chain of a gang has waited for the slots that its words name (R181), and, with an M word, for its fences (R195). -/
def passFences (s : State) (gid : Nat) (lanes : List Nat) (c : Chain) : State :=
  let slots := (c.body.map fun x => ((instrOf x.2).map slotsNamed).getD []).flatten
  let fences := c.body.any fun x => pipeOfCode (opOfWord x.2) == some .m
  if slots.isEmpty && !fences then s
  else modLanes s gid lanes fun f => (if fences then passFence s else id) (passSlots s slots f)

/-- Run a chain for a gang: its sources are those of before the chain when it has several words (R55). -/
def runChain (s : State) (g : Group) (u : Gang) (pc : Dword) (c : Chain) : Result :=
  let many := decide (1 < c.body.length)
  let iss := { issueAt u.gid u.lanes pc c with snap := if many then some g else none, mark := if many then some s.nextId else none
                                               early := s.issue.bind fun i => i.early }
  match runPrefixes c.prefixes { passFences s u.gid u.lanes c with issue := some iss } with
  | .next t =>
    match t.issue with
    | none => .next t
    | some iss1 =>
      match runBody (controlLast (bodyIssues iss1 c.body)) t with
      | .next v => .next { v with issue := none }
      | o => o
  | o => o

/-- A cause of class P (R170). -/
def isPrecise (cause : Nat) : Bool := decide (cause ≤ 0x0B) || cause == 0x14 || cause == 0x16

/-- The precise trap that a chain has raised: the first record of class P that it added (log 85, DEDUCED). -/
def preciseTrap (s t : State) (gid : Nat) : Option TrapRecord :=
  ((getKiosk t (coreOf gid)).waiting.drop (getKiosk s (coreOf gid)).waiting.length).find? fun r => isPrecise r.cause && !r.residency

/-- The address of an active breakpoint (R335). -/
def isBreakpoint (s : State) (f : Nat) (va : Nat) : Bool :=
  (getX s f 0x158).getLsbD 0 && (List.range 4).any fun i =>
    (getX s f (0x160 + 8 * i)).getLsbD 0 && bitsOf (getX s f (0x160 + 8 * i)) 56 2 == va / 4

/-- The breakpoint that a gang reaches (R336): the fibres that do not pass it, and the word at it. A fibre within a rep word has reached
its chain before (log 87, DEDUCED). -/
def breakHit (s : State) (g : Group) (lanes : List Nat) (pc : Dword) (c : Chain) : Option (List Nat × Word) :=
  let fresh := lanes.filter fun l => !(g.fibre l).passBreak && !((g.fibre l).progress != 0 && c.hasRep)
  if fresh.isEmpty then none
  else (c.words.find? fun x => isBreakpoint s g.ctx (packetBase pc + 4 * x.1)).map fun x => (fresh, x.2)

/-- What the issue of one gang comes to. -/
inductive Ran
  | done (s : State) | trapped (r : TrapRecord) (lanes : List Nat) | stopped (o : Result)

/-- A trap of the issuing gang as its record. -/
def trapOf (g : Group) (gid cause : Nat) (lanes : List Nat) (w : Word) : Ran :=
  .trapped (trapRecordOf g gid cause lanes (w.setWidth 64)) lanes

/-- ISSUE a gang: the breakpoint, the checks of R76, then the chain; a precise trap leaves no effect of it. -/
def runGang (s : State) (g : Group) (u : Gang) : Ran :=
  let f := g.fibre (u.lanes.headD 0)
  let c := nextChain f
  match breakHit s g u.lanes f.pc c with
  | some (lanes, w) => trapOf g u.gid 0x14 lanes w
  | none =>
    match checkChain g (issueAt u.gid u.lanes f.pc c) c with
    | some (cause, lanes, w) => trapOf g u.gid cause lanes w
    | none =>
      match runChain s g u f.pc c with
      | .next t =>
        match preciseTrap s t u.gid with
        | some r =>
          let lanes := (List.range 64).filter fun l => r.mask.getLsbD l
          let before := trapRecordOf g u.gid r.cause lanes r.detail
          .trapped { r with counter := before.counter, progress := before.progress } lanes
        | none => .done t
      | o => .stopped o

/-! ### What an issue leaves behind -/

/-- A quarter's last chain, as R62 compares gangs. -/
def gangKey (u : Gang) : Nat × Nat := (u.gid, (maskOf u.lanes).toNat)

/-- The latches of some fibres are no longer valid. -/
def loseLatches (s : State) (k : Nat × Nat) : State :=
  modGroup s k.1 fun g =>
    { g with fibres := (g.fibres.zip (List.range g.fibres.length)).map fun x => if k.2.testBit x.2 then { x.1 with latchValid := 0 } else x.1 }

/-- A SWITCH (R62): a chain that does not hold a fibre's gang, with the same fibres, ends the validity of its latches. -/
def switchLatches (s : State) (q : Nat) (us : List Gang) : State :=
  let v := getQuarter s q
  let now := us.map gangKey
  let lost := (v.lastGangs.filter fun k => !now.contains k) ++ now.filter fun k => !v.lastGangs.contains k
  lost.foldl loseLatches (setQuarter s q { v with lastGangs := now })

/-- The clocks after which a word's register result may be read (R85, R245); 0 for a word without a fixed latency. -/
def latencyOf (i : Instr) : Nat :=
  match pipeOf i with
  | some .v => 4
  | some .s => 8
  | some .c => 2
  | some .x => 4
  | _ => 0

/-- What a word makes unavailable to a fibre, and until when: to one that a grd prefix excludes no register and no pw bit (R70). -/
def keysWritten (g : Group) (lanes : List Nat) (lane now : Nat) (x : Issue × Instr) : List (Nat × Nat) :=
  let i := x.2
  let f := g.fibre lane
  let n := latencyOf i
  let out := x.1.excluded g lane
  let dests := if out then [] else match x.1.rep, vecForm i with
    | some r, some v =>
      if v.nw || r.nr * r.nc ≤ f.progress then [] else [((elementForm v r f.progress).d, v.dsh.count)]
    | _, _ => destsOf g lanes i
  (if n = 0 then [] else (dests.map fun u => (List.range u.2).map fun k => (f.wb + u.1 + k, now + n)).flatten)
    ++ (match pipeOf i with
        | some .s => [(latchKey 5, tblGet 0 f.avail (latchKey 4)), (latchKey 4, now + 8)]
        | some .x => if dests.isEmpty then [] else [(latchKey 6, now + 4)]
        | _ => [])
    ++ ((List.range 32).filter fun k => !out && (pwDests i).getLsbD k).map fun k => (pwKey k, now + n)

/-- The clock from which a word's latency counts for a fibre (R85): that of its pass; a cross-lane word of two passes counts from its second
for every fibre (R146). -/
def passClock (s : State) (lanes : List Nat) (lane : Nat) (i : Instr) : Nat :=
  s.clock + if passesOf lanes = 2 ∧ (32 ≤ lane ∨ opcodeOf i = 0x46) then 1 else 0

/-- A fibre's table after a chain of its gang. -/
def availAfter (s : State) (g : Group) (lanes : List Nat) (lane : Nat) (ws : List (Issue × Instr)) : Tbl Nat :=
  ((ws.map fun x => keysWritten g lanes lane (passClock s lanes lane x.2) x).flatten).foldl (fun t e => tblSet 0 t e.1 e.2)
    ((g.fibre lane).avail.filter fun e => decide (s.clock < e.2))

/-- The words of a chain with their issues, as instructions. -/
def chainInstrs (u : Gang) (pc : Dword) (c : Chain) : List (Issue × Instr) :=
  match withPrefixes (issueAt u.gid u.lanes pc c) c.prefixes with
  | .ok iss => (bodyIssues iss c.body).filterMap fun x => (instrOf x.2).map fun i => (x.1, i)
  | .error _ => []

/-- A fibre of the gang after its chain: when its results and its next word come (R85, R148); what its next fetch must follow, when it was
sent elsewhere (R87); and its counts (R290, R336). -/
def afterIssue (s : State) (g : Group) (u : Gang) (ws : List (Issue × Instr)) (lane : Nat) (f : Fibre) : Fibre :=
  let t := s.clock + if passesOf u.lanes = 2 ∧ 32 ≤ lane then 1 else 0
  let sent := ws.any fun x => transfers x.2 g lane
  { f with avail := availAfter s g u.lanes lane ws, readyAt := if sent then t + 2 else f.readyAt
           fetchFloor := if sent then laterOf s f.fetchFloor f.fenceFloor else f.fetchFloor
           fetchFence := if sent && f.fence.isSome then f.fence else f.fetchFence
           missed := 0, starvedAt := none, passBreak := false, behind := [] }

/-- A ready fibre that an issue of its group leaves out (R290). -/
def leftOut (now : Nat) (ready : Bool) (f : Fibre) : Fibre :=
  if ready then
    { f with missed := f.missed + 1, starvedAt := if f.starvedAt.isNone && decide (16 ≤ f.missed + 1) then some now else f.starvedAt }
  else { f with missed := 0 }

/-- Settle the fibres and the counts of a group that has issued. -/
def settleIssue (s : State) (x : Standing) (u : Gang) : State :=
  let f := x.g.fibre (u.lanes.headD 0)
  let c := nextChain f
  let ws := chainInstrs u f.pc c
  let ready := x.lanesIn .ok ++ x.lanesIn .latency ++ x.lanesIn .next ++ x.lanesIn .unit
  modGroup s u.gid fun h =>
    { h with waited := 0, starvedAt := none, issuedUntil := s.clock + passesOf u.lanes
             fibres := (h.fibres.zip (List.range h.fibres.length)).map fun e =>
               if u.lanes.contains e.2 then afterIssue s x.g u ws e.2 e.1 else leftOut s.clock (ready.contains e.2) e.1 }

/-- The single-step trap of a group in single-step mode: after the chain, and after the last element of a rep word (R336); a chain in which
every fibre of the gang has ended names them all (log 144, DEDUCED). -/
def stepTrap (s : State) (x : Standing) (u : Gang) : State :=
  match getGroup s u.gid with
  | none => s
  | some h =>
    let live := u.lanes.filter fun l => (h.fibre l).live
    if x.g.singleStep && live.all fun l => (h.fibre l).progress == 0 then
      takeTrap s 0x15 u.gid (if live.isEmpty then u.lanes else live) ((((nextChain (x.g.fibre (u.lanes.headD 0))).body.head?.map Prod.snd).getD 0).setWidth 64)
    else s

/-- The hold that a gang keeps after its chain (R56): while its fibres stay together within the packet and nothing stops them. It covers at
most three chains (R291) (log 91, DEDUCED). -/
def holdAfter (s : State) (before : List Hold) (x : Standing) (u : Gang) : Option Hold :=
  match getGroup s u.gid with
  | none => none
  | some h =>
    let base := packetBase (x.counter u.lanes)
    let pc := (h.fibre (u.lanes.headD 0)).pc
    let run := runningLanes s u.gid h
    let covered := match before.find? fun b => b.gid == u.gid with
      | some b => if b.base = base ∧ b.lanes.all u.lanes.contains then b.chains else 0
      | none => 0
    let chains := covered + if (h.fibre (u.lanes.headD 0)).progress = 0 then 1 else 0
    if u.lanes.all (fun l => run.contains l && (h.fibre l).pc == pc) && packetBase pc == base && decide (chains < 3) then
      some { gid := u.gid, base := base, lanes := u.lanes, chains := chains }
    else none

/-- The holds on a quarter after an issue: those of the gangs that issued, and those of packed gangs that did not and have not lost theirs
(R56). -/
def holdsAfter (s : State) (before : List Hold) (xs : List Standing) (done : List (Standing × Gang)) : List Hold :=
  done.filterMap (fun e => holdAfter s before e.1 e.2)
    ++ before.filter fun h => !(done.any fun e => e.2.gid == h.gid) && heldChoice xs h.gid h.base h.lanes != .none

/-- The issue of several gangs: the state, the gangs whose chains issued, the traps. -/
structure Batch where
  s : State
  done : List (Standing × Gang) := []
  traps : List (Gang × Group × TrapRecord × List Nat) := []
  stopped : Option Result := none

def runOne (xs : List Standing) (b : Batch) (u : Gang) : Batch :=
  match xs.find? fun x => x.gid == u.gid with
  | none => b
  | some x =>
    match getGroup b.s u.gid with
    | none => b
    | some g =>
      match runGang b.s g u with
      | .done t => { b with s := t, done := b.done ++ [(x, u)] }
      | .trapped r lanes => { b with traps := b.traps ++ [(u, g, r, lanes)] }
      | .stopped o => { b with stopped := some o }

/-- Deliver the precise traps of an issue. -/
def deliverAll (s : State) (ts : List (Gang × Group × TrapRecord × List Nat)) : State :=
  ts.foldl (fun t e => deliverTrap t e.2.1 e.1.gid e.2.2.1.cause e.2.2.2 e.2.2.1) s

/-- Issue the chosen gangs (R26, R55, R170, R292). A clock whose every chain traps is no switch, charges nothing and is no issue. -/
def issueGangs (s : State) (q : Nat) (xs : List Standing) (us : List Gang) : Result :=
  let b := us.foldl (runOne xs) { s := switchLatches s q us }
  match b.stopped with
  | some o => o
  | none =>
    let first := us.headD { gid := 0, lanes := [] }
    let passes := passesOf first.lanes
    let weight := match xs.find? fun x => x.gid == first.gid with
      | some x => (nextChain (x.g.fibre (first.lanes.headD 0))).weight
      | none => 0
    match b.done with
    | [] => let t := deliverAll s b.traps
            .next (setQuarter t q { getQuarter t q with hold := [], busyUntil := s.clock + 1 })
    | done =>
      let t0 := done.foldl (fun t e => settleIssue t e.1 e.2) b.s
      let t1 := done.foldl (fun t e => charge t e.2.gid e.1.g.ctx (weight * passes)) t0
      let t2 := deliverAll (done.foldl (fun t e => stepTrap t e.1 e.2) t1) b.traps
      .next (setQuarter t2 q { getQuarter t2 q with hold := holdsAfter t2 (getQuarter s q).hold xs done, busyUntil := s.clock + passes })

/-- What a quarter would do on this clock: the state after its fetches, its groups, and the choice; none while it is still issuing (R26,
R85). -/
def quarterPlan (s : State) (q : Nat) : Option (State × List Standing × Choice) :=
  if s.clock < (getQuarter s q).busyUntil then none
  else
    let s1 := askTables (noteOwners (fetchQuarter s q) q) q
    let xs := (groupsOn s1 q).map (standingOf s1)
    some (s1, xs, chooseGangs s1 q xs)

/-- A quarter has a chain to issue on this clock. -/
def canIssue (s : State) (q : Nat) : Bool :=
  match quarterPlan s q with
  | some (_, _, .go _) => true
  | _ => false

/-- The chain that a choice takes. -/
def chosenChain (xs : List Standing) (us : List Gang) : Chain :=
  match us with
  | [] => {}
  | u :: _ =>
    match xs.find? fun x => x.gid == u.gid with
    | some x => nextChain (x.g.fibre (u.lanes.headD 0))
    | none => {}

/-- The quarter charges energy on this clock (R292). -/
def chargesNow (s : State) (q : Nat) : Bool :=
  match quarterPlan s q with
  | some (_, xs, .go us) => (chosenChain xs us).weight != 0
  | _ => false

/-- THE ISSUE TURN of a quarter: at most one chain on a clock (R85). Quarters of a core charge in ascending number (R292): one that charges
waits for the lower ones that do. -/
def issueTurn (s : State) (q : Nat) : Result :=
  match quarterPlan s q with
  | none => .next s
  | some (s1, _, .none) => .next (setQuarter s1 q { getQuarter s1 q with hold := [] })
  | some (s1, _, .keep) => .next s1
  | some (s1, xs, .go us) =>
    if (chosenChain xs us).weight != 0 && (List.range (q % 4)).any fun i => chargesNow s (q / 4 * 4 + i) then .next s
    else issueGangs s1 q xs us

/-- AN ISSUE BETWEEN WHOSE PASSES ACCESSES OF THE GROUP FINISH (R123): the fibres of lane page 0 read the registers of other lanes as they were
before, those of lane page 1 as they are then. -/
def issueAround (s : State) (q : Nat) (ids : List Nat) : Result :=
  match quarterPlan s q with
  | some (s1, xs, .go [u]) =>
    if passesOf u.lanes ≠ 2 || ((chosenChain xs [u]).weight != 0 && (List.range (q % 4)).any fun i => chargesNow s (q / 4 * 4 + i)) then
      issueTurn s q
    else
      let mine := ids.filter fun id => (findAccess s1 id).any fun a => a.gid == u.gid
      let s2 := mine.foldl (fun t id => finishAccess t id false) s1
      let early := (getGroup s1 u.gid).map fun g => g.regs
      match issueGangs { s2 with issue := some { issueAt u.gid u.lanes 0 {} with early := early } } q xs [u] with
      | .next t => .next { t with issue := none }
      | o => o
  | _ => issueTurn s q

/-! ### A clock passes (R5, R290) -/

/-- The count of a group's clocks with a ready fibre and no issue (log 88, DEDUCED). -/
def countWait (s : State) (e : Nat × Group) : Nat × Group :=
  let g := e.2
  if s.clock < g.issuedUntil then e
  else if (standingOf s e).states.any fun x => x.2 != .waits then
    (e.1, { g with waited := g.waited + 1
                   starvedAt := if g.starvedAt.isNone && decide (512 ≤ g.waited + 1) then some s.clock else g.starvedAt })
  else (e.1, { g with waited := 0 })

/-- A clock passes: the counts of R290 go on, and what is timed by the clock alone happens (R256, R292) (log 95, DEDUCED). -/
def tick (s : State) : State := timeOf 1 (timeOf 0 { s with groups := s.groups.map (countWait s), clock := s.clock + 1 })

/-! ### Turns -/

/-- Every chain that can issue on this clock has issued (R49): then the clock may pass. -/
def clockDone (s : State) : Bool := !s.groups.any fun e => canIssue s (quarterOf e.1)

/-- Take a turn. The clock passes once every quarter has issued what it can (R49, R289). -/
def takeTurn (t : Turn) (s : State) : Result :=
  match t with
  | .issue q => issueTurn s q
  | .issueAround q ids => issueAround s q ids
  | .hart n => hartTurn s n false
  | .hartAhead n => hartTurn s n true
  | .place n i => .next (placeAt s n i)
  | .event i => exec i s
  | .dropTlb n => .next { s with tlb := s.tlb.eraseIdx n }
  | .writeBack line => .next (cleanLine s line)
  | .damage bytes => .next { s with damaged := bytes }
  | .back ks => .next { s with backs := ks }
  | .tick => .next (if clockDone s then tick s else s)

/-- A read of a waiting entry's location that lets its queue go on; one that does not is due at no particular time (R50). -/
def pollStep (f q : Nat) (s : State) : Result :=
  match execWaitOnValuePoll f q s with
  | .next t => .next (if (getQueue t f q).cur.any fun r => r.waiting then s else t)
  | o => o

/-- The steps of the part itself that may be due, in the order in which they are tried when no agenda says what happens next. -/
def dueSteps (s : State) : List (State → Result) :=
  (s.groups.map fun e => [execGroupPark e.1, execRelocateMove e.1, execGroupSave e.1]).flatten
    ++ (s.accesses.map fun a => [execAccessFinish a.id false, execCommitWriteback a.id, execBarWaitWake a.gid a.lane, execBarWaitBoundExpiry a.gid a.lane]).flatten
    ++ s.spills.map (fun e => execSpillEntryWritten e.id)
    ++ (s.tableLoads.map fun t => [execOpldLoadDone t.id, execMpldLoadDone t.id]).flatten
    ++ (s.quarters.map fun e => [execMatrixGatherComplete e.1 false, execMatrixExecuteComplete e.1, execMatrixExecute e.1, execLandingExecute e.1
                                , execMtospRowWrite e.1]).flatten
    ++ (s.copies.map fun c => [execCopyBegin c.id, execCopyWordTransfer c.id false]).flatten
    ++ s.kiosks.map (fun e => execTrapQueueEnter e.1)
    ++ (s.launches.map fun l => [execLaunchReady l.uid, execPositionAdmit l.uid, execAdmissionWaitExpiry l.uid, execResidencyTimeout l.uid]).flatten
    ++ s.regionCmds.map (fun c => execRegionCommandEffect c.id)
    ++ (s.queues.map fun e =>
      let f := e.1 / 64
      let q := e.1 % 64
      [execDispatchRecord f q, execCmdLaunch f q, execCmdCopy f q, execCmdWaitOnValue f q, pollStep f q, execCmdSignal f q, execCmdSkipIf f q
       , execCmdJump f q, execCmdCall f q, execCmdReturn f q, execCmdSeal f q, execCmdOpen f q, execCmdRelease f q, execCmdNotify f q]).flatten
    ++ [execMigrationStart] ++ (s.moves.map fun m => [execMigrationCopyDone m.id, execMigrationSwitch m.id, execMigrationEnd m.id]).flatten
    ++ s.tlbInv.map (fun e => execTlbinvComplete e.1) ++ s.sdInv.map (fun e => execSdinvComplete e.1)
    ++ (s.ladders.map fun l => [execPreemptGraceExpiry l.id, execPreemptKillExpiry l.id]).flatten
    ++ ((List.range 16).map fun p => [execTimeSliceExpiry p, execContextSwitch p, execContextRestore p]).flatten
    ++ s.harts.map (fun e => fun t => .next (placeOldest t e.1))
    ++ [execRtpkcLoadDone, execRefillPoint 0, execRefillPoint 1, execAvenueSlot 0, execAvenueSlot 1, execRefreshWindowEnd 0, execRefreshWindowEnd 1]

/-- A step changes something, or stops. -/
def acts (s : State) (r : Result) : Bool :=
  match r with
  | .next v => v != s
  | _ => true

/-- What comes next when the agenda is empty: the first quarter that does something on this clock, else the first step that is due, else
the clock (log 8, DESIGN CHOICE). -/
def autoStep (s : State) : Result :=
  match ((s.groups.map fun e => fun t => issueTurn t (quarterOf e.1)) ++ dueSteps s).find? fun h => acts s (h s) with
  | some h => h s
  | none => .next (tick s)

end Sys2Proof.Machine
end

