-- ==== Sys2Proof/Machine/Load.lean ====
section
/-! DEFINITION. The loading of a program from outside (log 9, DESIGN CHOICE): what stands in memory and in the registers when a first instruction runs, as
a driver sets it up through the host (R278 to R288, R294 to R298, R321, R355). -/

namespace Sys2Proof.Machine

/-- Every item is ready and the part runs; a die that was not ready starts now (R355). -/
def bringUp (s : State) : State :=
  let start (t : State) (d : Nat) : State := if readyBit s (4 + d) then t else startDie t d
  { start (start s 0) 1 with power := .on, ready := 0xFFFFF }

/-- Where the loader puts the PASID table, the three page tables and the code. -/
def loadPasid : Nat := 0x10000
def loadTable (level : Nat) : Nat := 0x20000 + 0x10000 * level
def loadCode : Nat := 0x80000

/-- A valid PASID entry; a table entry; a leaf for the code with every tier allowed, fetched, read and written, accessed and dirty. -/
def pasidWord : Nat := 2 ^ 63 + loadTable 0
def tableWord (next : Nat) : Nat := 2 ^ 62 + next
def leafWord : Nat := 2 ^ 63 + 2 ^ 61 + 2 ^ 60 + 2 ^ 59 + 2 ^ 58 + 2 ^ 57 + loadCode + 0x1F0

/-- The tables in memory: virtual address 0 under PASID 0 is the code. -/
def writeTables (s : State) : State :=
  let s1 := writeClear s loadPasid (bytesOf 8 pasidWord)
  let s2 := writeClear s1 (loadTable 0) (bytesOf 8 (tableWord (loadTable 1)))
  let s3 := writeClear s2 (loadTable 1) (bytesOf 8 (tableWord (loadTable 2)))
  writeClear s3 (loadTable 2) (bytesOf 8 leafWord)

/-- The word that stands after a placed word: what a prefix or a chain bit needs, else nop. -/
def companionOf (w : Word) : Word :=
  if isPrefixWord w || (chainBit w && pipeOfCode (opOfWord w) == some .c) then 0x26000000 else 0x76000000

/-- A launch of one group of width 32. -/
def loadLaunch : Launch :=
  { uid := 1, ctx := 0, part := 0, queue := 0, record := 0, pasid := 0, entry := 0, arg := 0, gx := 1, gy := 1, gz := 1, cls := 1
    nstage := 1, prio := 0, fullres := false, swap := false, lslots := 1, width := 32, live := 32, regs := 128, scratch := 16, rto := 0
    launch := 1, regions := 0, ready := true, nextPos := 1 }

/-- The group as admission places it on an empty core (R288). -/
def loadGroup : Group := { launchGroup loadLaunch 0 0 0 with lsOrigin := [0] }

/-- Place a word as the first of a packet at a new group's entry, on quarter 0. -/
def placeUsxel (s : State) (w : Word) : State :=
  let s1 := setX (setX (bringUp s) 0 0x1000 (BitVec.ofNat 64 loadPasid)) 0 0x1E00 1
  let s2 := writeClear (writeTables s1) loadCode (bytesOf 4 w.toNat ++ bytesOf 4 (companionOf w).toNat ++ bytesOf 4 0x76000000)
  { (setGroup s2 0 loadGroup) with launches := s2.launches ++ [loadLaunch], agenda := .issue 0 :: s2.agenda }

/-- Place a word at the counter of hart 0, in M-mode with its interrupts off. -/
def placeHart (s : State) (w : Word) : State :=
  let h := getHart s 0
  let s1 := writeClear (bringUp s) h.pc.toNat (bytesOf 4 w.toNat)
  { (setHart s1 0 { h.setCsr csrMstatus 0x2200 with priv := .m, wrs := none, exc := none }) with agenda := .hart 0 :: s1.agenda }

/-- Place a word where its kind of word runs: a word of the Nothal extensions that is no Usxel word on a hart, every other in a group. -/
def placeWord (s : State) (w : Word) : State :=
  if (instrOf w).isNone && (decodeHart w).isSome then placeHart s w else placeUsxel s w

end Sys2Proof.Machine
end

