-- ==== Sys2Proof/Machine/Step.lean ====
section
/-! DEFINITION. One step of the part. -/

namespace Sys2Proof.Machine

/-- One step: the next turn of the agenda, or what the part does of itself when the agenda is empty. -/
def step (s : State) : Host.Outcome State Fault Refusal :=
  match s.agenda with
  | t :: rest => takeTurn t { s with agenda := rest }
  | [] => autoStep s

/-- The state with an instruction placed where the next step fetches and runs it. -/
def State.withFetchWord (s : State) (nbits w : Nat) : State := if nbits = 32 then placeWord s (BitVec.ofNat 32 w) else s

end Sys2Proof.Machine
end

