-- ==== Sys2Proof/Certificates/Slice0/Obligations.lean ====
section
/-! DEFINITION. What is stated of the model for the provers: the rules of spec/ that say what an instruction or the part does. The first
part names what the statements share. -/

namespace Sys2Proof.Stmt
open Sys2Proof.Machine

/-! ### What the statements share -/

/-- A word runs and leaves a next state, of which and of whose issuing group P holds. -/
def Leads (i : Instr) (s : State) (iss : Issue) (P : State → Group → Prop) : Prop :=
  ∃ t h, exec i s = .next t ∧ getGroup t iss.gid = some h ∧ P t h

/-- The state is at a word of the gang of iss, in group g: R54, R55. The group as it was before the chain has the same rows and windows
as the group now, since only a control word moves a window and it comes last. -/
def Issuing (s : State) (iss : Issue) (g : Group) : Prop :=
  s.issue = some iss ∧ getGroup s iss.gid = some g ∧ (iss.sourceGroup g).rows = g.rows
    ∧ ∀ l, ((iss.sourceGroup g).fibre l).wb = (g.fibre l).wb

/-- The word passes every check of R76: it is well formed, its prefixes may stand before it, and its registers lie in the windows. -/
def Accepted (i : Instr) (iss : Issue) (g : Group) : Prop := checkWord i iss g = none

/-- Everything of a state but its groups, and every other group, is as it was. -/
def OnlyGroup (gid : Nat) (s t : State) : Prop :=
  t = { s with groups := t.groups } ∧ ∀ k, k ≠ gid → getGroup t k = getGroup s k

/-! ### The words of 07_isa_vector.md -/

/-- The element that the word does now: itself, or the element of its rep prefix that the gang's progress names; none when no element is
left (R65, R67). -/
def elementNow (iss : Issue) (g : Group) (f : VecForm) : Option VecForm :=
  match iss.rep with
  | none => some f
  | some r => if r.nr * r.nc ≤ repIndex iss g then none else some (elementForm f r (repIndex iss g))

/-- Where the fibres of the gang stand after the word: at the next chain, or within the rep word (R67). -/
def placeAfter (iss : Issue) (g : Group) (l : Nat) : Dword × Nat :=
  match iss.rep with
  | none => (iss.next, 0)
  | some r => if r.nr * r.nc ≤ repIndex iss g + 1 then (iss.next, 0) else ((g.fibre l).pc, repIndex iss g + 1)

/-- The registers, in the window of lane l, that the element writes. -/
def writesCell (iss : Issue) (g : Group) (f : VecForm) (key : Nat) : Prop :=
  f.nw = false ∧ f.pbit = false ∧ ∃ l ∈ iss.participants g, ∃ k < f.dsh.count, key = cellKey g l ((g.fibre l).wb + f.d + k)

/-- Latch k of a fibre. -/
def latchOf (b : Fibre) (k : Nat) : Word := (b.latch[k]?).getD 0

/-- The latches of a fibre after a word of the V pipe, or of the S pipe (R61): the pipe's history moves by one, each value with its validity, the
newest latch is valid, and the latches of the other pipes are as they were. -/
def HistoryShifted (special : Bool) (b h : Fibre) : Prop :=
  let first := if special then 4 else 0
  let last := if special then 5 else 3
  h.latchValid.getLsbD first = true
  ∧ (∀ k, first < k → k ≤ last → latchOf h k = latchOf b (k - 1) ∧ h.latchValid.getLsbD k = b.latchValid.getLsbD (k - 1))
  ∧ ∀ k < 8, k < first ∨ last < k → latchOf h k = latchOf b k ∧ h.latchValid.getLsbD k = b.latchValid.getLsbD k

/-- What R118 leaves after one element f whose result for fibre l is res l and whose status bits are st l: each participant's destination
(R59, R61), its latch, its pw bit and its FSTAT; every other register, fibre, field and state as before. -/
def ElementDone (s : State) (iss : Issue) (g : Group) (f : VecForm) (res : Nat → List Word) (st : Nat → Status) (t : State) (h : Group) :
    Prop :=
  OnlyGroup iss.gid s t ∧ h = { g with regs := h.regs, fibres := h.fibres }
  ∧ (∀ l ∈ iss.participants g, f.nw = false → f.pbit = false → ∀ k < f.dsh.count, h.reg l (f.d + k) = ((res l)[k]?).getD 0)
  ∧ (∀ key, ¬ writesCell iss g f key → tblGet 0 h.regs key = tblGet 0 g.regs key)
  ∧ (∀ l, l ∉ iss.lanes → h.fibre l = g.fibre l)
  ∧ ∀ l ∈ iss.lanes, l < g.fibres.length →
      let out := iss.excluded (iss.sourceGroup g) l
      h.fibre l = { g.fibre l with
                    pc := (placeAfter iss g l).1, progress := (placeAfter iss g l).2
                    latch := (h.fibre l).latch, latchValid := (h.fibre l).latchValid
                    fstat := if out then (g.fibre l).fstat else (g.fibre l).fstat ||| (st l).toWord
                    pw := if out || !f.pbit then (g.fibre l).pw
                          else setPwBit (g.fibre l).pw (f.d % 32) ((res l).headD 0 != 0) }
      ∧ (if f.pbit then (h.fibre l).latch = (g.fibre l).latch ∧ (h.fibre l).latchValid = (g.fibre l).latchValid
         else HistoryShifted f.special (g.fibre l) (h.fibre l)
           ∧ (g.inRange l f.d 1 = true →
              latchOf (h.fibre l) (if f.special then 4 else 0) = if out then g.reg l f.d else (res l).headD 0))

/-- THE EFFECT OF A VECTOR WORD on the gang: its element, from the sources as they were before the chain (R55, R118), rounding in each
fibre's own mode (R121). A lost latch sets LL (R62). -/
def VectorDone (i : Instr) (f : VecForm) (op : LaneOp) (s : State) (iss : Issue) (g : Group) : Prop :=
  let src := iss.sourceGroup g
  Leads i s iss fun t h =>
    match elementNow iss g f with
    | none => t = advance s iss
    | some e =>
      let a (l : Nat) := readOperand src iss l e.a
      let b (l : Nat) := readOperand src iss l e.b
      let c (l : Nat) := if e.acc then src.block l e.d e.dsh.count else []
      let r (l : Nat) := op (a l).1 (b l).1 (c l) (roundingMode (src.fibre l))
      ElementDone s iss g e (fun l => (r l).1) (fun l => (r l).2.or { ll := (a l).2 || (b l).2 }) t h

/-- Floor division by a power of two of a value read as two's complement. -/
def floorShift {n : Nat} (a : BitVec n) (k : Nat) : BitVec n := BitVec.ofInt n (a.toInt / 2 ^ k)

/-- d of the words of R124 to R127, from a, b and c, with the immediate of the word. -/
def integerResult (iss : Issue) : Instr → Option (Word → Word → Word → Word)
  | .addI32 _ => some fun a b _ => BitVec.ofNat 32 (a.toNat + b.toNat)
  | .subI32 _ => some fun a b _ => BitVec.ofInt 32 (a.toNat - b.toNat)
  | .mulI32 _ => some fun a b _ => BitVec.ofNat 32 (a.toNat * b.toNat)
  | .mulhI32 _ => some fun a b _ => BitVec.ofInt 32 (a.toInt * b.toInt / 2 ^ 32)
  | .mulhN32 _ => some fun a b _ => BitVec.ofNat 32 (a.toNat * b.toNat / 2 ^ 32)
  | .madI32 _ => some fun a b c => BitVec.ofNat 32 (a.toNat * b.toNat + c.toNat)
  | .minI32 _ => some fun a b _ => if a.toInt ≤ b.toInt then a else b
  | .minN32 _ => some fun a b _ => if a.toNat ≤ b.toNat then a else b
  | .maxI32 _ => some fun a b _ => if b.toInt ≤ a.toInt then a else b
  | .maxN32 _ => some fun a b _ => if b.toNat ≤ a.toNat then a else b
  | .andW _ => some fun a b _ => a &&& b
  | .orW _ => some fun a b _ => a ||| b
  | .xorW _ => some fun a b _ => a ^^^ b
  | .shl _ => some fun a b _ =>
      let n := b.toNat % 256
      if n < 32 then BitVec.ofNat 32 (a.toNat * 2 ^ n) else 0
  | .shrN32 _ => some fun a b _ =>
      let n := b.toNat % 256
      if n < 32 then BitVec.ofNat 32 (a.toNat / 2 ^ n) else 0
  | .shrI32 _ => some fun a b _ =>
      let n := b.toNat % 256
      if n < 32 then floorShift a n else if a.getLsbD 31 then 0xFFFFFFFF else 0
  | .rotl _ => some fun a b _ => BitVec.ofNat 32 (a.toNat * 2 ^ (b.toNat % 32) + a.toNat / 2 ^ (32 - b.toNat % 32))
  | .rotr _ => some fun a b _ => BitVec.ofNat 32 (a.toNat / 2 ^ (b.toNat % 32) + a.toNat * 2 ^ (32 - b.toNat % 32))
  | .bfxN32 _ => some fun a b _ =>
      BitVec.ofNat 32 (a.toNat / 2 ^ (b.toNat % 32) % 2 ^ Nat.min (b.toNat / 256 % 64) 32)
  | .bfxI32 _ => some fun a b _ =>
      let len := Nat.min (b.toNat / 256 % 64) 32
      let y := (a.toInt / 2 ^ (b.toNat % 32)) % 2 ^ len
      if len = 0 then 0 else BitVec.ofInt 32 (if 2 ^ (len - 1) ≤ y then y - 2 ^ len else y)
  | .bfi _ => some fun a b c =>
      let m := BitVec.ofNat 32 ((2 ^ Nat.min (b.toNat / 256 % 64) 32 - 1) * 2 ^ (b.toNat % 32))
      (c &&& ~~~m) ||| (BitVec.ofNat 32 (a.toNat * 2 ^ (b.toNat % 32)) &&& m)
  | .sel _ => some fun a b c => if c = 0 then b else a
  | .addi o => some fun a _ _ => BitVec.ofNat 32 (a.toNat + (riImm iss o.imm true).toNat)
  | .andi o => some fun a _ _ => a &&& riImm iss o.imm false
  | .ori o => some fun a _ _ => a ||| riImm iss o.imm false
  | .xori o => some fun a _ _ => a ^^^ riImm iss o.imm false
  | .shli o => some fun a _ _ => BitVec.ofNat 32 (a.toNat * 2 ^ o.imm.toNat)
  | .shriN32 o => some fun a _ _ => BitVec.ofNat 32 (a.toNat / 2 ^ o.imm.toNat)
  | .shriI32 o => some fun a _ _ => floorShift a o.imm.toNat
  | .movi _ _ _ imm => some fun _ _ _ =>
      match iss.ext with
      | none => BitVec.ofInt 32 imm.toInt
      | some k => BitVec.ofNat 32 (k.toNat % 2 ^ 16 * 2 ^ 16 + imm.toNat)
  | .absI32 _ => some fun a _ _ => if a.toInt < 0 then BitVec.ofInt 32 (-a.toInt) else a
  | .negI32 _ => some fun a _ _ => BitVec.ofInt 32 (-a.toInt)
  | .notW _ => some fun a _ _ => ~~~a
  | .clz _ => some fun a _ _ => BitVec.ofNat 32 (((List.range 32).find? fun k => a.getLsbD (31 - k)).getD 32)
  | .popc _ => some fun a _ _ => BitVec.ofNat 32 ((List.range 32).countP fun k => a.getLsbD k)
  | .brev _ => some fun a _ _ => BitVec.ofNat 32 (((List.range 32).map fun k => if a.getLsbD (31 - k) then 2 ^ k else 0).sum)
  | .mov _ => some fun a _ _ => a
  | _ => none

end Sys2Proof.Stmt

open Sys2Proof Sys2Proof.Machine Sys2Proof.Stmt

/-- R118, R124 to R127, R61, R62, R65, R67, R70, R121: an integer word of R124 to R127 that passes the checks of R76 completes for its gang; each participant's
D receives the value of the tables from its own sources, and everything else of the state is as before. -/
def Obligations.IntegerWordEffect : Prop :=
  ∀ (i : Instr) (f : VecForm) (s : State) (iss : Issue) (g : Group) (r : Word → Word → Word → Word),
    Issuing s iss g → Accepted i iss g → vecForm i = some f → integerResult iss i = some r →
    VectorDone i f (fun a b c _ => ([r (a.headD 0) (b.headD 0) (c.headD 0)], {})) s iss g

namespace Sys2Proof.Stmt
open Sys2Proof.Machine

/-- The exact value of a finite encoding (R90). -/
def exactValue : Fv → ℚ
  | .fin n m e => (if n then -1 else 1) * m * 2 ^ e
  | _ => 0

/-- One value lies below another: NaNs are in no order, and the infinities lie outside the finite values (R101). -/
def valueBelow : Fv → Fv → Bool
  | .nan _, _ => false
  | _, .nan _ => false
  | .inf n, .inf k => n && !k
  | .inf n, _ => n
  | _, .inf k => !k
  | x, y => decide (exactValue x < exactValue y)

/-- The two values are equal, the two zeros among them. -/
def valueEqual : Fv → Fv → Bool
  | .nan _, _ => false
  | _, .nan _ => false
  | .inf n, .inf k => n == k
  | .inf _, _ => false
  | _, .inf _ => false
  | x, y => decide (exactValue x = exactValue y)

/-- The relation of a compare word on a and b, and the NV that it sets (R101, R128). -/
def relationOf : Instr → Option (Word → Word → Bool × Bool)
  | .cmpEqI32 _ => some fun a b => (decide (a = b), false)
  | .cmpNeI32 _ => some fun a b => (decide (a ≠ b), false)
  | .cmpLtI32 _ => some fun a b => (decide (a.toInt < b.toInt), false)
  | .cmpLtN32 _ => some fun a b => (decide (a.toNat < b.toNat), false)
  | .cmpLeI32 _ => some fun a b => (decide (a.toInt ≤ b.toInt), false)
  | .cmpLeN32 _ => some fun a b => (decide (a.toNat ≤ b.toNat), false)
  | .cmpEqF32 _ => some fun a b =>
      let x := fp32.decode a.toNat
      let y := fp32.decode b.toNat
      (valueEqual x y, x.isSignalling || y.isSignalling)
  | .cmpLtF32 _ => some fun a b =>
      let x := fp32.decode a.toNat
      let y := fp32.decode b.toNat
      (valueBelow x y, x.isNan || y.isNan)
  | .cmpLeF32 _ => some fun a b =>
      let x := fp32.decode a.toNat
      let y := fp32.decode b.toNat
      (valueBelow x y || valueEqual x y, x.isNan || y.isNan)
  | .cmpUnF32 _ => some fun a b =>
      let x := fp32.decode a.toNat
      let y := fp32.decode b.toNat
      (x.isNan || y.isNan, x.isSignalling || y.isSignalling)
  | _ => none

/-- The 64-bit value of R131's control string, and of its source index for bit k. -/
def permIndex (c : List Word) (k : Nat) : Nat :=
  ((List.range 6).map fun t => if (c.getD ((6 * k + t) / 32) 0).getLsbD ((6 * k + t) % 32) then 2 ^ t else 0).sum

/-- The value whose bit k is h k. -/
def fromBits (h : Nat → Bool) : Dword := BitVec.ofNat 64 ((List.range 64).map fun k => if h k then 2 ^ k else 0).sum

/-- d of the pair words of R129 to R132, from a, b and the registers of b. -/
def pairResult : Instr → Option (Dword → Dword → List Word → Dword)
  | .addI64 _ => some fun a b _ => BitVec.ofNat 64 (a.toNat + b.toNat)
  | .subI64 _ => some fun a b _ => BitVec.ofInt 64 (a.toNat - b.toNat)
  | .shlI64 _ => some fun a _ w =>
      let n := (w.headD 0).toNat % 256
      if n < 64 then BitVec.ofNat 64 (a.toNat * 2 ^ n) else 0
  | .shrN64 _ => some fun a _ w =>
      let n := (w.headD 0).toNat % 256
      if n < 64 then BitVec.ofNat 64 (a.toNat / 2 ^ n) else 0
  | .shrI64 _ => some fun a _ w =>
      let n := (w.headD 0).toNat % 256
      if n < 64 then floorShift a n else if a.getLsbD 63 then BitVec.allOnes 64 else 0
  | .bdep _ => some fun a b _ => fromBits fun k => b.getLsbD k && a.getLsbD ((List.range k).countP fun i => b.getLsbD i)
  | .bext _ => some fun a b _ => fromBits fun j =>
      (List.range 64).any fun k => b.getLsbD k && (List.range k).countP (fun i => b.getLsbD i) == j && a.getLsbD k
  | .bperm _ => some fun a _ c => fromBits fun k => a.getLsbD (permIndex c k)
  | .gfm8 _ => some fun a b _ => fromBits fun n =>
      (List.range 8).foldl (fun acc k => acc ^^ (a.getLsbD (8 * (n / 8) + k) && b.getLsbD (8 * k + n % 8))) false
  | _ => none

/-- d and the status bits of the words of R133 to R141, from the rounding mode and the values of a, b and c (what fpAdd, fpMinMax, convert,
dot4 and the others give stands in ArithmeticRoundsOnce and ConversionsRound); each half of a packed word stands for itself (R135). -/
def floatResult : Instr → Option (Nat → Word → Word → Word → Word × Status)
  | .addF32 _ => some fun m a b _ => one (fpAdd fp32 m a.toNat b.toNat)
  | .subF32 _ => some fun m a b _ => one (fpSub fp32 m a.toNat b.toNat)
  | .mulF32 _ => some fun m a b _ => one (fpMul fp32 m a.toNat b.toNat)
  | .fmaF32 _ => some fun m a b c => one (fpFma fp32 m a.toNat b.toNat c.toNat)
  | .minF32 _ => some fun _ a b _ => one (fpMinMax fp32 false false a.toNat b.toNat)
  | .maxF32 _ => some fun _ a b _ => one (fpMinMax fp32 true false a.toNat b.toNat)
  | .minnumF32 _ => some fun _ a b _ => one (fpMinMax fp32 false true a.toNat b.toNat)
  | .maxnumF32 _ => some fun _ a b _ => one (fpMinMax fp32 true true a.toNat b.toNat)
  | .scaleF32 _ => some fun m a b _ => one (fpScale m a.toNat b.toInt)
  | .addBf16 _ => some fun m a b _ => halves (fun a b _ => fpAdd bf16 m a b) a b 0
  | .mulBf16 _ => some fun m a b _ => halves (fun a b _ => fpMul bf16 m a b) a b 0
  | .fmaBf16 _ => some fun m a b c => halves (fun a b c => fpFma bf16 m a b c) a b c
  | .addF16 _ => some fun m a b _ => halves (fun a b _ => fpAdd fp16 m a b) a b 0
  | .mulF16 _ => some fun m a b _ => halves (fun a b _ => fpMul fp16 m a b) a b 0
  | .fmaF16 _ => some fun m a b c => halves (fun a b c => fpFma fp16 m a b c) a b c
  | .packBf16 _ => some fun m a b _ => both (convert 2 0 m a.toNat) (convert 2 0 m b.toNat)
  | .packF16 _ => some fun m a b _ => both (convert 1 0 m a.toNat) (convert 1 0 m b.toNat)
  | .dot4E4m3 _ => some fun m a b c => one (dot4 m a.toNat b.toNat c.toNat)
  | .cvt _ t src => some fun m a _ _ => one (convert t.toNat src.toNat m a.toNat)
  | .rnd _ t => some fun m a _ _ =>
      one (if t = 0 then roundIntegral fp32 m a.toNat else roundIntegral (if t = 1 then fp16 else bf16) m (a.toNat % 65536))
  | _ => none
where
  one (r : Nat × Status) : Word × Status := (BitVec.ofNat 32 r.1, r.2)
  both (lo hi : Nat × Status) : Word × Status := (BitVec.ofNat 32 (hi.1 * 2 ^ 16 + lo.1), lo.2.or hi.2)
  halves (h : Nat → Nat → Nat → Nat × Status) (a b c : Word) : Word × Status :=
    both (h (a.toNat % 2 ^ 16) (b.toNat % 2 ^ 16) (c.toNat % 2 ^ 16)) (h (a.toNat / 2 ^ 16) (b.toNat / 2 ^ 16) (c.toNat / 2 ^ 16))

/-- The function code and the operands' type code of a special-function word (R142). -/
def specialCodes : Instr → Option (Nat × Nat)
  | .exp o => some (0, o.ty.toNat)
  | .log o => some (1, o.ty.toNat)
  | .rcp o => some (2, o.ty.toNat)
  | .rsqrt o => some (3, o.ty.toNat)
  | .sqrt o => some (4, o.ty.toNat)
  | .sin o => some (5, o.ty.toNat)
  | .cos o => some (6, o.ty.toNat)
  | .tanh o => some (7, o.ty.toNat)
  | _ => none

/-- What stands before the combination of further values under an operator: the first value, a NaN under operators 8 to 10 made canonical,
then each value combined from left to right (R144). -/
def combined (op mode : Nat) : List Word → Word
  | [] => crossIdentity op
  | x :: rest => rest.foldl (fun acc y => (combine op mode acc y).1) (canonWord op x).1

/-- d of participant l of the cross-lane words, from all participants' lanes and values in ascending lane order (R143, R144). -/
def crossResult : Instr → Option (List (Nat × Word) → Nat → Nat → List Word)
  | .allNz .. => some fun xs _ _ => [if xs.all fun x => x.2 != 0 then 1 else 0]
  | .anyNz .. => some fun xs _ _ => [if xs.any fun x => x.2 != 0 then 1 else 0]
  | .allEq .. => some fun xs _ _ => [if xs.all fun x => xs.all fun y => x.2 == y.2 then 1 else 0]
  | .nzmask .. => some fun xs _ _ =>
      let m := fromBits fun j => xs.any fun x => x.1 == j && x.2 != 0
      [m.extractLsb' 0 32, m.extractLsb' 32 32]
  | .scanInc _ _ _ _ op => some fun xs mode l => [combined op.toNat mode ((xs.filter fun x => decide (x.1 ≤ l)).map Prod.snd)]
  | .scanExc _ _ _ _ op => some fun xs mode l => [combined op.toNat mode ((xs.filter fun x => decide (x.1 < l)).map Prod.snd)]
  | .reduce _ _ _ _ op => some fun xs mode _ => [combined op.toNat mode (xs.map Prod.snd)]
  | .lcnt .. => some fun xs _ l => [BitVec.ofNat 32 (xs.filter fun x => decide (x.1 < l) && x.2 != 0).length]
  | _ => none

/-- The operator of a scan or a reduction (R143). -/
def scanOperator : Instr → Option Nat
  | .scanInc _ _ _ _ op | .scanExc _ _ _ _ op | .reduce _ _ _ _ op => some op.toNat
  | _ => none

/-- The status bits of every combination of R144, which every participant receives (R145). -/
def combinedStatus (op mode : Nat) : List Word → Status
  | [] => {}
  | x :: rest =>
    (rest.foldl (fun (acc : Word × Status) y => ((combine op mode acc.1 y).1, acc.2.or (combine op mode acc.1 y).2))
      ((canonWord op x).1, (canonWord op x).2)).2

end Sys2Proof.Stmt

/-- R101, R128: a compare word that passes its checks completes for its gang: D receives 1 or 0, or bit D of pw is written and no register
and no latch; NV as R101 says. Everything else is as before. -/
def Obligations.CompareWordEffect : Prop :=
  ∀ (i : Instr) (f : VecForm) (s : State) (iss : Issue) (g : Group) (r : Word → Word → Bool × Bool),
    Issuing s iss g → Accepted i iss g → vecForm i = some f → relationOf i = some r →
    VectorDone i f (fun a b _ _ => let x := r (a.headD 0) (b.headD 0); ([if x.1 then 1 else 0], { nv := x.2 })) s iss g

/-- R120, R129 to R132: a pair word that passes its checks completes for its gang with the 64-bit value of the tables, its low half in
D. Everything else is as before. -/
def Obligations.PairWordEffect : Prop :=
  ∀ (i : Instr) (f : VecForm) (s : State) (iss : Issue) (g : Group) (r : Dword → Dword → List Word → Dword),
    Issuing s iss g → Accepted i iss g → vecForm i = some f → pairResult i = some r →
    VectorDone i f (fun a b _ _ =>
      let v := r (a.getD 1 0 ++ a.headD 0) (b.getD 1 0 ++ b.headD 0) b
      ([v.extractLsb' 0 32, v.extractLsb' 32 32], {})) s iss g

/-- R115, R133 to R141: a floating-point, packed or conversion word that passes its checks completes for its gang with the one rounding
of its exact value in each fibre's own mode, and the status bits of R97 to R99. Everything else is as before. -/
def Obligations.FloatWordEffect : Prop :=
  ∀ (i : Instr) (f : VecForm) (s : State) (iss : Issue) (g : Group) (r : Nat → Word → Word → Word → Word × Status),
    Issuing s iss g → Accepted i iss g → vecForm i = some f → floatResult i = some r →
    VectorDone i f (fun a b c m => ([(r m (a.headD 0) (b.headD 0) (c.headD 0)).1], (r m (a.headD 0) (b.headD 0) (c.headD 0)).2)) s iss g

/-- R116, R142: a special-function word that passes its checks completes for its gang with the value and the status bits of its function
(`specialFn`, which SpecialTableAndRoots and SpecialBounds tie to R117 and R116) at the operand's field, whatever the rounding mode; it never
sets NX, IX or LL of itself. Everything else is as before. -/
def Obligations.SpecialWordEffect : Prop :=
  (∀ fn ty x, (specialFn fn ty x).2.nx = false ∧ (specialFn fn ty x).2.ix = false ∧ (specialFn fn ty x).2.ll = false)
  ∧ ∀ (i : Instr) (f : VecForm) (s : State) (iss : Issue) (g : Group) (fn ty : Nat),
    Issuing s iss g → Accepted i iss g → vecForm i = some f → specialCodes i = some (fn, ty) →
    VectorDone i f (fun a _ _ _ =>
      let r := specialFn fn ty (if ty = 0 then (a.headD 0).toNat else (a.headD 0).toNat % 2 ^ 16)
      ([BitVec.ofNat 32 r.1], r.2)) s iss g

/-- R143 to R145: a cross-lane word that passes its checks completes for its gang: each participant receives the value of the tables from
all participants, and every status bit that any combination sets. Everything else is as before. -/
def Obligations.CrossLaneWordEffect : Prop :=
  ∀ (i : Instr) (f : VecForm) (s : State) (iss : Issue) (g : Group) (r : List (Nat × Word) → Nat → Nat → List Word),
    Issuing s iss g → Accepted i iss g → vecForm i = some f → crossResult i = some r →
    iss.lanes.Pairwise (· < ·) → (∀ l ∈ iss.lanes, l < 64) →
    Leads i s iss fun t h =>
      match elementNow iss g f with
      | none => t = advance s iss
      | some e =>
        let src := iss.sourceGroup g
        let read (l : Nat) := readOperand src iss l e.a
        let xs := (iss.participants g).map fun l => (l, (read l).1.headD 0)
        let mode := ((iss.participants g).head?.map fun l => roundingMode (src.fibre l)).getD 0
        let st := match scanOperator i with
          | some op => combinedStatus op mode (xs.map Prod.snd)
          | none => {}
        ElementDone s iss g e (r xs mode) (fun l => st.or { ll := (read l).2 }) t h

namespace Sys2Proof.Stmt
open Sys2Proof.Machine

/-! ### The words of 09_memory_words.md -/

/-- Every fibre of the gang stands at the next chain; no other fibre has changed (R149). -/
def Advanced (iss : Issue) (g h : Group) : Prop :=
  ∀ l, h.fibre l = if l ∈ iss.lanes ∧ l < g.fibres.length then { g.fibre l with pc := iss.next, progress := 0 } else g.fibre l

/-- A byte of memory after a walk: as before, or a byte of a page-table entry with its D or A bit set (R296, R298). -/
def walkedByte (p : Nat) (before after : Byte) : Prop :=
  after = before ∨ (p % 8 = 0 ∧ after = before ||| 0x80) ∨ (p % 8 = 1 ∧ after = before ||| 1)

/-- An access as its word asks for it: what its translation finds is left out, and so is its number. -/
def asked (a : Access) : Access :=
  { a with id := 0, pa := none, tlbKey := none, held := false, known := none, needsAts := false, least := 0, shared := false }

/-- What an access records at its issue: the events and the engines' words that its fibre has waited for, and the clock (R263, R265,
R269). -/
def issuedNow (s : State) (g : Group) (a : Access) : Access :=
  { a with after := (g.fibre a.lane).floor.toList, behind := (g.fibre a.lane).behind, issued := s.clock }

/-- The access of lane l to its scoreboard slot, before its word fills in what it moves. -/
def bare (iss : Issue) (word l slot : Nat) (kind : AccessKind) (addr : Dword) : Access :=
  { id := 0, word := word, gid := iss.gid, lane := l, slot := some slot, kind := kind, addr := addr, size := 0 }

/-- The parts of a transfer of a size code (R58, R179, R184): a 16-byte transfer is two of 8 bytes, the lower first. -/
def inParts (sz : Nat) (a : Access) (fill : Nat → Access → Access) : List Access :=
  (if sz = 4 then [0, 1] else [0]).map fun k =>
    fill k { a with addr := a.addr + BitVec.ofNat 64 (8 * k), pa := a.pa.map fun p => p + 8 * k, sz := sz
                    size := [1, 2, 4, 8, 8, 1, 2].getD sz 2 }

/-- A part of a load: where its words go in the register file (R302), and how many there are. -/
def loads (g : Group) (l d sz k : Nat) (a : Access) : Access :=
  { a with row := (g.fibre l).wb + d + 2 * k, nregs := if sz = 3 ∨ sz = 4 then 2 else 1 }

/-- A part of a store: its data, a pair for 8 bytes (R184). -/
def stores (g : Group) (l d sz k : Nat) (a : Access) : Access :=
  { a with data := if sz = 3 ∨ sz = 4 then g.reg l (d + 2 * k + 1) ++ g.reg l (d + 2 * k) else (g.reg l d).setWidth 64 }

/-- The access of an atomic or a reduction (R191 to R193): the old value goes to D unless it is a reduction. -/
def atomic (iss : Issue) (word : Nat) (g : Group) (o : MAt) (aop : Nat) (returns : Bool) (l : Nat) : Access :=
  let wide := o.ty = 2 ∨ o.ty = 3
  let value (r : Nat) : Dword := if wide then g.reg l (r + 1) ++ g.reg l r else (g.reg l r).setWidth 64
  let d := o.d.toNat
  { bare iss word l o.ss.toNat (if returns then .atomic else .reduction) (memAddress g iss l o.bp) with
    size := if wide then 8 else 4, aop := aop, aty := o.ty.toNat, scope := o.sc.toNat, data := value d
    data2 := if aop = 7 then value (if wide then d + 2 else d + 1) else 0
    row := (g.fibre l).wb + d, nregs := if returns then (if wide then 2 else 1) else 0 }

/-- What a word of global memory asks for a participant, and the alignment that its address must have (R179, R184, R193). -/
def globalWord (iss : Issue) (word : Nat) (g : Group) : Instr → Option (Nat × (Nat → Dword) × (Nat → List Access))
  | .ld o => some (2 ^ ([0, 1, 2, 3, 4, 0, 1].getD o.sz.toNat 0), fun l => memAddress g iss l o.bp, fun l =>
      inParts o.sz.toNat { bare iss word l o.ss.toNat .load (memAddress g iss l o.bp) with hint := o.rh.toNat }
        (loads g l o.d.toNat o.sz.toNat))
  | .st o => some (2 ^ ([0, 1, 2, 3, 4, 0, 1].getD o.sz.toNat 0), fun l => memAddress g iss l o.bp, fun l =>
      inParts o.sz.toNat { bare iss word l o.ss.toNat .store (memAddress g iss l o.bp) with hint := o.rh.toNat }
        (stores g l o.d.toNat o.sz.toNat))
  | .atomAdd o => at' o 0 true
  | .atomMin o => at' o 1 true
  | .atomMax o => at' o 2 true
  | .atomAnd o => at' o 3 true
  | .atomOr o => at' o 4 true
  | .atomXor o => at' o 5 true
  | .atomExch o => at' o 6 true
  | .atomCas o => at' o 7 true
  | .redAdd o => at' o 0 false
  | .redMin o => at' o 1 false
  | .redMax o => at' o 2 false
  | .redAnd o => at' o 3 false
  | .redOr o => at' o 4 false
  | .redXor o => at' o 5 false
  | _ => none
where
  at' (o : MAt) (aop : Nat) (returns : Bool) : Option (Nat × (Nat → Dword) × (Nat → List Access)) :=
    some (if o.ty = 2 ∨ o.ty = 3 then 8 else 4, fun l => memAddress g iss l o.bp, fun l => [atomic iss word g o aop returns l])

/-- A word of scratchpad or weight store (R177, R178, R184) or of a barrier object (R203): the address of a lane, the bytes that it moves, and its accesses once its
address is known to be byte b of the core or of the die. -/
def localWord (s : State) (iss : Issue) (g : Group) : Instr → Option ((Nat → Dword) × Nat × (Nat → Nat → List Access))
  | .lds o => some (at' o, bytes o, fun l b => inParts o.sz.toNat (place o l .lds b) (loads g l o.d.toNat o.sz.toNat))
  | .sts o => some (at' o, bytes o, fun l b => inParts o.sz.toNat (place o l .sts b) (stores g l o.d.toNat o.sz.toNat))
  | .ldw o => some (at' o, bytes o, fun l b => inParts o.sz.toNat (place o l .ldw b) (loads g l o.d.toNat o.sz.toNat))
  | .spill o => some (at' o, bytes o, fun l b => inParts o.sz.toNat (place o l .spill b) (stores g l o.d.toNat o.sz.toNat))
  | .fill o => some (at' o, bytes o, fun l b => inParts o.sz.toNat (place o l (.fill none) b) (loads g l o.d.toNat o.sz.toNat))
  | .barInit _ sa k => some (object sa, 16, fun l b => [{ bar sa l .barInit b (extK iss k) with slot := none }])
  | .barArrive o k => some (object o.sa, 16, fun l b => [dest o l (bar o.sa l .barArrive b (extK iss k))])
  | .barExpect _ sa k => some (object sa, 16, fun l b => [{ bar sa l .barExpect b (extK iss k) with slot := none }])
  | .barWait o k => some (object o.sa, 16, fun l b =>
      [{ dest o l (bar o.sa l (.barWait (s.clock + (g.reg l o.d.toNat).toNat)) b k.toNat) with data2 := iss.pc }])
  | .barTest o k => some (object o.sa, 16, fun l b => [dest o l (bar o.sa l .barTest b k.toNat)])
  | .barInval _ sa => some (object sa, 16, fun l b => [{ bar sa l .barInval b 0 with slot := none }])
  | _ => none
where
  at' (o : MM) (l : Nat) : Dword := memAddress g iss l o.bp
  object (sa : BitVec 7) (l : Nat) : Dword := (g.reg l sa.toNat).setWidth 64
  bar (sa : BitVec 7) (l : Nat) (kind : AccessKind) (b n : Nat) : Access :=
    { bare iss s.nextId l 7 kind (object sa l) with pa := some b, size := 16, data := BitVec.ofNat 64 n }
  dest (o : EF) (l : Nat) (a : Access) : Access := { a with row := (g.fibre l).wb + o.d.toNat, nregs := 1 }
  bytes (o : MM) : Nat := 2 ^ ([0, 1, 2, 3, 4, 0, 1].getD o.sz.toNat 0)
  place (o : MM) (l : Nat) (kind : AccessKind) (b : Nat) : Access :=
    { bare iss s.nextId l o.ss.toNat kind (memAddress g iss l o.bp) with pa := some b }

/-- The byte that an address names for a word of scratchpad or weight store, when its checks pass (R177 to R179, R188, R259). -/
def localByte (s : State) (iss : Issue) (g : Group) (i : Instr) (n : Nat) (ea : Dword) : Option Nat :=
  if ea.toNat % n ≠ 0 then none
  else
    match i with
    | .ldw _ =>
      if ea.toNat < 2 ^ 31 ∧ weightReadable s g.part (dieOf iss.gid) g.regions.getLsbD ea.toNat n then some ea.toNat else none
    | .spill _ | .fill _ => if ea.getLsbD 23 then none else spadByte s iss.gid g (ea.extractLsb' 0 32) n
    | _ => spadByte s iss.gid g (ea.extractLsb' 0 32) n

/-- Accesses numbered one after the other, as they are issued in group g. -/
def numbered (s : State) (g : Group) (first : Nat) (l : List Access) : List Access :=
  l.zipIdx.map fun x => issuedNow s g { x.1 with id := first + x.2 }

/-- The entries of the forwarding table that a spill makes: one for each pass that has a participant (R188). -/
def spillEntries (core first : Nat) (l : List Access) : List SpillEntry :=
  let page (n : Nat) := (l.filter fun a => a.lane / 32 == n).map fun a => a.id
  let made := [page 0, page 1].filter fun p => !p.isEmpty
  made.zipIdx.map fun x => { id := first + x.2, core := core, accesses := x.1 }

/-- A trap record has joined the kiosk's waiting records, and issue has stopped in the group (R171). -/
def TrapJoined (s t : State) (h : Group) (gid cause : Nat) (lanes : List Nat) (detail : Dword) : Prop :=
  h.stopping = true ∧ ∃ r, t.kiosks = (setKiosk s (coreOf gid) { getKiosk s (coreOf gid) with
      waiting := (getKiosk s (coreOf gid)).waiting ++ [r] }).kiosks
    ∧ r.cause = cause ∧ r.gid = gid ∧ r.detail = detail ∧ ∀ l < 64, r.mask.getLsbD l = decide (l ∈ lanes)

end Sys2Proof.Stmt

/-- R175, R179, R181, R184, R191 to R193: a load, store, atomic or reduction of global memory whose addresses are aligned completes its
issue: each participant's accesses are recorded against its slot in ascending lane order, the gang goes on, and no register changes.
Translation sets no bit of memory but A and D (R298), which are events of their own (log 102), and logs a table entry that it cannot read
(R339). -/
def Sys2Proof.Stmt.GlobalWordRecords : Prop :=
  ∀ (i : Instr) (s : State) (iss : Issue) (g : Group) (n : Nat) (ea : Nat → Dword) (want : Nat → List Access),
    Issuing s iss g → Accepted i iss g → globalWord iss s.nextId (iss.sourceGroup g) i = some (n, ea, want) →
    (∀ l ∈ iss.participants g, (ea l).toNat % n = 0) →
    Leads i s iss fun t h =>
      t.accesses.map asked = (s.accesses ++ ((iss.participants g).map want).flatten.map (issuedNow s g)).map asked
      ∧ ((t.accesses.drop s.accesses.length).map fun a => a.id).Pairwise (· < ·)
      ∧ (∀ a ∈ t.accesses.drop s.accesses.length, s.nextId < a.id)
      ∧ Advanced iss g h ∧ h = { g with fibres := h.fibres, stopping := h.stopping }
      ∧ (∀ k, k ≠ iss.gid → getGroup t k = getGroup s k)
      ∧ (∀ p, walkedByte p (readByte s p) (readByte t p))
      ∧ t = { s with groups := t.groups, accesses := t.accesses, nextId := t.nextId, replay := t.replay, kiosks := t.kiosks
                     tlb := t.tlb, ats := t.ats, mem := t.mem, fresh := t.fresh, past := t.past, events := t.events
                     errLog := t.errLog, errOvf := t.errOvf }

/-- R177 to R181, R184, R188, R203, R259: a word of scratchpad or weight store or of barrier objects whose addresses pass their checks completes its issue: its
accesses are recorded with the byte that each address names, a spill enters the forwarding table, the gang goes on, and nothing else
changes. A fill here stands in fibres without an unwritten spill. -/
def Sys2Proof.Stmt.LocalWordRecords : Prop :=
  ∀ (i : Instr) (s : State) (iss : Issue) (g : Group) (ea : Nat → Dword) (n : Nat) (want : Nat → Nat → List Access) (byte : Nat → Nat),
    Issuing s iss g → Accepted i iss g → localWord s iss (iss.sourceGroup g) i = some (ea, n, want) →
    (∀ l ∈ iss.participants g, localByte s iss (iss.sourceGroup g) i n (ea l) = some (byte l)) →
    (∀ l ∈ iss.participants g, (∃ o, i = .fill o) → ∀ a ∈ s.accesses, a.gid = iss.gid → a.lane = l → a.kind ≠ .spill) →
    Leads i s iss fun t h =>
      let made := numbered s g (s.nextId + 1) ((iss.participants g).map fun l => want l (byte l)).flatten
      let spilt := match i with
        | .spill _ => spillEntries (coreOf iss.gid) (s.nextId + 1 + made.length) made
        | _ => []
      Advanced iss g h ∧ h = { g with fibres := h.fibres } ∧ (∀ k, k ≠ iss.gid → getGroup t k = getGroup s k)
      ∧ t = { s with groups := t.groups, accesses := s.accesses ++ made, spills := s.spills ++ spilt
                     nextId := s.nextId + 1 + made.length + spilt.length }

/-- R172, R180: where addresses of a scratchpad, weight-store or barrier word fail their checks, one protection trap names exactly their fibres,
with the address of the lowest; the other participants' accesses are recorded, and the gang goes on. -/
def Sys2Proof.Stmt.FailedChecksTrap : Prop :=
  ∀ (i : Instr) (s : State) (iss : Issue) (g : Group) (ea : Nat → Dword) (n : Nat) (want : Nat → Nat → List Access) (low : Nat)
    (rest : List Nat),
    Issuing s iss g → Accepted i iss g → localWord s iss (iss.sourceGroup g) i = some (ea, n, want) →
    (∀ o, i ≠ .spill o) → (∀ o, i ≠ .fill o) →
    iss.lanes.Pairwise (· < ·) → (∀ l ∈ iss.lanes, l < 64) →
    (iss.participants g).filter (fun l => (localByte s iss (iss.sourceGroup g) i n (ea l)).isNone) = low :: rest →
    Leads i s iss fun t h =>
      TrapJoined s t h iss.gid 0x0E (low :: rest) (ea low) ∧ Advanced iss g h
      ∧ t.accesses = s.accesses ++ numbered s g (s.nextId + 1) (((iss.participants g).filterMap fun l =>
          (localByte s iss (iss.sourceGroup g) i n (ea l)).map fun b => want l b)).flatten
      ∧ h = { g with fibres := h.fibres, stopping := true } ∧ (∀ k, k ≠ iss.gid → getGroup t k = getGroup s k)
      ∧ t = { s with groups := t.groups, accesses := t.accesses, nextId := t.nextId, kiosks := t.kiosks }

/-- R172, R179, R180: the same for words of global memory: the first trap that the word raises is a protection trap, and it names every
participant whose address is misaligned. -/
def Sys2Proof.Stmt.MisalignedGlobalTraps : Prop :=
  ∀ (i : Instr) (s : State) (iss : Issue) (g : Group) (n : Nat) (ea : Nat → Dword) (want : Nat → List Access),
    Issuing s iss g → Accepted i iss g → globalWord iss s.nextId (iss.sourceGroup g) i = some (n, ea, want) →
    iss.lanes.Pairwise (· < ·) → (∀ l ∈ iss.lanes, l < 64) → (∃ l ∈ iss.participants g, (ea l).toNat % n ≠ 0) →
    Leads i s iss fun t h => h.stopping = true
      ∧ ∃ r more, (getKiosk t (coreOf iss.gid)).waiting = (getKiosk s (coreOf iss.gid)).waiting ++ r :: more
        ∧ r.cause = 0x0E ∧ r.gid = iss.gid ∧ ∀ l ∈ iss.participants g, (ea l).toNat % n ≠ 0 → r.mask.getLsbD l = true

namespace Sys2Proof.Stmt
open Sys2Proof.Machine

/-! ### How accesses finish (R181) -/

/-- An access that may take its place now, of a resident group of which a fibre lives on. -/
def Finishing (s : State) (a : Access) (g : Group) : Prop :=
  findAccess s a.id = some a ∧ canFinish s a = true ∧ getGroup s a.gid = some g ∧ g.liveLanes ≠ []

/-- What an agent finds in byte i of those at pa, k events before the newest (R261, R263): the value of the last write before that place in
time order. -/
def foundAt (s : State) (who : Agent) (pa k i : Nat) : Cell :=
  seenCell who 0 (locate s pa + i) k (cellAt s (locate s (pa + i))) s.past

/-- The key under which an access goes (R324): none for a shared page. -/
def accessKey (s : State) (g : Group) (a : Access) : Nat := if a.shared then plainKey else ctxKey s g.ctx

/-- The n bytes of an access lie in memory of tiers 0 to 2 or in host memory, in a unit that is ready, with no move or handover and no held
access of the fibre before it (R304, R309, R313, R355). -/
def Served (s : State) (a : Access) (pa n : Nat) : Prop :=
  (pa + n ≤ 2 ^ 60 ∨ 2 ^ 60 ≤ pa) ∧ (∀ k < n, moveOf s (pa + k) = none) ∧ moveOf s pa = none ∧ underHandover s pa = false
    ∧ itemReadyAt s pa = true ∧ behindHeld s a = false

/-- The bytes that the access finds k events before the newest meet no uncorrectable error (R358), and are under no other key than its own
(R325). -/
def Readable (s : State) (g : Group) (a : Access) (pa n k : Nat) : Prop :=
  damagedAt s pa n = false ∧ (pa < 2 ^ 60 → ∀ i < n, (foundAt s (fibreAgent g a.lane) pa k i).2 = none
    ∨ (foundAt s (fibreAgent g a.lane) pa k i).2 = some (keyNow s (accessKey s g a)))

/-- One of the k newest events wrote a byte of a space. -/
def rewritten (s : State) (space byte k : Nat) : Bool := (s.past.take k).any fun e => (e.found space byte).isSome

/-- A write of n bytes at pa, k events before the newest, under a key: a byte holds it unless a newer event wrote there too, and no other
place in memory has changed. -/
def WroteAt (s t : State) (key pa n k : Nat) (byte : Nat → Byte) : Prop :=
  (∀ i < n, cellAt t (locate s (pa + i)) =
    if rewritten s 0 (locate s (pa + i)) k then cellAt s (locate s (pa + i))
    else (byte i, if 2 ^ 60 ≤ pa then none else some (keyNow s key)))
  ∧ ∀ x, (∀ i < n, x ≠ locate s (pa + i)) → cellAt t x = cellAt s x

/-- The same for n bytes of scratchpad from a key. -/
def WroteSpad (s t : State) (key n k : Nat) (byte : Nat → Byte) : Prop :=
  (∀ i < n, tblGet 0 t.spad (key + i) = if rewritten s 1 (key + i) k then tblGet 0 s.spad (key + i) else byte i)
  ∧ ∀ x, x < key ∨ key + n ≤ x → tblGet 0 t.spad x = tblGet 0 s.spad x

/-- The access has taken its place in time order, k events before the newest (R181, R260). -/
def Took (s t : State) (a : Access) (g : Group) (k : Nat) (rd : Bool) : Prop :=
  (∃ newer e, t.past = newer ++ e :: s.past.drop k ∧ newer.map (fun x => x.id) = (s.past.take k).map (fun x => x.id)
    ∧ e.id = s.events ∧ e.agent = fibreAgent g a.lane ∧ e.word = a.word ∧ e.rd = rd)
  ∧ t.events = s.events + 1 ∧ t.backs = s.backs.drop 1

/-- The value of n bytes, little-endian (R6). -/
def valueOf (n : Nat) (byte : Nat → Byte) : Nat := ((List.range n).map fun k => (byte k).toNat * 256 ^ k).sum

/-- A value of n bits read as two's complement. -/
def twos (n v : Nat) : Int := if 2 ^ (n - 1) ≤ v then (v : Int) - 2 ^ n else v

/-- The words that a load of a size code writes from its bytes (R184). -/
def loadedWords (sz : Nat) (byte : Nat → Byte) : List Word :=
  match sz with
  | 0 => [BitVec.ofNat 32 (valueOf 1 byte)]
  | 1 => [BitVec.ofNat 32 (valueOf 2 byte)]
  | 2 => [BitVec.ofNat 32 (valueOf 4 byte)]
  | 5 => [BitVec.ofInt 32 (twos 8 (valueOf 1 byte))]
  | 6 => [BitVec.ofInt 32 (twos 16 (valueOf 2 byte))]
  | _ => [BitVec.ofNat 32 (valueOf 4 byte), BitVec.ofNat 32 (valueOf 4 fun k => byte (4 + k))]

/-- The bytes that a size code moves in one access (R179). -/
def accessBytes (sz : Nat) : Nat := [1, 2, 4, 8, 8, 1, 2].getD sz 2

/-- The words of an access stand in the cells that it fixed at issue (R302), ended fibres may have become free (R18), its fibre may have
noted its event (R265), and nothing else of the group has changed. -/
def Written (t s : State) (a : Access) (g h : Group) (ws : List Word) : Prop :=
  (∀ k < ws.length, tblGet 0 h.regs (cellKey g a.lane (a.row + k)) = (ws[k]?).getD 0)
  ∧ (∀ key, (∀ k < ws.length, key ≠ cellKey g a.lane (a.row + k)) → tblGet 0 h.regs key = tblGet 0 g.regs key)
  ∧ h = { g with regs := h.regs, fibres := h.fibres }
  ∧ (∀ l, h.fibre l = { g.fibre l with slot := (h.fibre l).slot, done := (h.fibre l).done }
      ∧ ((g.fibre l).slot ≠ .ended → (h.fibre l).slot = (g.fibre l).slot) ∧ (l ≠ a.lane → (h.fibre l).done = (g.fibre l).done))
  ∧ ∀ k, k ≠ a.gid → getGroup t k = getGroup s k

/-- The access is gone, and its words are written. -/
def Delivered (s t : State) (a : Access) (g h : Group) (ws : List Word) : Prop :=
  t.accesses = s.accesses.filter (fun b => b.id != a.id) ∧ Written t s a g h ws

/-- The step of an access leaves a next state, of which and of whose group P holds. -/
def Finishes (a : Access) (s : State) (P : State → Group → Prop) : Prop :=
  ∃ t h, exec (.accessFinish a.id false) s = .next t ∧ getGroup t a.gid = some h ∧ P t h

/-- Byte k of a value. -/
def byteOf (v : Dword) (k : Nat) : Byte := BitVec.ofNat 8 (v.toNat / 256 ^ k)

/-- The value that an atomic or a reduction leaves at its location (R192, R193), from the old value and its operand; 32-bit types in the
low half. -/
def atomicResult (aop ty : Nat) (old x : Dword) : Dword :=
  let bits := if ty = 2 ∨ ty = 3 then 64 else 32
  let u (v : Dword) : Nat := v.toNat % 2 ^ bits
  let n (v : Dword) : Int := if ty = 0 ∨ ty = 2 then twos bits (u v) else u v
  if ty = 4 then
    BitVec.ofNat 64 (match aop with
      | 0 => fpAdd fp32 0 (u old) (u x)
      | 1 => fpMinMax fp32 false true (u old) (u x)
      | _ => fpMinMax fp32 true true (u old) (u x)).1
  else
    BitVec.ofNat 64 (match aop with
      | 0 => (u old + u x) % 2 ^ bits
      | 1 => if n old ≤ n x then u old else u x
      | 2 => if n x ≤ n old then u old else u x
      | 3 => u (old &&& x)
      | 4 => u (old ||| x)
      | 5 => u (old ^^^ x)
      | _ => u x)

/-- The types of R191 for an atomic operation. -/
def atomicTyped (aop ty : Nat) : Prop := aop ≤ 7 ∧ ty ≤ 4 ∧ (ty = 4 → aop ≤ 2)

/-- Where the bytes of a local load stand (R177, R178): its space, the key of its first byte there, and what the space holds from there; the
weight store once it is ready. -/
def localSource (s : State) (a : Access) (b : Nat) : Option (Nat × Nat × (Nat → Byte)) :=
  match a.kind with
  | .lds | .fill none => some (1, 393216 * (a.gid / 64) + b, fun k => tblGet 0 s.spad (393216 * (a.gid / 64) + b + k))
  | .ldw =>
    if readyBit s (8 + a.gid / 8192) then
      some (2, 2 ^ 31 * (a.gid / 8192) + b, fun k => tblGet 0 s.weights (2 ^ 31 * (a.gid / 8192) + b + k))
    else none
  | _ => none

/-- Two lists of accesses differ at most in the events of spills and of the fills that they serve. -/
def SameButPlaces (l m : List Access) : Prop :=
  l.map (fun x => { x with placed := none }) = m.map fun x => { x with placed := none }

/-! ### Barrier objects (R202 to R206) -/

/-- What an object becomes once its phase may turn (R204). -/
def turned (o : BarObj) : BarObj :=
  if o.pending = 0 ∧ o.bytes = 0 then { o with phase := (o.phase + 1) % 16, pending := o.expected } else o

/-- The outcome word of R206 for the phase p. -/
def waitOutcome (o : BarObj) (p : Nat) : Word :=
  if o.valid = 0xB7A35C1D then
    BitVec.ofNat 32 (512 + (if o.ovr then 256 else 0) + 16 * o.phase + (if o.phase = p then 0 else 1))
  else 0

/-- The object of 16 bytes of scratchpad as an agent finds it k events before the newest (R202, R261). -/
def objectAt (s : State) (who : Agent) (core b k : Nat) : BarObj :=
  barOfBits (valueOf 16 fun i => (seenCell who 1 (393216 * core + b + i) k (tblGet 0 s.spad (393216 * core + b + i), none) s.past).1)

/-- What a barrier word with operand n does to a valid object, and the word that it delivers (R204 to R206). -/
def barrierEffect (kind : AccessKind) (n : Nat) (o : BarObj) : Option (BarObj × List Word) :=
  match kind with
  | .barInit => some ({ valid := 0xB7A35C1D, expected := n, pending := n, phase := 0, ovr := false, reserved := 0, bytes := 0 }, [])
  | .barArrive =>
    some (if o.pending < n then turned { o with ovr := true, pending := 0 } else turned { o with pending := o.pending - n }
      , [BitVec.ofNat 32 o.phase])
  | .barExpect => some (turned { o with bytes := (o.bytes + n) % 2 ^ 40 }, [])
  | .barInval => some ({ o with valid := 0 }, [])
  | .barTest => some (o, [waitOutcome o n])
  | _ => none

end Sys2Proof.Stmt

/-- R181, R184, R254, R261, R325: a load of global memory that may take its place writes what it finds there in the bytes at its address,
zero- or sign-extended as its size code says, to the cells fixed at issue; no byte of memory changes. With an agenda that puts the access
after every event so far, what it finds is what memory holds (log 102). -/
def Sys2Proof.Stmt.LoadFinishes : Prop :=
  ∀ (s : State) (a : Access) (g : Group) (pa : Nat),
    Finishing s a g → a.kind = .load → a.pa = some pa → a.sz ≤ 6 → a.size = accessBytes a.sz → Served s a pa a.size →
    let k := spotOf s (globalWho g a pa) 0 pa a.size true false
    Readable s g a pa a.size k →
    Finishes a s fun t h =>
      Delivered s t a g h (loadedWords a.sz fun i => (foundAt s (fibreAgent g a.lane) pa k i).1) ∧ Took s t a g k true
      ∧ (s.backs.headD 0 = 0 → (∀ e ∈ s.past, e.sent = true) →
          ∀ i, (foundAt s (fibreAgent g a.lane) pa k i).1 = (cellAt s (locate s (pa + i))).1)
      ∧ t = { s with groups := t.groups, accesses := t.accesses, stale := t.stale, lines := t.lines, counters := t.counters
                     fresh := t.fresh, past := t.past, events := t.events, backs := t.backs }

/-- R181, R184, R261, R325: a store to global memory that may take its place writes its data, little-endian, under its context's key; every
other byte of memory, and every register, is as before. -/
def Sys2Proof.Stmt.StoreFinishes : Prop :=
  ∀ (s : State) (a : Access) (g : Group) (pa : Nat),
    Finishing s a g → a.kind = .store → a.pa = some pa → a.size ≤ 8 → Served s a pa a.size → inSealedFrame s pa = false →
    let k := spotOf s (globalWho g a pa) 0 pa a.size false true
    Finishes a s fun t h =>
      Delivered s t a g h [] ∧ WroteAt s t (accessKey s g a) pa a.size k (byteOf a.data) ∧ Took s t a g k false
      ∧ t = { s with groups := t.groups, accesses := t.accesses, stale := t.stale, lines := t.lines, counters := t.counters
                     fresh := t.fresh, past := t.past, events := t.events, backs := t.backs, mem := t.mem, memTag := t.memTag
                     hostMem := t.hostMem, launches := t.launches }

/-- R191 to R193: an atomic or reduction takes its place in one step: memory receives the combination of the value found there and the
operand, or the new value of a cas whose comparison holds, and is unchanged where it does not; an atomic delivers the value found; every
other byte of memory is as before. -/
def Obligations.AtomicFinishes : Prop :=
  ∀ (s : State) (a : Access) (g : Group) (pa : Nat),
    Finishing s a g → (a.kind = .atomic ∨ a.kind = .reduction) → a.pa = some pa →
    atomicTyped a.aop a.aty → a.size = (if a.aty = 2 ∨ a.aty = 3 then 8 else 4) → (a.size = 4 → a.data.toNat < 2 ^ 32) →
    Served s a pa a.size → inSealedFrame s pa = false →
    let k := spotOf s (globalWho g a pa) 0 pa a.size true true
    Readable s g a pa a.size k →
    Finishes a s fun t h =>
      let old : Dword := BitVec.ofNat 64 (valueOf a.size fun i => (foundAt s (fibreAgent g a.lane) pa k i).1)
      Delivered s t a g h (if a.kind = .reduction then [] else if a.size = 8 then [old.extractLsb' 0 32, old.extractLsb' 32 32]
        else [old.extractLsb' 0 32])
      ∧ (if a.aop = 7 ∧ old ≠ a.data then ∀ x, cellAt t x = cellAt s x
          else WroteAt s t (accessKey s g a) pa a.size k (byteOf (if a.aop = 7 then a.data2 else atomicResult a.aop a.aty old a.data)))
      ∧ Took s t a g k true
      ∧ t = { s with groups := t.groups, accesses := t.accesses, stale := t.stale, lines := t.lines, counters := t.counters
                     fresh := t.fresh, past := t.past, events := t.events, backs := t.backs, mem := t.mem, memTag := t.memTag
                     hostMem := t.hostMem, launches := t.launches }

/-- R177, R178, R184, R188, R261: a load from scratchpad or weight store, and a fill that no spill serves, writes the bytes that it finds in
its space, and changes nothing else. A fill that a spill serves writes the bytes of the spill, which takes its place first when it has
not: the spill's bytes then stand in scratchpad (R265). -/
def Sys2Proof.Stmt.LocalLoadFinishes : Prop :=
  (∀ (s : State) (a : Access) (g : Group) (b space key : Nat) (byte : Nat → Byte),
    Finishing s a g → a.pa = some b → a.sz ≤ 6 → a.size = accessBytes a.sz → localSource s a b = some (space, key, byte) →
    damagedIn s space key a.size = false →
    let k := spotOf s (whoOf g a) space key a.size true false
    Finishes a s fun t h =>
      Delivered s t a g h (loadedWords a.sz fun i => (seenCell (fibreAgent g a.lane) space (key + i) k (byte i, none) s.past).1)
      ∧ Took s t a g k true
      ∧ t = { s with groups := t.groups, accesses := t.accesses, past := t.past, events := t.events, backs := t.backs })
  ∧ ∀ (s : State) (a x : Access) (g : Group) (b c : Nat),
    Finishing s a g → a.kind = .fill (some x.id) → a.pa = some b → a.sz ≤ 6 → a.size = accessBytes a.sz →
    findAccess s x.id = some x → x.kind = .spill → x.pa = some c → x.gid = a.gid →
    Finishes a s fun t h =>
      Written t s a g h (loadedWords a.sz (byteOf a.data))
      ∧ SameButPlaces t.accesses (s.accesses.filter fun y => y.id != a.id)
      ∧ (if x.placed.isSome then t.spad = s.spad
          else WroteSpad s t (393216 * (a.gid / 64) + c) x.size (spotOf s (whoOf g x) 1 (393216 * (a.gid / 64) + c) x.size false true)
            (byteOf x.data))
      ∧ t = { s with groups := t.groups, accesses := t.accesses, past := t.past, events := t.events, backs := t.backs, spad := t.spad
                     launches := t.launches }

/-- R177, R184, R188: a scratchpad store, and a spill when its entry of the forwarding table is written, writes its data to the bytes of
its core that it names; every other byte and every register is as before. A spill that a fill has brought to its place before (R265)
writes nothing more. -/
def Sys2Proof.Stmt.ScratchpadWrites : Prop :=
  (∀ (s : State) (a : Access) (g : Group) (b : Nat),
    Finishing s a g → a.kind = .sts → a.pa = some b →
    let key := 393216 * (a.gid / 64) + b
    let k := spotOf s (whoOf g a) 1 key a.size false true
    Finishes a s fun t h =>
      Delivered s t a g h [] ∧ WroteSpad s t key a.size k (byteOf a.data) ∧ Took s t a g k false
      ∧ t = { s with groups := t.groups, accesses := t.accesses, spad := t.spad, launches := t.launches, past := t.past
                     events := t.events, backs := t.backs })
  ∧ ∀ (s : State) (e : SpillEntry) (a : Access) (g : Group) (b : Nat),
    s.spills.find? (fun x => x.id == e.id) = some e → e.accesses = [a.id] → findAccess s a.id = some a → a.kind = .spill →
    a.pa = some b → (∀ x ∈ s.accesses, x.id = a.id → x = a) → (∀ x ∈ s.accesses, mustPrecede a x = false) →
    getGroup s a.gid = some g → g.liveLanes ≠ [] →
    let key := 393216 * (a.gid / 64) + b
    ∃ t h, exec (.spillEntryWritten e.id) s = .next t ∧ getGroup t a.gid = some h
      ∧ Written t s a g h [] ∧ SameButPlaces t.accesses (s.accesses.filter fun x => x.id != a.id)
      ∧ (if a.placed.isSome then t.spad = s.spad
          else WroteSpad s t key a.size (spotOf s (whoOf g a) 1 key a.size false true) (byteOf a.data))
      ∧ t = { s with groups := t.groups, accesses := t.accesses, spad := t.spad, launches := t.launches, past := t.past
                     events := t.events, backs := t.backs, spills := s.spills.filter fun x => x.id != e.id }

/-- R175, R207, R265: an access does not take its place while an earlier access of its fibre to a byte that it touches has not; nor a
bar.arrive while an earlier store of its fibre has not. -/
def Obligations.OrderKept : Prop :=
  ∀ (s : State) (a b : Access) (pa pb : Nat) (err : Bool),
    findAccess s a.id = some a → b ∈ s.accesses → b.id < a.id → b.gid = a.gid → b.lane = a.lane →
    ((spaceOf b.kind = spaceOf a.kind ∧ spaceOf a.kind < 3 ∧ a.pa = some pa ∧ b.pa = some pb ∧ (∀ n, a.kind ≠ .fill (some n))
        ∧ (∃ x, pa ≤ x ∧ x < pa + a.size ∧ pb ≤ x ∧ x < pb + b.size))
      ∨ (a.kind = .barArrive ∧ b.kind ∈ [.store, .atomic, .reduction, .sts, .spill])) →
    exec (.accessFinish a.id err) s = .next s

/-- R174, R316, R355, R358: an access to a unit that is not ready, or a write to a frame that holds a chunk of a sealed region, traps with cause
0x12 or 0x0F naming its fibre; so does a load or an atomic that meets an uncorrectable error, with cause 0x12 and an entry of the log. Its
record goes, and neither memory nor a register changes. -/
def Sys2Proof.Stmt.FailedAccessTraps : Prop :=
  (∀ (s : State) (a : Access) (g : Group) (pa : Nat) (err : Bool),
    Finishing s a g → a.kind ∈ [.load, .store, .atomic, .reduction] → a.pa = some pa → moveOf s pa = none → underHandover s pa = false →
    behindHeld s a = false → (itemReadyAt s pa = false ∨ (a.kind ≠ .load ∧ inSealedFrame s pa = true)) →
    ∃ t h, exec (.accessFinish a.id err) s = .next t ∧ getGroup t a.gid = some h
      ∧ TrapJoined s t h a.gid (if itemReadyAt s pa then 0x0F else 0x12) [a.lane] a.addr
      ∧ t.accesses = s.accesses.filter (fun b => b.id != a.id) ∧ h = { g with fibres := h.fibres, stopping := true }
      ∧ (∀ k, k ≠ a.gid → getGroup t k = getGroup s k)
      ∧ t = { s with groups := t.groups, accesses := t.accesses, kiosks := t.kiosks, errLog := t.errLog, errOvf := t.errOvf })
  ∧ ∀ (s : State) (a : Access) (g : Group) (pa : Nat) (err : Bool), Finishing s a g → a.pa = some pa →
    let fails (P : State → Prop) : Prop := ∃ t h, exec (.accessFinish a.id err) s = .next t ∧ getGroup t a.gid = some h
      ∧ TrapJoined s t h a.gid 0x12 [a.lane] a.addr ∧ t.accesses = s.accesses.filter (fun b => b.id != a.id)
      ∧ h = { g with fibres := h.fibres, stopping := true } ∧ (∀ k, k ≠ a.gid → getGroup t k = getGroup s k) ∧ P t
    (a.kind ∈ [.load, .atomic] → Served s a pa a.size → (a.kind = .load ∨ inSealedFrame s pa = false) →
      (err = true ∨ damagedAt s pa a.size = true) → fails fun t =>
        t.errLog = (logError s g.ctx 3 (BitVec.ofNat 64 pa)).errLog
        ∧ t = { s with groups := t.groups, accesses := t.accesses, kiosks := t.kiosks, errLog := t.errLog, errOvf := t.errOvf
                       stale := t.stale, lines := t.lines, counters := t.counters, fresh := t.fresh })
    ∧ ∀ space key byte, localSource s a pa = some (space, key, byte) → (err = true ∨ damagedIn s space key a.size = true) → fails fun t =>
        t.errLog = (logError s g.ctx 3 a.addr).errLog
        ∧ t = { s with groups := t.groups, accesses := t.accesses, kiosks := t.kiosks, errLog := t.errLog, errOvf := t.errOvf }

/-- R202 to R206: a barrier word takes its place on a valid object (bar.init on any 16 bytes): the object becomes what the rules say, the
word's D receives the phase or the outcome, and every other scratchpad byte is as before; bar.test writes nothing. An arrival of more than
is pending also traps with cause 0x11. -/
def Sys2Proof.Stmt.BarrierWordFinishes : Prop :=
  ∀ (s : State) (a : Access) (g : Group) (b : Nat) (o : BarObj) (ws : List Word),
    Finishing s a g → a.pa = some b → a.data.toNat < 2 ^ 12 ∨ (a.kind = .barExpect ∧ a.data.toNat < 2 ^ 40) →
    let key := 393216 * (a.gid / 64) + b
    let k := spotOf s (whoOf g a) 1 key 16 true true
    let found := objectAt s (fibreAgent g a.lane) (a.gid / 64) b k
    (a.kind = .barInit ∨ (found.valid = 0xB7A35C1D ∧ damagedIn s 1 key 16 = false)) →
    barrierEffect a.kind a.data.toNat found = some (o, ws) →
    Finishes a s fun t h =>
      let overrun := a.kind = .barArrive ∧ found.pending < a.data.toNat
      (a.kind = .barTest → t.spad = s.spad)
      ∧ (a.kind ≠ .barTest → ∃ byte, barOfBits (valueOf 16 byte) = o ∧ WroteSpad s t key 16 k byte)
      ∧ (∀ k < ws.length, tblGet 0 h.regs (cellKey g a.lane (a.row + k)) = (ws[k]?).getD 0)
      ∧ (∀ key, (∀ k < ws.length, key ≠ cellKey g a.lane (a.row + k)) → tblGet 0 h.regs key = tblGet 0 g.regs key)
      ∧ t.accesses = s.accesses.filter (fun x => x.id != a.id) ∧ Took s t a g k true
      ∧ (overrun → TrapJoined s t h a.gid 0x11 [a.lane] a.addr) ∧ (¬ overrun → t.kiosks = s.kiosks ∧ h.stopping = g.stopping)
      ∧ h = { g with regs := h.regs, fibres := h.fibres, stopping := h.stopping }
      ∧ t = { s with groups := t.groups, accesses := t.accesses, spad := t.spad, kiosks := t.kiosks, launches := t.launches
                     past := t.past, events := t.events, backs := t.backs }

/-- R206: a waiting fibre whose object shows another phase than its own, or is not valid, goes on when it is woken, and one whose bound has
passed when its bound expires: D receives the outcome word of the object as it finds it after every event so far, and the access is gone.
While neither holds, both steps leave the state as it is. -/
def Sys2Proof.Stmt.BarrierWaitEnds : Prop :=
  ∀ (s : State) (gid lane : Nat) (a : Access) (g : Group) (b bound : Nat),
    waitOf s gid lane = some a → a.kind = .barWait bound → a.gid = gid → a.lane = lane → a.pa = some b →
    (∀ x ∈ s.accesses, mustPrecede a x = false) → getGroup s gid = some g → g.liveLanes ≠ [] →
    damagedIn s 1 (393216 * (gid / 64) + b) 16 = false →
    let o := barAt s (coreOf gid) b
    let found := objectAt s (fibreAgent g lane) (gid / 64) b 0
    let ends (t : State) : Prop := ∃ h, getGroup t gid = some h ∧ Delivered s t a g h [waitOutcome found a.data.toNat]
      ∧ t = { s with groups := t.groups, accesses := t.accesses, past := t.past, events := t.events }
    ((∀ e ∈ s.past, e.sent = true) → found = o)
    ∧ (if o.valid ≠ 0xB7A35C1D ∨ o.phase ≠ a.data.toNat then ∃ t, exec (.barWaitWake gid lane) s = .next t ∧ ends t
      else exec (.barWaitWake gid lane) s = .next s)
    ∧ (if bound ≤ s.clock then ∃ t, exec (.barWaitBoundExpiry gid lane) s = .next t ∧ ends t
      else exec (.barWaitBoundExpiry gid lane) s = .next s)

namespace Sys2Proof.Stmt
open Sys2Proof.Machine

/-! ### Fences, cache maintenance, scale tiles (R187, R195, R196, R241) -/

/-- The lines that a maintenance word names: K from each participant's address, in lane order (R196). -/
def namedLines (iss : Issue) (g : Group) (sa k : Nat) : List Dword :=
  ((iss.participants g).map fun l => (List.range k).map fun j =>
    ((iss.sourceGroup g).pair l sa &&& ~~~(127 : Dword)) + BitVec.ofNat 64 (128 * j)).flatten

/-- A maintenance word: its address register, K, whether it may drop dirty bytes, and whether the caches keep the line. -/
def maintenance (iss : Issue) : Instr → Option (Nat × Nat × Bool × Bool)
  | .cln _ sa k => some (sa.toNat, extK iss k, false, true)
  | .inv _ sa k => some (sa.toNat, extK iss k, true, false)
  | .clninv _ sa k => some (sa.toNat, extK iss k, false, false)
  | _ => none

/-- The byte at a place in memory when its line loses its dirty bytes: what its tier held (R254). -/
def tierByte (s : State) (x : Nat) : Byte :=
  match s.stale.find? fun e => e.1 == x with
  | some e => e.2.1
  | none => tblGet 0 s.mem x

/-- The 64 accesses of a scale tile at ea (R241), made from lane 0 for the lanes that are written, and one mark for the slot of each passing
fibre (R181). -/
def tileAccesses (iss : Issue) (word : Nat) (g : Group) (o : MM) (ea : Dword) (place : Option Nat) (passing : List Nat) : List Access :=
  let written := passing.filter fun l => decide (l < 32)
  ((List.range 64).map fun k =>
    { bare iss word 0 o.ss.toNat (.scaleLoad o.sz.toNat) (ea + BitVec.ofNat 64 (8 * k)) with
      slot := none, aop := o.ss.toNat, pa := place.map fun p => p + 8 * k, size := 8, sz := 8 * k, hint := o.rh.toNat, least := if o.rh = 3 then 2 else 0
      row := (g.fibre 0).wb + o.d.toNat, nregs := 4, lanes := (List.range 32).map fun l => (g.fibre l).wb + o.d.toNat
      extra := written })
  ++ (written ++ passing.filter fun l => decide (32 ≤ l)).map fun l => bare iss word l o.ss.toNat .result ea

/-! ### Engine words (R197 to R199, R210, R215, R216, R248) -/

/-- A word whose result comes on slot 7 (R199): the access of a lane. -/
def engineWord (s : State) (iss : Issue) (g : Group) : Instr → Option (Nat → Access)
  | .cstat o => some fun l => { at' o l .cstat 0 with data := (0 : Word) ++ g.reg l o.sa.toNat }
  | .place o n t => some fun l =>
      let nb := (iss.ext.map fun x => 16 * x.toNat).getD 0 + n.toNat
      { at' o l (.place t.toNat) (g.pair l o.sa.toNat) with data := if nb = 0 then 0 else BitVec.ofNat 64 (s.clock + 256 * nb) }
  | .pin o => some fun l => at' o l (.pin true) (g.pair l o.sa.toNat)
  | .unpin o => some fun l => at' o l (.pin false) (g.pair l o.sa.toNat)
  | .commit o ls => some fun l =>
      let w := (g.reg l o.sa.toNat).toNat
      { at' o l .commit 0 with
        aop := ls.toNat, data := BitVec.ofNat 64 (w % 64), nregs := Nat.min (w / 256 % 128) (64 - w % 64) }
  | _ => none
where
  at' (o : EF) (l : Nat) (kind : AccessKind) (ea : Dword) : Access :=
    { bare iss s.nextId l 7 kind ea with row := (g.fibre l).wb + o.d.toNat, nregs := 1 }

/-- commit names a slot that its group holds (R215); R76 has checked its registers. -/
def commitFits (g : Group) : Instr → Prop
  | .commit _ ls => ls.toNat < g.lslots
  | _ => True

/-- What a resident sequence gives for a handle and a position (R247, R248): the address, none where a check fails. -/
def resolved (s : State) (f : Nat) (q : StreetSeq) (h : Dword) (p : Nat) : Option Dword :=
  let e := q.entry.getD 0 0
  let tokens := 16 * 2 ^ (e.toNat / 2 ^ 61 % 4)
  let blk := p / tokens
  let base := q.blocks.getD blk 0
  if e.getLsbD 63 ∧ e.toNat / 2 ^ 52 % 2 ^ 9 = 0 ∧ e.toNat / 2 ^ 20 % 2 ^ 12 = 0 ∧ (q.entry.getD 2 0).toNat / 2 ^ 32 = 0
      ∧ q.entry.getD 3 0 = 0 ∧ h.toNat / 2 ^ 20 % 256 = e.toNat / 2 ^ 32 % 256 ∧ h.toNat / 2 ^ 20 % 256 = ctxKey s f
      ∧ h.toNat / 2 ^ 28 % 2 ^ 12 = e.toNat / 2 ^ 40 % 2 ^ 12 ∧ blk < h.toNat % 2 ^ 20 ∧ blk < e.toNat % 2 ^ 20 ∧ base ≠ 0 then
    some (base + BitVec.ofNat 64 (p % tokens * ((q.entry.getD 2 0).toNat % 2 ^ 32)))
  else none

/-- The status of place and the request that it queues (R197): none when nothing is queued. -/
def placeStatus (s : State) (g : Group) (a : Access) (tier : Nat) : Nat × Option MigRequest :=
  if migEnabled s g.ctx = false then (3, none)
  else
    match pageOf s g.pasid a.addr.toNat with
    | none => (2, none)
    | some p =>
      if p.leaf.getLsbD (57 + tier) = false ∨ pagePinned s p = true then (1, none)
      else if tierOf s p.frame = tier ∧ pageMoving s g.pasid p = false then (4, none)
      else if 1024 ≤ s.migQueue.length then (3, none)
      else (0, some { id := s.nextId, ctx := g.ctx, pasid := g.pasid, va := p.base, target := tier
                      needBy := if a.data = 0 then none else some a.data.toNat, place := true, die := a.gid / 8192
                      core := a.gid / 64, guest := guestOf s g.pasid })

end Sys2Proof.Stmt

/-- R187, R157: a prefetch and nop complete, and the gang goes on: nop changes nothing else, and a prefetch only what the caches hold, with
the accessed bits of the leaves that it translates through (R298). R195, R263: fence makes the participants' next M word wait for every
access recorded before it that its scope orders, and fence.sys also sends on what they wrote to host memory and shared pages. -/
def Sys2Proof.Stmt.QuietWordsComplete : Prop :=
  ∀ (i : Instr) (s : State) (iss : Issue) (g : Group), Issuing s iss g → Accepted i iss g →
    (∀ c, i = .nop c → Leads i s iss fun t h => OnlyGroup iss.gid s t ∧ h = { g with fibres := h.fibres } ∧ Advanced iss g h)
    ∧ (∀ c bp rh we ws l2, i = .pf c bp rh we ws l2 → Leads i s iss fun t h =>
        h = { g with fibres := h.fibres } ∧ Advanced iss g h ∧ (∀ k, k ≠ iss.gid → getGroup t k = getGroup s k)
        ∧ (∀ p, walkedByte p (readByte s p) (readByte t p))
        ∧ t = { s with groups := t.groups, tlb := t.tlb, mem := t.mem, fresh := t.fresh, past := t.past, events := t.events
                       lines := t.lines, stale := t.stale, errLog := t.errLog, errOvf := t.errOvf })
    ∧ ∀ c sc, i = .fence c sc → Leads i s iss fun t h =>
        let sends (e : Event) : Bool :=
          sc == 3 && ((iss.participants g).any fun l => e.agent == fibreAgent g l) && decide (e.word < s.nextId)
        h = { g with fibres := h.fibres } ∧ (∀ k, k ≠ iss.gid → getGroup t k = getGroup s k)
        ∧ t = { s with groups := t.groups, past := s.past.map fun e => { e with sent := e.sent || sends e } }
        ∧ ∀ l, h.fibre l = if l ∈ iss.lanes ∧ l < g.fibres.length then
              { g.fibre l with pc := iss.next, progress := 0
                               fence := if l ∈ iss.participants g then some (sc.toNat, s.nextId) else (g.fibre l).fence }
            else g.fibre l

/-- R196, R254: cln and clninv leave every byte of memory as it is, and inv gives the bytes of a dirty line of non-coherent memory their
tier's values back; afterwards no named line is dirty, inv and clninv leave no named line in a cache, and no other line has changed. Every
line's translation is in the core's cache here, on 2^57 bytes of addresses; no register changes. -/
def Obligations.CacheMaintenanceEffect : Prop :=
  ∀ (i : Instr) (s : State) (iss : Issue) (g : Group) (sa k : Nat) (drops keeps : Bool) (entry : Dword → TlbEntry) (nc : Nat → Bool),
    Issuing s iss g → Accepted i iss g → maintenance iss i = some (sa, k, drops, keeps) → s.stale.Pairwise (fun a b => a.1 < b.1) →
    (∀ va ∈ namedLines iss g sa k, va.toNat < 2 ^ 57 ∧ tlbHit s (coreOf iss.gid) g.pasid va.toNat = some (entry va)) →
    let line (va : Dword) : Nat := locate s ((entry va).pa + (va.toNat - (entry va).base)) / 128
    (∀ va ∈ namedLines iss g sa k, (entry va).pte.getLsbD 52 = nc (line va)) →
    Leads i s iss fun t h =>
      (∀ x, tblGet 0 t.mem x =
        if drops ∧ nc (x / 128) ∧ (∃ va ∈ namedLines iss g sa k, line va = x / 128) then tierByte s x else tblGet 0 s.mem x)
      ∧ (∀ e, e ∈ t.stale ↔ e ∈ s.stale ∧ ∀ va ∈ namedLines iss g sa k, line va ≠ e.1 / 128)
      ∧ (∀ l, l ∈ t.lines ↔ l ∈ s.lines ∧ (keeps = true ∨ ∀ va ∈ namedLines iss g sa k, line va ≠ l.line))
      ∧ s.past <:+ t.past
      ∧ Advanced iss g h ∧ h = { g with fibres := h.fibres } ∧ (∀ n, n ≠ iss.gid → getGroup t n = getGroup s n)
      ∧ t = { s with groups := t.groups, mem := t.mem, memTag := t.memTag, stale := t.stale, lines := t.lines, past := t.past
                     events := t.events }

/-- R107, R241: a scale load by a gang of lanes 0 to 31, with its tile aligned and, in scratchpad or weight store, within the group's rows or
a region that it may read, completes its issue: 64 accesses of 8 bytes are recorded, and a mark for each passing fibre; those of global memory
are translated. A misaligned tile traps with cause 0x06, and without the lanes the word traps with cause 0x05 or 0x04. -/
def Sys2Proof.Stmt.ScaleLoadRecords : Prop :=
  ∀ (o : MM) (s : State) (iss : Issue) (g : Group), Issuing s iss g → Accepted (.scld o) iss g →
    let src := iss.sourceGroup g
    let ea := memAddress src iss 0 o.bp
    let all := 32 ≤ src.width ∧ ∀ l < 32, l ∈ iss.lanes ∧ (src.fibre l).live = true
    (∀ b, all → ea.toNat % 512 = 0 → iss.participants g ≠ [] →
      (o.sz = 1 ∧ spadByte s iss.gid src (ea.extractLsb' 0 32) 512 = some b
        ∨ o.sz = 2 ∧ ea.toNat < 2 ^ 31 ∧ b = ea.toNat
          ∧ weightReadable s src.part (dieOf iss.gid) src.regions.getLsbD b 512 = true) →
      Leads (.scld o) s iss fun t h =>
        let made := numbered s g (s.nextId + 1) (tileAccesses iss s.nextId src o ea (some b) (iss.participants g))
        Advanced iss g h ∧ h = { g with fibres := h.fibres } ∧ (∀ k, k ≠ iss.gid → getGroup t k = getGroup s k)
        ∧ t = { s with groups := t.groups, accesses := s.accesses ++ made, nextId := s.nextId + 1 + made.length })
    ∧ (all → o.sz = 0 → ea.toNat % 512 = 0 → iss.participants g ≠ [] → Leads (.scld o) s iss fun t h =>
        t.accesses.map asked = (s.accesses ++ (tileAccesses iss s.nextId src o ea none (iss.participants g)).map (issuedNow s g)).map asked
        ∧ ((t.accesses.drop s.accesses.length).map fun a => a.id).Pairwise (· < ·)
        ∧ Advanced iss g h ∧ h = { g with fibres := h.fibres, stopping := h.stopping } ∧ (∀ k, k ≠ iss.gid → getGroup t k = getGroup s k)
        ∧ (∀ p, walkedByte p (readByte s p) (readByte t p))
        ∧ t = { s with groups := t.groups, accesses := t.accesses, nextId := t.nextId, replay := t.replay, kiosks := t.kiosks
                       tlb := t.tlb, ats := t.ats, mem := t.mem, fresh := t.fresh, past := t.past, events := t.events
                       errLog := t.errLog, errOvf := t.errOvf })
    ∧ (all → ea.toNat % 512 ≠ 0 → iss.participants g ≠ [] → Leads (.scld o) s iss fun t h =>
        TrapJoined s t h iss.gid 0x06 iss.lanes ((wordOf (.scld o)).setWidth 64)
        ∧ h = { g with stopping := true } ∧ t = { s with groups := t.groups, kiosks := t.kiosks })
    ∧ (all → iss.participants g = [] → exec (.scld o) s = .next (advance s iss))
    ∧ (¬ all → Leads (.scld o) s iss fun t h =>
        TrapJoined s t h iss.gid (if src.width < 32 then 0x05 else 0x04) iss.lanes ((wordOf (.scld o)).setWidth 64)
        ∧ h = { g with stopping := true } ∧ t = { s with groups := t.groups, kiosks := t.kiosks })

/-- R106, R241: an access of a scale tile brings two of the tile's words, from the scratchpad, the weight store or global memory that it is of:
the word at byte o of the tile goes to register o / 128 of the four of lane (o mod 128) / 4, when that lane is written. -/
def Sys2Proof.Stmt.ScaleWordsFinish : Prop :=
  ∀ (s : State) (a : Access) (g : Group) (b : Nat),
    Finishing s a g → a.pa = some b → a.size = 8 → a.sz % 8 = 0 → a.sz < 512 → a.lanes.length = 32 →
    let delivers (t : State) (h : Group) (byte : Nat → Byte) : Prop :=
      let word (j : Nat) : Word := BitVec.ofNat 32 (valueOf 4 fun i => byte (4 * j + i))
      let lane (j : Nat) : Nat := (a.sz + 4 * j) % 128 / 4
      let cell (j : Nat) : Nat := cellKey g (lane j) (a.lanes.getD (lane j) 0 + (a.sz + 4 * j) / 128)
      (∀ j < 2, lane j ∈ a.extra → tblGet 0 h.regs (cell j) = word j)
      ∧ (∀ key, (∀ j < 2, lane j ∈ a.extra → key ≠ cell j) → tblGet 0 h.regs key = tblGet 0 g.regs key)
      ∧ t.accesses = s.accesses.filter (fun x => x.id != a.id) ∧ h = { g with regs := h.regs, fibres := h.fibres }
      ∧ (∀ k, k ≠ a.gid → getGroup t k = getGroup s k)
    (∀ space key byte, (a.kind = .scaleLoad 1 ∧ space = 1 ∧ key = 393216 * (a.gid / 64) + b ∧ (byte = fun i => tblGet 0 s.spad (key + i))
        ∨ a.kind = .scaleLoad 2 ∧ readyBit s (8 + a.gid / 8192) = true ∧ space = 2 ∧ key = 2 ^ 31 * (a.gid / 8192) + b
          ∧ (byte = fun i => tblGet 0 s.weights (key + i))) →
      damagedIn s space key 8 = false →
      let k := spotOf s (whoOf g a) space key 8 true false
      Finishes a s fun t h =>
        delivers t h (fun i => (seenCell (fibreAgent g a.lane) space (key + i) k (byte i, none) s.past).1) ∧ Took s t a g k true
        ∧ t = { s with groups := t.groups, accesses := t.accesses, past := t.past, events := t.events, backs := t.backs })
    ∧ (a.kind = .scaleLoad 0 → Served s a b 8 →
      let k := spotOf s (globalWho g a b) 0 b 8 true false
      Readable s g a b 8 k → Finishes a s fun t h =>
        delivers t h (fun i => (foundAt s (fibreAgent g a.lane) b k i).1) ∧ Took s t a g k true
        ∧ t = { s with groups := t.groups, accesses := t.accesses, stale := t.stale, lines := t.lines, counters := t.counters
                       fresh := t.fresh, past := t.past, events := t.events, backs := t.backs })

/-- R197 to R199, R215, R216: cstat, place, pin, unpin and commit complete their issue: each participant's request is recorded on slot 7,
the gang goes on, and nothing else changes. -/
def Sys2Proof.Stmt.EngineWordRecords : Prop :=
  ∀ (i : Instr) (s : State) (iss : Issue) (g : Group) (want : Nat → Access),
    Issuing s iss g → Accepted i iss g → engineWord s iss (iss.sourceGroup g) i = some want → commitFits g i →
    Leads i s iss fun t h =>
      let made := numbered s g (s.nextId + 1) ((iss.participants g).map want)
      Advanced iss g h ∧ h = { g with fibres := h.fibres } ∧ (∀ k, k ≠ iss.gid → getGroup t k = getGroup s k)
      ∧ t = { s with groups := t.groups, accesses := s.accesses ++ made, nextId := s.nextId + 1 + made.length }

/-- R198, R199, R216: a request on slot 7 takes its place: cstat delivers the state of its ticket's record, 3 for a ticket that names
none; pin and unpin add 1 to or take 1 from the count of the page's frame and deliver 0, or deliver 1 or 2; place delivers its status and
queues its request. The address's translation is in the core's cache. -/
def Sys2Proof.Stmt.EngineRequestsFinish : Prop :=
  ∀ (s : State) (a : Access) (g : Group), Finishing s a g →
    let hit := a.addr.toNat < 2 ^ 57 ∧ ∃ e, tlbHit s (coreOf a.gid) g.pasid a.addr.toNat = some e
    (a.kind = .cstat → Finishes a s fun t h =>
      let w := a.data.toNat % 2 ^ 32
      let k := tblGet ({} : Ticket) s.tickets (a.gid / 64 * 2048 + w % 2048)
      Delivered s t a g h [if 2 ^ 31 ≤ w ∨ k.gen ≠ w / 2048 % 2 ^ 20 then 3
        else BitVec.ofNat 32 (if k.state = 2 then 2 + 4 * k.cause else k.state)]
      ∧ t = { s with groups := t.groups, accesses := t.accesses })
    ∧ (∀ up, a.kind = .pin up → hit → Finishes a s fun t h =>
      let (status, pins) : Word × Tbl Nat := match pageOf s g.pasid a.addr.toNat with
        | none => (2, s.pins)
        | some p =>
          let n := tblGet 0 s.pins (p.frame / 2 ^ 18)
          if n = (if up then 65535 else 0) ∨ (up = true ∧ 65535 ≤ n) then (1, s.pins)
          else (0, tblSet 0 s.pins (p.frame / 2 ^ 18) (if up then n + 1 else n - 1))
      Delivered s t a g h [status] ∧ t = { s with groups := t.groups, accesses := t.accesses, pins := pins })
    ∧ (∀ tier, a.kind = .place tier → hit → (∀ x ∈ s.migQueue, ∀ p, pageOf s g.pasid a.addr.toNat = some p → x.pasid = g.pasid → x.va ≠ p.base) →
      Finishes a s fun t h =>
        let r := placeStatus s g a tier
        Delivered s t a g h [BitVec.ofNat 32 r.1]
        ∧ t = { s with groups := t.groups, accesses := t.accesses, migQueue := s.migQueue ++ r.2.toList
                       nextId := if r.2.isSome then s.nextId + 1 else s.nextId })

/-- R215, R219: COMMIT_WRITEBACK, once every earlier transfer into the slot has completed, writes the registers of every fibre of the word
from column lane mod 32 of the slot's rows, and the slot holds no uncommitted contents any more. -/
def Sys2Proof.Stmt.CommitWrites : Prop :=
  ∀ (s : State) (a : Access) (g : Group), (s.accesses.find? fun x => x.id == a.id && x.kind == .commit) = some a →
    getGroup s a.gid = some g → g.liveLanes ≠ [] → commitReady s a = true →
    let mine := s.accesses.filter fun b => b.word == a.word && b.kind == .commit
    (∀ b ∈ mine, b.gid = a.gid ∧ b.aop = a.aop ∧ b.lane < 64 ∧ b.row + b.nregs ≤ g.rows) → mine.Pairwise (fun b c => b.lane ≠ c.lane) →
    ∃ t h, exec (.commitWriteback a.id) s = .next t ∧ getGroup t a.gid = some h
      ∧ (∀ b ∈ mine, ∀ k < b.nregs, tblGet 0 h.regs (cellKey g b.lane (b.row + k))
          = tblGet 0 g.land (a.aop * 2048 + (b.data.toNat + k) * 32 + b.lane % 32))
      ∧ (∀ key, (∀ b ∈ mine, ∀ k < b.nregs, key ≠ cellKey g b.lane (b.row + k)) → tblGet 0 h.regs key = tblGet 0 g.regs key)
      ∧ h = { g with regs := h.regs, fibres := h.fibres, uncommitted := g.uncommitted.filter fun x => x != a.aop }
      ∧ t.accesses = s.accesses.filter (fun x => !mine.any fun b => b.id == x.id)
      ∧ (∀ k, k ≠ a.gid → getGroup t k = getGroup s k) ∧ t = { s with groups := t.groups, accesses := t.accesses }

/-- R247, R248: kvres through resident sequences: where every participant's handle and position pass the checks, each is answered on slot 7
with its block's address plus the position's offset; where some fail, one precise handle trap names exactly those, and neither the gang nor
any other state moves but the directory's order of use. -/
def Sys2Proof.Stmt.KvresResolves : Prop :=
  ∀ (o : EF) (s : State) (iss : Issue) (g : Group) (q : Nat → StreetSeq),
    Issuing s iss g → Accepted (.kvres o) iss g → iss.lanes.Pairwise (· < ·) → (∀ l ∈ iss.lanes, l < 64) →
    let src := iss.sourceGroup g
    let h (l : Nat) : Dword := src.pair l o.sa.toNat
    let res (l : Nat) := resolved s g.ctx (q l) (h l) (src.reg l (o.sa.toNat + 2)).toNat
    src.ctx = g.ctx →
    (∀ l ∈ iss.participants g, (h l).toNat / 2 ^ 40 < tableEntries s g.ctx
      ∧ findSeq s (dieOf iss.gid) g.ctx ((h l).toNat / 2 ^ 40) = some (q l)) →
    (∀ addr : Nat → Dword, (∀ l ∈ iss.participants g, res l = some (addr l)) →
      Leads (.kvres o) s iss fun t k =>
        let made := numbered s g (s.nextId + 1) ((iss.participants g).map fun l =>
          { bare iss s.nextId l 7 .result (h l) with row := (src.fibre l).wb + o.d.toNat, nregs := 2, aop := 11, data := addr l })
        Advanced iss g k ∧ k = { g with fibres := k.fibres } ∧ (∀ n, n ≠ iss.gid → getGroup t n = getGroup s n)
        ∧ t = { s with groups := t.groups, accesses := s.accesses ++ made, nextId := s.nextId + 1 + made.length, street := t.street })
    ∧ ∀ low rest, (iss.participants g).filter (fun l => (res l).isNone) = low :: rest →
      Leads (.kvres o) s iss fun t k =>
        TrapJoined s t k iss.gid 0x0B (low :: rest) ((wordOf (.kvres o)).setWidth 64) ∧ k = { g with stopping := true }
        ∧ (∀ n, n ≠ iss.gid → getGroup t n = getGroup s n) ∧ t = { s with groups := t.groups, kiosks := t.kiosks, street := t.street }

/-- R199: a result on slot 7 is written when its access finishes: one register, or a pair. -/
def Sys2Proof.Stmt.ResultFinishes : Prop :=
  ∀ (s : State) (a : Access) (g : Group), Finishing s a g → a.kind = .result → a.nregs ≤ 2 →
    Finishes a s fun t h =>
      Delivered s t a g h ([a.data.extractLsb' 0 32, a.data.extractLsb' 32 32].take a.nregs)
      ∧ t = { s with groups := t.groups, accesses := t.accesses }

/-- R200, R210, R51: a kick of one participant, whose record is read as one event and meets no uncorrectable error. A record that no row of the code table fails is
accepted: a ticket of a free place comes to D with bit 31 clear, the record joins those in flight with its range entries, the launch
makes progress, and the gang goes on. One that a row fails brings the code 0x8000_0000 plus the row's number and changes nothing else. -/
def Sys2Proof.Stmt.KickAccepts : Prop :=
  ∀ (o : EF) (s s0 : State) (iss : Issue) (g : Group) (l : Nat) (r : List Dword),
    Issuing s iss g → Accepted (.kick o) iss g → iss.participants g = [l] →
    let src := iss.sourceGroup g
    readRecord s iss.gid src l (src.reg l o.sa.toNat) = some (r, s0) →
    (∀ b, spadByte s iss.gid src (src.reg l o.sa.toNat) 64 = some b → damagedIn s 1 (393216 * coreOf iss.gid + b) 64 = false) →
    s0 = { s with past := s0.past, events := s.events + 1, backs := s.backs.drop 1 }
    ∧ (∀ n, kickCode s0 iss.gid src r = some n → Leads (.kick o) s iss fun t h =>
        Advanced iss g h ∧ h = { g with fibres := h.fibres }
        ∧ t = { s0 with groups := t.groups, nextId := s.nextId + 2
                        accesses := s.accesses ++ [issuedNow s g { bare iss s.nextId l 7 .result 0 with
                          id := s.nextId + 1, row := (src.fibre l).wb + o.d.toNat, nregs := 1, data := BitVec.ofNat 64 (2 ^ 31 + n) }] })
    ∧ (kickCode s0 iss.gid src r = none → recSk r ≠ 4 → recDk r ≠ 4 → src.ctx = g.ctx → src.part = g.part → src.pasid = g.pasid →
        Leads (.kick o) s iss fun t h => ∃ place < 2048, ∃ gen < 2 ^ 20,
          (∀ c ∈ s.copies, c.hub = false → c.core = coreOf iss.gid → c.place ≠ place)
          ∧ Advanced iss g h ∧ h = { g with fibres := h.fibres }
          ∧ getTicket t (coreOf iss.gid) place = { gen := gen, state := 1, cause := 0, owner := some iss.gid }
          ∧ (∃ c, t.copies = s.copies ++ [c] ∧ c.id = s.nextId ∧ c.record = r ∧ c.gid = iss.gid ∧ c.place = place ∧ c.begun = false
              ∧ c.ctx = g.ctx ∧ c.part = g.part ∧ c.pasid = g.pasid ∧ c.hub = false ∧ c.own = some s.events)
          ∧ t.ranges = s.ranges ++ (rangeNeeds s iss.gid src r).map (fun n =>
              { core := n.1, isWrite := n.2.1, first := n.2.2.1, last := n.2.2.2, owner := s.nextId })
          ∧ t.accesses = s.accesses ++ [issuedNow s g { bare iss (s.nextId + 1) l 7 .result 0 with
              id := s.nextId + 2, row := (src.fibre l).wb + o.d.toNat, nregs := 1, data := BitVec.ofNat 64 (gen * 2048 + place) }]
          ∧ t.launches = s.launches.map (fun x => if x.uid = g.uid then { x with lastProgress := s.clock } else x)
          ∧ t = { s0 with groups := t.groups, nextId := s.nextId + 3, accesses := t.accesses, copies := t.copies, ranges := t.ranges
                          tickets := t.tickets, fresh := s.fresh + 1, launches := t.launches })

/-- R211, R212, R214, R216: a record in flight that names no guard and no handle begins with its row count, once no other copy owns a line
that it will write; having no byte to move, it retires at once: its ticket's state becomes 0 and its range entries are released. -/
def Sys2Proof.Stmt.CopyBegins : Prop :=
  ∀ (s : State) (c : Copy) (g : Group), findCopy s c.id = some c → c.begun = false → copyStopped s c = false → c.hub = false →
    c.counted = false → (c.dw 0).getLsbD 41 = false → c.sk ≠ 4 → c.dk ≠ 4 → getGroup s c.gid = some g → g.liveLanes ≠ [] →
    let rows := (c.dw 4).toNat % 2 ^ 32
    let ready : Copy := { c with rows := rows, srcRows := [], dstRows := [] }
    c.srcRows = [] → c.dstRows = [] → unasked s ready = none →
    ∃ t, exec (.copyBegin c.id) s = .next t ∧
      if rows = 0 ∨ c.len = 0 then
        t.copies = s.copies.filter (fun x => x.id != c.id)
        ∧ t.ranges = s.ranges.filter (fun e => !(e.owner == c.owner))
        ∧ getTicket t c.core c.place =
            { getTicket s c.core c.place with state := 0, cause := 0, last := (getTicket t c.core c.place).last }
        ∧ (∃ h, getGroup t c.gid = some h ∧ h = { g with engines := h.engines, fibres := h.fibres })
        ∧ (∀ k, k ≠ c.gid → getGroup t k = getGroup s k)
        ∧ t = { s with groups := t.groups, copies := t.copies, ranges := t.ranges, tickets := t.tickets }
      else if ∃ va ∈ ready.lineAddrs, ∃ n, lineOf s ready va = some n ∧ ∃ d ∈ s.copies, d.id ≠ c.id ∧ ownsLine s d n = true then
        t = { s with copies := s.copies.map fun x => if x.id == c.id then ready else x }
      else t = { s with past := t.past, events := s.events + 1, backs := s.backs.drop 1
                        copies := s.copies.map fun x =>
                          if x.id == c.id then { ready with begun := true, own := some s.events, owned := ownedPages s ready } else x }

namespace Sys2Proof.Stmt
open Sys2Proof.Machine

/-- Where a word of a copy is read or written: a space (R176), the byte there, the key of memory, and whether only a fence sends a write
on. -/
structure WordPlace where
  space : Nat
  at_ : Nat
  key : Nat := 0
  far : Bool := false
  deriving DecidableEq, Repr

/-- A translated address of a copy, and the state that its translation leaves. -/
def globalPlace (s : State) (c : Copy) (addr : Dword) (write : Bool) : Option (WordPlace × State) :=
  match copyTranslate s c addr write with
  | (.ok p, s1) => some ({ space := 0, at_ := p.pa, key := p.key, far := p.far }, s1)
  | _ => none

/-- The place of the source word in progress (R208, R209): of the group's own rows, of another rank's, of the weight store, or of global memory,
by an address or through a handle. -/
def sourcePlace (s : State) (c : Copy) (g : Group) : Option (WordPlace × State) :=
  let addr := c.srcRow c.row + BitVec.ofNat 64 c.byte
  match c.sk with
  | 1 => (spadByte s c.gid g (addr.extractLsb' 0 32) 4).map fun b => ({ space := 1, at_ := 393216 * c.core + b }, s)
  | 2 => (c.source.bind (rankHold s g)).bind fun h => (holdByte h (addr.extractLsb' 0 32) 4).map fun b =>
      ({ space := 1, at_ := 393216 * h.core + b }, s)
  | 3 =>
    if addr.toNat < 2 ^ 31 ∧ readyBit s (8 + dieOf c.gid) = true ∧ underRefresh s (dieOf c.gid) addr.toNat = false
        ∧ weightReadable s c.part (dieOf c.gid) g.regions.getLsbD addr.toNat 4 = true then
      some ({ space := 2, at_ := 2 ^ 31 * dieOf c.gid + addr.toNat }, s)
    else none
  | _ => globalPlace s c addr false

/-- The place of the destination word in progress: of the group's own rows, of a receiver's, of an open region of the weight store, or of global
memory. -/
def targetPlace (s : State) (c : Copy) (g : Group) : Option (WordPlace × State) :=
  let addr := c.dstRow c.row + BitVec.ofNat 64 c.byte
  match c.dk with
  | 1 => (spadByte s c.gid g (addr.extractLsb' 0 32) 4).map fun b => ({ space := 1, at_ := 393216 * c.core + b }, s)
  | 2 => (c.receivers[c.recv]?.bind (rankHold s g)).bind fun h => (holdByte h (addr.extractLsb' 0 32) 4).map fun b =>
      ({ space := 1, at_ := 393216 * h.core + b }, s)
  | 3 =>
    match regionAt s c.part (dieOf c.gid) addr.toNat with
    | some (_, x) =>
      if addr.toNat < 2 ^ 31 ∧ readyBit s (8 + dieOf c.gid) = true ∧ underRefresh s (dieOf c.gid) addr.toNat = false ∧ x.isSealed = false then
        some ({ space := 2, at_ := 2 ^ 31 * dieOf c.gid + addr.toNat }, dropHashes s c.part (dieOf c.gid) addr.toNat 4)
      else none
    | none => none
  | 5 => none
  | _ => globalPlace s c addr true

/-- What an agent finds in byte i from a place, k events before the newest (R261). -/
def foundIn (s : State) (who : Agent) (p : WordPlace) (k i : Nat) : Cell :=
  match p.space with
  | 0 => foundAt s who p.at_ k i
  | 1 => seenCell who 1 (p.at_ + i) k (tblGet 0 s.spad (p.at_ + i), none) s.past
  | _ => seenCell who 2 (p.at_ + i) k (tblGet 0 s.weights (p.at_ + i), none) s.past

/-- THE SOURCE WORD of a copy: the bytes, the event of its read, and the state then: as kept from a read before (R213), or read now, with no
uncorrectable error (R358) and under no other key than the copy's (R325). -/
def WordRead (s : State) (c : Copy) (g : Group) (byte : Nat → Byte) (event : Nat) (s1 : State) : Prop :=
  (∃ bs, c.data = some (bs, event) ∧ bs.length = 4 ∧ (∀ i < 4, byte i = bs.getD i 0) ∧ s1 = s)
  ∨ (c.data = none ∧ ∃ p s0, sourcePlace s c g = some (p, s0) ∧ (p.space = 0 ∨ damagedIn s0 p.space p.at_ 4 = false)
      ∧ (p.space = 0 → p.at_ + 4 ≤ 2 ^ 60 ∨ 2 ^ 60 ≤ p.at_) ∧ (∀ i < 4, moveOf s0 (p.at_ + i) = none)
      ∧ let who := copyWho s0 c [] p.far
        let k := spotOf s0 who p.space p.at_ 4 true false
        (p.space = 0 → p.at_ < 2 ^ 60 → ∀ i < 4, (foundIn s0 (.copy c.id) p k i).2 = none
          ∨ (foundIn s0 (.copy c.id) p k i).2 = some (keyNow s0 p.key))
        ∧ event = s0.events ∧ s1 = (readSpace s0 who p.space p.key p.at_ 4).2 ∧ ∀ i < 4, byte i = (foundIn s0 (.copy c.id) p k i).1)

/-- A word has been written at a place, k events before the newest: no other byte of any space has changed. -/
def WroteWord (s t : State) (p : WordPlace) (k : Nat) (byte : Nat → Byte) : Prop :=
  match p.space with
  | 0 => WroteAt s t p.key p.at_ 4 k byte ∧ t.spad = s.spad ∧ t.weights = s.weights
  | 1 => WroteSpad s t p.at_ 4 k byte ∧ t.mem = s.mem ∧ t.memTag = s.memTag ∧ t.hostMem = s.hostMem ∧ t.stale = s.stale ∧ t.weights = s.weights
  | _ => (∀ i < 4, tblGet 0 t.weights (p.at_ + i) = if rewritten s 2 (p.at_ + i) k then tblGet 0 s.weights (p.at_ + i) else byte i)
      ∧ (∀ x, x < p.at_ ∨ p.at_ + 4 ≤ x → tblGet 0 t.weights x = tblGet 0 s.weights x)
      ∧ t.mem = s.mem ∧ t.memTag = s.memTag ∧ t.hostMem = s.hostMem ∧ t.stale = s.stale ∧ t.spad = s.spad

/-- A copy after a word: the next byte of the row, the next receiver, or the next row, with the hash so far and the events of a receiver's
words (R211, R214, R315). -/
def nextWord (c : Copy) (byte : Nat → Byte) (made : List Nat) : Copy :=
  let c1 := { c with data := none, hashed := if c.hs then c.hashed ++ (List.range 4).map byte else c.hashed
                     placed := if c.arrv then c.placed ++ made.map (fun e => (c.recv, e)) else c.placed }
  if c.byte + 4 < c.len then { c1 with byte := c.byte + 4 }
  else if c.recv + 1 < c.receivers.length then { c1 with byte := 0, recv := c.recv + 1 }
  else { c1 with byte := 0, recv := 0, row := c.row + 1 }

/-- A copy moves a word: it is in flight and stands still for nothing, its group is resident, and its source word is byte, read by an event
that leaves s1. -/
def Moving (s : State) (c : Copy) (g : Group) (byte : Nat → Byte) (event : Nat) (s1 : State) : Prop :=
  findCopy s c.id = some c ∧ (∀ x ∈ s.copies, x.id = c.id → x = c) ∧ c.begun = true ∧ copyStopped s c = false ∧ c.hub = false
    ∧ c.core = coreOf c.gid ∧ getGroup s c.gid = some g ∧ WordRead s c g byte event s1

end Sys2Proof.Stmt

/-- R211 to R214, R216, R219, R270, R315: one word of a copy, of any source: its four bytes are written as they are read, to scratchpad rows,
an open region of the weight store or global memory, or into the landing slot, and the copy goes on to the next word; a word that counts takes 4
from the count of its receiver's object; the last word of the record retires it, its ticket's state 0 and its range entries released. Every
other byte is as before. -/
def Sys2Proof.Stmt.CopyMovesWord : Prop :=
  ∀ (s s1 : State) (c : Copy) (g : Group) (byte : Nat → Byte) (event : Nat), Moving s c g byte event s1 →
    let moves (P : State → Prop) : Prop := ∃ t, exec (.copyWordTransfer c.id false) s = .next t ∧ P t
    (∀ p s2, c.lastOfReceiver = false → c.bc = false → targetPlace s1 c g = some (p, s2) → moveOf s2 p.at_ = none →
      (p.space = 0 → (p.at_ + 4 ≤ 2 ^ 60 ∨ 2 ^ 60 ≤ p.at_) ∧ ∀ i < 4, moveOf s2 (p.at_ + i) = none) →
      moves fun t =>
        findCopy t c.id = some (nextWord c byte ((List.range (s2.events + 1 - s1.events)).map fun k => s1.events + k))
        ∧ WroteWord s2 t p (spotOf s2 (copyWho s2 c [event] p.far) p.space p.at_ 4 false true) byte
        ∧ t = { s2 with mem := t.mem, memTag := t.memTag, hostMem := t.hostMem, stale := t.stale, spad := t.spad, weights := t.weights
                        copies := t.copies, past := t.past, events := s2.events + 1, backs := s2.backs.drop 1 })
    ∧ (c.lastOfReceiver = false → c.bc = false → c.dk = 5 → commitBefore s1 c.gid ((c.dw 2).toNat % 4) c.id = false → moves fun t =>
        ∃ h, getGroup t c.gid = some h ∧ findCopy t c.id = some (nextWord c byte [])
          ∧ (∀ key, tblGet 0 h.land key = if key = (c.dw 2).toNat % 4 * 2048 + ((c.dw 2).toNat / 256 % 64 + c.row) * 32 + c.byte / 4
              then BitVec.ofNat 32 (valueOf 4 byte) else tblGet 0 g.land key)
          ∧ h = { g with land := h.land, uncommitted := h.uncommitted } ∧ (c.dw 2).toNat % 4 ∈ h.uncommitted
          ∧ (∀ k, k ≠ c.gid → getGroup t k = getGroup s k) ∧ t = { s1 with groups := t.groups, copies := t.copies })
    ∧ (∀ core b, c.lastOfReceiver = false → c.bc = true → c.dk = 1 → objectBad s1 c = false → receiverObject s1 c = some (core, b) →
        ∀ p s2, targetPlace s1 c g = some (p, s2) →
        let s3 := writeSpace s2 (copyWho s2 c [event] false) 1 0 p.at_ ((List.range 4).map byte)
        let key := 393216 * core + b
        let k := spotOf s3 (copyWho s3 c [s2.events] false) 1 key 16 true true
        let o := objectAt s3 (.copy c.id) core b k
        WroteWord s2 s3 p (spotOf s2 (copyWho s2 c [event] false) 1 p.at_ 4 false true) byte
        ∧ (o.valid = 0xB7A35C1D → moves fun t =>
          findCopy t c.id = some (nextWord c byte [s2.events, s2.events + 1])
          ∧ (∃ bits, barOfBits (valueOf 16 bits) = turned { o with bytes := (o.bytes + 2 ^ 40 - 4) % 2 ^ 40 } ∧ WroteSpad s3 t key 16 k bits)
          ∧ t = { s3 with spad := t.spad, copies := t.copies, past := t.past, events := s3.events + 1, backs := s3.backs.drop 1 }))
    ∧ (∀ p s2, c.lastWord = true → c.bc = false → c.arrv = false → c.hs = false → c.dk = 1 → g.liveLanes ≠ [] →
        targetPlace s1 c g = some (p, s2) → moves fun t =>
          t.copies = s1.copies.filter (fun x => x.id != c.id) ∧ t.ranges = s.ranges.filter (fun e => !(e.owner == c.owner))
          ∧ getTicket t c.core c.place =
              { getTicket s c.core c.place with state := 0, cause := 0, last := (getTicket t c.core c.place).last }
          ∧ WroteSpad s1 t p.at_ 4 (spotOf s1 (copyWho s1 c [event] false) 1 p.at_ 4 false true) byte
          ∧ (∃ h, getGroup t c.gid = some h ∧ h = { g with engines := h.engines, fibres := h.fibres })
          ∧ (∀ k, k ≠ c.gid → getGroup t k = getGroup s k)
          ∧ t = { s1 with groups := t.groups, spad := t.spad, copies := t.copies, ranges := t.ranges, tickets := t.tickets, past := t.past
                          events := s1.events + 1, backs := s1.backs.drop 1 })

namespace Sys2Proof.Stmt
open Sys2Proof.Machine

/-! ### The matrix unit and the mask unit -/

/-- A group word may issue (R28, R219): the group has at least 32 lanes, all of them live and in the gang, and it holds the slot. -/
def WholeGroup (iss : Issue) (g : Group) (ls : Nat) : Prop :=
  32 ≤ g.width ∧ (∀ l < g.width, l ∈ iss.lanes ∧ (g.fibre l).live = true) ∧ ls < g.lslots

/-- The matrix words: what is queued, the operands, and the entry that the word itself names. -/
def matrixWordOf : Instr → Option (XKind × XF × Nat)
  | .mma o p => some (.mma p.toNat false, o, 0)
  | .mmaSp o p => some (.mma p.toNat true, o, 0)
  | .smm o ty e => some (.smm ty.toNat false, o, e.toNat)
  | .smmSp o ty e => some (.smm ty.toNat true, o, e.toNat)
  | _ => none

/-- The group words, with the landing slot that each names. -/
def slotOf : Instr → Option Nat
  | .mma o _ => some o.ls.toNat
  | .mmaSp o _ => some o.ls.toNat
  | .smm o _ _ => some o.ls.toNat
  | .smmSp o _ _ => some o.ls.toNat
  | .mzero _ _ ls => some ls.toNat
  | .mfillF32 _ _ ls _ => some ls.toNat
  | .mfillI32 _ _ ls _ => some ls.toNat
  | .mtosp o => some o.ls.toNat
  | _ => none

/-- Every check of R224 passes for a matrix word of kind k. -/
def MatrixFits (s : State) (iss : Issue) (src : Group) (k : XKind) (o : XF) (ent : Nat) : Prop :=
  let m := src.reg 0 (o.sa.toNat + 3)
  WholeGroup iss src o.ls.toNat ∧ matrixIllegal k m o.sa.toNat o.sb.toNat = false ∧ sideFails src k m o.sb.toNat = []
    ∧ operatorBad s iss.gid src.ctx k (entryOfWord k m ent) = false ∧ metaFails k m (sideBlock src k m o.sb.toNat) = none

/-- n bytes of a core's scratchpad. -/
def spadBytesAt (s : State) (core byte n : Nat) : List Byte := (List.range n).map fun i => tblGet 0 s.spad (393216 * core + byte + i)

/-- The bytes of a run as an agent reads it word by word (R227, R269): each 4-byte word of scratchpad (space 1) or weight store (space 2) from
a key holds what the word held at one place in time order; what it holds now, when the agenda puts every read after every event so far. -/
def WordsSeen (s : State) (who : Agent) (space key n : Nat) (bs : List Byte) : Prop :=
  let now := if space = 1 then s.spad else s.weights
  bs.length = n
  ∧ (∀ w < n / 4, ∃ k, ∀ i < 4,
      bs.getD (4 * w + i) 0 = (seenCell who space (key + 4 * w + i) k (tblGet 0 now (key + 4 * w + i), none) s.past).1)
  ∧ (s.backs = [] → (∀ e ∈ s.past, e.sent = true) → bs = (List.range n).map fun i => tblGet 0 now (key + i))

/-- A latch in use keeps what it holds. -/
def LatchesKept (before after : List MatLatch) : Prop :=
  ∀ (n : Nat) (l : MatLatch), before[n]? = some l → l.users ≠ [] →
    ∃ m, after[n]? = some m ∧ m.data = l.data ∧ m.gather = l.gather ∧ ∀ u ∈ l.users, u ∈ m.users

/-- The words of a queue but for the latches that they have: those come to them as latches become free (R225). -/
def bareQueue (l : List XOp) : List XOp := l.map fun y => { y with latchA := none, latchB := none }

/-- The bytes of word x's slice r or column c lie at a byte of the core, aligned (R220, R222). -/
def RunAt (s : State) (x : XOp) (g : Group) (addr : Word) (n align byte : Nat) : Prop :=
  spadByte s x.gid g addr n = some byte ∧ addr.toNat % align = 0

/-- The run of column c: in scratchpad, or, under bit 21 of the control word, in a region of the weight store that the group may read (R220,
R227); its space and the key of its first byte. -/
def ColumnAt (s : State) (x : XOp) (g : Group) (c n : Nat) (at_ : Nat × Nat) : Prop :=
  if x.mctl.getLsbD 21 then
    let a := x.bAddr.toNat + c * n
    x.bAddr.toNat % n = 0 ∧ a < 2 ^ 31 ∧ weightReadable s g.part (dieOf x.gid) g.regions.getLsbD a n = true
      ∧ at_ = (2, 2 ^ 31 * dieOf x.gid + a)
  else ∃ b, RunAt s x g (x.bAddr + BitVec.ofNat 32 (c * n)) n n b ∧ at_ = (1, 393216 * coreOf x.gid + b)

/-- The values that mfill and mzero give (R236, R240): the identity of the reduction of entry e, as FP32 or as INT32. -/
def fillValue (s : State) (gid ctx : Nat) : Instr → Option Word
  | .mzero .. => some 0
  | .mfillF32 _ _ _ e => if e.toNat < 8 then fixed.1 e.toNat else loaded e.toNat false
  | .mfillI32 _ _ _ e => if e.toNat < 8 then fixed.2 e.toNat else loaded e.toNat true
  | _ => none
where
  fixed : (Nat → Option Word) × (Nat → Option Word) :=
    (fun e => [some 0, some 0x7F800000, some 0xFF800000, some 0xFF800000, some 0xFF800000, some 0x7F800000, none, none].getD e none,
     fun e => [some 0, some 0x7FFFFFFF, some 0x80000000, some 0x80000000, some 0x80000000, some 0x7FFFFFFF, some 0, some 0].getD e none)
  loaded (e : Nat) (int : Bool) : Option Word :=
    (loadedEntry s gid ctx e).bind fun d =>
      let ty := d.ctl.toNat / 256 % 4
      if decide (ty = 1 ∨ ty = 3) = int then some d.ident else none

/-- Key k belongs to the key set of query q through the words of a program (R243): a 01 word adds its interval, a 10 word keeps what lies
in it, and 00 ends the program. -/
def inKeySet (g : Group) (q k : Nat) : List Word → Bool → Bool
  | [], b => b
  | w :: ws, b =>
    let i := maskInterval g q w
    let inside := decide (i.1 ≤ k) && decide (k < i.2)
    match w.toNat / 2 ^ 30 with
    | 0 => b
    | 1 => inKeySet g q k ws (b || inside)
    | _ => inKeySet g q k ws (b && inside)

/-- The class of the 64 by 64 tile at q0 and k0 (R245): 2 when every key is allowed, 0 when none is. -/
def tileClass (g : Group) (q0 k0 : Nat) : Nat :=
  let all := (List.range 64).all fun i => (List.range 64).all fun j => inKeySet g (q0 + i) (k0 + j) g.maskWords false
  let some' := (List.range 64).any fun i => (List.range 64).any fun j => inKeySet g (q0 + i) (k0 + j) g.maskWords false
  if all then 2 else if some' then 1 else 0

/-- A latch that no history feeds took a value (R61): the others are as they were. -/
def LatchTook (before after : Fibre) (k : Nat) (v : Word) : Prop :=
  after.latch[k]? = some v ∧ after.latchValid.getLsbD k = true
  ∧ ∀ j < 8, j ≠ k → (after.latch[j]?).getD 0 = (before.latch[j]?).getD 0 ∧ after.latchValid.getLsbD j = before.latchValid.getLsbD j

/-- The fibres of a gang after a word whose result goes to latch k as well (R61): at the next chain, latch k holding the result; upd says
what else the word does to them. -/
def Latched (iss : Issue) (g h : Group) (k : Nat) (upd : Nat → Fibre → Fibre) (res : Nat → Word) : Prop :=
  (∀ l ∈ iss.lanes, l < g.fibres.length →
    h.fibre l = { upd l (g.fibre l) with
                  pc := iss.next, progress := 0, latch := (h.fibre l).latch, latchValid := (h.fibre l).latchValid }
    ∧ LatchTook (g.fibre l) (h.fibre l) k (res l))
  ∧ ∀ l, l ∉ iss.lanes → h.fibre l = g.fibre l

end Sys2Proof.Stmt

/-- R220, R221, R224, R225: a matrix word that passes its checks completes its issue: it joins its quarter's queue with the addresses of
its 64 rows, its columns' address, its control word and its entry as lanes 0 to 31 held them, and the gang goes on. No register, no landing
cell and no memory changes. -/
def Sys2Proof.Stmt.MatrixWordIssues : Prop :=
  ∀ (i : Instr) (k : XKind) (o : XF) (ent : Nat) (s : State) (iss : Issue) (g : Group),
    Issuing s iss g → Accepted i iss g → matrixWordOf i = some (k, o, ent) → MatrixFits s iss (iss.sourceGroup g) k o ent →
    Leads i s iss fun t h =>
      let src := iss.sourceGroup g
      let m := src.reg 0 (o.sa.toNat + 3)
      let q := getQuarter s (quarterOf iss.gid)
      (∃ x : XOp, bareQueue (getQuarter t (quarterOf iss.gid)).queue = bareQueue (q.queue ++ [x]) ∧ x.id = s.nextId ∧ x.gid = iss.gid ∧ x.kind = k
        ∧ x.ls = o.ls.toNat ∧ x.bAddr = src.reg 0 (o.sa.toNat + 2) ∧ x.mctl = m ∧ x.gathered = false ∧ x.begun = false
        ∧ x.entryNo = (match k with
          | .mma _ _ => m.toNat / 2 ^ 28
          | _ => ent)
        ∧ (∀ r < 64, x.aAddr[r]? = some (if r < 32 then src.reg r o.sa.toNat else src.reg (r - 32) (o.sa.toNat + 1)))
        ∧ x.side = (List.range (sideRegs k m)).map fun r => (List.range 32).map fun l => src.reg l (o.sb.toNat + r))
      ∧ LatchesKept q.latchA (getQuarter t (quarterOf iss.gid)).latchA ∧ LatchesKept q.latchB (getQuarter t (quarterOf iss.gid)).latchB
      ∧ (getQuarter t (quarterOf iss.gid)).lastMatrix = some s.clock
      ∧ Advanced iss g h ∧ h = { g with fibres := h.fibres, lastA := h.lastA } ∧ (∀ n, n ≠ iss.gid → getGroup t n = getGroup s n)
      ∧ (∀ n, n ≠ quarterOf iss.gid → getQuarter t n = getQuarter s n)
      ∧ (∃ more, t.ranges = s.ranges ++ more ∧ ∀ e ∈ more, e.owner = s.nextId ∧ e.isWrite = false ∧ e.core = coreOf iss.gid)
      ∧ t = { s with groups := t.groups, quarters := t.quarters, ranges := t.ranges, nextId := s.nextId + 1 }

/-- R28, R170, R219, R224: the checks of a group word in their order: a group of fewer than 32 lanes traps with cause 0x05, a gang that is
not the whole group with all of it live with 0x04, a slot that the group does not hold with 0x05; the trap is precise. -/
def Sys2Proof.Stmt.GroupWordShapeTraps : Prop :=
  ∀ (i : Instr) (ls : Nat) (s : State) (iss : Issue) (g : Group), Issuing s iss g → Accepted i iss g → slotOf i = some ls →
    let src := iss.sourceGroup g
    ¬ WholeGroup iss src ls →
    Leads i s iss fun t h =>
      TrapJoined s t h iss.gid (if 32 ≤ src.width ∧ ¬ ∀ l < src.width, l ∈ iss.lanes ∧ (src.fibre l).live = true then 0x04 else 0x05)
        iss.lanes ((wordOf i).setWidth 64)
      ∧ h = { g with stopping := true } ∧ (∀ n, n ≠ iss.gid → getGroup t n = getGroup s n)
      ∧ t = { s with groups := t.groups, kiosks := t.kiosks }

/-- R220, R222, R225 to R227: the gather of a quarter's next matrix word, none of whose runs meets an uncorrectable error, completes: its A
latch holds the bytes of every row that is not padded, or is left alone where the word keeps a gathered A operand, its B latch those of every
column, from scratchpad or from the weight store, read word by word, and its read entries are released. -/
def Sys2Proof.Stmt.GatherCompletes : Prop :=
  ∀ (s : State) (qn la lb : Nat) (x : XOp) (g : Group) (rowAt : Nat → Nat) (colAt : Nat → Nat × Nat),
    let q := getQuarter s qn
    let na := sliceBytes x.kind x.mctl
    let nb := columnBytes x.kind x.mctl
    let addr (r : Nat) : Word := x.aAddr.getD r 0
    pendingGather q = some x → getGroup s x.gid = some g → gatherWaits s qn x g = false →
    x.latchA = some la → x.latchB = some lb → la < q.latchA.length → lb < q.latchB.length →
    (x.keep = none → ∀ r < 64, addr r ≠ 0xFFFFFFFF → RunAt s x g (addr r) na (Nat.min na 128) (rowAt r)
      ∧ damagedIn s 1 (393216 * coreOf x.gid + rowAt r) na = false) →
    (∀ c < 32, c < mctlCols x.mctl → ColumnAt s x g c nb (colAt c) ∧ damagedIn s (colAt c).1 (colAt c).2 nb = false) →
    ∃ t, exec (.matrixGatherComplete qn false) s = .next t
      ∧ (getQuarter t qn).queue = q.queue.map (fun y =>
          if y.id == x.id then { y with gathered := true } else y)
      ∧ (x.keep = none → ∀ r < 64, if addr r = 0xFFFFFFFF then latchRun (getQuarter t qn).latchA (some la) r = none
          else ∃ bs, latchRun (getQuarter t qn).latchA (some la) r = some bs
            ∧ WordsSeen s (.matrix x.id) 1 (393216 * coreOf x.gid + rowAt r) na bs)
      ∧ (x.keep ≠ none → (getQuarter t qn).latchA = q.latchA)
      ∧ (∀ c < 32, if mctlCols x.mctl ≤ c then latchRun (getQuarter t qn).latchB (some lb) c = none
          else ∃ bs, latchRun (getQuarter t qn).latchB (some lb) c = some bs
            ∧ WordsSeen s (.matrix x.id) (colAt c).1 (colAt c).2 nb bs)
      ∧ (∀ n, n ≠ la → (getQuarter t qn).latchA[n]? = q.latchA[n]?) ∧ (∀ n, n ≠ lb → (getQuarter t qn).latchB[n]? = q.latchB[n]?)
      ∧ t.ranges = s.ranges.filter (fun e => e.owner != x.id)
      ∧ (∀ n, n ≠ qn → getQuarter t n = getQuarter s n)
      ∧ t = { s with quarters := t.quarters, ranges := t.ranges, past := t.past, events := t.events, backs := t.backs }

/-- R225, R230: the word at the head of a quarter's queue, gathered, begins; once it has begun it ends: every cell of its slot holds the
cell's result, the slot is uncommitted, and the word has left the queue. No register, no other slot and no memory changes. -/
def Sys2Proof.Stmt.MatrixExecutes : Prop :=
  ∀ (s : State) (qn : Nat) (x : XOp) (rest : List XOp), (getQuarter s qn).queue = x :: rest → x.kind.isMatrix = true →
    (x.gathered = true → x.begun = false → commitBefore s x.gid x.ls x.id = false →
      ∃ t, exec (.matrixExecute qn) s = .next t
        ∧ getQuarter t qn = { getQuarter s qn with queue := (getQuarter s qn).queue.map fun y =>
            if y.id == x.id then { y with begun := true } else y }
        ∧ (∀ n, n ≠ qn → getQuarter t n = getQuarter s n) ∧ t = { s with quarters := t.quarters })
    ∧ ∀ g, x.begun = true → getGroup s x.gid = some g → g.liveLanes ≠ [] →
      ∃ t h, exec (.matrixExecuteComplete qn) s = .next t ∧ getGroup t x.gid = some h
        ∧ (∀ m < 64, ∀ n < 32, h.landCell x.ls m n = matrixCell (getQuarter s qn) x (g.landCell x.ls m n) m n)
        ∧ (∀ key, (key < x.ls * 2048 ∨ x.ls * 2048 + 2048 ≤ key) → tblGet 0 h.land key = tblGet 0 g.land key)
        ∧ x.ls ∈ h.uncommitted
        ∧ bareQueue (getQuarter t qn).queue = bareQueue ((getQuarter s qn).queue.filter fun y => y.id != x.id)
        ∧ h = { g with land := h.land, uncommitted := h.uncommitted, fibres := h.fibres, engines := h.engines }
        ∧ t.ranges = s.ranges.filter (fun e => e.owner != x.id) ∧ (∀ n, n ≠ x.gid → getGroup t n = getGroup s n)
        ∧ (∀ n, n ≠ qn → getQuarter t n = getQuarter s n)
        ∧ t = { s with groups := t.groups, quarters := t.quarters, ranges := t.ranges }

/-- R236, R240: mzero and mfill of a whole group queue a fill of their slot with 0 or with the identity of the entry's reduction; mfill
with an entry that gives none traps with cause 0x08. The fill executes once earlier transfers of its slot are done: every cell of the slot
receives the value, and the slot is uncommitted. -/
def Sys2Proof.Stmt.LandingFills : Prop :=
  (∀ (i : Instr) (ls : Nat) (s : State) (iss : Issue) (g : Group), Issuing s iss g → Accepted i iss g → slotOf i = some ls →
    let src := iss.sourceGroup g
    (∃ c ec l, i = .mzero c ec l) ∨ (∃ c ec l e, i = .mfillF32 c ec l e ∨ i = .mfillI32 c ec l e) → WholeGroup iss src ls →
    Leads i s iss fun t h =>
      match fillValue s iss.gid src.ctx i with
      | some v =>
        (getQuarter t (quarterOf iss.gid)) = { getQuarter s (quarterOf iss.gid) with
          queue := (getQuarter s (quarterOf iss.gid)).queue ++ [{ id := s.nextId, gid := iss.gid, kind := .fill v, ls := ls }] }
        ∧ Advanced iss g h ∧ h = { g with fibres := h.fibres } ∧ (∀ n, n ≠ quarterOf iss.gid → getQuarter t n = getQuarter s n)
        ∧ t = { s with groups := t.groups, quarters := t.quarters, nextId := s.nextId + 1 }
      | none => TrapJoined s t h iss.gid 0x08 iss.lanes ((wordOf i).setWidth 64) ∧ h = { g with stopping := true })
  ∧ ∀ (s : State) (qn : Nat) (x : XOp) (rest : List XOp) (g : Group) (v : Word), (getQuarter s qn).queue = x :: rest →
    x.kind = .fill v → getGroup s x.gid = some g → g.liveLanes ≠ [] → slotQuiet s x = true →
    ∃ t h, exec (.landingExecute qn) s = .next t ∧ getGroup t x.gid = some h
      ∧ (∀ m < 64, ∀ n < 32, h.landCell x.ls m n = v)
      ∧ (∀ key, (key < x.ls * 2048 ∨ x.ls * 2048 + 2048 ≤ key) → tblGet 0 h.land key = tblGet 0 g.land key)
      ∧ x.ls ∈ h.uncommitted
      ∧ bareQueue (getQuarter t qn).queue = bareQueue ((getQuarter s qn).queue.filter fun y => y.id != x.id)
      ∧ h = { g with land := h.land, uncommitted := h.uncommitted, fibres := h.fibres, engines := h.engines }

/-- R200, R209, R240: mtosp of a whole group whose rows lie at byte b of its core queues the write of COUNT rows from FIRST, with a write
entry for them; each row's step then writes the 32 cells of one landing row, little-endian, to its 128 bytes, after the rows that its unit has
written before. With no row to write, the
word leaves the queue at its turn. -/
def Sys2Proof.Stmt.MtospWritesRows : Prop :=
  (∀ (o : XF) (s : State) (iss : Issue) (g : Group) (b : Nat), Issuing s iss g → Accepted (.mtosp o) iss g →
    let src := iss.sourceGroup g
    let w := (src.reg 0 o.sb.toNat).toNat
    let count := Nat.min (w / 256 % 128) (64 - w % 64)
    WholeGroup iss src o.ls.toNat → (src.reg 0 o.sa.toNat).toNat % 128 = 0 →
    (0 < count → spadByte s iss.gid src (src.reg 0 o.sa.toNat) (128 * count) = some b
      ∧ (src.reg 0 o.sa.toNat).toNat % 2 ^ 19 + 128 * count ≤ 2 ^ 19) →
    Leads (.mtosp o) s iss fun t h =>
      (∃ at', (0 < count → at' = b) ∧ getQuarter t (quarterOf iss.gid) = { getQuarter s (quarterOf iss.gid) with
        queue := (getQuarter s (quarterOf iss.gid)).queue
          ++ [{ id := s.nextId, gid := iss.gid, kind := .mtosp at' (w % 64) count, ls := o.ls.toNat }] })
      ∧ t.ranges = s.ranges ++ (if count = 0 then [] else
          [{ core := coreOf iss.gid, isWrite := true, first := b / 128, last := b / 128 + count - 1, owner := s.nextId }])
      ∧ Advanced iss g h ∧ h = { g with fibres := h.fibres }
      ∧ t = { s with groups := t.groups, quarters := t.quarters, ranges := t.ranges, nextId := s.nextId + 1 })
  ∧ ∀ (s : State) (qn : Nat) (x : XOp) (rest : List XOp) (g : Group) (b first count : Nat), (getQuarter s qn).queue = x :: rest →
    x.kind = .mtosp b first count → getGroup s x.gid = some g → g.liveLanes ≠ [] → slotQuiet s x = true →
    let row := 393216 * (x.gid / 64) + b + 128 * x.rowsDone
    ∃ t h, exec (.mtospRowWrite qn) s = .next t ∧ getGroup t x.gid = some h
      ∧ (if count = 0 then t.spad = s.spad
        else WroteSpad s t row 128
          (spotOf s { agent := .matrix x.id, after := (getQuarter s qn).wrote.toList, issued := s.clock } 1 row 128 false true)
          (fun i => BitVec.ofNat 8 ((g.landCell x.ls (first + x.rowsDone) (i / 4)).toNat / 256 ^ (i % 4))))
      ∧ (if count ≤ x.rowsDone + 1 then x.ls ∉ h.uncommitted
            ∧ bareQueue (getQuarter t qn).queue = bareQueue ((getQuarter s qn).queue.filter fun y => y.id != x.id)
        else (getQuarter t qn).queue = (getQuarter s qn).queue.map fun y =>
            if y.id == x.id then { y with rowsDone := x.rowsDone + 1, begun := true } else y)
      ∧ (0 < count → (getQuarter t qn).wrote = some s.events)
      ∧ h = { g with fibres := h.fibres, uncommitted := h.uncommitted, engines := h.engines }
      ∧ t = { s with groups := t.groups, quarters := t.quarters, ranges := t.ranges, spad := t.spad, past := t.past, events := t.events
                     backs := t.backs }

/-- R238, R239: opld reads a 16-byte descriptor word by word at the address of its lowest lane; one that keeps the rules is loaded when the load is done:
the entry holds it, and no other entry changes. One that does not traps with cause 0x08, an address that fails with 0x0E, and a read that meets an
uncorrectable error with 0x12. -/
def Sys2Proof.Stmt.OperatorTableLoads : Prop :=
  (∀ (c : Bool) (ec : BitVec 2) (sa : BitVec 7) (n : BitVec 3) (s : State) (iss : Issue) (g : Group), Issuing s iss g →
    Accepted (.opld c ec sa n) iss g →
    let src := iss.sourceGroup g
    let addr := src.reg (iss.lanes.headD 0) sa.toNat
    (∀ b, addr.toNat % 16 = 0 → spadByte s iss.gid src addr 16 = some b →
      ∃ bs, WordsSeen s (fibreAgent src (iss.lanes.headD 0)) 1 (393216 * (iss.gid / 64) + b) 16 bs ∧
      let w (k : Nat) : Word := BitVec.ofNat 32 (valueOf 4 fun i => bs.getD (4 * k + i) 0)
      let d : OpDesc := { ctl := w 0, ident := w 1, pad := w 2, tail := w 3 }
      Leads (.opld c ec sa n) s iss fun t h =>
        if damagedIn s 1 (393216 * (iss.gid / 64) + b) 16 then
          TrapJoined s t h iss.gid 0x12 iss.lanes (addr.setWidth 64) ∧ t.tableLoads = s.tableLoads ∧ Advanced iss g h
        else if descOk d then
          t.tableLoads = s.tableLoads ++ [{ id := s.nextId, gid := iss.gid, lanes := iss.lanes, entry := some (8 + n.toNat), desc := d }]
          ∧ (∀ l ∈ iss.lanes, l < g.fibres.length →
              h.fibre l = { g.fibre l with pc := iss.next, progress := 0, pipeHold := some s.nextId })
          ∧ (∀ l, l ∉ iss.lanes → h.fibre l = g.fibre l) ∧ h = { g with fibres := h.fibres }
          ∧ t = { s with groups := t.groups, tableLoads := t.tableLoads, nextId := s.nextId + 1, past := t.past
                         events := s.events + 4, backs := s.backs.drop 4 }
        else TrapJoined s t h iss.gid 0x08 iss.lanes ((wordOf (.opld c ec sa n)).setWidth 64) ∧ h = { g with stopping := true })
    ∧ (addr.toNat % 16 ≠ 0 ∨ spadByte s iss.gid src addr 16 = none → Leads (.opld c ec sa n) s iss fun t h =>
        TrapJoined s t h iss.gid 0x0E iss.lanes (addr.setWidth 64) ∧ t.tableLoads = s.tableLoads ∧ Advanced iss g h))
  ∧ ∀ (s : State) (x : TableLoad) (n : Nat) (g : Group), s.tableLoads.find? (fun y => y.id == x.id) = some x → x.entry = some n → n < 16 →
    getGroup s x.gid = some g → g.liveLanes ≠ [] → g.ctx < 129 →
    ∃ t h, exec (.opldLoadDone x.id) s = .next t ∧ getGroup t x.gid = some h
      ∧ loadedEntry t x.gid g.ctx n = some x.desc
      ∧ (∀ gid ctx m, m < 16 → ctx < 129 → (coreOf gid, ctx, m) ≠ (coreOf x.gid, g.ctx, n) → loadedEntry t gid ctx m = loadedEntry s gid ctx m)
      ∧ t.tableLoads = s.tableLoads.filter (fun y => y.id != x.id)
      ∧ (∀ l ∈ x.lanes, (h.fibre l).pipeHold ≠ some x.id) ∧ h = { g with fibres := h.fibres }
      ∧ t = { s with groups := t.groups, tableLoads := t.tableLoads, opTab := t.opTab }

/-- R242, R244: mpld of an image that keeps the rules starts a load of its program for the gang, and when the load is done the group has
the program's words, its two constants and its boundaries. An image that breaks them traps with cause 0x09, an address that fails with
0x0E, and a read that meets an uncorrectable error with 0x12. -/
def Sys2Proof.Stmt.MaskProgramLoads : Prop :=
  (∀ (c : Bool) (ec : BitVec 2) (sa : BitVec 7) (s : State) (iss : Issue) (g : Group), Issuing s iss g → Accepted (.mpld c ec sa) iss g →
    let src := iss.sourceGroup g
    let image := readMask s iss.gid (iss.lanes.headD 0) src (src.reg (iss.lanes.headD 0) sa.toNat)
    image.2 = { s with past := image.2.past, events := image.2.events, backs := image.2.backs }
    ∧ Leads (.mpld c ec sa) s iss fun t h =>
      match image.1 with
      | .ok ws c0 c1 bs =>
        t.tableLoads = s.tableLoads ++ [{ id := s.nextId, gid := iss.gid, lanes := iss.lanes, maskWords := ws, c0 := c0, c1 := c1, bounds := bs }]
        ∧ (∀ l ∈ iss.lanes, l < g.fibres.length →
            h.fibre l = { g.fibre l with pc := iss.next, progress := 0, pipeHold := some s.nextId })
        ∧ (∀ l, l ∉ iss.lanes → h.fibre l = g.fibre l) ∧ h = { g with fibres := h.fibres }
        ∧ t = { image.2 with groups := t.groups, tableLoads := t.tableLoads, nextId := s.nextId + 1 }
      | .bad => TrapJoined s t h iss.gid 0x09 iss.lanes ((wordOf (.mpld c ec sa)).setWidth 64) ∧ h = { g with stopping := true }
      | .fault a => TrapJoined s t h iss.gid 0x0E iss.lanes (a.setWidth 64) ∧ t.tableLoads = s.tableLoads ∧ Advanced iss g h
      | .broken a => TrapJoined s t h iss.gid 0x12 iss.lanes (a.setWidth 64) ∧ t.tableLoads = s.tableLoads ∧ Advanced iss g h)
  ∧ ∀ (s : State) (x : TableLoad) (g : Group), s.tableLoads.find? (fun y => y.id == x.id) = some x → x.entry = none →
    getGroup s x.gid = some g → g.liveLanes ≠ [] →
    ∃ t h, exec (.mpldLoadDone x.id) s = .next t ∧ getGroup t x.gid = some h
      ∧ h = { g with fibres := h.fibres, maskWords := x.maskWords, c0 := x.c0, c1 := x.c1, bounds := x.bounds, docn := x.bounds.length }
      ∧ (∀ l ∈ x.lanes, (h.fibre l).pipeHold ≠ some x.id) ∧ t.tableLoads = s.tableLoads.filter (fun y => y.id != x.id)
      ∧ (∀ n, n ≠ x.gid → getGroup t n = getGroup s n) ∧ t = { s with groups := t.groups, tableLoads := t.tableLoads }

/-- R242, R243, R245, R246: mclass and mbits, where no tile traps, complete: SB receives the tile's class, or a pair whose bit j says
whether key k0 + j is allowed for query q0; l6 receives the first register; SKIPCNT counts the empty tiles, and the core's counters of
the partition each class. -/
def Sys2Proof.Stmt.MaskWordEffect : Prop :=
  ∀ (c : Bool) (ec : BitVec 2) (sa sb : BitVec 7) (s : State) (iss : Issue) (g : Group), Issuing s iss g →
    let src := iss.sourceGroup g
    let q0 (l : Nat) := (src.reg l sa.toNat).toNat
    let k0 (l : Nat) := (src.reg l (sa.toNat + 1)).toNat
    maskBadLanes src iss.lanes sa.toNat = [] → (∀ l ∈ iss.lanes, l < 64) →
    (Accepted (.mclass c ec sa sb) iss g → (∀ l ∈ iss.lanes, (tileRows src (q0 l) 64).isSome = true) → src.part = g.part →
      Leads (.mclass c ec sa sb) s iss fun t h =>
        let k (l : Nat) : Nat := tileClass src (q0 l) (k0 l)
        (∀ l ∈ iss.lanes, h.reg l sb.toNat = BitVec.ofNat 32 (k l))
        ∧ (∀ key, (∀ l ∈ iss.lanes, key ≠ cellKey g l ((g.fibre l).wb + sb.toNat)) → tblGet 0 h.regs key = tblGet 0 g.regs key)
        ∧ Latched iss g h 6 (fun _ f => f) (fun l => BitVec.ofNat 32 (k l))
        ∧ h.skipcnt = g.skipcnt + BitVec.ofNat 32 (iss.lanes.countP fun l => k l == 0)
        ∧ h = { g with regs := h.regs, fibres := h.fibres, skipcnt := h.skipcnt }
        ∧ (∀ n, tblGet 0 t.tiles n = tblGet 0 s.tiles n
            + BitVec.ofNat 64 (iss.lanes.countP fun l => n == 48 * coreOf iss.gid + 3 * g.part + k l))
        ∧ (∀ n, n ≠ iss.gid → getGroup t n = getGroup s n) ∧ t = { s with groups := t.groups, tiles := t.tiles })
    ∧ (Accepted (.mbits c ec sa sb) iss g → (∀ l ∈ iss.lanes, (keySet src (q0 l)).isSome = true) →
      Leads (.mbits c ec sa sb) s iss fun t h =>
        let bits (l : Nat) : Dword := fromBits fun j => inKeySet src (q0 l) (k0 l + j) src.maskWords false
        (∀ l ∈ iss.lanes, h.reg l sb.toNat = (bits l).extractLsb' 0 32 ∧ h.reg l (sb.toNat + 1) = (bits l).extractLsb' 32 32)
        ∧ (∀ key, (∀ l ∈ iss.lanes, ∀ k < 2, key ≠ cellKey g l ((g.fibre l).wb + sb.toNat + k)) → tblGet 0 h.regs key = tblGet 0 g.regs key)
        ∧ Latched iss g h 6 (fun _ f => f) (fun l => (bits l).extractLsb' 0 32) ∧ h = { g with regs := h.regs, fibres := h.fibres }
        ∧ (∀ n, n ≠ iss.gid → getGroup t n = getGroup s n) ∧ t = { s with groups := t.groups })

/-- R172, R245, R354: a mask word traps before it has any effect: with cause 0x09 in the fibres whose query or key lies too high, or in all
of them when the group's program breaks its rules; else with 0x0A in the fibres whose tile needs more than four intervals. -/
def Sys2Proof.Stmt.MaskWordTraps : Prop :=
  ∀ (i : Instr) (sa : BitVec 7) (rows : Nat) (s : State) (iss : Issue) (g : Group) (low : Nat) (rest : List Nat), Issuing s iss g →
    Accepted i iss g → ((∃ c ec sb, i = .mclass c ec sa sb) ∧ rows = 64 ∨ (∃ c ec sb, i = .mbits c ec sa sb) ∧ rows = 1) →
    let src := iss.sourceGroup g
    let high := iss.lanes.filter fun l => !programOk src || decide (2147483584 < (src.reg l sa.toNat).toNat)
      || decide (2147483584 < (src.reg l (sa.toNat + 1)).toNat)
    let wide := iss.lanes.filter fun l => (tileRows src (src.reg l sa.toNat).toNat rows).isNone
    (if high = [] then wide else high) = low :: rest →
    Leads i s iss fun t h =>
      TrapJoined s t h iss.gid (if high = [] then 0x0A else 0x09) (low :: rest) ((wordOf i).setWidth 64)
      ∧ h = { g with stopping := true } ∧ (∀ n, n ≠ iss.gid → getGroup t n = getGroup s n)
      ∧ t = { s with groups := t.groups, kiosks := t.kiosks }

namespace Sys2Proof.Stmt
open Sys2Proof.Machine

/-! ### The words of 09_isa_control.md -/

/-- The address that a word offset names from the word's own address (R71, R150). -/
def offsetFrom (iss : Issue) {n : Nat} (off : BitVec n) : Dword :=
  BitVec.ofInt 64 ((iss.pc.toNat : Int) + 4 * (match iss.ext with
    | some k => (k ++ off).toInt
    | none => off.toInt))

/-- The pair of a register holds an instruction address: bits [1:0] count as 0 (R151, R153). -/
def codeAddress (g : Group) (l n : Nat) : Dword := BitVec.ofNat 64 ((g.pair l n).toNat / 4 * 4)

/-- Where a branch or a jump sends lane l (R150, R153). -/
def transferTarget (iss : Issue) (g : Group) (l : Nat) : Instr → Option Dword
  | .bz _ sa off => some (if g.reg l sa.toNat = 0 then offsetFrom iss off else iss.next)
  | .bnz _ sa off => some (if g.reg l sa.toNat = 0 then iss.next else offsetFrom iss off)
  | .bps _ k off => some (if (g.fibre l).pw.getLsbD k.toNat then offsetFrom iss off else iss.next)
  | .bpc _ k off => some (if (g.fibre l).pw.getLsbD k.toNat then iss.next else offsetFrom iss off)
  | .jmp _ off => some (offsetFrom iss off)
  | .jmpi _ sa => some (codeAddress g l sa.toNat)
  | _ => none

/-- A call: its frame, and where it sends lane l (R151). -/
def callTarget (iss : Issue) (g : Group) : Instr → Option (Nat × (Nat → Dword))
  | .call _ fr off => some (fr.toNat, fun _ => offsetFrom iss off)
  | .calli _ fr sa => some (fr.toNat, fun l => codeAddress g l sa.toNat)
  | _ => none

/-- The value of a control register for lane l (R164); none for a number that the index does not list. -/
def controlValue (s : State) (iss : Issue) (g : Group) (l n : Nat) : Option Word :=
  let die := iss.gid / 8192
  let word (x : Nat) : Option Word := some (BitVec.ofNat 32 x)
  let bits (h : Nat → Bool) : Option Word := word ((List.range 32).map fun k => if h k then 2 ^ k else 0).sum
  if n = 0 then some (g.fibre l).fstat
  else if n = 1 then word l
  else if n = 2 then word (g.fibre l).wb
  else if n = 3 then bits fun k => decide (k < 8) && s.accesses.any fun a =>
    a.gid == iss.gid && a.lane == l && a.slot == some k && (iss.mark.map fun m => decide (a.id < m)).getD true
  else if n = 4 then word ((s.clock - tblGet 0 s.dieReady die) % 2 ^ 32)
  else if n = 5 then some (g.fibre l).cycleh
  else if n = 0x10 then word g.width
  else if n = 0x11 then word g.grank
  else if n = 0x12 then word g.clsize
  else if n = 0x13 then word g.clx.toNat
  else if n = 0x14 then word g.cly.toNat
  else if n = 0x15 then word g.clz.toNat
  else if n = 0x16 then word g.stage
  else if n = 0x17 then word g.nstage
  else if n = 0x18 then some g.launch
  else if n = 0x19 then bits fun k => decide (k < g.width) && (g.fibre k).live
  else if n = 0x1A then bits fun k => decide (32 + k < g.width) && (g.fibre (32 + k)).live
  else if n = 0x1B then word g.prio
  else if n = 0x1C then word ((if (getQuarter s (iss.gid / 16)).token = some iss.gid then 2 else 0) + if g.member then 1 else 0)
  else if n = 0x1D then some g.skipcnt
  else if n = 0x20 then word (1024 * g.part + 512 * die + 4 * (iss.gid / 64 % 128) + iss.gid / 16 % 4)
  else if n = 0x21 then some (wsphaseWord s die)
  else if n = 0x22 then some (budgetWord s g.ctx (iss.gid / 64))
  else none

/-- What csrw, csrs and csrc make of the old value and the operand (R163). -/
def controlUpdate : Instr → Option (Nat × Nat × (Word → Word → Word))
  | .csrw _ r n => some (r.toNat, n.toNat, fun _ v => v)
  | .csrs _ r n => some (r.toNat, n.toNat, fun old v => old ||| v)
  | .csrc _ r n => some (r.toNat, n.toNat, fun old v => old &&& ~~~v)
  | _ => none

/-- The prefixes: the kind that is already there, and the issue with the new one (R63 to R71). -/
def prefixed (iss : Issue) : Instr → Option (Bool × Issue)
  | .rep nr nc ca cb rsd rsa rsb => some (iss.rep.isSome,
      { iss with rep := some { nr := nr.toNat, nc := nc.toNat, ca := if ca then 1 else 0, cb := if cb then 1 else 0, rsd := rsd.toNat
                               rsa := rsa.toNat, rsb := rsb.toNat } })
  | .xl pat k fill => some (iss.xl.isSome, { iss with xl := some { pat := pat.toNat, k := k.toNat, own := fill } })
  | .grd sense bit => some (iss.grd.isSome, { iss with grd := some (sense, bit) })
  | .ext imm => some (iss.ext.isSome, { iss with ext := some imm })
  | _ => none

/-- A token once its fuse or leave has been counted (R30): released when every expected fibre is held. -/
def settledToken (k : Token) : Token := if k.isOpen ∧ k.expected &&& ~~~k.held = 0 then {} else k

/-- What the slot waits of some fibres have ordered comes to a token (R268). -/
def joinedFloor (s : State) (g : Group) (lanes : List Nat) (m : Option Nat) : Option Nat :=
  lanes.foldl (fun m l => laterOf s m (g.fibre l).waited) m

end Sys2Proof.Stmt

/-- R150, R153: a branch or a jump completes: each fibre of the gang goes to its own target or to the next chain; nothing else changes. -/
def Obligations.TransfersGo : Prop :=
  ∀ (i : Instr) (s : State) (iss : Issue) (g : Group), Issuing s iss g → Accepted i iss g →
    (∀ l, (transferTarget iss (iss.sourceGroup g) l i).isSome = true) →
    Leads i s iss fun t h => OnlyGroup iss.gid s t ∧ h = { g with fibres := h.fibres }
      ∧ ∀ l, h.fibre l = if l ∈ iss.lanes ∧ l < g.fibres.length then
            { g.fibre l with pc := (transferTarget iss (iss.sourceGroup g) l i).getD 0, progress := 0 }
          else g.fibre l

/-- R151: a call writes its link, FR in bits [63:57] above the next chain's address, to the two registers below the new window, moves the
window up by FR rows, and goes to its target. Where a window would leave its group's rows, it traps with cause 0x03 naming exactly those
fibres, and nothing else changes. -/
def Sys2Proof.Stmt.CallMovesWindow : Prop :=
  ∀ (i : Instr) (s : State) (iss : Issue) (g : Group) (fr : Nat) (target : Nat → Dword), Issuing s iss g → Accepted i iss g →
    callTarget iss (iss.sourceGroup g) i = some (fr, target) → (∀ l ∈ iss.lanes, l < 64 ∧ l < g.fibres.length) → iss.lanes.Nodup →
    let bad := iss.lanes.filter fun l => decide (g.rows ≤ (g.fibre l).wb + fr)
    Leads i s iss fun t h =>
      if bad = [] then
        let link : Dword := BitVec.ofNat 64 (fr * 2 ^ 57 + iss.next.toNat)
        OnlyGroup iss.gid s t ∧ h = { g with regs := h.regs, fibres := h.fibres }
        ∧ (∀ l ∈ iss.lanes, h.fibre l = { g.fibre l with pc := target l, progress := 0, wb := (g.fibre l).wb + fr }
          ∧ tblGet 0 h.regs (cellKey g l ((g.fibre l).wb + fr - 2)) = link.extractLsb' 0 32
          ∧ tblGet 0 h.regs (cellKey g l ((g.fibre l).wb + fr - 1)) = link.extractLsb' 32 32)
        ∧ (∀ l, l ∉ iss.lanes → h.fibre l = g.fibre l)
        ∧ ∀ key, (∀ l ∈ iss.lanes, key ≠ cellKey g l ((g.fibre l).wb + fr - 2) ∧ key ≠ cellKey g l ((g.fibre l).wb + fr - 1)) →
            tblGet 0 h.regs key = tblGet 0 g.regs key
      else TrapJoined s t h iss.gid 0x03 bad ((wordOf i).setWidth 64) ∧ h = { g with stopping := true }
        ∧ t = { s with groups := t.groups, kiosks := t.kiosks }

/-- R152: ret takes FR and the address from the link below each window: the window goes back, and the fibre to the address. Where a window
is below 2, or FR is odd, below 2 or above the window, it traps with cause 0x03 naming exactly those fibres. -/
def Sys2Proof.Stmt.ReturnRestores : Prop :=
  ∀ (c : Bool) (s : State) (iss : Issue) (g : Group), Issuing s iss g → Accepted (.ret c) iss g →
    (∀ l ∈ iss.lanes, l < g.fibres.length) → iss.lanes.Nodup →
    let src := iss.sourceGroup g
    let link (l : Nat) : Dword := src.cell l ((src.fibre l).wb - 1) ++ src.cell l ((src.fibre l).wb - 2)
    let fr (l : Nat) : Nat := (link l).toNat / 2 ^ 57
    let bad := iss.lanes.filter fun l =>
      decide ((src.fibre l).wb < 2) || decide (fr l < 2) || decide (fr l % 2 = 1) || decide ((src.fibre l).wb < fr l)
    Leads (.ret c) s iss fun t h =>
      if bad = [] then
        OnlyGroup iss.gid s t ∧ h = { g with fibres := h.fibres } ∧ (∀ l, l ∉ iss.lanes → h.fibre l = g.fibre l)
        ∧ ∀ l ∈ iss.lanes, h.fibre l = { g.fibre l with
            wb := (g.fibre l).wb - fr l, progress := 0, pc := BitVec.ofNat 64 ((link l).toNat % 2 ^ 57 / 4 * 4) }
      else TrapJoined s t h iss.gid 0x03 bad ((wordOf (.ret c)).setWidth 64) ∧ h = { g with stopping := true }
        ∧ t = { s with groups := t.groups, kiosks := t.kiosks }

/-- R151, R152: a ret as the first word after a call brings every fibre of the gang back: its window as it was, its counter at the chain
after the call, and every register but the two of the link as it was. -/
def Sys2Proof.Stmt.CallThenReturn : Prop :=
  ∀ (c c' : Bool) (fr : BitVec 7) (off : BitVec 17) (s t : State) (iss iss' : Issue) (g h : Group),
    Issuing s iss g → iss.snap = none → Accepted (.call c fr off) iss g → exec (.call c fr off) s = .next t →
    (∀ l ∈ iss.lanes, l < 64 ∧ l < g.fibres.length ∧ (g.fibre l).wb + fr.toNat < g.rows) → iss.lanes.Nodup →
    iss.next.toNat % 4 = 0 → iss.next.toNat < 2 ^ 57 →
    getGroup t iss.gid = some h → iss'.gid = iss.gid → iss'.lanes = iss.lanes → iss'.snap = none → Accepted (.ret c') iss' h →
    ∃ u k, exec (.ret c') { t with issue := some iss' } = .next u ∧ getGroup u iss.gid = some k
      ∧ (∀ l ∈ iss.lanes, k.fibre l = { g.fibre l with pc := iss.next, progress := 0 })
      ∧ ∀ l ∈ iss.lanes, ∀ n, n + 2 ≤ fr.toNat → k.reg l n = g.reg l n

/-- R15, R154: each spawner in lane order takes the lowest free slot of its group that is left: a new fibre stands there live at the target,
with R0 the spawner's operand, its rounding mode, its window at 0 and everything else 0, and the spawner's D and its l7 receive the slot's
lane; where none is left they receive 0xFFFF_FFFF. No other register changes, and the status of matrix words that have issued does not reach
the new fibres. -/
def Sys2Proof.Stmt.SpawnCreatesFibres : Prop :=
  ∀ (c : Bool) (d sa : BitVec 7) (off : BitVec 10) (s : State) (iss : Issue) (g : Group), Issuing s iss g →
    Accepted (.spawn c d sa off) iss g → iss.snap = none → g.width ≤ 64 → g.fibres.length = g.width → 0 < g.rows → iss.lanes.Nodup →
    (∀ l ∈ iss.lanes, l < g.width ∧ (g.fibre l).slot = .live) →
    let free := (List.range g.width).filter fun i => (g.fibre i).slot == .free
    let made := free.take iss.lanes.length
    let result (k : Nat) : Word := (free[k]?.map (BitVec.ofNat 32)).getD 0xFFFFFFFF
    Leads (.spawn c d sa off) s iss fun t h =>
      (∀ (k l : Nat), iss.lanes[k]? = some l →
        match free[k]? with
        | some n =>
          h.fibre n = { slot := .live, pc := offsetFrom iss off, fstat := (g.fibre l).fstat &&& 3, readyAt := s.clock + 4
                        startAt := s.clock + 4, born := s.nextId, floor := g.since }
          ∧ h.reg n 0 = g.reg l sa.toNat
        | none => True)
      ∧ (∀ (k l : Nat), iss.lanes[k]? = some l → h.reg l d.toNat = result k ∧ LatchTook (g.fibre l) (h.fibre l) 7 (result k)
          ∧ h.fibre l = { g.fibre l with
              pc := iss.next, progress := 0, latch := (h.fibre l).latch, latchValid := (h.fibre l).latchValid })
      ∧ (∀ key, (∀ l ∈ iss.lanes, key ≠ cellKey g l ((g.fibre l).wb + d.toNat)) → (∀ n ∈ made, key ≠ cellKey g n 0) →
          tblGet 0 h.regs key = tblGet 0 g.regs key)
      ∧ (∀ l, l ∉ iss.lanes → l ∉ made → h.fibre l = g.fibre l)
      ∧ h = { g with regs := h.regs, fibres := h.fibres } ∧ (∀ n, n ≠ iss.gid → getGroup t n = getGroup s n)
      ∧ (∀ q, let off (x : XOp) : XOp := if q = quarterOf iss.gid ∧ x.gid = iss.gid then
              { x with ixOff := x.ixOff ++ made.filter fun l => !x.ixOff.contains l } else x
          getQuarter t q = { getQuarter s q with queue := (getQuarter s q).queue.map off })
      ∧ t = { s with groups := t.groups, launches := t.launches, quarters := t.quarters }

/-- R17, R18, R31, R43: end, in a group of which a fibre outside the gang lives on, ends the gang's fibres: a slot is free once no access is
pending, else ended; they leave every expected set; no register changes. A gang that holds the last fibres of a quiet group, which nothing
has stopped, ends the group: it is no longer resident. -/
def Sys2Proof.Stmt.EndEndsFibres : Prop :=
  ∀ (c : Bool) (s : State) (iss : Issue) (g : Group), Issuing s iss g → Accepted (.endFibre c) iss g →
    (∀ l ∈ iss.lanes, l < g.width ∧ (g.fibre l).live = true) → g.width ≤ 64 → g.fibres.length = g.width →
    ((∃ l < g.width, l ∉ iss.lanes ∧ (g.fibre l).live = true) →
      Leads (.endFibre c) s iss fun t h =>
        (∀ l ∈ iss.lanes, (h.fibre l).slot = if anyPending s iss.gid l then .ended else .free)
        ∧ (∀ l < g.width, l ∉ iss.lanes → (g.fibre l).live = true →
            h.fibre l = { g.fibre l with readyAt := (h.fibre l).readyAt, floor := (h.fibre l).floor })
        ∧ (∀ k ∈ h.tokens, ∀ l ∈ iss.lanes, k.expected.getLsbD l = false)
        ∧ h = { g with fibres := h.fibres, tokens := h.tokens } ∧ (∀ n, n ≠ iss.gid → getGroup t n = getGroup s n)
        ∧ t = { s with groups := t.groups, launches := t.launches })
    ∧ ((∀ l < g.width, l ∈ iss.lanes ∨ (g.fibre l).slot = .free) → groupQuiet s iss.gid = true → g.stopping = false → g.parked = false → g.saving = false →
      ∃ t, exec (.endFibre c) s = .next t ∧ getGroup t iss.gid = none)

/-- R29 to R32, R156: topen of a token that holds no fibre opens it with the gang expected, and traps with cause 0x04 on one that holds
some; fuse holds the gang's expected fibres and leave takes the gang from the expected set; then a token whose expected fibres are all held
closes, and the held fibres are ready from the next clock. Their later accesses, and those of the gang that frees them, follow what the slot
waits of the arrivals have ordered (R268). -/
def Obligations.ConvergenceWords : Prop :=
  ∀ (c : Bool) (n : BitVec 4) (s : State) (iss : Issue) (g : Group) (k : Token), Issuing s iss g →
    g.tokens[n.toNat]? = some k → g.width ≤ 64 → (∀ l ∈ iss.lanes, l < 64) →
    let gang : BitVec 64 := fromBits fun l => decide (l ∈ iss.lanes)
    let turns (i : Instr) (j : Token) : Prop := Accepted i iss g → Leads i s iss fun t h =>
      let frees : Bool := j.isOpen && j.expected &&& ~~~j.held == 0
      let freed (l : Nat) : Prop := (j.isOpen = true ∧ j.expected &&& ~~~j.held = 0) ∧ l < g.width ∧ j.held.getLsbD l = true
      OnlyGroup iss.gid s t ∧ h = { g with fibres := h.fibres, tokens := h.tokens }
      ∧ h.tokens[n.toNat]? = some (settledToken j) ∧ (∀ m, m ≠ n.toNat → h.tokens[m]? = g.tokens[m]?)
      ∧ ∀ l, l < g.fibres.length →
          let f := if l ∈ iss.lanes then { g.fibre l with pc := iss.next, progress := 0 } else g.fibre l
          (freed l → h.fibre l = { f with readyAt := s.clock + 1, floor := laterOf s f.floor j.floor })
          ∧ (¬ freed l → h.fibre l = if l ∈ iss.lanes ∧ frees = true then { f with floor := laterOf s f.floor j.floor } else f)
    (k.held = 0 → Accepted (.topen c n) iss g → Leads (.topen c n) s iss fun t h =>
      OnlyGroup iss.gid s t ∧ h = { g with fibres := h.fibres, tokens := h.tokens } ∧ Advanced iss g h
      ∧ h.tokens[n.toNat]? = some { isOpen := true, expected := gang, held := 0 } ∧ ∀ m, m ≠ n.toNat → h.tokens[m]? = g.tokens[m]?)
    ∧ (k.held ≠ 0 → Accepted (.topen c n) iss g → Leads (.topen c n) s iss fun t h =>
      TrapJoined s t h iss.gid 0x04 iss.lanes ((wordOf (.topen c n)).setWidth 64) ∧ h = { g with stopping := true })
    ∧ turns (.fuse c n) { k with held := if k.isOpen then k.held ||| (gang &&& k.expected) else k.held
                                 floor := joinedFloor s g (iss.lanes.filter fun l => k.isOpen && k.expected.getLsbD l) k.floor }
    ∧ turns (.leave c n) { k with expected := k.expected &&& ~~~gang
                                  floor := joinedFloor s g (iss.lanes.filter fun l => k.expected.getLsbD l) k.floor }

/-- R44, R45, R157 to R159, R162: yield stops the gang's fibres while a soft request is pending, and otherwise only goes on; trigger marks a
group that has not triggered at a point of time order, which the records of its launch note, and counts it in its launch, or, where accesses
that a fence of its fibre orders have not taken their places, waits for these; its point lies after those that have; pass hands on the token that the group holds; wsb goes on. -/
def Sys2Proof.Stmt.SystemWordsComplete : Prop :=
  ∀ (c : Bool) (m : BitVec 8) (s : State) (iss : Issue) (g : Group), Issuing s iss g →
    let lane := iss.lanes.headD 0
    let f := g.fibre lane
    let fenced := fencedOpen s iss.gid lane f
    (Accepted (.yield c) iss g → Leads (.yield c) s iss fun t h =>
      OnlyGroup iss.gid s t ∧ h = { g with fibres := h.fibres }
      ∧ ∀ l, h.fibre l = if l ∈ iss.lanes ∧ l < g.fibres.length then
          { g.fibre l with pc := iss.next, progress := 0, yielded := g.softReq || (g.fibre l).yielded } else g.fibre l)
    ∧ (Accepted (.trigger c) iss g → g.trig = false → fenced ≠ [] → Leads (.trigger c) s iss fun t h =>
      (∃ a : Access, t.accesses = s.accesses ++ [a] ∧ a.kind = .trigger ∧ a.gid = iss.gid ∧ a.lane = lane ∧ a.slot = none
        ∧ a.extra = fenced.map fun b => b.id)
      ∧ Advanced iss g h ∧ h = { g with fibres := h.fibres, trig := true } ∧ (∀ n, n ≠ iss.gid → getGroup t n = getGroup s n)
      ∧ t = { s with groups := t.groups, accesses := t.accesses, nextId := s.nextId + 1
                     launches := s.launches.map fun x => if x.uid == g.uid then { x with lastProgress := s.clock } else x })
    ∧ (Accepted (.trigger c) iss g → (g.trig = true ∨ fenced = []) → Leads (.trigger c) s iss fun t h =>
      Advanced iss g h ∧ h = { g with fibres := h.fibres, trig := true } ∧ (∀ n, n ≠ iss.gid → getGroup t n = getGroup s n)
      ∧ (g.trig = true → t.past = s.past)
      ∧ (g.trig = false → ∃ newer older e, t.past = newer ++ e :: older ∧ newer ++ older = s.past ∧ e.id = s.events ∧ e.size = 0
          ∧ ∀ y ∈ newer, y.id ∉ f.floor.toList ++ fencedDone f)
      ∧ t = { s with groups := t.groups, past := t.past, events := if g.trig then s.events else s.events + 1
                     backs := if g.trig then s.backs else s.backs.drop 1
                     queues := if g.trig then s.queues else (noteOrder s (fun r => r.launches.contains g.uid) s.events).queues
                     launches := if g.trig then s.launches else s.launches.map fun x =>
          if x.uid == g.uid then { x with trigGroups := x.trigGroups + 1, lastProgress := s.clock } else x })
    ∧ (Accepted (.pass c) iss g → Leads (.pass c) s iss fun t h =>
      Advanced iss g h ∧ h = { g with fibres := h.fibres } ∧ (∀ n, n ≠ iss.gid → getGroup t n = getGroup s n)
      ∧ getQuarter t (quarterOf iss.gid) = (let q := getQuarter s (quarterOf iss.gid)
          if q.token = some iss.gid then { q with token := nextMember s iss.gid } else q)
      ∧ (∀ n, n ≠ quarterOf iss.gid → getQuarter t n = getQuarter s n) ∧ t = { s with groups := t.groups, quarters := t.quarters })
    ∧ (Accepted (.wsb c m) iss g → Leads (.wsb c m) s iss fun t h =>
      OnlyGroup iss.gid s t ∧ h = { g with fibres := h.fibres } ∧ Advanced iss g h)

/-- R160, R170, R171, R337: brk and trap raise causes 0x14 and 0x16 for the whole gang, with IMM16 as the detail word and the next chain's
address, and move no fibre: issue stops in the group, or, for brk in fibre-stop mode, the gang's fibres park. -/
def Sys2Proof.Stmt.TrapWordsTrap : Prop :=
  ∀ (c : Bool) (imm : BitVec 16) (s : State) (iss : Issue) (g : Group) (brk : Bool), Issuing s iss g →
    let i := if brk then Instr.brk c imm else Instr.trap c imm
    Accepted i iss g → Leads i s iss fun t h =>
      let k := getKiosk s (coreOf iss.gid)
      (∃ r, t.kiosks = (setKiosk s (coreOf iss.gid) { k with waiting := k.waiting ++ [r] }).kiosks
        ∧ r.cause = (if brk then 0x14 else 0x16) ∧ r.gid = iss.gid ∧ r.detail = BitVec.ofNat 64 imm.toNat ∧ r.next = iss.next
        ∧ ∀ l < 64, r.mask.getLsbD l = decide (l ∈ iss.lanes))
      ∧ (if brk = true ∧ fibreStop s g = true then
          h = { g with fibres := h.fibres } ∧ ∀ l, h.fibre l = if l ∈ iss.lanes ∧ (g.fibre l).slot = .live then
            { g.fibre l with slot := .parked } else g.fibre l
        else h = { g with stopping := true, debugPark := g.debugPark || brk })
      ∧ (∀ n, n ≠ iss.gid → getGroup t n = getGroup s n) ∧ t = { s with groups := t.groups, kiosks := t.kiosks }

/-- R46, R47, R161: relocate takes the first row of its table that holds: codes 1 to 7 come to D of the whole gang at once and nothing
moves; otherwise the group is marked as moving, and the move is recorded with its target core and the room kept there (R48). Its address's translation is in the core's
cache. -/
def Sys2Proof.Stmt.RelocateDecides : Prop :=
  ∀ (o : EF) (s : State) (iss : Issue) (g : Group), Issuing s iss g → Accepted (.relocate o) iss g → iss.snap = none →
    let va := g.pair (iss.lanes.headD 0) o.sa.toNat
    va.toNat < 2 ^ 57 → (∃ e, tlbHit s (coreOf iss.gid) g.pasid va.toNat = some e) → (∀ l ∈ iss.lanes, l < 64) →
    let target := (relocateTarget s iss g va).1
    let code :=
      if g.scratch ≠ 0 then 1
      else if g.uncommitted ≠ [] ∨ landingDue s iss.gid = true then 2
      else if ∃ x ∈ s.copies, x.hub = false ∧ x.gid = iss.gid then 3
      else if 1 < g.clsize then 4
      else if 1 < g.nstage then 5
      else if target = coreOf iss.gid then 7
      else if coreRoom s (quotaOf (pquota s g.part)) g target = false then 6
      else 0
    Leads (.relocate o) s iss fun t h =>
      (∀ n, n ≠ iss.gid → getGroup t n = getGroup s n)
      ∧ if code = 0 then
          Advanced iss g h ∧ h = { g with fibres := h.fibres, moving := true }
          ∧ ∃ place seat, seatFor s (quotaOf (pquota s g.part)) target g = some (place, seat)
          ∧ t = { s with groups := t.groups
                         relocations := s.relocations ++
                           [{ gid := iss.gid, seatGid := place, seat := seat, target := target, lanes := iss.lanes, dst := o.d }] }
        else
          (∀ l ∈ iss.lanes, h.reg l o.d.toNat = BitVec.ofNat 32 code)
          ∧ (∀ key, (∀ l ∈ iss.lanes, key ≠ cellKey g l ((g.fibre l).wb + o.d.toNat)) → tblGet 0 h.regs key = tblGet 0 g.regs key)
          ∧ Latched iss g h 7 (fun _ f => f) (fun _ => BitVec.ofNat 32 code) ∧ h = { g with regs := h.regs, fibres := h.fibres }
          ∧ t = { s with groups := t.groups }

/-- R163, R164, R167: csrr of a listed number delivers the register's value to each fibre's D and l7, a read of CYCLE also its high half to
CYCLEH; a number that is not listed traps with cause 0x01. -/
def Sys2Proof.Stmt.ControlRegisterRead : Prop :=
  ∀ (c : Bool) (r : BitVec 7) (n : BitVec 12) (s : State) (iss : Issue) (g : Group), Issuing s iss g → Accepted (.csrr c r n) iss g →
    (∀ l ∈ iss.lanes, l < 64) → iss.lanes.Nodup →
    let src := iss.sourceGroup g
    ((controlValue s iss src 0 n.toNat).isSome = true → Leads (.csrr c r n) s iss fun t h =>
      let v (l : Nat) : Word := (controlValue s iss src l n.toNat).getD 0
      (∀ l ∈ iss.lanes, h.reg l r.toNat = v l)
      ∧ (∀ key, (∀ l ∈ iss.lanes, key ≠ cellKey g l ((g.fibre l).wb + r.toNat)) → tblGet 0 h.regs key = tblGet 0 g.regs key)
      ∧ Latched iss g h 7 (fun _ f => if n = 4 then
          { f with cycleh := BitVec.ofNat 32 ((s.clock - tblGet 0 s.dieReady (iss.gid / 8192)) / 2 ^ 32) } else f) v
      ∧ h = { g with regs := h.regs, fibres := h.fibres } ∧ OnlyGroup iss.gid s t)
    ∧ ((controlValue s iss src 0 n.toNat).isSome = false → Leads (.csrr c r n) s iss fun t h =>
      TrapJoined s t h iss.gid 0x01 iss.lanes ((wordOf (.csrr c r n)).setWidth 64) ∧ h = { g with stopping := true })

/-- R163, R165 to R167: csrw, csrs and csrc write FSTAT of each fibre, of which bits [31:9] stay 0, and SKIPCNT of the group, fibre after
fibre in lane order; a write that leaves IX clear also takes it from the matrix words that have issued and not completed; of any number but these two and TOKCTL they trap with cause 0x01. -/
def Sys2Proof.Stmt.ControlRegisterWrite : Prop :=
  ∀ (i : Instr) (r n : Nat) (f : Word → Word → Word) (s : State) (iss : Issue) (g : Group), Issuing s iss g → Accepted i iss g →
    controlUpdate i = some (r, n, f) → iss.lanes.Nodup →
    let src := iss.sourceGroup g
    let clears (l : Nat) : Bool := !(f ((g.fibre l).fstat ||| 0x80) (src.reg l r)).getLsbD 7
    (n = 0 → Leads i s iss fun t h => h = { g with fibres := h.fibres } ∧ (∀ k, k ≠ iss.gid → getGroup t k = getGroup s k)
      ∧ t = { s with groups := t.groups, quarters := t.quarters }
      ∧ (∀ q, let off (x : XOp) : XOp := if q = quarterOf iss.gid ∧ x.gid = iss.gid then
              { x with ixOff := x.ixOff ++ iss.lanes.filter fun l => clears l && !x.ixOff.contains l } else x
          getQuarter t q = { getQuarter s q with queue := (getQuarter s q).queue.map off })
      ∧ ∀ l, h.fibre l = if l ∈ iss.lanes ∧ l < g.fibres.length then
          { g.fibre l with pc := iss.next, progress := 0, fstat := f (g.fibre l).fstat (src.reg l r) &&& 0x1FF } else g.fibre l)
    ∧ (n = 0x1D → Leads i s iss fun t h => OnlyGroup iss.gid s t ∧ Advanced iss g h
      ∧ h = { g with fibres := h.fibres, skipcnt := iss.lanes.foldl (fun v l => f v (src.reg l r)) g.skipcnt })
    ∧ (n ≠ 0 → n ≠ 0x1C → n ≠ 0x1D → Leads i s iss fun t h =>
      TrapJoined s t h iss.gid 0x01 iss.lanes ((wordOf i).setWidth 64) ∧ h = { g with stopping := true })

/-- R159, R167: writing 1 to TOKCTL's bit 0 makes the group a member of its quarter's ring, which takes a free token, unless a group of
another launch is a member there; writing 0 leaves a group that is no member as it is. No group is a member in the quarter before. -/
def Sys2Proof.Stmt.TokenRingMembership : Prop :=
  ∀ (c : Bool) (r : BitVec 7) (s : State) (iss : Issue) (g : Group) (l : Nat), Issuing s iss g → Accepted (.csrw c r 0x1C) iss g →
    iss.lanes = [l] → g.member = false → (∀ e ∈ s.groups, quarterOf e.1 = quarterOf iss.gid → e.2.member = false) →
    let one := ((iss.sourceGroup g).reg l r.toNat).getLsbD 0
    Leads (.csrw c r 0x1C) s iss fun t h =>
      Advanced iss g h ∧ h = { g with fibres := h.fibres, member := one }
      ∧ ((getQuarter s (quarterOf iss.gid)).token = none →
          (getQuarter t (quarterOf iss.gid)).token = if one then some iss.gid else none)
      ∧ t = { s with groups := t.groups, quarters := t.quarters }

/-- R169: rdpw delivers each fibre's predicate word to D and l7, and wrpw writes it from the register; nothing else changes. -/
def Sys2Proof.Stmt.PredicateWordMoves : Prop :=
  ∀ (c : Bool) (r : BitVec 7) (s : State) (iss : Issue) (g : Group), Issuing s iss g → (∀ l ∈ iss.lanes, l < 64) →
    let src := iss.sourceGroup g
    (Accepted (.rdpw c r) iss g → Leads (.rdpw c r) s iss fun t h =>
      (∀ l ∈ iss.lanes, h.reg l r.toNat = (src.fibre l).pw)
      ∧ (∀ key, (∀ l ∈ iss.lanes, key ≠ cellKey g l ((g.fibre l).wb + r.toNat)) → tblGet 0 h.regs key = tblGet 0 g.regs key)
      ∧ Latched iss g h 7 (fun _ f => f) (fun l => (src.fibre l).pw) ∧ h = { g with regs := h.regs, fibres := h.fibres }
      ∧ OnlyGroup iss.gid s t)
    ∧ (Accepted (.wrpw c r) iss g → Leads (.wrpw c r) s iss fun t h => OnlyGroup iss.gid s t ∧ h = { g with fibres := h.fibres }
      ∧ ∀ l, h.fibre l = if l ∈ iss.lanes ∧ l < g.fibres.length then
          { g.fibre l with pc := iss.next, progress := 0, pw := src.reg l r.toNat } else g.fibre l)

/-- R63 to R71, R77: a well-formed prefix that is the first of its kind and does not end its packet applies to the next word and changes
nothing else; a second of its kind traps with cause 0x01, and one at the end of its packet with 0x02. -/
def Sys2Proof.Stmt.PrefixesApply : Prop :=
  ∀ (i : Instr) (s : State) (iss after : Issue) (g : Group) (again : Bool), s.issue = some iss → getGroup s iss.gid = some g →
    prefixed iss i = some (again, after) → i.wf = true →
    (iss.pc.toNat % 12 ≠ 8 → again = false → exec i s = .next { s with issue := some { after with pc := iss.pc + 4 } })
    ∧ (iss.pc.toNat % 12 = 8 ∨ again = true → Leads i s iss fun t h =>
      TrapJoined s t h iss.gid (if iss.pc.toNat % 12 = 8 then 0x02 else 0x01) iss.lanes ((wordOf i).setWidth 64)
      ∧ h = { g with stopping := true })

namespace Sys2Proof.Stmt
open Sys2Proof.Machine

/-! ### Traps on their way, kiosks, harts, bring-up and time -/

/-- A started kiosk's window selects a resident group that is not being saved (R351, R354). -/
def Selected (s : State) (core gid : Nat) (g : Group) : Prop :=
  (getKiosk s core).started = true ∧ g.saving = false ∧ getGroup s gid = some g
    ∧ gid = 64 * core + 16 * ((getKiosk s core).winsel.toNat % 4) + (getKiosk s core).winsel.toNat / 4 % 16

/-- Only one kiosk's side changes, to k. -/
def KioskTo (s t : State) (core : Nat) (k : Kiosk) : Prop :=
  getKiosk t core = k ∧ (∀ c, c ≠ core → getKiosk t c = getKiosk s c) ∧ t = { s with kiosks := t.kiosks }

/-- Only one hart changes, to h. -/
def HartTo (s t : State) (n : Nat) (h : Hart) : Prop :=
  getHart t n = h ∧ (∀ m, m ≠ n → getHart t m = getHart s m)

/-- A hart has entered the trap of an exception with a code and a value (R340): its counter, the cause and the value are saved, the interrupt
enable and the mode are stacked, and it goes to the vector of M-mode, of S-mode where medeleg gives the exception to it, or of VS-mode where
hedeleg gives a guest's to it; a kiosk's goes to M-mode. No other register changes. -/
def HartTraps (s t : State) (n : Nat) (e : HartExc) (code : Nat) (value : Dword) : Prop :=
  let h := getHart s n
  let k := getHart t n
  let csr (x : Hart) (c : Nat) : Dword := tblGet 0 x.csrs c
  let guest : Bool := h.priv == .vs || h.priv == .vu
  let super : Bool := h.priv == .s || h.priv == .vs
  let given := n < 96 ∧ h.priv ≠ .m ∧ (csr h 0x302).getLsbD code = true
  let toVs := given ∧ guest = true ∧ (csr h 0x602).getLsbD code = true
  let goes (p : Priv) (vec epc cause val : Nat) (more : List Nat) : Prop :=
    k = { h with priv := p, pc := BitVec.ofNat 64 ((csr h vec).toNat / 4 * 4), csrs := k.csrs, exc := some e }
    ∧ csr k epc = h.pc ∧ csr k cause = BitVec.ofNat 64 code ∧ csr k val = value
    ∧ ∀ c, c ∉ [epc, cause, val] ++ more → csr k c = csr h c
  (toVs → goes .vs 0x205 0x241 0x242 0x243 [0x200] ∧ (csr k 0x200).getLsbD 5 = (csr h 0x200).getLsbD 1 ∧ (csr k 0x200).getLsbD 1 = false
    ∧ (csr k 0x200).getLsbD 8 = super)
  ∧ (given → ¬ toVs → goes .s 0x105 0x141 0x142 0x143 [0x300, 0x600, 0x643, 0x64A] ∧ (csr k 0x300).getLsbD 5 = (csr h 0x300).getLsbD 1
    ∧ (csr k 0x300).getLsbD 1 = false ∧ (csr k 0x300).getLsbD 8 = super ∧ (csr k 0x600).getLsbD 7 = guest)
  ∧ (¬ given → goes .m 0x305 0x341 0x342 0x343 [0x300, 0x34A, 0x34B] ∧ (csr k 0x300).getLsbD 7 = (csr h 0x300).getLsbD 3
    ∧ (csr k 0x300).getLsbD 3 = false ∧ (csr k 0x300).getLsbD 39 = guest
    ∧ (csr k 0x300).toNat / 2 ^ 11 % 4 = if h.priv = .m then 3 else if super = true then 1 else 0)
  ∧ (∀ m, m ≠ n → getHart t m = getHart s m) ∧ t = { s with harts := t.harts }

/-- A step answers a next state of which P holds. -/
def Goes (i : Instr) (s : State) (P : State → Prop) : Prop := ∃ t, exec i s = .next t ∧ P t

/-- The record of 128 bytes in four vector registers of a hart, as doublewords (R341). -/
def hartRecord (h : Hart) (vs2 : Nat) : List Dword :=
  (List.range 16).map fun k => BitVec.ofNat 64 (valueOf 8 fun j => tblGet 0 h.v (32 * vs2 + 8 * k + j))

/-- A record joins its queue whole, and its dispatcher takes no other on this hub clock (R279); a context without work has some now
(R323). -/
def RecordAccepted (s t : State) (f q : Nat) (record : List Dword) : Prop :=
  getQueue t f q = { getQueue s f q with pending := (getQueue s f q).pending ++ [record] }
  ∧ (∀ k, k ≠ 64 * f + q → tblGet ({} : Queue) t.queues k = tblGet {} s.queues k)
  ∧ tblGet 0 t.intake (bitsOf (sqcfg s f q) 43 38) = hubClock s + 1
  ∧ (hasWork s f = false → (getCtx t f).workSince = some s.clock)

end Sys2Proof.Stmt

/-- R171, R228: a group in which issue has stopped parks once nothing of it issues and its matrix and landing words have completed; a waiting record whose group is parked, gone or still running
enters its core's queue while the queue holds fewer than 64, in order, and waits while it is full. -/
def Sys2Proof.Stmt.TrapsAreDelivered : Prop :=
  (∀ (s : State) (gid : Nat) (g : Group), getGroup s gid = some g → g.stopping = true → g.parked = false →
    (∀ i, s.issue = some i → i.gid ≠ gid) →
      if matrixBusy s gid then exec (.groupPark gid) s = .next s
      else Goes (.groupPark gid) s fun t => getGroup t gid = some { g with parked := true } ∧ OnlyGroup gid s t)
  ∧ ∀ (s : State) (core : Nat) (r : TrapRecord) (rest : List TrapRecord), (getKiosk s core).waiting = r :: rest →
    ((getKiosk s core).queue.length < 64 →
      (r.residency = true ∨ ∀ g, getGroup s r.gid = some g → g.parked = true ∨ g.stopping = false) →
      Goes (.trapQueueEnter core) s fun t =>
        KioskTo s t core { getKiosk s core with queue := (getKiosk s core).queue ++ [r], waiting := rest })
    ∧ (64 ≤ (getKiosk s core).queue.length → exec (.trapQueueEnter core) s = .next s)

/-- R62, R173, R336, R337, R354: the kiosk's commands on a selected group that is parked: release lets it run again, every latch invalid,
and after a breakpoint or single-step park past the breakpoint where it stands;
end ends all its fibres, and so a quiet group; the single-step commands set its mode; and a fibre parked by fibre-stop is live again when it
is released. -/
def Sys2Proof.Stmt.KioskCommands : Prop :=
  ∀ (s : State) (core gid : Nat) (g : Group), Selected s core gid g →
    (g.parked = true → recordWaits s gid = false → g.liveLanes ≠ [] → Goes (.wincmdRelease core) s fun t =>
      ∃ h, getGroup t gid = some h ∧ OnlyGroup gid s t
        ∧ h = { g with stopping := false, parked := false, debugPark := false, fibres := h.fibres }
        ∧ ∀ l < g.fibres.length,
            h.fibre l = { g.fibre l with latchValid := 0, passBreak := (g.fibre l).passBreak || g.debugPark, slot := (h.fibre l).slot }
            ∧ ((g.fibre l).slot ≠ .ended → (h.fibre l).slot = (g.fibre l).slot))
    ∧ (g.parked = true → groupQuiet s gid = true → g.fibres.length = g.width → g.width ≤ 64 → Goes (.wincmdEnd core) s fun t => getGroup t gid = none)
    ∧ (g.parked = true → Goes (.wincmdEnterSingleStep core) s fun t =>
        getGroup t gid = some { g with singleStep := true } ∧ OnlyGroup gid s t)
    ∧ (g.parked = true → Goes (.wincmdLeaveSingleStep core) s fun t =>
        getGroup t gid = some { g with singleStep := false } ∧ OnlyGroup gid s t)
    ∧ ∀ lane, lane < g.width → lane < g.fibres.length → (g.fibre lane).slot = .parked → Goes (.wincmdReleaseFibre core lane) s fun t =>
        ∃ h, getGroup t gid = some h ∧ OnlyGroup gid s t ∧ h = { g with fibres := h.fibres }
          ∧ h.fibre lane = { g.fibre lane with slot := .live, latchValid := 0, passBreak := true }
          ∧ ∀ l, l ≠ lane → h.fibre l = g.fibre l

/-- R333, R350 to R352, R354: through its service window a started kiosk drops the oldest trap record, rings its doorbell, which while it
is enabled makes one 4-byte write, to an interrupt file of a hart or to memory, and is logged where it reaches nothing, writes its mailbox
and WINSEL, and writes the fibre records of a parked selected group; the host writes the other mailbox. -/
def Sys2Proof.Stmt.KioskWindow : Prop :=
  ∀ (s : State) (core : Nat) (v : Dword), let k := getKiosk s core
    (∀ n < 16, Goes (.windowWrite core (0x2080 + 8 * n) v) s fun t => KioskTo s t core { k with mbin := tblSet 0 k.mbin n v })
    ∧ (k.started = true →
      (Goes (.tqpop core) s fun t => KioskTo s t core { k with queue := k.queue.drop 1 })
      ∧ ((getX s 0 0x3018).getLsbD 0 = false → exec (.mbbell core v) s = .next s)
      ∧ ((getX s 0 0x3018).getLsbD 0 = true →
          let pa := (getX s 0 0x3018).toNat % 2 ^ 52 / 4 * 4
          let sent : State := { s with msis := s.msis ++ [(pa, v.extractLsb' 0 32)] }
          (∀ n f, hartPlace s (96 + core) pa = .imsic n f 0 → 0 < v.toNat % 2 ^ 32 → v.toNat % 2 ^ 32 < 2048 →
            Goes (.mbbell core v) s fun t =>
              let id := v.toNat % 2 ^ 32
              let reg (x : State) (r : Nat) : Dword := tblGet 0 (tblGet [] (getHart x n).files f) r
              (∀ k < 64, (reg t (0x80 + 2 * (id / 64))).getLsbD k = ((reg s (0x80 + 2 * (id / 64))).getLsbD k || k == id % 64))
              ∧ (∀ r, r ≠ 0x80 + 2 * (id / 64) → reg t r = reg s r)
              ∧ HartTo s t n { getHart s n with files := (getHart t n).files } ∧ t = { sent with harts := t.harts })
          ∧ (hartPlace s (96 + core) pa = .memory → itemReadyAt s pa = true → pa + 4 ≤ 2 ^ 60 → (∀ k < 4, moveOf s (pa + k) = none) →
            Goes (.mbbell core v) s fun t => WroteAt s t 0 pa 4 0 (byteOf v)
              ∧ t = { sent with mem := t.mem, memTag := t.memTag, stale := t.stale, lines := t.lines, past := t.past, events := t.events })
          ∧ (hartPlace s (96 + core) pa = .none → exec (.mbbell core v) s = .next (logError sent 0 2 (BitVec.ofNat 64 pa))))
      ∧ (∀ n < 16, Goes (.windowWrite core (0x2000 + 8 * n) v) s fun t => KioskTo s t core { k with mbout := tblSet 0 k.mbout n v })
      ∧ (Goes (.windowWrite core 0x4000 v) s fun t => KioskTo s t core { k with winsel := v &&& 0x3F })
      ∧ ∀ gid g lane, Selected s core gid g → g.parked = true → lane < g.width → lane < g.fibres.length →
          let at' (n : Nat) : Nat := 0x100600 + 32 * lane + 8 * n
          let writes (n : Nat) (f : Fibre) : Prop := Goes (.windowWrite core (at' n) v) s fun t =>
            ∃ h, getGroup t gid = some h ∧ OnlyGroup gid s t ∧ h = { g with fibres := h.fibres } ∧ h.fibre lane = f
              ∧ ∀ l, l ≠ lane → h.fibre l = g.fibre l
          writes 0 { g.fibre lane with slot := if v.toNat / 2 ^ 62 = 0 then .free else (g.fibre lane).slot
                                       pc := BitVec.ofNat 64 (v.toNat % 2 ^ 57 / 4 * 4) }
          ∧ writes 1 { g.fibre lane with pw := v.extractLsb' 32 32, fstat := v.extractLsb' 0 32 &&& 0x1FF }
          ∧ writes 2 { g.fibre lane with wb := v.toNat / 2 ^ 44 % 1024, progress := v.toNat / 2 ^ 36 % 256 }
          ∧ writes 3 { g.fibre lane with cycleh := v.extractLsb' 0 32 })

/-- R275, R278, R279, R340, R341: nsubmit waits while an earlier access of its hart has not taken its place. Then, with vs2 a multiple of 4, its
vector unit on and an aligned address of a submission page, rd is 0 where the record, the 128 bytes of v[vs2] to v[vs2+3], is accepted, which
joins its queue, and 1 where it is retried, which leaves nothing; the counter goes on. A wrong vs2 or a vector unit that is off raises an
illegal instruction, a misaligned address and one outside the submission pages a store access fault, and a store page fault or guest page
fault of its translation is taken. -/
def Sys2Proof.Stmt.HartSubmits : Prop :=
  ∀ (vs2 rs1 rd : BitVec 5) (s : State) (n : Nat), s.hartIssue = some n →
    let h := getHart s n
    let i := Instr.nsubmit vs2 rs1 rd
    let va := h.masked h.dataPriv .store (if rs1 = 0 then 0 else tblGet 0 h.x rs1.toNat)
    let guest : Bool := h.dataPriv == .vs || h.dataPriv == .vu
    let word : Word := BitVec.ofNat 32 (vs2.toNat * 2 ^ 20 + rs1.toNat * 2 ^ 15 + rd.toNat * 2 ^ 7 + 0x0B)
    let done (t : State) (v : Dword) : Prop :=
      HartTo s t n { h with pc := h.pc + 4, taint := (getHart t n).taint, owner := (getHart t n).owner
                            x := if rd = 0 then h.x else tblSet 0 h.x rd.toNat v }
    let sound : Prop := vs2.toNat % 4 = 0 ∧ h.vsOff = false ∧ va.toNat % 128 = 0 ∧ walkWaits s h h.dataPriv = false
    (h.drained = false → Goes i s fun t => (getHart t n).pc = h.pc ∧ (getHart t n).exc = h.exc ∧ t.queues = s.queues)
    ∧ (h.drained = true →
      (∀ pa f q, sound → hartTranslate s n h .store va = .at pa → submissionPage pa = some (f, q) → readyBit s 0 = true →
        if mustRetry s f q then Goes i s fun t => done t 1 ∧ t = { s with harts := t.harts }
        else Goes i s fun t => done t 0 ∧ RecordAccepted s t f q (hartRecord h vs2.toNat)
          ∧ t = { s with harts := t.harts, queues := t.queues, intake := t.intake, contexts := t.contexts, past := t.past
                         events := t.events, backs := t.backs })
      ∧ (vs2.toNat % 4 ≠ 0 ∨ h.vsOff = true → Goes i s fun t => HartTraps s t n (.illegalInstruction word) 2 (word.setWidth 64))
      ∧ (vs2.toNat % 4 = 0 → h.vsOff = false → va.toNat % 128 ≠ 0 → Goes i s fun t => HartTraps s t n (.accessFault .store va guest) 7 va)
      ∧ (∀ pa, sound → hartTranslate s n h .store va = .at pa → submissionPage pa = none →
          Goes i s fun t => HartTraps s t n (.accessFault .store va guest) 7 va)
      ∧ (sound → hartTranslate s n h .store va = .raise (.pageFault .store va guest) none →
          Goes i s fun t => HartTraps s t n (.pageFault .store va guest) 15 va)
      ∧ ∀ gpa b, sound → hartTranslate s n h .store va = .raise (.guestPageFault .store va gpa b) none →
          Goes i s fun t => HartTraps s t n (.guestPageFault .store va gpa b) 23 va)

/-- R342: a hart in U-mode or VU-mode with an enabled vector, a pending and no active user trap takes the trap: nutepc holds its counter,
the trap is active and no longer pending, and it goes to the vector, out of a wait. nuret goes back to nutepc and ends the activity; with
none it raises an illegal instruction. -/
def Sys2Proof.Stmt.HartUserTraps : Prop :=
  ∀ (s : State) (n : Nat), let h := getHart s n
    (n < 96 → (h.priv = .u ∨ h.priv = .vu) → h.nutvec.getLsbD 0 = true → h.nutstat.getLsbD 0 = true → h.nutstat.getLsbD 1 = false →
      Goes (.userTrapTake n) s fun t => t = { s with harts := t.harts } ∧ HartTo s t n { h with
        wrs := none, nutepc := h.pc, nutstat := (h.nutstat ||| 2) &&& ~~~(1 : Dword), pc := BitVec.ofNat 64 (h.nutvec.toNat / 4 * 4) })
    ∧ (h.priv = .m ∨ h.priv = .s ∨ h.priv = .vs → exec (.userTrapTake n) s = .next s)
    ∧ (s.hartIssue = some n → h.nutstat.getLsbD 1 = true → Goes .nuret s fun t => t = { s with harts := t.harts }
        ∧ HartTo s t n { h with pc := h.nutepc, nutstat := h.nutstat &&& ~~~(2 : Dword) })
    ∧ (s.hartIssue = some n → h.nutstat.getLsbD 1 = false → Goes .nuret s fun t => HartTraps s t n (.illegalInstruction 0x0000100B) 2 0x0000100B)

/-- R355, R347, R343: power-on with a sound hub image starts the part with a key for slot 0, and leaves recovery mode otherwise; an item whose
stage has begun reports once, ready or failed, and a compute die's clock starts with it; an update in recovery mode with a sound image starts
the part; management answers a message while its endpoint runs, the state sensor of the image check with 1 in recovery mode. -/
def Sys2Proof.Stmt.BringUpReports : Prop :=
  (∀ s : State, s.power = .off → (Goes (.powerOn true) s fun t => t.power = .on ∧ getX t 0 0x2000 = 4
        ∧ t = { s with power := .on, hubStart := s.clock, xreg := t.xreg, keyGen := t.keyGen })
      ∧ exec (.powerOn false) s = .next { s with power := .recovery })
  ∧ (∀ (s : State) (item : Nat) (failed : Bool), s.power = .on → item < 19 → (item < 4 ∨ s.ready.getLsbD 0 = true ∨ s.failed.getLsbD 0 = true) →
      s.ready.getLsbD item = false → s.failed.getLsbD item = false → Goes (.itemReady item failed) s fun t =>
        (∀ k < 20, t.ready.getLsbD k = (s.ready.getLsbD k || (!failed && k == item)))
        ∧ (∀ k < 20, t.failed.getLsbD k = (s.failed.getLsbD k || (failed && k == item)))
        ∧ (failed = false → item = 4 ∨ item = 5 → tblGet 0 t.dieReady (item - 4) = s.clock ∧ tblGet 0 t.avenue (item - 4) = 0
            ∧ tblGet 0 t.refills (item - 4) = 0)
        ∧ t = { s with ready := t.ready, failed := t.failed, dieReady := t.dieReady, avenue := t.avenue, refresh := t.refresh
                       refills := t.refills })
  ∧ (∀ s : State, s.power = .recovery → (Goes (.pldmFirmwareUpdate true) s fun t => t.power = .on ∧ getX t 0 0x2000 = 4)
      ∧ exec (.pldmFirmwareUpdate false) s = .next s)
  ∧ ∀ (s : State) (m : Nat), (s.power = .recovery ∨ s.power = .on ∧ s.ready.getLsbD 3 = true) →
      (m ≠ 0 ∨ s.power = .recovery → Goes (.pldmMonitorControl m) s fun t =>
        ∃ v, (m = 0 → v = 1) ∧ t = { s with mgmt := s.mgmt ++ [{ number := m, value := v }], fresh := s.fresh + 1 })
      ∧ Goes (.spdmMessage m) s fun t => ∃ v, t = { s with mgmt := s.mgmt ++ [{ number := m, value := v }], fresh := s.fresh + 1 }

/-- R256, R290, R292: on a ready die a slot of 1000 clocks begins with its avenue under refresh, and 500 clocks later the window ends; once
each 1250 clocks the budget of every enabled context rises by its rate, up to its cap, in every core of the die; a group that has been ready
for 512 clocks, and a fibre left out of 16 issues, are starved. -/
def Sys2Proof.Stmt.TimeBrings : Prop :=
  ∀ (s : State) (die : Nat), die < 2 → s.ready.getLsbD (4 + die) = true →
    let now := s.clock - tblGet 0 s.dieReady die
    let slot := tblGet 0 s.avenue die
    (1000 * (slot + 1) ≤ now → Goes (.avenueSlot die) s fun t => tblGet 0 t.avenue die = slot + 1 ∧ tblGet false t.refresh die = true
      ∧ t = { s with avenue := t.avenue, refresh := t.refresh })
    ∧ (1000 * slot + 500 ≤ now → Goes (.refreshWindowEnd die) s fun t => tblGet false t.refresh die = false
      ∧ t = { s with refresh := t.refresh })
    ∧ (1250 * (tblGet 0 s.refills die + 1) ≤ now → Goes (.refillPoint die) s fun t =>
      tblGet 0 t.refills die = tblGet 0 s.refills die + 1 ∧ t = { s with budgets := t.budgets, refills := t.refills }
      ∧ ∀ f < 129, ∀ c < 256, tblGet 0 t.budgets (256 * f + c)
          = if ctxExists s f ∧ (getX s f 0x100).getLsbD 0 = true ∧ c / 128 = die then
              Nat.min (tblGet 0 s.budgets (256 * f + c) + (getX s f 0x108).toNat % 2 ^ 32) ((getX s f 0x110).toNat % 2 ^ 32)
            else tblGet 0 s.budgets (256 * f + c))
    ∧ ∀ gid g, getGroup s gid = some g →
      (g.starvedAt = none → 512 ≤ g.waited → Goes (.groupStarved gid) s fun t =>
        getGroup t gid = some { g with starvedAt := some s.clock } ∧ OnlyGroup gid s t)
      ∧ ∀ lane f, g.fibre lane = f → lane < g.fibres.length → f.starvedAt = none → 16 ≤ f.missed → f.live = true →
        Goes (.fibreStarved gid lane) s fun t => OnlyGroup gid s t ∧ ∃ h, getGroup t gid = some h ∧ h = { g with fibres := h.fibres }
          ∧ h.fibre lane = { f with starvedAt := some s.clock } ∧ ∀ l, l ≠ lane → h.fibre l = g.fibre l

/-- R53, R86, R87, R325: a fetch for a running fibre that does not hold its packet brings the three words of memory at its packet's address,
little-endian, each read as one event, to every running fibre at the same counter that awaits it, whose later fetches follow what this one
followed. The packet's page is in the core's
translation cache, executable, and nothing holds its bytes; they are under no other key. -/
def Obligations.FetchBringsPacket : Prop :=
  ∀ (s : State) (gid lane pa : Nat) (g : Group) (e : TlbEntry), getGroup s gid = some g → lane ∈ runningLanes s gid g →
    let base := (g.fibre lane).pc.toNat / 12 * 12
    let awaits (l : Nat) : Bool := (g.fibre l).pc == (g.fibre lane).pc && !hasPacket (g.fibre l) && !fenceHolds s gid l (g.fibre l)
    let who := fetchAgent g (((runningLanes s gid g).filter awaits).headD 0)
    let key := pageKey e.pte (ctxKey s g.ctx)
    awaits lane = true → base + 12 ≤ 2 ^ 57 → s.ats = [] →
    (∀ k < 12, tlbHit s (coreOf gid) g.pasid (base + k) = some e) → e.ats = false → e.pte.getLsbD 6 = true →
    pa = e.pa + (base - e.base) → tierOf s e.pa ≤ 2 → e.pte.getLsbD (57 + tierOf s e.pa) = true →
    pa + 12 ≤ 2 ^ 60 → keyBusy s (ctxKey s g.ctx) = false → (∀ k < 12, moveOf s (pa + k) = none) →
    (∀ k < 3, underHandover s (pa + 4 * k) = false ∧ copyOwns s (pa + 4 * k) = false ∧ itemReadyAt s (pa + 4 * k) = true
      ∧ damagedAt s (pa + 4 * k) 4 = false) →
    (∀ k < 3, ∀ n, ∀ i < 4, (foundAt s who (pa + 4 * k) n i).2 = none ∨ (foundAt s who (pa + 4 * k) n i).2 = some (keyNow s key)) →
    Goes (.instructionFetch gid lane) s fun t => ∃ h ws, getGroup t gid = some h ∧ h = { g with fibres := h.fibres }
      ∧ (∀ l, h.fibre l = if l ∈ runningLanes s gid g ∧ l < g.fibres.length ∧ awaits l = true then
          { g.fibre l with packet := some (base, ws), fetchFloor := latestOf t (fetchAfter g (g.fibre l)), fetchFence := none }
          else g.fibre l)
      ∧ ws.length = 3
      ∧ (∀ k < 3, ∃ n, ws.getD k 0 = BitVec.ofNat 32 (valueOf 4 fun i => (foundAt s who (pa + 4 * k) n i).1))
      ∧ (s.backs = [] → (∀ x ∈ s.past, x.sent = true) → ∀ k < 3,
          ws.getD k 0 = BitVec.ofNat 32 (valueOf 4 fun i => (cellAt s (locate s (pa + 4 * k + i))).1))
      ∧ (∀ n, n ≠ gid → getGroup t n = getGroup s n)
      ∧ t = { s with groups := t.groups, stale := t.stale, lines := t.lines, counters := t.counters, fresh := t.fresh, past := t.past
                     events := t.events, backs := t.backs }

namespace Sys2Proof.Stmt
open Sys2Proof.Machine

/-! ### Submission and command lists (13_command_lists.md, 17_weight_store.md) -/

/-- Doubleword k of an entry, a descriptor or a record. -/
def dwAt (e : List Dword) (k : Nat) : Dword := (e[k]?).getD 0

/-- A field of bits hi..lo of a doubleword. -/
def fieldOf (v : Dword) (hi lo : Nat) : Nat := v.toNat / 2 ^ lo % 2 ^ (hi + 1 - lo)

/-- The DEP condition of an entry (R282): none, every earlier launch triggered or complete and every copy complete, or everything
complete. -/
def DepMet (s : State) (r : Run) (dep : Nat) : Prop :=
  dep = 0
  ∨ (dep = 1 ∧ (∀ u ∈ r.launches, ∀ l, findLaunch s u = some l → l.groups ≤ l.trigGroups) ∧ ∀ c ∈ r.copies, ∀ k ∈ s.copies, k.id ≠ c)
  ∨ (dep = 2 ∧ (∀ u ∈ r.launches, findLaunch s u = none) ∧ ∀ c ∈ r.copies, ∀ k ∈ s.copies, k.id ≠ c)

/-- The dispatcher's turn has come to record r of a queue, and it reads the four doublewords of the record's entry: s1 is the state then,
in which the ring goes on after the queue (R282, R283). -/
def EntryRead (s : State) (f q : Nat) (r : Run) (e : List Dword) (s1 : State) : Prop :=
  (getQueue s f q).cur = some r ∧ r.waiting = false ∧ r.regionWait = none ∧ queueLive s f q = true
  ∧ hubWaits s f q r.pc .read = false ∧ ringTurn s f q = true
  ∧ ∃ s0, hubReadDwords s f q r.pc 4 = some (e, s0)
    ∧ s1 = { s0 with ring := tblSet 0 s0.ring (fieldOf (sqcfg s f q) 43 38) (64 * f + q + 1) }

/-- The entry read is of a type, and may be carried out: its DEP condition holds, and takes its point of time order after the triggers and
completions that it waited for (R282). -/
def AtEntry (s : State) (f q : Nat) (r : Run) (e : List Dword) (type : Nat) (s1 : State) : Prop :=
  type < 12 ∧ fieldOf (dwAt e 0) 63 60 = type ∧ DepMet s r (fieldOf (dwAt e 0) 59 58)
  ∧ ∃ s0, EntryRead s f q r e s0
    ∧ s1 = if fieldOf (dwAt e 0) 59 58 = 0 then s0 else noteMark s0 { agent := .dispatcher (64 * f + q), after := r.after }

/-- The bits of an entry below DEP that it does not use, and its unused doublewords, are 0 (R283). -/
def Unused (e : List Dword) (used : Dword) (dws : List Nat) : Prop :=
  dwAt e 0 &&& 0x03FFFFFFFFFFFFFF &&& ~~~used = 0 ∧ ∀ k ∈ dws, dwAt e k = 0

/-- The record of the queue is r now; no other queue has changed, and nothing else of s. -/
def RecordAt (s t : State) (f q : Nat) (r : Run) : Prop :=
  getQueue t f q = { getQueue s f q with cur := some r }
  ∧ (∀ k, k ≠ 64 * f + q → tblGet ({} : Queue) t.queues k = tblGet {} s.queues k) ∧ t = { s with queues := t.queues }

/-- The record at its next entry, which stands at pc. -/
def onwards (r : Run) (pc : Dword) : Run := { r with pc := pc, index := r.index + 1, waiting := false, regionWait := none, entry := [] }

/-- The bytes that a value entry names: 8 with W set, else 4 (R283). -/
def widthOf (e : List Dword) : Nat := if (dwAt e 0).getLsbD 53 then 8 else 4

/-- A value entry's address is aligned, and without W the high halves of its values are 0 (R283). -/
def ValueFits (e : List Dword) (dws : List Nat) : Prop :=
  (dwAt e 1).toNat % widthOf e = 0 ∧ (widthOf e = 8 ∨ ∀ k ∈ dws, (dwAt e k).toNat < 2 ^ 32)

/-- CMP of a value entry on what its location holds (R283). -/
def Compares (e : List Dword) (v : Nat) : Prop :=
  let m := (dwAt e 3).toNat
  let a := v &&& m
  let b := (dwAt e 2).toNat &&& m
  match fieldOf (dwAt e 0) 55 54 with
  | 0 => a = b
  | 1 => a ≠ b
  | 2 => b ≤ a
  | _ => a < b

/-- A dispatcher's read at an address of n bytes succeeds now, and leaves s'. -/
def HubSees (s : State) (f q : Nat) (va : Dword) (n v : Nat) (s' : State) : Prop :=
  hubWaits s f q va .read = false
    ∧ ∃ bytes, hubRead s f q va n = some (bytes, s') ∧ v = valueOf n fun k => (bytes[k]?).getD 0

/-- The n bytes of a value, lowest first (R6). -/
def littleEndian (n v : Nat) : List Byte := (List.range n).map fun k => BitVec.ofNat 8 (v / 256 ^ k)

/-- A launch descriptor keeps its limits (R286). -/
def DescriptorFits (d : List Dword) : Prop :=
  let width := 8 * 2 ^ fieldOf (dwAt d 3) 1 0
  let rows := fieldOf (dwAt d 3) 19 9
  (dwAt d 0).toNat % 4 = 0 ∧ (dwAt d 0).toNat < 2 ^ 57
  ∧ (fieldOf (dwAt d 2) 15 0 + 1) * (fieldOf (dwAt d 2) 31 16 + 1) * (fieldOf (dwAt d 2) 47 32 + 1) ≤ 2 ^ 32
  ∧ fieldOf (dwAt d 2) 49 48 ≠ 3 ∧ fieldOf (dwAt d 2) 58 56 ≤ 4 ∧ fieldOf (dwAt d 2) 63 59 = 0
  ∧ fieldOf (dwAt d 3) 8 2 < width ∧ rows % 8 = 0 ∧ 8 ≤ rows ∧ rows ≤ (if width = 64 then 512 else 1024)
  ∧ fieldOf (dwAt d 3) 31 20 ≤ 3072 ∧ fieldOf (dwAt d 3) 63 48 = 0 ∧ ∀ k, 5 ≤ k → dwAt d k = 0

/-- The launch that a descriptor declares, for record r of a queue (R37, R286). -/
def declared (s : State) (f q : Nat) (r : Run) (d : List Dword) : Launch :=
  { uid := s.nextId, ctx := f, part := ctxPart s f, queue := q, record := r.id, pasid := queuePasid s f q
    entry := dwAt d 0, arg := dwAt d 1
    gx := fieldOf (dwAt d 2) 15 0 + 1, gy := fieldOf (dwAt d 2) 31 16 + 1, gz := fieldOf (dwAt d 2) 47 32 + 1
    cls := 2 ^ fieldOf (dwAt d 2) 49 48, nstage := fieldOf (dwAt d 2) 51 50 + 1, prio := fieldOf (dwAt d 2) 53 52
    fullres := (dwAt d 2).getLsbD 54, swap := (dwAt d 2).getLsbD 55, lslots := fieldOf (dwAt d 2) 58 56
    width := 8 * 2 ^ fieldOf (dwAt d 3) 1 0, live := fieldOf (dwAt d 3) 8 2 + 1, regs := fieldOf (dwAt d 3) 19 9
    scratch := fieldOf (dwAt d 3) 31 20, rto := fieldOf (dwAt d 3) 47 32
    launch := (dwAt d 4).extractLsb' 0 32, regions := (dwAt d 4).extractLsb' 32 32, lastProgress := s.clock
    order := some (s.events - 1) }

/-- A hart whose wait a write to 8 bytes of the place p ends: its Zawrs reservation covers one of them (R293). -/
def wokenBy (p : Nat) (h : Hart) : Hart :=
  match h.resv with
  | some r => if r.1 < p + 8 ∧ p < r.1 + r.2.1 then { h with wrs := none } else h
  | none => h

/-- What a completed Deferrable Memory Write leaves: its status joins the completions (R279). -/
def Completed (s t : State) (f q status : Nat) : Prop := t.completions = s.completions ++ [(f, q, status)]

/-- The record ended with a code at its current entry: it is no longer current, and its status waits for what it started (R281). A
record that has noted an error already keeps it. -/
def EndsWith (t : State) (f q : Nat) (r : Run) (code : Nat) : Prop :=
  (getQueue t f q).cur = none
    ∧ (r.code = 0 → (∃ u ∈ r.launches, (findLaunch t u).isSome = true) →
      { r with code := code, errIndex := r.index, ended := true } ∈ (getQueue t f q).ending)

/-- A region command of an entry (R283). -/
def regionCommand (s : State) (f q : Nat) (type : Nat) (e : List Dword) : RegionCmd :=
  { id := s.nextId, ctx := f, queue := q, part := ctxPart s f, kind := type, region := fieldOf (dwAt e 0) 36 32
    die := fieldOf (dwAt e 0) 37 37, first := fieldOf (dwAt e 1) 31 0, count := fieldOf (dwAt e 1) 63 32
    manifest := dwAt e 1, pasid := queuePasid s f q }

/-- The granules of an open are some of a die's 4096, in avenues of the partition: 256 granules make an avenue (R255, R257, R317). -/
def GranulesMay (s : State) (c : RegionCmd) : Prop :=
  let avenues := fieldOf (pshare s c.part) (if c.die = 0 then 15 else 31) (if c.die = 0 then 0 else 16)
  0 < c.count ∧ c.first + c.count ≤ 4096 ∧ ∀ k, c.first ≤ k → k < c.first + c.count → avenues / 2 ^ (k / 256) % 2 = 1

/-- What a region command needs of its entry (R283). -/
def RegionEntryFits (s : State) (f q : Nat) (e : List Dword) (type : Nat) : Prop :=
  (type = 8 ∧ Unused e 0x0000001F00000000 [2, 3])
  ∨ (type = 9 ∧ Unused e 0x0000003F00000000 [2, 3] ∧ GranulesMay s (regionCommand s f q 9 e))
  ∨ (type = 10 ∧ Unused e 0x0000001F00000000 [1, 2, 3])

/-- Placed groups are admitted (R260): a point of time order after what the launch waited for, which the events of their fibres follow. -/
def AdmittedAt (s1 t : State) (l : Launch) (gids : List Nat) : Prop :=
  let s2 := noteMark s1 { agent := .admission, after := l.order.toList }
  t = { s2 with launches := t.launches, groups := t.groups }
  ∧ ∀ n, getGroup t n = (getGroup s1 n).map fun g => if n ∈ gids then { g with
      since := some s1.events, fibres := g.fibres.map fun f => { f with floor := some s1.events } } else g

/-- The instruction that carries out an entry of a type (R283). -/
def commandOf (f q : Nat) : Nat → Option Instr
  | 0 => some (.cmdLaunch f q)
  | 1 => some (.cmdCopy f q)
  | 2 => some (.cmdWaitOnValue f q)
  | 3 => some (.cmdSignal f q)
  | 4 => some (.cmdSkipIf f q)
  | 5 => some (.cmdJump f q)
  | 6 => some (.cmdCall f q)
  | 7 => some (.cmdReturn f q)
  | 8 => some (.cmdSeal f q)
  | 9 => some (.cmdOpen f q)
  | 10 => some (.cmdRelease f q)
  | 11 => some (.cmdNotify f q)
  | _ => none

end Sys2Proof.Stmt

/-- R278 to R281: a submission of 128 bytes at a multiple of 128 in a queue's page is accepted where the queue is on, has room and its
dispatcher has taken no record on this clock, and completes Successful (0); where it is not it leaves nothing and completes with Request Retry
(2). One of another length or at another place leaves nothing and completes as an Unsupported Request (1: log 122); any other store there is
discarded. The dispatcher takes the oldest record of a queue that has none current: a valid one begins at its list's first entry. -/
def Sys2Proof.Stmt.RecordsAreTaken : Prop :=
  ∀ (s : State) (f q : Nat),
    (∀ offset record, s.ready.getLsbD 18 = true → f < 129 → q < 64 →
      (offset % 128 = 0 → offset < 4096 → record.length = 16 →
        (mustRetry s f q = true → Goes (.submitDmw f q offset record) s fun t =>
          Completed s t f q 2 ∧ t = { s with completions := t.completions })
        ∧ (mustRetry s f q = false → Goes (.submitDmw f q offset record) s fun t =>
          RecordAccepted s t f q record ∧ Completed s t f q 0
          ∧ t = { s with queues := t.queues, intake := t.intake, contexts := t.contexts, completions := t.completions, past := t.past
                         events := t.events, backs := t.backs }))
      ∧ (offset % 128 ≠ 0 ∨ 4096 ≤ offset ∨ record.length ≠ 16 → Goes (.submitDmw f q offset record) s fun t =>
          Completed s t f q 1 ∧ t = { s with completions := t.completions }))
    ∧ (∀ offset, exec (.submissionPageStore f q offset) s = .next s)
    ∧ ∀ d0 d1 d2 rest more, (getQueue s f q).cur = none → (getQueue s f q).pending = ([d0, d1, d2] ++ rest) :: more →
      queueLive s f q = true →
      (fieldOf d0 63 56 = 1 → fieldOf d0 55 32 = 0 → (∀ d ∈ rest, d = 0) → d1.toNat % 32 = 0 → d2.toNat % 8 = 0 →
        Goes (.dispatchRecord f q) s fun t =>
          getQueue t f q = { getQueue s f q with
            pending := more, cur := some { id := s.nextId, tag := d0.extractLsb' 0 32, status := d2, pc := d1 } }
          ∧ (∀ k, k ≠ 64 * f + q → tblGet ({} : Queue) t.queues k = tblGet {} s.queues k)
          ∧ t = { s with queues := t.queues, nextId := s.nextId + 1 })
      ∧ (fieldOf d0 63 56 ≠ 1 ∨ fieldOf d0 55 32 ≠ 0 ∨ d1.toNat % 32 ≠ 0 ∨ d2.toNat % 8 ≠ 0 ∨ (∃ d ∈ rest, d ≠ 0) → Goes (.dispatchRecord f q) s fun t =>
          (getQueue t f q).cur = none ∧ (getQueue t f q).pending = more)

/-- R283: jump, call and return send a record to another entry of its list, a call keeping the way back, at most 8 deep. -/
def Sys2Proof.Stmt.ListControlGoes : Prop :=
  ∀ (s s1 : State) (f q : Nat) (r : Run) (e : List Dword),
    (AtEntry s f q r e 5 s1 → Unused e 0 [2, 3] → (dwAt e 1).toNat % 32 = 0 →
      Goes (.cmdJump f q) s fun t => RecordAt s1 t f q (onwards r (dwAt e 1)))
    ∧ (AtEntry s f q r e 6 s1 → Unused e 0 [2, 3] → (dwAt e 1).toNat % 32 = 0 →
      (r.stack.length < 8 → Goes (.cmdCall f q) s fun t =>
        RecordAt s1 t f q (onwards { r with stack := (r.pc + 32) :: r.stack } (dwAt e 1)))
      ∧ (8 ≤ r.stack.length → Goes (.cmdCall f q) s fun t => EndsWith t f q r 6))
    ∧ (AtEntry s f q r e 7 s1 → Unused e 0 [1, 2, 3] →
      (∀ back rest, r.stack = back :: rest → Goes (.cmdReturn f q) s fun t =>
        RecordAt s1 t f q (onwards { r with stack := rest } back))
      ∧ (r.stack = [] → Goes (.cmdReturn f q) s fun t => (getQueue t f q).cur = none))

/-- R283: wait-on-value passes where CMP holds of what its location holds and else waits, and each poll in its queue's turn tries again; skip-if goes N entries
further where CMP holds; signal stores its value, or adds it, as one access. Each moves 4 bytes, or 8 with W. -/
def Sys2Proof.Stmt.ListValuesAct : Prop :=
  ∀ (s s1 s2 : State) (f q v : Nat) (r : Run) (e : List Dword), let n := widthOf e
    (AtEntry s f q r e 2 s1 → Unused e 0x00E0000000000000 [] → ValueFits e [2, 3] → HubSees s1 f q (dwAt e 1) n v s2 →
      (Compares e v → Goes (.cmdWaitOnValue f q) s fun t => RecordAt s2 t f q (onwards r (r.pc + 32)))
      ∧ (¬ Compares e v → Goes (.cmdWaitOnValue f q) s fun t => RecordAt s2 t f q { r with waiting := true, entry := e }))
    ∧ ((getQueue s f q).cur = some r → r.waiting = true → r.entry = e → queueLive s f q = true → ringTurn s f q = true →
      HubSees s f q (dwAt e 1) n v s2 →
      (Compares e v → Goes (.waitOnValuePoll f q) s fun t =>
        RecordAt { s2 with ring := tblSet 0 s2.ring (fieldOf (sqcfg s f q) 43 38) (64 * f + q + 1) } t f q (onwards r (r.pc + 32)))
      ∧ (¬ Compares e v → exec (.waitOnValuePoll f q) s = .next s2))
    ∧ (AtEntry s f q r e 4 s1 → Unused e 0x00E0FFFF00000000 [] → ValueFits e [2, 3] → fieldOf (dwAt e 0) 47 32 ≠ 0 →
      HubSees s1 f q (dwAt e 1) n v s2 →
      (Compares e v → Goes (.cmdSkipIf f q) s fun t =>
        RecordAt s2 t f q (onwards r (r.pc + BitVec.ofNat 64 (32 * (fieldOf (dwAt e 0) 47 32 + 1)))))
      ∧ (¬ Compares e v → Goes (.cmdSkipIf f q) s fun t => RecordAt s2 t f q (onwards r (r.pc + 32))))
    ∧ (AtEntry s f q r e 3 s1 → Unused e 0x00A0000000000000 [3] → ValueFits e [2] →
      ((dwAt e 0).getLsbD 55 = false → hubWaits s1 f q (dwAt e 1) .write = false → ∀ s3,
        hubWrite s1 f q (dwAt e 1) (littleEndian n (dwAt e 2).toNat) = some s3 →
        Goes (.cmdSignal f q) s fun t => RecordAt s3 t f q (onwards r (r.pc + 32)))
      ∧ ((dwAt e 0).getLsbD 55 = true → hubWaits s1 f q (dwAt e 1) .both = false → ∀ h, hubSpot s1 f q (dwAt e 1) n .both = some h →
        let added (old : List Byte) : Option (List Byte) :=
          some (littleEndian n (valueOf n (fun k => (old[k]?).getD 0) + (dwAt e 2).toNat))
        Goes (.cmdSignal f q) s fun t =>
          RecordAt (updateSpace h.after h.who 0 h.key h.pa n added).2 t f q (onwards r (r.pc + 32))))

/-- R283, R286, R293: a launch entry passes the launch of its descriptor to admission; a copy entry starts a copy of the hub's engines; a
region entry waits for its command's effect; notify stores its value, which ends the wait of every hart whose Zawrs reservation covers it,
and in mode 1 raises the user trap of its hart, whose value is lost while the trap is pending or active. -/
def Sys2Proof.Stmt.ListStartsWork : Prop :=
  ∀ (s s1 s2 : State) (f q : Nat) (r : Run) (e d : List Dword),
    (AtEntry s f q r e 0 s1 → Unused e 0 [2, 3] → (dwAt e 1).toNat % 128 = 0 →
      hubWaits s1 f q (dwAt e 1) .read = false →
      hubReadDwords s1 f q (dwAt e 1) 16 = some (d, s2) →
      (DescriptorFits d → Goes (.cmdLaunch f q) s fun t =>
        RecordAt { s2 with nextId := s2.nextId + 1, launches := s2.launches ++ [declared s2 f q r d] } t f q
          (onwards { r with launches := r.launches ++ [s2.nextId] } (r.pc + 32)))
      ∧ (¬ DescriptorFits d → Goes (.cmdLaunch f q) s fun t => EndsWith t f q r 2))
    ∧ (AtEntry s f q r e 1 s1 → Unused e 0 [2, 3] → (dwAt e 1).toNat % 64 = 0 →
      hubWaits s1 f q (dwAt e 1) .read = false →
      hubReadDwords s1 f q (dwAt e 1) 8 = some (d, s2) → hubRecordOk d = true →
      Goes (.cmdCopy f q) s fun t => ∃ c : Copy,
        c.id = s2.nextId ∧ c.hub = true ∧ c.ctx = f ∧ c.part = ctxPart s2 f ∧ c.pasid = queuePasid s f q ∧ c.record = d ∧ c.begun = false
        ∧ c.own = some (s2.events - 1)
        ∧ RecordAt { s2 with nextId := s2.nextId + 1, copies := s2.copies ++ [c] } t f q
          (onwards { r with copies := r.copies ++ [s2.nextId] } (r.pc + 32)))
    ∧ (∀ type i, AtEntry s f q r e type s1 → RegionEntryFits s1 f q e type → commandOf f q type = some i → Goes i s fun t =>
        RecordAt { s1 with nextId := s1.nextId + 1, regionCmds := s1.regionCmds ++ [regionCommand s1 f q type e] } t f q
          { r with regionWait := some s1.nextId })
    ∧ (AtEntry s f q r e 11 s1 → Unused e 0x00C0000000000000 [] → (dwAt e 1).toNat % 8 = 0 → (dwAt e 3).toNat < 96 →
      hubWaits s1 f q (dwAt e 1) .write = false → ∀ spot, hubSpot s1 f q (dwAt e 1) 8 .write = some spot →
      s2 = writeMem spot.after { spot.who with sent := true } spot.key spot.pa (littleEndian 8 (dwAt e 2).toNat) →
      let woken (n : Nat) : Hart :=
        if spot.pa < 2 ^ 60 then wokenBy (locate s2 (forwarded s2 spot.pa)) (getHart s n) else getHart s n
      (fieldOf (dwAt e 0) 55 54 = 0 → Goes (.cmdNotify f q) s fun t =>
        RecordAt { s2 with harts := t.harts } t f q (onwards r (r.pc + 32)) ∧ ∀ n, getHart t n = woken n)
      ∧ (fieldOf (dwAt e 0) 55 54 = 1 → spot.pa < 2 ^ 60 → Goes (.cmdNotify f q) s fun t =>
          let n := (dwAt e 3).toNat
          let h := woken n
          RecordAt { s2 with harts := t.harts } t f q (onwards r (r.pc + 32)) ∧ (∀ m, m ≠ n → getHart t m = woken m)
          ∧ getHart t n =
            if h.nutstat &&& 3 = 0 then { h with nutval := dwAt e 2, nutstat := h.nutstat ||| 1 } else { h with nutstat := h.nutstat ||| 4 }))

/-- R281, R283: an entry of a type that is none, with DEP 3, or with a used address misaligned, ends its record with CODE 1; one that the
dispatcher cannot read ends it with CODE 8. A record whose launches and copies have completed stores its status word when it ends: bit 63,
the code, the index of the entry at fault, and its tag. -/
def Sys2Proof.Stmt.RecordsEnd : Prop :=
  ∀ (s s1 : State) (f q : Nat) (r : Run) (e : List Dword),
    (∀ type i, EntryRead s f q r e s1 → commandOf f q type = some i →
      (12 ≤ fieldOf (dwAt e 0) 63 60 ∨ fieldOf (dwAt e 0) 59 58 = 3) → Goes i s fun t => EndsWith t f q r 1)
    ∧ (∀ type i, AtEntry s f q r e type s1 → commandOf f q type = some i →
      (type = 0 ∧ (dwAt e 1).toNat % 128 ≠ 0 ∨ type = 1 ∧ (dwAt e 1).toNat % 64 ≠ 0
        ∨ (type = 2 ∨ type = 3 ∨ type = 4) ∧ (dwAt e 1).toNat % widthOf e ≠ 0 ∨ (type = 5 ∨ type = 6) ∧ (dwAt e 1).toNat % 32 ≠ 0
        ∨ type = 11 ∧ (dwAt e 1).toNat % 8 ≠ 0) → Goes i s fun t => EndsWith t f q r 1)
    ∧ (∀ type i, (getQueue s f q).cur = some r → r.waiting = false → r.regionWait = none → queueLive s f q = true →
      hubWaits s f q r.pc .read = false → ringTurn s f q = true →
      hubReadDwords s f q r.pc 4 = none → commandOf f q type = some i → Goes i s fun t => EndsWith t f q r 8)
    ∧ ∀ s2, AtEntry s f q r e 7 s1 → Unused e 0 [1, 2, 3] → r.stack = [] → r.status.toNat % 8 = 0 → r.status ≠ 0 →
      (∀ k ∈ s.queues, k.2.ending = []) → (∀ u ∈ r.launches, findLaunch s u = none) → (∀ c ∈ r.copies, ∀ k ∈ s.copies, k.id ≠ c) →
      s.ats = [] → hubWaits s1 f q r.status .write = false → r.errIndex < 65536 → r.code < 256 →
      hubWrite (if r.after = [] then s1 else noteMark s1 { agent := .dispatcher (64 * f + q), after := r.after }) f q r.status (littleEndian 8
        (2 ^ 63 + (if r.code ≠ 0 then r.code else if r.refused then 3 else 0) * 2 ^ 48 + (if r.code ≠ 0 then r.errIndex else 0) * 2 ^ 32
          + r.tag.toNat)) = some s2 →
      Goes (.cmdReturn f q) s fun t => getQueue t f q = { getQueue s f q with cur := none } ∧ t = { s2 with queues := t.queues }

/-- R257 to R259, R281, R320: a region command whose region no admitted launch uses and no copy writes takes effect, and its record goes on.
Opening free granules makes them an open region of their partition, the granules that another tenant held zeroed; opening a sealed region
opens it; releasing a region frees its granules; sealing an open region whose image verifies seals it with the frames of its remainder.
Every other one ends its record with CODE 1, and a seal whose image does not verify with CODE 5; a seal whose reads must wait tries again. -/
def Obligations.RegionCommandsAct : Prop :=
  ∀ (s : State) (id : Nat) (c : RegionCmd) (r : Run), s.regionCmds.find? (fun x => x.id == id) = some c →
    (getQueue s c.ctx c.queue).cur = some r → r.regionWait = some id → regionFree s c = true →
    let at' := 32 * c.part + c.region
    let old := tblFind s.regionsOf at'
    let gone := s.regionCmds.filter fun x => x.id != id
    let s0 := regionEvent s c
    let pinsLess (t : State) (frames : List Nat) : Prop := ∀ n, pinCount t (n * 2 ^ 18) = pinCount s (n * 2 ^ 18) - frames.count n
    let others (t : State) : Prop := ∀ k, k ≠ at' → tblFind t.regionsOf k = tblFind s.regionsOf k
    let goesOn (t : State) : Prop := (getQueue t c.ctx c.queue).cur = some (onwards r (r.pc + 32)) ∧ t.regionCmds = gone ∧ others t
    (c.kind = 9 → old = none → (∀ e ∈ s.regionsOf, ¬ (e.2.die = c.die ∧ overlaps e.2.first e.2.count c.first c.count = true)) →
      Goes (.regionCommandEffect id) s fun t => goesOn t
        ∧ tblFind t.regionsOf at' = some { die := c.die, first := c.first, count := c.count }
        ∧ (∀ k, k / 2 ^ 19 < c.first + 4096 * c.die ∨ c.first + c.count + 4096 * c.die ≤ k / 2 ^ 19 →
            tblGet 0 t.weights k = tblGet 0 s.weights k)
        ∧ ∀ k, c.first + 4096 * c.die ≤ k / 2 ^ 19 → k / 2 ^ 19 < c.first + c.count + 4096 * c.die →
          tblGet 0 t.granuleTenant (k / 2 ^ 19) = tenantOf s (ctxKey s c.ctx) + 1
          ∧ tblGet 0 t.weights k = if tblGet 0 s.granuleTenant (k / 2 ^ 19) = tenantOf s (ctxKey s c.ctx) + 1 then tblGet 0 s.weights k else 0)
    ∧ (∀ x, c.kind = 9 → old = some x → x.isSealed = true → Goes (.regionCommandEffect id) s fun t => goesOn t
        ∧ tblFind t.regionsOf at' = some { x with isSealed := false, frames := [], hashes := [] } ∧ pinsLess t x.frames)
    ∧ (∀ x, c.kind = 10 → old = some x → Goes (.regionCommandEffect id) s fun t => goesOn t
        ∧ tblFind t.regionsOf at' = none ∧ pinsLess t x.frames)
    ∧ (∀ x frames s2, c.kind = 8 → old = some x → x.isSealed = false → verifyImage s0 c x = .ok (frames, s2) →
        Goes (.regionCommandEffect id) s fun t => goesOn t
          ∧ tblFind t.regionsOf at' = some { x with isSealed := true, frames := frames }
          ∧ ∀ n, pinCount t (n * 2 ^ 18) = pinCount s (n * 2 ^ 18) + frames.count n)
    ∧ (∀ x va, c.kind = 8 → old = some x → x.isSealed = false → verifyImage s0 c x = .error (.step va) →
        Goes (.regionCommandEffect id) s fun t => EndsWith t c.ctx c.queue { r with regionWait := none } 5)
    ∧ (∀ x va, c.kind = 8 → old = some x → x.isSealed = false → verifyImage s0 c x = .error (.wait va) →
        Goes (.regionCommandEffect id) s fun t => t = { s with ats := t.ats })
    ∧ ((c.kind = 8 ∧ (∀ x, old = some x → x.isSealed = true)) ∨ (c.kind = 9 ∧ ∃ x, old = some x ∧ x.isSealed = false)
        ∨ (c.kind = 10 ∧ old = none) → Goes (.regionCommandEffect id) s fun t =>
          EndsWith t c.ctx c.queue { r with regionWait := none } 1 ∧ t.regionsOf = s.regionsOf)

/-- R38, R288, R317: a position that is placed is placed whole: its groups come to stand together, at free slots of one core cluster of a
ready die on which its launch may stand, those of one cluster instance on distinct cores, and every other group stays as it is. -/
def Obligations.PositionsArePlacedWhole : Prop :=
  ∀ (s t : State) (part : Nat) (dies : List Nat) (insts : List (List Group)) (gids : List Nat),
    placePosition s part dies insts = some (gids, t) → fieldOf (pquota s part) 58 55 + fieldOf (pquota s part) 54 50 ≤ 16 →
    gids.length = (insts.map List.length).sum ∧ gids.Nodup
    ∧ (∃ parts : List (List Nat), parts.flatten = gids ∧ parts.map List.length = insts.map List.length
        ∧ ∀ p ∈ parts, (p.map coreOf).Nodup)
    ∧ (∃ k, k / 32 ∈ dies ∧ s.ready.getLsbD (4 + k / 32) = true ∧ ∀ n ∈ gids, n / 256 = k)
    ∧ (∀ n ∈ gids, getGroup s n = none ∧ (getGroup t n).isSome = true
        ∧ fieldOf (pquota s part) 58 55 ≤ n % 16 ∧ n % 16 < fieldOf (pquota s part) 58 55 + fieldOf (pquota s part) 54 50)
    ∧ ∀ n, n ∉ gids → getGroup t n = getGroup s n

/-- R40 to R42, R51, R52, R287: a launch whose regions are sealed becomes ready, or, where no core cluster could hold a position of it,
completes as refused; the next position of a launch that nothing holds back is placed whole; one that has waited 1 ms unplaced holds back
those after it; and a launch with a position outside the cores that has made no progress for its timeout sends each of its cores' kiosks a
residency record. -/
def Obligations.AdmissionSteps : Prop :=
  ∀ (s : State) (uid : Nat) (l : Launch), findLaunch s uid = some l →
    (l.ready = false → l.killed = false → (∀ r < 32, l.regions.getLsbD r = true →
        ∃ x, tblFind s.regionsOf (32 * l.part + r) = some x ∧ x.isSealed = true) →
      (mustRefuse s l = false → Goes (.launchReady uid) s fun t =>
        findLaunch t uid = some { l with ready := true, readyOrder := s.nextId, waitSince := some s.clock, lastProgress := s.clock }
        ∧ t = { s with launches := t.launches, nextId := s.nextId + 1 })
      ∧ (mustRefuse s l = true → Goes (.launchReady uid) s fun t => findLaunch t uid = none))
    ∧ (∀ gids s1, inAdmission s l = true → heldBack s l = false → l.nextPos < l.positions → l.fullres = false →
      placePosition s l.part (launchDies s l) (positionGroups l l.nextPos) = some (gids, s1) → Goes (.positionAdmit uid) s fun t =>
        AdmittedAt s1 t l gids ∧ findLaunch t uid = some { l with
          nextPos := l.nextPos + 1, blocking := false, waitSince := some s.clock })
    ∧ (∀ t0, inAdmission s l = true → admitNext s l = none → l.waitSince = some t0 → t0 + 1250000 ≤ s.clock →
      Goes (.admissionWaitExpiry uid) s fun t => t = { s with launches := t.launches } ∧ findLaunch t uid = some { l with blocking := true })
    ∧ (∀ gids s1, inAdmission s l = true → heldBack s l = false → l.nextPos = 0 → 0 < l.positions → l.fullres = true →
      placeMany s l (List.range l.positions) = some (gids, s1) → Goes (.positionAdmit uid) s fun t =>
        AdmittedAt s1 t l gids ∧ findLaunch t uid = some { l with
          nextPos := l.positions, blocking := false, waitSince := some s.clock })
    ∧ (l.ready = true → l.killed = false → l.nextPos < l.positions →
      l.lastProgress + 1250 * (if l.rto = 0 then 10000 else l.rto) ≤ s.clock → Goes (.residencyTimeout uid) s fun t =>
        (∃ m, findLaunch t uid = some { l with lastProgress := s.clock, swapping := m }
          ∧ (l.swap = false → m = l.swapping ∧ t = { s with launches := t.launches, kiosks := t.kiosks }))
        ∧ ∀ core, getKiosk t core = if ∃ e ∈ s.groups, e.2.uid = uid ∧ e.1 / 64 = core then
            { getKiosk s core with waiting := (getKiosk s core).waiting ++ [{
                cause := 0x13, gid := 0, part := l.part, vf := vfNumber l.ctx, mask := 0, detail := 0, counter := 0, progress := 0
                launch := l.launch, residency := true }] }
          else getKiosk s core)

namespace Sys2Proof.Stmt
open Sys2Proof.Machine

/-! ### Replay, invalidation, migration, contexts and register writes (15, 17, 19, 21_registers.md) -/

/-- The command that a started kiosk gives an entry of its replay buffer that it may end (R303). -/
def Ends (s : State) (core n : Nat) (e : Replay) : Prop :=
  tblFind s.replay (96 * core + n) = some e ∧ n < 96 ∧ (getKiosk s core).started = true
    ∧ e.cause ≠ 4 ∧ e.cause ≠ 5 ∧ e.cause ≠ 6 ∧ ∀ gid g, replayGroup s e.who = some gid → getGroup s gid = some g → g.saving = false

/-- The cached translations that a write of TLBINVC selects (R299): every one of its partition, or those of its PASID that hold part of
the pages that TLBINVA names. -/
def Selects (s : State) (f : Nat) (v : Dword) (p : BitVec 20) (base bits : Nat) : Prop :=
  let a := getX s f 0x128
  if v.getLsbD 2 then ∃ h ∈ ctxsOf s (ctxPart s f), p = ctxPasid s h ∨ ∃ q < 64, p = queuePasid s h q
  else p = v.extractLsb' 44 20 ∧
    (fieldOf a 17 0 = 0 ∨ (fieldOf a 56 18 * 2 ^ 18 < base + 2 ^ bits ∧ base < (fieldOf a 56 18 + fieldOf a 17 0) * 2 ^ 18))

/-- An access of a group that has gone through a translation and not taken its place. -/
def Through (s : State) (a : Access) (sel : BitVec 20 → Nat → Nat → Prop) : Prop :=
  a.held = false ∧ a.pa.isSome = true ∧ ∃ base bits g, a.tlbKey = some (base, bits) ∧ getGroup s a.gid = some g ∧ sel g.pasid base bits

/-- A register write reaches its register: its context exists where the register is a context's (R322, R348, R355). -/
def Reaches (s : State) (f : Nat) (ctx : Bool) : Prop :=
  s.ready.getLsbD 0 = true ∧ f < 129 ∧ (ctx = true → ctxExists s f = true)

/-- Only one expert register changes, to v. -/
def RegisterTo (s t : State) (f offset : Nat) (v : Dword) : Prop :=
  getX t f offset = v ∧ (∀ k, k ≠ 2 ^ 20 * f + offset → tblFind t.xreg k = tblFind s.xreg k) ∧ t = { s with xreg := t.xreg }

/-- The write is refused (R318, R339): nothing changes but the logs of its function and of the physical function, where it joins as
cause 1 while they hold fewer than 16. -/
def WriteRefused (s t : State) (f offset : Nat) : Prop :=
  t = { s with errLog := t.errLog, errOvf := t.errOvf }
  ∧ ∀ h, h = f ∨ h = 0 → (tblGet [] s.errLog h).length < 16 →
    tblGet [] t.errLog h = tblGet [] s.errLog h ++ [{
      addr := BitVec.ofNat 64 (0xF800000000000 + 0x100000 * f + offset), cause := 1, vf := vfNumber f, time := hubClock s % 2 ^ 40 }]

/-- The four runs of a PQUOTA value (R317): first, count and the limit of their resource. -/
def quotaRuns (v : Dword) : List (Nat × Nat × Nat) :=
  [(fieldOf v 58 55, fieldOf v 54 50, 16), (8 * fieldOf v 49 43, 8 * fieldOf v 42 35, 1024), (fieldOf v 34 33, fieldOf v 32 30, 4),
   (16 * fieldOf v 29 22, 16 * fieldOf v 21 14, 3072)]

/-- A PQUOTA value may be written (R318): its runs lie within their resources and apart from every other partition's, and no group of the
partition is resident. -/
def QuotaFits (s : State) (p : Nat) (v : Dword) : Prop :=
  (∀ r ∈ quotaRuns v, r.1 + r.2.1 ≤ r.2.2)
  ∧ (∀ i < 16, i ≠ p → ∀ n < 4, let a := (quotaRuns v).getD n (0, 0, 0)
      let b := (quotaRuns (getX s 0 (0x1100 + 8 * i))).getD n (0, 0, 0)
      ∀ k, ¬ (a.1 ≤ k ∧ k < a.1 + a.2.1 ∧ b.1 ≤ k ∧ k < b.1 + b.2.1))
  ∧ ∀ e ∈ s.groups, e.2.part ≠ p

/-- A PSHARE value may be written (R318): it names nothing that another partition has, and keeps the avenues of every region of its own. -/
def ShareFits (s : State) (p : Nat) (v : Dword) : Prop :=
  (∀ i < 16, i ≠ p → ∀ b < 52, ¬ (v.getLsbD b = true ∧ (getX s 0 (0x1180 + 8 * i)).getLsbD b = true))
  ∧ ∀ e ∈ s.regionsOf, e.1 / 32 = p → ∀ a < 16,
      256 * a < e.2.first + e.2.count → e.2.first < 256 * a + 256 → v.getLsbD (16 * e.2.die + a) = true

/-- A ladder on every resident position of a context starts (R328). -/
def LadderStarts (s t : State) (f : Nat) (why : LadderWhy) : Prop :=
  t = { s with ladders := t.ladders, nextId := s.nextId + 1, groups := t.groups }
  ∧ t.ladders = s.ladders ++ [{ id := s.nextId, ctx := f, why := why, set := residentPositions s f, t0 := s.clock }]
  ∧ (∀ e ∈ s.groups, e.2.ctx = f → (e.1, { e.2 with softReq := true }) ∈ t.groups)
  ∧ ∀ n, getGroup t n = (getGroup s n).map fun g => if (g.uid, g.pos) ∈ residentPositions s f then { g with softReq := true } else g

/-- Nothing that a context started is left, and its own registers read as at reset (R332). -/
def ContextCleared (t : State) (f : Nat) : Prop :=
  (∀ k ∈ t.queues, k.1 / 64 = f → k.2.pending = [] ∧ k.2.cur = none)
  ∧ getCtx t f = {} ∧ (∀ l ∈ t.launches, l.ctx = f → l.killed = true)
  ∧ (∀ core < 256, tblGet 0 t.budgets (256 * f + core) = 0)
  ∧ (∀ offset, 0x100 ≤ offset → offset < 0x198 → getX t f offset = getX State.reset f offset)

end Sys2Proof.Stmt

/-- R303, R304: the kiosk's command ends an entry of the replay buffer. Replay: the access translates again and, where that succeeds,
proceeds; a copy and a fetch try again. Abandon: an access finishes without writing a register, with the page trap where asked; a copy
stops with its ticket's state 2 and the cause's trap code. Here nothing else is held. -/
def Obligations.ReplayEntriesEnd : Prop :=
  ∀ (s : State) (core n : Nat) (e : Replay), Ends s core n e →
    let left := tblErase s.replay (96 * core + n)
    (∀ gid lanes g, e.who = .fetch gid lanes → getGroup s gid = some g → (∀ l ∈ lanes, l < g.fibres.length) → (∀ a ∈ s.accesses, a.held = false) →
      let freed (t : State) (h : Group) : Prop := t.replay = left ∧ ∀ l, h.fibre l = if l ∈ lanes then
        { g.fibre l with fetchHeld := false } else g.fibre l
      (Goes (.rbcmdReplay core n) s fun t => ∃ h, getGroup t gid = some h ∧ freed t h ∧ t = { s with replay := left, groups := t.groups })
      ∧ (Goes (.rbcmdAbandon core n) s fun t => ∃ h, getGroup t gid = some h ∧ freed t h ∧ t = { s with replay := left, groups := t.groups })
      ∧ (Goes (.rbcmdAbandonPageTrap core n) s fun t => ∃ h, getGroup t gid = some h ∧ freed t h
        ∧ ((∀ l ∈ lanes, l < 64) → TrapJoined s t h gid 0x0C lanes e.va)))
    ∧ (∀ id c, e.who = .copy id → findCopy s id = some c → (∀ a ∈ s.accesses, a.held = false) →
      (Goes (.rbcmdReplay core n) s fun t => findCopy t id = some { c with held := false }
        ∧ t = { s with replay := left, copies := t.copies })
      ∧ (c.hub = false → Goes (.rbcmdAbandon core n) s fun t => findCopy t id = none
          ∧ (getTicket t c.core c.place).state = 2
          ∧ (getTicket t c.core c.place).cause = if e.cause = 2 then 0x0E else if e.cause = 3 then 0x0D else 0x0C))
    ∧ ∀ id a g, e.who = .access id → findAccess s id = some a → a.held = true → a.pa = none → getGroup s a.gid = some g →
      (∀ b ∈ s.accesses, b.held = true → b.id = id) →
      (∀ pa leaf base bits s1, translate s (coreOf a.gid) g.pasid a.addr (needOf a.kind) = (.ok pa leaf base bits, s1) → pa < 2 ^ 60 →
        let inL1 : Bool := a.hint == 3 && holdsLine s1 (coreOf a.gid) (pageKey leaf (ctxKey s1 g.ctx)) (locate s1 pa / 128)
        Goes (.rbcmdReplay core n) s fun t =>
          findAccess t id = some { a with held := false, needsAts := false, pa := some pa, tlbKey := some (base, bits), shared := pteSH leaf
                                          least := leastScope s1 pa leaf (if inL1 then 0 else a.least) }
          ∧ t = { s1 with replay := left, accesses := t.accesses })
      ∧ (Goes (.rbcmdAbandon core n) s fun t => findAccess t id = none ∧ t.replay = left
          ∧ ∀ h, getGroup t a.gid = some h → h.regs = g.regs)
      ∧ (a.lane < 64 → Goes (.rbcmdAbandonPageTrap core n) s fun t => findAccess t id = none ∧ t.replay = left
          ∧ ∀ h, getGroup t a.gid = some h → h.regs = g.regs ∧ TrapJoined s t h a.gid 0x0C [a.lane] e.va)

/-- R299, R300: GO of TLBINVC drops the translations that it selects from every cache, and the requests for such translations, which are made
anew, and is busy until the accesses that had gone through one are gone or held; the host's request drops those of its pages, and its completion follows in the same way. -/
def Sys2Proof.Stmt.TranslationsInvalidated : Prop :=
  ∀ (s : State) (f : Nat) (v : Dword),
    (Reaches s f true → v.getLsbD 0 = true → tblFind s.tlbInv f = none → Goes (.tlbinvGo f v) s fun t => ∃ inv : Invalidation,
      t = { s with xreg := t.xreg, tlb := t.tlb, tlbInv := tblInsert s.tlbInv f inv, ats := t.ats, accesses := t.accesses, copies := t.copies }
      ∧ (∀ r, r ∈ t.ats ↔ r ∈ s.ats ∧ ¬ Selects s f v r.pasid r.va 12)
      ∧ (∀ r ∈ s.ats, Selects s f v r.pasid r.va 12 → ∀ a ∈ t.accesses, accessWaits t r a = false)
      ∧ t.accesses.map (fun a => { a with needsAts := false }) = s.accesses.map (fun a => { a with needsAts := false })
      ∧ t.copies.map (fun c => { c with needsAts := false }) = s.copies.map (fun c => { c with needsAts := false })
      ∧ getX t f 0x130 = v &&& 0xFFFFF00000000004
      ∧ (∀ x, x ∈ t.tlb ↔ x ∈ s.tlb ∧ ¬ Selects s f v x.pasid x.base x.bits)
      ∧ ∀ k, k ∈ inv.accesses ↔ ∃ a ∈ s.accesses, a.id = k ∧ Through s a (Selects s f v))
    ∧ (∀ inv, tblFind s.tlbInv f = some inv →
      ((∀ k ∈ inv.accesses, ∀ a ∈ s.accesses, a.id = k → a.held = true) → exec (.tlbinvComplete f) s = .next { s with
        tlbInv := tblErase s.tlbInv f, atsCompletions := if f = 129 then s.atsCompletions + inv.index else s.atsCompletions })
      ∧ ((∃ k ∈ inv.accesses, ∃ a ∈ s.accesses, a.id = k ∧ a.held = false) → exec (.tlbinvComplete f) s = .next s))
    ∧ ∀ (pasid : BitVec 20) (va : Dword) (pages : Nat),
      let sel (p : BitVec 20) (base bits : Nat) : Prop :=
        p = pasid ∧ va.toNat / 4096 * 4096 < base + 2 ^ bits ∧ base < va.toNat / 4096 * 4096 + pages * 4096
      Goes (.atsInvalidateRequest pasid va pages) s fun t => ∃ inv : Invalidation,
        t = { s with tlb := t.tlb, tlbInv := tblInsert s.tlbInv 129 inv }
        ∧ (∀ x, x ∈ t.tlb ↔ x ∈ s.tlb ∧ ¬ (x.ats = true ∧ sel x.pasid x.base x.bits))
        ∧ (∀ a ∈ s.accesses, Through s a sel → a.id ∈ inv.accesses)

/-- R300: the host's answer with the permissions that a request asked for gives its site, and that of its die, the translation of 2^STU pages
of 4 KiB, at most the delegated entry's range (log 55: where STU stands in the answer is the model's reading), and what waited there tries again; a page response that succeeds asks again for the translation, and one that fails leaves a fetch or a dispatcher a failed answer. -/
def Sys2Proof.Stmt.HostTranslationsAnswer : Prop :=
  ∀ (s : State) (r : AtsRequest) (va : Dword), s.ats = [r] → r.va = va.toNat / 4096 * 4096 → r.failed = false →
    (∀ k ∈ s.queues, k.2.ending = []) →
    (∀ (hpa e : Dword) (level : Nat) (rd wr ex : Bool), walk s r.pasid r.va = .delegated level e → r.pri = false → (r.rd = true → rd = true) → (r.wr = true → wr = true) → (r.ex = true → ex = true) →
      (rd = true ∨ wr = true ∨ ex = true) → Goes (.atsTranslationCompletion r.pasid va hpa rd wr ex) s fun t =>
        let n := Nat.min (12 + fieldOf hpa 11 0) (44 - 13 * level)
        t = { s with ats := [], tlb := t.tlb, accesses := t.accesses, copies := t.copies }
        ∧ (∀ site, site = r.site ∨ (r.site < 256 ∧ site = 257 + r.site / 128) → ∃ x ∈ t.tlb, x.site = site ∧ x.pasid = r.pasid
            ∧ x.base = r.va / 2 ^ n * 2 ^ n ∧ x.bits = n ∧ x.ats = true ∧ x.pa = 2 ^ 60 + hpa.toNat % 2 ^ 57 / 2 ^ n * 2 ^ n
            ∧ x.pte.getLsbD 4 = rd ∧ x.pte.getLsbD 5 = wr ∧ x.pte.getLsbD 6 = ex)
        ∧ t.accesses = s.accesses.map fun a =>
            if a.needsAts ∧ a.gid / 64 = r.site ∧ a.addr.toNat / 4096 * 4096 = r.va ∧ (getGroup s a.gid).map (fun g => g.pasid) = some r.pasid then
              { a with needsAts := false } else a)
    ∧ (r.pri = true →
      (Goes (.priPageResponse r.pasid va true) s fun t => t = { s with ats := [{ r with pri := false }], pagerequests := t.pagerequests }
        ∧ ∀ x, x ∈ t.pagerequests ↔ x ∈ s.pagerequests ∧ x ≠ (r.pasid, r.va))
      ∧ (r.who ≠ .access → Goes (.priPageResponse r.pasid va false) s fun t =>
          t = { s with ats := [{ r with pri := false, failed := true }], pagerequests := t.pagerequests }))

/-- R249, R250: a sequence whose valid entry and block table are read becomes resident in its die's directory, where there is room; GO of
SDINV drops an index from both directories, and is busy while a kvres word in flight or a copy that has begun may have resolved through it. -/
def Sys2Proof.Stmt.StreetDirectoryChanges : Prop :=
  ∀ (s : State) (f : Nat),
    (∀ die index e bs s1 s2, findSeq s die f index = none → index < 2 ^ Nat.min (fieldOf (getX s f 0x118) 4 0) 24 →
      loadDwords s (128 * die) die f (ctxPasid s f) (BitVec.ofNat 64 (fieldOf (getX s f 0x118) 56 12 * 4096 + 32 * index)) 4 = (.ok e, s1) →
      (dwAt e 0).getLsbD 63 = true → fieldOf (dwAt e 0) 19 0 ≤ 65536 →
      loadDwords s1 (128 * die) die f (ctxPasid s f) (dwAt e 1) (fieldOf (dwAt e 0) 19 0) = (.ok bs, s2) →
      ((s.street.filter fun x => x.die == die).map fun x => x.blocks.length).sum + bs.length ≤ 2097152 →
      exec (.streetDirectoryInstall die f index) s = .next { s2 with
        street := s2.street ++ [{ die := die, ctx := f, index := index, entry := e, blocks := bs }] })
    ∧ (∀ v, Reaches s f true → v.getLsbD 0 = true → tblFind s.sdInv f = none → Goes (.sdinvGo f v) s fun t => ∃ inv : Invalidation,
      t = { s with street := t.street, sdInv := tblInsert s.sdInv f inv } ∧ inv.index = fieldOf v 63 40
      ∧ (∀ x, x ∈ t.street ↔ x ∈ s.street ∧ ¬ (x.ctx = f ∧ x.index = fieldOf v 63 40))
      ∧ ∀ k, k ∈ inv.copies ↔ ∃ c ∈ s.copies, c.id = k ∧ c.begun = true ∧ c.ctx = f
          ∧ (fieldOf (dwAt c.record 0) 47 44 = 4 ∧ fieldOf (dwAt c.record 1) 63 40 = fieldOf v 63 40
            ∨ fieldOf (dwAt c.record 0) 51 48 = 4 ∧ fieldOf (dwAt c.record 2) 63 40 = fieldOf v 63 40))
    ∧ ∀ inv, tblFind s.sdInv f = some inv →
      ((∀ k ∈ inv.accesses, ∀ a ∈ s.accesses, a.id ≠ k) → (∀ k ∈ inv.copies, ∀ c ∈ s.copies, c.id ≠ k) →
        exec (.sdinvComplete f) s = .next { s with sdInv := tblErase s.sdInv f })
      ∧ ((∃ k ∈ inv.accesses, ∃ a ∈ s.accesses, a.id = k) → exec (.sdinvComplete f) s = .next s)

/-- R305, R307 to R311: a counter at its guest's threshold returns to 0 and queues a move of its page to the tier that its leaf prefers;
the engine starts the next request that may move, in the frame that stands in its free ring at the index its descriptor names, read under
the context's key, and counts a request for which the ring is empty; a request past its
point is dropped and counted; a cooling mark ends with its time. -/
def Sys2Proof.Stmt.MigrationQueues : Prop :=
  ∀ (s : State),
    (∀ guest pasid page p, let k := (guest * 2 ^ 20 + pasid.toNat) * 2 ^ 39 + page
      let c := tblGet ({} : Counter) s.counters k
      let least := fieldOf (getX s 0 (0x2800 + 8 * guest)) 15 0
      least ≠ 0 → least ≤ c.count → pageOf s pasid (page * 2 ^ 18) = some p → fieldOf p.leaf 61 60 ≠ 3 →
      tierOf s p.frame ≠ fieldOf p.leaf 61 60 → pagePinned s p = false → pageCooling s guest pasid p = false →
      (getX s c.ctx 0x138).getLsbD 0 = true → s.migQueue.length < 1024 →
      exec (.accessCounterThreshold guest pasid page) s = .next { s with
        counters := tblErase s.counters k, nextId := s.nextId + 1
        migQueue := s.migQueue ++ [{ id := s.nextId, ctx := c.ctx, pasid := pasid, va := p.base, target := fieldOf p.leaf 61 60, needBy := none
                                     place := false, die := c.die, core := 0, guest := guest }] })
    ∧ (∀ guest pasid page, (tblGet ({} : Counter) s.counters ((guest * 2 ^ 20 + pasid.toNat) * 2 ^ 39 + page)).count
          < fieldOf (getX s 0 (0x2800 + 8 * guest)) 15 0 → exec (.accessCounterThreshold guest pasid page) s = .next s)
    ∧ (∀ r p, s.moves.length < 16 → nextRequest s = some r → (∀ n, r.needBy = some n → s.clock ≤ n) → pageOf s r.pasid r.va = some p →
      tierOf s p.frame ≠ r.target → pagePinned s p = false → p.leaf.getLsbD 53 = false →
      let slot := if r.target = 0 then r.die % 2 else r.target + 1
      let size := if p.bits = 18 then 0 else if p.bits = 25 then 1 else 2
      let ring := fieldOf (getX s r.ctx 0x138) 51 10 * 1024 + 32 * (8 * size + 2 * slot)
      let queued := s.migQueue.filter fun x => x.id != r.id
      ∀ r0 s1, readRing { s with migQueue := queued } r.ctx ring = (some r0, s1) →
      (∀ frame s2, r0.mine ≠ r0.theirs → engineRead s1 r.ctx (r0.base + 8 * (r0.mine % 2 ^ (r0.log2 % 32))) = (some frame, s2) →
        Goes .migrationStart s fun t =>
        t.migQueue = queued ∧ (∃ ptes, ptes.map Prod.fst = p.ptes.map Prod.fst
          ∧ t.moves = s.moves ++ [{ id := r.id, ctx := r.ctx, pasid := r.pasid, va := p.base, bits := p.bits, src := p.frame, dst := frame
                                    dstSlot := slot, cls := size, ptes := ptes, needBy := r.needBy, guest := r.guest }])
        ∧ t = { s with mem := t.mem, memTag := t.memTag, hostMem := t.hostMem, stale := t.stale, lines := t.lines, migQueue := queued
                       moves := t.moves, past := t.past, events := t.events, errLog := t.errLog, errOvf := t.errOvf })
      ∧ (r0.mine = r0.theirs → Goes .migrationStart s fun t =>
        t = { s1 with xreg := t.xreg } ∧ getX t r.ctx 0x150 = getX s r.ctx 0x150 + 1))
    ∧ (∀ id r n, s.migQueue.find? (fun x => x.id == id) = some r → r.needBy = some n → n < s.clock → Goes (.needByExpiry id) s fun t =>
        t = { s with migQueue := s.migQueue.filter (fun x => x.id != id), xreg := t.xreg } ∧ getX t r.ctx 0x140 = getX s r.ctx 0x140 + 1)
    ∧ ∀ key, Goes (.coolingExpiry key) s fun t => t = { s with cooling := t.cooling }
        ∧ ∀ c, c ∈ t.cooling ↔ c ∈ s.cooling ∧ ¬ (c.1 = key ∧ c.2 ≤ s.clock)

/-- R309, R310: a move whose lines are copied comes to its final phase; it switches when its page-table entries are as they were, which then
name the new frame in PFN, the old translations dropped and the pins carried over (R312), and is aborted when one has changed; it ends when
no access still needs its source frame, which goes to the returned ring. -/
def Sys2Proof.Stmt.MovesSwitch : Prop :=
  ∀ (s : State) (id : Nat) (m : Move),
    (s.moves.find? (fun x => x.id == id) = some m → m.phase = .copying → (∀ x ∈ s.moves, x.id = id → x = m) →
      Goes (.migrationCopyDone id) s fun t => t = { s with moves := t.moves }
        ∧ t.moves.find? (fun x => x.id == id) = some { m with phase := .final })
    ∧ (s.moves.find? (fun x => x.id == id && x.phase == .final) = some m → m.marked = [] → m.window = [] → (∀ e ∈ s.replay, e.2.cause ≠ 4) →
      keyBusy s (ctxKey s m.ctx) = false →
      (∀ a e, m.ptes = [(a, e)] → (engineRead s m.ctx a).1 = some e.toNat → a + 8 ≤ 2 ^ 60 → (∀ k < 8, moveOf s (a + k) = none) →
        m.dst % 2 ^ 18 = 0 → m.dst < 2 ^ 52 → Goes (.migrationSwitch id) s fun t =>
        WroteAt s t (ctxKey s m.ctx) a 8 0 (byteOf (BitVec.ofNat 64 (e.toNat - fieldOf e 51 18 * 2 ^ 18 + m.dst)))
        ∧ (18 ≤ m.bits → tblSorted s.pins = true →
            (∀ k, m.dst / 2 ^ 18 ≤ k → k < m.dst / 2 ^ 18 + 2 ^ (m.bits - 18) → tblFind s.pins k = none) →
            ∀ k < 2 ^ (m.bits - 18), tblGet 0 t.pins (m.dst / 2 ^ 18 + k) = tblGet 0 s.pins (m.src / 2 ^ 18 + k))
        ∧ (∀ x, x ∈ t.tlb ↔ x ∈ s.tlb ∧ ¬ (x.pasid = m.pasid ∧ m.va < x.base + 2 ^ x.bits ∧ x.base < m.va + 2 ^ m.bits))
        ∧ (∀ x ∈ t.moves, x.id = id → x.phase = .switching)
        ∧ t = { s with mem := t.mem, memTag := t.memTag, stale := t.stale, lines := t.lines, tlb := t.tlb, moves := t.moves, pins := t.pins
                       regionsOf := t.regionsOf, past := t.past, events := t.events })
      ∧ ((∃ e ∈ m.ptes, (engineRead s m.ctx e.1).1 ≠ some e.2.toNat) → Goes (.migrationSwitch id) s fun t =>
        (∀ x ∈ t.moves, x.id ≠ id) ∧ getX t m.ctx 0x150 = getX s m.ctx 0x150 + 1))
    ∧ (s.moves.find? (fun x => x.id == id && x.phase == .switching) = some m →
      (∀ a ∈ s.accesses, a.held = true ∨ (a.id ∉ m.deps ∧ ∀ pa, a.pa = some pa → pa < m.src ∨ m.src + 2 ^ m.bits ≤ pa)) →
      (∀ n, m.needBy = some n → s.clock ≤ n) → keyBusy s (ctxKey s m.ctx) = false →
      ∀ s1, giveFrame s m.ctx (ringAt s m.ctx m.cls (tierSlot s m.src) 1) m.src = some s1 →
      Goes (.migrationEnd id) s fun t => (∀ x ∈ t.moves, x.id ≠ id) ∧ t = { s1 with moves := t.moves, counters := t.counters }
        ∧ ∀ k, tblFind t.counters k = (let lo := (m.guest * 2 ^ 20 + m.pasid.toNat) * 2 ^ 39 + m.va / 2 ^ 18
            if lo ≤ k ∧ k < lo + 2 ^ (m.bits - 18) then none else tblFind s.counters k))

/-- R313: an access from outside to a line of tier 2 begins the handover of its whole page, whose size is that of the leaves with SH set
that map it (log 97), one page of a port at a time: its dirty lines are written back and its cached lines
dropped; the pool's answer ends it, and the accesses that it held replay. -/
def Sys2Proof.Stmt.PagesAreHandedOver : Prop :=
  ∀ (s : State) (pa n : Nat),
    let page := pa / 2 ^ n * 2 ^ n
    let covers (h : Handover) : Prop := h.pa ≤ pa ∧ pa < h.pa + 2 ^ h.bits
    (∀ port, placeOf s pa = .tier2 port → sharedPages s pa ≠ [] → (∀ q ∈ sharedPages s pa, q.bits = n) →
      ((∀ h ∈ s.handovers, h.port ≠ port) → Goes (.backInvalidate pa) s fun t =>
        t = { s with handovers := s.handovers ++ [{ pa := page, bits := n, port := port }], stale := t.stale, lines := t.lines }
        ∧ (∀ e, e ∈ t.stale ↔ e ∈ s.stale ∧ (offsetIn s page n e.1).isNone = true)
        ∧ ∀ l, l ∈ t.lines ↔ l ∈ s.lines ∧ (offsetIn s page n (128 * l.line)).isNone = true)
      ∧ ((∃ h ∈ s.handovers, h.port = port) → exec (.backInvalidate pa) s = .next s))
    ∧ ((∃ h ∈ s.handovers, covers h) → (∀ e ∈ s.replay, e.2.cause ≠ 5) → Goes (.pageHandoverComplete pa) s fun t =>
      t = { s with handovers := t.handovers } ∧ ∀ h, h ∈ t.handovers ↔ h ∈ s.handovers ∧ ¬ covers h)
    ∧ ((∀ h ∈ s.handovers, ¬ covers h) → exec (.pageHandoverComplete pa) s = .next s)

/-- R323, R328, R332: a ladder on every resident position of a context starts when its slice has passed, or it has no work, while another
context of its partition has some, and at its owner's command; after the grace time its groups are forced to stop; at the kill time its
launches are killed and the kill is logged. A context that is saved, with nothing to restore, becomes resident once no group of its partition
stands on a core. -/
def Sys2Proof.Stmt.LaddersRun : Prop :=
  ∀ (s : State),
    (∀ p f, residentOf s p = some f → othersWork s p f = true → (∀ x ∈ s.ladders, x.ctx ≠ f) →
      let slice := if fieldOf (bindReg s f) 63 32 = 0 then 2000 else fieldOf (bindReg s f) 63 32
      ((getCtx s f).since + 1250 * slice ≤ s.clock → Goes (.timeSliceExpiry p) s fun t => LadderStarts s t f .switch)
      ∧ (s.clock < (getCtx s f).since + 1250 * slice → exec (.timeSliceExpiry p) s = .next s)
      ∧ (hasWork s f = false → Goes (.contextSwitch p) s fun t => LadderStarts s t f .switch))
    ∧ (∀ f < 129, ctxExists s f = true → (getCtx s f).resident = true → (∀ x ∈ s.ladders, x.ctx ≠ f) →
      Goes (.ownerPreemptionCommand f) s fun t => LadderStarts s t f .owner)
    ∧ (∀ id x, s.ladders.find? (fun y => y.id == id) = some x → (∃ e ∈ s.groups, (e.2.uid, e.2.pos) ∈ x.set) →
      let reg := getX s 0 (if x.ctx = 0 then 0x1E10 else 0x1A00 + 8 * (x.ctx - 1))
      let grace := 1250 * (if fieldOf reg 31 0 = 0 then 200 else fieldOf reg 31 0)
      let kill := 1250 * (if fieldOf reg 63 32 = 0 then 10000 else fieldOf reg 63 32)
      (x.t0 + grace ≤ s.clock → exec (.preemptGraceExpiry id) s = .next { s with
        ladders := s.ladders.map fun y => if y.id = id then { y with forced := true } else y })
      ∧ (x.forced = true → x.t0 + kill ≤ s.clock → x.t0 + grace + 12500 ≤ s.clock →
        Goes (.preemptKillExpiry id) s fun t => (∀ u ∈ x.set, ∀ l, findLaunch t u.1 = some l → l.killed = true)
          ∧ ((tblGet [] s.errLog x.ctx).length < 16 → (∃ u ∈ x.set, ∃ l, findLaunch s u.1 = some l ∧ l.killed = false) →
            (∀ k ∈ s.queues, ∀ r, r ∈ k.2.ending ∨ k.2.cur = some r → r.status = 0) →
            ∃ e ∈ tblGet [] t.errLog x.ctx, e.cause = 5 ∧ e.time = hubClock s % 2 ^ 40)))
    ∧ ∀ p f, residentOf s p = none → longestWaiting s p = some f → (∀ e ∈ s.groups, e.2.part ≠ p) → (getCtx s f).saved = [] →
      (getCtx s f).opsSaved = false → keyBusy s (ctxKey s f) = false →
      Goes (.contextRestore p) s fun t => t = { s with contexts := t.contexts }
        ∧ getCtx t f = { getCtx s f with resident := true, since := s.clock, workSince := none }
        ∧ ∀ h, h ≠ f → getCtx t h = getCtx s h

/-- R329, R333, R334: a stopped group that is the last of its position to be saved leaves the cores, and its position stands in the save
area: its header holds the launch word, the position's number and the length, and the images follow. -/
def Sys2Proof.Stmt.GroupsAreSaved : Prop :=
  ∀ (s s2 : State) (gid : Nat) (g : Group) (x : Ladder), getGroup s gid = some g → s.ladders = [x] → saveReady s x gid g = true →
    tblSorted s.groups = true → (∀ e ∈ s.groups, e.1 = gid ∨ ¬ (e.2.uid = g.uid ∧ e.2.pos = g.pos)) → g.grank < 4 → g.stage < 4 → g.pos < 2 ^ 64 →
    (∀ e ∈ s.opTab, e.1 / 16 % 129 ≠ x.ctx) → x.why ≠ .disable → s.moves = [] →
    (∀ a b, saveBase s x.ctx ≤ a → a < b → b < saveBase s x.ctx + saveSize s x.ctx → locate s a ≠ locate s b) →
    savePosition (markSaved s gid g) x.ctx g.uid g.pos (match x.why with
      | .swap _ => true
      | _ => false) = some s2 →
    Goes (.groupSave gid) s fun t => getGroup t gid = none ∧ ∃ p ∈ (getCtx t x.ctx).saved, p.uid = g.uid ∧ p.pos = g.pos
      ∧ p.addr = saveTop s x.ctx ∧ p.addr + p.len ≤ saveBase s x.ctx + saveSize s x.ctx
      ∧ valueOf 8 (fun k => readByte t (p.addr + k)) = g.launch.toNat ∧ valueOf 8 (fun k => readByte t (p.addr + 8 + k)) = g.pos
      ∧ valueOf 8 (fun k => readByte t (p.addr + 24 + k)) = p.len

/-- R46 to R48, R161: a relocation whose group has nothing under way moves it to the seat that was kept for it on the target core: its old
place is free, and every fibre has its counter, predicate word, window and flags as before, and every register, but for code 0 in the
destination and in l7 of the live fibres that asked; every other latch is invalid. -/
def Sys2Proof.Stmt.GroupsAreRelocated : Prop :=
  ∀ (s : State) (gid : Nat) (g : Group) (r : Relocation), s.relocations = [r] → r.gid = gid → getGroup s gid = some g →
    moveReady s gid g = true → g.width ≤ 64 → g.fibres.length = g.width → (∀ l ∈ r.lanes, l < g.width) →
    (∀ l ∈ r.lanes, (g.fibre l).wb + r.dst.toNat < g.rows) →
    Goes (.relocateMove gid) s fun t => (r.seatGid ≠ gid → getGroup t gid = none) ∧ t.relocations = []
      ∧ (∀ k, k ≠ gid → k ≠ r.seatGid → getGroup t k = getGroup s k)
      ∧ ∃ h, getGroup t r.seatGid = some h ∧ h.moving = false
        ∧ h.rowOrigin = r.seat.rowOrigin ∧ h.laneOrigin = r.seat.laneOrigin ∧ h.lsOrigin = r.seat.lsOrigin
        ∧ (∀ l < g.width, let a := h.fibre l
            let b := g.fibre l
            a.slot = b.slot ∧ a.pc = b.pc ∧ a.pw = b.pw ∧ a.wb = b.wb ∧ a.progress = b.progress ∧ a.fstat = b.fstat
              ∧ a.cycleh = b.cycleh
              ∧ if l ∈ r.lanes ∧ b.live = true then a.latchValid = 0x80 ∧ a.latch[7]? = some 0 else a.latchValid = 0)
        ∧ (∀ l ∈ r.lanes, (g.fibre l).live = true → h.reg l r.dst.toNat = 0)
        ∧ ∀ key, (∀ l ∈ r.lanes, key ≠ cellKey g l ((g.fibre l).wb + r.dst.toNat)) → tblGet 0 h.regs key = tblGet 0 g.regs key

/-- R292, R317, R318: a write of a partition's shares takes effect where the shares lie apart from every other partition's and nothing of
its own would lose its place, and is refused and logged where not; a write of EBCTL that enables the budget starts it at 0 in every core. -/
def Sys2Proof.Stmt.ShareRegisters : Prop :=
  ∀ (s : State) (p : Nat) (v : Dword), s.ready.getLsbD 0 = true →
    (p < 16 →
      (QuotaFits s p v → Goes (.pquotaWrite p v) s fun t => RegisterTo s t 0 (0x1100 + 8 * p) (v &&& 0x07FFFFFFFFFFC000))
      ∧ (¬ QuotaFits s p v → Goes (.pquotaWrite p v) s fun t => WriteRefused s t 0 (0x1100 + 8 * p))
      ∧ (ShareFits s p v → Goes (.pshareWrite p v) s fun t => RegisterTo s t 0 (0x1180 + 8 * p) (v &&& 0x000FFFFFFFFFFFFF))
      ∧ (¬ ShareFits s p v → Goes (.pshareWrite p v) s fun t => WriteRefused s t 0 (0x1180 + 8 * p)))
    ∧ ∀ f, Reaches s f true → Goes (.ebctlWrite f v) s fun t => getX t f 0x100 = v &&& 1 ∧ t = { s with xreg := t.xreg, budgets := t.budgets }
        ∧ ∀ g < 129, ∀ core < 256, tblGet 0 t.budgets (256 * g + core)
          = if g = f ∧ v.getLsbD 0 = true ∧ (getX s f 0x100).getLsbD 0 = false then 0 else tblGet 0 s.budgets (256 * g + core)

/-- R321, R322, R326, R328, R332: enabling a function's binding creates its context, with no budget and no operator-table entry; a change of
an enabled binding's partition or key is refused; disabling one resets a context without groups on the cores, and starts a ladder on the
groups of another. A key slot that no enabled virtual function names is reset: its dirty lines are dropped, each byte as its tier held it,
and it is busy until its new key is drawn. -/
def Sys2Proof.Stmt.BindingRegisters : Prop :=
  ∀ (s : State) (f : Nat) (v : Dword), s.ready.getLsbD 0 = true → f < 129 →
    let i : Instr := if f = 0 then .pfbindWrite v else .vfbindWrite (f - 1) v
    let at' := if f = 0 then 0x1E00 else 0x1200 + 8 * (f - 1)
    let old := getX s 0 at'
    (old.getLsbD 0 = false → v.getLsbD 0 = true → (∀ x ∈ s.ladders, x.ctx ≠ f) → (∀ e ∈ s.groups, e.2.ctx ≠ f) → Goes i s fun t =>
      getX t 0 at' = v &&& 0xFFFFFFFF00FFF001 ∧ getCtx t f = {} ∧ (∀ core < 256, tblGet 0 t.budgets (256 * f + core) = 0)
      ∧ (∀ e ∈ t.opTab, e.1 / 16 % 129 ≠ f) ∧ (∀ h, h ≠ f → getCtx t h = getCtx s h)
      ∧ t = { s with xreg := t.xreg, contexts := t.contexts, budgets := t.budgets, opTab := t.opTab })
    ∧ (old.getLsbD 0 = true → fieldOf old 23 12 ≠ fieldOf v 23 12 → Goes i s fun t => WriteRefused s t 0 at')
    ∧ (old.getLsbD 0 = true → fieldOf old 23 12 = fieldOf v 23 12 → v.getLsbD 0 = true → Goes i s fun t =>
      RegisterTo s t 0 at' (v &&& 0xFFFFFFFF00FFF001))
    ∧ (old.getLsbD 0 = true → fieldOf old 23 12 = fieldOf v 23 12 → v.getLsbD 0 = false →
      ((∀ e ∈ s.groups, e.2.ctx ≠ f) → Goes i s fun t => ContextCleared t f ∧ getX t 0 at' = v &&& 0xFFFFFFFF00FFF001)
      ∧ ((∃ e ∈ s.groups, e.2.ctx = f) → Goes i s fun t => ∃ x ∈ t.ladders, x.ctx = f ∧ x.why = .disable ∧ x.set = residentPositions s f
          ∧ x.t0 = s.clock ∧ ∀ y ∈ t.ladders, y.ctx = f → y = x))
    ∧ ∀ k < 256, let slot := getX s 0 (0x2000 + 8 * k)
      let named := ∃ h < 129, h ≠ 0 ∧ ctxExists s h = true ∧ ctxKey s h = k
      let tagged (e : Nat × (Byte × Option (Nat × Nat))) : Prop := (tblFind s.memTag e.1).map Prod.fst = some k
      (slot.getLsbD 1 = false → ¬ named → Goes (.kslotReset k) s fun t =>
        getX t 0 (0x2000 + 8 * k) = slot ||| 2 ∧ (∀ e ∈ t.stale, e ∈ s.stale ∧ ¬ tagged e) ∧ (∀ l ∈ t.lines, l ∈ s.lines ∧ l.key ≠ k)
        ∧ (tblSorted s.stale = true → ∀ e ∈ s.stale, tagged e → tblGet 0 t.mem e.1 = e.2.1)
        ∧ t = { s with xreg := t.xreg, mem := t.mem, memTag := t.memTag, stale := t.stale, lines := t.lines, past := t.past
                       events := t.events })
      ∧ (named → Goes (.kslotReset k) s fun t => WriteRefused s t 0 (0x2000 + 8 * k))
      ∧ (slot.getLsbD 1 = true → Goes (.kslotResetDone k) s fun t => getX t 0 (0x2000 + 8 * k) = 4
          ∧ tblGet 0 t.keyGen k = tblGet 0 s.keyGen k + 1 ∧ t = { s with xreg := t.xreg, keyGen := t.keyGen })

/-- R8, R285, R322, R338, R339, R346, R348, R355: a write of a register reaches its writable bits; one that its rule forbids, of a register
that the function does not have, or of a context that does not exist, is refused and logged, and one before the hub is ready is logged with
cause 2. A change of an enabled queue is refused; END empties a queue and ends its launches that have no position admitted; a decoder that
stays disabled takes any window. A virtual function's reset gives its registers their reset values. -/
def Sys2Proof.Stmt.FunctionRegisters : Prop :=
  ∀ (s : State) (f : Nat) (v : Dword), f < 129 →
    (s.ready.getLsbD 0 = true →
      (∀ q < 64, let at' := 0x400 + 8 * q
        let old := getX s f at'
        (old.getLsbD 0 = false → v.getLsbD 0 = false → v.getLsbD 1 = false → Goes (.sqcfgWrite f q v) s fun t =>
          RegisterTo s t f at' (v &&& 0xFFFFFFFFC0000001))
        ∧ (old.getLsbD 0 = true → fieldOf old 63 30 ≠ fieldOf v 63 30 → Goes (.sqcfgWrite f q v) s fun t => WriteRefused s t f at')
        ∧ Goes (.sqcfgEnd f q) s fun t => (getQueue t f q).pending = [] ∧ (getQueue t f q).cur = none
            ∧ ∀ l ∈ t.launches, ¬ (l.ctx = f ∧ l.queue = q ∧ l.nextPos = 0))
      ∧ (∀ port < 8, ∀ dec < 4, ∀ r : HdmReg, let first := 0x3400 + 32 * (4 * port + dec)
        let at' := first + (match r with
          | .base => 0
          | .size => 8
          | .device => 16)
        ((getX s 0 first).getLsbD 0 = false → (r = .base → v.getLsbD 0 = false) → Goes (.cxlhdmWrite port dec r v) s fun t =>
          RegisterTo s t 0 at' (v &&& (if r = .base then 0x000FFFFFF0000001 else 0x000FFFFFF0000000)))
        ∧ ((getX s 0 first).getLsbD 0 = true → (r = .base → fieldOf (getX s 0 at') 51 28 ≠ fieldOf v 51 28) →
          (r ≠ .base → fieldOf (getX s 0 at') 63 1 ≠ fieldOf (v &&& 0x000FFFFFF0000000) 63 1) → Goes (.cxlhdmWrite port dec r v) s fun t =>
          WriteRefused s t 0 at'))
      ∧ (Goes (.errstatPop f) s fun t => tblGet [] t.errLog f = (tblGet [] s.errLog f).drop 1 ∧ t = { s with errLog := t.errLog })
      ∧ (Goes (.errstatOvfClear f) s fun t => f ∉ t.errOvf ∧ t = { s with errOvf := t.errOvf })
      ∧ (f ≠ 0 → Goes (.fctlReset f) s fun t => (ctxExists s f = true → ContextCleared t f) ∧ tblGet [] t.errLog f = [] ∧ f ∉ t.errOvf
          ∧ ∀ offset < 2 ^ 20, getX t f offset = getX State.reset f offset)
      ∧ (ctxExists s f = true → ∀ at' m, (at', m) ∈ ([(0x108, 0xFFFFFFFF), (0x110, 0xFFFFFFFF), (0x118, 0x01FFFFFFFFFFF01F),
            (0x128, 0x01FFFFFFFFFFFFFF), (0x138, 0x000FFFFFFFFFFC01), (0x158, 3), (0x160, 0x01FFFFFFFFFFFFFD),
            (0x1A0, 0xFFFFF)] : List (Nat × Dword)) →
          Goes (.registerWrite f at' v) s fun t => RegisterTo s t f at' ((getX s f at' &&& ~~~m) ||| (v &&& m)))
      ∧ (ctxExists s f = false → Goes (.registerWrite f 0x108 v) s fun t => WriteRefused s t f 0x108)
      ∧ (∀ at', f ≠ 0 → 0x1000 ≤ at' → Goes (.registerWrite f at' v) s fun t => WriteRefused s t f at'))
    ∧ (s.ready.getLsbD 0 = false → ∀ at', Goes (.registerWrite f at' v) s fun t => t = { s with errLog := t.errLog, errOvf := t.errOvf }
        ∧ ((tblGet [] s.errLog f).length < 16 → ∃ e ∈ tblGet [] t.errLog f, e.cause = 2 ∧ e.vf = vfNumber f))

/-- R350, R356: GO of KBOOT starts every kiosk of the ready dies that do not all run, each that was in reset at ENTRY in M-mode (log 125); LOAD of RTPKC takes its slot, and when it is done the
slot holds the 97 bytes of RTPKB where they are an uncompressed point of the curve, and ERR is set where not. -/
def Sys2Proof.Stmt.KioskAndKeyRegisters : Prop :=
  ∀ (s : State) (v : Dword), s.ready.getLsbD 0 = true →
    (v.getLsbD 0 = true → kiosksRun s = false → Goes (.kbootGo v) s fun t => getX t 0 0x3000 = v &&& 0x000FFFFFFFFFFFFC
      ∧ t = { s with xreg := t.xreg, kiosks := t.kiosks, harts := t.harts }
      ∧ (∀ core, getKiosk t core =
          if core < 256 ∧ s.ready.getLsbD (4 + core / 128) = true then { getKiosk s core with started := true } else getKiosk s core)
      ∧ (∀ core < 256, s.ready.getLsbD (4 + core / 128) = true → (getKiosk s core).started = false →
          getHart t (96 + core) = { pc := v &&& 0x000FFFFFFFFFFFFC })
      ∧ ∀ n, n < 96 → getHart t n = getHart s n)
    ∧ (v.getLsbD 8 = true → s.keyLoad = none → Goes (.rtpkcLoad v) s fun t => t = { s with xreg := t.xreg, keyLoad := some (v.toNat % 16) }
      ∧ fieldOf (getX t 0 0x3010) 3 0 = v.toNat % 16)
    ∧ ∀ k, s.keyLoad = some k →
      let byte (n : Nat) : Byte := (getX s 0 (0x3100 + 8 * (n / 8))).extractLsb' (8 * (n % 8)) 8
      let key := (List.range 97).map byte
      (byte 0 = 4 → Config.onCurve key = true → Goes .rtpkcLoadDone s fun t => tblFind t.pubKeys k = some key
        ∧ (getX t 0 0x3010).getLsbD 10 = false ∧ t = { s with xreg := t.xreg, pubKeys := t.pubKeys, keyLoad := none })
      ∧ (byte 0 ≠ 4 ∨ Config.onCurve key = false → Goes .rtpkcLoadDone s fun t => t = { s with xreg := t.xreg, keyLoad := none }
        ∧ (getX t 0 0x3010).getLsbD 10 = true)

namespace Sys2Proof.Stmt
open Sys2Proof.Machine

/-! ### Encodings, checks, steps and reset -/

/-- Memory, host memory, scratchpad and weight store list rising addresses and no byte that is 0, and what the tiers hold behind dirty
bytes lists rising addresses. -/
def Canonical (s : State) : Prop :=
  Memory.wf s.mem = true ∧ Memory.wf s.hostMem = true ∧ Memory.wf s.spad = true ∧ Memory.wf s.weights = true ∧ tblSorted s.stale = true

/-- What the step adds after the only chain of a quarter's clock, one word w of group gid at the lanes of x (R85, R290 to R292): the counts
and latencies of the fibres, the energy, and the hold. -/
def afterWord (s t : State) (q gid : Nat) (x : Standing) (lanes : List Nat) (w : Word) : State :=
  let u : Gang := { gid := gid, lanes := lanes }
  let v := charge (settleIssue { t with issue := none } x u) gid x.g.ctx (energyWeight w * passesOf lanes)
  setQuarter v q { getQuarter v q with hold := (holdAfter v [] x u).toList, busyUntil := s.clock + passesOf lanes }

end Sys2Proof.Stmt

/-- R57, R72 to R75, R341: words written out field by field from their formats decode to the instructions that they stand for. -/
def Obligations.DecodesSpecWords : Prop :=
  decode 0b0_0000001_0_0000101_0_0000001_0_0000010
      = .ok (.addI32 { c := false, nw := false, d := 5, ma := false, sa := 1, mb := false, sb := 2 })
  ∧ decode 0b1_0011001_1_0000011_1_0000100_0_0000111
      = .ok (.cmpLtI32 { c := true, p := true, d := 3, ma := true, sa := 4, mb := false, sb := 7 })
  ∧ decode 0b0_1010000_0001010_00011_010_01_1_101_010
      = .ok (.ld { c := false, d := 10, bp := 3, ss := 2, rh := 1, we := true, ws := 5, sz := 2 })
  ∧ decode 0b0_1100000_01_10_0001000_0001100_000011 = .ok (.mma { c := false, ec := 1, ls := 2, sa := 8, sb := 12 } 3)
  ∧ decode 0b0_1110000_00_0000100_111111111111110 = .ok (.bz false 4 0x7FFE)
  ∧ decode 0b0_1111110_000100100011010001010110 = .ok (.ext 0x123456)
  ∧ decodeHart 0b0000000_00100_01010_000_00011_0001011 = some (.nsubmit 4 10 3)

/-- R57, R72 to R75, R78: decoding the encoding of every well-formed Usxel instruction gives it back, with every operand, and a word that
decodes is the encoding of what it decodes to; so do the two words of the host-die harts. -/
def Obligations.DecodeEncodeRoundTrip : Prop :=
  (∀ (i : Instr) (w : Word), i.wf = true → encode i = some w → decode w = .ok i)
  ∧ (∀ (i : Instr) (w : Word), decode w = .ok i → encode i = some w ∧ i.wf = true)
  ∧ ∀ (i : Instr) (w : Word), encodeHart i = some w ↔ decodeHart w = some i

/-- R23, R58, R76, R78: a word that fails a check of R76 traps precisely, and its group stops: no other effect. A word that breaks its format
or may not follow its prefixes is cause 0x01 of the whole gang; registers that leave their window are cause 0x03 of exactly the participants
whose window they leave. -/
def Sys2Proof.Stmt.CheckedWordsTrap : Prop :=
  ∀ (i : Instr) (s : State) (iss : Issue) (g : Group), Issuing s iss g → (pipeOf i).isSome = true →
    let traps (cause : Nat) (lanes : List Nat) : Prop := Leads i s iss fun t h =>
      TrapJoined s t h iss.gid cause lanes ((wordOf i).setWidth 64) ∧ h = { g with stopping := true }
      ∧ t = { s with groups := t.groups, kiosks := t.kiosks } ∧ ∀ k, k ≠ iss.gid → getGroup t k = getGroup s k
    (∀ cause lanes, checkWord i iss g = some (cause, lanes) → traps cause lanes)
    ∧ (iss.rep = none → i.wf = false → traps 0x01 iss.lanes)
    ∧ (iss.rep = none → i.wf = true → prefixIllegal i iss = false → vecForm i = none → laneUses i iss.lanes = [] →
      let out := (iss.participants g).filter fun l => (wordUses i).any fun u =>
        decide (120 < u.1 + u.2) || decide (g.rows < (g.fibre l).wb + u.1 + u.2)
      out ≠ [] → traps 0x03 out)

/-- R25, R54 to R56, R85, R289: when the words of the packet at the counter of all the running fibres of the one group of a quarter decode
to a well-formed instruction that stands alone, and nothing delays it, the quarter's turn is that instruction's meaning with what every
issue adds. A turn of an event is that event's meaning; a turn of a hart runs the instruction at its counter. -/
def Obligations.StepRunsDecodedWord : Prop :=
  (∀ (s s1 s2 t : State) (rest : List Turn) (q gid : Nat) (g g2 : Group) (lanes : List Nat) (pc : Dword) (ws : List Word) (w : Word)
      (i : Instr), s.agenda = .issue q :: rest → (getQuarter s q).busyUntil ≤ s.clock →
    s1 = askTables (noteOwners (fetchQuarter { s with agenda := rest } q) q) q → (getQuarter s1 q).hold = [] → s.issue = none →
    groupsOn s1 q = [(gid, g)] → g.width ≤ 64 → runningLanes s1 gid g = lanes → lanes ≠ [] →
    (∀ l ∈ lanes, (g.fibre l).pc = pc ∧ (g.fibre l).progress = 0 ∧ (g.fibre l).starvedAt = none
      ∧ (g.fibre l).packet = some (pc.toNat / 12 * 12, ws) ∧ laneState s1 gid g lanes l = .ok) →
    pc.toNat % 4 = 0 → ws.length = 3 → ws[pc.toNat % 12 / 4]? = some w → isPrefixWord w = false → w.getLsbD 31 = false →
    (pc.toNat % 12 = 0 ∨ ∃ v, ws[pc.toNat % 12 / 4 - 1]? = some v ∧ chainBit v = false) → decode w = .ok i →
    g.singleStep = false → (getX s1 g.ctx 0x158).getLsbD 0 = false →
    (energyWeight w = 0 ∨ ∀ k < q % 4, chargesNow { s with agenda := rest } (q / 4 * 4 + k) = false) →
    s2 = switchLatches s1 q [{ gid := gid, lanes := lanes }] → getGroup s2 gid = some g2 →
    let iss : Issue := { gid := gid, lanes := lanes, start := pc, pc := pc, next := pc + 4 }
    checkWord i iss g2 = none →
    exec i { passFences s2 gid lanes { words := [(pc.toNat % 12 / 4, w)] } with issue := some iss } = .next t →
    preciseTrap s2 { t with issue := none } gid = none →
    step s = .next (afterWord s1 t q gid (standingOf s1 (gid, g)) lanes w))
  ∧ (∀ (s : State) (rest : List Turn) (i : Instr), s.agenda = .event i :: rest → step s = exec i { s with agenda := rest })
  ∧ ∀ (s s1 t : State) (rest : List Turn) (n : Nat) (w : Word) (i : Instr), s.agenda = .hart n :: rest → n < 96 → s.ready.getLsbD 1 = true →
      (getHart s n).wrs = none → interruptOf { s with agenda := rest } n (getHart s n) = none →
      hartFetchWaits { s with agenda := rest } n (getHart s n) = false →
      hartWord { s with agenda := rest } n (getHart s n) = .ok (w, s1) → decodeHart w = some i →
      exec i { s1 with hartIssue := some n } = .next t → step s = .next { t with hartIssue := none }

/-- R305, R348, R355: right after power is applied the part is off, no item is ready or failed, every expert register reads 0 but COOL of
every guest's GCNT, which reads 1000; nothing is resident, submitted, cached or logged. -/
def Obligations.ResetValues : Prop :=
  State.reset.power = .off ∧ State.reset.ready = 0 ∧ State.reset.failed = 0
  ∧ (∀ f < 129, ∀ offset < 2 ^ 20, getX State.reset f offset
      = if f = 0 ∧ 0x2800 ≤ offset ∧ offset < 0x3000 then BitVec.ofNat 64 (1000 * 2 ^ 32) else 0)
  ∧ (∀ gid, getGroup State.reset gid = none) ∧ State.reset.launches = [] ∧ State.reset.accesses = [] ∧ State.reset.copies = []
  ∧ State.reset.lines = [] ∧ State.reset.past = [] ∧ State.reset.tlb = [] ∧ State.reset.regionsOf = [] ∧ State.reset.moves = [] ∧ State.reset.ladders = []
  ∧ (∀ f q, getQueue State.reset f q = {}) ∧ (∀ core, getKiosk State.reset core = {}) ∧ ∀ f, tblGet [] State.reset.errLog f = []

/-- The memories of the part at reset are in their canonical form (log 1, log 2: the model's choice of what an unlisted byte reads as). -/
def Obligations.ResetMemoryCanonical : Prop := Sys2Proof.Stmt.Canonical State.reset

/-- Every step that gives a next state keeps the canonical form of the memories: their addresses rise, and no listed byte is what an
unlisted one reads as (the model's choices of log 1 and log 2). -/
def Obligations.StepKeepsMemoryCanonical : Prop :=
  ∀ s t : State, Sys2Proof.Stmt.Canonical s → step s = .next t → Sys2Proof.Stmt.Canonical t

namespace Sys2Proof.Stmt
open Sys2Proof.Machine

/-- The core's translation cache holds what an access needs (R298, R299, R306): it comes to physical address pa of the tiers. -/
def CachedFor (s : State) (g : Group) (a : Access) (pa : Nat) : Prop :=
  a.addr.toNat < 2 ^ 57 ∧ pa < 2 ^ 60 ∧ ∃ e, tlbHit s (coreOf a.gid) g.pasid a.addr.toNat = some e ∧ pa = e.pa + (a.addr.toNat - e.base)
    ∧ e.ats = false ∧ permits (needOf a.kind) e.pte = true ∧ ((needOf a.kind).writes = true → pteD e.pte = true)
    ∧ (tierOf s e.pa ≤ 2 → pteAllow e.pte (tierOf s e.pa) = true)

/-- A word of global memory completes: each participant's accesses are recorded with their physical addresses, the gang goes on, and nothing
else changes. No access is held in a replay buffer, addresses are aligned, and their translations are cached. -/
def GlobalCompletes (i : Instr) : Prop :=
  ∀ (s : State) (iss : Issue) (g : Group) (n : Nat) (ea : Nat → Dword) (want : Nat → List Access) (pa : Access → Nat),
    Issuing s iss g → Accepted i iss g → globalWord iss s.nextId (iss.sourceGroup g) i = some (n, ea, want) →
    (∀ l ∈ iss.participants g, (ea l).toNat % n = 0 ∧ ∀ a ∈ want l, CachedFor s g a (pa a)) →
    (∀ a ∈ s.accesses, a.held = false ∧ a.id < s.nextId) →
    ∃ t h, Sys2Proof.Machine.exec i s = .next t ∧ getGroup t iss.gid = some h ∧ Advanced iss g h ∧ h = { g with fibres := h.fibres }
      ∧ (∀ k, k ≠ iss.gid → getGroup t k = getGroup s k) ∧ t = { s with groups := t.groups, accesses := t.accesses, nextId := t.nextId }
      ∧ (t.accesses.map fun a => (asked a, a.pa, a.held, a.needsAts))
        = (s.accesses.map fun a => (asked a, a.pa, a.held, a.needsAts))
          ++ ((iss.participants g).map want).flatten.map fun a => (asked (issuedNow s g a), some (pa a), false, false)

/-- A special-function word completes: each participant's D receives the function's value of its own operand, and the gang goes on. -/
def SpecialCompletes (i : Instr) : Prop :=
  ∀ (s : State) (iss : Issue) (g : Group) (f : VecForm) (fn ty : Nat),
    Issuing s iss g → Accepted i iss g → iss.rep = none → vecForm i = some f → specialCodes i = some (fn, ty) →
    ∃ t h, Sys2Proof.Machine.exec i s = .next t ∧ getGroup t iss.gid = some h ∧ OnlyGroup iss.gid s t
      ∧ h = { g with regs := h.regs, fibres := h.fibres }
      ∧ (∀ l ∈ iss.lanes, l < g.fibres.length → (h.fibre l).pc = iss.next ∧ (h.fibre l).progress = 0)
      ∧ ∀ l ∈ iss.participants g, f.nw = false →
          let a := (((readOperand (iss.sourceGroup g) iss l f.a).1).headD 0).toNat
          h.reg l f.d = BitVec.ofNat 32 (specialFn fn ty (if ty = 0 then a else a % 2 ^ 16)).1

end Sys2Proof.Stmt

/-- R116, R117, R142, R175, R179, R181, R184, R191 to R193: exp, log, rcp, rsqrt, sqrt, sin, cos and tanh complete with their value in each
participant's D; ld, st, and every atomic and reduction complete their issue with each participant's accesses recorded. -/
def Obligations.SpecialAndGlobalWordsComplete : Prop :=
  (∀ o : SF, ∀ i ∈ [Instr.exp o, .log o, .rcp o, .rsqrt o, .sqrt o, .sin o, .cos o, .tanh o], SpecialCompletes i)
  ∧ (∀ o : MM, GlobalCompletes (.ld o) ∧ GlobalCompletes (.st o))
  ∧ ∀ o : MAt, ∀ i ∈ [Instr.atomAdd o, .atomMin o, .atomMax o, .atomAnd o, .atomOr o, .atomXor o, .atomExch o, .atomCas o, .redAdd o
      , .redMin o, .redMax o, .redAnd o, .redOr o, .redXor o], GlobalCompletes i

namespace Sys2Proof.Stmt
open Sys2Proof.Machine

/-! ### Number formats and rounding, as numbers (R89 to R102) -/

/-- The tables of R89 and R91: each format with its exponent and mantissa widths, its bias, its largest finite encoding, its canonical NaN,
and whether it has infinities, and NaNs. -/
def formatRows : List (FpFormat × Nat × Nat × Nat × Nat × Nat × Bool × Bool) :=
  [(fp32, 8, 23, 127, 0x7F7FFFFF, 0x7FC00000, true, true), (bf16, 8, 7, 127, 0x7F7F, 0x7FC0, true, true),
   (fp16, 5, 10, 15, 0x7BFF, 0x7E00, true, true), (e4m3, 4, 3, 7, 0x7E, 0x7F, false, true), (e5m2, 5, 2, 15, 0x7B, 0x7E, true, true),
   (e2m1, 2, 1, 1, 0x7, 0, false, false)]

/-- The formats of vector arithmetic. -/
def laneFormats : List FpFormat := [fp32, bf16, fp16]

/-- An encoding of exponent width eb, mantissa width mb and bias b stands for a value (R89 to R91). -/
def StandsFor (eb mb b : Nat) (infs nans quiet : Bool) (x : Nat) (v : Fv) : Prop :=
  let neg := decide (x / 2 ^ (eb + mb) = 1)
  let E := x / 2 ^ mb % 2 ^ eb
  let M := x % 2 ^ mb
  if infs = true ∧ E = 2 ^ eb - 1 then v = if M = 0 then .inf neg else .nan (!quiet && decide (M < 2 ^ (mb - 1)))
  else if infs = false ∧ nans = true ∧ E = 2 ^ eb - 1 ∧ M = 2 ^ mb - 1 then v = .nan false
  else ∃ m e, v = .fin neg m e ∧ (m : ℚ) * 2 ^ e
    = if 1 ≤ E then (2 : ℚ) ^ ((E : ℤ) - b) * (1 + (M : ℚ) / 2 ^ mb) else (2 : ℚ) ^ (1 - (b : ℤ)) * ((M : ℚ) / 2 ^ mb)

/-- A number of a format with the exponent unbounded above, and with the subnormal spacing below (R97). -/
def onGrid (f : FpFormat) (y : ℝ) : Prop := ∃ k q : ℤ, f.minUnit ≤ q ∧ |k| < 2 ^ (f.mb + 1) ∧ y = k * 2 ^ q

/-- Such a number whose last mantissa bit is 0. -/
def onEvenGrid (f : FpFormat) (y : ℝ) : Prop := ∃ k q : ℤ, f.minUnit ≤ q ∧ |k| < 2 ^ (f.mb + 1) ∧ Even k ∧ y = k * 2 ^ q

/-- A rounding mode selects y of a grid for v (R96: 0 to nearest with ties to even, 1 towards zero, 2 up, 3 down; R231: 4 to nearest with
ties away from zero). -/
def Picks (grid even : ℝ → Prop) (mode : Nat) (v y : ℝ) : Prop :=
  grid y ∧ match mode with
    | 0 => ∀ c, grid c → |y - v| ≤ |c - v| ∧ (|y - v| = |c - v| → c = y ∨ even y)
    | 1 => |y| ≤ |v| ∧ 0 ≤ y * v ∧ ∀ c, grid c → |c| ≤ |v| → |c| ≤ |y|
    | 2 => v ≤ y ∧ ∀ c, grid c → v ≤ c → y ≤ c
    | 3 => y ≤ v ∧ ∀ c, grid c → c ≤ v → c ≤ y
    | _ => ∀ c, grid c → |y - v| ≤ |c - v| ∧ (|y - v| = |c - v| → |c| ≤ |y|)

/-- An integer, and an even one. -/
def integral (y : ℝ) : Prop := ∃ k : ℤ, y = k
def evenIntegral (y : ℝ) : Prop := ∃ k : ℤ, Even k ∧ y = k

/-- An encoding of a format stands for the number y, with the sign neg. -/
def Encodes (f : FpFormat) (neg : Bool) (y : ℝ) (r : Nat) : Prop :=
  r < 2 ^ (f.eb + f.mb + 1) ∧ ∃ m e, f.decode r = .fin neg m e ∧ (exactValue (.fin neg m e) : ℝ) = y

/-- The largest finite value, and the least normal one. -/
noncomputable def largest (f : FpFormat) : ℝ := (exactValue (f.decode f.maxFinite) : ℝ)
noncomputable def leastNormal (f : FpFormat) : ℝ := (2 : ℝ) ^ (1 - (f.bias : ℤ))

/-- The infinity and the largest finite value of a sign (R89). -/
def infinity (f : FpFormat) (neg : Bool) : Nat := (if neg then 2 ^ (f.eb + f.mb) else 0) + (2 ^ f.eb - 1) * 2 ^ f.mb
def extreme (f : FpFormat) (neg : Bool) : Nat := (if neg then 2 ^ (f.eb + f.mb) else 0) + f.maxFinite
def zeroOf (f : FpFormat) (neg : Bool) : Nat := if neg then 2 ^ (f.eb + f.mb) else 0
def oneOf (f : FpFormat) (neg : Bool) : Nat := (if neg then 2 ^ (f.eb + f.mb) else 0) + f.bias * 2 ^ f.mb

/-- The result of an overflow (R97): by the mode and the sign. -/
def overflowed (f : FpFormat) (mode : Nat) (neg : Bool) : Nat :=
  if mode = 0 ∨ (mode = 2 ∧ neg = false) ∨ (mode = 3 ∧ neg = true) then infinity f neg else extreme f neg

/-- A result is an exact number v, not zero, rounded once (R97, R98): what an overflow gives with OF and NX, else the encoding of what the
mode selects, with NX where that differs from v and UF where it is also below the least normal. -/
def Rounded (f : FpFormat) (top : Nat) (mode : Nat) (v : ℝ) (r : Nat × Status) : Prop :=
  ∃ y, Picks (onGrid f) (onEvenGrid f) mode v y
    ∧ (largest f < |y| → r = (top, { ovf := true, nx := true }))
    ∧ (|y| ≤ largest f → ∃ neg : Bool, (neg = true ↔ v < 0) ∧ Encodes f neg y r.1
      ∧ ∃ nx uf : Bool, (nx = true ↔ y ≠ v) ∧ (uf = true ↔ y ≠ v ∧ |y| < leastNormal f) ∧ r.2 = { nx := nx, uf := uf })

/-- A result is a value rounded once, with NV where the operation was invalid (R91, R97, R99). -/
def ValueRounded (f : FpFormat) (mode : Nat) (v : Fv) (nv : Bool) (r : Nat × Status) : Prop :=
  match v with
  | .nan _ => r = (f.canon, { nv := nv })
  | .inf n => r = (infinity f n, {})
  | .fin n m e => (m = 0 → r = (zeroOf f n, {}))
    ∧ (m ≠ 0 → Rounded f (overflowed f mode n) mode (exactValue (.fin n m e) : ℝ) r)

/-- p is the exact product of x and y, and whether forming it is invalid (R99, R100, R110). -/
def ProductIs (x y : Fv) (p : Fv × Bool) : Prop :=
  if x.isNan || y.isNan then p = (.nan false, x.isSignalling || y.isSignalling)
  else if (!x.isFin && y.isZero) || (x.isZero && !y.isFin) then p = (.nan false, true)
  else if !x.isFin || !y.isFin then p = (.inf (x.isNeg != y.isNeg), false)
  else p.2 = false ∧ ∃ m e, p.1 = .fin (x.isNeg != y.isNeg) m e ∧ exactValue p.1 = exactValue x * exactValue y

/-- Which case of R113 and R100 a sum of terms falls under: a NaN, an infinity, a zero with its sign, or a number. -/
def SumCase (zeroNeg : Bool) (terms : List Fv) (nan : Prop) (inf zero : Bool → Prop) (number : ℝ → Prop) : Prop :=
  if (terms.any Fv.isNan = true) ∨ (.inf false ∈ terms ∧ .inf true ∈ terms) then nan
  else if .inf false ∈ terms then inf false
  else if .inf true ∈ terms then inf true
  else if (terms.map exactValue).sum = 0 then zero (if terms.all fun t => t.isZero && t.isNeg then true else zeroNeg)
  else number ((terms.map exactValue).sum : ℚ)

/-- A result is the sum of terms rounded once in the mode (R97 to R100, R115); nv says that forming a term was invalid. -/
def SumRounded (f : FpFormat) (mode : Nat) (terms : List Fv) (nv : Bool) (r : Nat × Status) : Prop :=
  SumCase (mode == 3) terms
    (r = (f.canon, { nv := nv || terms.any Fv.isSignalling || (terms.contains (.inf false) && terms.contains (.inf true)) }))
    (fun n => r = (infinity f n, {})) (fun n => r = (zeroOf f n, {}))
    fun v => Rounded f (overflowed f mode (decide ((terms.map exactValue).sum < 0))) mode v r

/-- A result is a conversion to an integer between lo and hi, of n bits (R102). -/
def ConvertedToInt (n : Nat) (lo hi : ℤ) (mode : Nat) (v : Fv) (r : Nat × Status) : Prop :=
  let bits (k : ℤ) : Nat := (k % 2 ^ n).toNat
  match v with
  | .nan _ => r = (0, { nv := true })
  | .inf neg => r = (bits (if neg then lo else hi), { nv := true })
  | v => ∃ k : ℤ, Picks integral evenIntegral mode (exactValue v : ℝ) k
      ∧ r = if k < lo then (bits lo, { nv := true }) else if hi < k then (bits hi, { nv := true })
        else (bits k, { nx := decide ((k : ℚ) ≠ exactValue v) })

/-- A result is a conversion to a format whose infinity and overflow are given (R102). -/
def ConvertedToFp (f : FpFormat) (nan inf : Bool → Nat × Status) (top : Bool → Nat) (mode : Nat) (v : Fv) (r : Nat × Status) : Prop :=
  match v with
  | .nan s => r = nan s
  | .inf n => r = inf n
  | .fin n m e => (m = 0 → r = (zeroOf f n, {})) ∧ (m ≠ 0 → Rounded f (top n) mode (exactValue (.fin n m e) : ℝ) r)

/-- The rows of R102, by target code (R138). -/
def Converted (t mode : Nat) (v : Fv) (r : Nat × Status) : Prop :=
  let quiet (f : FpFormat) (s : Bool) : Nat × Status := (f.canon, { nv := s })
  let ieee (f : FpFormat) := ConvertedToFp f (quiet f) (fun n => (infinity f n, {})) (overflowed f mode) mode v r
  let saturating (f : FpFormat) := ConvertedToFp f (quiet f) (fun n => (extreme f n, { ovf := true })) (extreme f) mode v r
  match t with
  | 0 => ieee fp32
  | 1 => ieee fp16
  | 2 => ieee bf16
  | 3 => ConvertedToFp e4m3 (quiet e4m3) (fun _ => (0x7F, { nv := true })) (fun _ => 0x7F) mode v r
  | 4 => ieee e5m2
  | 5 => ConvertedToFp e2m1 (fun _ => (0, { nv := true })) (fun n => (extreme e2m1 n, { ovf := true })) (extreme e2m1) mode v r
  | 6 => ConvertedToInt 4 (-7) 7 mode v r
  | 7 => ConvertedToInt 8 (-128) 127 mode v r
  | 8 => ConvertedToInt 32 (-2 ^ 31) (2 ^ 31 - 1) mode v r
  | 9 => r = if v.isNan then (0, { nv := true }) else (if v.isZero then 0 else 1, {})
  | 10 => saturating e4m3
  | 11 => saturating e5m2
  | 12 => saturating fp16
  | _ => saturating bf16

/-- The number that a source of a conversion holds under the codes of integers and bits (R102, R138). -/
def sourceInt (code : Nat) (x : Word) : ℤ :=
  match code with
  | 6 => (x.setWidth 4).toInt
  | 7 => (x.setWidth 8).toInt
  | 8 => x.toInt
  | _ => if x.getLsbD 0 then 1 else 0

/-- One value lies below another, -0 below +0 (R101). -/
def below (x y : Fv) : Bool := valueBelow x y || (valueEqual x y && x.isNeg && !y.isNeg)

/-! ### Special functions (R116, R117, R363) -/

/-- The unit in the last place of a format in the binade of an exact number, with the subnormal spacing below the least normal. -/
noncomputable def unitAt (f : FpFormat) (y : ℝ) : ℝ := 2 ^ max (Int.log 2 |y| - (f.mb : ℤ)) f.minUnit

/-- A finite result lies within a bound of the exact one. -/
def Near (f : FpFormat) (bound y : ℝ) (r : Nat) : Prop := ∃ neg z, Encodes f neg z r ∧ |z - y| ≤ bound

/-- The rows of R117 for the infinities and the zeros; log of 0 and the like say DZ, invalid ones NV. -/
def specialAt (f : FpFormat) (fn : Nat) (inf neg : Bool) : Nat × Status :=
  let bad : Nat × Status := (f.canon, { nv := true })
  match fn, inf with
  | 0, true => (if neg then 0 else infinity f false, {})
  | 0, false => (oneOf f false, {})
  | 1, true => if neg then bad else (infinity f false, {})
  | 1, false => (infinity f true, { dz := true })
  | 2, true => (zeroOf f neg, {})
  | 2, false => (infinity f neg, { dz := true })
  | 3, true => if neg then bad else (0, {})
  | 3, false => (infinity f neg, { dz := true })
  | 4, true => if neg then bad else (infinity f false, {})
  | 4, false => (zeroOf f neg, {})
  | 5, true => bad
  | 5, false => (zeroOf f neg, {})
  | 6, true => bad
  | 6, false => (oneOf f false, {})
  | _, true => (oneOf f neg, {})
  | _, false => (zeroOf f neg, {})

/-- The formats of the special functions by their type code, and the bound of R116 in units of the last place (R74). -/
def specialFormat (ty : Nat) : FpFormat := [fp32, fp16, bf16].getD ty bf16
noncomputable def specialUnits (ty : Nat) : ℝ := if ty = 0 then 2 else 1

/-- The number that a finite operand of a special-function word holds, when it is not zero. -/
def OperandIs (ty x : Nat) (v : ℝ) : Prop :=
  v ≠ 0 ∧ x < 2 ^ ((specialFormat ty).eb + (specialFormat ty).mb + 1) ∧ ∃ neg, Encodes (specialFormat ty) neg v x

end Sys2Proof.Stmt

/-- R89 to R91, R96 to R100, R115, R134, R137: an encoding stands for the value of its fields; add, sub, mul and fma of FP32, BF16 and FP16
give the exact result rounded once in each of the four modes, with NaNs, infinities, the sign of an exact zero, the overflow of each mode and
every status bit; so do scale.f32 and dot4.e4m3. -/
def Obligations.ArithmeticRoundsOnce : Prop :=
  (∀ row ∈ formatRows, ∃ f eb mb b big canon infs nans, row = (f, eb, mb, b, big, canon, infs, nans) ∧ f.maxFinite = big ∧ f.canon = canon
    ∧ ∀ x < 2 ^ (eb + mb + 1), StandsFor eb mb b infs nans (decide (f = e4m3 ∨ f = e5m2)) x (f.decode x))
  ∧ (∀ f ∈ laneFormats, ∀ mode < 4, ∀ a b c : Nat,
    let x := f.decode a
    let y := f.decode b
    SumRounded f mode [x, y] false (fpAdd f mode a b) ∧ SumRounded f mode [x, y.negate] false (fpSub f mode a b)
    ∧ ∃ p : Fv × Bool, ProductIs x y p ∧ ValueRounded f mode p.1 p.2 (fpMul f mode a b)
      ∧ SumRounded f mode [p.1, f.decode c] p.2 (fpFma f mode a b c))
  ∧ (∀ mode < 4, ∀ (a : Word) (n : ℤ), match fp32.decode a.toNat with
    | .fin neg m e => ValueRounded fp32 mode (.fin neg m (e + n)) false (fpScale mode a.toNat n)
    | v => ValueRounded fp32 mode v v.isSignalling (fpScale mode a.toNat n))
  ∧ ∀ mode < 4, ∀ a b c : Word, ∃ ps : List Fv, ps.length = 4
    ∧ (∀ k < 4, ∃ p, ps[k]? = some p
      ∧ ProductIs (e4m3.decode (a.extractLsb' (8 * k) 8).toNat) (e4m3.decode (b.extractLsb' (8 * k) 8).toNat) (p, false))
    ∧ SumRounded fp32 mode (ps ++ [fp32.decode c.toNat]) false (dot4 mode a.toNat b.toNat c.toNat)

/-- R92, R101, R102, R136, R138, R139, R141: a conversion reads its source's value and gives the row of R102 for its target in each mode; rnd
gives the integral value that the mode selects; minimum and maximum follow the two disciplines, with -0 below +0. -/
def Obligations.ConversionsRound : Prop :=
  (∀ x : Word, (∀ c < 6, cvtSource c x.toNat = [fp32.decode x.toNat, fp16.decode (x.setWidth 16).toNat, bf16.decode (x.setWidth 16).toNat,
      e4m3.decode (x.setWidth 8).toNat, e5m2.decode (x.setWidth 8).toNat, e2m1.decode (x.setWidth 4).toNat].getD c (.nan false))
    ∧ ∀ c, 6 ≤ c → c < 10 → ∃ m e, cvtSource c x.toNat = .fin (decide (sourceInt c x < 0)) m e
      ∧ exactValue (cvtSource c x.toNat) = sourceInt c x)
  ∧ (∀ t < 14, ∀ src < 10, ∀ mode < 4, ∀ x : Word, Converted t mode (cvtSource src x.toNat) (convert t src mode x.toNat))
  ∧ (∀ f ∈ laneFormats, ∀ mode < 4, ∀ x < 2 ^ (f.eb + f.mb + 1), match f.decode x with
    | .nan s => roundIntegral f mode x = (f.canon, { nv := s })
    | .inf _ => roundIntegral f mode x = (x, {})
    | .fin neg m e => (m = 0 → roundIntegral f mode x = (x, {}))
      ∧ (m ≠ 0 → ∃ k : ℤ, Picks integral evenIntegral mode (exactValue (.fin neg m e) : ℝ) k
        ∧ Encodes f neg k (roundIntegral f mode x).1
        ∧ (roundIntegral f mode x).2 = { nx := decide ((k : ℚ) ≠ exactValue (.fin neg m e)) }))
  ∧ ∀ (max number : Bool) (a b : Word),
    let x := fp32.decode a.toNat
    let y := fp32.decode b.toNat
    let r := fpMinMax fp32 max number a.toNat b.toNat
    r.2 = { nv := x.isSignalling || y.isSignalling }
    ∧ (if x.isNan || y.isNan then
        r.1 = if number = false ∨ (x.isNan = true ∧ y.isNan = true) then 0x7FC00000 else if x.isNan then b.toNat else a.toNat
      else (r.1 = a.toNat ∨ r.1 = b.toNat)
        ∧ ∀ v ∈ [x, y], (if max then below (fp32.decode r.1) v else below v (fp32.decode r.1)) = false)

/-- R116, R117, R363: special functions at NaNs, infinities and zeros, and below zero, give the rows of the table with their status bits; rcp
and sqrt are correctly rounded, rcp with OF and UF as R363 judges them, and rsqrt lies within its bound and is exact at the powers of 4. -/
def Obligations.SpecialTableAndRoots : Prop :=
  ∀ fn < 8, ∀ ty < 3, ∀ x : Nat, x < 2 ^ ((specialFormat ty).eb + (specialFormat ty).mb + 1) →
    let f := specialFormat ty
    let r := specialFn fn ty x
    match f.decode x with
    | .nan s => r = (f.canon, { nv := s })
    | .inf neg => r = specialAt f fn true neg
    | .fin neg m e => (m = 0 → r = specialAt f fn false neg)
      ∧ (m ≠ 0 → ∀ v : ℝ, v = (exactValue (.fin neg m e) : ℝ) →
        (v < 0 → fn = 1 ∨ fn = 3 ∨ fn = 4 → r = (f.canon, { nv := true }))
        ∧ (fn = 1 → v = 1 → r = (0, {}))
        ∧ (fn = 2 → ∃ y, Picks (onGrid f) (onEvenGrid f) 0 (1 / v) y
          ∧ (largest f < |y| → r = (infinity f neg, { ovf := true }))
          ∧ (|y| ≤ largest f → Encodes f neg y r.1
            ∧ ∃ uf : Bool, (uf = true ↔ y ≠ 1 / v ∧ |y| < leastNormal f) ∧ r.2 = { uf := uf }))
        ∧ (fn = 3 → 0 < v → r.2 = {} ∧ (∀ k : ℤ, v = 4 ^ k → Encodes f false (2 ^ (-k)) r.1)
          ∧ Near f ((if ty = 0 then 1 else 1 / 2) * unitAt f (1 / Real.sqrt v)) (1 / Real.sqrt v) r.1)
        ∧ (fn = 4 → 0 < v → r.2 = {} ∧ ∃ y, Picks (onGrid f) (onEvenGrid f) 0 (Real.sqrt v) y ∧ Encodes f false y r.1))

/-- R116, R117, R363: exp, log, sin, cos and tanh of finite operands that are not zero lie within their bounds of the real functions. exp gives
+∞ with OF where its rounding to nearest lies beyond the largest finite value, +0 with UF below the least subnormal, and sets UF below the
least normal; tanh never exceeds 1 in magnitude. Beyond 2^20 the model gives sin and cos half a unit where 2^-20 is less (log 25). -/
def Obligations.SpecialBounds : Prop :=
  ∀ ty < 3, ∀ (x : Nat) (v : ℝ), OperandIs ty x v →
    let f := specialFormat ty
    let near (fn : Nat) (bound y : ℝ) : Prop := (specialFn fn ty x).2 = {} ∧ Near f bound y (specialFn fn ty x).1
    let trig (fn : Nat) (y : ℝ) : Prop :=
      near fn (if |v| ≤ 2 ^ 20 then max (specialUnits ty * unitAt f y) (if ty = 0 then 2 ^ (-22 : ℤ) else 2 ^ (-10 : ℤ))
        else max (2 ^ (-20 : ℤ)) (unitAt f y / 2)) y
    (∃ y, Picks (onGrid f) (onEvenGrid f) 0 (Real.exp v) y
      ∧ (largest f < y → specialFn 0 ty x = (infinity f false, { ovf := true }))
      ∧ (y ≤ largest f → Real.exp v < 2 ^ f.minUnit → specialFn 0 ty x = (0, { uf := true }))
      ∧ (y ≤ largest f → 2 ^ f.minUnit ≤ Real.exp v →
        (∃ z, Encodes f false z (specialFn 0 ty x).1 ∧ |z - Real.exp v| ≤ specialUnits ty * unitAt f (Real.exp v))
        ∧ ∃ uf : Bool, (uf = true ↔ y < leastNormal f) ∧ (specialFn 0 ty x).2 = { uf := uf }))
    ∧ (0 < v → v ≠ 1 → near 1 (specialUnits ty * unitAt f (Real.log v)) (Real.log v))
    ∧ trig 5 (Real.sin v) ∧ trig 6 (Real.cos v)
    ∧ near 7 (specialUnits ty * unitAt f (Real.tanh v)) (Real.tanh v)
    ∧ ∃ neg z, Encodes f neg z (specialFn 7 ty x).1 ∧ |z| ≤ 1

namespace Sys2Proof.Stmt
open Sys2Proof.Machine

/-! ### The elements and the cells of matrix words (R88, R94, R95, R103 to R114, R220 to R237) -/

/-- The bytes of a block are given up to outliers (R94). -/
def givenUp (block : Nat → Byte) : Nat → Bool
  | 0 => false
  | j + 1 => !givenUp block j && (block j).toNat % 16 == 8

/-- Element i of an I4X block, none for an illegal code (R93, R94). -/
def i4xElement (block : Nat → Byte) (i : Nat) : Option Fv :=
  let code := (block (i / 2)).extractLsb' (4 * (i % 2)) 4
  if givenUp block (i / 2) then some (.fin false 0 0)
  else if code ≠ 8 then some (fvOfInt code.toInt)
  else if i % 2 = 0 ∧ i / 2 < 7 then some (e4m3.decode (block (i / 2 + 1)).toNat)
  else none

/-- Element k of a run of bytes (R88, R89 to R94). -/
def elementOf (f : MatIn) (bs : Nat → Byte) (k : Nat) : Option Fv :=
  let half := bs (2 * k + 1) ++ bs (2 * k)
  let word := bs (4 * k + 3) ++ bs (4 * k + 2) ++ bs (4 * k + 1) ++ bs (4 * k)
  match f with
  | .e4m3 => some (e4m3.decode (bs k).toNat)
  | .e5m2 => some (e5m2.decode (bs k).toNat)
  | .i8 => some (fvOfInt (bs k).toInt)
  | .bf16 => some (bf16.decode half.toNat)
  | .f16 => some (fp16.decode half.toNat)
  | .f32 => some (fp32.decode word.toNat)
  | .i32 => some (fvOfInt word.toInt)
  | .e2m1 => some (e2m1.decode ((bs (k / 2)).extractLsb' (4 * (k % 2)) 4).toNat)
  | .b1 => some (.fin false (if (bs (k / 8)).getLsbD (k % 8) then 1 else 0) 0)
  | .i4x => i4xElement (fun j => bs (8 * (k / 16) + j)) (k % 16)

/-- The two inputs of a matrix word (R229, R232). -/
def inputsOf : XKind → MatIn × MatIn
  | .mma p _ => [(.e4m3, .e4m3), (.e4m3, .e5m2), (.e5m2, .e4m3), (.e5m2, .e5m2), (.i8, .i8), (.bf16, .bf16), (.f16, .f16), (.e2m1, .e2m1),
      (.i4x, .i4x)].getD p (.i4x, .i4x)
  | .smm ty _ => [(.f32, .f32), (.i32, .i32), (.bf16, .bf16), (.b1, .b1)].getD ty (.b1, .b1)
  | _ => (.f32, .f32)

/-- The bits of an element, and the dense depth K (R222). -/
def bitsOfIn : MatIn → Nat
  | .e4m3 | .e5m2 | .i8 => 8
  | .bf16 | .f16 => 16
  | .e2m1 | .i4x => 4
  | .f32 | .i32 => 32
  | .b1 => 1
def depthOf (f : MatIn) : Nat := if bitsOfIn f = 32 then 8 else 512 / bitsOfIn f

/-- Whether a word is sparse, its N, its logical depth KL and its valid depth (R221, R222). -/
def isSparse : XKind → Bool
  | .mma _ s => s
  | .smm _ s => s
  | _ => false
def nOf (m : Word) : Nat := [2, 8, 4, 2].getD (m.extractLsb' 26 2).toNat 2
def logicalDepth (x : XOp) : Nat :=
  (if isSparse x.kind then (if nOf x.mctl = 8 then 2 else 4) else 1) * depthOf (inputsOf x.kind).1
def validOf (x : XOp) : Nat := if x.mctl.extractLsb' 0 10 = 0 then logicalDepth x else (x.mctl.extractLsb' 0 10).toNat

/-- A word's elements carry scales (R103, R221, R229). -/
def scalesOf (x : XOp) : Bool :=
  match x.kind with
  | .mma p _ => decide (p = 7 ∨ p = 8) || (decide (p ≤ 3) && x.mctl.getLsbD 22)
  | _ => false

/-- A matrix word as its checks let it issue (R224, R229, R231, R232, R237): codes that stand for something, and an entry of its kind. -/
def matrixWordFits (x : XOp) : Bool :=
  let cmb := x.entry.ctl.toNat % 16
  let red := x.entry.ctl.toNat / 16 % 16
  match x.kind with
  | .mma p _ => decide (p < 9 ∧ (x.entryNo = 0 ∨ (8 ≤ x.entryNo ∧ cmb = 0 ∧ red = 0)))
  | .smm ty sparse =>
    decide (ty < 4) && !(ty == 3 && sparse)
      && (if x.entryNo = 0 then true else if x.entryNo ≤ 5 then ty != 3 else if x.entryNo < 8 then ty == 3
        else if ty = 3 then decide (red = 0 ∨ red = 3 ∨ red = 4) else decide (cmb ≤ 3 ∧ red ≤ 2))
  | _ => false

/-- The combine, the reduction, and the NaN discipline, ties and overflow of a word's entry (R231, R236, R238). -/
def entryOf (x : XOp) : Nat × Nat × Bool × Bool × Bool :=
  if x.entryNo < 8 then
    let o := [(0, 0), (1, 1), (1, 2), (0, 2), (2, 2), (3, 1), (4, 3), (4, 4)].getD x.entryNo (0, 0)
    (o.1, o.2, false, false, false)
  else (x.entry.ctl.toNat % 16, x.entry.ctl.toNat / 16 % 16, x.entry.ctl.getLsbD 10, x.entry.ctl.getLsbD 11, x.entry.ctl.getLsbD 12)

/-- The value of a padded element (R231, R236, R238). -/
def padOf (x : XOp) : Fv :=
  if x.entryNo < 8 then
    match (inputsOf x.kind).1 with
    | .i8 | .b1 => .fin false 0 0
    | .i32 => fvOfInt ([0, 2 ^ 31 - 1, -2 ^ 31, -2 ^ 31, -2 ^ 31, 2 ^ 31 - 1].getD x.entryNo 0)
    | f => if f = .f32 ∨ f = .bf16 ∧ (x.kind = .smm 2 false ∨ x.kind = .smm 2 true) then
        match x.entryNo with
        | 0 => .fin false 0 (if f = .f32 then -149 else -133)
        | 1 | 5 => .inf false
        | _ => .inf true
      else .fin false 0 (-149)
  else
    match x.kind with
    | .mma p _ => if p = 4 then fvOfInt x.entry.pad.toInt else fp32.decode x.entry.pad.toNat
    | .smm 0 _ => fp32.decode x.entry.pad.toNat
    | .smm 1 _ => fvOfInt x.entry.pad.toInt
    | .smm 2 _ => bf16.decode (x.entry.pad.setWidth 16).toNat
    | _ => .fin false (if x.entry.pad.getLsbD 0 then 1 else 0) 0

/-- What an illegal I4X code gives (R95). -/
def illegalOf (x : XOp) : Fv :=
  match if x.entryNo < 8 then 0 else (x.entry.ctl.extractLsb' 13 2).toNat with
  | 0 => .fin false 0 0
  | 1 => .fin true 8 0
  | 2 => .nan false
  | _ => padOf x

/-- Word r of the side block at a lane. -/
def sideAt (x : XOp) (r lane : Nat) : Word := (x.side.getD r []).getD lane 0

/-- The scale byte of line l at a logical position (R104 to R106, R223). -/
def scaleByte (x : XOp) (isB : Bool) (l k : Nat) : Nat :=
  let K := depthOf (inputsOf x.kind).1
  let block := (x.mctl.extractLsb' 23 3).toNat + k % K / (if (inputsOf x.kind).1 = .i4x then 16 else 32)
  ((sideAt x (8 * (k / K) + (if isB then 4 else 0) + 2 * (block / 4) + l / 32) (l % 32)).extractLsb' (8 * (block % 4)) 8).toNat

/-- An element takes its decoded value, or its illegal code's, times its scale (R95, R103). -/
def ElementIs (x : XOp) (isB : Bool) (l k : Nat) (decoded : Option Fv) (w : Fv) : Prop :=
  let v := decoded.getD (illegalOf x)
  if scalesOf x = false then w = v
  else if scaleByte x isB l k = 255 then w.isNan = true
  else match v with
    | .fin n m e => ∃ m' e', w = .fin n m' e' ∧ exactValue w = exactValue (.fin n m e) * 2 ^ ((scaleByte x isB l k : ℤ) - 127)
    | v => w = v

/-- Position j of group g of column n in the metadata (R108, R223). -/
def positionOf (x : XOp) (n g j : Nat) : Nat :=
  let first := if scalesOf x then 8 * (logicalDepth x / depthOf (inputsOf x.kind).1) else 0
  let t := 4 * nOf x.mctl * g + 4 * j
  ((sideAt x (first + t / 32) n).extractLsb' (t % 32) 4).toNat

/-- A term of a semiring from its two elements (R110, R233). -/
def CombineIs (cmb : Nat) (number : Bool) (a b t : Fv) : Prop :=
  match cmb with
  | 0 => ∃ nv, ProductIs a b (t, nv)
  | 1 => SumCase false [a, b] (t.isNan = true) (fun n => t = .inf n) (fun n => ∃ e, t = .fin n 0 e)
      fun v => ∃ n m e, t = .fin n m e ∧ (exactValue t : ℝ) = v
  | c => if a.isNan || b.isNan then
      (if number && !(a.isNan && b.isNan) then t = (if a.isNan then b else a) else t.isNan = true)
    else (t = a ∨ t = b) ∧ ∀ v ∈ [a, b], (if c = 2 then below v t else below t v) = false

/-- An FP32 result is an exact number rounded once under an entry: to nearest, with its ties and its overflow (R113, R231). -/
def EntryRounded (away sat : Bool) (v : ℝ) (out : Nat) : Prop :=
  ∃ y, ∃ neg : Bool, Picks (onGrid fp32) (onEvenGrid fp32) (if away then 4 else 0) v y ∧ (neg = true ↔ v < 0)
    ∧ (largest fp32 < |y| → out = if sat then extreme fp32 neg else infinity fp32 neg) ∧ (|y| ≤ largest fp32 → Encodes fp32 neg y out)

/-- Align40 (R112): every finite product keeps 40 bits below the leading bit of the largest, and its sign. -/
def Aligned (ps qs : List Fv) : Prop :=
  if ps.all Fv.isFin = true ∧ ps.any (fun p => !p.isZero) = true then
    ∃ E : ℤ, (∃ p ∈ ps, (2 : ℚ) ^ E ≤ |exactValue p|) ∧ (∀ p ∈ ps, |exactValue p| < (2 : ℚ) ^ (E + 1))
      ∧ List.Forall₂ (fun p q => q.isFin = true ∧ q.isNeg = p.isNeg ∧ (∃ k : ℤ, exactValue q = k * 2 ^ (E - 40))
        ∧ |exactValue q| ≤ |exactValue p| ∧ |exactValue p| - |exactValue q| < (2 : ℚ) ^ (E - 40)) ps qs
  else qs = ps

/-- BlockRound (R111 to R113): the accumulator takes one K-block of products. -/
def BlockStep (away sat align : Bool) (acc : Nat) (ps : List Fv) (out : Nat) : Prop :=
  ∃ qs, (if align then Aligned ps qs else qs = ps)
    ∧ SumCase false (fp32.decode acc :: qs) (out = 0x7FC00000) (fun n => out = infinity fp32 n) (fun n => out = zeroOf fp32 n)
      fun v => EntryRounded away sat v out

/-- One block after another (R111). -/
def BlocksThrough (step : Nat → List Fv → Nat → Prop) : List (List Fv) → Nat → Nat → Prop
  | [], acc, out => out = acc
  | b :: bs, acc, out => ∃ mid, step acc b mid ∧ BlocksThrough step bs mid out

/-- Reduction by min or max (R233): the accumulator and all terms in one step, rounded once. -/
def ReducedTo (max number away sat : Bool) (acc : Nat) (terms : List Fv) (out : Nat) : Prop :=
  let all := fp32.decode acc :: terms
  if (number = false ∧ all.any Fv.isNan = true) ∨ all.all Fv.isNan = true then out = 0x7FC00000
  else ∃ z ∈ all, z.isNan = false ∧ (∀ y ∈ all, y.isNan = false → (if max then below z y else below y z) = false)
    ∧ match z with
      | .inf n => out = infinity fp32 n
      | z => if z.isZero then out = zeroOf fp32 z.isNeg else EntryRounded away sat (exactValue z : ℝ) out

/-- An integer kept between the two codes of R234, which stand for the infinities. -/
def clamp (n : ℤ) : ℤ := max (-2 ^ 31) (min (2 ^ 31 - 1) n)
def isInf (n : ℤ) : Bool := decide (n = 2 ^ 31 - 1 ∨ n = -2 ^ 31)

/-- A sum under R234: opposite infinities give the identity, one infinity itself. -/
def sumCodes (ident : ℤ) (xs : List ℤ) : ℤ :=
  if 2 ^ 31 - 1 ∈ xs ∧ -2 ^ 31 ∈ xs then ident
  else if 2 ^ 31 - 1 ∈ xs then 2 ^ 31 - 1 else if -2 ^ 31 ∈ xs then -2 ^ 31 else clamp xs.sum

/-- A combine under R234. -/
def combineCodes (cmb : Nat) (ident a b : ℤ) : ℤ :=
  match cmb with
  | 0 => if isInf a || isInf b then (if a = 0 ∨ b = 0 then 0 else if (a < 0) = (b < 0) then 2 ^ 31 - 1 else -2 ^ 31) else clamp (a * b)
  | 1 => sumCodes ident [a, b]
  | 2 => min a b
  | _ => max a b

end Sys2Proof.Stmt

/-- R88 to R95, R103 to R108, R220 to R223, R230, R231, R236, R238: element k of row m of A and of column n of B of a matrix word: the
padding value where the row or the column is padded or k is at or beyond KV; else the decoded element of the run times the scale of its line and
block; in a sparse B the stored value that the metadata places at k, or none. -/
def Obligations.MatrixElements : Prop :=
  ∀ (q : Quarter) (x : XOp), matrixWordFits x = true →
    let f := inputsOf x.kind
    let KL := logicalDepth x
    let byteOf (b : List Byte) (i : Nat) : Byte := b.getD i 0
    (∀ m < 64, ∀ k < KL, match latchRun q.latchA x.latchA m with
      | none => elemA q x m k = padOf x
      | some b => b.length = KL * bitsOfIn f.1 / 8 →
        if validOf x ≤ k then elemA q x m k = padOf x else ElementIs x false m k (elementOf f.1 (byteOf b) k) (elemA q x m k))
    ∧ ∀ n < 32, ∀ k < KL, match latchRun q.latchB x.latchB n with
      | none => elemB q x n k = some (padOf x)
      | some b => b.length = (if isSparse x.kind then KL * nOf x.mctl / 16 else KL) * bitsOfIn f.2 / 8 →
        if validOf x ≤ k then elemB q x n k = some (padOf x)
        else if isSparse x.kind = false then ∃ w, elemB q x n k = some w ∧ ElementIs x true n k (elementOf f.2 (byteOf b) k) w
        else (∀ j, j + 1 < nOf x.mctl → positionOf x n (k / 16) j < positionOf x n (k / 16) (j + 1)) →
          (∀ j < nOf x.mctl, positionOf x n (k / 16) j = k % 16 →
            ∃ w, elemB q x n k = some w ∧ ElementIs x true n k (elementOf f.2 (byteOf b) (nOf x.mctl * (k / 16) + j)) w)
          ∧ ((∀ j < nOf x.mctl, positionOf x n (k / 16) j ≠ k % 16) → elemB q x n k = none)

/-- R110 to R113, R230, R231, R233, R236, R237: a cell of a matrix word over floating-point inputs: each position's term is the exact combine of
its elements; a plus entry adds them block by block to the FP32 accumulator, each block rounded once, after Align40 where the inputs are 16
bits wide and multiplied; a min or max entry reduces them with the accumulator in one step. An omitted position gives +0 to mma and to entry 0, else
no term (log 47). -/
def Obligations.FloatingCells : Prop :=
  ∀ (q : Quarter) (x : XOp) (acc : Word) (m n : Nat), matrixWordFits x = true → (inputsOf x.kind).1 ∉ [.i8, .i32, .b1] →
    let (cmb, red, number, away, sat) := entryOf x
    let isMma := ∃ p s, x.kind = .mma p s
    let wide := decide (bitsOfIn (inputsOf x.kind).1 = 16)
    ∃ terms : Nat → Option Fv,
      (∀ k < logicalDepth x, match elemB q x n k with
        | some b => ∃ t, terms k = some t ∧ CombineIs cmb number (elemA q x m k) b t
        | none => ((isMma ∨ x.entryNo = 0) → terms k = some (.fin false 0 0)) ∧ (¬ (isMma ∨ x.entryNo = 0) → terms k = none))
      ∧ (red = 0 → ∃ size : Nat, (isMma → size = if wide then 16 else 32) ∧ (¬ isMma → size = if wide then 16 else 8)
        ∧ BlocksThrough (BlockStep away sat (wide && decide (cmb = 0)))
          ((List.range (logicalDepth x / size)).map fun j => (List.range size).filterMap fun i => terms (j * size + i))
          acc.toNat (matrixCell q x acc m n).toNat)
      ∧ (red ≠ 0 → ReducedTo (decide (red = 2)) number away sat acc.toNat ((List.range (logicalDepth x)).filterMap terms)
          (matrixCell q x acc m n).toNat)

/-- R114, R230, R231, R233, R234, R236, R237: a cell of a matrix word over integers or bits. Times and plus add the exact products modulo 2^32;
other entries of i32 take the two extreme codes as infinities and saturate, a sum of all terms at once (log 46); b1 counts the positions at which
both bits are 1, or reduces them to one bit. -/
def Obligations.IntegerCells : Prop :=
  ∀ (q : Quarter) (x : XOp) (acc : Word) (m n : Nat) (a b : Nat → ℤ), matrixWordFits x = true → (inputsOf x.kind).1 ∈ [.i8, .i32, .b1] →
    (∀ k < logicalDepth x, (a k : ℚ) = exactValue (elemA q x m k) ∧ ∀ w, elemB q x n k = some w → (b k : ℚ) = exactValue w) →
    let (cmb, red, _, _, _) := entryOf x
    let ks := (List.range (logicalDepth x)).filter fun k => (elemB q x n k).isSome
    let ident := if x.entryNo < 8 then [0, 2 ^ 31 - 1, -2 ^ 31, -2 ^ 31, -2 ^ 31, 2 ^ 31 - 1].getD x.entryNo 0 else x.entry.ident.toInt
    let terms := ks.map fun k => combineCodes cmb ident (a k) (b k)
    let ones := ks.countP fun k => a k == 1 && b k == 1
    let cell := matrixCell q x acc m n
    if (inputsOf x.kind).1 = .b1 then
      cell = if red = 0 then acc + BitVec.ofNat 32 ones
        else if red = 3 then (if acc.getLsbD 0 ∨ 0 < ones then 1 else 0) else BitVec.ofNat 32 ((acc.toNat + ones) % 2)
    else if cmb = 0 ∧ red = 0 then cell = BitVec.ofInt 32 (acc.toInt + (ks.map fun k => a k * b k).sum)
    else if red = 0 then cell.toInt = sumCodes ident (acc.toInt :: terms)
    else cell.toInt ∈ acc.toInt :: terms ∧ ∀ t ∈ acc.toInt :: terms, if red = 2 then t ≤ cell.toInt else cell.toInt ≤ t

/-- R28, R76, R172, R174, R179, R184, R193, R316, R355, R358: memory words that fail a check at issue trap, for an address that no rule allows and for a misaligned global one; so does an access that meets a unit that is not ready or writes a sealed frame. -/
def Obligations.MemoryWordsTrap : Prop :=
  FailedChecksTrap ∧ MisalignedGlobalTraps ∧ FailedAccessTraps

/-- R179, R181, R184, R188: loads of global memory, scratchpad and weight store finish with the bytes of their places. -/
def Obligations.LoadsFinish : Prop :=
  LoadFinishes ∧ LocalLoadFinishes

/-- R179, R181, R184, R188: stores to global memory and to scratchpad, spills among them, write their bytes. -/
def Obligations.StoresFinish : Prop :=
  StoreFinishes ∧ ScratchpadWrites

/-- R203 to R207: what each word of a barrier does to its object, and how waits at it end. -/
def Obligations.BarriersTurn : Prop :=
  BarrierWordFinishes ∧ BarrierWaitEnds

/-- R106, R107, R241: scale loads record their accesses and write the lanes' registers. -/
def Obligations.ScaleLoadsComplete : Prop :=
  ScaleLoadRecords ∧ ScaleWordsFinish

/-- R197 to R199, R216, R217, R245: the engine words record their requests, and the requests finish. -/
def Obligations.EngineWordsComplete : Prop :=
  EngineWordRecords ∧ EngineRequestsFinish ∧ ResultFinishes ∧ CommitWrites

/-- R210, R247, R248: kvres resolves handles, and kick accepts records. -/
def Obligations.EnginesAccept : Prop :=
  KvresResolves ∧ KickAccepts

/-- R208 to R214: an accepted record begins, and moves its words. -/
def Obligations.CopiesRun : Prop :=
  CopyBegins ∧ CopyMovesWord

/-- R28, R218 to R225: matrix words queue their operation, or trap where their group's shape is wrong. -/
def Obligations.MatrixWordsIssue : Prop :=
  MatrixWordIssues ∧ GroupWordShapeTraps

/-- R225 to R237: a queued word gathers its operands, executes its rows and leaves the queue. -/
def Obligations.MatrixWordsRun : Prop :=
  GatherCompletes ∧ MatrixExecutes

/-- R240: landing slots are filled, and mtosp writes their rows. -/
def Obligations.LandingWordsRun : Prop :=
  LandingFills ∧ MtospWritesRows

/-- R238, R239, R243, R244: operator-table entries and mask programs load. -/
def Obligations.TablesLoad : Prop :=
  OperatorTableLoads ∧ MaskProgramLoads

/-- R242 to R246: mask words write their classes and bits, or trap. -/
def Obligations.MaskWordsAct : Prop :=
  MaskWordEffect ∧ MaskWordTraps

/-- R151, R152: calls move windows up, returns move them back, and a return right after a call restores all. -/
def Obligations.CallsAndReturns : Prop :=
  CallMovesWindow ∧ ReturnRestores ∧ CallThenReturn

/-- R44, R63 to R71, R77, R157 to R162, R187, R195: the words that only go on, those that change one mark of their group, and the prefixes. -/
def Obligations.PlainWordsComplete : Prop :=
  QuietWordsComplete ∧ SystemWordsComplete ∧ PrefixesApply

/-- R159, R163 to R169: control registers and the predicate word are read and written. -/
def Obligations.ControlRegisters : Prop :=
  ControlRegisterRead ∧ ControlRegisterWrite ∧ TokenRingMembership ∧ PredicateWordMoves

/-- R15, R17, R18, R31, R43, R154: spawn creates fibres, and end ends them. -/
def Obligations.FibresBeginAndEnd : Prop :=
  SpawnCreatesFibres ∧ EndEndsFibres

/-- R278, R279, R340 to R342: the two words of the host-die harts, and the user trap. -/
def Obligations.HartsRun : Prop :=
  HartSubmits ∧ HartUserTraps

/-- R62, R171, R173, R333, R336, R337, R350 to R354: traps reach a kiosk's queue, and the kiosk acts on its window's group. -/
def Obligations.KiosksAct : Prop :=
  TrapsAreDelivered ∧ KioskCommands ∧ KioskWindow

/-- R282 to R284, R286, R293: a record's entries act. -/
def Obligations.ListsRun : Prop :=
  ListControlGoes ∧ ListValuesAct ∧ ListStartsWork

/-- R278 to R281: records are submitted, taken, and end with their status. -/
def Obligations.RecordsComeAndGo : Prop :=
  RecordsAreTaken ∧ RecordsEnd

/-- R305, R307 to R311, R313: requests queue and start, moves switch and end, shared pages are handed over. -/
def Obligations.MigrationRuns : Prop :=
  MigrationQueues ∧ MovesSwitch ∧ PagesAreHandedOver

/-- R249, R250, R299, R300: translation caches and street directories drop and take entries. -/
def Obligations.CachesFollow : Prop :=
  TranslationsInvalidated ∧ HostTranslationsAnswer ∧ StreetDirectoryChanges

/-- R323, R328 to R334: ladders run, and groups are saved. -/
def Obligations.ContextsTakeTurns : Prop :=
  LaddersRun ∧ GroupsAreSaved

/-- R292, R317, R318, R321, R322, R326: the owner's registers. -/
def Obligations.PartitionRegisters : Prop :=
  ShareRegisters ∧ BindingRegisters

/-- R8, R285, R338, R339, R346, R348, R350, R355, R356: every other register with an effect. -/
def Obligations.OtherRegisters : Prop :=
  FunctionRegisters ∧ KioskAndKeyRegisters

/-- R256, R290, R292, R343, R347, R355: bring-up and management, and what passing time brings. -/
def Obligations.PartStarts : Prop :=
  BringUpReports ∧ TimeBrings

/-- R46 to R48: relocate's answer, and the move. -/
def Obligations.GroupsMoveAway : Prop :=
  RelocateDecides ∧ GroupsAreRelocated

/-- R175 to R193, R203: the words of global memory, of scratchpad, of the weight store and of barriers complete their issue and record their accesses. -/
def Obligations.AccessesAreRecorded : Prop :=
  GlobalWordRecords ∧ LocalWordRecords

/-- R23, R58, R76, R78, R160, R170, R171, R337: a word that fails a check of its format, prefixes or registers traps precisely, and so do brk and trap. -/
def Obligations.WordsTrap : Prop :=
  CheckedWordsTrap ∧ TrapWordsTrap
end

