-- ==== Sys2Proof/Laws/Bits.lean ====
section
/-! SUPPORT. Values built bit by bit: what each bit of one is. -/

namespace Sys2Proof.Machine

theorem oneShift_bit {w : Nat} (k i : Nat) : (1#w <<< k).getLsbD i = (decide (i = k) && decide (i < w)) := by
  simp only [BitVec.getLsbD_shiftLeft, BitVec.getLsbD_one]
  by_cases h : i = k
  · subst h; by_cases hw : i < w <;> simp [hw]; omega
  · simp [h]; omega

/-- A value whose bit k is set where h k holds. -/
theorem foldBits_bit {w : Nat} (h : Nat → Bool) (n i : Nat) :
    ((List.range n).foldl (fun (acc : BitVec w) k => if h k then acc ||| (1#w <<< k) else acc) 0).getLsbD i
      = (decide (i < n) && decide (i < w) && h i) := by
  induction n with
  | zero => simp
  | succ n ih =>
    rw [List.range_succ, List.foldl_append, List.foldl_cons, List.foldl_nil]
    split
    · next hn =>
      rw [BitVec.getLsbD_or, ih, oneShift_bit]
      by_cases hi : i = n
      · subst hi; simp [hn]
      · have : (i < n + 1) = (i < n) := by apply propext; omega
        simp [hi, this]
    · next hn =>
      rw [ih]
      by_cases hi : i = n
      · subst hi; simp [hn]
      · have : (i < n + 1) = (i < n) := by apply propext; omega
        simp [this]

theorem ofBits64_bit (h : Nat → Bool) (i : Nat) : (ofBits64 h).getLsbD i = (decide (i < 64) && h i) := by
  rw [ofBits64, foldBits_bit]; simp

theorem reverseBits_bit (a : Word) (i : Nat) : (reverseBits a).getLsbD i = (decide (i < 32) && a.getLsbD (31 - i)) := by
  rw [reverseBits, foldBits_bit]; simp

theorem maskOf_bit (lanes : List Nat) (i : Nat) : (maskOf lanes).getLsbD i = (decide (i < 64) && lanes.contains i) := by
  have gen : ∀ m : BitVec 64, (lanes.foldl (fun m i => m ||| 1#64 <<< i) m).getLsbD i
      = (m.getLsbD i || (decide (i < 64) && lanes.contains i)) := by
    induction lanes with
    | nil => simp
    | cons l ls ih =>
      intro m
      rw [List.foldl_cons, ih, BitVec.getLsbD_or, oneShift_bit, List.contains_cons]
      by_cases h : i = l
      · subst h; by_cases h6 : i < 64 <;> simp [h6]
      · have hb : (i == l) = false := by simpa using h
        simp [h, hb]
  rw [maskOf, gen]; simp

end Sys2Proof.Machine
end

