-- ==== Sys2Proof/Laws/Encode.lean ====
section
/-! SUPPORT. What the decoder reads from each format of R57: every field of an encoded word comes back. -/

namespace Sys2Proof.Laws

/-- Bits of the upper of two fields side by side. -/
theorem extract_left {n m : Nat} (x : BitVec n) (y : BitVec m) (lo k : Nat) (h : m ≤ lo) :
    (x ++ y).extractLsb' lo k = x.extractLsb' (lo - m) k := by
  apply BitVec.eq_of_getLsbD_eq
  intro i hi
  have : ¬ lo + i < m := by omega
  simp [hi, BitVec.getLsbD_append, this, Nat.sub_add_comm h]

/-- Bits of the lower of two fields side by side. -/
theorem extract_right {n m : Nat} (x : BitVec n) (y : BitVec m) (lo k : Nat) (h : lo + k ≤ m) :
    (x ++ y).extractLsb' lo k = y.extractLsb' lo k := by
  apply BitVec.eq_of_getLsbD_eq
  intro i hi
  have : lo + i < m := by omega
  simp [hi, BitVec.getLsbD_append, this]

/-- All of a field. -/
theorem extract_all {n : Nat} (x : BitVec n) : x.extractLsb' 0 n = x := by simp

/-- A field of one bit as a flag. -/
theorem flag_of_field (w : Word) (k : Nat) (b : Bool) (h : field w k 1 = bit b) : flag w k = b := by
  have := congrArg (fun v => BitVec.getLsbD v 0) h
  simpa [field, flag, bit] using this

theorem encRR_at31 (op : BitVec 7) (o : RR) : flag (encRR op o) 31 = o.c :=
  flag_of_field _ _ _ <| (extract_left (n := 25) (m := 7) _ _ 31 1 (by decide)).trans
    <| (extract_left (n := 24) (m := 1) _ _ 24 1 (by decide)).trans
    <| (extract_left (n := 17) (m := 7) _ _ 23 1 (by decide)).trans
    <| (extract_left (n := 16) (m := 1) _ _ 16 1 (by decide)).trans
    <| (extract_left (n := 9) (m := 7) _ _ 15 1 (by decide)).trans
    <| (extract_left (n := 8) (m := 1) _ _ 8 1 (by decide)).trans
    <| (extract_left (n := 1) (m := 7) _ _ 7 1 (by decide)).trans
    <| (extract_all _)
theorem encRR_at24 (op : BitVec 7) (o : RR) : field (encRR op o) 24 7 = op :=
  (extract_left (n := 25) (m := 7) _ _ 24 7 (by decide)).trans
    <| (extract_left (n := 24) (m := 1) _ _ 17 7 (by decide)).trans
    <| (extract_left (n := 17) (m := 7) _ _ 16 7 (by decide)).trans
    <| (extract_left (n := 16) (m := 1) _ _ 9 7 (by decide)).trans
    <| (extract_left (n := 9) (m := 7) _ _ 8 7 (by decide)).trans
    <| (extract_left (n := 8) (m := 1) _ _ 1 7 (by decide)).trans
    <| (extract_right (n := 1) (m := 7) _ _ 0 7 (by decide)).trans
    <| (extract_all _)
theorem encRR_at23 (op : BitVec 7) (o : RR) : flag (encRR op o) 23 = o.nw :=
  flag_of_field _ _ _ <| (extract_left (n := 25) (m := 7) _ _ 23 1 (by decide)).trans
    <| (extract_left (n := 24) (m := 1) _ _ 16 1 (by decide)).trans
    <| (extract_left (n := 17) (m := 7) _ _ 15 1 (by decide)).trans
    <| (extract_left (n := 16) (m := 1) _ _ 8 1 (by decide)).trans
    <| (extract_left (n := 9) (m := 7) _ _ 7 1 (by decide)).trans
    <| (extract_right (n := 8) (m := 1) _ _ 0 1 (by decide)).trans
    <| (extract_all _)
theorem encRR_at16 (op : BitVec 7) (o : RR) : field (encRR op o) 16 7 = o.d :=
  (extract_left (n := 25) (m := 7) _ _ 16 7 (by decide)).trans
    <| (extract_left (n := 24) (m := 1) _ _ 9 7 (by decide)).trans
    <| (extract_left (n := 17) (m := 7) _ _ 8 7 (by decide)).trans
    <| (extract_left (n := 16) (m := 1) _ _ 1 7 (by decide)).trans
    <| (extract_right (n := 9) (m := 7) _ _ 0 7 (by decide)).trans
    <| (extract_all _)
theorem encRR_at15 (op : BitVec 7) (o : RR) : flag (encRR op o) 15 = o.ma :=
  flag_of_field _ _ _ <| (extract_left (n := 25) (m := 7) _ _ 15 1 (by decide)).trans
    <| (extract_left (n := 24) (m := 1) _ _ 8 1 (by decide)).trans
    <| (extract_left (n := 17) (m := 7) _ _ 7 1 (by decide)).trans
    <| (extract_right (n := 16) (m := 1) _ _ 0 1 (by decide)).trans
    <| (extract_all _)
theorem encRR_at8 (op : BitVec 7) (o : RR) : field (encRR op o) 8 7 = o.sa :=
  (extract_left (n := 25) (m := 7) _ _ 8 7 (by decide)).trans
    <| (extract_left (n := 24) (m := 1) _ _ 1 7 (by decide)).trans
    <| (extract_right (n := 17) (m := 7) _ _ 0 7 (by decide)).trans
    <| (extract_all _)
theorem encRR_at7 (op : BitVec 7) (o : RR) : flag (encRR op o) 7 = o.mb :=
  flag_of_field _ _ _ <| (extract_left (n := 25) (m := 7) _ _ 7 1 (by decide)).trans
    <| (extract_right (n := 24) (m := 1) _ _ 0 1 (by decide)).trans
    <| (extract_all _)
theorem encRR_at0 (op : BitVec 7) (o : RR) : field (encRR op o) 0 7 = o.sb :=
  (extract_right (n := 25) (m := 7) _ _ 0 7 (by decide)).trans
    <| (extract_all _)

theorem rrOf_encRR (op : BitVec 7) (o : RR) : rrOf (encRR op o) = o := by simp only [rrOf, encRR_at31, encRR_at23, encRR_at16, encRR_at15, encRR_at8, encRR_at7, encRR_at0]

theorem encCP_at31 (op : BitVec 7) (o : CP) : flag (encCP op o) 31 = o.c :=
  flag_of_field _ _ _ <| (extract_left (n := 25) (m := 7) _ _ 31 1 (by decide)).trans
    <| (extract_left (n := 24) (m := 1) _ _ 24 1 (by decide)).trans
    <| (extract_left (n := 17) (m := 7) _ _ 23 1 (by decide)).trans
    <| (extract_left (n := 16) (m := 1) _ _ 16 1 (by decide)).trans
    <| (extract_left (n := 9) (m := 7) _ _ 15 1 (by decide)).trans
    <| (extract_left (n := 8) (m := 1) _ _ 8 1 (by decide)).trans
    <| (extract_left (n := 1) (m := 7) _ _ 7 1 (by decide)).trans
    <| (extract_all _)
theorem encCP_at24 (op : BitVec 7) (o : CP) : field (encCP op o) 24 7 = op :=
  (extract_left (n := 25) (m := 7) _ _ 24 7 (by decide)).trans
    <| (extract_left (n := 24) (m := 1) _ _ 17 7 (by decide)).trans
    <| (extract_left (n := 17) (m := 7) _ _ 16 7 (by decide)).trans
    <| (extract_left (n := 16) (m := 1) _ _ 9 7 (by decide)).trans
    <| (extract_left (n := 9) (m := 7) _ _ 8 7 (by decide)).trans
    <| (extract_left (n := 8) (m := 1) _ _ 1 7 (by decide)).trans
    <| (extract_right (n := 1) (m := 7) _ _ 0 7 (by decide)).trans
    <| (extract_all _)
theorem encCP_at23 (op : BitVec 7) (o : CP) : flag (encCP op o) 23 = o.p :=
  flag_of_field _ _ _ <| (extract_left (n := 25) (m := 7) _ _ 23 1 (by decide)).trans
    <| (extract_left (n := 24) (m := 1) _ _ 16 1 (by decide)).trans
    <| (extract_left (n := 17) (m := 7) _ _ 15 1 (by decide)).trans
    <| (extract_left (n := 16) (m := 1) _ _ 8 1 (by decide)).trans
    <| (extract_left (n := 9) (m := 7) _ _ 7 1 (by decide)).trans
    <| (extract_right (n := 8) (m := 1) _ _ 0 1 (by decide)).trans
    <| (extract_all _)
theorem encCP_at16 (op : BitVec 7) (o : CP) : field (encCP op o) 16 7 = o.d :=
  (extract_left (n := 25) (m := 7) _ _ 16 7 (by decide)).trans
    <| (extract_left (n := 24) (m := 1) _ _ 9 7 (by decide)).trans
    <| (extract_left (n := 17) (m := 7) _ _ 8 7 (by decide)).trans
    <| (extract_left (n := 16) (m := 1) _ _ 1 7 (by decide)).trans
    <| (extract_right (n := 9) (m := 7) _ _ 0 7 (by decide)).trans
    <| (extract_all _)
theorem encCP_at15 (op : BitVec 7) (o : CP) : flag (encCP op o) 15 = o.ma :=
  flag_of_field _ _ _ <| (extract_left (n := 25) (m := 7) _ _ 15 1 (by decide)).trans
    <| (extract_left (n := 24) (m := 1) _ _ 8 1 (by decide)).trans
    <| (extract_left (n := 17) (m := 7) _ _ 7 1 (by decide)).trans
    <| (extract_right (n := 16) (m := 1) _ _ 0 1 (by decide)).trans
    <| (extract_all _)
theorem encCP_at8 (op : BitVec 7) (o : CP) : field (encCP op o) 8 7 = o.sa :=
  (extract_left (n := 25) (m := 7) _ _ 8 7 (by decide)).trans
    <| (extract_left (n := 24) (m := 1) _ _ 1 7 (by decide)).trans
    <| (extract_right (n := 17) (m := 7) _ _ 0 7 (by decide)).trans
    <| (extract_all _)
theorem encCP_at7 (op : BitVec 7) (o : CP) : flag (encCP op o) 7 = o.mb :=
  flag_of_field _ _ _ <| (extract_left (n := 25) (m := 7) _ _ 7 1 (by decide)).trans
    <| (extract_right (n := 24) (m := 1) _ _ 0 1 (by decide)).trans
    <| (extract_all _)
theorem encCP_at0 (op : BitVec 7) (o : CP) : field (encCP op o) 0 7 = o.sb :=
  (extract_right (n := 25) (m := 7) _ _ 0 7 (by decide)).trans
    <| (extract_all _)

theorem cpOf_encCP (op : BitVec 7) (o : CP) : cpOf (encCP op o) = o := by simp only [cpOf, encCP_at31, encCP_at23, encCP_at16, encCP_at15, encCP_at8, encCP_at7, encCP_at0]

theorem encRI_at31 (op : BitVec 7) (o : RI) : flag (encRI op o) 31 = o.c :=
  flag_of_field _ _ _ <| (extract_left (n := 24) (m := 8) _ _ 31 1 (by decide)).trans
    <| (extract_left (n := 17) (m := 7) _ _ 23 1 (by decide)).trans
    <| (extract_left (n := 16) (m := 1) _ _ 16 1 (by decide)).trans
    <| (extract_left (n := 9) (m := 7) _ _ 15 1 (by decide)).trans
    <| (extract_left (n := 8) (m := 1) _ _ 8 1 (by decide)).trans
    <| (extract_left (n := 1) (m := 7) _ _ 7 1 (by decide)).trans
    <| (extract_all _)
theorem encRI_at24 (op : BitVec 7) (o : RI) : field (encRI op o) 24 7 = op :=
  (extract_left (n := 24) (m := 8) _ _ 24 7 (by decide)).trans
    <| (extract_left (n := 17) (m := 7) _ _ 16 7 (by decide)).trans
    <| (extract_left (n := 16) (m := 1) _ _ 9 7 (by decide)).trans
    <| (extract_left (n := 9) (m := 7) _ _ 8 7 (by decide)).trans
    <| (extract_left (n := 8) (m := 1) _ _ 1 7 (by decide)).trans
    <| (extract_right (n := 1) (m := 7) _ _ 0 7 (by decide)).trans
    <| (extract_all _)
theorem encRI_at23 (op : BitVec 7) (o : RI) : flag (encRI op o) 23 = o.nw :=
  flag_of_field _ _ _ <| (extract_left (n := 24) (m := 8) _ _ 23 1 (by decide)).trans
    <| (extract_left (n := 17) (m := 7) _ _ 15 1 (by decide)).trans
    <| (extract_left (n := 16) (m := 1) _ _ 8 1 (by decide)).trans
    <| (extract_left (n := 9) (m := 7) _ _ 7 1 (by decide)).trans
    <| (extract_right (n := 8) (m := 1) _ _ 0 1 (by decide)).trans
    <| (extract_all _)
theorem encRI_at16 (op : BitVec 7) (o : RI) : field (encRI op o) 16 7 = o.d :=
  (extract_left (n := 24) (m := 8) _ _ 16 7 (by decide)).trans
    <| (extract_left (n := 17) (m := 7) _ _ 8 7 (by decide)).trans
    <| (extract_left (n := 16) (m := 1) _ _ 1 7 (by decide)).trans
    <| (extract_right (n := 9) (m := 7) _ _ 0 7 (by decide)).trans
    <| (extract_all _)
theorem encRI_at15 (op : BitVec 7) (o : RI) : flag (encRI op o) 15 = o.ma :=
  flag_of_field _ _ _ <| (extract_left (n := 24) (m := 8) _ _ 15 1 (by decide)).trans
    <| (extract_left (n := 17) (m := 7) _ _ 7 1 (by decide)).trans
    <| (extract_right (n := 16) (m := 1) _ _ 0 1 (by decide)).trans
    <| (extract_all _)
theorem encRI_at8 (op : BitVec 7) (o : RI) : field (encRI op o) 8 7 = o.sa :=
  (extract_left (n := 24) (m := 8) _ _ 8 7 (by decide)).trans
    <| (extract_right (n := 17) (m := 7) _ _ 0 7 (by decide)).trans
    <| (extract_all _)
theorem encRI_at0 (op : BitVec 7) (o : RI) : field (encRI op o) 0 8 = o.imm :=
  (extract_right (n := 24) (m := 8) _ _ 0 8 (by decide)).trans
    <| (extract_all _)

theorem riOf_encRI (op : BitVec 7) (o : RI) : riOf (encRI op o) = o := by simp only [riOf, encRI_at31, encRI_at23, encRI_at16, encRI_at15, encRI_at8, encRI_at0]

theorem encRU_at31 (op : BitVec 7) (o : RU) (fn : BitVec 8) : flag (encRU op o fn) 31 = o.c :=
  flag_of_field _ _ _ <| (extract_left (n := 24) (m := 8) _ _ 31 1 (by decide)).trans
    <| (extract_left (n := 17) (m := 7) _ _ 23 1 (by decide)).trans
    <| (extract_left (n := 16) (m := 1) _ _ 16 1 (by decide)).trans
    <| (extract_left (n := 9) (m := 7) _ _ 15 1 (by decide)).trans
    <| (extract_left (n := 8) (m := 1) _ _ 8 1 (by decide)).trans
    <| (extract_left (n := 1) (m := 7) _ _ 7 1 (by decide)).trans
    <| (extract_all _)
theorem encRU_at24 (op : BitVec 7) (o : RU) (fn : BitVec 8) : field (encRU op o fn) 24 7 = op :=
  (extract_left (n := 24) (m := 8) _ _ 24 7 (by decide)).trans
    <| (extract_left (n := 17) (m := 7) _ _ 16 7 (by decide)).trans
    <| (extract_left (n := 16) (m := 1) _ _ 9 7 (by decide)).trans
    <| (extract_left (n := 9) (m := 7) _ _ 8 7 (by decide)).trans
    <| (extract_left (n := 8) (m := 1) _ _ 1 7 (by decide)).trans
    <| (extract_right (n := 1) (m := 7) _ _ 0 7 (by decide)).trans
    <| (extract_all _)
theorem encRU_at23 (op : BitVec 7) (o : RU) (fn : BitVec 8) : flag (encRU op o fn) 23 = o.nw :=
  flag_of_field _ _ _ <| (extract_left (n := 24) (m := 8) _ _ 23 1 (by decide)).trans
    <| (extract_left (n := 17) (m := 7) _ _ 15 1 (by decide)).trans
    <| (extract_left (n := 16) (m := 1) _ _ 8 1 (by decide)).trans
    <| (extract_left (n := 9) (m := 7) _ _ 7 1 (by decide)).trans
    <| (extract_right (n := 8) (m := 1) _ _ 0 1 (by decide)).trans
    <| (extract_all _)
theorem encRU_at16 (op : BitVec 7) (o : RU) (fn : BitVec 8) : field (encRU op o fn) 16 7 = o.d :=
  (extract_left (n := 24) (m := 8) _ _ 16 7 (by decide)).trans
    <| (extract_left (n := 17) (m := 7) _ _ 8 7 (by decide)).trans
    <| (extract_left (n := 16) (m := 1) _ _ 1 7 (by decide)).trans
    <| (extract_right (n := 9) (m := 7) _ _ 0 7 (by decide)).trans
    <| (extract_all _)
theorem encRU_at15 (op : BitVec 7) (o : RU) (fn : BitVec 8) : flag (encRU op o fn) 15 = o.ma :=
  flag_of_field _ _ _ <| (extract_left (n := 24) (m := 8) _ _ 15 1 (by decide)).trans
    <| (extract_left (n := 17) (m := 7) _ _ 7 1 (by decide)).trans
    <| (extract_right (n := 16) (m := 1) _ _ 0 1 (by decide)).trans
    <| (extract_all _)
theorem encRU_at8 (op : BitVec 7) (o : RU) (fn : BitVec 8) : field (encRU op o fn) 8 7 = o.sa :=
  (extract_left (n := 24) (m := 8) _ _ 8 7 (by decide)).trans
    <| (extract_right (n := 17) (m := 7) _ _ 0 7 (by decide)).trans
    <| (extract_all _)
theorem encRU_at0 (op : BitVec 7) (o : RU) (fn : BitVec 8) : field (encRU op o fn) 0 8 = fn :=
  (extract_right (n := 24) (m := 8) _ _ 0 8 (by decide)).trans
    <| (extract_all _)

theorem ruOf_encRU (op : BitVec 7) (o : RU) (fn : BitVec 8) : ruOf (encRU op o fn) = o := by simp only [ruOf, encRU_at31, encRU_at23, encRU_at16, encRU_at15, encRU_at8]

theorem encCross_at31 (c nw : Bool) (d sa : BitVec 7) (fn : BitVec 8) : flag (encCross c nw d sa fn) 31 = c :=
  flag_of_field _ _ _ <| (extract_left (n := 24) (m := 8) _ _ 31 1 (by decide)).trans
    <| (extract_left (n := 17) (m := 7) _ _ 23 1 (by decide)).trans
    <| (extract_left (n := 16) (m := 1) _ _ 16 1 (by decide)).trans
    <| (extract_left (n := 9) (m := 7) _ _ 15 1 (by decide)).trans
    <| (extract_left (n := 8) (m := 1) _ _ 8 1 (by decide)).trans
    <| (extract_left (n := 1) (m := 7) _ _ 7 1 (by decide)).trans
    <| (extract_all _)
theorem encCross_at24 (c nw : Bool) (d sa : BitVec 7) (fn : BitVec 8) : field (encCross c nw d sa fn) 24 7 = (0x46#7) :=
  (extract_left (n := 24) (m := 8) _ _ 24 7 (by decide)).trans
    <| (extract_left (n := 17) (m := 7) _ _ 16 7 (by decide)).trans
    <| (extract_left (n := 16) (m := 1) _ _ 9 7 (by decide)).trans
    <| (extract_left (n := 9) (m := 7) _ _ 8 7 (by decide)).trans
    <| (extract_left (n := 8) (m := 1) _ _ 1 7 (by decide)).trans
    <| (extract_right (n := 1) (m := 7) _ _ 0 7 (by decide)).trans
    <| (extract_all _)
theorem encCross_at23 (c nw : Bool) (d sa : BitVec 7) (fn : BitVec 8) : flag (encCross c nw d sa fn) 23 = nw :=
  flag_of_field _ _ _ <| (extract_left (n := 24) (m := 8) _ _ 23 1 (by decide)).trans
    <| (extract_left (n := 17) (m := 7) _ _ 15 1 (by decide)).trans
    <| (extract_left (n := 16) (m := 1) _ _ 8 1 (by decide)).trans
    <| (extract_left (n := 9) (m := 7) _ _ 7 1 (by decide)).trans
    <| (extract_right (n := 8) (m := 1) _ _ 0 1 (by decide)).trans
    <| (extract_all _)
theorem encCross_at16 (c nw : Bool) (d sa : BitVec 7) (fn : BitVec 8) : field (encCross c nw d sa fn) 16 7 = d :=
  (extract_left (n := 24) (m := 8) _ _ 16 7 (by decide)).trans
    <| (extract_left (n := 17) (m := 7) _ _ 8 7 (by decide)).trans
    <| (extract_left (n := 16) (m := 1) _ _ 1 7 (by decide)).trans
    <| (extract_right (n := 9) (m := 7) _ _ 0 7 (by decide)).trans
    <| (extract_all _)
theorem encCross_at8 (c nw : Bool) (d sa : BitVec 7) (fn : BitVec 8) : field (encCross c nw d sa fn) 8 7 = sa :=
  (extract_left (n := 24) (m := 8) _ _ 8 7 (by decide)).trans
    <| (extract_right (n := 17) (m := 7) _ _ 0 7 (by decide)).trans
    <| (extract_all _)
theorem encCross_at0 (c nw : Bool) (d sa : BitVec 7) (fn : BitVec 8) : field (encCross c nw d sa fn) 0 8 = fn :=
  (extract_right (n := 24) (m := 8) _ _ 0 8 (by decide)).trans
    <| (extract_all _)

theorem encSF_at31 (o : SF) (fn : BitVec 3) : flag (encSF o fn) 31 = o.c :=
  flag_of_field _ _ _ <| (extract_left (n := 29) (m := 3) _ _ 31 1 (by decide)).trans
    <| (extract_left (n := 26) (m := 3) _ _ 28 1 (by decide)).trans
    <| (extract_left (n := 24) (m := 2) _ _ 25 1 (by decide)).trans
    <| (extract_left (n := 17) (m := 7) _ _ 23 1 (by decide)).trans
    <| (extract_left (n := 16) (m := 1) _ _ 16 1 (by decide)).trans
    <| (extract_left (n := 9) (m := 7) _ _ 15 1 (by decide)).trans
    <| (extract_left (n := 8) (m := 1) _ _ 8 1 (by decide)).trans
    <| (extract_left (n := 1) (m := 7) _ _ 7 1 (by decide)).trans
    <| (extract_all _)
theorem encSF_at24 (o : SF) (fn : BitVec 3) : field (encSF o fn) 24 7 = (0x6C#7) :=
  (extract_left (n := 29) (m := 3) _ _ 24 7 (by decide)).trans
    <| (extract_left (n := 26) (m := 3) _ _ 21 7 (by decide)).trans
    <| (extract_left (n := 24) (m := 2) _ _ 18 7 (by decide)).trans
    <| (extract_left (n := 17) (m := 7) _ _ 16 7 (by decide)).trans
    <| (extract_left (n := 16) (m := 1) _ _ 9 7 (by decide)).trans
    <| (extract_left (n := 9) (m := 7) _ _ 8 7 (by decide)).trans
    <| (extract_left (n := 8) (m := 1) _ _ 1 7 (by decide)).trans
    <| (extract_right (n := 1) (m := 7) _ _ 0 7 (by decide)).trans
    <| (extract_all _)
theorem encSF_at23 (o : SF) (fn : BitVec 3) : flag (encSF o fn) 23 = o.nw :=
  flag_of_field _ _ _ <| (extract_left (n := 29) (m := 3) _ _ 23 1 (by decide)).trans
    <| (extract_left (n := 26) (m := 3) _ _ 20 1 (by decide)).trans
    <| (extract_left (n := 24) (m := 2) _ _ 17 1 (by decide)).trans
    <| (extract_left (n := 17) (m := 7) _ _ 15 1 (by decide)).trans
    <| (extract_left (n := 16) (m := 1) _ _ 8 1 (by decide)).trans
    <| (extract_left (n := 9) (m := 7) _ _ 7 1 (by decide)).trans
    <| (extract_right (n := 8) (m := 1) _ _ 0 1 (by decide)).trans
    <| (extract_all _)
theorem encSF_at16 (o : SF) (fn : BitVec 3) : field (encSF o fn) 16 7 = o.d :=
  (extract_left (n := 29) (m := 3) _ _ 16 7 (by decide)).trans
    <| (extract_left (n := 26) (m := 3) _ _ 13 7 (by decide)).trans
    <| (extract_left (n := 24) (m := 2) _ _ 10 7 (by decide)).trans
    <| (extract_left (n := 17) (m := 7) _ _ 8 7 (by decide)).trans
    <| (extract_left (n := 16) (m := 1) _ _ 1 7 (by decide)).trans
    <| (extract_right (n := 9) (m := 7) _ _ 0 7 (by decide)).trans
    <| (extract_all _)
theorem encSF_at15 (o : SF) (fn : BitVec 3) : flag (encSF o fn) 15 = o.ma :=
  flag_of_field _ _ _ <| (extract_left (n := 29) (m := 3) _ _ 15 1 (by decide)).trans
    <| (extract_left (n := 26) (m := 3) _ _ 12 1 (by decide)).trans
    <| (extract_left (n := 24) (m := 2) _ _ 9 1 (by decide)).trans
    <| (extract_left (n := 17) (m := 7) _ _ 7 1 (by decide)).trans
    <| (extract_right (n := 16) (m := 1) _ _ 0 1 (by decide)).trans
    <| (extract_all _)
theorem encSF_at8 (o : SF) (fn : BitVec 3) : field (encSF o fn) 8 7 = o.sa :=
  (extract_left (n := 29) (m := 3) _ _ 8 7 (by decide)).trans
    <| (extract_left (n := 26) (m := 3) _ _ 5 7 (by decide)).trans
    <| (extract_left (n := 24) (m := 2) _ _ 2 7 (by decide)).trans
    <| (extract_right (n := 17) (m := 7) _ _ 0 7 (by decide)).trans
    <| (extract_all _)
theorem encSF_at6 (o : SF) (fn : BitVec 3) : field (encSF o fn) 6 2 = o.ec :=
  (extract_left (n := 29) (m := 3) _ _ 6 2 (by decide)).trans
    <| (extract_left (n := 26) (m := 3) _ _ 3 2 (by decide)).trans
    <| (extract_right (n := 24) (m := 2) _ _ 0 2 (by decide)).trans
    <| (extract_all _)
theorem encSF_at3 (o : SF) (fn : BitVec 3) : field (encSF o fn) 3 3 = fn :=
  (extract_left (n := 29) (m := 3) _ _ 3 3 (by decide)).trans
    <| (extract_right (n := 26) (m := 3) _ _ 0 3 (by decide)).trans
    <| (extract_all _)
theorem encSF_at0 (o : SF) (fn : BitVec 3) : field (encSF o fn) 0 3 = o.ty :=
  (extract_right (n := 29) (m := 3) _ _ 0 3 (by decide)).trans
    <| (extract_all _)

theorem sfOf_encSF (o : SF) (fn : BitVec 3) : sfOf (encSF o fn) = o := by simp only [sfOf, encSF_at31, encSF_at23, encSF_at16, encSF_at15, encSF_at8, encSF_at6, encSF_at0]

theorem encMM_at31 (op : BitVec 7) (o : MM) : flag (encMM op o) 31 = o.c :=
  flag_of_field _ _ _ <| (extract_left (n := 29) (m := 3) _ _ 31 1 (by decide)).trans
    <| (extract_left (n := 26) (m := 3) _ _ 28 1 (by decide)).trans
    <| (extract_left (n := 25) (m := 1) _ _ 25 1 (by decide)).trans
    <| (extract_left (n := 23) (m := 2) _ _ 24 1 (by decide)).trans
    <| (extract_left (n := 20) (m := 3) _ _ 22 1 (by decide)).trans
    <| (extract_left (n := 15) (m := 5) _ _ 19 1 (by decide)).trans
    <| (extract_left (n := 8) (m := 7) _ _ 14 1 (by decide)).trans
    <| (extract_left (n := 1) (m := 7) _ _ 7 1 (by decide)).trans
    <| (extract_all _)
theorem encMM_at24 (op : BitVec 7) (o : MM) : field (encMM op o) 24 7 = op :=
  (extract_left (n := 29) (m := 3) _ _ 24 7 (by decide)).trans
    <| (extract_left (n := 26) (m := 3) _ _ 21 7 (by decide)).trans
    <| (extract_left (n := 25) (m := 1) _ _ 18 7 (by decide)).trans
    <| (extract_left (n := 23) (m := 2) _ _ 17 7 (by decide)).trans
    <| (extract_left (n := 20) (m := 3) _ _ 15 7 (by decide)).trans
    <| (extract_left (n := 15) (m := 5) _ _ 12 7 (by decide)).trans
    <| (extract_left (n := 8) (m := 7) _ _ 7 7 (by decide)).trans
    <| (extract_right (n := 1) (m := 7) _ _ 0 7 (by decide)).trans
    <| (extract_all _)
theorem encMM_at17 (op : BitVec 7) (o : MM) : field (encMM op o) 17 7 = o.d :=
  (extract_left (n := 29) (m := 3) _ _ 17 7 (by decide)).trans
    <| (extract_left (n := 26) (m := 3) _ _ 14 7 (by decide)).trans
    <| (extract_left (n := 25) (m := 1) _ _ 11 7 (by decide)).trans
    <| (extract_left (n := 23) (m := 2) _ _ 10 7 (by decide)).trans
    <| (extract_left (n := 20) (m := 3) _ _ 8 7 (by decide)).trans
    <| (extract_left (n := 15) (m := 5) _ _ 5 7 (by decide)).trans
    <| (extract_right (n := 8) (m := 7) _ _ 0 7 (by decide)).trans
    <| (extract_all _)
theorem encMM_at12 (op : BitVec 7) (o : MM) : field (encMM op o) 12 5 = o.bp :=
  (extract_left (n := 29) (m := 3) _ _ 12 5 (by decide)).trans
    <| (extract_left (n := 26) (m := 3) _ _ 9 5 (by decide)).trans
    <| (extract_left (n := 25) (m := 1) _ _ 6 5 (by decide)).trans
    <| (extract_left (n := 23) (m := 2) _ _ 5 5 (by decide)).trans
    <| (extract_left (n := 20) (m := 3) _ _ 3 5 (by decide)).trans
    <| (extract_right (n := 15) (m := 5) _ _ 0 5 (by decide)).trans
    <| (extract_all _)
theorem encMM_at9 (op : BitVec 7) (o : MM) : field (encMM op o) 9 3 = o.ss :=
  (extract_left (n := 29) (m := 3) _ _ 9 3 (by decide)).trans
    <| (extract_left (n := 26) (m := 3) _ _ 6 3 (by decide)).trans
    <| (extract_left (n := 25) (m := 1) _ _ 3 3 (by decide)).trans
    <| (extract_left (n := 23) (m := 2) _ _ 2 3 (by decide)).trans
    <| (extract_right (n := 20) (m := 3) _ _ 0 3 (by decide)).trans
    <| (extract_all _)
theorem encMM_at7 (op : BitVec 7) (o : MM) : field (encMM op o) 7 2 = o.rh :=
  (extract_left (n := 29) (m := 3) _ _ 7 2 (by decide)).trans
    <| (extract_left (n := 26) (m := 3) _ _ 4 2 (by decide)).trans
    <| (extract_left (n := 25) (m := 1) _ _ 1 2 (by decide)).trans
    <| (extract_right (n := 23) (m := 2) _ _ 0 2 (by decide)).trans
    <| (extract_all _)
theorem encMM_at6 (op : BitVec 7) (o : MM) : flag (encMM op o) 6 = o.we :=
  flag_of_field _ _ _ <| (extract_left (n := 29) (m := 3) _ _ 6 1 (by decide)).trans
    <| (extract_left (n := 26) (m := 3) _ _ 3 1 (by decide)).trans
    <| (extract_right (n := 25) (m := 1) _ _ 0 1 (by decide)).trans
    <| (extract_all _)
theorem encMM_at3 (op : BitVec 7) (o : MM) : field (encMM op o) 3 3 = o.ws :=
  (extract_left (n := 29) (m := 3) _ _ 3 3 (by decide)).trans
    <| (extract_right (n := 26) (m := 3) _ _ 0 3 (by decide)).trans
    <| (extract_all _)
theorem encMM_at0 (op : BitVec 7) (o : MM) : field (encMM op o) 0 3 = o.sz :=
  (extract_right (n := 29) (m := 3) _ _ 0 3 (by decide)).trans
    <| (extract_all _)

theorem mmOf_encMM (op : BitVec 7) (o : MM) : mmOf (encMM op o) = o := by simp only [mmOf, encMM_at31, encMM_at17, encMM_at12, encMM_at9, encMM_at7, encMM_at6, encMM_at3, encMM_at0]

theorem encMA_at31 (op : BitVec 7) (o : MAt) (aop : BitVec 4) : flag (encMA op o aop) 31 = o.c :=
  flag_of_field _ _ _ <| (extract_left (n := 29) (m := 3) _ _ 31 1 (by decide)).trans
    <| (extract_left (n := 25) (m := 4) _ _ 28 1 (by decide)).trans
    <| (extract_left (n := 23) (m := 2) _ _ 24 1 (by decide)).trans
    <| (extract_left (n := 20) (m := 3) _ _ 22 1 (by decide)).trans
    <| (extract_left (n := 15) (m := 5) _ _ 19 1 (by decide)).trans
    <| (extract_left (n := 8) (m := 7) _ _ 14 1 (by decide)).trans
    <| (extract_left (n := 1) (m := 7) _ _ 7 1 (by decide)).trans
    <| (extract_all _)
theorem encMA_at24 (op : BitVec 7) (o : MAt) (aop : BitVec 4) : field (encMA op o aop) 24 7 = op :=
  (extract_left (n := 29) (m := 3) _ _ 24 7 (by decide)).trans
    <| (extract_left (n := 25) (m := 4) _ _ 21 7 (by decide)).trans
    <| (extract_left (n := 23) (m := 2) _ _ 17 7 (by decide)).trans
    <| (extract_left (n := 20) (m := 3) _ _ 15 7 (by decide)).trans
    <| (extract_left (n := 15) (m := 5) _ _ 12 7 (by decide)).trans
    <| (extract_left (n := 8) (m := 7) _ _ 7 7 (by decide)).trans
    <| (extract_right (n := 1) (m := 7) _ _ 0 7 (by decide)).trans
    <| (extract_all _)
theorem encMA_at17 (op : BitVec 7) (o : MAt) (aop : BitVec 4) : field (encMA op o aop) 17 7 = o.d :=
  (extract_left (n := 29) (m := 3) _ _ 17 7 (by decide)).trans
    <| (extract_left (n := 25) (m := 4) _ _ 14 7 (by decide)).trans
    <| (extract_left (n := 23) (m := 2) _ _ 10 7 (by decide)).trans
    <| (extract_left (n := 20) (m := 3) _ _ 8 7 (by decide)).trans
    <| (extract_left (n := 15) (m := 5) _ _ 5 7 (by decide)).trans
    <| (extract_right (n := 8) (m := 7) _ _ 0 7 (by decide)).trans
    <| (extract_all _)
theorem encMA_at12 (op : BitVec 7) (o : MAt) (aop : BitVec 4) : field (encMA op o aop) 12 5 = o.bp :=
  (extract_left (n := 29) (m := 3) _ _ 12 5 (by decide)).trans
    <| (extract_left (n := 25) (m := 4) _ _ 9 5 (by decide)).trans
    <| (extract_left (n := 23) (m := 2) _ _ 5 5 (by decide)).trans
    <| (extract_left (n := 20) (m := 3) _ _ 3 5 (by decide)).trans
    <| (extract_right (n := 15) (m := 5) _ _ 0 5 (by decide)).trans
    <| (extract_all _)
theorem encMA_at9 (op : BitVec 7) (o : MAt) (aop : BitVec 4) : field (encMA op o aop) 9 3 = o.ss :=
  (extract_left (n := 29) (m := 3) _ _ 9 3 (by decide)).trans
    <| (extract_left (n := 25) (m := 4) _ _ 6 3 (by decide)).trans
    <| (extract_left (n := 23) (m := 2) _ _ 2 3 (by decide)).trans
    <| (extract_right (n := 20) (m := 3) _ _ 0 3 (by decide)).trans
    <| (extract_all _)
theorem encMA_at7 (op : BitVec 7) (o : MAt) (aop : BitVec 4) : field (encMA op o aop) 7 2 = o.sc :=
  (extract_left (n := 29) (m := 3) _ _ 7 2 (by decide)).trans
    <| (extract_left (n := 25) (m := 4) _ _ 4 2 (by decide)).trans
    <| (extract_right (n := 23) (m := 2) _ _ 0 2 (by decide)).trans
    <| (extract_all _)
theorem encMA_at3 (op : BitVec 7) (o : MAt) (aop : BitVec 4) : field (encMA op o aop) 3 4 = aop :=
  (extract_left (n := 29) (m := 3) _ _ 3 4 (by decide)).trans
    <| (extract_right (n := 25) (m := 4) _ _ 0 4 (by decide)).trans
    <| (extract_all _)
theorem encMA_at0 (op : BitVec 7) (o : MAt) (aop : BitVec 4) : field (encMA op o aop) 0 3 = o.ty :=
  (extract_right (n := 29) (m := 3) _ _ 0 3 (by decide)).trans
    <| (extract_all _)

theorem maOf_encMA (op : BitVec 7) (o : MAt) (aop : BitVec 4) : maOf (encMA op o aop) = o := by simp only [maOf, encMA_at31, encMA_at17, encMA_at12, encMA_at9, encMA_at7, encMA_at0]

theorem encE_at31 (op : BitVec 7) (c : Bool) (d sa : BitVec 7) (fn : BitVec 4) (k : BitVec 6) : flag (encE op c d sa fn k) 31 = c :=
  flag_of_field _ _ _ <| (extract_left (n := 26) (m := 6) _ _ 31 1 (by decide)).trans
    <| (extract_left (n := 22) (m := 4) _ _ 25 1 (by decide)).trans
    <| (extract_left (n := 15) (m := 7) _ _ 21 1 (by decide)).trans
    <| (extract_left (n := 8) (m := 7) _ _ 14 1 (by decide)).trans
    <| (extract_left (n := 1) (m := 7) _ _ 7 1 (by decide)).trans
    <| (extract_all _)
theorem encE_at24 (op : BitVec 7) (c : Bool) (d sa : BitVec 7) (fn : BitVec 4) (k : BitVec 6) : field (encE op c d sa fn k) 24 7 = op :=
  (extract_left (n := 26) (m := 6) _ _ 24 7 (by decide)).trans
    <| (extract_left (n := 22) (m := 4) _ _ 18 7 (by decide)).trans
    <| (extract_left (n := 15) (m := 7) _ _ 14 7 (by decide)).trans
    <| (extract_left (n := 8) (m := 7) _ _ 7 7 (by decide)).trans
    <| (extract_right (n := 1) (m := 7) _ _ 0 7 (by decide)).trans
    <| (extract_all _)
theorem encE_at17 (op : BitVec 7) (c : Bool) (d sa : BitVec 7) (fn : BitVec 4) (k : BitVec 6) : field (encE op c d sa fn k) 17 7 = d :=
  (extract_left (n := 26) (m := 6) _ _ 17 7 (by decide)).trans
    <| (extract_left (n := 22) (m := 4) _ _ 11 7 (by decide)).trans
    <| (extract_left (n := 15) (m := 7) _ _ 7 7 (by decide)).trans
    <| (extract_right (n := 8) (m := 7) _ _ 0 7 (by decide)).trans
    <| (extract_all _)
theorem encE_at10 (op : BitVec 7) (c : Bool) (d sa : BitVec 7) (fn : BitVec 4) (k : BitVec 6) : field (encE op c d sa fn k) 10 7 = sa :=
  (extract_left (n := 26) (m := 6) _ _ 10 7 (by decide)).trans
    <| (extract_left (n := 22) (m := 4) _ _ 4 7 (by decide)).trans
    <| (extract_right (n := 15) (m := 7) _ _ 0 7 (by decide)).trans
    <| (extract_all _)
theorem encE_at6 (op : BitVec 7) (c : Bool) (d sa : BitVec 7) (fn : BitVec 4) (k : BitVec 6) : field (encE op c d sa fn k) 6 4 = fn :=
  (extract_left (n := 26) (m := 6) _ _ 6 4 (by decide)).trans
    <| (extract_right (n := 22) (m := 4) _ _ 0 4 (by decide)).trans
    <| (extract_all _)
theorem encE_at0 (op : BitVec 7) (c : Bool) (d sa : BitVec 7) (fn : BitVec 4) (k : BitVec 6) : field (encE op c d sa fn k) 0 6 = k :=
  (extract_right (n := 26) (m := 6) _ _ 0 6 (by decide)).trans
    <| (extract_all _)

theorem encX_at31 (op : BitVec 7) (c : Bool) (ec ls : BitVec 2) (sa sb : BitVec 7) (f6 : BitVec 6) : flag (encX op c ec ls sa sb f6) 31 = c :=
  flag_of_field _ _ _ <| (extract_left (n := 26) (m := 6) _ _ 31 1 (by decide)).trans
    <| (extract_left (n := 19) (m := 7) _ _ 25 1 (by decide)).trans
    <| (extract_left (n := 12) (m := 7) _ _ 18 1 (by decide)).trans
    <| (extract_left (n := 10) (m := 2) _ _ 11 1 (by decide)).trans
    <| (extract_left (n := 8) (m := 2) _ _ 9 1 (by decide)).trans
    <| (extract_left (n := 1) (m := 7) _ _ 7 1 (by decide)).trans
    <| (extract_all _)
theorem encX_at24 (op : BitVec 7) (c : Bool) (ec ls : BitVec 2) (sa sb : BitVec 7) (f6 : BitVec 6) : field (encX op c ec ls sa sb f6) 24 7 = op :=
  (extract_left (n := 26) (m := 6) _ _ 24 7 (by decide)).trans
    <| (extract_left (n := 19) (m := 7) _ _ 18 7 (by decide)).trans
    <| (extract_left (n := 12) (m := 7) _ _ 11 7 (by decide)).trans
    <| (extract_left (n := 10) (m := 2) _ _ 4 7 (by decide)).trans
    <| (extract_left (n := 8) (m := 2) _ _ 2 7 (by decide)).trans
    <| (extract_right (n := 1) (m := 7) _ _ 0 7 (by decide)).trans
    <| (extract_all _)
theorem encX_at22 (op : BitVec 7) (c : Bool) (ec ls : BitVec 2) (sa sb : BitVec 7) (f6 : BitVec 6) : field (encX op c ec ls sa sb f6) 22 2 = ec :=
  (extract_left (n := 26) (m := 6) _ _ 22 2 (by decide)).trans
    <| (extract_left (n := 19) (m := 7) _ _ 16 2 (by decide)).trans
    <| (extract_left (n := 12) (m := 7) _ _ 9 2 (by decide)).trans
    <| (extract_left (n := 10) (m := 2) _ _ 2 2 (by decide)).trans
    <| (extract_right (n := 8) (m := 2) _ _ 0 2 (by decide)).trans
    <| (extract_all _)
theorem encX_at20 (op : BitVec 7) (c : Bool) (ec ls : BitVec 2) (sa sb : BitVec 7) (f6 : BitVec 6) : field (encX op c ec ls sa sb f6) 20 2 = ls :=
  (extract_left (n := 26) (m := 6) _ _ 20 2 (by decide)).trans
    <| (extract_left (n := 19) (m := 7) _ _ 14 2 (by decide)).trans
    <| (extract_left (n := 12) (m := 7) _ _ 7 2 (by decide)).trans
    <| (extract_right (n := 10) (m := 2) _ _ 0 2 (by decide)).trans
    <| (extract_all _)
theorem encX_at13 (op : BitVec 7) (c : Bool) (ec ls : BitVec 2) (sa sb : BitVec 7) (f6 : BitVec 6) : field (encX op c ec ls sa sb f6) 13 7 = sa :=
  (extract_left (n := 26) (m := 6) _ _ 13 7 (by decide)).trans
    <| (extract_left (n := 19) (m := 7) _ _ 7 7 (by decide)).trans
    <| (extract_right (n := 12) (m := 7) _ _ 0 7 (by decide)).trans
    <| (extract_all _)
theorem encX_at6 (op : BitVec 7) (c : Bool) (ec ls : BitVec 2) (sa sb : BitVec 7) (f6 : BitVec 6) : field (encX op c ec ls sa sb f6) 6 7 = sb :=
  (extract_left (n := 26) (m := 6) _ _ 6 7 (by decide)).trans
    <| (extract_right (n := 19) (m := 7) _ _ 0 7 (by decide)).trans
    <| (extract_all _)
theorem encX_at0 (op : BitVec 7) (c : Bool) (ec ls : BitVec 2) (sa sb : BitVec 7) (f6 : BitVec 6) : field (encX op c ec ls sa sb f6) 0 6 = f6 :=
  (extract_right (n := 26) (m := 6) _ _ 0 6 (by decide)).trans
    <| (extract_all _)

theorem encB_at31 (c : Bool) (cnd : BitVec 2) (sa : BitVec 7) (off : BitVec 15) : flag (encB c cnd sa off) 31 = c :=
  flag_of_field _ _ _ <| (extract_left (n := 17) (m := 15) _ _ 31 1 (by decide)).trans
    <| (extract_left (n := 10) (m := 7) _ _ 16 1 (by decide)).trans
    <| (extract_left (n := 8) (m := 2) _ _ 9 1 (by decide)).trans
    <| (extract_left (n := 1) (m := 7) _ _ 7 1 (by decide)).trans
    <| (extract_all _)
theorem encB_at24 (c : Bool) (cnd : BitVec 2) (sa : BitVec 7) (off : BitVec 15) : field (encB c cnd sa off) 24 7 = (0x70#7) :=
  (extract_left (n := 17) (m := 15) _ _ 24 7 (by decide)).trans
    <| (extract_left (n := 10) (m := 7) _ _ 9 7 (by decide)).trans
    <| (extract_left (n := 8) (m := 2) _ _ 2 7 (by decide)).trans
    <| (extract_right (n := 1) (m := 7) _ _ 0 7 (by decide)).trans
    <| (extract_all _)
theorem encB_at22 (c : Bool) (cnd : BitVec 2) (sa : BitVec 7) (off : BitVec 15) : field (encB c cnd sa off) 22 2 = cnd :=
  (extract_left (n := 17) (m := 15) _ _ 22 2 (by decide)).trans
    <| (extract_left (n := 10) (m := 7) _ _ 7 2 (by decide)).trans
    <| (extract_right (n := 8) (m := 2) _ _ 0 2 (by decide)).trans
    <| (extract_all _)
theorem encB_at15 (c : Bool) (cnd : BitVec 2) (sa : BitVec 7) (off : BitVec 15) : field (encB c cnd sa off) 15 7 = sa :=
  (extract_left (n := 17) (m := 15) _ _ 15 7 (by decide)).trans
    <| (extract_right (n := 10) (m := 7) _ _ 0 7 (by decide)).trans
    <| (extract_all _)
theorem encB_at0 (c : Bool) (cnd : BitVec 2) (sa : BitVec 7) (off : BitVec 15) : field (encB c cnd sa off) 0 15 = off :=
  (extract_right (n := 17) (m := 15) _ _ 0 15 (by decide)).trans
    <| (extract_all _)

theorem encIN_at31 (c : Bool) (fn : BitVec 2) (fr sa : BitVec 7) : flag (encIN c fn fr sa) 31 = c :=
  flag_of_field _ _ _ <| (extract_left (n := 24) (m := 8) _ _ 31 1 (by decide)).trans
    <| (extract_left (n := 17) (m := 7) _ _ 23 1 (by decide)).trans
    <| (extract_left (n := 10) (m := 7) _ _ 16 1 (by decide)).trans
    <| (extract_left (n := 8) (m := 2) _ _ 9 1 (by decide)).trans
    <| (extract_left (n := 1) (m := 7) _ _ 7 1 (by decide)).trans
    <| (extract_all _)
theorem encIN_at24 (c : Bool) (fn : BitVec 2) (fr sa : BitVec 7) : field (encIN c fn fr sa) 24 7 = (0x73#7) :=
  (extract_left (n := 24) (m := 8) _ _ 24 7 (by decide)).trans
    <| (extract_left (n := 17) (m := 7) _ _ 16 7 (by decide)).trans
    <| (extract_left (n := 10) (m := 7) _ _ 9 7 (by decide)).trans
    <| (extract_left (n := 8) (m := 2) _ _ 2 7 (by decide)).trans
    <| (extract_right (n := 1) (m := 7) _ _ 0 7 (by decide)).trans
    <| (extract_all _)
theorem encIN_at22 (c : Bool) (fn : BitVec 2) (fr sa : BitVec 7) : field (encIN c fn fr sa) 22 2 = fn :=
  (extract_left (n := 24) (m := 8) _ _ 22 2 (by decide)).trans
    <| (extract_left (n := 17) (m := 7) _ _ 14 2 (by decide)).trans
    <| (extract_left (n := 10) (m := 7) _ _ 7 2 (by decide)).trans
    <| (extract_right (n := 8) (m := 2) _ _ 0 2 (by decide)).trans
    <| (extract_all _)
theorem encIN_at15 (c : Bool) (fn : BitVec 2) (fr sa : BitVec 7) : field (encIN c fn fr sa) 15 7 = fr :=
  (extract_left (n := 24) (m := 8) _ _ 15 7 (by decide)).trans
    <| (extract_left (n := 17) (m := 7) _ _ 7 7 (by decide)).trans
    <| (extract_right (n := 10) (m := 7) _ _ 0 7 (by decide)).trans
    <| (extract_all _)
theorem encIN_at8 (c : Bool) (fn : BitVec 2) (fr sa : BitVec 7) : field (encIN c fn fr sa) 8 7 = sa :=
  (extract_left (n := 24) (m := 8) _ _ 8 7 (by decide)).trans
    <| (extract_right (n := 17) (m := 7) _ _ 0 7 (by decide)).trans
    <| (extract_all _)

theorem encSY_at31 (c : Bool) (fn : BitVec 4) (imm : BitVec 16) : flag (encSY c fn imm) 31 = c :=
  flag_of_field _ _ _ <| (extract_left (n := 16) (m := 16) _ _ 31 1 (by decide)).trans
    <| (extract_left (n := 12) (m := 4) _ _ 15 1 (by decide)).trans
    <| (extract_left (n := 8) (m := 4) _ _ 11 1 (by decide)).trans
    <| (extract_left (n := 1) (m := 7) _ _ 7 1 (by decide)).trans
    <| (extract_all _)
theorem encSY_at24 (c : Bool) (fn : BitVec 4) (imm : BitVec 16) : field (encSY c fn imm) 24 7 = (0x76#7) :=
  (extract_left (n := 16) (m := 16) _ _ 24 7 (by decide)).trans
    <| (extract_left (n := 12) (m := 4) _ _ 8 7 (by decide)).trans
    <| (extract_left (n := 8) (m := 4) _ _ 4 7 (by decide)).trans
    <| (extract_right (n := 1) (m := 7) _ _ 0 7 (by decide)).trans
    <| (extract_all _)
theorem encSY_at20 (c : Bool) (fn : BitVec 4) (imm : BitVec 16) : field (encSY c fn imm) 20 4 = fn :=
  (extract_left (n := 16) (m := 16) _ _ 20 4 (by decide)).trans
    <| (extract_left (n := 12) (m := 4) _ _ 4 4 (by decide)).trans
    <| (extract_right (n := 8) (m := 4) _ _ 0 4 (by decide)).trans
    <| (extract_all _)
theorem encSY_at0 (c : Bool) (fn : BitVec 4) (imm : BitVec 16) : field (encSY c fn imm) 0 16 = imm :=
  (extract_right (n := 16) (m := 16) _ _ 0 16 (by decide)).trans
    <| (extract_all _)

theorem encCV_at31 (c : Bool) (fn : BitVec 2) (t : BitVec 4) : flag (encCV c fn t) 31 = c :=
  flag_of_field _ _ _ <| (extract_left (n := 28) (m := 4) _ _ 31 1 (by decide)).trans
    <| (extract_left (n := 10) (m := 18) _ _ 27 1 (by decide)).trans
    <| (extract_left (n := 8) (m := 2) _ _ 9 1 (by decide)).trans
    <| (extract_left (n := 1) (m := 7) _ _ 7 1 (by decide)).trans
    <| (extract_all _)
theorem encCV_at24 (c : Bool) (fn : BitVec 2) (t : BitVec 4) : field (encCV c fn t) 24 7 = (0x75#7) :=
  (extract_left (n := 28) (m := 4) _ _ 24 7 (by decide)).trans
    <| (extract_left (n := 10) (m := 18) _ _ 20 7 (by decide)).trans
    <| (extract_left (n := 8) (m := 2) _ _ 2 7 (by decide)).trans
    <| (extract_right (n := 1) (m := 7) _ _ 0 7 (by decide)).trans
    <| (extract_all _)
theorem encCV_at22 (c : Bool) (fn : BitVec 2) (t : BitVec 4) : field (encCV c fn t) 22 2 = fn :=
  (extract_left (n := 28) (m := 4) _ _ 22 2 (by decide)).trans
    <| (extract_left (n := 10) (m := 18) _ _ 18 2 (by decide)).trans
    <| (extract_right (n := 8) (m := 2) _ _ 0 2 (by decide)).trans
    <| (extract_all _)
theorem encCV_at0 (c : Bool) (fn : BitVec 2) (t : BitVec 4) : field (encCV c fn t) 0 4 = t :=
  (extract_right (n := 28) (m := 4) _ _ 0 4 (by decide)).trans
    <| (extract_all _)

theorem encCR_at31 (c : Bool) (fn : BitVec 2) (r : BitVec 7) (n : BitVec 12) : flag (encCR c fn r n) 31 = c :=
  flag_of_field _ _ _ <| (extract_left (n := 20) (m := 12) _ _ 31 1 (by decide)).trans
    <| (extract_left (n := 17) (m := 3) _ _ 19 1 (by decide)).trans
    <| (extract_left (n := 10) (m := 7) _ _ 16 1 (by decide)).trans
    <| (extract_left (n := 8) (m := 2) _ _ 9 1 (by decide)).trans
    <| (extract_left (n := 1) (m := 7) _ _ 7 1 (by decide)).trans
    <| (extract_all _)
theorem encCR_at24 (c : Bool) (fn : BitVec 2) (r : BitVec 7) (n : BitVec 12) : field (encCR c fn r n) 24 7 = (0x79#7) :=
  (extract_left (n := 20) (m := 12) _ _ 24 7 (by decide)).trans
    <| (extract_left (n := 17) (m := 3) _ _ 12 7 (by decide)).trans
    <| (extract_left (n := 10) (m := 7) _ _ 9 7 (by decide)).trans
    <| (extract_left (n := 8) (m := 2) _ _ 2 7 (by decide)).trans
    <| (extract_right (n := 1) (m := 7) _ _ 0 7 (by decide)).trans
    <| (extract_all _)
theorem encCR_at22 (c : Bool) (fn : BitVec 2) (r : BitVec 7) (n : BitVec 12) : field (encCR c fn r n) 22 2 = fn :=
  (extract_left (n := 20) (m := 12) _ _ 22 2 (by decide)).trans
    <| (extract_left (n := 17) (m := 3) _ _ 10 2 (by decide)).trans
    <| (extract_left (n := 10) (m := 7) _ _ 7 2 (by decide)).trans
    <| (extract_right (n := 8) (m := 2) _ _ 0 2 (by decide)).trans
    <| (extract_all _)
theorem encCR_at15 (c : Bool) (fn : BitVec 2) (r : BitVec 7) (n : BitVec 12) : field (encCR c fn r n) 15 7 = r :=
  (extract_left (n := 20) (m := 12) _ _ 15 7 (by decide)).trans
    <| (extract_left (n := 17) (m := 3) _ _ 3 7 (by decide)).trans
    <| (extract_right (n := 10) (m := 7) _ _ 0 7 (by decide)).trans
    <| (extract_all _)
theorem encCR_at0 (c : Bool) (fn : BitVec 2) (r : BitVec 7) (n : BitVec 12) : field (encCR c fn r n) 0 12 = n :=
  (extract_right (n := 20) (m := 12) _ _ 0 12 (by decide)).trans
    <| (extract_all _)

theorem encPM_at31 (c dir : Bool) (r : BitVec 7) : flag (encPM c dir r) 31 = c :=
  flag_of_field _ _ _ <| (extract_left (n := 16) (m := 16) _ _ 31 1 (by decide)).trans
    <| (extract_left (n := 9) (m := 7) _ _ 15 1 (by decide)).trans
    <| (extract_left (n := 8) (m := 1) _ _ 8 1 (by decide)).trans
    <| (extract_left (n := 1) (m := 7) _ _ 7 1 (by decide)).trans
    <| (extract_all _)
theorem encPM_at24 (c dir : Bool) (r : BitVec 7) : field (encPM c dir r) 24 7 = (0x7A#7) :=
  (extract_left (n := 16) (m := 16) _ _ 24 7 (by decide)).trans
    <| (extract_left (n := 9) (m := 7) _ _ 8 7 (by decide)).trans
    <| (extract_left (n := 8) (m := 1) _ _ 1 7 (by decide)).trans
    <| (extract_right (n := 1) (m := 7) _ _ 0 7 (by decide)).trans
    <| (extract_all _)
theorem encPM_at23 (c dir : Bool) (r : BitVec 7) : flag (encPM c dir r) 23 = dir :=
  flag_of_field _ _ _ <| (extract_left (n := 16) (m := 16) _ _ 23 1 (by decide)).trans
    <| (extract_left (n := 9) (m := 7) _ _ 7 1 (by decide)).trans
    <| (extract_right (n := 8) (m := 1) _ _ 0 1 (by decide)).trans
    <| (extract_all _)
theorem encPM_at16 (c dir : Bool) (r : BitVec 7) : field (encPM c dir r) 16 7 = r :=
  (extract_left (n := 16) (m := 16) _ _ 16 7 (by decide)).trans
    <| (extract_right (n := 9) (m := 7) _ _ 0 7 (by decide)).trans
    <| (extract_all _)

theorem movi_at31 (c nw : Bool) (d : BitVec 7) (imm : BitVec 16) : flag ((bit c ++ (0x2D#7) ++ bit nw ++ d ++ imm : Word)) 31 = c :=
  flag_of_field _ _ _ <| (extract_left (n := 16) (m := 16) _ _ 31 1 (by decide)).trans
    <| (extract_left (n := 9) (m := 7) _ _ 15 1 (by decide)).trans
    <| (extract_left (n := 8) (m := 1) _ _ 8 1 (by decide)).trans
    <| (extract_left (n := 1) (m := 7) _ _ 7 1 (by decide)).trans
    <| (extract_all _)
theorem movi_at24 (c nw : Bool) (d : BitVec 7) (imm : BitVec 16) : field ((bit c ++ (0x2D#7) ++ bit nw ++ d ++ imm : Word)) 24 7 = (0x2D#7) :=
  (extract_left (n := 16) (m := 16) _ _ 24 7 (by decide)).trans
    <| (extract_left (n := 9) (m := 7) _ _ 8 7 (by decide)).trans
    <| (extract_left (n := 8) (m := 1) _ _ 1 7 (by decide)).trans
    <| (extract_right (n := 1) (m := 7) _ _ 0 7 (by decide)).trans
    <| (extract_all _)
theorem movi_at23 (c nw : Bool) (d : BitVec 7) (imm : BitVec 16) : flag ((bit c ++ (0x2D#7) ++ bit nw ++ d ++ imm : Word)) 23 = nw :=
  flag_of_field _ _ _ <| (extract_left (n := 16) (m := 16) _ _ 23 1 (by decide)).trans
    <| (extract_left (n := 9) (m := 7) _ _ 7 1 (by decide)).trans
    <| (extract_right (n := 8) (m := 1) _ _ 0 1 (by decide)).trans
    <| (extract_all _)
theorem movi_at16 (c nw : Bool) (d : BitVec 7) (imm : BitVec 16) : field ((bit c ++ (0x2D#7) ++ bit nw ++ d ++ imm : Word)) 16 7 = d :=
  (extract_left (n := 16) (m := 16) _ _ 16 7 (by decide)).trans
    <| (extract_right (n := 9) (m := 7) _ _ 0 7 (by decide)).trans
    <| (extract_all _)
theorem movi_at0 (c nw : Bool) (d : BitVec 7) (imm : BitVec 16) : field ((bit c ++ (0x2D#7) ++ bit nw ++ d ++ imm : Word)) 0 16 = imm :=
  (extract_right (n := 16) (m := 16) _ _ 0 16 (by decide)).trans
    <| (extract_all _)

theorem fence_at31 (c : Bool) (sc : BitVec 2) : flag ((bit c ++ (0x5C#7) ++ sc ++ (0#22) : Word)) 31 = c :=
  flag_of_field _ _ _ <| (extract_left (n := 10) (m := 22) _ _ 31 1 (by decide)).trans
    <| (extract_left (n := 8) (m := 2) _ _ 9 1 (by decide)).trans
    <| (extract_left (n := 1) (m := 7) _ _ 7 1 (by decide)).trans
    <| (extract_all _)
theorem fence_at24 (c : Bool) (sc : BitVec 2) : field ((bit c ++ (0x5C#7) ++ sc ++ (0#22) : Word)) 24 7 = (0x5C#7) :=
  (extract_left (n := 10) (m := 22) _ _ 24 7 (by decide)).trans
    <| (extract_left (n := 8) (m := 2) _ _ 2 7 (by decide)).trans
    <| (extract_right (n := 1) (m := 7) _ _ 0 7 (by decide)).trans
    <| (extract_all _)
theorem fence_at22 (c : Bool) (sc : BitVec 2) : field ((bit c ++ (0x5C#7) ++ sc ++ (0#22) : Word)) 22 2 = sc :=
  (extract_left (n := 10) (m := 22) _ _ 22 2 (by decide)).trans
    <| (extract_right (n := 8) (m := 2) _ _ 0 2 (by decide)).trans
    <| (extract_all _)

theorem jmp_at31 (c : Bool) (off : BitVec 24) : flag ((bit c ++ (0x71#7) ++ off : Word)) 31 = c :=
  flag_of_field _ _ _ <| (extract_left (n := 8) (m := 24) _ _ 31 1 (by decide)).trans
    <| (extract_left (n := 1) (m := 7) _ _ 7 1 (by decide)).trans
    <| (extract_all _)
theorem jmp_at24 (c : Bool) (off : BitVec 24) : field ((bit c ++ (0x71#7) ++ off : Word)) 24 7 = (0x71#7) :=
  (extract_left (n := 8) (m := 24) _ _ 24 7 (by decide)).trans
    <| (extract_right (n := 1) (m := 7) _ _ 0 7 (by decide)).trans
    <| (extract_all _)
theorem jmp_at0 (c : Bool) (off : BitVec 24) : field ((bit c ++ (0x71#7) ++ off : Word)) 0 24 = off :=
  (extract_right (n := 8) (m := 24) _ _ 0 24 (by decide)).trans
    <| (extract_all _)

theorem call_at31 (c : Bool) (fr : BitVec 7) (off : BitVec 17) : flag ((bit c ++ (0x72#7) ++ fr ++ off : Word)) 31 = c :=
  flag_of_field _ _ _ <| (extract_left (n := 15) (m := 17) _ _ 31 1 (by decide)).trans
    <| (extract_left (n := 8) (m := 7) _ _ 14 1 (by decide)).trans
    <| (extract_left (n := 1) (m := 7) _ _ 7 1 (by decide)).trans
    <| (extract_all _)
theorem call_at24 (c : Bool) (fr : BitVec 7) (off : BitVec 17) : field ((bit c ++ (0x72#7) ++ fr ++ off : Word)) 24 7 = (0x72#7) :=
  (extract_left (n := 15) (m := 17) _ _ 24 7 (by decide)).trans
    <| (extract_left (n := 8) (m := 7) _ _ 7 7 (by decide)).trans
    <| (extract_right (n := 1) (m := 7) _ _ 0 7 (by decide)).trans
    <| (extract_all _)
theorem call_at17 (c : Bool) (fr : BitVec 7) (off : BitVec 17) : field ((bit c ++ (0x72#7) ++ fr ++ off : Word)) 17 7 = fr :=
  (extract_left (n := 15) (m := 17) _ _ 17 7 (by decide)).trans
    <| (extract_right (n := 8) (m := 7) _ _ 0 7 (by decide)).trans
    <| (extract_all _)
theorem call_at0 (c : Bool) (fr : BitVec 7) (off : BitVec 17) : field ((bit c ++ (0x72#7) ++ fr ++ off : Word)) 0 17 = off :=
  (extract_right (n := 15) (m := 17) _ _ 0 17 (by decide)).trans
    <| (extract_all _)

theorem spawn_at31 (c : Bool) (d sa : BitVec 7) (off : BitVec 10) : flag ((bit c ++ (0x74#7) ++ d ++ sa ++ off : Word)) 31 = c :=
  flag_of_field _ _ _ <| (extract_left (n := 22) (m := 10) _ _ 31 1 (by decide)).trans
    <| (extract_left (n := 15) (m := 7) _ _ 21 1 (by decide)).trans
    <| (extract_left (n := 8) (m := 7) _ _ 14 1 (by decide)).trans
    <| (extract_left (n := 1) (m := 7) _ _ 7 1 (by decide)).trans
    <| (extract_all _)
theorem spawn_at24 (c : Bool) (d sa : BitVec 7) (off : BitVec 10) : field ((bit c ++ (0x74#7) ++ d ++ sa ++ off : Word)) 24 7 = (0x74#7) :=
  (extract_left (n := 22) (m := 10) _ _ 24 7 (by decide)).trans
    <| (extract_left (n := 15) (m := 7) _ _ 14 7 (by decide)).trans
    <| (extract_left (n := 8) (m := 7) _ _ 7 7 (by decide)).trans
    <| (extract_right (n := 1) (m := 7) _ _ 0 7 (by decide)).trans
    <| (extract_all _)
theorem spawn_at17 (c : Bool) (d sa : BitVec 7) (off : BitVec 10) : field ((bit c ++ (0x74#7) ++ d ++ sa ++ off : Word)) 17 7 = d :=
  (extract_left (n := 22) (m := 10) _ _ 17 7 (by decide)).trans
    <| (extract_left (n := 15) (m := 7) _ _ 7 7 (by decide)).trans
    <| (extract_right (n := 8) (m := 7) _ _ 0 7 (by decide)).trans
    <| (extract_all _)
theorem spawn_at10 (c : Bool) (d sa : BitVec 7) (off : BitVec 10) : field ((bit c ++ (0x74#7) ++ d ++ sa ++ off : Word)) 10 7 = sa :=
  (extract_left (n := 22) (m := 10) _ _ 10 7 (by decide)).trans
    <| (extract_right (n := 15) (m := 7) _ _ 0 7 (by decide)).trans
    <| (extract_all _)
theorem spawn_at0 (c : Bool) (d sa : BitVec 7) (off : BitVec 10) : field ((bit c ++ (0x74#7) ++ d ++ sa ++ off : Word)) 0 10 = off :=
  (extract_right (n := 22) (m := 10) _ _ 0 10 (by decide)).trans
    <| (extract_all _)

theorem wsb_at31 (c : Bool) (m : BitVec 8) : flag ((bit c ++ (0x78#7) ++ (0#16) ++ m : Word)) 31 = c :=
  flag_of_field _ _ _ <| (extract_left (n := 24) (m := 8) _ _ 31 1 (by decide)).trans
    <| (extract_left (n := 8) (m := 16) _ _ 23 1 (by decide)).trans
    <| (extract_left (n := 1) (m := 7) _ _ 7 1 (by decide)).trans
    <| (extract_all _)
theorem wsb_at24 (c : Bool) (m : BitVec 8) : field ((bit c ++ (0x78#7) ++ (0#16) ++ m : Word)) 24 7 = (0x78#7) :=
  (extract_left (n := 24) (m := 8) _ _ 24 7 (by decide)).trans
    <| (extract_left (n := 8) (m := 16) _ _ 16 7 (by decide)).trans
    <| (extract_right (n := 1) (m := 7) _ _ 0 7 (by decide)).trans
    <| (extract_all _)
theorem wsb_at0 (c : Bool) (m : BitVec 8) : field ((bit c ++ (0x78#7) ++ (0#16) ++ m : Word)) 0 8 = m :=
  (extract_right (n := 24) (m := 8) _ _ 0 8 (by decide)).trans
    <| (extract_all _)

theorem rep_at24 (nr nc : BitVec 5) (ca cb : Bool) (d a b : BitVec 4) : field (((0#1) ++ (0x7B#7) ++ nr ++ nc ++ bit ca ++ bit cb ++ d ++ a ++ b : Word)) 24 7 = (0x7B#7) :=
  (extract_left (n := 28) (m := 4) _ _ 24 7 (by decide)).trans
    <| (extract_left (n := 24) (m := 4) _ _ 20 7 (by decide)).trans
    <| (extract_left (n := 20) (m := 4) _ _ 16 7 (by decide)).trans
    <| (extract_left (n := 19) (m := 1) _ _ 12 7 (by decide)).trans
    <| (extract_left (n := 18) (m := 1) _ _ 11 7 (by decide)).trans
    <| (extract_left (n := 13) (m := 5) _ _ 10 7 (by decide)).trans
    <| (extract_left (n := 8) (m := 5) _ _ 5 7 (by decide)).trans
    <| (extract_right (n := 1) (m := 7) _ _ 0 7 (by decide)).trans
    <| (extract_all _)
theorem rep_at19 (nr nc : BitVec 5) (ca cb : Bool) (d a b : BitVec 4) : field (((0#1) ++ (0x7B#7) ++ nr ++ nc ++ bit ca ++ bit cb ++ d ++ a ++ b : Word)) 19 5 = nr :=
  (extract_left (n := 28) (m := 4) _ _ 19 5 (by decide)).trans
    <| (extract_left (n := 24) (m := 4) _ _ 15 5 (by decide)).trans
    <| (extract_left (n := 20) (m := 4) _ _ 11 5 (by decide)).trans
    <| (extract_left (n := 19) (m := 1) _ _ 7 5 (by decide)).trans
    <| (extract_left (n := 18) (m := 1) _ _ 6 5 (by decide)).trans
    <| (extract_left (n := 13) (m := 5) _ _ 5 5 (by decide)).trans
    <| (extract_right (n := 8) (m := 5) _ _ 0 5 (by decide)).trans
    <| (extract_all _)
theorem rep_at14 (nr nc : BitVec 5) (ca cb : Bool) (d a b : BitVec 4) : field (((0#1) ++ (0x7B#7) ++ nr ++ nc ++ bit ca ++ bit cb ++ d ++ a ++ b : Word)) 14 5 = nc :=
  (extract_left (n := 28) (m := 4) _ _ 14 5 (by decide)).trans
    <| (extract_left (n := 24) (m := 4) _ _ 10 5 (by decide)).trans
    <| (extract_left (n := 20) (m := 4) _ _ 6 5 (by decide)).trans
    <| (extract_left (n := 19) (m := 1) _ _ 2 5 (by decide)).trans
    <| (extract_left (n := 18) (m := 1) _ _ 1 5 (by decide)).trans
    <| (extract_right (n := 13) (m := 5) _ _ 0 5 (by decide)).trans
    <| (extract_all _)
theorem rep_at13 (nr nc : BitVec 5) (ca cb : Bool) (d a b : BitVec 4) : flag (((0#1) ++ (0x7B#7) ++ nr ++ nc ++ bit ca ++ bit cb ++ d ++ a ++ b : Word)) 13 = ca :=
  flag_of_field _ _ _ <| (extract_left (n := 28) (m := 4) _ _ 13 1 (by decide)).trans
    <| (extract_left (n := 24) (m := 4) _ _ 9 1 (by decide)).trans
    <| (extract_left (n := 20) (m := 4) _ _ 5 1 (by decide)).trans
    <| (extract_left (n := 19) (m := 1) _ _ 1 1 (by decide)).trans
    <| (extract_right (n := 18) (m := 1) _ _ 0 1 (by decide)).trans
    <| (extract_all _)
theorem rep_at12 (nr nc : BitVec 5) (ca cb : Bool) (d a b : BitVec 4) : flag (((0#1) ++ (0x7B#7) ++ nr ++ nc ++ bit ca ++ bit cb ++ d ++ a ++ b : Word)) 12 = cb :=
  flag_of_field _ _ _ <| (extract_left (n := 28) (m := 4) _ _ 12 1 (by decide)).trans
    <| (extract_left (n := 24) (m := 4) _ _ 8 1 (by decide)).trans
    <| (extract_left (n := 20) (m := 4) _ _ 4 1 (by decide)).trans
    <| (extract_right (n := 19) (m := 1) _ _ 0 1 (by decide)).trans
    <| (extract_all _)
theorem rep_at8 (nr nc : BitVec 5) (ca cb : Bool) (d a b : BitVec 4) : field (((0#1) ++ (0x7B#7) ++ nr ++ nc ++ bit ca ++ bit cb ++ d ++ a ++ b : Word)) 8 4 = d :=
  (extract_left (n := 28) (m := 4) _ _ 8 4 (by decide)).trans
    <| (extract_left (n := 24) (m := 4) _ _ 4 4 (by decide)).trans
    <| (extract_right (n := 20) (m := 4) _ _ 0 4 (by decide)).trans
    <| (extract_all _)
theorem rep_at4 (nr nc : BitVec 5) (ca cb : Bool) (d a b : BitVec 4) : field (((0#1) ++ (0x7B#7) ++ nr ++ nc ++ bit ca ++ bit cb ++ d ++ a ++ b : Word)) 4 4 = a :=
  (extract_left (n := 28) (m := 4) _ _ 4 4 (by decide)).trans
    <| (extract_right (n := 24) (m := 4) _ _ 0 4 (by decide)).trans
    <| (extract_all _)
theorem rep_at0 (nr nc : BitVec 5) (ca cb : Bool) (d a b : BitVec 4) : field (((0#1) ++ (0x7B#7) ++ nr ++ nc ++ bit ca ++ bit cb ++ d ++ a ++ b : Word)) 0 4 = b :=
  (extract_right (n := 28) (m := 4) _ _ 0 4 (by decide)).trans
    <| (extract_all _)

theorem xl_at24 (pat : BitVec 3) (k : BitVec 6) (fill : Bool) : field (((0#1) ++ (0x7C#7) ++ pat ++ k ++ bit fill ++ (0#14) : Word)) 24 7 = (0x7C#7) :=
  (extract_left (n := 18) (m := 14) _ _ 24 7 (by decide)).trans
    <| (extract_left (n := 17) (m := 1) _ _ 10 7 (by decide)).trans
    <| (extract_left (n := 11) (m := 6) _ _ 9 7 (by decide)).trans
    <| (extract_left (n := 8) (m := 3) _ _ 3 7 (by decide)).trans
    <| (extract_right (n := 1) (m := 7) _ _ 0 7 (by decide)).trans
    <| (extract_all _)
theorem xl_at21 (pat : BitVec 3) (k : BitVec 6) (fill : Bool) : field (((0#1) ++ (0x7C#7) ++ pat ++ k ++ bit fill ++ (0#14) : Word)) 21 3 = pat :=
  (extract_left (n := 18) (m := 14) _ _ 21 3 (by decide)).trans
    <| (extract_left (n := 17) (m := 1) _ _ 7 3 (by decide)).trans
    <| (extract_left (n := 11) (m := 6) _ _ 6 3 (by decide)).trans
    <| (extract_right (n := 8) (m := 3) _ _ 0 3 (by decide)).trans
    <| (extract_all _)
theorem xl_at15 (pat : BitVec 3) (k : BitVec 6) (fill : Bool) : field (((0#1) ++ (0x7C#7) ++ pat ++ k ++ bit fill ++ (0#14) : Word)) 15 6 = k :=
  (extract_left (n := 18) (m := 14) _ _ 15 6 (by decide)).trans
    <| (extract_left (n := 17) (m := 1) _ _ 1 6 (by decide)).trans
    <| (extract_right (n := 11) (m := 6) _ _ 0 6 (by decide)).trans
    <| (extract_all _)
theorem xl_at14 (pat : BitVec 3) (k : BitVec 6) (fill : Bool) : flag (((0#1) ++ (0x7C#7) ++ pat ++ k ++ bit fill ++ (0#14) : Word)) 14 = fill :=
  flag_of_field _ _ _ <| (extract_left (n := 18) (m := 14) _ _ 14 1 (by decide)).trans
    <| (extract_right (n := 17) (m := 1) _ _ 0 1 (by decide)).trans
    <| (extract_all _)

theorem grd_at24 (s : Bool) (b : BitVec 5) : field (((0#1) ++ (0x7D#7) ++ bit s ++ b ++ (0#18) : Word)) 24 7 = (0x7D#7) :=
  (extract_left (n := 14) (m := 18) _ _ 24 7 (by decide)).trans
    <| (extract_left (n := 9) (m := 5) _ _ 6 7 (by decide)).trans
    <| (extract_left (n := 8) (m := 1) _ _ 1 7 (by decide)).trans
    <| (extract_right (n := 1) (m := 7) _ _ 0 7 (by decide)).trans
    <| (extract_all _)
theorem grd_at23 (s : Bool) (b : BitVec 5) : flag (((0#1) ++ (0x7D#7) ++ bit s ++ b ++ (0#18) : Word)) 23 = s :=
  flag_of_field _ _ _ <| (extract_left (n := 14) (m := 18) _ _ 23 1 (by decide)).trans
    <| (extract_left (n := 9) (m := 5) _ _ 5 1 (by decide)).trans
    <| (extract_right (n := 8) (m := 1) _ _ 0 1 (by decide)).trans
    <| (extract_all _)
theorem grd_at18 (s : Bool) (b : BitVec 5) : field (((0#1) ++ (0x7D#7) ++ bit s ++ b ++ (0#18) : Word)) 18 5 = b :=
  (extract_left (n := 14) (m := 18) _ _ 18 5 (by decide)).trans
    <| (extract_right (n := 9) (m := 5) _ _ 0 5 (by decide)).trans
    <| (extract_all _)

theorem ext_at24 (imm : BitVec 24) : field (((0#1) ++ (0x7E#7) ++ imm : Word)) 24 7 = (0x7E#7) :=
  (extract_left (n := 8) (m := 24) _ _ 24 7 (by decide)).trans
    <| (extract_right (n := 1) (m := 7) _ _ 0 7 (by decide)).trans
    <| (extract_all _)
theorem ext_at0 (imm : BitVec 24) : field (((0#1) ++ (0x7E#7) ++ imm : Word)) 0 24 = imm :=
  (extract_right (n := 8) (m := 24) _ _ 0 24 (by decide)).trans
    <| (extract_all _)

theorem efOf_encE (op : BitVec 7) (o : EF) (fn : BitVec 4) (k : BitVec 6) : efOf (encE op o.c o.d o.sa fn k) = o := by
  simp only [efOf, encE_at31, encE_at17, encE_at10]

theorem xfOf_encX (op : BitVec 7) (o : XF) (f6 : BitVec 6) : xfOf (encX op o.c o.ec o.ls o.sa o.sb f6) = o := by
  simp only [xfOf, encX_at31, encX_at22, encX_at20, encX_at13, encX_at6]

/-- The upper and the lower part of a field that holds two values. -/
theorem field_left {n m : Nat} (w : Word) (lo : Nat) (x : BitVec n) (y : BitVec m) (h : field w lo (n + m) = x ++ y) :
    field w (lo + m) n = x := by
  have e : field w (lo + m) n = (field w lo (n + m)).extractLsb' m n := by
    apply BitVec.eq_of_getLsbD_eq
    intro i hi
    simp [field, hi, Nat.add_assoc]
    omega
  rw [e, h, extract_left _ _ _ _ (Nat.le_refl m), Nat.sub_self, extract_all]

theorem field_right {n m : Nat} (w : Word) (lo : Nat) (x : BitVec n) (y : BitVec m) (h : field w lo (n + m) = x ++ y) :
    field w lo m = y := by
  have e : field w lo m = (field w lo (n + m)).extractLsb' 0 m := by
    apply BitVec.eq_of_getLsbD_eq
    intro i hi
    simp [field, hi]
    omega
  rw [e, h, extract_right _ _ _ _ (Nat.le_of_eq (Nat.zero_add m)), extract_all]

/-- A part of a field. -/
theorem field_part {n : Nat} (w : Word) (lo a k : Nat) (x : BitVec n) (h : field w lo n = x) (hk : a + k ≤ n := by decide) :
    field w (lo + a) k = x.extractLsb' a k := by
  subst h
  apply BitVec.eq_of_getLsbD_eq
  intro i hi
  simp [field, hi, Nat.add_assoc]
  omega

end Sys2Proof.Laws
end

