-- ==== Sys2Proof/Laws/State.lean ====
section
/-! SUPPORT. One lemma for each field after each named update of the state, of a group and of a fibre: what it leaves is what stood there. -/

namespace Sys2Proof.Machine

@[simp] theorem setX_mem (s : State) (f o : Nat) (v : Dword) : (setX s f o v).mem = s.mem := rfl
@[simp] theorem setX_memTag (s : State) (f o : Nat) (v : Dword) : (setX s f o v).memTag = s.memTag := rfl
@[simp] theorem setX_stale (s : State) (f o : Nat) (v : Dword) : (setX s f o v).stale = s.stale := rfl
@[simp] theorem setX_lines (s : State) (f o : Nat) (v : Dword) : (setX s f o v).lines = s.lines := rfl
@[simp] theorem setX_hostMem (s : State) (f o : Nat) (v : Dword) : (setX s f o v).hostMem = s.hostMem := rfl
@[simp] theorem setX_weights (s : State) (f o : Nat) (v : Dword) : (setX s f o v).weights = s.weights := rfl
@[simp] theorem setX_granuleTenant (s : State) (f o : Nat) (v : Dword) : (setX s f o v).granuleTenant = s.granuleTenant := rfl
@[simp] theorem setX_spad (s : State) (f o : Nat) (v : Dword) : (setX s f o v).spad = s.spad := rfl
@[simp] theorem setX_rowTenant (s : State) (f o : Nat) (v : Dword) : (setX s f o v).rowTenant = s.rowTenant := rfl
@[simp] theorem setX_past (s : State) (f o : Nat) (v : Dword) : (setX s f o v).past = s.past := rfl
@[simp] theorem setX_events (s : State) (f o : Nat) (v : Dword) : (setX s f o v).events = s.events := rfl
@[simp] theorem setX_groups (s : State) (f o : Nat) (v : Dword) : (setX s f o v).groups = s.groups := rfl
@[simp] theorem setX_quarters (s : State) (f o : Nat) (v : Dword) : (setX s f o v).quarters = s.quarters := rfl
@[simp] theorem setX_rowHolds (s : State) (f o : Nat) (v : Dword) : (setX s f o v).rowHolds = s.rowHolds := rfl
@[simp] theorem setX_accesses (s : State) (f o : Nat) (v : Dword) : (setX s f o v).accesses = s.accesses := rfl
@[simp] theorem setX_spills (s : State) (f o : Nat) (v : Dword) : (setX s f o v).spills = s.spills := rfl
@[simp] theorem setX_replay (s : State) (f o : Nat) (v : Dword) : (setX s f o v).replay = s.replay := rfl
@[simp] theorem setX_ranges (s : State) (f o : Nat) (v : Dword) : (setX s f o v).ranges = s.ranges := rfl
@[simp] theorem setX_copies (s : State) (f o : Nat) (v : Dword) : (setX s f o v).copies = s.copies := rfl
@[simp] theorem setX_tickets (s : State) (f o : Nat) (v : Dword) : (setX s f o v).tickets = s.tickets := rfl
@[simp] theorem setX_tableLoads (s : State) (f o : Nat) (v : Dword) : (setX s f o v).tableLoads = s.tableLoads := rfl
@[simp] theorem setX_relocations (s : State) (f o : Nat) (v : Dword) : (setX s f o v).relocations = s.relocations := rfl
@[simp] theorem setX_kiosks (s : State) (f o : Nat) (v : Dword) : (setX s f o v).kiosks = s.kiosks := rfl
@[simp] theorem setX_tiles (s : State) (f o : Nat) (v : Dword) : (setX s f o v).tiles = s.tiles := rfl
@[simp] theorem setX_budgets (s : State) (f o : Nat) (v : Dword) : (setX s f o v).budgets = s.budgets := rfl
@[simp] theorem setX_opTab (s : State) (f o : Nat) (v : Dword) : (setX s f o v).opTab = s.opTab := rfl
@[simp] theorem setX_street (s : State) (f o : Nat) (v : Dword) : (setX s f o v).street = s.street := rfl
@[simp] theorem setX_tlb (s : State) (f o : Nat) (v : Dword) : (setX s f o v).tlb = s.tlb := rfl
@[simp] theorem setX_ats (s : State) (f o : Nat) (v : Dword) : (setX s f o v).ats = s.ats := rfl
@[simp] theorem setX_atsCompletions (s : State) (f o : Nat) (v : Dword) : (setX s f o v).atsCompletions = s.atsCompletions := rfl
@[simp] theorem setX_tlbInv (s : State) (f o : Nat) (v : Dword) : (setX s f o v).tlbInv = s.tlbInv := rfl
@[simp] theorem setX_sdInv (s : State) (f o : Nat) (v : Dword) : (setX s f o v).sdInv = s.sdInv := rfl
@[simp] theorem setX_queues (s : State) (f o : Nat) (v : Dword) : (setX s f o v).queues = s.queues := rfl
@[simp] theorem setX_ring (s : State) (f o : Nat) (v : Dword) : (setX s f o v).ring = s.ring := rfl
@[simp] theorem setX_intake (s : State) (f o : Nat) (v : Dword) : (setX s f o v).intake = s.intake := rfl
@[simp] theorem setX_launches (s : State) (f o : Nat) (v : Dword) : (setX s f o v).launches = s.launches := rfl
@[simp] theorem setX_regionsOf (s : State) (f o : Nat) (v : Dword) : (setX s f o v).regionsOf = s.regionsOf := rfl
@[simp] theorem setX_regionCmds (s : State) (f o : Nat) (v : Dword) : (setX s f o v).regionCmds = s.regionCmds := rfl
@[simp] theorem setX_contexts (s : State) (f o : Nat) (v : Dword) : (setX s f o v).contexts = s.contexts := rfl
@[simp] theorem setX_ladders (s : State) (f o : Nat) (v : Dword) : (setX s f o v).ladders = s.ladders := rfl
@[simp] theorem setX_migQueue (s : State) (f o : Nat) (v : Dword) : (setX s f o v).migQueue = s.migQueue := rfl
@[simp] theorem setX_moves (s : State) (f o : Nat) (v : Dword) : (setX s f o v).moves = s.moves := rfl
@[simp] theorem setX_counters (s : State) (f o : Nat) (v : Dword) : (setX s f o v).counters = s.counters := rfl
@[simp] theorem setX_damaged (s : State) (f o : Nat) (v : Dword) : (setX s f o v).damaged = s.damaged := rfl
@[simp] theorem setX_pins (s : State) (f o : Nat) (v : Dword) : (setX s f o v).pins = s.pins := rfl
@[simp] theorem setX_cooling (s : State) (f o : Nat) (v : Dword) : (setX s f o v).cooling = s.cooling := rfl
@[simp] theorem setX_handovers (s : State) (f o : Nat) (v : Dword) : (setX s f o v).handovers = s.handovers := rfl
@[simp] theorem setX_keyGen (s : State) (f o : Nat) (v : Dword) : (setX s f o v).keyGen = s.keyGen := rfl
@[simp] theorem setX_pubKeys (s : State) (f o : Nat) (v : Dword) : (setX s f o v).pubKeys = s.pubKeys := rfl
@[simp] theorem setX_keyLoad (s : State) (f o : Nat) (v : Dword) : (setX s f o v).keyLoad = s.keyLoad := rfl
@[simp] theorem setX_errLog (s : State) (f o : Nat) (v : Dword) : (setX s f o v).errLog = s.errLog := rfl
@[simp] theorem setX_errOvf (s : State) (f o : Nat) (v : Dword) : (setX s f o v).errOvf = s.errOvf := rfl
@[simp] theorem setX_ready (s : State) (f o : Nat) (v : Dword) : (setX s f o v).ready = s.ready := rfl
@[simp] theorem setX_failed (s : State) (f o : Nat) (v : Dword) : (setX s f o v).failed = s.failed := rfl
@[simp] theorem setX_power (s : State) (f o : Nat) (v : Dword) : (setX s f o v).power = s.power := rfl
@[simp] theorem setX_harts (s : State) (f o : Nat) (v : Dword) : (setX s f o v).harts = s.harts := rfl
@[simp] theorem setX_msis (s : State) (f o : Nat) (v : Dword) : (setX s f o v).msis = s.msis := rfl
@[simp] theorem setX_completions (s : State) (f o : Nat) (v : Dword) : (setX s f o v).completions = s.completions := rfl
@[simp] theorem setX_mgmt (s : State) (f o : Nat) (v : Dword) : (setX s f o v).mgmt = s.mgmt := rfl
@[simp] theorem setX_pagerequests (s : State) (f o : Nat) (v : Dword) : (setX s f o v).pagerequests = s.pagerequests := rfl
@[simp] theorem setX_clock (s : State) (f o : Nat) (v : Dword) : (setX s f o v).clock = s.clock := rfl
@[simp] theorem setX_hubStart (s : State) (f o : Nat) (v : Dword) : (setX s f o v).hubStart = s.hubStart := rfl
@[simp] theorem setX_dieReady (s : State) (f o : Nat) (v : Dword) : (setX s f o v).dieReady = s.dieReady := rfl
@[simp] theorem setX_avenue (s : State) (f o : Nat) (v : Dword) : (setX s f o v).avenue = s.avenue := rfl
@[simp] theorem setX_refresh (s : State) (f o : Nat) (v : Dword) : (setX s f o v).refresh = s.refresh := rfl
@[simp] theorem setX_refills (s : State) (f o : Nat) (v : Dword) : (setX s f o v).refills = s.refills := rfl
@[simp] theorem setX_issue (s : State) (f o : Nat) (v : Dword) : (setX s f o v).issue = s.issue := rfl
@[simp] theorem setX_hartIssue (s : State) (f o : Nat) (v : Dword) : (setX s f o v).hartIssue = s.hartIssue := rfl
@[simp] theorem setX_agenda (s : State) (f o : Nat) (v : Dword) : (setX s f o v).agenda = s.agenda := rfl
@[simp] theorem setX_backs (s : State) (f o : Nat) (v : Dword) : (setX s f o v).backs = s.backs := rfl
@[simp] theorem setX_fresh (s : State) (f o : Nat) (v : Dword) : (setX s f o v).fresh = s.fresh := rfl
@[simp] theorem setX_nextId (s : State) (f o : Nat) (v : Dword) : (setX s f o v).nextId = s.nextId := rfl

@[simp] theorem setCtx_mem (s : State) (f : Nat) (c : Context) : (setCtx s f c).mem = s.mem := rfl
@[simp] theorem setCtx_memTag (s : State) (f : Nat) (c : Context) : (setCtx s f c).memTag = s.memTag := rfl
@[simp] theorem setCtx_stale (s : State) (f : Nat) (c : Context) : (setCtx s f c).stale = s.stale := rfl
@[simp] theorem setCtx_lines (s : State) (f : Nat) (c : Context) : (setCtx s f c).lines = s.lines := rfl
@[simp] theorem setCtx_hostMem (s : State) (f : Nat) (c : Context) : (setCtx s f c).hostMem = s.hostMem := rfl
@[simp] theorem setCtx_weights (s : State) (f : Nat) (c : Context) : (setCtx s f c).weights = s.weights := rfl
@[simp] theorem setCtx_granuleTenant (s : State) (f : Nat) (c : Context) : (setCtx s f c).granuleTenant = s.granuleTenant := rfl
@[simp] theorem setCtx_spad (s : State) (f : Nat) (c : Context) : (setCtx s f c).spad = s.spad := rfl
@[simp] theorem setCtx_rowTenant (s : State) (f : Nat) (c : Context) : (setCtx s f c).rowTenant = s.rowTenant := rfl
@[simp] theorem setCtx_past (s : State) (f : Nat) (c : Context) : (setCtx s f c).past = s.past := rfl
@[simp] theorem setCtx_events (s : State) (f : Nat) (c : Context) : (setCtx s f c).events = s.events := rfl
@[simp] theorem setCtx_groups (s : State) (f : Nat) (c : Context) : (setCtx s f c).groups = s.groups := rfl
@[simp] theorem setCtx_quarters (s : State) (f : Nat) (c : Context) : (setCtx s f c).quarters = s.quarters := rfl
@[simp] theorem setCtx_rowHolds (s : State) (f : Nat) (c : Context) : (setCtx s f c).rowHolds = s.rowHolds := rfl
@[simp] theorem setCtx_accesses (s : State) (f : Nat) (c : Context) : (setCtx s f c).accesses = s.accesses := rfl
@[simp] theorem setCtx_spills (s : State) (f : Nat) (c : Context) : (setCtx s f c).spills = s.spills := rfl
@[simp] theorem setCtx_replay (s : State) (f : Nat) (c : Context) : (setCtx s f c).replay = s.replay := rfl
@[simp] theorem setCtx_ranges (s : State) (f : Nat) (c : Context) : (setCtx s f c).ranges = s.ranges := rfl
@[simp] theorem setCtx_copies (s : State) (f : Nat) (c : Context) : (setCtx s f c).copies = s.copies := rfl
@[simp] theorem setCtx_tickets (s : State) (f : Nat) (c : Context) : (setCtx s f c).tickets = s.tickets := rfl
@[simp] theorem setCtx_tableLoads (s : State) (f : Nat) (c : Context) : (setCtx s f c).tableLoads = s.tableLoads := rfl
@[simp] theorem setCtx_relocations (s : State) (f : Nat) (c : Context) : (setCtx s f c).relocations = s.relocations := rfl
@[simp] theorem setCtx_kiosks (s : State) (f : Nat) (c : Context) : (setCtx s f c).kiosks = s.kiosks := rfl
@[simp] theorem setCtx_tiles (s : State) (f : Nat) (c : Context) : (setCtx s f c).tiles = s.tiles := rfl
@[simp] theorem setCtx_budgets (s : State) (f : Nat) (c : Context) : (setCtx s f c).budgets = s.budgets := rfl
@[simp] theorem setCtx_opTab (s : State) (f : Nat) (c : Context) : (setCtx s f c).opTab = s.opTab := rfl
@[simp] theorem setCtx_street (s : State) (f : Nat) (c : Context) : (setCtx s f c).street = s.street := rfl
@[simp] theorem setCtx_tlb (s : State) (f : Nat) (c : Context) : (setCtx s f c).tlb = s.tlb := rfl
@[simp] theorem setCtx_ats (s : State) (f : Nat) (c : Context) : (setCtx s f c).ats = s.ats := rfl
@[simp] theorem setCtx_atsCompletions (s : State) (f : Nat) (c : Context) : (setCtx s f c).atsCompletions = s.atsCompletions := rfl
@[simp] theorem setCtx_tlbInv (s : State) (f : Nat) (c : Context) : (setCtx s f c).tlbInv = s.tlbInv := rfl
@[simp] theorem setCtx_sdInv (s : State) (f : Nat) (c : Context) : (setCtx s f c).sdInv = s.sdInv := rfl
@[simp] theorem setCtx_queues (s : State) (f : Nat) (c : Context) : (setCtx s f c).queues = s.queues := rfl
@[simp] theorem setCtx_ring (s : State) (f : Nat) (c : Context) : (setCtx s f c).ring = s.ring := rfl
@[simp] theorem setCtx_intake (s : State) (f : Nat) (c : Context) : (setCtx s f c).intake = s.intake := rfl
@[simp] theorem setCtx_launches (s : State) (f : Nat) (c : Context) : (setCtx s f c).launches = s.launches := rfl
@[simp] theorem setCtx_regionsOf (s : State) (f : Nat) (c : Context) : (setCtx s f c).regionsOf = s.regionsOf := rfl
@[simp] theorem setCtx_regionCmds (s : State) (f : Nat) (c : Context) : (setCtx s f c).regionCmds = s.regionCmds := rfl
@[simp] theorem setCtx_ladders (s : State) (f : Nat) (c : Context) : (setCtx s f c).ladders = s.ladders := rfl
@[simp] theorem setCtx_migQueue (s : State) (f : Nat) (c : Context) : (setCtx s f c).migQueue = s.migQueue := rfl
@[simp] theorem setCtx_moves (s : State) (f : Nat) (c : Context) : (setCtx s f c).moves = s.moves := rfl
@[simp] theorem setCtx_counters (s : State) (f : Nat) (c : Context) : (setCtx s f c).counters = s.counters := rfl
@[simp] theorem setCtx_damaged (s : State) (f : Nat) (c : Context) : (setCtx s f c).damaged = s.damaged := rfl
@[simp] theorem setCtx_pins (s : State) (f : Nat) (c : Context) : (setCtx s f c).pins = s.pins := rfl
@[simp] theorem setCtx_cooling (s : State) (f : Nat) (c : Context) : (setCtx s f c).cooling = s.cooling := rfl
@[simp] theorem setCtx_handovers (s : State) (f : Nat) (c : Context) : (setCtx s f c).handovers = s.handovers := rfl
@[simp] theorem setCtx_xreg (s : State) (f : Nat) (c : Context) : (setCtx s f c).xreg = s.xreg := rfl
@[simp] theorem setCtx_keyGen (s : State) (f : Nat) (c : Context) : (setCtx s f c).keyGen = s.keyGen := rfl
@[simp] theorem setCtx_pubKeys (s : State) (f : Nat) (c : Context) : (setCtx s f c).pubKeys = s.pubKeys := rfl
@[simp] theorem setCtx_keyLoad (s : State) (f : Nat) (c : Context) : (setCtx s f c).keyLoad = s.keyLoad := rfl
@[simp] theorem setCtx_errLog (s : State) (f : Nat) (c : Context) : (setCtx s f c).errLog = s.errLog := rfl
@[simp] theorem setCtx_errOvf (s : State) (f : Nat) (c : Context) : (setCtx s f c).errOvf = s.errOvf := rfl
@[simp] theorem setCtx_ready (s : State) (f : Nat) (c : Context) : (setCtx s f c).ready = s.ready := rfl
@[simp] theorem setCtx_failed (s : State) (f : Nat) (c : Context) : (setCtx s f c).failed = s.failed := rfl
@[simp] theorem setCtx_power (s : State) (f : Nat) (c : Context) : (setCtx s f c).power = s.power := rfl
@[simp] theorem setCtx_harts (s : State) (f : Nat) (c : Context) : (setCtx s f c).harts = s.harts := rfl
@[simp] theorem setCtx_msis (s : State) (f : Nat) (c : Context) : (setCtx s f c).msis = s.msis := rfl
@[simp] theorem setCtx_completions (s : State) (f : Nat) (c : Context) : (setCtx s f c).completions = s.completions := rfl
@[simp] theorem setCtx_mgmt (s : State) (f : Nat) (c : Context) : (setCtx s f c).mgmt = s.mgmt := rfl
@[simp] theorem setCtx_pagerequests (s : State) (f : Nat) (c : Context) : (setCtx s f c).pagerequests = s.pagerequests := rfl
@[simp] theorem setCtx_clock (s : State) (f : Nat) (c : Context) : (setCtx s f c).clock = s.clock := rfl
@[simp] theorem setCtx_hubStart (s : State) (f : Nat) (c : Context) : (setCtx s f c).hubStart = s.hubStart := rfl
@[simp] theorem setCtx_dieReady (s : State) (f : Nat) (c : Context) : (setCtx s f c).dieReady = s.dieReady := rfl
@[simp] theorem setCtx_avenue (s : State) (f : Nat) (c : Context) : (setCtx s f c).avenue = s.avenue := rfl
@[simp] theorem setCtx_refresh (s : State) (f : Nat) (c : Context) : (setCtx s f c).refresh = s.refresh := rfl
@[simp] theorem setCtx_refills (s : State) (f : Nat) (c : Context) : (setCtx s f c).refills = s.refills := rfl
@[simp] theorem setCtx_issue (s : State) (f : Nat) (c : Context) : (setCtx s f c).issue = s.issue := rfl
@[simp] theorem setCtx_hartIssue (s : State) (f : Nat) (c : Context) : (setCtx s f c).hartIssue = s.hartIssue := rfl
@[simp] theorem setCtx_agenda (s : State) (f : Nat) (c : Context) : (setCtx s f c).agenda = s.agenda := rfl
@[simp] theorem setCtx_backs (s : State) (f : Nat) (c : Context) : (setCtx s f c).backs = s.backs := rfl
@[simp] theorem setCtx_fresh (s : State) (f : Nat) (c : Context) : (setCtx s f c).fresh = s.fresh := rfl
@[simp] theorem setCtx_nextId (s : State) (f : Nat) (c : Context) : (setCtx s f c).nextId = s.nextId := rfl

@[simp] theorem setGroup_mem (s : State) (k : Nat) (g : Group) : (setGroup s k g).mem = s.mem := rfl
@[simp] theorem setGroup_memTag (s : State) (k : Nat) (g : Group) : (setGroup s k g).memTag = s.memTag := rfl
@[simp] theorem setGroup_stale (s : State) (k : Nat) (g : Group) : (setGroup s k g).stale = s.stale := rfl
@[simp] theorem setGroup_lines (s : State) (k : Nat) (g : Group) : (setGroup s k g).lines = s.lines := rfl
@[simp] theorem setGroup_hostMem (s : State) (k : Nat) (g : Group) : (setGroup s k g).hostMem = s.hostMem := rfl
@[simp] theorem setGroup_weights (s : State) (k : Nat) (g : Group) : (setGroup s k g).weights = s.weights := rfl
@[simp] theorem setGroup_granuleTenant (s : State) (k : Nat) (g : Group) : (setGroup s k g).granuleTenant = s.granuleTenant := rfl
@[simp] theorem setGroup_spad (s : State) (k : Nat) (g : Group) : (setGroup s k g).spad = s.spad := rfl
@[simp] theorem setGroup_rowTenant (s : State) (k : Nat) (g : Group) : (setGroup s k g).rowTenant = s.rowTenant := rfl
@[simp] theorem setGroup_past (s : State) (k : Nat) (g : Group) : (setGroup s k g).past = s.past := rfl
@[simp] theorem setGroup_events (s : State) (k : Nat) (g : Group) : (setGroup s k g).events = s.events := rfl
@[simp] theorem setGroup_quarters (s : State) (k : Nat) (g : Group) : (setGroup s k g).quarters = s.quarters := rfl
@[simp] theorem setGroup_rowHolds (s : State) (k : Nat) (g : Group) : (setGroup s k g).rowHolds = s.rowHolds := rfl
@[simp] theorem setGroup_accesses (s : State) (k : Nat) (g : Group) : (setGroup s k g).accesses = s.accesses := rfl
@[simp] theorem setGroup_spills (s : State) (k : Nat) (g : Group) : (setGroup s k g).spills = s.spills := rfl
@[simp] theorem setGroup_replay (s : State) (k : Nat) (g : Group) : (setGroup s k g).replay = s.replay := rfl
@[simp] theorem setGroup_ranges (s : State) (k : Nat) (g : Group) : (setGroup s k g).ranges = s.ranges := rfl
@[simp] theorem setGroup_copies (s : State) (k : Nat) (g : Group) : (setGroup s k g).copies = s.copies := rfl
@[simp] theorem setGroup_tickets (s : State) (k : Nat) (g : Group) : (setGroup s k g).tickets = s.tickets := rfl
@[simp] theorem setGroup_tableLoads (s : State) (k : Nat) (g : Group) : (setGroup s k g).tableLoads = s.tableLoads := rfl
@[simp] theorem setGroup_relocations (s : State) (k : Nat) (g : Group) : (setGroup s k g).relocations = s.relocations := rfl
@[simp] theorem setGroup_kiosks (s : State) (k : Nat) (g : Group) : (setGroup s k g).kiosks = s.kiosks := rfl
@[simp] theorem setGroup_tiles (s : State) (k : Nat) (g : Group) : (setGroup s k g).tiles = s.tiles := rfl
@[simp] theorem setGroup_budgets (s : State) (k : Nat) (g : Group) : (setGroup s k g).budgets = s.budgets := rfl
@[simp] theorem setGroup_opTab (s : State) (k : Nat) (g : Group) : (setGroup s k g).opTab = s.opTab := rfl
@[simp] theorem setGroup_street (s : State) (k : Nat) (g : Group) : (setGroup s k g).street = s.street := rfl
@[simp] theorem setGroup_tlb (s : State) (k : Nat) (g : Group) : (setGroup s k g).tlb = s.tlb := rfl
@[simp] theorem setGroup_ats (s : State) (k : Nat) (g : Group) : (setGroup s k g).ats = s.ats := rfl
@[simp] theorem setGroup_atsCompletions (s : State) (k : Nat) (g : Group) : (setGroup s k g).atsCompletions = s.atsCompletions := rfl
@[simp] theorem setGroup_tlbInv (s : State) (k : Nat) (g : Group) : (setGroup s k g).tlbInv = s.tlbInv := rfl
@[simp] theorem setGroup_sdInv (s : State) (k : Nat) (g : Group) : (setGroup s k g).sdInv = s.sdInv := rfl
@[simp] theorem setGroup_queues (s : State) (k : Nat) (g : Group) : (setGroup s k g).queues = s.queues := rfl
@[simp] theorem setGroup_ring (s : State) (k : Nat) (g : Group) : (setGroup s k g).ring = s.ring := rfl
@[simp] theorem setGroup_intake (s : State) (k : Nat) (g : Group) : (setGroup s k g).intake = s.intake := rfl
@[simp] theorem setGroup_launches (s : State) (k : Nat) (g : Group) : (setGroup s k g).launches = s.launches := rfl
@[simp] theorem setGroup_regionsOf (s : State) (k : Nat) (g : Group) : (setGroup s k g).regionsOf = s.regionsOf := rfl
@[simp] theorem setGroup_regionCmds (s : State) (k : Nat) (g : Group) : (setGroup s k g).regionCmds = s.regionCmds := rfl
@[simp] theorem setGroup_contexts (s : State) (k : Nat) (g : Group) : (setGroup s k g).contexts = s.contexts := rfl
@[simp] theorem setGroup_ladders (s : State) (k : Nat) (g : Group) : (setGroup s k g).ladders = s.ladders := rfl
@[simp] theorem setGroup_migQueue (s : State) (k : Nat) (g : Group) : (setGroup s k g).migQueue = s.migQueue := rfl
@[simp] theorem setGroup_moves (s : State) (k : Nat) (g : Group) : (setGroup s k g).moves = s.moves := rfl
@[simp] theorem setGroup_counters (s : State) (k : Nat) (g : Group) : (setGroup s k g).counters = s.counters := rfl
@[simp] theorem setGroup_damaged (s : State) (k : Nat) (g : Group) : (setGroup s k g).damaged = s.damaged := rfl
@[simp] theorem setGroup_pins (s : State) (k : Nat) (g : Group) : (setGroup s k g).pins = s.pins := rfl
@[simp] theorem setGroup_cooling (s : State) (k : Nat) (g : Group) : (setGroup s k g).cooling = s.cooling := rfl
@[simp] theorem setGroup_handovers (s : State) (k : Nat) (g : Group) : (setGroup s k g).handovers = s.handovers := rfl
@[simp] theorem setGroup_xreg (s : State) (k : Nat) (g : Group) : (setGroup s k g).xreg = s.xreg := rfl
@[simp] theorem setGroup_keyGen (s : State) (k : Nat) (g : Group) : (setGroup s k g).keyGen = s.keyGen := rfl
@[simp] theorem setGroup_pubKeys (s : State) (k : Nat) (g : Group) : (setGroup s k g).pubKeys = s.pubKeys := rfl
@[simp] theorem setGroup_keyLoad (s : State) (k : Nat) (g : Group) : (setGroup s k g).keyLoad = s.keyLoad := rfl
@[simp] theorem setGroup_errLog (s : State) (k : Nat) (g : Group) : (setGroup s k g).errLog = s.errLog := rfl
@[simp] theorem setGroup_errOvf (s : State) (k : Nat) (g : Group) : (setGroup s k g).errOvf = s.errOvf := rfl
@[simp] theorem setGroup_ready (s : State) (k : Nat) (g : Group) : (setGroup s k g).ready = s.ready := rfl
@[simp] theorem setGroup_failed (s : State) (k : Nat) (g : Group) : (setGroup s k g).failed = s.failed := rfl
@[simp] theorem setGroup_power (s : State) (k : Nat) (g : Group) : (setGroup s k g).power = s.power := rfl
@[simp] theorem setGroup_harts (s : State) (k : Nat) (g : Group) : (setGroup s k g).harts = s.harts := rfl
@[simp] theorem setGroup_msis (s : State) (k : Nat) (g : Group) : (setGroup s k g).msis = s.msis := rfl
@[simp] theorem setGroup_completions (s : State) (k : Nat) (g : Group) : (setGroup s k g).completions = s.completions := rfl
@[simp] theorem setGroup_mgmt (s : State) (k : Nat) (g : Group) : (setGroup s k g).mgmt = s.mgmt := rfl
@[simp] theorem setGroup_pagerequests (s : State) (k : Nat) (g : Group) : (setGroup s k g).pagerequests = s.pagerequests := rfl
@[simp] theorem setGroup_clock (s : State) (k : Nat) (g : Group) : (setGroup s k g).clock = s.clock := rfl
@[simp] theorem setGroup_hubStart (s : State) (k : Nat) (g : Group) : (setGroup s k g).hubStart = s.hubStart := rfl
@[simp] theorem setGroup_dieReady (s : State) (k : Nat) (g : Group) : (setGroup s k g).dieReady = s.dieReady := rfl
@[simp] theorem setGroup_avenue (s : State) (k : Nat) (g : Group) : (setGroup s k g).avenue = s.avenue := rfl
@[simp] theorem setGroup_refresh (s : State) (k : Nat) (g : Group) : (setGroup s k g).refresh = s.refresh := rfl
@[simp] theorem setGroup_refills (s : State) (k : Nat) (g : Group) : (setGroup s k g).refills = s.refills := rfl
@[simp] theorem setGroup_issue (s : State) (k : Nat) (g : Group) : (setGroup s k g).issue = s.issue := rfl
@[simp] theorem setGroup_hartIssue (s : State) (k : Nat) (g : Group) : (setGroup s k g).hartIssue = s.hartIssue := rfl
@[simp] theorem setGroup_agenda (s : State) (k : Nat) (g : Group) : (setGroup s k g).agenda = s.agenda := rfl
@[simp] theorem setGroup_backs (s : State) (k : Nat) (g : Group) : (setGroup s k g).backs = s.backs := rfl
@[simp] theorem setGroup_fresh (s : State) (k : Nat) (g : Group) : (setGroup s k g).fresh = s.fresh := rfl
@[simp] theorem setGroup_nextId (s : State) (k : Nat) (g : Group) : (setGroup s k g).nextId = s.nextId := rfl

@[simp] theorem modGroup_mem (s : State) (k : Nat) (h : Group → Group) : (modGroup s k h).mem = s.mem := rfl
@[simp] theorem modGroup_memTag (s : State) (k : Nat) (h : Group → Group) : (modGroup s k h).memTag = s.memTag := rfl
@[simp] theorem modGroup_stale (s : State) (k : Nat) (h : Group → Group) : (modGroup s k h).stale = s.stale := rfl
@[simp] theorem modGroup_lines (s : State) (k : Nat) (h : Group → Group) : (modGroup s k h).lines = s.lines := rfl
@[simp] theorem modGroup_hostMem (s : State) (k : Nat) (h : Group → Group) : (modGroup s k h).hostMem = s.hostMem := rfl
@[simp] theorem modGroup_weights (s : State) (k : Nat) (h : Group → Group) : (modGroup s k h).weights = s.weights := rfl
@[simp] theorem modGroup_granuleTenant (s : State) (k : Nat) (h : Group → Group) : (modGroup s k h).granuleTenant = s.granuleTenant := rfl
@[simp] theorem modGroup_spad (s : State) (k : Nat) (h : Group → Group) : (modGroup s k h).spad = s.spad := rfl
@[simp] theorem modGroup_rowTenant (s : State) (k : Nat) (h : Group → Group) : (modGroup s k h).rowTenant = s.rowTenant := rfl
@[simp] theorem modGroup_past (s : State) (k : Nat) (h : Group → Group) : (modGroup s k h).past = s.past := rfl
@[simp] theorem modGroup_events (s : State) (k : Nat) (h : Group → Group) : (modGroup s k h).events = s.events := rfl
@[simp] theorem modGroup_quarters (s : State) (k : Nat) (h : Group → Group) : (modGroup s k h).quarters = s.quarters := rfl
@[simp] theorem modGroup_rowHolds (s : State) (k : Nat) (h : Group → Group) : (modGroup s k h).rowHolds = s.rowHolds := rfl
@[simp] theorem modGroup_accesses (s : State) (k : Nat) (h : Group → Group) : (modGroup s k h).accesses = s.accesses := rfl
@[simp] theorem modGroup_spills (s : State) (k : Nat) (h : Group → Group) : (modGroup s k h).spills = s.spills := rfl
@[simp] theorem modGroup_replay (s : State) (k : Nat) (h : Group → Group) : (modGroup s k h).replay = s.replay := rfl
@[simp] theorem modGroup_ranges (s : State) (k : Nat) (h : Group → Group) : (modGroup s k h).ranges = s.ranges := rfl
@[simp] theorem modGroup_copies (s : State) (k : Nat) (h : Group → Group) : (modGroup s k h).copies = s.copies := rfl
@[simp] theorem modGroup_tickets (s : State) (k : Nat) (h : Group → Group) : (modGroup s k h).tickets = s.tickets := rfl
@[simp] theorem modGroup_tableLoads (s : State) (k : Nat) (h : Group → Group) : (modGroup s k h).tableLoads = s.tableLoads := rfl
@[simp] theorem modGroup_relocations (s : State) (k : Nat) (h : Group → Group) : (modGroup s k h).relocations = s.relocations := rfl
@[simp] theorem modGroup_kiosks (s : State) (k : Nat) (h : Group → Group) : (modGroup s k h).kiosks = s.kiosks := rfl
@[simp] theorem modGroup_tiles (s : State) (k : Nat) (h : Group → Group) : (modGroup s k h).tiles = s.tiles := rfl
@[simp] theorem modGroup_budgets (s : State) (k : Nat) (h : Group → Group) : (modGroup s k h).budgets = s.budgets := rfl
@[simp] theorem modGroup_opTab (s : State) (k : Nat) (h : Group → Group) : (modGroup s k h).opTab = s.opTab := rfl
@[simp] theorem modGroup_street (s : State) (k : Nat) (h : Group → Group) : (modGroup s k h).street = s.street := rfl
@[simp] theorem modGroup_tlb (s : State) (k : Nat) (h : Group → Group) : (modGroup s k h).tlb = s.tlb := rfl
@[simp] theorem modGroup_ats (s : State) (k : Nat) (h : Group → Group) : (modGroup s k h).ats = s.ats := rfl
@[simp] theorem modGroup_atsCompletions (s : State) (k : Nat) (h : Group → Group) : (modGroup s k h).atsCompletions = s.atsCompletions := rfl
@[simp] theorem modGroup_tlbInv (s : State) (k : Nat) (h : Group → Group) : (modGroup s k h).tlbInv = s.tlbInv := rfl
@[simp] theorem modGroup_sdInv (s : State) (k : Nat) (h : Group → Group) : (modGroup s k h).sdInv = s.sdInv := rfl
@[simp] theorem modGroup_queues (s : State) (k : Nat) (h : Group → Group) : (modGroup s k h).queues = s.queues := rfl
@[simp] theorem modGroup_ring (s : State) (k : Nat) (h : Group → Group) : (modGroup s k h).ring = s.ring := rfl
@[simp] theorem modGroup_intake (s : State) (k : Nat) (h : Group → Group) : (modGroup s k h).intake = s.intake := rfl
@[simp] theorem modGroup_launches (s : State) (k : Nat) (h : Group → Group) : (modGroup s k h).launches = s.launches := rfl
@[simp] theorem modGroup_regionsOf (s : State) (k : Nat) (h : Group → Group) : (modGroup s k h).regionsOf = s.regionsOf := rfl
@[simp] theorem modGroup_regionCmds (s : State) (k : Nat) (h : Group → Group) : (modGroup s k h).regionCmds = s.regionCmds := rfl
@[simp] theorem modGroup_contexts (s : State) (k : Nat) (h : Group → Group) : (modGroup s k h).contexts = s.contexts := rfl
@[simp] theorem modGroup_ladders (s : State) (k : Nat) (h : Group → Group) : (modGroup s k h).ladders = s.ladders := rfl
@[simp] theorem modGroup_migQueue (s : State) (k : Nat) (h : Group → Group) : (modGroup s k h).migQueue = s.migQueue := rfl
@[simp] theorem modGroup_moves (s : State) (k : Nat) (h : Group → Group) : (modGroup s k h).moves = s.moves := rfl
@[simp] theorem modGroup_counters (s : State) (k : Nat) (h : Group → Group) : (modGroup s k h).counters = s.counters := rfl
@[simp] theorem modGroup_damaged (s : State) (k : Nat) (h : Group → Group) : (modGroup s k h).damaged = s.damaged := rfl
@[simp] theorem modGroup_pins (s : State) (k : Nat) (h : Group → Group) : (modGroup s k h).pins = s.pins := rfl
@[simp] theorem modGroup_cooling (s : State) (k : Nat) (h : Group → Group) : (modGroup s k h).cooling = s.cooling := rfl
@[simp] theorem modGroup_handovers (s : State) (k : Nat) (h : Group → Group) : (modGroup s k h).handovers = s.handovers := rfl
@[simp] theorem modGroup_xreg (s : State) (k : Nat) (h : Group → Group) : (modGroup s k h).xreg = s.xreg := rfl
@[simp] theorem modGroup_keyGen (s : State) (k : Nat) (h : Group → Group) : (modGroup s k h).keyGen = s.keyGen := rfl
@[simp] theorem modGroup_pubKeys (s : State) (k : Nat) (h : Group → Group) : (modGroup s k h).pubKeys = s.pubKeys := rfl
@[simp] theorem modGroup_keyLoad (s : State) (k : Nat) (h : Group → Group) : (modGroup s k h).keyLoad = s.keyLoad := rfl
@[simp] theorem modGroup_errLog (s : State) (k : Nat) (h : Group → Group) : (modGroup s k h).errLog = s.errLog := rfl
@[simp] theorem modGroup_errOvf (s : State) (k : Nat) (h : Group → Group) : (modGroup s k h).errOvf = s.errOvf := rfl
@[simp] theorem modGroup_ready (s : State) (k : Nat) (h : Group → Group) : (modGroup s k h).ready = s.ready := rfl
@[simp] theorem modGroup_failed (s : State) (k : Nat) (h : Group → Group) : (modGroup s k h).failed = s.failed := rfl
@[simp] theorem modGroup_power (s : State) (k : Nat) (h : Group → Group) : (modGroup s k h).power = s.power := rfl
@[simp] theorem modGroup_harts (s : State) (k : Nat) (h : Group → Group) : (modGroup s k h).harts = s.harts := rfl
@[simp] theorem modGroup_msis (s : State) (k : Nat) (h : Group → Group) : (modGroup s k h).msis = s.msis := rfl
@[simp] theorem modGroup_completions (s : State) (k : Nat) (h : Group → Group) : (modGroup s k h).completions = s.completions := rfl
@[simp] theorem modGroup_mgmt (s : State) (k : Nat) (h : Group → Group) : (modGroup s k h).mgmt = s.mgmt := rfl
@[simp] theorem modGroup_pagerequests (s : State) (k : Nat) (h : Group → Group) : (modGroup s k h).pagerequests = s.pagerequests := rfl
@[simp] theorem modGroup_clock (s : State) (k : Nat) (h : Group → Group) : (modGroup s k h).clock = s.clock := rfl
@[simp] theorem modGroup_hubStart (s : State) (k : Nat) (h : Group → Group) : (modGroup s k h).hubStart = s.hubStart := rfl
@[simp] theorem modGroup_dieReady (s : State) (k : Nat) (h : Group → Group) : (modGroup s k h).dieReady = s.dieReady := rfl
@[simp] theorem modGroup_avenue (s : State) (k : Nat) (h : Group → Group) : (modGroup s k h).avenue = s.avenue := rfl
@[simp] theorem modGroup_refresh (s : State) (k : Nat) (h : Group → Group) : (modGroup s k h).refresh = s.refresh := rfl
@[simp] theorem modGroup_refills (s : State) (k : Nat) (h : Group → Group) : (modGroup s k h).refills = s.refills := rfl
@[simp] theorem modGroup_issue (s : State) (k : Nat) (h : Group → Group) : (modGroup s k h).issue = s.issue := rfl
@[simp] theorem modGroup_hartIssue (s : State) (k : Nat) (h : Group → Group) : (modGroup s k h).hartIssue = s.hartIssue := rfl
@[simp] theorem modGroup_agenda (s : State) (k : Nat) (h : Group → Group) : (modGroup s k h).agenda = s.agenda := rfl
@[simp] theorem modGroup_backs (s : State) (k : Nat) (h : Group → Group) : (modGroup s k h).backs = s.backs := rfl
@[simp] theorem modGroup_fresh (s : State) (k : Nat) (h : Group → Group) : (modGroup s k h).fresh = s.fresh := rfl
@[simp] theorem modGroup_nextId (s : State) (k : Nat) (h : Group → Group) : (modGroup s k h).nextId = s.nextId := rfl

@[simp] theorem setQuarter_mem (s : State) (q : Nat) (v : Quarter) : (setQuarter s q v).mem = s.mem := rfl
@[simp] theorem setQuarter_memTag (s : State) (q : Nat) (v : Quarter) : (setQuarter s q v).memTag = s.memTag := rfl
@[simp] theorem setQuarter_stale (s : State) (q : Nat) (v : Quarter) : (setQuarter s q v).stale = s.stale := rfl
@[simp] theorem setQuarter_lines (s : State) (q : Nat) (v : Quarter) : (setQuarter s q v).lines = s.lines := rfl
@[simp] theorem setQuarter_hostMem (s : State) (q : Nat) (v : Quarter) : (setQuarter s q v).hostMem = s.hostMem := rfl
@[simp] theorem setQuarter_weights (s : State) (q : Nat) (v : Quarter) : (setQuarter s q v).weights = s.weights := rfl
@[simp] theorem setQuarter_granuleTenant (s : State) (q : Nat) (v : Quarter) : (setQuarter s q v).granuleTenant = s.granuleTenant := rfl
@[simp] theorem setQuarter_spad (s : State) (q : Nat) (v : Quarter) : (setQuarter s q v).spad = s.spad := rfl
@[simp] theorem setQuarter_rowTenant (s : State) (q : Nat) (v : Quarter) : (setQuarter s q v).rowTenant = s.rowTenant := rfl
@[simp] theorem setQuarter_past (s : State) (q : Nat) (v : Quarter) : (setQuarter s q v).past = s.past := rfl
@[simp] theorem setQuarter_events (s : State) (q : Nat) (v : Quarter) : (setQuarter s q v).events = s.events := rfl
@[simp] theorem setQuarter_groups (s : State) (q : Nat) (v : Quarter) : (setQuarter s q v).groups = s.groups := rfl
@[simp] theorem setQuarter_rowHolds (s : State) (q : Nat) (v : Quarter) : (setQuarter s q v).rowHolds = s.rowHolds := rfl
@[simp] theorem setQuarter_accesses (s : State) (q : Nat) (v : Quarter) : (setQuarter s q v).accesses = s.accesses := rfl
@[simp] theorem setQuarter_spills (s : State) (q : Nat) (v : Quarter) : (setQuarter s q v).spills = s.spills := rfl
@[simp] theorem setQuarter_replay (s : State) (q : Nat) (v : Quarter) : (setQuarter s q v).replay = s.replay := rfl
@[simp] theorem setQuarter_ranges (s : State) (q : Nat) (v : Quarter) : (setQuarter s q v).ranges = s.ranges := rfl
@[simp] theorem setQuarter_copies (s : State) (q : Nat) (v : Quarter) : (setQuarter s q v).copies = s.copies := rfl
@[simp] theorem setQuarter_tickets (s : State) (q : Nat) (v : Quarter) : (setQuarter s q v).tickets = s.tickets := rfl
@[simp] theorem setQuarter_tableLoads (s : State) (q : Nat) (v : Quarter) : (setQuarter s q v).tableLoads = s.tableLoads := rfl
@[simp] theorem setQuarter_relocations (s : State) (q : Nat) (v : Quarter) : (setQuarter s q v).relocations = s.relocations := rfl
@[simp] theorem setQuarter_kiosks (s : State) (q : Nat) (v : Quarter) : (setQuarter s q v).kiosks = s.kiosks := rfl
@[simp] theorem setQuarter_tiles (s : State) (q : Nat) (v : Quarter) : (setQuarter s q v).tiles = s.tiles := rfl
@[simp] theorem setQuarter_budgets (s : State) (q : Nat) (v : Quarter) : (setQuarter s q v).budgets = s.budgets := rfl
@[simp] theorem setQuarter_opTab (s : State) (q : Nat) (v : Quarter) : (setQuarter s q v).opTab = s.opTab := rfl
@[simp] theorem setQuarter_street (s : State) (q : Nat) (v : Quarter) : (setQuarter s q v).street = s.street := rfl
@[simp] theorem setQuarter_tlb (s : State) (q : Nat) (v : Quarter) : (setQuarter s q v).tlb = s.tlb := rfl
@[simp] theorem setQuarter_ats (s : State) (q : Nat) (v : Quarter) : (setQuarter s q v).ats = s.ats := rfl
@[simp] theorem setQuarter_atsCompletions (s : State) (q : Nat) (v : Quarter) : (setQuarter s q v).atsCompletions = s.atsCompletions := rfl
@[simp] theorem setQuarter_tlbInv (s : State) (q : Nat) (v : Quarter) : (setQuarter s q v).tlbInv = s.tlbInv := rfl
@[simp] theorem setQuarter_sdInv (s : State) (q : Nat) (v : Quarter) : (setQuarter s q v).sdInv = s.sdInv := rfl
@[simp] theorem setQuarter_queues (s : State) (q : Nat) (v : Quarter) : (setQuarter s q v).queues = s.queues := rfl
@[simp] theorem setQuarter_ring (s : State) (q : Nat) (v : Quarter) : (setQuarter s q v).ring = s.ring := rfl
@[simp] theorem setQuarter_intake (s : State) (q : Nat) (v : Quarter) : (setQuarter s q v).intake = s.intake := rfl
@[simp] theorem setQuarter_launches (s : State) (q : Nat) (v : Quarter) : (setQuarter s q v).launches = s.launches := rfl
@[simp] theorem setQuarter_regionsOf (s : State) (q : Nat) (v : Quarter) : (setQuarter s q v).regionsOf = s.regionsOf := rfl
@[simp] theorem setQuarter_regionCmds (s : State) (q : Nat) (v : Quarter) : (setQuarter s q v).regionCmds = s.regionCmds := rfl
@[simp] theorem setQuarter_contexts (s : State) (q : Nat) (v : Quarter) : (setQuarter s q v).contexts = s.contexts := rfl
@[simp] theorem setQuarter_ladders (s : State) (q : Nat) (v : Quarter) : (setQuarter s q v).ladders = s.ladders := rfl
@[simp] theorem setQuarter_migQueue (s : State) (q : Nat) (v : Quarter) : (setQuarter s q v).migQueue = s.migQueue := rfl
@[simp] theorem setQuarter_moves (s : State) (q : Nat) (v : Quarter) : (setQuarter s q v).moves = s.moves := rfl
@[simp] theorem setQuarter_counters (s : State) (q : Nat) (v : Quarter) : (setQuarter s q v).counters = s.counters := rfl
@[simp] theorem setQuarter_damaged (s : State) (q : Nat) (v : Quarter) : (setQuarter s q v).damaged = s.damaged := rfl
@[simp] theorem setQuarter_pins (s : State) (q : Nat) (v : Quarter) : (setQuarter s q v).pins = s.pins := rfl
@[simp] theorem setQuarter_cooling (s : State) (q : Nat) (v : Quarter) : (setQuarter s q v).cooling = s.cooling := rfl
@[simp] theorem setQuarter_handovers (s : State) (q : Nat) (v : Quarter) : (setQuarter s q v).handovers = s.handovers := rfl
@[simp] theorem setQuarter_xreg (s : State) (q : Nat) (v : Quarter) : (setQuarter s q v).xreg = s.xreg := rfl
@[simp] theorem setQuarter_keyGen (s : State) (q : Nat) (v : Quarter) : (setQuarter s q v).keyGen = s.keyGen := rfl
@[simp] theorem setQuarter_pubKeys (s : State) (q : Nat) (v : Quarter) : (setQuarter s q v).pubKeys = s.pubKeys := rfl
@[simp] theorem setQuarter_keyLoad (s : State) (q : Nat) (v : Quarter) : (setQuarter s q v).keyLoad = s.keyLoad := rfl
@[simp] theorem setQuarter_errLog (s : State) (q : Nat) (v : Quarter) : (setQuarter s q v).errLog = s.errLog := rfl
@[simp] theorem setQuarter_errOvf (s : State) (q : Nat) (v : Quarter) : (setQuarter s q v).errOvf = s.errOvf := rfl
@[simp] theorem setQuarter_ready (s : State) (q : Nat) (v : Quarter) : (setQuarter s q v).ready = s.ready := rfl
@[simp] theorem setQuarter_failed (s : State) (q : Nat) (v : Quarter) : (setQuarter s q v).failed = s.failed := rfl
@[simp] theorem setQuarter_power (s : State) (q : Nat) (v : Quarter) : (setQuarter s q v).power = s.power := rfl
@[simp] theorem setQuarter_harts (s : State) (q : Nat) (v : Quarter) : (setQuarter s q v).harts = s.harts := rfl
@[simp] theorem setQuarter_msis (s : State) (q : Nat) (v : Quarter) : (setQuarter s q v).msis = s.msis := rfl
@[simp] theorem setQuarter_completions (s : State) (q : Nat) (v : Quarter) : (setQuarter s q v).completions = s.completions := rfl
@[simp] theorem setQuarter_mgmt (s : State) (q : Nat) (v : Quarter) : (setQuarter s q v).mgmt = s.mgmt := rfl
@[simp] theorem setQuarter_pagerequests (s : State) (q : Nat) (v : Quarter) : (setQuarter s q v).pagerequests = s.pagerequests := rfl
@[simp] theorem setQuarter_clock (s : State) (q : Nat) (v : Quarter) : (setQuarter s q v).clock = s.clock := rfl
@[simp] theorem setQuarter_hubStart (s : State) (q : Nat) (v : Quarter) : (setQuarter s q v).hubStart = s.hubStart := rfl
@[simp] theorem setQuarter_dieReady (s : State) (q : Nat) (v : Quarter) : (setQuarter s q v).dieReady = s.dieReady := rfl
@[simp] theorem setQuarter_avenue (s : State) (q : Nat) (v : Quarter) : (setQuarter s q v).avenue = s.avenue := rfl
@[simp] theorem setQuarter_refresh (s : State) (q : Nat) (v : Quarter) : (setQuarter s q v).refresh = s.refresh := rfl
@[simp] theorem setQuarter_refills (s : State) (q : Nat) (v : Quarter) : (setQuarter s q v).refills = s.refills := rfl
@[simp] theorem setQuarter_issue (s : State) (q : Nat) (v : Quarter) : (setQuarter s q v).issue = s.issue := rfl
@[simp] theorem setQuarter_hartIssue (s : State) (q : Nat) (v : Quarter) : (setQuarter s q v).hartIssue = s.hartIssue := rfl
@[simp] theorem setQuarter_agenda (s : State) (q : Nat) (v : Quarter) : (setQuarter s q v).agenda = s.agenda := rfl
@[simp] theorem setQuarter_backs (s : State) (q : Nat) (v : Quarter) : (setQuarter s q v).backs = s.backs := rfl
@[simp] theorem setQuarter_fresh (s : State) (q : Nat) (v : Quarter) : (setQuarter s q v).fresh = s.fresh := rfl
@[simp] theorem setQuarter_nextId (s : State) (q : Nat) (v : Quarter) : (setQuarter s q v).nextId = s.nextId := rfl

@[simp] theorem setKiosk_mem (s : State) (c : Nat) (k : Kiosk) : (setKiosk s c k).mem = s.mem := rfl
@[simp] theorem setKiosk_memTag (s : State) (c : Nat) (k : Kiosk) : (setKiosk s c k).memTag = s.memTag := rfl
@[simp] theorem setKiosk_stale (s : State) (c : Nat) (k : Kiosk) : (setKiosk s c k).stale = s.stale := rfl
@[simp] theorem setKiosk_lines (s : State) (c : Nat) (k : Kiosk) : (setKiosk s c k).lines = s.lines := rfl
@[simp] theorem setKiosk_hostMem (s : State) (c : Nat) (k : Kiosk) : (setKiosk s c k).hostMem = s.hostMem := rfl
@[simp] theorem setKiosk_weights (s : State) (c : Nat) (k : Kiosk) : (setKiosk s c k).weights = s.weights := rfl
@[simp] theorem setKiosk_granuleTenant (s : State) (c : Nat) (k : Kiosk) : (setKiosk s c k).granuleTenant = s.granuleTenant := rfl
@[simp] theorem setKiosk_spad (s : State) (c : Nat) (k : Kiosk) : (setKiosk s c k).spad = s.spad := rfl
@[simp] theorem setKiosk_rowTenant (s : State) (c : Nat) (k : Kiosk) : (setKiosk s c k).rowTenant = s.rowTenant := rfl
@[simp] theorem setKiosk_past (s : State) (c : Nat) (k : Kiosk) : (setKiosk s c k).past = s.past := rfl
@[simp] theorem setKiosk_events (s : State) (c : Nat) (k : Kiosk) : (setKiosk s c k).events = s.events := rfl
@[simp] theorem setKiosk_groups (s : State) (c : Nat) (k : Kiosk) : (setKiosk s c k).groups = s.groups := rfl
@[simp] theorem setKiosk_quarters (s : State) (c : Nat) (k : Kiosk) : (setKiosk s c k).quarters = s.quarters := rfl
@[simp] theorem setKiosk_rowHolds (s : State) (c : Nat) (k : Kiosk) : (setKiosk s c k).rowHolds = s.rowHolds := rfl
@[simp] theorem setKiosk_accesses (s : State) (c : Nat) (k : Kiosk) : (setKiosk s c k).accesses = s.accesses := rfl
@[simp] theorem setKiosk_spills (s : State) (c : Nat) (k : Kiosk) : (setKiosk s c k).spills = s.spills := rfl
@[simp] theorem setKiosk_replay (s : State) (c : Nat) (k : Kiosk) : (setKiosk s c k).replay = s.replay := rfl
@[simp] theorem setKiosk_ranges (s : State) (c : Nat) (k : Kiosk) : (setKiosk s c k).ranges = s.ranges := rfl
@[simp] theorem setKiosk_copies (s : State) (c : Nat) (k : Kiosk) : (setKiosk s c k).copies = s.copies := rfl
@[simp] theorem setKiosk_tickets (s : State) (c : Nat) (k : Kiosk) : (setKiosk s c k).tickets = s.tickets := rfl
@[simp] theorem setKiosk_tableLoads (s : State) (c : Nat) (k : Kiosk) : (setKiosk s c k).tableLoads = s.tableLoads := rfl
@[simp] theorem setKiosk_relocations (s : State) (c : Nat) (k : Kiosk) : (setKiosk s c k).relocations = s.relocations := rfl
@[simp] theorem setKiosk_tiles (s : State) (c : Nat) (k : Kiosk) : (setKiosk s c k).tiles = s.tiles := rfl
@[simp] theorem setKiosk_budgets (s : State) (c : Nat) (k : Kiosk) : (setKiosk s c k).budgets = s.budgets := rfl
@[simp] theorem setKiosk_opTab (s : State) (c : Nat) (k : Kiosk) : (setKiosk s c k).opTab = s.opTab := rfl
@[simp] theorem setKiosk_street (s : State) (c : Nat) (k : Kiosk) : (setKiosk s c k).street = s.street := rfl
@[simp] theorem setKiosk_tlb (s : State) (c : Nat) (k : Kiosk) : (setKiosk s c k).tlb = s.tlb := rfl
@[simp] theorem setKiosk_ats (s : State) (c : Nat) (k : Kiosk) : (setKiosk s c k).ats = s.ats := rfl
@[simp] theorem setKiosk_atsCompletions (s : State) (c : Nat) (k : Kiosk) : (setKiosk s c k).atsCompletions = s.atsCompletions := rfl
@[simp] theorem setKiosk_tlbInv (s : State) (c : Nat) (k : Kiosk) : (setKiosk s c k).tlbInv = s.tlbInv := rfl
@[simp] theorem setKiosk_sdInv (s : State) (c : Nat) (k : Kiosk) : (setKiosk s c k).sdInv = s.sdInv := rfl
@[simp] theorem setKiosk_queues (s : State) (c : Nat) (k : Kiosk) : (setKiosk s c k).queues = s.queues := rfl
@[simp] theorem setKiosk_ring (s : State) (c : Nat) (k : Kiosk) : (setKiosk s c k).ring = s.ring := rfl
@[simp] theorem setKiosk_intake (s : State) (c : Nat) (k : Kiosk) : (setKiosk s c k).intake = s.intake := rfl
@[simp] theorem setKiosk_launches (s : State) (c : Nat) (k : Kiosk) : (setKiosk s c k).launches = s.launches := rfl
@[simp] theorem setKiosk_regionsOf (s : State) (c : Nat) (k : Kiosk) : (setKiosk s c k).regionsOf = s.regionsOf := rfl
@[simp] theorem setKiosk_regionCmds (s : State) (c : Nat) (k : Kiosk) : (setKiosk s c k).regionCmds = s.regionCmds := rfl
@[simp] theorem setKiosk_contexts (s : State) (c : Nat) (k : Kiosk) : (setKiosk s c k).contexts = s.contexts := rfl
@[simp] theorem setKiosk_ladders (s : State) (c : Nat) (k : Kiosk) : (setKiosk s c k).ladders = s.ladders := rfl
@[simp] theorem setKiosk_migQueue (s : State) (c : Nat) (k : Kiosk) : (setKiosk s c k).migQueue = s.migQueue := rfl
@[simp] theorem setKiosk_moves (s : State) (c : Nat) (k : Kiosk) : (setKiosk s c k).moves = s.moves := rfl
@[simp] theorem setKiosk_counters (s : State) (c : Nat) (k : Kiosk) : (setKiosk s c k).counters = s.counters := rfl
@[simp] theorem setKiosk_damaged (s : State) (c : Nat) (k : Kiosk) : (setKiosk s c k).damaged = s.damaged := rfl
@[simp] theorem setKiosk_pins (s : State) (c : Nat) (k : Kiosk) : (setKiosk s c k).pins = s.pins := rfl
@[simp] theorem setKiosk_cooling (s : State) (c : Nat) (k : Kiosk) : (setKiosk s c k).cooling = s.cooling := rfl
@[simp] theorem setKiosk_handovers (s : State) (c : Nat) (k : Kiosk) : (setKiosk s c k).handovers = s.handovers := rfl
@[simp] theorem setKiosk_xreg (s : State) (c : Nat) (k : Kiosk) : (setKiosk s c k).xreg = s.xreg := rfl
@[simp] theorem setKiosk_keyGen (s : State) (c : Nat) (k : Kiosk) : (setKiosk s c k).keyGen = s.keyGen := rfl
@[simp] theorem setKiosk_pubKeys (s : State) (c : Nat) (k : Kiosk) : (setKiosk s c k).pubKeys = s.pubKeys := rfl
@[simp] theorem setKiosk_keyLoad (s : State) (c : Nat) (k : Kiosk) : (setKiosk s c k).keyLoad = s.keyLoad := rfl
@[simp] theorem setKiosk_errLog (s : State) (c : Nat) (k : Kiosk) : (setKiosk s c k).errLog = s.errLog := rfl
@[simp] theorem setKiosk_errOvf (s : State) (c : Nat) (k : Kiosk) : (setKiosk s c k).errOvf = s.errOvf := rfl
@[simp] theorem setKiosk_ready (s : State) (c : Nat) (k : Kiosk) : (setKiosk s c k).ready = s.ready := rfl
@[simp] theorem setKiosk_failed (s : State) (c : Nat) (k : Kiosk) : (setKiosk s c k).failed = s.failed := rfl
@[simp] theorem setKiosk_power (s : State) (c : Nat) (k : Kiosk) : (setKiosk s c k).power = s.power := rfl
@[simp] theorem setKiosk_harts (s : State) (c : Nat) (k : Kiosk) : (setKiosk s c k).harts = s.harts := rfl
@[simp] theorem setKiosk_msis (s : State) (c : Nat) (k : Kiosk) : (setKiosk s c k).msis = s.msis := rfl
@[simp] theorem setKiosk_completions (s : State) (c : Nat) (k : Kiosk) : (setKiosk s c k).completions = s.completions := rfl
@[simp] theorem setKiosk_mgmt (s : State) (c : Nat) (k : Kiosk) : (setKiosk s c k).mgmt = s.mgmt := rfl
@[simp] theorem setKiosk_pagerequests (s : State) (c : Nat) (k : Kiosk) : (setKiosk s c k).pagerequests = s.pagerequests := rfl
@[simp] theorem setKiosk_clock (s : State) (c : Nat) (k : Kiosk) : (setKiosk s c k).clock = s.clock := rfl
@[simp] theorem setKiosk_hubStart (s : State) (c : Nat) (k : Kiosk) : (setKiosk s c k).hubStart = s.hubStart := rfl
@[simp] theorem setKiosk_dieReady (s : State) (c : Nat) (k : Kiosk) : (setKiosk s c k).dieReady = s.dieReady := rfl
@[simp] theorem setKiosk_avenue (s : State) (c : Nat) (k : Kiosk) : (setKiosk s c k).avenue = s.avenue := rfl
@[simp] theorem setKiosk_refresh (s : State) (c : Nat) (k : Kiosk) : (setKiosk s c k).refresh = s.refresh := rfl
@[simp] theorem setKiosk_refills (s : State) (c : Nat) (k : Kiosk) : (setKiosk s c k).refills = s.refills := rfl
@[simp] theorem setKiosk_issue (s : State) (c : Nat) (k : Kiosk) : (setKiosk s c k).issue = s.issue := rfl
@[simp] theorem setKiosk_hartIssue (s : State) (c : Nat) (k : Kiosk) : (setKiosk s c k).hartIssue = s.hartIssue := rfl
@[simp] theorem setKiosk_agenda (s : State) (c : Nat) (k : Kiosk) : (setKiosk s c k).agenda = s.agenda := rfl
@[simp] theorem setKiosk_backs (s : State) (c : Nat) (k : Kiosk) : (setKiosk s c k).backs = s.backs := rfl
@[simp] theorem setKiosk_fresh (s : State) (c : Nat) (k : Kiosk) : (setKiosk s c k).fresh = s.fresh := rfl
@[simp] theorem setKiosk_nextId (s : State) (c : Nat) (k : Kiosk) : (setKiosk s c k).nextId = s.nextId := rfl

@[simp] theorem setHart_mem (s : State) (n : Nat) (h : Hart) : (setHart s n h).mem = s.mem := rfl
@[simp] theorem setHart_memTag (s : State) (n : Nat) (h : Hart) : (setHart s n h).memTag = s.memTag := rfl
@[simp] theorem setHart_stale (s : State) (n : Nat) (h : Hart) : (setHart s n h).stale = s.stale := rfl
@[simp] theorem setHart_lines (s : State) (n : Nat) (h : Hart) : (setHart s n h).lines = s.lines := rfl
@[simp] theorem setHart_hostMem (s : State) (n : Nat) (h : Hart) : (setHart s n h).hostMem = s.hostMem := rfl
@[simp] theorem setHart_weights (s : State) (n : Nat) (h : Hart) : (setHart s n h).weights = s.weights := rfl
@[simp] theorem setHart_granuleTenant (s : State) (n : Nat) (h : Hart) : (setHart s n h).granuleTenant = s.granuleTenant := rfl
@[simp] theorem setHart_spad (s : State) (n : Nat) (h : Hart) : (setHart s n h).spad = s.spad := rfl
@[simp] theorem setHart_rowTenant (s : State) (n : Nat) (h : Hart) : (setHart s n h).rowTenant = s.rowTenant := rfl
@[simp] theorem setHart_past (s : State) (n : Nat) (h : Hart) : (setHart s n h).past = s.past := rfl
@[simp] theorem setHart_events (s : State) (n : Nat) (h : Hart) : (setHart s n h).events = s.events := rfl
@[simp] theorem setHart_groups (s : State) (n : Nat) (h : Hart) : (setHart s n h).groups = s.groups := rfl
@[simp] theorem setHart_quarters (s : State) (n : Nat) (h : Hart) : (setHart s n h).quarters = s.quarters := rfl
@[simp] theorem setHart_rowHolds (s : State) (n : Nat) (h : Hart) : (setHart s n h).rowHolds = s.rowHolds := rfl
@[simp] theorem setHart_accesses (s : State) (n : Nat) (h : Hart) : (setHart s n h).accesses = s.accesses := rfl
@[simp] theorem setHart_spills (s : State) (n : Nat) (h : Hart) : (setHart s n h).spills = s.spills := rfl
@[simp] theorem setHart_replay (s : State) (n : Nat) (h : Hart) : (setHart s n h).replay = s.replay := rfl
@[simp] theorem setHart_ranges (s : State) (n : Nat) (h : Hart) : (setHart s n h).ranges = s.ranges := rfl
@[simp] theorem setHart_copies (s : State) (n : Nat) (h : Hart) : (setHart s n h).copies = s.copies := rfl
@[simp] theorem setHart_tickets (s : State) (n : Nat) (h : Hart) : (setHart s n h).tickets = s.tickets := rfl
@[simp] theorem setHart_tableLoads (s : State) (n : Nat) (h : Hart) : (setHart s n h).tableLoads = s.tableLoads := rfl
@[simp] theorem setHart_relocations (s : State) (n : Nat) (h : Hart) : (setHart s n h).relocations = s.relocations := rfl
@[simp] theorem setHart_kiosks (s : State) (n : Nat) (h : Hart) : (setHart s n h).kiosks = s.kiosks := rfl
@[simp] theorem setHart_tiles (s : State) (n : Nat) (h : Hart) : (setHart s n h).tiles = s.tiles := rfl
@[simp] theorem setHart_budgets (s : State) (n : Nat) (h : Hart) : (setHart s n h).budgets = s.budgets := rfl
@[simp] theorem setHart_opTab (s : State) (n : Nat) (h : Hart) : (setHart s n h).opTab = s.opTab := rfl
@[simp] theorem setHart_street (s : State) (n : Nat) (h : Hart) : (setHart s n h).street = s.street := rfl
@[simp] theorem setHart_tlb (s : State) (n : Nat) (h : Hart) : (setHart s n h).tlb = s.tlb := rfl
@[simp] theorem setHart_ats (s : State) (n : Nat) (h : Hart) : (setHart s n h).ats = s.ats := rfl
@[simp] theorem setHart_atsCompletions (s : State) (n : Nat) (h : Hart) : (setHart s n h).atsCompletions = s.atsCompletions := rfl
@[simp] theorem setHart_tlbInv (s : State) (n : Nat) (h : Hart) : (setHart s n h).tlbInv = s.tlbInv := rfl
@[simp] theorem setHart_sdInv (s : State) (n : Nat) (h : Hart) : (setHart s n h).sdInv = s.sdInv := rfl
@[simp] theorem setHart_queues (s : State) (n : Nat) (h : Hart) : (setHart s n h).queues = s.queues := rfl
@[simp] theorem setHart_ring (s : State) (n : Nat) (h : Hart) : (setHart s n h).ring = s.ring := rfl
@[simp] theorem setHart_intake (s : State) (n : Nat) (h : Hart) : (setHart s n h).intake = s.intake := rfl
@[simp] theorem setHart_launches (s : State) (n : Nat) (h : Hart) : (setHart s n h).launches = s.launches := rfl
@[simp] theorem setHart_regionsOf (s : State) (n : Nat) (h : Hart) : (setHart s n h).regionsOf = s.regionsOf := rfl
@[simp] theorem setHart_regionCmds (s : State) (n : Nat) (h : Hart) : (setHart s n h).regionCmds = s.regionCmds := rfl
@[simp] theorem setHart_contexts (s : State) (n : Nat) (h : Hart) : (setHart s n h).contexts = s.contexts := rfl
@[simp] theorem setHart_ladders (s : State) (n : Nat) (h : Hart) : (setHart s n h).ladders = s.ladders := rfl
@[simp] theorem setHart_migQueue (s : State) (n : Nat) (h : Hart) : (setHart s n h).migQueue = s.migQueue := rfl
@[simp] theorem setHart_moves (s : State) (n : Nat) (h : Hart) : (setHart s n h).moves = s.moves := rfl
@[simp] theorem setHart_counters (s : State) (n : Nat) (h : Hart) : (setHart s n h).counters = s.counters := rfl
@[simp] theorem setHart_damaged (s : State) (n : Nat) (h : Hart) : (setHart s n h).damaged = s.damaged := rfl
@[simp] theorem setHart_pins (s : State) (n : Nat) (h : Hart) : (setHart s n h).pins = s.pins := rfl
@[simp] theorem setHart_cooling (s : State) (n : Nat) (h : Hart) : (setHart s n h).cooling = s.cooling := rfl
@[simp] theorem setHart_handovers (s : State) (n : Nat) (h : Hart) : (setHart s n h).handovers = s.handovers := rfl
@[simp] theorem setHart_xreg (s : State) (n : Nat) (h : Hart) : (setHart s n h).xreg = s.xreg := rfl
@[simp] theorem setHart_keyGen (s : State) (n : Nat) (h : Hart) : (setHart s n h).keyGen = s.keyGen := rfl
@[simp] theorem setHart_pubKeys (s : State) (n : Nat) (h : Hart) : (setHart s n h).pubKeys = s.pubKeys := rfl
@[simp] theorem setHart_keyLoad (s : State) (n : Nat) (h : Hart) : (setHart s n h).keyLoad = s.keyLoad := rfl
@[simp] theorem setHart_errLog (s : State) (n : Nat) (h : Hart) : (setHart s n h).errLog = s.errLog := rfl
@[simp] theorem setHart_errOvf (s : State) (n : Nat) (h : Hart) : (setHart s n h).errOvf = s.errOvf := rfl
@[simp] theorem setHart_ready (s : State) (n : Nat) (h : Hart) : (setHart s n h).ready = s.ready := rfl
@[simp] theorem setHart_failed (s : State) (n : Nat) (h : Hart) : (setHart s n h).failed = s.failed := rfl
@[simp] theorem setHart_power (s : State) (n : Nat) (h : Hart) : (setHart s n h).power = s.power := rfl
@[simp] theorem setHart_msis (s : State) (n : Nat) (h : Hart) : (setHart s n h).msis = s.msis := rfl
@[simp] theorem setHart_completions (s : State) (n : Nat) (h : Hart) : (setHart s n h).completions = s.completions := rfl
@[simp] theorem setHart_mgmt (s : State) (n : Nat) (h : Hart) : (setHart s n h).mgmt = s.mgmt := rfl
@[simp] theorem setHart_pagerequests (s : State) (n : Nat) (h : Hart) : (setHart s n h).pagerequests = s.pagerequests := rfl
@[simp] theorem setHart_clock (s : State) (n : Nat) (h : Hart) : (setHart s n h).clock = s.clock := rfl
@[simp] theorem setHart_hubStart (s : State) (n : Nat) (h : Hart) : (setHart s n h).hubStart = s.hubStart := rfl
@[simp] theorem setHart_dieReady (s : State) (n : Nat) (h : Hart) : (setHart s n h).dieReady = s.dieReady := rfl
@[simp] theorem setHart_avenue (s : State) (n : Nat) (h : Hart) : (setHart s n h).avenue = s.avenue := rfl
@[simp] theorem setHart_refresh (s : State) (n : Nat) (h : Hart) : (setHart s n h).refresh = s.refresh := rfl
@[simp] theorem setHart_refills (s : State) (n : Nat) (h : Hart) : (setHart s n h).refills = s.refills := rfl
@[simp] theorem setHart_issue (s : State) (n : Nat) (h : Hart) : (setHart s n h).issue = s.issue := rfl
@[simp] theorem setHart_hartIssue (s : State) (n : Nat) (h : Hart) : (setHart s n h).hartIssue = s.hartIssue := rfl
@[simp] theorem setHart_agenda (s : State) (n : Nat) (h : Hart) : (setHart s n h).agenda = s.agenda := rfl
@[simp] theorem setHart_backs (s : State) (n : Nat) (h : Hart) : (setHart s n h).backs = s.backs := rfl
@[simp] theorem setHart_fresh (s : State) (n : Nat) (h : Hart) : (setHart s n h).fresh = s.fresh := rfl
@[simp] theorem setHart_nextId (s : State) (n : Nat) (h : Hart) : (setHart s n h).nextId = s.nextId := rfl

@[simp] theorem addAccess_mem (s : State) (a : Access) : (addAccess s a).mem = s.mem := rfl
@[simp] theorem addAccess_memTag (s : State) (a : Access) : (addAccess s a).memTag = s.memTag := rfl
@[simp] theorem addAccess_stale (s : State) (a : Access) : (addAccess s a).stale = s.stale := rfl
@[simp] theorem addAccess_lines (s : State) (a : Access) : (addAccess s a).lines = s.lines := rfl
@[simp] theorem addAccess_hostMem (s : State) (a : Access) : (addAccess s a).hostMem = s.hostMem := rfl
@[simp] theorem addAccess_weights (s : State) (a : Access) : (addAccess s a).weights = s.weights := rfl
@[simp] theorem addAccess_granuleTenant (s : State) (a : Access) : (addAccess s a).granuleTenant = s.granuleTenant := rfl
@[simp] theorem addAccess_spad (s : State) (a : Access) : (addAccess s a).spad = s.spad := rfl
@[simp] theorem addAccess_rowTenant (s : State) (a : Access) : (addAccess s a).rowTenant = s.rowTenant := rfl
@[simp] theorem addAccess_past (s : State) (a : Access) : (addAccess s a).past = s.past := rfl
@[simp] theorem addAccess_events (s : State) (a : Access) : (addAccess s a).events = s.events := rfl
@[simp] theorem addAccess_groups (s : State) (a : Access) : (addAccess s a).groups = s.groups := rfl
@[simp] theorem addAccess_quarters (s : State) (a : Access) : (addAccess s a).quarters = s.quarters := rfl
@[simp] theorem addAccess_rowHolds (s : State) (a : Access) : (addAccess s a).rowHolds = s.rowHolds := rfl
@[simp] theorem addAccess_spills (s : State) (a : Access) : (addAccess s a).spills = s.spills := rfl
@[simp] theorem addAccess_replay (s : State) (a : Access) : (addAccess s a).replay = s.replay := rfl
@[simp] theorem addAccess_ranges (s : State) (a : Access) : (addAccess s a).ranges = s.ranges := rfl
@[simp] theorem addAccess_copies (s : State) (a : Access) : (addAccess s a).copies = s.copies := rfl
@[simp] theorem addAccess_tickets (s : State) (a : Access) : (addAccess s a).tickets = s.tickets := rfl
@[simp] theorem addAccess_tableLoads (s : State) (a : Access) : (addAccess s a).tableLoads = s.tableLoads := rfl
@[simp] theorem addAccess_relocations (s : State) (a : Access) : (addAccess s a).relocations = s.relocations := rfl
@[simp] theorem addAccess_kiosks (s : State) (a : Access) : (addAccess s a).kiosks = s.kiosks := rfl
@[simp] theorem addAccess_tiles (s : State) (a : Access) : (addAccess s a).tiles = s.tiles := rfl
@[simp] theorem addAccess_budgets (s : State) (a : Access) : (addAccess s a).budgets = s.budgets := rfl
@[simp] theorem addAccess_opTab (s : State) (a : Access) : (addAccess s a).opTab = s.opTab := rfl
@[simp] theorem addAccess_street (s : State) (a : Access) : (addAccess s a).street = s.street := rfl
@[simp] theorem addAccess_tlb (s : State) (a : Access) : (addAccess s a).tlb = s.tlb := rfl
@[simp] theorem addAccess_ats (s : State) (a : Access) : (addAccess s a).ats = s.ats := rfl
@[simp] theorem addAccess_atsCompletions (s : State) (a : Access) : (addAccess s a).atsCompletions = s.atsCompletions := rfl
@[simp] theorem addAccess_tlbInv (s : State) (a : Access) : (addAccess s a).tlbInv = s.tlbInv := rfl
@[simp] theorem addAccess_sdInv (s : State) (a : Access) : (addAccess s a).sdInv = s.sdInv := rfl
@[simp] theorem addAccess_queues (s : State) (a : Access) : (addAccess s a).queues = s.queues := rfl
@[simp] theorem addAccess_ring (s : State) (a : Access) : (addAccess s a).ring = s.ring := rfl
@[simp] theorem addAccess_intake (s : State) (a : Access) : (addAccess s a).intake = s.intake := rfl
@[simp] theorem addAccess_launches (s : State) (a : Access) : (addAccess s a).launches = s.launches := rfl
@[simp] theorem addAccess_regionsOf (s : State) (a : Access) : (addAccess s a).regionsOf = s.regionsOf := rfl
@[simp] theorem addAccess_regionCmds (s : State) (a : Access) : (addAccess s a).regionCmds = s.regionCmds := rfl
@[simp] theorem addAccess_contexts (s : State) (a : Access) : (addAccess s a).contexts = s.contexts := rfl
@[simp] theorem addAccess_ladders (s : State) (a : Access) : (addAccess s a).ladders = s.ladders := rfl
@[simp] theorem addAccess_migQueue (s : State) (a : Access) : (addAccess s a).migQueue = s.migQueue := rfl
@[simp] theorem addAccess_moves (s : State) (a : Access) : (addAccess s a).moves = s.moves := rfl
@[simp] theorem addAccess_counters (s : State) (a : Access) : (addAccess s a).counters = s.counters := rfl
@[simp] theorem addAccess_damaged (s : State) (a : Access) : (addAccess s a).damaged = s.damaged := rfl
@[simp] theorem addAccess_pins (s : State) (a : Access) : (addAccess s a).pins = s.pins := rfl
@[simp] theorem addAccess_cooling (s : State) (a : Access) : (addAccess s a).cooling = s.cooling := rfl
@[simp] theorem addAccess_handovers (s : State) (a : Access) : (addAccess s a).handovers = s.handovers := rfl
@[simp] theorem addAccess_xreg (s : State) (a : Access) : (addAccess s a).xreg = s.xreg := rfl
@[simp] theorem addAccess_keyGen (s : State) (a : Access) : (addAccess s a).keyGen = s.keyGen := rfl
@[simp] theorem addAccess_pubKeys (s : State) (a : Access) : (addAccess s a).pubKeys = s.pubKeys := rfl
@[simp] theorem addAccess_keyLoad (s : State) (a : Access) : (addAccess s a).keyLoad = s.keyLoad := rfl
@[simp] theorem addAccess_errLog (s : State) (a : Access) : (addAccess s a).errLog = s.errLog := rfl
@[simp] theorem addAccess_errOvf (s : State) (a : Access) : (addAccess s a).errOvf = s.errOvf := rfl
@[simp] theorem addAccess_ready (s : State) (a : Access) : (addAccess s a).ready = s.ready := rfl
@[simp] theorem addAccess_failed (s : State) (a : Access) : (addAccess s a).failed = s.failed := rfl
@[simp] theorem addAccess_power (s : State) (a : Access) : (addAccess s a).power = s.power := rfl
@[simp] theorem addAccess_harts (s : State) (a : Access) : (addAccess s a).harts = s.harts := rfl
@[simp] theorem addAccess_msis (s : State) (a : Access) : (addAccess s a).msis = s.msis := rfl
@[simp] theorem addAccess_completions (s : State) (a : Access) : (addAccess s a).completions = s.completions := rfl
@[simp] theorem addAccess_mgmt (s : State) (a : Access) : (addAccess s a).mgmt = s.mgmt := rfl
@[simp] theorem addAccess_pagerequests (s : State) (a : Access) : (addAccess s a).pagerequests = s.pagerequests := rfl
@[simp] theorem addAccess_clock (s : State) (a : Access) : (addAccess s a).clock = s.clock := rfl
@[simp] theorem addAccess_hubStart (s : State) (a : Access) : (addAccess s a).hubStart = s.hubStart := rfl
@[simp] theorem addAccess_dieReady (s : State) (a : Access) : (addAccess s a).dieReady = s.dieReady := rfl
@[simp] theorem addAccess_avenue (s : State) (a : Access) : (addAccess s a).avenue = s.avenue := rfl
@[simp] theorem addAccess_refresh (s : State) (a : Access) : (addAccess s a).refresh = s.refresh := rfl
@[simp] theorem addAccess_refills (s : State) (a : Access) : (addAccess s a).refills = s.refills := rfl
@[simp] theorem addAccess_issue (s : State) (a : Access) : (addAccess s a).issue = s.issue := rfl
@[simp] theorem addAccess_hartIssue (s : State) (a : Access) : (addAccess s a).hartIssue = s.hartIssue := rfl
@[simp] theorem addAccess_agenda (s : State) (a : Access) : (addAccess s a).agenda = s.agenda := rfl
@[simp] theorem addAccess_backs (s : State) (a : Access) : (addAccess s a).backs = s.backs := rfl
@[simp] theorem addAccess_fresh (s : State) (a : Access) : (addAccess s a).fresh = s.fresh := rfl
@[simp] theorem addAccess_nextId (s : State) (a : Access) : (addAccess s a).nextId = s.nextId := rfl

@[simp] theorem dropAccess_mem (s : State) (k : Nat) : (dropAccess s k).mem = s.mem := rfl
@[simp] theorem dropAccess_memTag (s : State) (k : Nat) : (dropAccess s k).memTag = s.memTag := rfl
@[simp] theorem dropAccess_stale (s : State) (k : Nat) : (dropAccess s k).stale = s.stale := rfl
@[simp] theorem dropAccess_lines (s : State) (k : Nat) : (dropAccess s k).lines = s.lines := rfl
@[simp] theorem dropAccess_hostMem (s : State) (k : Nat) : (dropAccess s k).hostMem = s.hostMem := rfl
@[simp] theorem dropAccess_weights (s : State) (k : Nat) : (dropAccess s k).weights = s.weights := rfl
@[simp] theorem dropAccess_granuleTenant (s : State) (k : Nat) : (dropAccess s k).granuleTenant = s.granuleTenant := rfl
@[simp] theorem dropAccess_spad (s : State) (k : Nat) : (dropAccess s k).spad = s.spad := rfl
@[simp] theorem dropAccess_rowTenant (s : State) (k : Nat) : (dropAccess s k).rowTenant = s.rowTenant := rfl
@[simp] theorem dropAccess_past (s : State) (k : Nat) : (dropAccess s k).past = s.past := rfl
@[simp] theorem dropAccess_events (s : State) (k : Nat) : (dropAccess s k).events = s.events := rfl
@[simp] theorem dropAccess_groups (s : State) (k : Nat) : (dropAccess s k).groups = s.groups := rfl
@[simp] theorem dropAccess_quarters (s : State) (k : Nat) : (dropAccess s k).quarters = s.quarters := rfl
@[simp] theorem dropAccess_rowHolds (s : State) (k : Nat) : (dropAccess s k).rowHolds = s.rowHolds := rfl
@[simp] theorem dropAccess_spills (s : State) (k : Nat) : (dropAccess s k).spills = s.spills := rfl
@[simp] theorem dropAccess_replay (s : State) (k : Nat) : (dropAccess s k).replay = s.replay := rfl
@[simp] theorem dropAccess_ranges (s : State) (k : Nat) : (dropAccess s k).ranges = s.ranges := rfl
@[simp] theorem dropAccess_copies (s : State) (k : Nat) : (dropAccess s k).copies = s.copies := rfl
@[simp] theorem dropAccess_tickets (s : State) (k : Nat) : (dropAccess s k).tickets = s.tickets := rfl
@[simp] theorem dropAccess_tableLoads (s : State) (k : Nat) : (dropAccess s k).tableLoads = s.tableLoads := rfl
@[simp] theorem dropAccess_relocations (s : State) (k : Nat) : (dropAccess s k).relocations = s.relocations := rfl
@[simp] theorem dropAccess_kiosks (s : State) (k : Nat) : (dropAccess s k).kiosks = s.kiosks := rfl
@[simp] theorem dropAccess_tiles (s : State) (k : Nat) : (dropAccess s k).tiles = s.tiles := rfl
@[simp] theorem dropAccess_budgets (s : State) (k : Nat) : (dropAccess s k).budgets = s.budgets := rfl
@[simp] theorem dropAccess_opTab (s : State) (k : Nat) : (dropAccess s k).opTab = s.opTab := rfl
@[simp] theorem dropAccess_street (s : State) (k : Nat) : (dropAccess s k).street = s.street := rfl
@[simp] theorem dropAccess_tlb (s : State) (k : Nat) : (dropAccess s k).tlb = s.tlb := rfl
@[simp] theorem dropAccess_ats (s : State) (k : Nat) : (dropAccess s k).ats = s.ats := rfl
@[simp] theorem dropAccess_atsCompletions (s : State) (k : Nat) : (dropAccess s k).atsCompletions = s.atsCompletions := rfl
@[simp] theorem dropAccess_tlbInv (s : State) (k : Nat) : (dropAccess s k).tlbInv = s.tlbInv := rfl
@[simp] theorem dropAccess_sdInv (s : State) (k : Nat) : (dropAccess s k).sdInv = s.sdInv := rfl
@[simp] theorem dropAccess_queues (s : State) (k : Nat) : (dropAccess s k).queues = s.queues := rfl
@[simp] theorem dropAccess_ring (s : State) (k : Nat) : (dropAccess s k).ring = s.ring := rfl
@[simp] theorem dropAccess_intake (s : State) (k : Nat) : (dropAccess s k).intake = s.intake := rfl
@[simp] theorem dropAccess_launches (s : State) (k : Nat) : (dropAccess s k).launches = s.launches := rfl
@[simp] theorem dropAccess_regionsOf (s : State) (k : Nat) : (dropAccess s k).regionsOf = s.regionsOf := rfl
@[simp] theorem dropAccess_regionCmds (s : State) (k : Nat) : (dropAccess s k).regionCmds = s.regionCmds := rfl
@[simp] theorem dropAccess_contexts (s : State) (k : Nat) : (dropAccess s k).contexts = s.contexts := rfl
@[simp] theorem dropAccess_ladders (s : State) (k : Nat) : (dropAccess s k).ladders = s.ladders := rfl
@[simp] theorem dropAccess_migQueue (s : State) (k : Nat) : (dropAccess s k).migQueue = s.migQueue := rfl
@[simp] theorem dropAccess_moves (s : State) (k : Nat) : (dropAccess s k).moves = s.moves := rfl
@[simp] theorem dropAccess_counters (s : State) (k : Nat) : (dropAccess s k).counters = s.counters := rfl
@[simp] theorem dropAccess_damaged (s : State) (k : Nat) : (dropAccess s k).damaged = s.damaged := rfl
@[simp] theorem dropAccess_pins (s : State) (k : Nat) : (dropAccess s k).pins = s.pins := rfl
@[simp] theorem dropAccess_cooling (s : State) (k : Nat) : (dropAccess s k).cooling = s.cooling := rfl
@[simp] theorem dropAccess_handovers (s : State) (k : Nat) : (dropAccess s k).handovers = s.handovers := rfl
@[simp] theorem dropAccess_xreg (s : State) (k : Nat) : (dropAccess s k).xreg = s.xreg := rfl
@[simp] theorem dropAccess_keyGen (s : State) (k : Nat) : (dropAccess s k).keyGen = s.keyGen := rfl
@[simp] theorem dropAccess_pubKeys (s : State) (k : Nat) : (dropAccess s k).pubKeys = s.pubKeys := rfl
@[simp] theorem dropAccess_keyLoad (s : State) (k : Nat) : (dropAccess s k).keyLoad = s.keyLoad := rfl
@[simp] theorem dropAccess_errLog (s : State) (k : Nat) : (dropAccess s k).errLog = s.errLog := rfl
@[simp] theorem dropAccess_errOvf (s : State) (k : Nat) : (dropAccess s k).errOvf = s.errOvf := rfl
@[simp] theorem dropAccess_ready (s : State) (k : Nat) : (dropAccess s k).ready = s.ready := rfl
@[simp] theorem dropAccess_failed (s : State) (k : Nat) : (dropAccess s k).failed = s.failed := rfl
@[simp] theorem dropAccess_power (s : State) (k : Nat) : (dropAccess s k).power = s.power := rfl
@[simp] theorem dropAccess_harts (s : State) (k : Nat) : (dropAccess s k).harts = s.harts := rfl
@[simp] theorem dropAccess_msis (s : State) (k : Nat) : (dropAccess s k).msis = s.msis := rfl
@[simp] theorem dropAccess_completions (s : State) (k : Nat) : (dropAccess s k).completions = s.completions := rfl
@[simp] theorem dropAccess_mgmt (s : State) (k : Nat) : (dropAccess s k).mgmt = s.mgmt := rfl
@[simp] theorem dropAccess_pagerequests (s : State) (k : Nat) : (dropAccess s k).pagerequests = s.pagerequests := rfl
@[simp] theorem dropAccess_clock (s : State) (k : Nat) : (dropAccess s k).clock = s.clock := rfl
@[simp] theorem dropAccess_hubStart (s : State) (k : Nat) : (dropAccess s k).hubStart = s.hubStart := rfl
@[simp] theorem dropAccess_dieReady (s : State) (k : Nat) : (dropAccess s k).dieReady = s.dieReady := rfl
@[simp] theorem dropAccess_avenue (s : State) (k : Nat) : (dropAccess s k).avenue = s.avenue := rfl
@[simp] theorem dropAccess_refresh (s : State) (k : Nat) : (dropAccess s k).refresh = s.refresh := rfl
@[simp] theorem dropAccess_refills (s : State) (k : Nat) : (dropAccess s k).refills = s.refills := rfl
@[simp] theorem dropAccess_issue (s : State) (k : Nat) : (dropAccess s k).issue = s.issue := rfl
@[simp] theorem dropAccess_hartIssue (s : State) (k : Nat) : (dropAccess s k).hartIssue = s.hartIssue := rfl
@[simp] theorem dropAccess_agenda (s : State) (k : Nat) : (dropAccess s k).agenda = s.agenda := rfl
@[simp] theorem dropAccess_backs (s : State) (k : Nat) : (dropAccess s k).backs = s.backs := rfl
@[simp] theorem dropAccess_fresh (s : State) (k : Nat) : (dropAccess s k).fresh = s.fresh := rfl
@[simp] theorem dropAccess_nextId (s : State) (k : Nat) : (dropAccess s k).nextId = s.nextId := rfl

@[simp] theorem modAccess_mem (s : State) (k : Nat) (h : Access → Access) : (modAccess s k h).mem = s.mem := rfl
@[simp] theorem modAccess_memTag (s : State) (k : Nat) (h : Access → Access) : (modAccess s k h).memTag = s.memTag := rfl
@[simp] theorem modAccess_stale (s : State) (k : Nat) (h : Access → Access) : (modAccess s k h).stale = s.stale := rfl
@[simp] theorem modAccess_lines (s : State) (k : Nat) (h : Access → Access) : (modAccess s k h).lines = s.lines := rfl
@[simp] theorem modAccess_hostMem (s : State) (k : Nat) (h : Access → Access) : (modAccess s k h).hostMem = s.hostMem := rfl
@[simp] theorem modAccess_weights (s : State) (k : Nat) (h : Access → Access) : (modAccess s k h).weights = s.weights := rfl
@[simp] theorem modAccess_granuleTenant (s : State) (k : Nat) (h : Access → Access) : (modAccess s k h).granuleTenant = s.granuleTenant := rfl
@[simp] theorem modAccess_spad (s : State) (k : Nat) (h : Access → Access) : (modAccess s k h).spad = s.spad := rfl
@[simp] theorem modAccess_rowTenant (s : State) (k : Nat) (h : Access → Access) : (modAccess s k h).rowTenant = s.rowTenant := rfl
@[simp] theorem modAccess_past (s : State) (k : Nat) (h : Access → Access) : (modAccess s k h).past = s.past := rfl
@[simp] theorem modAccess_events (s : State) (k : Nat) (h : Access → Access) : (modAccess s k h).events = s.events := rfl
@[simp] theorem modAccess_groups (s : State) (k : Nat) (h : Access → Access) : (modAccess s k h).groups = s.groups := rfl
@[simp] theorem modAccess_quarters (s : State) (k : Nat) (h : Access → Access) : (modAccess s k h).quarters = s.quarters := rfl
@[simp] theorem modAccess_rowHolds (s : State) (k : Nat) (h : Access → Access) : (modAccess s k h).rowHolds = s.rowHolds := rfl
@[simp] theorem modAccess_spills (s : State) (k : Nat) (h : Access → Access) : (modAccess s k h).spills = s.spills := rfl
@[simp] theorem modAccess_replay (s : State) (k : Nat) (h : Access → Access) : (modAccess s k h).replay = s.replay := rfl
@[simp] theorem modAccess_ranges (s : State) (k : Nat) (h : Access → Access) : (modAccess s k h).ranges = s.ranges := rfl
@[simp] theorem modAccess_copies (s : State) (k : Nat) (h : Access → Access) : (modAccess s k h).copies = s.copies := rfl
@[simp] theorem modAccess_tickets (s : State) (k : Nat) (h : Access → Access) : (modAccess s k h).tickets = s.tickets := rfl
@[simp] theorem modAccess_tableLoads (s : State) (k : Nat) (h : Access → Access) : (modAccess s k h).tableLoads = s.tableLoads := rfl
@[simp] theorem modAccess_relocations (s : State) (k : Nat) (h : Access → Access) : (modAccess s k h).relocations = s.relocations := rfl
@[simp] theorem modAccess_kiosks (s : State) (k : Nat) (h : Access → Access) : (modAccess s k h).kiosks = s.kiosks := rfl
@[simp] theorem modAccess_tiles (s : State) (k : Nat) (h : Access → Access) : (modAccess s k h).tiles = s.tiles := rfl
@[simp] theorem modAccess_budgets (s : State) (k : Nat) (h : Access → Access) : (modAccess s k h).budgets = s.budgets := rfl
@[simp] theorem modAccess_opTab (s : State) (k : Nat) (h : Access → Access) : (modAccess s k h).opTab = s.opTab := rfl
@[simp] theorem modAccess_street (s : State) (k : Nat) (h : Access → Access) : (modAccess s k h).street = s.street := rfl
@[simp] theorem modAccess_tlb (s : State) (k : Nat) (h : Access → Access) : (modAccess s k h).tlb = s.tlb := rfl
@[simp] theorem modAccess_ats (s : State) (k : Nat) (h : Access → Access) : (modAccess s k h).ats = s.ats := rfl
@[simp] theorem modAccess_atsCompletions (s : State) (k : Nat) (h : Access → Access) : (modAccess s k h).atsCompletions = s.atsCompletions := rfl
@[simp] theorem modAccess_tlbInv (s : State) (k : Nat) (h : Access → Access) : (modAccess s k h).tlbInv = s.tlbInv := rfl
@[simp] theorem modAccess_sdInv (s : State) (k : Nat) (h : Access → Access) : (modAccess s k h).sdInv = s.sdInv := rfl
@[simp] theorem modAccess_queues (s : State) (k : Nat) (h : Access → Access) : (modAccess s k h).queues = s.queues := rfl
@[simp] theorem modAccess_ring (s : State) (k : Nat) (h : Access → Access) : (modAccess s k h).ring = s.ring := rfl
@[simp] theorem modAccess_intake (s : State) (k : Nat) (h : Access → Access) : (modAccess s k h).intake = s.intake := rfl
@[simp] theorem modAccess_launches (s : State) (k : Nat) (h : Access → Access) : (modAccess s k h).launches = s.launches := rfl
@[simp] theorem modAccess_regionsOf (s : State) (k : Nat) (h : Access → Access) : (modAccess s k h).regionsOf = s.regionsOf := rfl
@[simp] theorem modAccess_regionCmds (s : State) (k : Nat) (h : Access → Access) : (modAccess s k h).regionCmds = s.regionCmds := rfl
@[simp] theorem modAccess_contexts (s : State) (k : Nat) (h : Access → Access) : (modAccess s k h).contexts = s.contexts := rfl
@[simp] theorem modAccess_ladders (s : State) (k : Nat) (h : Access → Access) : (modAccess s k h).ladders = s.ladders := rfl
@[simp] theorem modAccess_migQueue (s : State) (k : Nat) (h : Access → Access) : (modAccess s k h).migQueue = s.migQueue := rfl
@[simp] theorem modAccess_moves (s : State) (k : Nat) (h : Access → Access) : (modAccess s k h).moves = s.moves := rfl
@[simp] theorem modAccess_counters (s : State) (k : Nat) (h : Access → Access) : (modAccess s k h).counters = s.counters := rfl
@[simp] theorem modAccess_damaged (s : State) (k : Nat) (h : Access → Access) : (modAccess s k h).damaged = s.damaged := rfl
@[simp] theorem modAccess_pins (s : State) (k : Nat) (h : Access → Access) : (modAccess s k h).pins = s.pins := rfl
@[simp] theorem modAccess_cooling (s : State) (k : Nat) (h : Access → Access) : (modAccess s k h).cooling = s.cooling := rfl
@[simp] theorem modAccess_handovers (s : State) (k : Nat) (h : Access → Access) : (modAccess s k h).handovers = s.handovers := rfl
@[simp] theorem modAccess_xreg (s : State) (k : Nat) (h : Access → Access) : (modAccess s k h).xreg = s.xreg := rfl
@[simp] theorem modAccess_keyGen (s : State) (k : Nat) (h : Access → Access) : (modAccess s k h).keyGen = s.keyGen := rfl
@[simp] theorem modAccess_pubKeys (s : State) (k : Nat) (h : Access → Access) : (modAccess s k h).pubKeys = s.pubKeys := rfl
@[simp] theorem modAccess_keyLoad (s : State) (k : Nat) (h : Access → Access) : (modAccess s k h).keyLoad = s.keyLoad := rfl
@[simp] theorem modAccess_errLog (s : State) (k : Nat) (h : Access → Access) : (modAccess s k h).errLog = s.errLog := rfl
@[simp] theorem modAccess_errOvf (s : State) (k : Nat) (h : Access → Access) : (modAccess s k h).errOvf = s.errOvf := rfl
@[simp] theorem modAccess_ready (s : State) (k : Nat) (h : Access → Access) : (modAccess s k h).ready = s.ready := rfl
@[simp] theorem modAccess_failed (s : State) (k : Nat) (h : Access → Access) : (modAccess s k h).failed = s.failed := rfl
@[simp] theorem modAccess_power (s : State) (k : Nat) (h : Access → Access) : (modAccess s k h).power = s.power := rfl
@[simp] theorem modAccess_harts (s : State) (k : Nat) (h : Access → Access) : (modAccess s k h).harts = s.harts := rfl
@[simp] theorem modAccess_msis (s : State) (k : Nat) (h : Access → Access) : (modAccess s k h).msis = s.msis := rfl
@[simp] theorem modAccess_completions (s : State) (k : Nat) (h : Access → Access) : (modAccess s k h).completions = s.completions := rfl
@[simp] theorem modAccess_mgmt (s : State) (k : Nat) (h : Access → Access) : (modAccess s k h).mgmt = s.mgmt := rfl
@[simp] theorem modAccess_pagerequests (s : State) (k : Nat) (h : Access → Access) : (modAccess s k h).pagerequests = s.pagerequests := rfl
@[simp] theorem modAccess_clock (s : State) (k : Nat) (h : Access → Access) : (modAccess s k h).clock = s.clock := rfl
@[simp] theorem modAccess_hubStart (s : State) (k : Nat) (h : Access → Access) : (modAccess s k h).hubStart = s.hubStart := rfl
@[simp] theorem modAccess_dieReady (s : State) (k : Nat) (h : Access → Access) : (modAccess s k h).dieReady = s.dieReady := rfl
@[simp] theorem modAccess_avenue (s : State) (k : Nat) (h : Access → Access) : (modAccess s k h).avenue = s.avenue := rfl
@[simp] theorem modAccess_refresh (s : State) (k : Nat) (h : Access → Access) : (modAccess s k h).refresh = s.refresh := rfl
@[simp] theorem modAccess_refills (s : State) (k : Nat) (h : Access → Access) : (modAccess s k h).refills = s.refills := rfl
@[simp] theorem modAccess_issue (s : State) (k : Nat) (h : Access → Access) : (modAccess s k h).issue = s.issue := rfl
@[simp] theorem modAccess_hartIssue (s : State) (k : Nat) (h : Access → Access) : (modAccess s k h).hartIssue = s.hartIssue := rfl
@[simp] theorem modAccess_agenda (s : State) (k : Nat) (h : Access → Access) : (modAccess s k h).agenda = s.agenda := rfl
@[simp] theorem modAccess_backs (s : State) (k : Nat) (h : Access → Access) : (modAccess s k h).backs = s.backs := rfl
@[simp] theorem modAccess_fresh (s : State) (k : Nat) (h : Access → Access) : (modAccess s k h).fresh = s.fresh := rfl
@[simp] theorem modAccess_nextId (s : State) (k : Nat) (h : Access → Access) : (modAccess s k h).nextId = s.nextId := rfl

@[simp] theorem modLaunch_mem (s : State) (u : Nat) (h : Launch → Launch) : (modLaunch s u h).mem = s.mem := rfl
@[simp] theorem modLaunch_memTag (s : State) (u : Nat) (h : Launch → Launch) : (modLaunch s u h).memTag = s.memTag := rfl
@[simp] theorem modLaunch_stale (s : State) (u : Nat) (h : Launch → Launch) : (modLaunch s u h).stale = s.stale := rfl
@[simp] theorem modLaunch_lines (s : State) (u : Nat) (h : Launch → Launch) : (modLaunch s u h).lines = s.lines := rfl
@[simp] theorem modLaunch_hostMem (s : State) (u : Nat) (h : Launch → Launch) : (modLaunch s u h).hostMem = s.hostMem := rfl
@[simp] theorem modLaunch_weights (s : State) (u : Nat) (h : Launch → Launch) : (modLaunch s u h).weights = s.weights := rfl
@[simp] theorem modLaunch_granuleTenant (s : State) (u : Nat) (h : Launch → Launch) : (modLaunch s u h).granuleTenant = s.granuleTenant := rfl
@[simp] theorem modLaunch_spad (s : State) (u : Nat) (h : Launch → Launch) : (modLaunch s u h).spad = s.spad := rfl
@[simp] theorem modLaunch_rowTenant (s : State) (u : Nat) (h : Launch → Launch) : (modLaunch s u h).rowTenant = s.rowTenant := rfl
@[simp] theorem modLaunch_past (s : State) (u : Nat) (h : Launch → Launch) : (modLaunch s u h).past = s.past := rfl
@[simp] theorem modLaunch_events (s : State) (u : Nat) (h : Launch → Launch) : (modLaunch s u h).events = s.events := rfl
@[simp] theorem modLaunch_groups (s : State) (u : Nat) (h : Launch → Launch) : (modLaunch s u h).groups = s.groups := rfl
@[simp] theorem modLaunch_quarters (s : State) (u : Nat) (h : Launch → Launch) : (modLaunch s u h).quarters = s.quarters := rfl
@[simp] theorem modLaunch_rowHolds (s : State) (u : Nat) (h : Launch → Launch) : (modLaunch s u h).rowHolds = s.rowHolds := rfl
@[simp] theorem modLaunch_accesses (s : State) (u : Nat) (h : Launch → Launch) : (modLaunch s u h).accesses = s.accesses := rfl
@[simp] theorem modLaunch_spills (s : State) (u : Nat) (h : Launch → Launch) : (modLaunch s u h).spills = s.spills := rfl
@[simp] theorem modLaunch_replay (s : State) (u : Nat) (h : Launch → Launch) : (modLaunch s u h).replay = s.replay := rfl
@[simp] theorem modLaunch_ranges (s : State) (u : Nat) (h : Launch → Launch) : (modLaunch s u h).ranges = s.ranges := rfl
@[simp] theorem modLaunch_copies (s : State) (u : Nat) (h : Launch → Launch) : (modLaunch s u h).copies = s.copies := rfl
@[simp] theorem modLaunch_tickets (s : State) (u : Nat) (h : Launch → Launch) : (modLaunch s u h).tickets = s.tickets := rfl
@[simp] theorem modLaunch_tableLoads (s : State) (u : Nat) (h : Launch → Launch) : (modLaunch s u h).tableLoads = s.tableLoads := rfl
@[simp] theorem modLaunch_relocations (s : State) (u : Nat) (h : Launch → Launch) : (modLaunch s u h).relocations = s.relocations := rfl
@[simp] theorem modLaunch_kiosks (s : State) (u : Nat) (h : Launch → Launch) : (modLaunch s u h).kiosks = s.kiosks := rfl
@[simp] theorem modLaunch_tiles (s : State) (u : Nat) (h : Launch → Launch) : (modLaunch s u h).tiles = s.tiles := rfl
@[simp] theorem modLaunch_budgets (s : State) (u : Nat) (h : Launch → Launch) : (modLaunch s u h).budgets = s.budgets := rfl
@[simp] theorem modLaunch_opTab (s : State) (u : Nat) (h : Launch → Launch) : (modLaunch s u h).opTab = s.opTab := rfl
@[simp] theorem modLaunch_street (s : State) (u : Nat) (h : Launch → Launch) : (modLaunch s u h).street = s.street := rfl
@[simp] theorem modLaunch_tlb (s : State) (u : Nat) (h : Launch → Launch) : (modLaunch s u h).tlb = s.tlb := rfl
@[simp] theorem modLaunch_ats (s : State) (u : Nat) (h : Launch → Launch) : (modLaunch s u h).ats = s.ats := rfl
@[simp] theorem modLaunch_atsCompletions (s : State) (u : Nat) (h : Launch → Launch) : (modLaunch s u h).atsCompletions = s.atsCompletions := rfl
@[simp] theorem modLaunch_tlbInv (s : State) (u : Nat) (h : Launch → Launch) : (modLaunch s u h).tlbInv = s.tlbInv := rfl
@[simp] theorem modLaunch_sdInv (s : State) (u : Nat) (h : Launch → Launch) : (modLaunch s u h).sdInv = s.sdInv := rfl
@[simp] theorem modLaunch_queues (s : State) (u : Nat) (h : Launch → Launch) : (modLaunch s u h).queues = s.queues := rfl
@[simp] theorem modLaunch_ring (s : State) (u : Nat) (h : Launch → Launch) : (modLaunch s u h).ring = s.ring := rfl
@[simp] theorem modLaunch_intake (s : State) (u : Nat) (h : Launch → Launch) : (modLaunch s u h).intake = s.intake := rfl
@[simp] theorem modLaunch_regionsOf (s : State) (u : Nat) (h : Launch → Launch) : (modLaunch s u h).regionsOf = s.regionsOf := rfl
@[simp] theorem modLaunch_regionCmds (s : State) (u : Nat) (h : Launch → Launch) : (modLaunch s u h).regionCmds = s.regionCmds := rfl
@[simp] theorem modLaunch_contexts (s : State) (u : Nat) (h : Launch → Launch) : (modLaunch s u h).contexts = s.contexts := rfl
@[simp] theorem modLaunch_ladders (s : State) (u : Nat) (h : Launch → Launch) : (modLaunch s u h).ladders = s.ladders := rfl
@[simp] theorem modLaunch_migQueue (s : State) (u : Nat) (h : Launch → Launch) : (modLaunch s u h).migQueue = s.migQueue := rfl
@[simp] theorem modLaunch_moves (s : State) (u : Nat) (h : Launch → Launch) : (modLaunch s u h).moves = s.moves := rfl
@[simp] theorem modLaunch_counters (s : State) (u : Nat) (h : Launch → Launch) : (modLaunch s u h).counters = s.counters := rfl
@[simp] theorem modLaunch_damaged (s : State) (u : Nat) (h : Launch → Launch) : (modLaunch s u h).damaged = s.damaged := rfl
@[simp] theorem modLaunch_pins (s : State) (u : Nat) (h : Launch → Launch) : (modLaunch s u h).pins = s.pins := rfl
@[simp] theorem modLaunch_cooling (s : State) (u : Nat) (h : Launch → Launch) : (modLaunch s u h).cooling = s.cooling := rfl
@[simp] theorem modLaunch_handovers (s : State) (u : Nat) (h : Launch → Launch) : (modLaunch s u h).handovers = s.handovers := rfl
@[simp] theorem modLaunch_xreg (s : State) (u : Nat) (h : Launch → Launch) : (modLaunch s u h).xreg = s.xreg := rfl
@[simp] theorem modLaunch_keyGen (s : State) (u : Nat) (h : Launch → Launch) : (modLaunch s u h).keyGen = s.keyGen := rfl
@[simp] theorem modLaunch_pubKeys (s : State) (u : Nat) (h : Launch → Launch) : (modLaunch s u h).pubKeys = s.pubKeys := rfl
@[simp] theorem modLaunch_keyLoad (s : State) (u : Nat) (h : Launch → Launch) : (modLaunch s u h).keyLoad = s.keyLoad := rfl
@[simp] theorem modLaunch_errLog (s : State) (u : Nat) (h : Launch → Launch) : (modLaunch s u h).errLog = s.errLog := rfl
@[simp] theorem modLaunch_errOvf (s : State) (u : Nat) (h : Launch → Launch) : (modLaunch s u h).errOvf = s.errOvf := rfl
@[simp] theorem modLaunch_ready (s : State) (u : Nat) (h : Launch → Launch) : (modLaunch s u h).ready = s.ready := rfl
@[simp] theorem modLaunch_failed (s : State) (u : Nat) (h : Launch → Launch) : (modLaunch s u h).failed = s.failed := rfl
@[simp] theorem modLaunch_power (s : State) (u : Nat) (h : Launch → Launch) : (modLaunch s u h).power = s.power := rfl
@[simp] theorem modLaunch_harts (s : State) (u : Nat) (h : Launch → Launch) : (modLaunch s u h).harts = s.harts := rfl
@[simp] theorem modLaunch_msis (s : State) (u : Nat) (h : Launch → Launch) : (modLaunch s u h).msis = s.msis := rfl
@[simp] theorem modLaunch_completions (s : State) (u : Nat) (h : Launch → Launch) : (modLaunch s u h).completions = s.completions := rfl
@[simp] theorem modLaunch_mgmt (s : State) (u : Nat) (h : Launch → Launch) : (modLaunch s u h).mgmt = s.mgmt := rfl
@[simp] theorem modLaunch_pagerequests (s : State) (u : Nat) (h : Launch → Launch) : (modLaunch s u h).pagerequests = s.pagerequests := rfl
@[simp] theorem modLaunch_clock (s : State) (u : Nat) (h : Launch → Launch) : (modLaunch s u h).clock = s.clock := rfl
@[simp] theorem modLaunch_hubStart (s : State) (u : Nat) (h : Launch → Launch) : (modLaunch s u h).hubStart = s.hubStart := rfl
@[simp] theorem modLaunch_dieReady (s : State) (u : Nat) (h : Launch → Launch) : (modLaunch s u h).dieReady = s.dieReady := rfl
@[simp] theorem modLaunch_avenue (s : State) (u : Nat) (h : Launch → Launch) : (modLaunch s u h).avenue = s.avenue := rfl
@[simp] theorem modLaunch_refresh (s : State) (u : Nat) (h : Launch → Launch) : (modLaunch s u h).refresh = s.refresh := rfl
@[simp] theorem modLaunch_refills (s : State) (u : Nat) (h : Launch → Launch) : (modLaunch s u h).refills = s.refills := rfl
@[simp] theorem modLaunch_issue (s : State) (u : Nat) (h : Launch → Launch) : (modLaunch s u h).issue = s.issue := rfl
@[simp] theorem modLaunch_hartIssue (s : State) (u : Nat) (h : Launch → Launch) : (modLaunch s u h).hartIssue = s.hartIssue := rfl
@[simp] theorem modLaunch_agenda (s : State) (u : Nat) (h : Launch → Launch) : (modLaunch s u h).agenda = s.agenda := rfl
@[simp] theorem modLaunch_backs (s : State) (u : Nat) (h : Launch → Launch) : (modLaunch s u h).backs = s.backs := rfl
@[simp] theorem modLaunch_fresh (s : State) (u : Nat) (h : Launch → Launch) : (modLaunch s u h).fresh = s.fresh := rfl
@[simp] theorem modLaunch_nextId (s : State) (u : Nat) (h : Launch → Launch) : (modLaunch s u h).nextId = s.nextId := rfl

@[simp] theorem writeSpad_mem (s : State) (c b : Nat) (v : Byte) : (writeSpad s c b v).mem = s.mem := rfl
@[simp] theorem writeSpad_memTag (s : State) (c b : Nat) (v : Byte) : (writeSpad s c b v).memTag = s.memTag := rfl
@[simp] theorem writeSpad_stale (s : State) (c b : Nat) (v : Byte) : (writeSpad s c b v).stale = s.stale := rfl
@[simp] theorem writeSpad_lines (s : State) (c b : Nat) (v : Byte) : (writeSpad s c b v).lines = s.lines := rfl
@[simp] theorem writeSpad_hostMem (s : State) (c b : Nat) (v : Byte) : (writeSpad s c b v).hostMem = s.hostMem := rfl
@[simp] theorem writeSpad_weights (s : State) (c b : Nat) (v : Byte) : (writeSpad s c b v).weights = s.weights := rfl
@[simp] theorem writeSpad_granuleTenant (s : State) (c b : Nat) (v : Byte) : (writeSpad s c b v).granuleTenant = s.granuleTenant := rfl
@[simp] theorem writeSpad_rowTenant (s : State) (c b : Nat) (v : Byte) : (writeSpad s c b v).rowTenant = s.rowTenant := rfl
@[simp] theorem writeSpad_past (s : State) (c b : Nat) (v : Byte) : (writeSpad s c b v).past = s.past := rfl
@[simp] theorem writeSpad_events (s : State) (c b : Nat) (v : Byte) : (writeSpad s c b v).events = s.events := rfl
@[simp] theorem writeSpad_groups (s : State) (c b : Nat) (v : Byte) : (writeSpad s c b v).groups = s.groups := rfl
@[simp] theorem writeSpad_quarters (s : State) (c b : Nat) (v : Byte) : (writeSpad s c b v).quarters = s.quarters := rfl
@[simp] theorem writeSpad_rowHolds (s : State) (c b : Nat) (v : Byte) : (writeSpad s c b v).rowHolds = s.rowHolds := rfl
@[simp] theorem writeSpad_accesses (s : State) (c b : Nat) (v : Byte) : (writeSpad s c b v).accesses = s.accesses := rfl
@[simp] theorem writeSpad_spills (s : State) (c b : Nat) (v : Byte) : (writeSpad s c b v).spills = s.spills := rfl
@[simp] theorem writeSpad_replay (s : State) (c b : Nat) (v : Byte) : (writeSpad s c b v).replay = s.replay := rfl
@[simp] theorem writeSpad_ranges (s : State) (c b : Nat) (v : Byte) : (writeSpad s c b v).ranges = s.ranges := rfl
@[simp] theorem writeSpad_copies (s : State) (c b : Nat) (v : Byte) : (writeSpad s c b v).copies = s.copies := rfl
@[simp] theorem writeSpad_tickets (s : State) (c b : Nat) (v : Byte) : (writeSpad s c b v).tickets = s.tickets := rfl
@[simp] theorem writeSpad_tableLoads (s : State) (c b : Nat) (v : Byte) : (writeSpad s c b v).tableLoads = s.tableLoads := rfl
@[simp] theorem writeSpad_relocations (s : State) (c b : Nat) (v : Byte) : (writeSpad s c b v).relocations = s.relocations := rfl
@[simp] theorem writeSpad_kiosks (s : State) (c b : Nat) (v : Byte) : (writeSpad s c b v).kiosks = s.kiosks := rfl
@[simp] theorem writeSpad_tiles (s : State) (c b : Nat) (v : Byte) : (writeSpad s c b v).tiles = s.tiles := rfl
@[simp] theorem writeSpad_budgets (s : State) (c b : Nat) (v : Byte) : (writeSpad s c b v).budgets = s.budgets := rfl
@[simp] theorem writeSpad_opTab (s : State) (c b : Nat) (v : Byte) : (writeSpad s c b v).opTab = s.opTab := rfl
@[simp] theorem writeSpad_street (s : State) (c b : Nat) (v : Byte) : (writeSpad s c b v).street = s.street := rfl
@[simp] theorem writeSpad_tlb (s : State) (c b : Nat) (v : Byte) : (writeSpad s c b v).tlb = s.tlb := rfl
@[simp] theorem writeSpad_ats (s : State) (c b : Nat) (v : Byte) : (writeSpad s c b v).ats = s.ats := rfl
@[simp] theorem writeSpad_atsCompletions (s : State) (c b : Nat) (v : Byte) : (writeSpad s c b v).atsCompletions = s.atsCompletions := rfl
@[simp] theorem writeSpad_tlbInv (s : State) (c b : Nat) (v : Byte) : (writeSpad s c b v).tlbInv = s.tlbInv := rfl
@[simp] theorem writeSpad_sdInv (s : State) (c b : Nat) (v : Byte) : (writeSpad s c b v).sdInv = s.sdInv := rfl
@[simp] theorem writeSpad_queues (s : State) (c b : Nat) (v : Byte) : (writeSpad s c b v).queues = s.queues := rfl
@[simp] theorem writeSpad_ring (s : State) (c b : Nat) (v : Byte) : (writeSpad s c b v).ring = s.ring := rfl
@[simp] theorem writeSpad_intake (s : State) (c b : Nat) (v : Byte) : (writeSpad s c b v).intake = s.intake := rfl
@[simp] theorem writeSpad_launches (s : State) (c b : Nat) (v : Byte) : (writeSpad s c b v).launches = s.launches := rfl
@[simp] theorem writeSpad_regionsOf (s : State) (c b : Nat) (v : Byte) : (writeSpad s c b v).regionsOf = s.regionsOf := rfl
@[simp] theorem writeSpad_regionCmds (s : State) (c b : Nat) (v : Byte) : (writeSpad s c b v).regionCmds = s.regionCmds := rfl
@[simp] theorem writeSpad_contexts (s : State) (c b : Nat) (v : Byte) : (writeSpad s c b v).contexts = s.contexts := rfl
@[simp] theorem writeSpad_ladders (s : State) (c b : Nat) (v : Byte) : (writeSpad s c b v).ladders = s.ladders := rfl
@[simp] theorem writeSpad_migQueue (s : State) (c b : Nat) (v : Byte) : (writeSpad s c b v).migQueue = s.migQueue := rfl
@[simp] theorem writeSpad_moves (s : State) (c b : Nat) (v : Byte) : (writeSpad s c b v).moves = s.moves := rfl
@[simp] theorem writeSpad_counters (s : State) (c b : Nat) (v : Byte) : (writeSpad s c b v).counters = s.counters := rfl
@[simp] theorem writeSpad_damaged (s : State) (c b : Nat) (v : Byte) : (writeSpad s c b v).damaged = s.damaged := rfl
@[simp] theorem writeSpad_pins (s : State) (c b : Nat) (v : Byte) : (writeSpad s c b v).pins = s.pins := rfl
@[simp] theorem writeSpad_cooling (s : State) (c b : Nat) (v : Byte) : (writeSpad s c b v).cooling = s.cooling := rfl
@[simp] theorem writeSpad_handovers (s : State) (c b : Nat) (v : Byte) : (writeSpad s c b v).handovers = s.handovers := rfl
@[simp] theorem writeSpad_xreg (s : State) (c b : Nat) (v : Byte) : (writeSpad s c b v).xreg = s.xreg := rfl
@[simp] theorem writeSpad_keyGen (s : State) (c b : Nat) (v : Byte) : (writeSpad s c b v).keyGen = s.keyGen := rfl
@[simp] theorem writeSpad_pubKeys (s : State) (c b : Nat) (v : Byte) : (writeSpad s c b v).pubKeys = s.pubKeys := rfl
@[simp] theorem writeSpad_keyLoad (s : State) (c b : Nat) (v : Byte) : (writeSpad s c b v).keyLoad = s.keyLoad := rfl
@[simp] theorem writeSpad_errLog (s : State) (c b : Nat) (v : Byte) : (writeSpad s c b v).errLog = s.errLog := rfl
@[simp] theorem writeSpad_errOvf (s : State) (c b : Nat) (v : Byte) : (writeSpad s c b v).errOvf = s.errOvf := rfl
@[simp] theorem writeSpad_ready (s : State) (c b : Nat) (v : Byte) : (writeSpad s c b v).ready = s.ready := rfl
@[simp] theorem writeSpad_failed (s : State) (c b : Nat) (v : Byte) : (writeSpad s c b v).failed = s.failed := rfl
@[simp] theorem writeSpad_power (s : State) (c b : Nat) (v : Byte) : (writeSpad s c b v).power = s.power := rfl
@[simp] theorem writeSpad_harts (s : State) (c b : Nat) (v : Byte) : (writeSpad s c b v).harts = s.harts := rfl
@[simp] theorem writeSpad_msis (s : State) (c b : Nat) (v : Byte) : (writeSpad s c b v).msis = s.msis := rfl
@[simp] theorem writeSpad_completions (s : State) (c b : Nat) (v : Byte) : (writeSpad s c b v).completions = s.completions := rfl
@[simp] theorem writeSpad_mgmt (s : State) (c b : Nat) (v : Byte) : (writeSpad s c b v).mgmt = s.mgmt := rfl
@[simp] theorem writeSpad_pagerequests (s : State) (c b : Nat) (v : Byte) : (writeSpad s c b v).pagerequests = s.pagerequests := rfl
@[simp] theorem writeSpad_clock (s : State) (c b : Nat) (v : Byte) : (writeSpad s c b v).clock = s.clock := rfl
@[simp] theorem writeSpad_hubStart (s : State) (c b : Nat) (v : Byte) : (writeSpad s c b v).hubStart = s.hubStart := rfl
@[simp] theorem writeSpad_dieReady (s : State) (c b : Nat) (v : Byte) : (writeSpad s c b v).dieReady = s.dieReady := rfl
@[simp] theorem writeSpad_avenue (s : State) (c b : Nat) (v : Byte) : (writeSpad s c b v).avenue = s.avenue := rfl
@[simp] theorem writeSpad_refresh (s : State) (c b : Nat) (v : Byte) : (writeSpad s c b v).refresh = s.refresh := rfl
@[simp] theorem writeSpad_refills (s : State) (c b : Nat) (v : Byte) : (writeSpad s c b v).refills = s.refills := rfl
@[simp] theorem writeSpad_issue (s : State) (c b : Nat) (v : Byte) : (writeSpad s c b v).issue = s.issue := rfl
@[simp] theorem writeSpad_hartIssue (s : State) (c b : Nat) (v : Byte) : (writeSpad s c b v).hartIssue = s.hartIssue := rfl
@[simp] theorem writeSpad_agenda (s : State) (c b : Nat) (v : Byte) : (writeSpad s c b v).agenda = s.agenda := rfl
@[simp] theorem writeSpad_backs (s : State) (c b : Nat) (v : Byte) : (writeSpad s c b v).backs = s.backs := rfl
@[simp] theorem writeSpad_fresh (s : State) (c b : Nat) (v : Byte) : (writeSpad s c b v).fresh = s.fresh := rfl
@[simp] theorem writeSpad_nextId (s : State) (c b : Nat) (v : Byte) : (writeSpad s c b v).nextId = s.nextId := rfl

@[simp] theorem writeWeight_mem (s : State) (d o : Nat) (v : Byte) : (writeWeight s d o v).mem = s.mem := rfl
@[simp] theorem writeWeight_memTag (s : State) (d o : Nat) (v : Byte) : (writeWeight s d o v).memTag = s.memTag := rfl
@[simp] theorem writeWeight_stale (s : State) (d o : Nat) (v : Byte) : (writeWeight s d o v).stale = s.stale := rfl
@[simp] theorem writeWeight_lines (s : State) (d o : Nat) (v : Byte) : (writeWeight s d o v).lines = s.lines := rfl
@[simp] theorem writeWeight_hostMem (s : State) (d o : Nat) (v : Byte) : (writeWeight s d o v).hostMem = s.hostMem := rfl
@[simp] theorem writeWeight_granuleTenant (s : State) (d o : Nat) (v : Byte) : (writeWeight s d o v).granuleTenant = s.granuleTenant := rfl
@[simp] theorem writeWeight_spad (s : State) (d o : Nat) (v : Byte) : (writeWeight s d o v).spad = s.spad := rfl
@[simp] theorem writeWeight_rowTenant (s : State) (d o : Nat) (v : Byte) : (writeWeight s d o v).rowTenant = s.rowTenant := rfl
@[simp] theorem writeWeight_past (s : State) (d o : Nat) (v : Byte) : (writeWeight s d o v).past = s.past := rfl
@[simp] theorem writeWeight_events (s : State) (d o : Nat) (v : Byte) : (writeWeight s d o v).events = s.events := rfl
@[simp] theorem writeWeight_groups (s : State) (d o : Nat) (v : Byte) : (writeWeight s d o v).groups = s.groups := rfl
@[simp] theorem writeWeight_quarters (s : State) (d o : Nat) (v : Byte) : (writeWeight s d o v).quarters = s.quarters := rfl
@[simp] theorem writeWeight_rowHolds (s : State) (d o : Nat) (v : Byte) : (writeWeight s d o v).rowHolds = s.rowHolds := rfl
@[simp] theorem writeWeight_accesses (s : State) (d o : Nat) (v : Byte) : (writeWeight s d o v).accesses = s.accesses := rfl
@[simp] theorem writeWeight_spills (s : State) (d o : Nat) (v : Byte) : (writeWeight s d o v).spills = s.spills := rfl
@[simp] theorem writeWeight_replay (s : State) (d o : Nat) (v : Byte) : (writeWeight s d o v).replay = s.replay := rfl
@[simp] theorem writeWeight_ranges (s : State) (d o : Nat) (v : Byte) : (writeWeight s d o v).ranges = s.ranges := rfl
@[simp] theorem writeWeight_copies (s : State) (d o : Nat) (v : Byte) : (writeWeight s d o v).copies = s.copies := rfl
@[simp] theorem writeWeight_tickets (s : State) (d o : Nat) (v : Byte) : (writeWeight s d o v).tickets = s.tickets := rfl
@[simp] theorem writeWeight_tableLoads (s : State) (d o : Nat) (v : Byte) : (writeWeight s d o v).tableLoads = s.tableLoads := rfl
@[simp] theorem writeWeight_relocations (s : State) (d o : Nat) (v : Byte) : (writeWeight s d o v).relocations = s.relocations := rfl
@[simp] theorem writeWeight_kiosks (s : State) (d o : Nat) (v : Byte) : (writeWeight s d o v).kiosks = s.kiosks := rfl
@[simp] theorem writeWeight_tiles (s : State) (d o : Nat) (v : Byte) : (writeWeight s d o v).tiles = s.tiles := rfl
@[simp] theorem writeWeight_budgets (s : State) (d o : Nat) (v : Byte) : (writeWeight s d o v).budgets = s.budgets := rfl
@[simp] theorem writeWeight_opTab (s : State) (d o : Nat) (v : Byte) : (writeWeight s d o v).opTab = s.opTab := rfl
@[simp] theorem writeWeight_street (s : State) (d o : Nat) (v : Byte) : (writeWeight s d o v).street = s.street := rfl
@[simp] theorem writeWeight_tlb (s : State) (d o : Nat) (v : Byte) : (writeWeight s d o v).tlb = s.tlb := rfl
@[simp] theorem writeWeight_ats (s : State) (d o : Nat) (v : Byte) : (writeWeight s d o v).ats = s.ats := rfl
@[simp] theorem writeWeight_atsCompletions (s : State) (d o : Nat) (v : Byte) : (writeWeight s d o v).atsCompletions = s.atsCompletions := rfl
@[simp] theorem writeWeight_tlbInv (s : State) (d o : Nat) (v : Byte) : (writeWeight s d o v).tlbInv = s.tlbInv := rfl
@[simp] theorem writeWeight_sdInv (s : State) (d o : Nat) (v : Byte) : (writeWeight s d o v).sdInv = s.sdInv := rfl
@[simp] theorem writeWeight_queues (s : State) (d o : Nat) (v : Byte) : (writeWeight s d o v).queues = s.queues := rfl
@[simp] theorem writeWeight_ring (s : State) (d o : Nat) (v : Byte) : (writeWeight s d o v).ring = s.ring := rfl
@[simp] theorem writeWeight_intake (s : State) (d o : Nat) (v : Byte) : (writeWeight s d o v).intake = s.intake := rfl
@[simp] theorem writeWeight_launches (s : State) (d o : Nat) (v : Byte) : (writeWeight s d o v).launches = s.launches := rfl
@[simp] theorem writeWeight_regionsOf (s : State) (d o : Nat) (v : Byte) : (writeWeight s d o v).regionsOf = s.regionsOf := rfl
@[simp] theorem writeWeight_regionCmds (s : State) (d o : Nat) (v : Byte) : (writeWeight s d o v).regionCmds = s.regionCmds := rfl
@[simp] theorem writeWeight_contexts (s : State) (d o : Nat) (v : Byte) : (writeWeight s d o v).contexts = s.contexts := rfl
@[simp] theorem writeWeight_ladders (s : State) (d o : Nat) (v : Byte) : (writeWeight s d o v).ladders = s.ladders := rfl
@[simp] theorem writeWeight_migQueue (s : State) (d o : Nat) (v : Byte) : (writeWeight s d o v).migQueue = s.migQueue := rfl
@[simp] theorem writeWeight_moves (s : State) (d o : Nat) (v : Byte) : (writeWeight s d o v).moves = s.moves := rfl
@[simp] theorem writeWeight_counters (s : State) (d o : Nat) (v : Byte) : (writeWeight s d o v).counters = s.counters := rfl
@[simp] theorem writeWeight_damaged (s : State) (d o : Nat) (v : Byte) : (writeWeight s d o v).damaged = s.damaged := rfl
@[simp] theorem writeWeight_pins (s : State) (d o : Nat) (v : Byte) : (writeWeight s d o v).pins = s.pins := rfl
@[simp] theorem writeWeight_cooling (s : State) (d o : Nat) (v : Byte) : (writeWeight s d o v).cooling = s.cooling := rfl
@[simp] theorem writeWeight_handovers (s : State) (d o : Nat) (v : Byte) : (writeWeight s d o v).handovers = s.handovers := rfl
@[simp] theorem writeWeight_xreg (s : State) (d o : Nat) (v : Byte) : (writeWeight s d o v).xreg = s.xreg := rfl
@[simp] theorem writeWeight_keyGen (s : State) (d o : Nat) (v : Byte) : (writeWeight s d o v).keyGen = s.keyGen := rfl
@[simp] theorem writeWeight_pubKeys (s : State) (d o : Nat) (v : Byte) : (writeWeight s d o v).pubKeys = s.pubKeys := rfl
@[simp] theorem writeWeight_keyLoad (s : State) (d o : Nat) (v : Byte) : (writeWeight s d o v).keyLoad = s.keyLoad := rfl
@[simp] theorem writeWeight_errLog (s : State) (d o : Nat) (v : Byte) : (writeWeight s d o v).errLog = s.errLog := rfl
@[simp] theorem writeWeight_errOvf (s : State) (d o : Nat) (v : Byte) : (writeWeight s d o v).errOvf = s.errOvf := rfl
@[simp] theorem writeWeight_ready (s : State) (d o : Nat) (v : Byte) : (writeWeight s d o v).ready = s.ready := rfl
@[simp] theorem writeWeight_failed (s : State) (d o : Nat) (v : Byte) : (writeWeight s d o v).failed = s.failed := rfl
@[simp] theorem writeWeight_power (s : State) (d o : Nat) (v : Byte) : (writeWeight s d o v).power = s.power := rfl
@[simp] theorem writeWeight_harts (s : State) (d o : Nat) (v : Byte) : (writeWeight s d o v).harts = s.harts := rfl
@[simp] theorem writeWeight_msis (s : State) (d o : Nat) (v : Byte) : (writeWeight s d o v).msis = s.msis := rfl
@[simp] theorem writeWeight_completions (s : State) (d o : Nat) (v : Byte) : (writeWeight s d o v).completions = s.completions := rfl
@[simp] theorem writeWeight_mgmt (s : State) (d o : Nat) (v : Byte) : (writeWeight s d o v).mgmt = s.mgmt := rfl
@[simp] theorem writeWeight_pagerequests (s : State) (d o : Nat) (v : Byte) : (writeWeight s d o v).pagerequests = s.pagerequests := rfl
@[simp] theorem writeWeight_clock (s : State) (d o : Nat) (v : Byte) : (writeWeight s d o v).clock = s.clock := rfl
@[simp] theorem writeWeight_hubStart (s : State) (d o : Nat) (v : Byte) : (writeWeight s d o v).hubStart = s.hubStart := rfl
@[simp] theorem writeWeight_dieReady (s : State) (d o : Nat) (v : Byte) : (writeWeight s d o v).dieReady = s.dieReady := rfl
@[simp] theorem writeWeight_avenue (s : State) (d o : Nat) (v : Byte) : (writeWeight s d o v).avenue = s.avenue := rfl
@[simp] theorem writeWeight_refresh (s : State) (d o : Nat) (v : Byte) : (writeWeight s d o v).refresh = s.refresh := rfl
@[simp] theorem writeWeight_refills (s : State) (d o : Nat) (v : Byte) : (writeWeight s d o v).refills = s.refills := rfl
@[simp] theorem writeWeight_issue (s : State) (d o : Nat) (v : Byte) : (writeWeight s d o v).issue = s.issue := rfl
@[simp] theorem writeWeight_hartIssue (s : State) (d o : Nat) (v : Byte) : (writeWeight s d o v).hartIssue = s.hartIssue := rfl
@[simp] theorem writeWeight_agenda (s : State) (d o : Nat) (v : Byte) : (writeWeight s d o v).agenda = s.agenda := rfl
@[simp] theorem writeWeight_backs (s : State) (d o : Nat) (v : Byte) : (writeWeight s d o v).backs = s.backs := rfl
@[simp] theorem writeWeight_fresh (s : State) (d o : Nat) (v : Byte) : (writeWeight s d o v).fresh = s.fresh := rfl
@[simp] theorem writeWeight_nextId (s : State) (d o : Nat) (v : Byte) : (writeWeight s d o v).nextId = s.nextId := rfl

@[simp] theorem Group.setCell_ctx (g : Group) (l r : Nat) (v : Word) : (g.setCell l r v).ctx = g.ctx := rfl
@[simp] theorem Group.setCell_part (g : Group) (l r : Nat) (v : Word) : (g.setCell l r v).part = g.part := rfl
@[simp] theorem Group.setCell_pasid (g : Group) (l r : Nat) (v : Word) : (g.setCell l r v).pasid = g.pasid := rfl
@[simp] theorem Group.setCell_uid (g : Group) (l r : Nat) (v : Word) : (g.setCell l r v).uid = g.uid := rfl
@[simp] theorem Group.setCell_pos (g : Group) (l r : Nat) (v : Word) : (g.setCell l r v).pos = g.pos := rfl
@[simp] theorem Group.setCell_width (g : Group) (l r : Nat) (v : Word) : (g.setCell l r v).width = g.width := rfl
@[simp] theorem Group.setCell_rows (g : Group) (l r : Nat) (v : Word) : (g.setCell l r v).rows = g.rows := rfl
@[simp] theorem Group.setCell_lslots (g : Group) (l r : Nat) (v : Word) : (g.setCell l r v).lslots = g.lslots := rfl
@[simp] theorem Group.setCell_scratch (g : Group) (l r : Nat) (v : Word) : (g.setCell l r v).scratch = g.scratch := rfl
@[simp] theorem Group.setCell_laneOrigin (g : Group) (l r : Nat) (v : Word) : (g.setCell l r v).laneOrigin = g.laneOrigin := rfl
@[simp] theorem Group.setCell_rowOrigin (g : Group) (l r : Nat) (v : Word) : (g.setCell l r v).rowOrigin = g.rowOrigin := rfl
@[simp] theorem Group.setCell_spOrigin (g : Group) (l r : Nat) (v : Word) : (g.setCell l r v).spOrigin = g.spOrigin := rfl
@[simp] theorem Group.setCell_lsOrigin (g : Group) (l r : Nat) (v : Word) : (g.setCell l r v).lsOrigin = g.lsOrigin := rfl
@[simp] theorem Group.setCell_grank (g : Group) (l r : Nat) (v : Word) : (g.setCell l r v).grank = g.grank := rfl
@[simp] theorem Group.setCell_stage (g : Group) (l r : Nat) (v : Word) : (g.setCell l r v).stage = g.stage := rfl
@[simp] theorem Group.setCell_clsize (g : Group) (l r : Nat) (v : Word) : (g.setCell l r v).clsize = g.clsize := rfl
@[simp] theorem Group.setCell_nstage (g : Group) (l r : Nat) (v : Word) : (g.setCell l r v).nstage = g.nstage := rfl
@[simp] theorem Group.setCell_clx (g : Group) (l r : Nat) (v : Word) : (g.setCell l r v).clx = g.clx := rfl
@[simp] theorem Group.setCell_cly (g : Group) (l r : Nat) (v : Word) : (g.setCell l r v).cly = g.cly := rfl
@[simp] theorem Group.setCell_clz (g : Group) (l r : Nat) (v : Word) : (g.setCell l r v).clz = g.clz := rfl
@[simp] theorem Group.setCell_prio (g : Group) (l r : Nat) (v : Word) : (g.setCell l r v).prio = g.prio := rfl
@[simp] theorem Group.setCell_launch (g : Group) (l r : Nat) (v : Word) : (g.setCell l r v).launch = g.launch := rfl
@[simp] theorem Group.setCell_regions (g : Group) (l r : Nat) (v : Word) : (g.setCell l r v).regions = g.regions := rfl
@[simp] theorem Group.setCell_skipcnt (g : Group) (l r : Nat) (v : Word) : (g.setCell l r v).skipcnt = g.skipcnt := rfl
@[simp] theorem Group.setCell_member (g : Group) (l r : Nat) (v : Word) : (g.setCell l r v).member = g.member := rfl
@[simp] theorem Group.setCell_trig (g : Group) (l r : Nat) (v : Word) : (g.setCell l r v).trig = g.trig := rfl
@[simp] theorem Group.setCell_tokens (g : Group) (l r : Nat) (v : Word) : (g.setCell l r v).tokens = g.tokens := rfl
@[simp] theorem Group.setCell_maskWords (g : Group) (l r : Nat) (v : Word) : (g.setCell l r v).maskWords = g.maskWords := rfl
@[simp] theorem Group.setCell_c0 (g : Group) (l r : Nat) (v : Word) : (g.setCell l r v).c0 = g.c0 := rfl
@[simp] theorem Group.setCell_c1 (g : Group) (l r : Nat) (v : Word) : (g.setCell l r v).c1 = g.c1 := rfl
@[simp] theorem Group.setCell_docn (g : Group) (l r : Nat) (v : Word) : (g.setCell l r v).docn = g.docn := rfl
@[simp] theorem Group.setCell_bounds (g : Group) (l r : Nat) (v : Word) : (g.setCell l r v).bounds = g.bounds := rfl
@[simp] theorem Group.setCell_fibres (g : Group) (l r : Nat) (v : Word) : (g.setCell l r v).fibres = g.fibres := rfl
@[simp] theorem Group.setCell_land (g : Group) (l r : Nat) (v : Word) : (g.setCell l r v).land = g.land := rfl
@[simp] theorem Group.setCell_uncommitted (g : Group) (l r : Nat) (v : Word) : (g.setCell l r v).uncommitted = g.uncommitted := rfl
@[simp] theorem Group.setCell_stopping (g : Group) (l r : Nat) (v : Word) : (g.setCell l r v).stopping = g.stopping := rfl
@[simp] theorem Group.setCell_parked (g : Group) (l r : Nat) (v : Word) : (g.setCell l r v).parked = g.parked := rfl
@[simp] theorem Group.setCell_singleStep (g : Group) (l r : Nat) (v : Word) : (g.setCell l r v).singleStep = g.singleStep := rfl
@[simp] theorem Group.setCell_debugPark (g : Group) (l r : Nat) (v : Word) : (g.setCell l r v).debugPark = g.debugPark := rfl
@[simp] theorem Group.setCell_softReq (g : Group) (l r : Nat) (v : Word) : (g.setCell l r v).softReq = g.softReq := rfl
@[simp] theorem Group.setCell_moving (g : Group) (l r : Nat) (v : Word) : (g.setCell l r v).moving = g.moving := rfl
@[simp] theorem Group.setCell_saving (g : Group) (l r : Nat) (v : Word) : (g.setCell l r v).saving = g.saving := rfl
@[simp] theorem Group.setCell_admitted (g : Group) (l r : Nat) (v : Word) : (g.setCell l r v).admitted = g.admitted := rfl
@[simp] theorem Group.setCell_since (g : Group) (l r : Nat) (v : Word) : (g.setCell l r v).since = g.since := rfl
@[simp] theorem Group.setCell_engines (g : Group) (l r : Nat) (v : Word) : (g.setCell l r v).engines = g.engines := rfl
@[simp] theorem Group.setCell_image (g : Group) (l r : Nat) (v : Word) : (g.setCell l r v).image = g.image := rfl
@[simp] theorem Group.setCell_trigDue (g : Group) (l r : Nat) (v : Word) : (g.setCell l r v).trigDue = g.trigDue := rfl
@[simp] theorem Group.setCell_waited (g : Group) (l r : Nat) (v : Word) : (g.setCell l r v).waited = g.waited := rfl
@[simp] theorem Group.setCell_issuedUntil (g : Group) (l r : Nat) (v : Word) : (g.setCell l r v).issuedUntil = g.issuedUntil := rfl
@[simp] theorem Group.setCell_starvedAt (g : Group) (l r : Nat) (v : Word) : (g.setCell l r v).starvedAt = g.starvedAt := rfl
@[simp] theorem Group.setCell_lastA (g : Group) (l r : Nat) (v : Word) : (g.setCell l r v).lastA = g.lastA := rfl

@[simp] theorem Group.setFibre_ctx (g : Group) (l : Nat) (f : Fibre) : (g.setFibre l f).ctx = g.ctx := rfl
@[simp] theorem Group.setFibre_part (g : Group) (l : Nat) (f : Fibre) : (g.setFibre l f).part = g.part := rfl
@[simp] theorem Group.setFibre_pasid (g : Group) (l : Nat) (f : Fibre) : (g.setFibre l f).pasid = g.pasid := rfl
@[simp] theorem Group.setFibre_uid (g : Group) (l : Nat) (f : Fibre) : (g.setFibre l f).uid = g.uid := rfl
@[simp] theorem Group.setFibre_pos (g : Group) (l : Nat) (f : Fibre) : (g.setFibre l f).pos = g.pos := rfl
@[simp] theorem Group.setFibre_width (g : Group) (l : Nat) (f : Fibre) : (g.setFibre l f).width = g.width := rfl
@[simp] theorem Group.setFibre_rows (g : Group) (l : Nat) (f : Fibre) : (g.setFibre l f).rows = g.rows := rfl
@[simp] theorem Group.setFibre_lslots (g : Group) (l : Nat) (f : Fibre) : (g.setFibre l f).lslots = g.lslots := rfl
@[simp] theorem Group.setFibre_scratch (g : Group) (l : Nat) (f : Fibre) : (g.setFibre l f).scratch = g.scratch := rfl
@[simp] theorem Group.setFibre_laneOrigin (g : Group) (l : Nat) (f : Fibre) : (g.setFibre l f).laneOrigin = g.laneOrigin := rfl
@[simp] theorem Group.setFibre_rowOrigin (g : Group) (l : Nat) (f : Fibre) : (g.setFibre l f).rowOrigin = g.rowOrigin := rfl
@[simp] theorem Group.setFibre_spOrigin (g : Group) (l : Nat) (f : Fibre) : (g.setFibre l f).spOrigin = g.spOrigin := rfl
@[simp] theorem Group.setFibre_lsOrigin (g : Group) (l : Nat) (f : Fibre) : (g.setFibre l f).lsOrigin = g.lsOrigin := rfl
@[simp] theorem Group.setFibre_grank (g : Group) (l : Nat) (f : Fibre) : (g.setFibre l f).grank = g.grank := rfl
@[simp] theorem Group.setFibre_stage (g : Group) (l : Nat) (f : Fibre) : (g.setFibre l f).stage = g.stage := rfl
@[simp] theorem Group.setFibre_clsize (g : Group) (l : Nat) (f : Fibre) : (g.setFibre l f).clsize = g.clsize := rfl
@[simp] theorem Group.setFibre_nstage (g : Group) (l : Nat) (f : Fibre) : (g.setFibre l f).nstage = g.nstage := rfl
@[simp] theorem Group.setFibre_clx (g : Group) (l : Nat) (f : Fibre) : (g.setFibre l f).clx = g.clx := rfl
@[simp] theorem Group.setFibre_cly (g : Group) (l : Nat) (f : Fibre) : (g.setFibre l f).cly = g.cly := rfl
@[simp] theorem Group.setFibre_clz (g : Group) (l : Nat) (f : Fibre) : (g.setFibre l f).clz = g.clz := rfl
@[simp] theorem Group.setFibre_prio (g : Group) (l : Nat) (f : Fibre) : (g.setFibre l f).prio = g.prio := rfl
@[simp] theorem Group.setFibre_launch (g : Group) (l : Nat) (f : Fibre) : (g.setFibre l f).launch = g.launch := rfl
@[simp] theorem Group.setFibre_regions (g : Group) (l : Nat) (f : Fibre) : (g.setFibre l f).regions = g.regions := rfl
@[simp] theorem Group.setFibre_skipcnt (g : Group) (l : Nat) (f : Fibre) : (g.setFibre l f).skipcnt = g.skipcnt := rfl
@[simp] theorem Group.setFibre_member (g : Group) (l : Nat) (f : Fibre) : (g.setFibre l f).member = g.member := rfl
@[simp] theorem Group.setFibre_trig (g : Group) (l : Nat) (f : Fibre) : (g.setFibre l f).trig = g.trig := rfl
@[simp] theorem Group.setFibre_tokens (g : Group) (l : Nat) (f : Fibre) : (g.setFibre l f).tokens = g.tokens := rfl
@[simp] theorem Group.setFibre_maskWords (g : Group) (l : Nat) (f : Fibre) : (g.setFibre l f).maskWords = g.maskWords := rfl
@[simp] theorem Group.setFibre_c0 (g : Group) (l : Nat) (f : Fibre) : (g.setFibre l f).c0 = g.c0 := rfl
@[simp] theorem Group.setFibre_c1 (g : Group) (l : Nat) (f : Fibre) : (g.setFibre l f).c1 = g.c1 := rfl
@[simp] theorem Group.setFibre_docn (g : Group) (l : Nat) (f : Fibre) : (g.setFibre l f).docn = g.docn := rfl
@[simp] theorem Group.setFibre_bounds (g : Group) (l : Nat) (f : Fibre) : (g.setFibre l f).bounds = g.bounds := rfl
@[simp] theorem Group.setFibre_regs (g : Group) (l : Nat) (f : Fibre) : (g.setFibre l f).regs = g.regs := rfl
@[simp] theorem Group.setFibre_land (g : Group) (l : Nat) (f : Fibre) : (g.setFibre l f).land = g.land := rfl
@[simp] theorem Group.setFibre_uncommitted (g : Group) (l : Nat) (f : Fibre) : (g.setFibre l f).uncommitted = g.uncommitted := rfl
@[simp] theorem Group.setFibre_stopping (g : Group) (l : Nat) (f : Fibre) : (g.setFibre l f).stopping = g.stopping := rfl
@[simp] theorem Group.setFibre_parked (g : Group) (l : Nat) (f : Fibre) : (g.setFibre l f).parked = g.parked := rfl
@[simp] theorem Group.setFibre_singleStep (g : Group) (l : Nat) (f : Fibre) : (g.setFibre l f).singleStep = g.singleStep := rfl
@[simp] theorem Group.setFibre_debugPark (g : Group) (l : Nat) (f : Fibre) : (g.setFibre l f).debugPark = g.debugPark := rfl
@[simp] theorem Group.setFibre_softReq (g : Group) (l : Nat) (f : Fibre) : (g.setFibre l f).softReq = g.softReq := rfl
@[simp] theorem Group.setFibre_moving (g : Group) (l : Nat) (f : Fibre) : (g.setFibre l f).moving = g.moving := rfl
@[simp] theorem Group.setFibre_saving (g : Group) (l : Nat) (f : Fibre) : (g.setFibre l f).saving = g.saving := rfl
@[simp] theorem Group.setFibre_admitted (g : Group) (l : Nat) (f : Fibre) : (g.setFibre l f).admitted = g.admitted := rfl
@[simp] theorem Group.setFibre_since (g : Group) (l : Nat) (f : Fibre) : (g.setFibre l f).since = g.since := rfl
@[simp] theorem Group.setFibre_engines (g : Group) (l : Nat) (f : Fibre) : (g.setFibre l f).engines = g.engines := rfl
@[simp] theorem Group.setFibre_image (g : Group) (l : Nat) (f : Fibre) : (g.setFibre l f).image = g.image := rfl
@[simp] theorem Group.setFibre_trigDue (g : Group) (l : Nat) (f : Fibre) : (g.setFibre l f).trigDue = g.trigDue := rfl
@[simp] theorem Group.setFibre_waited (g : Group) (l : Nat) (f : Fibre) : (g.setFibre l f).waited = g.waited := rfl
@[simp] theorem Group.setFibre_issuedUntil (g : Group) (l : Nat) (f : Fibre) : (g.setFibre l f).issuedUntil = g.issuedUntil := rfl
@[simp] theorem Group.setFibre_starvedAt (g : Group) (l : Nat) (f : Fibre) : (g.setFibre l f).starvedAt = g.starvedAt := rfl
@[simp] theorem Group.setFibre_lastA (g : Group) (l : Nat) (f : Fibre) : (g.setFibre l f).lastA = g.lastA := rfl

@[simp] theorem Group.modFibre_ctx (g : Group) (l : Nat) (h : Fibre → Fibre) : (g.modFibre l h).ctx = g.ctx := rfl
@[simp] theorem Group.modFibre_part (g : Group) (l : Nat) (h : Fibre → Fibre) : (g.modFibre l h).part = g.part := rfl
@[simp] theorem Group.modFibre_pasid (g : Group) (l : Nat) (h : Fibre → Fibre) : (g.modFibre l h).pasid = g.pasid := rfl
@[simp] theorem Group.modFibre_uid (g : Group) (l : Nat) (h : Fibre → Fibre) : (g.modFibre l h).uid = g.uid := rfl
@[simp] theorem Group.modFibre_pos (g : Group) (l : Nat) (h : Fibre → Fibre) : (g.modFibre l h).pos = g.pos := rfl
@[simp] theorem Group.modFibre_width (g : Group) (l : Nat) (h : Fibre → Fibre) : (g.modFibre l h).width = g.width := rfl
@[simp] theorem Group.modFibre_rows (g : Group) (l : Nat) (h : Fibre → Fibre) : (g.modFibre l h).rows = g.rows := rfl
@[simp] theorem Group.modFibre_lslots (g : Group) (l : Nat) (h : Fibre → Fibre) : (g.modFibre l h).lslots = g.lslots := rfl
@[simp] theorem Group.modFibre_scratch (g : Group) (l : Nat) (h : Fibre → Fibre) : (g.modFibre l h).scratch = g.scratch := rfl
@[simp] theorem Group.modFibre_laneOrigin (g : Group) (l : Nat) (h : Fibre → Fibre) : (g.modFibre l h).laneOrigin = g.laneOrigin := rfl
@[simp] theorem Group.modFibre_rowOrigin (g : Group) (l : Nat) (h : Fibre → Fibre) : (g.modFibre l h).rowOrigin = g.rowOrigin := rfl
@[simp] theorem Group.modFibre_spOrigin (g : Group) (l : Nat) (h : Fibre → Fibre) : (g.modFibre l h).spOrigin = g.spOrigin := rfl
@[simp] theorem Group.modFibre_lsOrigin (g : Group) (l : Nat) (h : Fibre → Fibre) : (g.modFibre l h).lsOrigin = g.lsOrigin := rfl
@[simp] theorem Group.modFibre_grank (g : Group) (l : Nat) (h : Fibre → Fibre) : (g.modFibre l h).grank = g.grank := rfl
@[simp] theorem Group.modFibre_stage (g : Group) (l : Nat) (h : Fibre → Fibre) : (g.modFibre l h).stage = g.stage := rfl
@[simp] theorem Group.modFibre_clsize (g : Group) (l : Nat) (h : Fibre → Fibre) : (g.modFibre l h).clsize = g.clsize := rfl
@[simp] theorem Group.modFibre_nstage (g : Group) (l : Nat) (h : Fibre → Fibre) : (g.modFibre l h).nstage = g.nstage := rfl
@[simp] theorem Group.modFibre_clx (g : Group) (l : Nat) (h : Fibre → Fibre) : (g.modFibre l h).clx = g.clx := rfl
@[simp] theorem Group.modFibre_cly (g : Group) (l : Nat) (h : Fibre → Fibre) : (g.modFibre l h).cly = g.cly := rfl
@[simp] theorem Group.modFibre_clz (g : Group) (l : Nat) (h : Fibre → Fibre) : (g.modFibre l h).clz = g.clz := rfl
@[simp] theorem Group.modFibre_prio (g : Group) (l : Nat) (h : Fibre → Fibre) : (g.modFibre l h).prio = g.prio := rfl
@[simp] theorem Group.modFibre_launch (g : Group) (l : Nat) (h : Fibre → Fibre) : (g.modFibre l h).launch = g.launch := rfl
@[simp] theorem Group.modFibre_regions (g : Group) (l : Nat) (h : Fibre → Fibre) : (g.modFibre l h).regions = g.regions := rfl
@[simp] theorem Group.modFibre_skipcnt (g : Group) (l : Nat) (h : Fibre → Fibre) : (g.modFibre l h).skipcnt = g.skipcnt := rfl
@[simp] theorem Group.modFibre_member (g : Group) (l : Nat) (h : Fibre → Fibre) : (g.modFibre l h).member = g.member := rfl
@[simp] theorem Group.modFibre_trig (g : Group) (l : Nat) (h : Fibre → Fibre) : (g.modFibre l h).trig = g.trig := rfl
@[simp] theorem Group.modFibre_tokens (g : Group) (l : Nat) (h : Fibre → Fibre) : (g.modFibre l h).tokens = g.tokens := rfl
@[simp] theorem Group.modFibre_maskWords (g : Group) (l : Nat) (h : Fibre → Fibre) : (g.modFibre l h).maskWords = g.maskWords := rfl
@[simp] theorem Group.modFibre_c0 (g : Group) (l : Nat) (h : Fibre → Fibre) : (g.modFibre l h).c0 = g.c0 := rfl
@[simp] theorem Group.modFibre_c1 (g : Group) (l : Nat) (h : Fibre → Fibre) : (g.modFibre l h).c1 = g.c1 := rfl
@[simp] theorem Group.modFibre_docn (g : Group) (l : Nat) (h : Fibre → Fibre) : (g.modFibre l h).docn = g.docn := rfl
@[simp] theorem Group.modFibre_bounds (g : Group) (l : Nat) (h : Fibre → Fibre) : (g.modFibre l h).bounds = g.bounds := rfl
@[simp] theorem Group.modFibre_regs (g : Group) (l : Nat) (h : Fibre → Fibre) : (g.modFibre l h).regs = g.regs := rfl
@[simp] theorem Group.modFibre_land (g : Group) (l : Nat) (h : Fibre → Fibre) : (g.modFibre l h).land = g.land := rfl
@[simp] theorem Group.modFibre_uncommitted (g : Group) (l : Nat) (h : Fibre → Fibre) : (g.modFibre l h).uncommitted = g.uncommitted := rfl
@[simp] theorem Group.modFibre_stopping (g : Group) (l : Nat) (h : Fibre → Fibre) : (g.modFibre l h).stopping = g.stopping := rfl
@[simp] theorem Group.modFibre_parked (g : Group) (l : Nat) (h : Fibre → Fibre) : (g.modFibre l h).parked = g.parked := rfl
@[simp] theorem Group.modFibre_singleStep (g : Group) (l : Nat) (h : Fibre → Fibre) : (g.modFibre l h).singleStep = g.singleStep := rfl
@[simp] theorem Group.modFibre_debugPark (g : Group) (l : Nat) (h : Fibre → Fibre) : (g.modFibre l h).debugPark = g.debugPark := rfl
@[simp] theorem Group.modFibre_softReq (g : Group) (l : Nat) (h : Fibre → Fibre) : (g.modFibre l h).softReq = g.softReq := rfl
@[simp] theorem Group.modFibre_moving (g : Group) (l : Nat) (h : Fibre → Fibre) : (g.modFibre l h).moving = g.moving := rfl
@[simp] theorem Group.modFibre_saving (g : Group) (l : Nat) (h : Fibre → Fibre) : (g.modFibre l h).saving = g.saving := rfl
@[simp] theorem Group.modFibre_admitted (g : Group) (l : Nat) (h : Fibre → Fibre) : (g.modFibre l h).admitted = g.admitted := rfl
@[simp] theorem Group.modFibre_since (g : Group) (l : Nat) (h : Fibre → Fibre) : (g.modFibre l h).since = g.since := rfl
@[simp] theorem Group.modFibre_engines (g : Group) (l : Nat) (h : Fibre → Fibre) : (g.modFibre l h).engines = g.engines := rfl
@[simp] theorem Group.modFibre_image (g : Group) (l : Nat) (h : Fibre → Fibre) : (g.modFibre l h).image = g.image := rfl
@[simp] theorem Group.modFibre_trigDue (g : Group) (l : Nat) (h : Fibre → Fibre) : (g.modFibre l h).trigDue = g.trigDue := rfl
@[simp] theorem Group.modFibre_waited (g : Group) (l : Nat) (h : Fibre → Fibre) : (g.modFibre l h).waited = g.waited := rfl
@[simp] theorem Group.modFibre_issuedUntil (g : Group) (l : Nat) (h : Fibre → Fibre) : (g.modFibre l h).issuedUntil = g.issuedUntil := rfl
@[simp] theorem Group.modFibre_starvedAt (g : Group) (l : Nat) (h : Fibre → Fibre) : (g.modFibre l h).starvedAt = g.starvedAt := rfl
@[simp] theorem Group.modFibre_lastA (g : Group) (l : Nat) (h : Fibre → Fibre) : (g.modFibre l h).lastA = g.lastA := rfl

@[simp] theorem Group.setLand_ctx (g : Group) (a r c : Nat) (v : Word) : (g.setLand a r c v).ctx = g.ctx := rfl
@[simp] theorem Group.setLand_part (g : Group) (a r c : Nat) (v : Word) : (g.setLand a r c v).part = g.part := rfl
@[simp] theorem Group.setLand_pasid (g : Group) (a r c : Nat) (v : Word) : (g.setLand a r c v).pasid = g.pasid := rfl
@[simp] theorem Group.setLand_uid (g : Group) (a r c : Nat) (v : Word) : (g.setLand a r c v).uid = g.uid := rfl
@[simp] theorem Group.setLand_pos (g : Group) (a r c : Nat) (v : Word) : (g.setLand a r c v).pos = g.pos := rfl
@[simp] theorem Group.setLand_width (g : Group) (a r c : Nat) (v : Word) : (g.setLand a r c v).width = g.width := rfl
@[simp] theorem Group.setLand_rows (g : Group) (a r c : Nat) (v : Word) : (g.setLand a r c v).rows = g.rows := rfl
@[simp] theorem Group.setLand_lslots (g : Group) (a r c : Nat) (v : Word) : (g.setLand a r c v).lslots = g.lslots := rfl
@[simp] theorem Group.setLand_scratch (g : Group) (a r c : Nat) (v : Word) : (g.setLand a r c v).scratch = g.scratch := rfl
@[simp] theorem Group.setLand_laneOrigin (g : Group) (a r c : Nat) (v : Word) : (g.setLand a r c v).laneOrigin = g.laneOrigin := rfl
@[simp] theorem Group.setLand_rowOrigin (g : Group) (a r c : Nat) (v : Word) : (g.setLand a r c v).rowOrigin = g.rowOrigin := rfl
@[simp] theorem Group.setLand_spOrigin (g : Group) (a r c : Nat) (v : Word) : (g.setLand a r c v).spOrigin = g.spOrigin := rfl
@[simp] theorem Group.setLand_lsOrigin (g : Group) (a r c : Nat) (v : Word) : (g.setLand a r c v).lsOrigin = g.lsOrigin := rfl
@[simp] theorem Group.setLand_grank (g : Group) (a r c : Nat) (v : Word) : (g.setLand a r c v).grank = g.grank := rfl
@[simp] theorem Group.setLand_stage (g : Group) (a r c : Nat) (v : Word) : (g.setLand a r c v).stage = g.stage := rfl
@[simp] theorem Group.setLand_clsize (g : Group) (a r c : Nat) (v : Word) : (g.setLand a r c v).clsize = g.clsize := rfl
@[simp] theorem Group.setLand_nstage (g : Group) (a r c : Nat) (v : Word) : (g.setLand a r c v).nstage = g.nstage := rfl
@[simp] theorem Group.setLand_clx (g : Group) (a r c : Nat) (v : Word) : (g.setLand a r c v).clx = g.clx := rfl
@[simp] theorem Group.setLand_cly (g : Group) (a r c : Nat) (v : Word) : (g.setLand a r c v).cly = g.cly := rfl
@[simp] theorem Group.setLand_clz (g : Group) (a r c : Nat) (v : Word) : (g.setLand a r c v).clz = g.clz := rfl
@[simp] theorem Group.setLand_prio (g : Group) (a r c : Nat) (v : Word) : (g.setLand a r c v).prio = g.prio := rfl
@[simp] theorem Group.setLand_launch (g : Group) (a r c : Nat) (v : Word) : (g.setLand a r c v).launch = g.launch := rfl
@[simp] theorem Group.setLand_regions (g : Group) (a r c : Nat) (v : Word) : (g.setLand a r c v).regions = g.regions := rfl
@[simp] theorem Group.setLand_skipcnt (g : Group) (a r c : Nat) (v : Word) : (g.setLand a r c v).skipcnt = g.skipcnt := rfl
@[simp] theorem Group.setLand_member (g : Group) (a r c : Nat) (v : Word) : (g.setLand a r c v).member = g.member := rfl
@[simp] theorem Group.setLand_trig (g : Group) (a r c : Nat) (v : Word) : (g.setLand a r c v).trig = g.trig := rfl
@[simp] theorem Group.setLand_tokens (g : Group) (a r c : Nat) (v : Word) : (g.setLand a r c v).tokens = g.tokens := rfl
@[simp] theorem Group.setLand_maskWords (g : Group) (a r c : Nat) (v : Word) : (g.setLand a r c v).maskWords = g.maskWords := rfl
@[simp] theorem Group.setLand_c0 (g : Group) (a r c : Nat) (v : Word) : (g.setLand a r c v).c0 = g.c0 := rfl
@[simp] theorem Group.setLand_c1 (g : Group) (a r c : Nat) (v : Word) : (g.setLand a r c v).c1 = g.c1 := rfl
@[simp] theorem Group.setLand_docn (g : Group) (a r c : Nat) (v : Word) : (g.setLand a r c v).docn = g.docn := rfl
@[simp] theorem Group.setLand_bounds (g : Group) (a r c : Nat) (v : Word) : (g.setLand a r c v).bounds = g.bounds := rfl
@[simp] theorem Group.setLand_fibres (g : Group) (a r c : Nat) (v : Word) : (g.setLand a r c v).fibres = g.fibres := rfl
@[simp] theorem Group.setLand_regs (g : Group) (a r c : Nat) (v : Word) : (g.setLand a r c v).regs = g.regs := rfl
@[simp] theorem Group.setLand_uncommitted (g : Group) (a r c : Nat) (v : Word) : (g.setLand a r c v).uncommitted = g.uncommitted := rfl
@[simp] theorem Group.setLand_stopping (g : Group) (a r c : Nat) (v : Word) : (g.setLand a r c v).stopping = g.stopping := rfl
@[simp] theorem Group.setLand_parked (g : Group) (a r c : Nat) (v : Word) : (g.setLand a r c v).parked = g.parked := rfl
@[simp] theorem Group.setLand_singleStep (g : Group) (a r c : Nat) (v : Word) : (g.setLand a r c v).singleStep = g.singleStep := rfl
@[simp] theorem Group.setLand_debugPark (g : Group) (a r c : Nat) (v : Word) : (g.setLand a r c v).debugPark = g.debugPark := rfl
@[simp] theorem Group.setLand_softReq (g : Group) (a r c : Nat) (v : Word) : (g.setLand a r c v).softReq = g.softReq := rfl
@[simp] theorem Group.setLand_moving (g : Group) (a r c : Nat) (v : Word) : (g.setLand a r c v).moving = g.moving := rfl
@[simp] theorem Group.setLand_saving (g : Group) (a r c : Nat) (v : Word) : (g.setLand a r c v).saving = g.saving := rfl
@[simp] theorem Group.setLand_admitted (g : Group) (a r c : Nat) (v : Word) : (g.setLand a r c v).admitted = g.admitted := rfl
@[simp] theorem Group.setLand_since (g : Group) (a r c : Nat) (v : Word) : (g.setLand a r c v).since = g.since := rfl
@[simp] theorem Group.setLand_engines (g : Group) (a r c : Nat) (v : Word) : (g.setLand a r c v).engines = g.engines := rfl
@[simp] theorem Group.setLand_image (g : Group) (a r c : Nat) (v : Word) : (g.setLand a r c v).image = g.image := rfl
@[simp] theorem Group.setLand_trigDue (g : Group) (a r c : Nat) (v : Word) : (g.setLand a r c v).trigDue = g.trigDue := rfl
@[simp] theorem Group.setLand_waited (g : Group) (a r c : Nat) (v : Word) : (g.setLand a r c v).waited = g.waited := rfl
@[simp] theorem Group.setLand_issuedUntil (g : Group) (a r c : Nat) (v : Word) : (g.setLand a r c v).issuedUntil = g.issuedUntil := rfl
@[simp] theorem Group.setLand_starvedAt (g : Group) (a r c : Nat) (v : Word) : (g.setLand a r c v).starvedAt = g.starvedAt := rfl
@[simp] theorem Group.setLand_lastA (g : Group) (a r c : Nat) (v : Word) : (g.setLand a r c v).lastA = g.lastA := rfl

@[simp] theorem Group.setReg_ctx (g : Group) (l r : Nat) (v : Word) : (g.setReg l r v).ctx = g.ctx := rfl
@[simp] theorem Group.setReg_part (g : Group) (l r : Nat) (v : Word) : (g.setReg l r v).part = g.part := rfl
@[simp] theorem Group.setReg_pasid (g : Group) (l r : Nat) (v : Word) : (g.setReg l r v).pasid = g.pasid := rfl
@[simp] theorem Group.setReg_uid (g : Group) (l r : Nat) (v : Word) : (g.setReg l r v).uid = g.uid := rfl
@[simp] theorem Group.setReg_pos (g : Group) (l r : Nat) (v : Word) : (g.setReg l r v).pos = g.pos := rfl
@[simp] theorem Group.setReg_width (g : Group) (l r : Nat) (v : Word) : (g.setReg l r v).width = g.width := rfl
@[simp] theorem Group.setReg_rows (g : Group) (l r : Nat) (v : Word) : (g.setReg l r v).rows = g.rows := rfl
@[simp] theorem Group.setReg_lslots (g : Group) (l r : Nat) (v : Word) : (g.setReg l r v).lslots = g.lslots := rfl
@[simp] theorem Group.setReg_scratch (g : Group) (l r : Nat) (v : Word) : (g.setReg l r v).scratch = g.scratch := rfl
@[simp] theorem Group.setReg_laneOrigin (g : Group) (l r : Nat) (v : Word) : (g.setReg l r v).laneOrigin = g.laneOrigin := rfl
@[simp] theorem Group.setReg_rowOrigin (g : Group) (l r : Nat) (v : Word) : (g.setReg l r v).rowOrigin = g.rowOrigin := rfl
@[simp] theorem Group.setReg_spOrigin (g : Group) (l r : Nat) (v : Word) : (g.setReg l r v).spOrigin = g.spOrigin := rfl
@[simp] theorem Group.setReg_lsOrigin (g : Group) (l r : Nat) (v : Word) : (g.setReg l r v).lsOrigin = g.lsOrigin := rfl
@[simp] theorem Group.setReg_grank (g : Group) (l r : Nat) (v : Word) : (g.setReg l r v).grank = g.grank := rfl
@[simp] theorem Group.setReg_stage (g : Group) (l r : Nat) (v : Word) : (g.setReg l r v).stage = g.stage := rfl
@[simp] theorem Group.setReg_clsize (g : Group) (l r : Nat) (v : Word) : (g.setReg l r v).clsize = g.clsize := rfl
@[simp] theorem Group.setReg_nstage (g : Group) (l r : Nat) (v : Word) : (g.setReg l r v).nstage = g.nstage := rfl
@[simp] theorem Group.setReg_clx (g : Group) (l r : Nat) (v : Word) : (g.setReg l r v).clx = g.clx := rfl
@[simp] theorem Group.setReg_cly (g : Group) (l r : Nat) (v : Word) : (g.setReg l r v).cly = g.cly := rfl
@[simp] theorem Group.setReg_clz (g : Group) (l r : Nat) (v : Word) : (g.setReg l r v).clz = g.clz := rfl
@[simp] theorem Group.setReg_prio (g : Group) (l r : Nat) (v : Word) : (g.setReg l r v).prio = g.prio := rfl
@[simp] theorem Group.setReg_launch (g : Group) (l r : Nat) (v : Word) : (g.setReg l r v).launch = g.launch := rfl
@[simp] theorem Group.setReg_regions (g : Group) (l r : Nat) (v : Word) : (g.setReg l r v).regions = g.regions := rfl
@[simp] theorem Group.setReg_skipcnt (g : Group) (l r : Nat) (v : Word) : (g.setReg l r v).skipcnt = g.skipcnt := rfl
@[simp] theorem Group.setReg_member (g : Group) (l r : Nat) (v : Word) : (g.setReg l r v).member = g.member := rfl
@[simp] theorem Group.setReg_trig (g : Group) (l r : Nat) (v : Word) : (g.setReg l r v).trig = g.trig := rfl
@[simp] theorem Group.setReg_tokens (g : Group) (l r : Nat) (v : Word) : (g.setReg l r v).tokens = g.tokens := rfl
@[simp] theorem Group.setReg_maskWords (g : Group) (l r : Nat) (v : Word) : (g.setReg l r v).maskWords = g.maskWords := rfl
@[simp] theorem Group.setReg_c0 (g : Group) (l r : Nat) (v : Word) : (g.setReg l r v).c0 = g.c0 := rfl
@[simp] theorem Group.setReg_c1 (g : Group) (l r : Nat) (v : Word) : (g.setReg l r v).c1 = g.c1 := rfl
@[simp] theorem Group.setReg_docn (g : Group) (l r : Nat) (v : Word) : (g.setReg l r v).docn = g.docn := rfl
@[simp] theorem Group.setReg_bounds (g : Group) (l r : Nat) (v : Word) : (g.setReg l r v).bounds = g.bounds := rfl
@[simp] theorem Group.setReg_fibres (g : Group) (l r : Nat) (v : Word) : (g.setReg l r v).fibres = g.fibres := rfl
@[simp] theorem Group.setReg_land (g : Group) (l r : Nat) (v : Word) : (g.setReg l r v).land = g.land := rfl
@[simp] theorem Group.setReg_uncommitted (g : Group) (l r : Nat) (v : Word) : (g.setReg l r v).uncommitted = g.uncommitted := rfl
@[simp] theorem Group.setReg_stopping (g : Group) (l r : Nat) (v : Word) : (g.setReg l r v).stopping = g.stopping := rfl
@[simp] theorem Group.setReg_parked (g : Group) (l r : Nat) (v : Word) : (g.setReg l r v).parked = g.parked := rfl
@[simp] theorem Group.setReg_singleStep (g : Group) (l r : Nat) (v : Word) : (g.setReg l r v).singleStep = g.singleStep := rfl
@[simp] theorem Group.setReg_debugPark (g : Group) (l r : Nat) (v : Word) : (g.setReg l r v).debugPark = g.debugPark := rfl
@[simp] theorem Group.setReg_softReq (g : Group) (l r : Nat) (v : Word) : (g.setReg l r v).softReq = g.softReq := rfl
@[simp] theorem Group.setReg_moving (g : Group) (l r : Nat) (v : Word) : (g.setReg l r v).moving = g.moving := rfl
@[simp] theorem Group.setReg_saving (g : Group) (l r : Nat) (v : Word) : (g.setReg l r v).saving = g.saving := rfl
@[simp] theorem Group.setReg_admitted (g : Group) (l r : Nat) (v : Word) : (g.setReg l r v).admitted = g.admitted := rfl
@[simp] theorem Group.setReg_since (g : Group) (l r : Nat) (v : Word) : (g.setReg l r v).since = g.since := rfl
@[simp] theorem Group.setReg_engines (g : Group) (l r : Nat) (v : Word) : (g.setReg l r v).engines = g.engines := rfl
@[simp] theorem Group.setReg_image (g : Group) (l r : Nat) (v : Word) : (g.setReg l r v).image = g.image := rfl
@[simp] theorem Group.setReg_trigDue (g : Group) (l r : Nat) (v : Word) : (g.setReg l r v).trigDue = g.trigDue := rfl
@[simp] theorem Group.setReg_waited (g : Group) (l r : Nat) (v : Word) : (g.setReg l r v).waited = g.waited := rfl
@[simp] theorem Group.setReg_issuedUntil (g : Group) (l r : Nat) (v : Word) : (g.setReg l r v).issuedUntil = g.issuedUntil := rfl
@[simp] theorem Group.setReg_starvedAt (g : Group) (l r : Nat) (v : Word) : (g.setReg l r v).starvedAt = g.starvedAt := rfl
@[simp] theorem Group.setReg_lastA (g : Group) (l r : Nat) (v : Word) : (g.setReg l r v).lastA = g.lastA := rfl

@[simp] theorem pushLatch_slot (f : Fibre) (a b : Nat) (v : Word) : (pushLatch f a b v).slot = f.slot := rfl
@[simp] theorem pushLatch_pc (f : Fibre) (a b : Nat) (v : Word) : (pushLatch f a b v).pc = f.pc := rfl
@[simp] theorem pushLatch_pw (f : Fibre) (a b : Nat) (v : Word) : (pushLatch f a b v).pw = f.pw := rfl
@[simp] theorem pushLatch_wb (f : Fibre) (a b : Nat) (v : Word) : (pushLatch f a b v).wb = f.wb := rfl
@[simp] theorem pushLatch_progress (f : Fibre) (a b : Nat) (v : Word) : (pushLatch f a b v).progress = f.progress := rfl
@[simp] theorem pushLatch_fstat (f : Fibre) (a b : Nat) (v : Word) : (pushLatch f a b v).fstat = f.fstat := rfl
@[simp] theorem pushLatch_cycleh (f : Fibre) (a b : Nat) (v : Word) : (pushLatch f a b v).cycleh = f.cycleh := rfl
@[simp] theorem pushLatch_yielded (f : Fibre) (a b : Nat) (v : Word) : (pushLatch f a b v).yielded = f.yielded := rfl
@[simp] theorem pushLatch_readyAt (f : Fibre) (a b : Nat) (v : Word) : (pushLatch f a b v).readyAt = f.readyAt := rfl
@[simp] theorem pushLatch_avail (f : Fibre) (a b : Nat) (v : Word) : (pushLatch f a b v).avail = f.avail := rfl
@[simp] theorem pushLatch_packet (f : Fibre) (a b : Nat) (v : Word) : (pushLatch f a b v).packet = f.packet := rfl
@[simp] theorem pushLatch_fetchHeld (f : Fibre) (a b : Nat) (v : Word) : (pushLatch f a b v).fetchHeld = f.fetchHeld := rfl
@[simp] theorem pushLatch_fence (f : Fibre) (a b : Nat) (v : Word) : (pushLatch f a b v).fence = f.fence := rfl
@[simp] theorem pushLatch_pipeHold (f : Fibre) (a b : Nat) (v : Word) : (pushLatch f a b v).pipeHold = f.pipeHold := rfl
@[simp] theorem pushLatch_missed (f : Fibre) (a b : Nat) (v : Word) : (pushLatch f a b v).missed = f.missed := rfl
@[simp] theorem pushLatch_starvedAt (f : Fibre) (a b : Nat) (v : Word) : (pushLatch f a b v).starvedAt = f.starvedAt := rfl
@[simp] theorem pushLatch_passBreak (f : Fibre) (a b : Nat) (v : Word) : (pushLatch f a b v).passBreak = f.passBreak := rfl
@[simp] theorem pushLatch_startAt (f : Fibre) (a b : Nat) (v : Word) : (pushLatch f a b v).startAt = f.startAt := rfl
@[simp] theorem pushLatch_born (f : Fibre) (a b : Nat) (v : Word) : (pushLatch f a b v).born = f.born := rfl
@[simp] theorem pushLatch_done (f : Fibre) (a b : Nat) (v : Word) : (pushLatch f a b v).done = f.done := rfl
@[simp] theorem pushLatch_floor (f : Fibre) (a b : Nat) (v : Word) : (pushLatch f a b v).floor = f.floor := rfl
@[simp] theorem pushLatch_waited (f : Fibre) (a b : Nat) (v : Word) : (pushLatch f a b v).waited = f.waited := rfl
@[simp] theorem pushLatch_fenceFloor (f : Fibre) (a b : Nat) (v : Word) : (pushLatch f a b v).fenceFloor = f.fenceFloor := rfl
@[simp] theorem pushLatch_fetchFloor (f : Fibre) (a b : Nat) (v : Word) : (pushLatch f a b v).fetchFloor = f.fetchFloor := rfl
@[simp] theorem pushLatch_fetchFence (f : Fibre) (a b : Nat) (v : Word) : (pushLatch f a b v).fetchFence = f.fetchFence := rfl
@[simp] theorem pushLatch_behind (f : Fibre) (a b : Nat) (v : Word) : (pushLatch f a b v).behind = f.behind := rfl

@[simp] theorem raiseStatus_slot (f : Fibre) (a : Status) : (raiseStatus f a).slot = f.slot := rfl
@[simp] theorem raiseStatus_pc (f : Fibre) (a : Status) : (raiseStatus f a).pc = f.pc := rfl
@[simp] theorem raiseStatus_pw (f : Fibre) (a : Status) : (raiseStatus f a).pw = f.pw := rfl
@[simp] theorem raiseStatus_wb (f : Fibre) (a : Status) : (raiseStatus f a).wb = f.wb := rfl
@[simp] theorem raiseStatus_progress (f : Fibre) (a : Status) : (raiseStatus f a).progress = f.progress := rfl
@[simp] theorem raiseStatus_cycleh (f : Fibre) (a : Status) : (raiseStatus f a).cycleh = f.cycleh := rfl
@[simp] theorem raiseStatus_latch (f : Fibre) (a : Status) : (raiseStatus f a).latch = f.latch := rfl
@[simp] theorem raiseStatus_latchValid (f : Fibre) (a : Status) : (raiseStatus f a).latchValid = f.latchValid := rfl
@[simp] theorem raiseStatus_yielded (f : Fibre) (a : Status) : (raiseStatus f a).yielded = f.yielded := rfl
@[simp] theorem raiseStatus_readyAt (f : Fibre) (a : Status) : (raiseStatus f a).readyAt = f.readyAt := rfl
@[simp] theorem raiseStatus_avail (f : Fibre) (a : Status) : (raiseStatus f a).avail = f.avail := rfl
@[simp] theorem raiseStatus_packet (f : Fibre) (a : Status) : (raiseStatus f a).packet = f.packet := rfl
@[simp] theorem raiseStatus_fetchHeld (f : Fibre) (a : Status) : (raiseStatus f a).fetchHeld = f.fetchHeld := rfl
@[simp] theorem raiseStatus_fence (f : Fibre) (a : Status) : (raiseStatus f a).fence = f.fence := rfl
@[simp] theorem raiseStatus_pipeHold (f : Fibre) (a : Status) : (raiseStatus f a).pipeHold = f.pipeHold := rfl
@[simp] theorem raiseStatus_missed (f : Fibre) (a : Status) : (raiseStatus f a).missed = f.missed := rfl
@[simp] theorem raiseStatus_starvedAt (f : Fibre) (a : Status) : (raiseStatus f a).starvedAt = f.starvedAt := rfl
@[simp] theorem raiseStatus_passBreak (f : Fibre) (a : Status) : (raiseStatus f a).passBreak = f.passBreak := rfl
@[simp] theorem raiseStatus_startAt (f : Fibre) (a : Status) : (raiseStatus f a).startAt = f.startAt := rfl
@[simp] theorem raiseStatus_born (f : Fibre) (a : Status) : (raiseStatus f a).born = f.born := rfl
@[simp] theorem raiseStatus_done (f : Fibre) (a : Status) : (raiseStatus f a).done = f.done := rfl
@[simp] theorem raiseStatus_floor (f : Fibre) (a : Status) : (raiseStatus f a).floor = f.floor := rfl
@[simp] theorem raiseStatus_waited (f : Fibre) (a : Status) : (raiseStatus f a).waited = f.waited := rfl
@[simp] theorem raiseStatus_fenceFloor (f : Fibre) (a : Status) : (raiseStatus f a).fenceFloor = f.fenceFloor := rfl
@[simp] theorem raiseStatus_fetchFloor (f : Fibre) (a : Status) : (raiseStatus f a).fetchFloor = f.fetchFloor := rfl
@[simp] theorem raiseStatus_fetchFence (f : Fibre) (a : Status) : (raiseStatus f a).fetchFence = f.fetchFence := rfl
@[simp] theorem raiseStatus_behind (f : Fibre) (a : Status) : (raiseStatus f a).behind = f.behind := rfl

end Sys2Proof.Machine
end

