-- ==== Sys2Proof/Laws/Table.lean ====
section
/-! SUPPORT. Tables by key: what a read gives after a write, and that every operation keeps the canonical form. -/

namespace Sys2Proof.Machine

variable {α : Type}

@[simp] theorem tblFind_nil (k : Nat) : tblFind ([] : Tbl α) k = none := rfl

theorem tblFind_insert (t : Tbl α) (k j : Nat) (v : α) :
    tblFind (tblInsert t k v) j = if j = k then some v else tblFind t j := by
  induction t with
  | nil => rfl
  | cons e rest ih =>
    obtain ⟨i, u⟩ := e
    simp only [tblInsert]
    split
    · rfl
    · split
      · next h => subst h; by_cases hj : j = k <;> simp [tblFind, hj]
      · next h =>
        simp only [tblFind, ih]
        by_cases hj : j = k
        · subst hj; simp [h]
        · simp [hj]

@[simp] theorem tblFind_insert_self (t : Tbl α) (k : Nat) (v : α) : tblFind (tblInsert t k v) k = some v := by
  simp [tblFind_insert]

theorem tblFind_insert_ne (t : Tbl α) {k j : Nat} (v : α) (h : j ≠ k) : tblFind (tblInsert t k v) j = tblFind t j := by
  simp [tblFind_insert, h]

theorem tblFind_erase (t : Tbl α) (k j : Nat) : tblFind (tblErase t k) j = if j = k then none else tblFind t j := by
  induction t with
  | nil => simp [tblErase]
  | cons e rest ih =>
    obtain ⟨i, u⟩ := e
    simp only [tblErase]
    split
    · next hk =>
      subst hk
      rw [ih]
      by_cases hj : j = k <;> simp [tblFind, hj]
    · next hk =>
      simp only [tblFind, ih]
      by_cases hj : j = k
      · subst hj; simp [hk]
      · simp [hj]

theorem tblAbove_weaken {t : Tbl α} {j k : Nat} (h : tblAbove k t = true) (hjk : j ≤ k) : tblAbove j t = true := by
  cases t with
  | nil => rfl
  | cons e rest =>
    simp only [tblAbove, Bool.and_eq_true, decide_eq_true_eq] at h ⊢
    exact ⟨by omega, h.2⟩

theorem tblAbove_sorted {t : Tbl α} {k : Nat} (h : tblAbove k t = true) : tblSorted t = true := by
  cases t with
  | nil => rfl
  | cons e rest =>
    simp only [tblAbove, Bool.and_eq_true] at h
    exact h.2

theorem tblAbove_insert {t : Tbl α} {k j : Nat} (v : α) (h : tblAbove j t = true) (hj : j < k) :
    tblAbove j (tblInsert t k v) = true := by
  induction t generalizing j with
  | nil => simp [tblInsert, tblAbove, hj]
  | cons e rest ih =>
    obtain ⟨i, u⟩ := e
    simp only [tblAbove, Bool.and_eq_true, decide_eq_true_eq] at h
    simp only [tblInsert]
    split
    · next hk => simp [tblAbove, hj, hk, h.2]
    · split
      · next hk => subst hk; simp [tblAbove, hj, h.2]
      · simp [tblAbove, h.1, ih h.2 (by omega)]

theorem tblSorted_insert {t : Tbl α} (k : Nat) (v : α) (h : tblSorted t = true) : tblSorted (tblInsert t k v) = true := by
  cases t with
  | nil => rfl
  | cons e rest =>
    obtain ⟨i, u⟩ := e
    simp only [tblSorted] at h
    simp only [tblInsert]
    split
    · next hk => simp [tblSorted, tblAbove, hk, h]
    · split
      · next hk => subst hk; exact h
      · exact tblAbove_insert v h (by omega)

theorem tblAbove_erase {t : Tbl α} {j : Nat} (k : Nat) (h : tblAbove j t = true) : tblAbove j (tblErase t k) = true := by
  induction t generalizing j with
  | nil => rfl
  | cons e rest ih =>
    obtain ⟨i, u⟩ := e
    simp only [tblAbove, Bool.and_eq_true, decide_eq_true_eq] at h
    simp only [tblErase]
    split
    · exact ih (tblAbove_weaken h.2 (by omega))
    · simp [tblAbove, h.1, ih h.2]

theorem tblSorted_erase {t : Tbl α} (k : Nat) (h : tblSorted t = true) : tblSorted (tblErase t k) = true := by
  induction t with
  | nil => rfl
  | cons e rest ih =>
    obtain ⟨i, u⟩ := e
    simp only [tblSorted] at h
    simp only [tblErase]
    split
    · exact ih (tblAbove_sorted h)
    · exact tblAbove_erase k h

theorem tblAll_insert {t : Tbl α} (p : Nat × α → Bool) (k : Nat) (v : α) (h : t.all p = true) (hv : p (k, v) = true) :
    (tblInsert t k v).all p = true := by
  induction t with
  | nil => simp [tblInsert, hv]
  | cons e rest ih =>
    obtain ⟨i, u⟩ := e
    simp only [List.all_cons, Bool.and_eq_true] at h
    simp only [tblInsert]
    split
    · simp [hv, h.1, h.2]
    · split
      · simp [hv, h.2]
      · simp [h.1, ih h.2]

theorem tblAll_erase {t : Tbl α} (p : Nat × α → Bool) (k : Nat) (h : t.all p = true) : (tblErase t k).all p = true := by
  induction t with
  | nil => rfl
  | cons e rest ih =>
    obtain ⟨i, u⟩ := e
    simp only [List.all_cons, Bool.and_eq_true] at h
    simp only [tblErase]
    split
    · exact ih h.2
    · simp [h.1, ih h.2]

theorem tblFind_modify (t : Tbl α) (k j : Nat) (f : α → α) :
    tblFind (tblModify t k f) j = if j = k then (tblFind t k).map f else tblFind t j := by
  induction t with
  | nil => by_cases h : j = k <;> simp [tblModify, h]
  | cons e rest ih =>
    obtain ⟨i, u⟩ := e
    simp only [tblModify]
    split
    · next hk => subst hk; by_cases hj : j = k <;> simp [tblFind, hj]
    · next hk =>
      simp only [tblFind, ih]
      by_cases hj : j = k
      · subst hj; simp [hk]
      · simp [hj]

@[simp] theorem setAt_length (l : List α) (i : Nat) (v : α) : (setAt l i v).length = l.length := by
  induction l generalizing i with
  | nil => rfl
  | cons x xs ih => cases i <;> simp [setAt, ih]

theorem setAt_get (l : List α) (i j : Nat) (v : α) : (setAt l i v)[j]? = if j = i ∧ i < l.length then some v else l[j]? := by
  induction l generalizing i j with
  | nil => simp [setAt]
  | cons x xs ih =>
    cases i with
    | zero => cases j <;> simp [setAt]
    | succ i => cases j <;> simp [setAt, ih]

variable [DecidableEq α]

/-- A write keeps the canonical form. -/
theorem tblWf_set {d : α} {t : Tbl α} (k : Nat) (v : α) (h : tblWf d t = true) : tblWf d (tblSet d t k v) = true := by
  simp only [tblWf, Bool.and_eq_true] at h ⊢
  unfold tblSet
  split
  · exact ⟨tblSorted_erase k h.1, tblAll_erase _ k h.2⟩
  · next hv => exact ⟨tblSorted_insert k v h.1, tblAll_insert _ k v h.2 (by simp [hv])⟩

/-- What is read after a write: the value written at its key, what stood there at every other. -/
theorem tblGet_set (d : α) (t : Tbl α) (k j : Nat) (v : α) : tblGet d (tblSet d t k v) j = if j = k then v else tblGet d t j := by
  unfold tblSet tblGet
  by_cases hv : v = d <;> by_cases hj : j = k <;> simp [hv, hj, tblFind_erase, tblFind_insert]

theorem tblGet_set_ne (d : α) (t : Tbl α) {k j : Nat} (v : α) (hj : j ≠ k) : tblGet d (tblSet d t k v) j = tblGet d t j := by
  simp [tblGet_set, hj]

@[simp] theorem tblGet_set_self (d : α) (t : Tbl α) (k : Nat) (v : α) : tblGet d (tblSet d t k v) k = v := by simp [tblGet_set]

end Sys2Proof.Machine
end

