-- ==== Sys2Proof/Laws/Group.lean ====
section
/-! SUPPORT. What reads of a group give after writes: fibres, register cells, windows. -/

namespace Sys2Proof.Machine

theorem getGroup_setGroup (s : State) (k j : Nat) (g : Group) : getGroup (setGroup s k g) j = if j = k then some g else getGroup s j :=
  tblFind_insert s.groups k j g

@[simp] theorem getGroup_setGroup_self (s : State) (k : Nat) (g : Group) : getGroup (setGroup s k g) k = some g := by
  simp [getGroup_setGroup]

theorem getGroup_modGroup (s : State) (k j : Nat) (h : Group → Group) :
    getGroup (modGroup s k h) j = if j = k then (getGroup s k).map h else getGroup s j := tblFind_modify s.groups k j h

@[simp] theorem getGroup_modGroup_self (s : State) (k : Nat) (h : Group → Group) :
    getGroup (modGroup s k h) k = (getGroup s k).map h := by simp [getGroup_modGroup]

/-! ### Fibres -/

theorem Group.fibre_setFibre (g : Group) (l j : Nat) (f : Fibre) :
    (g.setFibre l f).fibre j = if j = l ∧ l < g.fibres.length then f else g.fibre j := by
  simp only [Group.fibre, Group.setFibre, setAt_get]
  split <;> simp

theorem Group.fibre_modFibre (g : Group) (l j : Nat) (h : Fibre → Fibre) :
    (g.modFibre l h).fibre j = if j = l ∧ l < g.fibres.length then h (g.fibre l) else g.fibre j := g.fibre_setFibre l j _

theorem Group.fibre_modFibre_ne (g : Group) {l j : Nat} (h : Fibre → Fibre) (hj : j ≠ l) : (g.modFibre l h).fibre j = g.fibre j := by
  simp [Group.fibre_modFibre, hj]

@[simp] theorem Group.length_modFibre (g : Group) (l : Nat) (h : Fibre → Fibre) : (g.modFibre l h).fibres.length = g.fibres.length := by
  simp [Group.modFibre, Group.setFibre]

@[simp] theorem Group.fibre_setCell (g : Group) (l r j : Nat) (v : Word) : (g.setCell l r v).fibre j = g.fibre j := rfl
@[simp] theorem Group.fibre_setReg (g : Group) (l r j : Nat) (v : Word) : (g.setReg l r v).fibre j = g.fibre j := rfl

/-- A change that keeps the window of a fibre keeps every window. -/
theorem Group.wb_modFibre (g : Group) (l j : Nat) (h : Fibre → Fibre) (hw : (h (g.fibre l)).wb = (g.fibre l).wb) :
    ((g.modFibre l h).fibre j).wb = (g.fibre j).wb := by
  rw [Group.fibre_modFibre]
  split
  · next e => rw [hw, e.1]
  · rfl

/-! ### Register cells -/

/-- Distinct registers of the fibres of a group are distinct cells. -/
theorem cellKey_inj (g : Group) {l j r q : Nat} (hr : r < g.rows) (hq : q < g.rows) (h : cellKey g l r = cellKey g j q) :
    l = j ∧ r = q := by
  have h1 : (l / 32 * g.rows + r) * 32 + l % 32 = (j / 32 * g.rows + q) * 32 + j % 32 := h
  have h2 : l / 32 * g.rows + r = j / 32 * g.rows + q := by omega
  have h3 : l % 32 = j % 32 := by omega
  have h4 : l / 32 = j / 32 := by
    have a := congrArg (· / g.rows) h2
    have hp : 0 < g.rows := by omega
    simpa [Nat.add_comm, Nat.add_mul_div_right _ _ hp, Nat.div_eq_of_lt hr, Nat.div_eq_of_lt hq] using a
  have h5 : r = q := by rw [h4] at h2; omega
  exact ⟨by omega, h5⟩

theorem Group.regs_setCell (g : Group) (l r key : Nat) (v : Word) :
    tblGet 0 (g.setCell l r v).regs key = if key = cellKey g l r then v else tblGet 0 g.regs key := tblGet_set 0 g.regs _ _ _

theorem Group.regs_setReg (g : Group) (l n key : Nat) (v : Word) :
    tblGet 0 (g.setReg l n v).regs key = if key = cellKey g l ((g.fibre l).wb + n) then v else tblGet 0 g.regs key :=
  g.regs_setCell l _ key v

@[simp] theorem Group.fibres_setBlock (g : Group) (l n : Nat) (vs : List Word) : (g.setBlock l n vs).fibres = g.fibres := by
  induction vs generalizing g n with
  | nil => rfl
  | cons v vs ih => exact ih _ _

theorem Group.setBlock_only (g : Group) (l n : Nat) (vs : List Word) :
    g.setBlock l n vs = { g with regs := (g.setBlock l n vs).regs } := by
  induction vs generalizing g n with
  | nil => rfl
  | cons v vs ih => rw [Group.setBlock, ih]; rfl

@[simp] theorem Group.rows_setBlock (g : Group) (l n : Nat) (vs : List Word) : (g.setBlock l n vs).rows = g.rows := by
  rw [Group.setBlock_only]

@[simp] theorem Group.fibre_setBlock (g : Group) (l n j : Nat) (vs : List Word) : (g.setBlock l n vs).fibre j = g.fibre j := by
  simp [Group.fibre]

/-- The cells after a block of registers is written. -/
theorem Group.regs_setBlock (g : Group) (l n key : Nat) (vs : List Word) :
    tblGet 0 (g.setBlock l n vs).regs key =
      if h : ∃ k < vs.length, key = cellKey g l ((g.fibre l).wb + n + k) then (vs[h.choose]?).getD 0 else tblGet 0 g.regs key := by
  induction vs generalizing g n with
  | nil => simp [Group.setBlock]
  | cons v vs ih =>
    rw [Group.setBlock, ih]
    have hk : ∀ r, cellKey (g.setReg l n v) l r = cellKey g l r := fun _ => rfl
    simp only [hk, Group.fibre_setReg, Group.regs_setReg]
    have inj : ∀ a b, cellKey g l a = cellKey g l b → a = b := by
      intro a b e
      have e1 : (l / 32 * g.rows + a) * 32 + l % 32 = (l / 32 * g.rows + b) * 32 + l % 32 := e
      omega
    by_cases h1 : ∃ k < vs.length, key = cellKey g l ((g.fibre l).wb + (n + 1) + k)
    · obtain ⟨k, hk1, hk2⟩ := id h1
      have h2 : ∃ k < (v :: vs).length, key = cellKey g l ((g.fibre l).wb + n + k) :=
        ⟨k + 1, by simpa using hk1, by rw [hk2]; congr 1; omega⟩
      have c1 := h1.choose_spec.2
      have c2 := h2.choose_spec.2
      have : h2.choose = h1.choose + 1 := by have := inj _ _ (c1.symm.trans c2); omega
      rw [dif_pos h1, dif_pos h2, this]
      simp
    · by_cases h0 : key = cellKey g l ((g.fibre l).wb + n)
      · have h2 : ∃ k < (v :: vs).length, key = cellKey g l ((g.fibre l).wb + n + k) := ⟨0, by simp, h0⟩
        have c2 := h2.choose_spec.2
        have : h2.choose = 0 := by have := inj _ _ (h0.symm.trans c2); omega
        rw [dif_neg h1, if_pos h0, dif_pos h2, this]
        simp
      · have h2 : ¬ ∃ k < (v :: vs).length, key = cellKey g l ((g.fibre l).wb + n + k) := by
          rintro ⟨k, hk1, hk2⟩
          cases k with
          | zero => exact h0 hk2
          | succ k => exact h1 ⟨k, by simpa using hk1, by rw [hk2]; congr 1; omega⟩
        rw [dif_neg h1, if_neg h0, dif_neg h2]

end Sys2Proof.Machine
end

