-- ==== Sys2Proof/Laws/Hart.lean ====
section
/-! SUPPORT. The updates of a hart, one lemma for each field, and what a register reads as after a write. -/

namespace Sys2Proof.Machine

@[simp] theorem Hart.setCsr_pc (h : Hart) (k : Nat) (v : Dword) : (h.setCsr k v).pc = h.pc := by cases h; rfl
@[simp] theorem Hart.setCsr_x (h : Hart) (k : Nat) (v : Dword) : (h.setCsr k v).x = h.x := by cases h; rfl
@[simp] theorem Hart.setCsr_f (h : Hart) (k : Nat) (v : Dword) : (h.setCsr k v).f = h.f := by cases h; rfl
@[simp] theorem Hart.setCsr_v (h : Hart) (k : Nat) (v : Dword) : (h.setCsr k v).v = h.v := by cases h; rfl
@[simp] theorem Hart.setCsr_files (h : Hart) (k : Nat) (v : Dword) : (h.setCsr k v).files = h.files := by cases h; rfl
@[simp] theorem Hart.setCsr_priv (h : Hart) (k : Nat) (v : Dword) : (h.setCsr k v).priv = h.priv := by cases h; rfl
@[simp] theorem Hart.setCsr_ops (h : Hart) (k : Nat) (v : Dword) : (h.setCsr k v).ops = h.ops := by cases h; rfl
@[simp] theorem Hart.setCsr_owner (h : Hart) (k : Nat) (v : Dword) : (h.setCsr k v).owner = h.owner := by cases h; rfl
@[simp] theorem Hart.setCsr_taint (h : Hart) (k : Nat) (v : Dword) : (h.setCsr k v).taint = h.taint := by cases h; rfl
@[simp] theorem Hart.setCsr_loaded (h : Hart) (k : Nat) (v : Dword) : (h.setCsr k v).loaded = h.loaded := by cases h; rfl
@[simp] theorem Hart.setCsr_stored (h : Hart) (k : Nat) (v : Dword) : (h.setCsr k v).stored = h.stored := by cases h; rfl
@[simp] theorem Hart.setCsr_devRead (h : Hart) (k : Nat) (v : Dword) : (h.setCsr k v).devRead = h.devRead := by cases h; rfl
@[simp] theorem Hart.setCsr_devWrite (h : Hart) (k : Nat) (v : Dword) : (h.setCsr k v).devWrite = h.devWrite := by cases h; rfl
@[simp] theorem Hart.setCsr_branched (h : Hart) (k : Nat) (v : Dword) : (h.setCsr k v).branched = h.branched := by cases h; rfl
@[simp] theorem Hart.setCsr_loadFloor (h : Hart) (k : Nat) (v : Dword) : (h.setCsr k v).loadFloor = h.loadFloor := by cases h; rfl
@[simp] theorem Hart.setCsr_storeFloor (h : Hart) (k : Nat) (v : Dword) : (h.setCsr k v).storeFloor = h.storeFloor := by cases h; rfl
@[simp] theorem Hart.setCsr_fetchFloor (h : Hart) (k : Nat) (v : Dword) : (h.setCsr k v).fetchFloor = h.fetchFloor := by cases h; rfl
@[simp] theorem Hart.setCsr_rcscFloor (h : Hart) (k : Nat) (v : Dword) : (h.setCsr k v).rcscFloor = h.rcscFloor := by cases h; rfl
@[simp] theorem Hart.setCsr_loadsFirst (h : Hart) (k : Nat) (v : Dword) : (h.setCsr k v).loadsFirst = h.loadsFirst := by cases h; rfl
@[simp] theorem Hart.setCsr_storesFirst (h : Hart) (k : Nat) (v : Dword) : (h.setCsr k v).storesFirst = h.storesFirst := by cases h; rfl
@[simp] theorem Hart.setCsr_readsFirst (h : Hart) (k : Nat) (v : Dword) : (h.setCsr k v).readsFirst = h.readsFirst := by cases h; rfl
@[simp] theorem Hart.setCsr_writesFirst (h : Hart) (k : Nat) (v : Dword) : (h.setCsr k v).writesFirst = h.writesFirst := by cases h; rfl
@[simp] theorem Hart.setCsr_rcscFirst (h : Hart) (k : Nat) (v : Dword) : (h.setCsr k v).rcscFirst = h.rcscFirst := by cases h; rfl
@[simp] theorem Hart.setCsr_resv (h : Hart) (k : Nat) (v : Dword) : (h.setCsr k v).resv = h.resv := by cases h; rfl
@[simp] theorem Hart.setCsr_wrs (h : Hart) (k : Nat) (v : Dword) : (h.setCsr k v).wrs = h.wrs := by cases h; rfl
@[simp] theorem Hart.setCsr_nutvec (h : Hart) (k : Nat) (v : Dword) : (h.setCsr k v).nutvec = h.nutvec := by cases h; rfl
@[simp] theorem Hart.setCsr_nutepc (h : Hart) (k : Nat) (v : Dword) : (h.setCsr k v).nutepc = h.nutepc := by cases h; rfl
@[simp] theorem Hart.setCsr_nutval (h : Hart) (k : Nat) (v : Dword) : (h.setCsr k v).nutval = h.nutval := by cases h; rfl
@[simp] theorem Hart.setCsr_nutstat (h : Hart) (k : Nat) (v : Dword) : (h.setCsr k v).nutstat = h.nutstat := by cases h; rfl
@[simp] theorem Hart.setCsr_nkey (h : Hart) (k : Nat) (v : Dword) : (h.setCsr k v).nkey = h.nkey := by cases h; rfl
@[simp] theorem Hart.setCsr_exc (h : Hart) (k : Nat) (v : Dword) : (h.setCsr k v).exc = h.exc := by cases h; rfl

@[simp] theorem Hart.setStatus_pc (h : Hart) (a b v : Nat) : (h.setStatus a b v).pc = h.pc := by cases h; rfl
@[simp] theorem Hart.setStatus_x (h : Hart) (a b v : Nat) : (h.setStatus a b v).x = h.x := by cases h; rfl
@[simp] theorem Hart.setStatus_f (h : Hart) (a b v : Nat) : (h.setStatus a b v).f = h.f := by cases h; rfl
@[simp] theorem Hart.setStatus_v (h : Hart) (a b v : Nat) : (h.setStatus a b v).v = h.v := by cases h; rfl
@[simp] theorem Hart.setStatus_files (h : Hart) (a b v : Nat) : (h.setStatus a b v).files = h.files := by cases h; rfl
@[simp] theorem Hart.setStatus_priv (h : Hart) (a b v : Nat) : (h.setStatus a b v).priv = h.priv := by cases h; rfl
@[simp] theorem Hart.setStatus_ops (h : Hart) (a b v : Nat) : (h.setStatus a b v).ops = h.ops := by cases h; rfl
@[simp] theorem Hart.setStatus_owner (h : Hart) (a b v : Nat) : (h.setStatus a b v).owner = h.owner := by cases h; rfl
@[simp] theorem Hart.setStatus_taint (h : Hart) (a b v : Nat) : (h.setStatus a b v).taint = h.taint := by cases h; rfl
@[simp] theorem Hart.setStatus_loaded (h : Hart) (a b v : Nat) : (h.setStatus a b v).loaded = h.loaded := by cases h; rfl
@[simp] theorem Hart.setStatus_stored (h : Hart) (a b v : Nat) : (h.setStatus a b v).stored = h.stored := by cases h; rfl
@[simp] theorem Hart.setStatus_devRead (h : Hart) (a b v : Nat) : (h.setStatus a b v).devRead = h.devRead := by cases h; rfl
@[simp] theorem Hart.setStatus_devWrite (h : Hart) (a b v : Nat) : (h.setStatus a b v).devWrite = h.devWrite := by cases h; rfl
@[simp] theorem Hart.setStatus_branched (h : Hart) (a b v : Nat) : (h.setStatus a b v).branched = h.branched := by cases h; rfl
@[simp] theorem Hart.setStatus_loadFloor (h : Hart) (a b v : Nat) : (h.setStatus a b v).loadFloor = h.loadFloor := by cases h; rfl
@[simp] theorem Hart.setStatus_storeFloor (h : Hart) (a b v : Nat) : (h.setStatus a b v).storeFloor = h.storeFloor := by cases h; rfl
@[simp] theorem Hart.setStatus_fetchFloor (h : Hart) (a b v : Nat) : (h.setStatus a b v).fetchFloor = h.fetchFloor := by cases h; rfl
@[simp] theorem Hart.setStatus_rcscFloor (h : Hart) (a b v : Nat) : (h.setStatus a b v).rcscFloor = h.rcscFloor := by cases h; rfl
@[simp] theorem Hart.setStatus_loadsFirst (h : Hart) (a b v : Nat) : (h.setStatus a b v).loadsFirst = h.loadsFirst := by cases h; rfl
@[simp] theorem Hart.setStatus_storesFirst (h : Hart) (a b v : Nat) : (h.setStatus a b v).storesFirst = h.storesFirst := by cases h; rfl
@[simp] theorem Hart.setStatus_readsFirst (h : Hart) (a b v : Nat) : (h.setStatus a b v).readsFirst = h.readsFirst := by cases h; rfl
@[simp] theorem Hart.setStatus_writesFirst (h : Hart) (a b v : Nat) : (h.setStatus a b v).writesFirst = h.writesFirst := by cases h; rfl
@[simp] theorem Hart.setStatus_rcscFirst (h : Hart) (a b v : Nat) : (h.setStatus a b v).rcscFirst = h.rcscFirst := by cases h; rfl
@[simp] theorem Hart.setStatus_resv (h : Hart) (a b v : Nat) : (h.setStatus a b v).resv = h.resv := by cases h; rfl
@[simp] theorem Hart.setStatus_wrs (h : Hart) (a b v : Nat) : (h.setStatus a b v).wrs = h.wrs := by cases h; rfl
@[simp] theorem Hart.setStatus_nutvec (h : Hart) (a b v : Nat) : (h.setStatus a b v).nutvec = h.nutvec := by cases h; rfl
@[simp] theorem Hart.setStatus_nutepc (h : Hart) (a b v : Nat) : (h.setStatus a b v).nutepc = h.nutepc := by cases h; rfl
@[simp] theorem Hart.setStatus_nutval (h : Hart) (a b v : Nat) : (h.setStatus a b v).nutval = h.nutval := by cases h; rfl
@[simp] theorem Hart.setStatus_nutstat (h : Hart) (a b v : Nat) : (h.setStatus a b v).nutstat = h.nutstat := by cases h; rfl
@[simp] theorem Hart.setStatus_nkey (h : Hart) (a b v : Nat) : (h.setStatus a b v).nkey = h.nkey := by cases h; rfl
@[simp] theorem Hart.setStatus_exc (h : Hart) (a b v : Nat) : (h.setStatus a b v).exc = h.exc := by cases h; rfl

@[simp] theorem Hart.setField_pc (h : Hart) (k a b v : Nat) : (h.setField k a b v).pc = h.pc := by cases h; rfl
@[simp] theorem Hart.setField_x (h : Hart) (k a b v : Nat) : (h.setField k a b v).x = h.x := by cases h; rfl
@[simp] theorem Hart.setField_f (h : Hart) (k a b v : Nat) : (h.setField k a b v).f = h.f := by cases h; rfl
@[simp] theorem Hart.setField_v (h : Hart) (k a b v : Nat) : (h.setField k a b v).v = h.v := by cases h; rfl
@[simp] theorem Hart.setField_files (h : Hart) (k a b v : Nat) : (h.setField k a b v).files = h.files := by cases h; rfl
@[simp] theorem Hart.setField_priv (h : Hart) (k a b v : Nat) : (h.setField k a b v).priv = h.priv := by cases h; rfl
@[simp] theorem Hart.setField_ops (h : Hart) (k a b v : Nat) : (h.setField k a b v).ops = h.ops := by cases h; rfl
@[simp] theorem Hart.setField_owner (h : Hart) (k a b v : Nat) : (h.setField k a b v).owner = h.owner := by cases h; rfl
@[simp] theorem Hart.setField_taint (h : Hart) (k a b v : Nat) : (h.setField k a b v).taint = h.taint := by cases h; rfl
@[simp] theorem Hart.setField_loaded (h : Hart) (k a b v : Nat) : (h.setField k a b v).loaded = h.loaded := by cases h; rfl
@[simp] theorem Hart.setField_stored (h : Hart) (k a b v : Nat) : (h.setField k a b v).stored = h.stored := by cases h; rfl
@[simp] theorem Hart.setField_devRead (h : Hart) (k a b v : Nat) : (h.setField k a b v).devRead = h.devRead := by cases h; rfl
@[simp] theorem Hart.setField_devWrite (h : Hart) (k a b v : Nat) : (h.setField k a b v).devWrite = h.devWrite := by cases h; rfl
@[simp] theorem Hart.setField_branched (h : Hart) (k a b v : Nat) : (h.setField k a b v).branched = h.branched := by cases h; rfl
@[simp] theorem Hart.setField_loadFloor (h : Hart) (k a b v : Nat) : (h.setField k a b v).loadFloor = h.loadFloor := by cases h; rfl
@[simp] theorem Hart.setField_storeFloor (h : Hart) (k a b v : Nat) : (h.setField k a b v).storeFloor = h.storeFloor := by cases h; rfl
@[simp] theorem Hart.setField_fetchFloor (h : Hart) (k a b v : Nat) : (h.setField k a b v).fetchFloor = h.fetchFloor := by cases h; rfl
@[simp] theorem Hart.setField_rcscFloor (h : Hart) (k a b v : Nat) : (h.setField k a b v).rcscFloor = h.rcscFloor := by cases h; rfl
@[simp] theorem Hart.setField_loadsFirst (h : Hart) (k a b v : Nat) : (h.setField k a b v).loadsFirst = h.loadsFirst := by cases h; rfl
@[simp] theorem Hart.setField_storesFirst (h : Hart) (k a b v : Nat) : (h.setField k a b v).storesFirst = h.storesFirst := by cases h; rfl
@[simp] theorem Hart.setField_readsFirst (h : Hart) (k a b v : Nat) : (h.setField k a b v).readsFirst = h.readsFirst := by cases h; rfl
@[simp] theorem Hart.setField_writesFirst (h : Hart) (k a b v : Nat) : (h.setField k a b v).writesFirst = h.writesFirst := by cases h; rfl
@[simp] theorem Hart.setField_rcscFirst (h : Hart) (k a b v : Nat) : (h.setField k a b v).rcscFirst = h.rcscFirst := by cases h; rfl
@[simp] theorem Hart.setField_resv (h : Hart) (k a b v : Nat) : (h.setField k a b v).resv = h.resv := by cases h; rfl
@[simp] theorem Hart.setField_wrs (h : Hart) (k a b v : Nat) : (h.setField k a b v).wrs = h.wrs := by cases h; rfl
@[simp] theorem Hart.setField_nutvec (h : Hart) (k a b v : Nat) : (h.setField k a b v).nutvec = h.nutvec := by cases h; rfl
@[simp] theorem Hart.setField_nutepc (h : Hart) (k a b v : Nat) : (h.setField k a b v).nutepc = h.nutepc := by cases h; rfl
@[simp] theorem Hart.setField_nutval (h : Hart) (k a b v : Nat) : (h.setField k a b v).nutval = h.nutval := by cases h; rfl
@[simp] theorem Hart.setField_nutstat (h : Hart) (k a b v : Nat) : (h.setField k a b v).nutstat = h.nutstat := by cases h; rfl
@[simp] theorem Hart.setField_nkey (h : Hart) (k a b v : Nat) : (h.setField k a b v).nkey = h.nkey := by cases h; rfl
@[simp] theorem Hart.setField_exc (h : Hart) (k a b v : Nat) : (h.setField k a b v).exc = h.exc := by cases h; rfl

@[simp] theorem Hart.setReg_pc (h : Hart) (n : Nat) (v : Dword) : (h.setReg n v).pc = h.pc := by unfold Hart.setReg; split <;> rfl
@[simp] theorem Hart.setReg_f (h : Hart) (n : Nat) (v : Dword) : (h.setReg n v).f = h.f := by unfold Hart.setReg; split <;> rfl
@[simp] theorem Hart.setReg_v (h : Hart) (n : Nat) (v : Dword) : (h.setReg n v).v = h.v := by unfold Hart.setReg; split <;> rfl
@[simp] theorem Hart.setReg_csrs (h : Hart) (n : Nat) (v : Dword) : (h.setReg n v).csrs = h.csrs := by unfold Hart.setReg; split <;> rfl
@[simp] theorem Hart.setReg_files (h : Hart) (n : Nat) (v : Dword) : (h.setReg n v).files = h.files := by unfold Hart.setReg; split <;> rfl
@[simp] theorem Hart.setReg_priv (h : Hart) (n : Nat) (v : Dword) : (h.setReg n v).priv = h.priv := by unfold Hart.setReg; split <;> rfl
@[simp] theorem Hart.setReg_ops (h : Hart) (n : Nat) (v : Dword) : (h.setReg n v).ops = h.ops := by unfold Hart.setReg; split <;> rfl
@[simp] theorem Hart.setReg_owner (h : Hart) (n : Nat) (v : Dword) : (h.setReg n v).owner = h.owner := by unfold Hart.setReg; split <;> rfl
@[simp] theorem Hart.setReg_taint (h : Hart) (n : Nat) (v : Dword) : (h.setReg n v).taint = h.taint := by unfold Hart.setReg; split <;> rfl
@[simp] theorem Hart.setReg_loaded (h : Hart) (n : Nat) (v : Dword) : (h.setReg n v).loaded = h.loaded := by unfold Hart.setReg; split <;> rfl
@[simp] theorem Hart.setReg_stored (h : Hart) (n : Nat) (v : Dword) : (h.setReg n v).stored = h.stored := by unfold Hart.setReg; split <;> rfl
@[simp] theorem Hart.setReg_devRead (h : Hart) (n : Nat) (v : Dword) : (h.setReg n v).devRead = h.devRead := by unfold Hart.setReg; split <;> rfl
@[simp] theorem Hart.setReg_devWrite (h : Hart) (n : Nat) (v : Dword) : (h.setReg n v).devWrite = h.devWrite := by unfold Hart.setReg; split <;> rfl
@[simp] theorem Hart.setReg_branched (h : Hart) (n : Nat) (v : Dword) : (h.setReg n v).branched = h.branched := by unfold Hart.setReg; split <;> rfl
@[simp] theorem Hart.setReg_loadFloor (h : Hart) (n : Nat) (v : Dword) : (h.setReg n v).loadFloor = h.loadFloor := by unfold Hart.setReg; split <;> rfl
@[simp] theorem Hart.setReg_storeFloor (h : Hart) (n : Nat) (v : Dword) : (h.setReg n v).storeFloor = h.storeFloor := by unfold Hart.setReg; split <;> rfl
@[simp] theorem Hart.setReg_fetchFloor (h : Hart) (n : Nat) (v : Dword) : (h.setReg n v).fetchFloor = h.fetchFloor := by unfold Hart.setReg; split <;> rfl
@[simp] theorem Hart.setReg_rcscFloor (h : Hart) (n : Nat) (v : Dword) : (h.setReg n v).rcscFloor = h.rcscFloor := by unfold Hart.setReg; split <;> rfl
@[simp] theorem Hart.setReg_loadsFirst (h : Hart) (n : Nat) (v : Dword) : (h.setReg n v).loadsFirst = h.loadsFirst := by unfold Hart.setReg; split <;> rfl
@[simp] theorem Hart.setReg_storesFirst (h : Hart) (n : Nat) (v : Dword) : (h.setReg n v).storesFirst = h.storesFirst := by unfold Hart.setReg; split <;> rfl
@[simp] theorem Hart.setReg_readsFirst (h : Hart) (n : Nat) (v : Dword) : (h.setReg n v).readsFirst = h.readsFirst := by unfold Hart.setReg; split <;> rfl
@[simp] theorem Hart.setReg_writesFirst (h : Hart) (n : Nat) (v : Dword) : (h.setReg n v).writesFirst = h.writesFirst := by unfold Hart.setReg; split <;> rfl
@[simp] theorem Hart.setReg_rcscFirst (h : Hart) (n : Nat) (v : Dword) : (h.setReg n v).rcscFirst = h.rcscFirst := by unfold Hart.setReg; split <;> rfl
@[simp] theorem Hart.setReg_resv (h : Hart) (n : Nat) (v : Dword) : (h.setReg n v).resv = h.resv := by unfold Hart.setReg; split <;> rfl
@[simp] theorem Hart.setReg_wrs (h : Hart) (n : Nat) (v : Dword) : (h.setReg n v).wrs = h.wrs := by unfold Hart.setReg; split <;> rfl
@[simp] theorem Hart.setReg_nutvec (h : Hart) (n : Nat) (v : Dword) : (h.setReg n v).nutvec = h.nutvec := by unfold Hart.setReg; split <;> rfl
@[simp] theorem Hart.setReg_nutepc (h : Hart) (n : Nat) (v : Dword) : (h.setReg n v).nutepc = h.nutepc := by unfold Hart.setReg; split <;> rfl
@[simp] theorem Hart.setReg_nutval (h : Hart) (n : Nat) (v : Dword) : (h.setReg n v).nutval = h.nutval := by unfold Hart.setReg; split <;> rfl
@[simp] theorem Hart.setReg_nutstat (h : Hart) (n : Nat) (v : Dword) : (h.setReg n v).nutstat = h.nutstat := by unfold Hart.setReg; split <;> rfl
@[simp] theorem Hart.setReg_nkey (h : Hart) (n : Nat) (v : Dword) : (h.setReg n v).nkey = h.nkey := by unfold Hart.setReg; split <;> rfl
@[simp] theorem Hart.setReg_exc (h : Hart) (n : Nat) (v : Dword) : (h.setReg n v).exc = h.exc := by unfold Hart.setReg; split <;> rfl

/-- A register of a hart after a write: x0 keeps reading 0, and the write changes no other register. -/
theorem Hart.reg_setReg (h : Hart) (n m : Nat) (v : Dword) : (h.setReg n v).reg m = if m = n ∧ n ≠ 0 then v else h.reg m := by
  unfold Hart.setReg Hart.reg
  by_cases hn : n = 0
  · simp [hn]
  · by_cases hm : m = 0
    · subst hm; simp [hn]; intro h0; exact absurd h0.symm hn
    · simp [hn, hm, tblGet_set]

/-- A control register of a hart after a write. -/
theorem Hart.csr_setCsr (h : Hart) (k j : Nat) (v : Dword) : (h.setCsr k v).csr j = if j = k then v else h.csr j := tblGet_set 0 h.csrs k j v

/-- What an exception of a hart does: the hart enters one mode's trap with what the exception reports, and no other part of the state changes. -/
theorem hartException_eq (s : State) (n : Nat) (e : HartExc) :
    ∃ target, hartException s n e = setHart s n { ((getHart s n).enterTrap target (e.info (getHart s n).priv)) with exc := some e } :=
  ⟨_, rfl⟩

/-- Where the hart goes on after a trap, in which mode, and that its integer registers stay. -/
theorem Hart.trapToM_priv (h : Hart) (i : TrapInfo) : (h.trapToM i).priv = .m := by unfold Hart.trapToM; dsimp only
theorem Hart.trapToM_pc (h : Hart) (i : TrapInfo) : (h.trapToM i).pc = vectorOf (h.csr csrMtvec) i.interrupt i.code := by
  unfold Hart.trapToM; dsimp only
theorem Hart.trapToM_x (h : Hart) (i : TrapInfo) : (h.trapToM i).x = h.x := by simp only [Hart.trapToM, Hart.setStatus_x, Hart.setCsr_x]
theorem Hart.trapToS_priv (h : Hart) (i : TrapInfo) : (h.trapToS i).priv = .s := by unfold Hart.trapToS; dsimp only
theorem Hart.trapToS_pc (h : Hart) (i : TrapInfo) : (h.trapToS i).pc = vectorOf (h.csr csrStvec) i.interrupt i.code := by
  unfold Hart.trapToS; dsimp only
theorem Hart.trapToVs_priv (h : Hart) (i : TrapInfo) : (h.trapToVs i).priv = .vs := by unfold Hart.trapToVs; dsimp only
theorem Hart.trapToVs_pc (h : Hart) (i : TrapInfo) : (h.trapToVs i).pc = vectorOf (h.csr csrVstvec) i.interrupt i.code := by
  unfold Hart.trapToVs; dsimp only

end Sys2Proof.Machine
end

