-- ==== Sys2Proof/Laws/Memory.lean ====
section
/-! SUPPORT. The canonical form of the memories, which every operation over them keeps; what a byte reads as after a write; and the taking
of a trap and the release from it, each said once. -/

namespace Sys2Proof.Machine

/-! ### Filters keep a table's form -/

theorem tblAbove_filter {α : Type} (p : Nat × α → Bool) {t : Tbl α} {k : Nat} (h : tblAbove k t = true) : tblAbove k (t.filter p) = true := by
  induction t generalizing k with
  | nil => rfl
  | cons e t ih =>
    obtain ⟨j, v⟩ := e
    simp only [tblAbove, Bool.and_eq_true, decide_eq_true_eq] at h
    rw [List.filter_cons]
    split
    · simp [tblAbove, h.1, ih h.2]
    · exact tblAbove_weaken (ih h.2) (Nat.le_of_lt h.1)

theorem tblSorted_filter {α : Type} (p : Nat × α → Bool) {t : Tbl α} (h : tblSorted t = true) : tblSorted (t.filter p) = true := by
  cases t with
  | nil => rfl
  | cons e t =>
    obtain ⟨j, v⟩ := e
    rw [List.filter_cons]
    split
    · exact tblAbove_filter p h
    · exact tblAbove_sorted (tblAbove_filter p h)

theorem tblWf_filter {α : Type} [DecidableEq α] {d : α} (p : Nat × α → Bool) {t : Tbl α} (h : tblWf d t = true) : tblWf d (t.filter p) = true := by
  simp only [tblWf, Bool.and_eq_true, List.all_eq_true] at h ⊢
  exact ⟨tblSorted_filter p h.1, fun e he => h.2 e (List.mem_filter.1 he).1⟩

/-! ### The form of every memory of the part -/

/-- Memory, host memory, scratchpad and weight store are in canonical form, and what the tiers hold behind dirty bytes is sorted. -/
def MemForm (s : State) : Prop :=
  Memory.wf s.mem = true ∧ Memory.wf s.hostMem = true ∧ Memory.wf s.spad = true ∧ Memory.wf s.weights = true ∧ tblSorted s.stale = true

theorem memForm_reset : MemForm State.reset := ⟨rfl, rfl, rfl, rfl, rfl⟩

/-- A step that leaves the memories alone keeps their form. -/
theorem MemForm.of_eq {s t : State} (h : MemForm s) (hm : t.mem = s.mem) (hh : t.hostMem = s.hostMem) (hp : t.spad = s.spad)
    (hw : t.weights = s.weights) (hs : t.stale = s.stale) : MemForm t := by
  unfold MemForm; rw [hm, hh, hp, hw, hs]; exact h

theorem memForm_cleanLine {s : State} (line : Nat) (h : MemForm s) : MemForm (cleanLine s line) :=
  ⟨h.1, h.2.1, h.2.2.1, h.2.2.2.1, tblSorted_filter _ h.2.2.2.2⟩

theorem memForm_recallLine {s : State} (key line : Nat) (h : MemForm s) : MemForm (recallLine s key line) := by
  unfold recallLine
  dsimp only
  split
  · exact (memForm_cleanLine line h).of_eq rfl rfl rfl rfl rfl
  · exact h.of_eq rfl rfl rfl rfl rfl

theorem memForm_foldl {α : Type} {f : State → α → State} (hf : ∀ s a, MemForm s → MemForm (f s a)) (l : List α) {s : State} (h : MemForm s) :
    MemForm (l.foldl f s) := by
  induction l generalizing s with
  | nil => exact h
  | cons a l ih => exact ih (hf s a h)

theorem memForm_recallLines {s : State} (key a n : Nat) (h : MemForm s) : MemForm (recallLines s key a n) := by
  unfold recallLines
  split
  · exact h
  · exact memForm_foldl (fun _ i ht => memForm_recallLine key (a / 128 + i) ht) _ h

theorem memForm_storeCell {s : State} (key a : Nat) (b : Byte) (h : MemForm s) : MemForm (storeCell s key a b) := by
  unfold storeCell
  split
  · exact ⟨h.1, tblWf_set _ _ h.2.1, h.2.2.1, h.2.2.2.1, h.2.2.2.2⟩
  · refine ⟨tblWf_set _ _ h.1, h.2.1, h.2.2.1, h.2.2.2.1, ?_⟩
    dsimp only
    split
    · exact h.2.2.2.2
    · exact tblSorted_insert _ _ h.2.2.2.2

theorem memForm_storeByte {s : State} (space key a : Nat) (b : Byte) (h : MemForm s) : MemForm (storeByte s space key a b) := by
  unfold storeByte
  split
  · exact memForm_storeCell _ _ _ h
  · exact ⟨h.1, h.2.1, tblWf_set _ _ h.2.2.1, h.2.2.2⟩
  · exact ⟨h.1, h.2.1, h.2.2.1, tblWf_set _ _ h.2.2.2.1, h.2.2.2.2⟩

theorem memForm_storeUnder (space key : Nat) (bs : List Byte) {s : State} (a : Nat) (newer : List Event) (h : MemForm s) :
    MemForm (storeUnder s space key a newer bs).2.2 := by
  induction bs generalizing s a newer with
  | nil => exact h
  | cons b bs ih =>
    unfold storeUnder
    dsimp only
    split
    · exact ih _ _ h
    · exact ih _ _ (memForm_storeByte _ _ _ _ h)

theorem memForm_placeBytes {s : State} (space key a : Nat) (newer : List Event) (bs : List Byte) (h : MemForm s) :
    MemForm (placeBytes s space key a newer bs).2.2 := by
  unfold placeBytes
  split
  · exact memForm_storeUnder _ _ _ _ _ h
  · dsimp only
    split
    · exact memForm_storeUnder _ _ _ _ _ (h.of_eq rfl rfl rfl rfl rfl)
    · exact h.of_eq rfl rfl rfl rfl rfl
    · exact memForm_storeUnder _ _ _ _ _ h

theorem memForm_noteEvent {s : State} (w : Who) (k space first n : Nat) (rd : Bool) (old : List Cell) (newer : List Event) (h : MemForm s) :
    MemForm (noteEvent s w k space first n rd old newer) := h.of_eq rfl rfl rfl rfl rfl

theorem memForm_useBack {s : State} (h : MemForm s) : MemForm (useBack s) := h.of_eq rfl rfl rfl rfl rfl

/-- The lines that an access recalls, in memory alone. -/
theorem memForm_recalled {s : State} (space key a n : Nat) (h : MemForm s) :
    MemForm (if space = 0 then recallLines s key a n else s) := by
  split
  · exact memForm_recallLines _ _ _ h
  · exact h

theorem memForm_readSpace {s : State} (w : Who) (space key a n : Nat) (h : MemForm s) : MemForm (readSpace s w space key a n).2 := by
  unfold readSpace
  exact memForm_useBack (memForm_noteEvent _ _ _ _ _ _ _ _ (memForm_recalled _ _ _ _ h))

theorem memForm_writeSpace {s : State} (w : Who) (space key a : Nat) (bs : List Byte) (h : MemForm s) :
    MemForm (writeSpace s w space key a bs) := by
  unfold writeSpace
  exact memForm_useBack (memForm_noteEvent _ _ _ _ _ _ _ _ (memForm_placeBytes _ _ _ _ _ (memForm_recalled _ _ _ _ h)))

theorem memForm_updateSpace {s : State} (w : Who) (space key a n : Nat) (f : List Byte → Option (List Byte)) (h : MemForm s) :
    MemForm (updateSpace s w space key a n f).2 := by
  unfold updateSpace
  dsimp only
  split
  · exact memForm_useBack (memForm_noteEvent _ _ _ _ _ _ _ _ (memForm_recalled _ _ _ _ h))
  · exact memForm_useBack (memForm_noteEvent _ _ _ _ _ _ _ _ (memForm_placeBytes _ _ _ _ _ (memForm_recalled _ _ _ _ h)))

theorem memForm_readMem {s : State} (w : Who) (key pa n : Nat) (h : MemForm s) : MemForm (readMem s w key pa n).2 :=
  memForm_readSpace w 0 key pa n h

theorem memForm_writeMem {s : State} (w : Who) (key pa : Nat) (bs : List Byte) (h : MemForm s) : MemForm (writeMem s w key pa bs) :=
  memForm_writeSpace w 0 key pa bs h

theorem memForm_readTop {s : State} (a : Agent) (key pa n : Nat) (h : MemForm s) : MemForm (readTop s a key pa n).2 :=
  (memForm_readMem { agent := a } key pa n (s := { s with backs := [] }) (h.of_eq rfl rfl rfl rfl rfl)).of_eq rfl rfl rfl rfl rfl

theorem memForm_writeTop {s : State} (a : Agent) (key pa : Nat) (bs : List Byte) (h : MemForm s) : MemForm (writeTop s a key pa bs) :=
  (memForm_writeMem { agent := a } key pa bs (s := { s with backs := [] }) (h.of_eq rfl rfl rfl rfl rfl)).of_eq rfl rfl rfl rfl rfl

theorem memForm_noteMark {s : State} (w : Who) (h : MemForm s) : MemForm (noteMark s w) := h.of_eq rfl rfl rfl rfl rfl
theorem memForm_noteTop {s : State} (a : Agent) (h : MemForm s) : MemForm (noteTop s a) := h.of_eq rfl rfl rfl rfl rfl

theorem memForm_writeClear {s : State} (pa : Nat) (bs : List Byte) (h : MemForm s) : MemForm (writeClear s pa bs) := by
  induction bs generalizing s pa with
  | nil => exact h
  | cons b bs ih => exact ih (pa + 1) ⟨tblWf_set _ _ h.1, h.2⟩

theorem memForm_restoreLine {s : State} (line : Nat) (h : MemForm s) : MemForm (restoreLine s line) := by
  unfold restoreLine
  generalize s.stale.filter _ = es
  induction es generalizing s with
  | nil => exact h
  | cons e es ih => exact ih ⟨tblWf_set _ _ h.1, h.2.1, h.2.2.1, h.2.2.2.1, tblSorted_erase _ h.2.2.2.2⟩

theorem memForm_dropBytes {s : State} (line : Nat) (h : MemForm s) : MemForm (dropBytes s line) := by
  unfold dropBytes
  split
  · exact (memForm_restoreLine line h).of_eq rfl rfl rfl rfl rfl
  · exact h

theorem memForm_dropLine {s : State} (line : Nat) (h : MemForm s) : MemForm (dropLine s line) :=
  (memForm_dropBytes line h).of_eq rfl rfl rfl rfl rfl

theorem memForm_cleanUnheld {s : State} (a : Nat) (h : MemForm s) : MemForm (cleanUnheld s a) := by
  unfold cleanUnheld
  split
  · exact h
  · exact memForm_cleanLine _ h

theorem memForm_replaceLine {s : State} (v : Line) (h : MemForm s) : MemForm (replaceLine s v) := by
  unfold replaceLine
  dsimp only
  split
  · exact (memForm_cleanLine _ h).of_eq rfl rfl rfl rfl rfl
  · exact h.of_eq rfl rfl rfl rfl rfl

theorem memForm_markFor {s : State} (site line mark : Nat) (ways : List Nat) (h : MemForm s) : MemForm (markFor s site line mark ways).2 := by
  unfold markFor unstick
  dsimp only
  split
  · split
    · exact h
    · dsimp only
      split
      · exact h.of_eq rfl rfl rfl rfl rfl
      · exact h
  · exact h

theorem memForm_allocLine {s : State} (site key line mark : Nat) (ways : List Nat) (h : MemForm s) :
    MemForm (allocLine s site key line mark ways) := by
  have hm := memForm_markFor site line mark ways h
  unfold allocLine
  dsimp only
  split
  · exact hm.of_eq rfl rfl rfl rfl rfl
  · split
    · exact (memForm_replaceLine _ hm).of_eq rfl rfl rfl rfl rfl
    · exact hm

theorem memForm_cacheTouch {s : State} (site part key line hint : Nat) (store : Bool) (h : MemForm s) :
    MemForm (cacheTouch s site part key line hint store).2 := by
  unfold cacheTouch
  dsimp only
  split
  · dsimp only
    split
    · exact (memForm_markFor _ _ _ _ h).of_eq rfl rfl rfl rfl rfl
    · exact h.of_eq rfl rfl rfl rfl rfl
  · dsimp only
    split
    · exact h
    · exact memForm_allocLine _ _ _ _ _ h

theorem memForm_writeSpad {s : State} (core byte : Nat) (b : Byte) (h : MemForm s) : MemForm (writeSpad s core byte b) :=
  ⟨h.1, h.2.1, tblWf_set _ _ h.2.2.1, h.2.2.2⟩

theorem memForm_writeSpadBytes {s : State} (core byte : Nat) (bs : List Byte) (h : MemForm s) : MemForm (writeSpadBytes s core byte bs) := by
  induction bs generalizing s byte with
  | nil => exact h
  | cons b bs ih => exact ih (byte + 1) (memForm_writeSpad core byte b h)

theorem memForm_writeWeight {s : State} (die off : Nat) (b : Byte) (h : MemForm s) : MemForm (writeWeight s die off b) :=
  ⟨h.1, h.2.1, h.2.2.1, tblWf_set _ _ h.2.2.2.1, h.2.2.2.2⟩

theorem memForm_claimRows {s : State} (core first count tenant : Nat) (h : MemForm s) : MemForm (claimRows s core first count tenant) :=
  ⟨h.1, h.2.1, tblWf_filter _ h.2.2.1, h.2.2.2⟩

theorem memForm_claimGranules {s : State} (die first count tenant : Nat) (h : MemForm s) : MemForm (claimGranules s die first count tenant) :=
  ⟨h.1, h.2.1, h.2.2.1, tblWf_filter _ h.2.2.2.1, h.2.2.2.2⟩

theorem memForm_putCell {s : State} (a : Nat) (c : Cell) (h : MemForm s) : MemForm (putCell s a c) :=
  ⟨tblWf_set _ _ h.1, h.2.1, h.2.2.1, h.2.2.2.1, tblSorted_erase _ h.2.2.2.2⟩

theorem memForm_copyByte {s : State} (key src dst o : Nat) (h : MemForm s) : MemForm (copyByte key src dst s o) := memForm_putCell _ _ h

theorem memForm_engineEvent {s : State} (a n : Nat) (rd : Bool) (h : MemForm s) : MemForm (engineEvent s a n rd) :=
  memForm_noteEvent _ _ _ _ _ _ _ _ h

theorem memForm_copyLine {s : State} (key src dst line : Nat) (h : MemForm s) : MemForm (copyLine key src dst s line) :=
  memForm_engineEvent _ _ _ (memForm_foldl (fun _ o ht => memForm_copyByte key src dst o ht) _ (memForm_engineEvent _ _ _ h))

theorem memForm_copyPage {s : State} (key src dst bits : Nat) (h : MemForm s) : MemForm (copyPage s key src dst bits) :=
  memForm_foldl (fun _ o ht => memForm_copyLine key src dst o ht) _ h

/-! ### What a byte reads as after a write -/

@[simp] theorem cellAt_cleanLine (s : State) (line a : Nat) : cellAt (cleanLine s line) a = cellAt s a := rfl
@[simp] theorem cellAt_recallLine (s : State) (key line a : Nat) : cellAt (recallLine s key line) a = cellAt s a := by
  unfold recallLine; dsimp only; split <;> rfl

theorem cellAt_recallLines (s : State) (key a n p : Nat) : cellAt (recallLines s key a n) p = cellAt s p := by
  unfold recallLines
  split
  · rfl
  · generalize List.range _ = l
    induction l generalizing s with
    | nil => rfl
    | cons i l ih => rw [List.foldl_cons, ih, cellAt_recallLine]

/-- What stands in a byte after a store under a key: the byte with its key at its place, and every other as before. -/
theorem cellAt_storeCell (s : State) (key a p : Nat) (b : Byte) :
    cellAt (storeCell s key a b) p = if p = a then (b, if hostBase ≤ a then none else some (keyNow s key)) else cellAt s p := by
  unfold storeCell cellAt
  by_cases ha : hostBase ≤ a <;> by_cases hp : hostBase ≤ p
  · have : (p - hostBase = a - hostBase) = (p = a) := by apply propext; omega
    simp only [if_pos ha, if_pos hp, tblGet_set, this]
    split <;> rfl
  · simp only [if_pos ha, if_neg hp]
    rw [if_neg (by omega)]
  · simp only [if_neg ha, if_pos hp]
    rw [if_neg (by omega)]
  · simp only [if_neg ha, if_neg hp, tblGet_set, tblFind_insert]
    split <;> rfl

theorem readSpad_writeSpad (s : State) (core byte core' byte' : Nat) (b : Byte) :
    readSpad (writeSpad s core byte b) core' byte' = if spadKey core' byte' = spadKey core byte then b else readSpad s core' byte' :=
  tblGet_set 0 s.spad _ _ b

/-! ### Traps (R171, R173) -/

/-- What the taking of a trap does where issue stops in the whole group: its record waits at the kiosk of the group's core, and the group
is stopping, with a note of a debug trap. Nothing else changes. -/
theorem takeTrap_stops {s : State} {gid cause : Nat} {g : Group} (lanes : List Nat) (detail : Dword) (hg : getGroup s gid = some g)
    (h : (fibreStop s g && (cause == 0x14 || cause == 0x15)) = false) :
    takeTrap s cause gid lanes detail = modGroup (setKiosk s (coreOf gid) { getKiosk s (coreOf gid) with
      waiting := (getKiosk s (coreOf gid)).waiting ++ [trapRecordOf g gid cause lanes detail] }) gid fun g =>
        { g with stopping := true, debugPark := g.debugPark || cause == 0x14 || cause == 0x15 } := by
  have hf : ∀ k, fibreStop (setKiosk s (coreOf gid) k) g = fibreStop s g := fun _ => rfl
  simp only [takeTrap, hg, deliverTrap, stopFor, hf, h]
  rfl

/-- A trap of a group that is not resident has no effect. -/
theorem takeTrap_none {s : State} {gid : Nat} (cause : Nat) (lanes : List Nat) (detail : Dword) (hg : getGroup s gid = none) :
    takeTrap s cause gid lanes detail = s := by simp [takeTrap, hg]

/-- The group after a trap that stops it, and every other group. -/
theorem getGroup_takeTrap {s : State} {gid cause : Nat} {g : Group} (lanes : List Nat) (detail : Dword) (hg : getGroup s gid = some g)
    (h : (fibreStop s g && (cause == 0x14 || cause == 0x15)) = false) (k : Nat) :
    getGroup (takeTrap s cause gid lanes detail) k = if k = gid then
      some { g with stopping := true, debugPark := g.debugPark || cause == 0x14 || cause == 0x15 } else getGroup s k := by
  rw [takeTrap_stops lanes detail hg h, getGroup_modGroup]
  split
  · show Option.map _ (getGroup s gid) = _
    rw [hg]; rfl
  · rfl

/-- The release from a trap: the group runs again, every latch of its fibres invalid; from a debug park their first chains pass breakpoints. -/
theorem getGroup_releaseGroup (s : State) (gid k : Nat) : getGroup (releaseGroup s gid) k = if k = gid then
    (getGroup s gid).map fun g => { g with stopping := false, parked := false, debugPark := false, fibres := g.fibres.map fun f =>
      { f with latchValid := 0, passBreak := f.passBreak || g.debugPark } } else getGroup s k :=
  getGroup_modGroup s gid k _

theorem memForm_takeTrap {s : State} (cause gid : Nat) (lanes : List Nat) (detail : Dword) (h : MemForm s) :
    MemForm (takeTrap s cause gid lanes detail) := by
  unfold takeTrap
  split
  · exact h
  · unfold deliverTrap stopFor
    dsimp only
    split <;> exact h.of_eq rfl rfl rfl rfl rfl

theorem logOne_only (s : State) (f : Nat) (e : LogEntry) :
    logOne s f e = { s with errLog := (logOne s f e).errLog, errOvf := (logOne s f e).errOvf } := by
  unfold logOne
  dsimp only
  split
  · rfl
  · split <;> rfl

theorem logOne_twice (s : State) (f : Nat) (e : LogEntry) :
    logOne (logOne s f e) 0 e = { s with errLog := (logOne (logOne s f e) 0 e).errLog, errOvf := (logOne (logOne s f e) 0 e).errOvf } := by
  have a := logOne_only s f e
  generalize logOne s f e = u at a ⊢
  have b := logOne_only u 0 e
  generalize logOne u 0 e = v at b ⊢
  rw [b, a]

/-- A refused register write changes nothing but the logs. -/
theorem logError_only (s : State) (f cause : Nat) (addr : Dword) :
    logError s f cause addr = { s with errLog := (logError s f cause addr).errLog, errOvf := (logError s f cause addr).errOvf } := by
  unfold logError
  dsimp only
  split
  · exact logOne_only _ _ _
  · exact logOne_twice _ _ _

end Sys2Proof.Machine
end

