-- ==== Sys2Proof/Laws/PerInstr.lean ====
section
/-! SUPPORT. Decoding gives back what was encoded, instruction by instruction (R57 to R60, R72 to R75). -/

namespace Sys2Proof.Laws.Encoding

/-- The decoder reads an instruction's own fields from its encoding. -/
def Statement (i : Instr) : Prop := ∀ w, encode i = some w → i.wf = true → candidate w = some i


theorem addI32 (o : RR) : Statement (.addI32 o) := by
  rintro w ⟨⟩ -
  rw [candidate, encRR_at24]
  change some (Instr.addI32 (rrOf _)) = _
  rw [rrOf_encRR]

theorem subI32 (o : RR) : Statement (.subI32 o) := by
  rintro w ⟨⟩ -
  rw [candidate, encRR_at24]
  change some (Instr.subI32 (rrOf _)) = _
  rw [rrOf_encRR]

theorem mulI32 (o : RR) : Statement (.mulI32 o) := by
  rintro w ⟨⟩ -
  rw [candidate, encRR_at24]
  change some (Instr.mulI32 (rrOf _)) = _
  rw [rrOf_encRR]

theorem mulhI32 (o : RR) : Statement (.mulhI32 o) := by
  rintro w ⟨⟩ -
  rw [candidate, encRR_at24]
  change some (Instr.mulhI32 (rrOf _)) = _
  rw [rrOf_encRR]

theorem mulhN32 (o : RR) : Statement (.mulhN32 o) := by
  rintro w ⟨⟩ -
  rw [candidate, encRR_at24]
  change some (Instr.mulhN32 (rrOf _)) = _
  rw [rrOf_encRR]

theorem madI32 (o : RR) : Statement (.madI32 o) := by
  rintro w ⟨⟩ -
  rw [candidate, encRR_at24]
  change some (Instr.madI32 (rrOf _)) = _
  rw [rrOf_encRR]

theorem minI32 (o : RR) : Statement (.minI32 o) := by
  rintro w ⟨⟩ -
  rw [candidate, encRR_at24]
  change some (Instr.minI32 (rrOf _)) = _
  rw [rrOf_encRR]

theorem minN32 (o : RR) : Statement (.minN32 o) := by
  rintro w ⟨⟩ -
  rw [candidate, encRR_at24]
  change some (Instr.minN32 (rrOf _)) = _
  rw [rrOf_encRR]

theorem maxI32 (o : RR) : Statement (.maxI32 o) := by
  rintro w ⟨⟩ -
  rw [candidate, encRR_at24]
  change some (Instr.maxI32 (rrOf _)) = _
  rw [rrOf_encRR]

theorem maxN32 (o : RR) : Statement (.maxN32 o) := by
  rintro w ⟨⟩ -
  rw [candidate, encRR_at24]
  change some (Instr.maxN32 (rrOf _)) = _
  rw [rrOf_encRR]

theorem andW (o : RR) : Statement (.andW o) := by
  rintro w ⟨⟩ -
  rw [candidate, encRR_at24]
  change some (Instr.andW (rrOf _)) = _
  rw [rrOf_encRR]

theorem orW (o : RR) : Statement (.orW o) := by
  rintro w ⟨⟩ -
  rw [candidate, encRR_at24]
  change some (Instr.orW (rrOf _)) = _
  rw [rrOf_encRR]

theorem xorW (o : RR) : Statement (.xorW o) := by
  rintro w ⟨⟩ -
  rw [candidate, encRR_at24]
  change some (Instr.xorW (rrOf _)) = _
  rw [rrOf_encRR]

theorem shl (o : RR) : Statement (.shl o) := by
  rintro w ⟨⟩ -
  rw [candidate, encRR_at24]
  change some (Instr.shl (rrOf _)) = _
  rw [rrOf_encRR]

theorem shrN32 (o : RR) : Statement (.shrN32 o) := by
  rintro w ⟨⟩ -
  rw [candidate, encRR_at24]
  change some (Instr.shrN32 (rrOf _)) = _
  rw [rrOf_encRR]

theorem shrI32 (o : RR) : Statement (.shrI32 o) := by
  rintro w ⟨⟩ -
  rw [candidate, encRR_at24]
  change some (Instr.shrI32 (rrOf _)) = _
  rw [rrOf_encRR]

theorem rotl (o : RR) : Statement (.rotl o) := by
  rintro w ⟨⟩ -
  rw [candidate, encRR_at24]
  change some (Instr.rotl (rrOf _)) = _
  rw [rrOf_encRR]

theorem rotr (o : RR) : Statement (.rotr o) := by
  rintro w ⟨⟩ -
  rw [candidate, encRR_at24]
  change some (Instr.rotr (rrOf _)) = _
  rw [rrOf_encRR]

theorem bfxN32 (o : RR) : Statement (.bfxN32 o) := by
  rintro w ⟨⟩ -
  rw [candidate, encRR_at24]
  change some (Instr.bfxN32 (rrOf _)) = _
  rw [rrOf_encRR]

theorem bfxI32 (o : RR) : Statement (.bfxI32 o) := by
  rintro w ⟨⟩ -
  rw [candidate, encRR_at24]
  change some (Instr.bfxI32 (rrOf _)) = _
  rw [rrOf_encRR]

theorem bfi (o : RR) : Statement (.bfi o) := by
  rintro w ⟨⟩ -
  rw [candidate, encRR_at24]
  change some (Instr.bfi (rrOf _)) = _
  rw [rrOf_encRR]

theorem sel (o : RR) : Statement (.sel o) := by
  rintro w ⟨⟩ -
  rw [candidate, encRR_at24]
  change some (Instr.sel (rrOf _)) = _
  rw [rrOf_encRR]

theorem cmpEqI32 (o : CP) : Statement (.cmpEqI32 o) := by
  rintro w ⟨⟩ -
  rw [candidate, encCP_at24]
  change some (Instr.cmpEqI32 (cpOf _)) = _
  rw [cpOf_encCP]

theorem cmpNeI32 (o : CP) : Statement (.cmpNeI32 o) := by
  rintro w ⟨⟩ -
  rw [candidate, encCP_at24]
  change some (Instr.cmpNeI32 (cpOf _)) = _
  rw [cpOf_encCP]

theorem cmpLtI32 (o : CP) : Statement (.cmpLtI32 o) := by
  rintro w ⟨⟩ -
  rw [candidate, encCP_at24]
  change some (Instr.cmpLtI32 (cpOf _)) = _
  rw [cpOf_encCP]

theorem cmpLtN32 (o : CP) : Statement (.cmpLtN32 o) := by
  rintro w ⟨⟩ -
  rw [candidate, encCP_at24]
  change some (Instr.cmpLtN32 (cpOf _)) = _
  rw [cpOf_encCP]

theorem cmpLeI32 (o : CP) : Statement (.cmpLeI32 o) := by
  rintro w ⟨⟩ -
  rw [candidate, encCP_at24]
  change some (Instr.cmpLeI32 (cpOf _)) = _
  rw [cpOf_encCP]

theorem cmpLeN32 (o : CP) : Statement (.cmpLeN32 o) := by
  rintro w ⟨⟩ -
  rw [candidate, encCP_at24]
  change some (Instr.cmpLeN32 (cpOf _)) = _
  rw [cpOf_encCP]

theorem addI64 (o : RR) : Statement (.addI64 o) := by
  rintro w ⟨⟩ -
  rw [candidate, encRR_at24]
  change some (Instr.addI64 (rrOf _)) = _
  rw [rrOf_encRR]

theorem subI64 (o : RR) : Statement (.subI64 o) := by
  rintro w ⟨⟩ -
  rw [candidate, encRR_at24]
  change some (Instr.subI64 (rrOf _)) = _
  rw [rrOf_encRR]

theorem shlI64 (o : RR) : Statement (.shlI64 o) := by
  rintro w ⟨⟩ -
  rw [candidate, encRR_at24]
  change some (Instr.shlI64 (rrOf _)) = _
  rw [rrOf_encRR]

theorem shrN64 (o : RR) : Statement (.shrN64 o) := by
  rintro w ⟨⟩ -
  rw [candidate, encRR_at24]
  change some (Instr.shrN64 (rrOf _)) = _
  rw [rrOf_encRR]

theorem shrI64 (o : RR) : Statement (.shrI64 o) := by
  rintro w ⟨⟩ -
  rw [candidate, encRR_at24]
  change some (Instr.shrI64 (rrOf _)) = _
  rw [rrOf_encRR]

theorem bdep (o : RR) : Statement (.bdep o) := by
  rintro w ⟨⟩ -
  rw [candidate, encRR_at24]
  change some (Instr.bdep (rrOf _)) = _
  rw [rrOf_encRR]

theorem bext (o : RR) : Statement (.bext o) := by
  rintro w ⟨⟩ -
  rw [candidate, encRR_at24]
  change some (Instr.bext (rrOf _)) = _
  rw [rrOf_encRR]

theorem bperm (o : RR) : Statement (.bperm o) := by
  rintro w ⟨⟩ -
  rw [candidate, encRR_at24]
  change some (Instr.bperm (rrOf _)) = _
  rw [rrOf_encRR]

theorem gfm8 (o : RR) : Statement (.gfm8 o) := by
  rintro w ⟨⟩ -
  rw [candidate, encRR_at24]
  change some (Instr.gfm8 (rrOf _)) = _
  rw [rrOf_encRR]

theorem addi (o : RI) : Statement (.addi o) := by
  rintro w ⟨⟩ -
  rw [candidate, encRI_at24]
  change some (Instr.addi (riOf _)) = _
  rw [riOf_encRI]

theorem andi (o : RI) : Statement (.andi o) := by
  rintro w ⟨⟩ -
  rw [candidate, encRI_at24]
  change some (Instr.andi (riOf _)) = _
  rw [riOf_encRI]

theorem ori (o : RI) : Statement (.ori o) := by
  rintro w ⟨⟩ -
  rw [candidate, encRI_at24]
  change some (Instr.ori (riOf _)) = _
  rw [riOf_encRI]

theorem xori (o : RI) : Statement (.xori o) := by
  rintro w ⟨⟩ -
  rw [candidate, encRI_at24]
  change some (Instr.xori (riOf _)) = _
  rw [riOf_encRI]

theorem shli (o : RI) : Statement (.shli o) := by
  rintro w ⟨⟩ -
  rw [candidate, encRI_at24]
  change some (Instr.shli (riOf _)) = _
  rw [riOf_encRI]

theorem shriN32 (o : RI) : Statement (.shriN32 o) := by
  rintro w ⟨⟩ -
  rw [candidate, encRI_at24]
  change some (Instr.shriN32 (riOf _)) = _
  rw [riOf_encRI]

theorem shriI32 (o : RI) : Statement (.shriI32 o) := by
  rintro w ⟨⟩ -
  rw [candidate, encRI_at24]
  change some (Instr.shriI32 (riOf _)) = _
  rw [riOf_encRI]

theorem movi (c nw : Bool) (d : BitVec 7) (imm : BitVec 16) : Statement (.movi c nw d imm) := by
  rintro w ⟨⟩ -
  rw [candidate, movi_at24]
  change some (Instr.movi (flag _ 31) (flag _ 23) (field _ 16 7) (field _ 0 16)) = _
  rw [movi_at31, movi_at23, movi_at16, movi_at0]

theorem absI32 (o : RU) : Statement (.absI32 o) := by
  rintro w ⟨⟩ -
  rw [candidate, encRU_at24]
  change unaryOf (field _ 0 8).toNat _ = _
  rw [encRU_at0]
  change some (Instr.absI32 (ruOf _)) = _
  rw [ruOf_encRU]

theorem negI32 (o : RU) : Statement (.negI32 o) := by
  rintro w ⟨⟩ -
  rw [candidate, encRU_at24]
  change unaryOf (field _ 0 8).toNat _ = _
  rw [encRU_at0]
  change some (Instr.negI32 (ruOf _)) = _
  rw [ruOf_encRU]

theorem notW (o : RU) : Statement (.notW o) := by
  rintro w ⟨⟩ -
  rw [candidate, encRU_at24]
  change unaryOf (field _ 0 8).toNat _ = _
  rw [encRU_at0]
  change some (Instr.notW (ruOf _)) = _
  rw [ruOf_encRU]

theorem clz (o : RU) : Statement (.clz o) := by
  rintro w ⟨⟩ -
  rw [candidate, encRU_at24]
  change unaryOf (field _ 0 8).toNat _ = _
  rw [encRU_at0]
  change some (Instr.clz (ruOf _)) = _
  rw [ruOf_encRU]

theorem popc (o : RU) : Statement (.popc o) := by
  rintro w ⟨⟩ -
  rw [candidate, encRU_at24]
  change unaryOf (field _ 0 8).toNat _ = _
  rw [encRU_at0]
  change some (Instr.popc (ruOf _)) = _
  rw [ruOf_encRU]

theorem brev (o : RU) : Statement (.brev o) := by
  rintro w ⟨⟩ -
  rw [candidate, encRU_at24]
  change unaryOf (field _ 0 8).toNat _ = _
  rw [encRU_at0]
  change some (Instr.brev (ruOf _)) = _
  rw [ruOf_encRU]

theorem mov (o : RU) : Statement (.mov o) := by
  rintro w ⟨⟩ -
  rw [candidate, encRU_at24]
  change unaryOf (field _ 0 8).toNat _ = _
  rw [encRU_at0]
  change some (Instr.mov (ruOf _)) = _
  rw [ruOf_encRU]

theorem addF32 (o : RR) : Statement (.addF32 o) := by
  rintro w ⟨⟩ -
  rw [candidate, encRR_at24]
  change some (Instr.addF32 (rrOf _)) = _
  rw [rrOf_encRR]

theorem subF32 (o : RR) : Statement (.subF32 o) := by
  rintro w ⟨⟩ -
  rw [candidate, encRR_at24]
  change some (Instr.subF32 (rrOf _)) = _
  rw [rrOf_encRR]

theorem mulF32 (o : RR) : Statement (.mulF32 o) := by
  rintro w ⟨⟩ -
  rw [candidate, encRR_at24]
  change some (Instr.mulF32 (rrOf _)) = _
  rw [rrOf_encRR]

theorem fmaF32 (o : RR) : Statement (.fmaF32 o) := by
  rintro w ⟨⟩ -
  rw [candidate, encRR_at24]
  change some (Instr.fmaF32 (rrOf _)) = _
  rw [rrOf_encRR]

theorem minF32 (o : RR) : Statement (.minF32 o) := by
  rintro w ⟨⟩ -
  rw [candidate, encRR_at24]
  change some (Instr.minF32 (rrOf _)) = _
  rw [rrOf_encRR]

theorem maxF32 (o : RR) : Statement (.maxF32 o) := by
  rintro w ⟨⟩ -
  rw [candidate, encRR_at24]
  change some (Instr.maxF32 (rrOf _)) = _
  rw [rrOf_encRR]

theorem minnumF32 (o : RR) : Statement (.minnumF32 o) := by
  rintro w ⟨⟩ -
  rw [candidate, encRR_at24]
  change some (Instr.minnumF32 (rrOf _)) = _
  rw [rrOf_encRR]

theorem maxnumF32 (o : RR) : Statement (.maxnumF32 o) := by
  rintro w ⟨⟩ -
  rw [candidate, encRR_at24]
  change some (Instr.maxnumF32 (rrOf _)) = _
  rw [rrOf_encRR]

theorem scaleF32 (o : RR) : Statement (.scaleF32 o) := by
  rintro w ⟨⟩ -
  rw [candidate, encRR_at24]
  change some (Instr.scaleF32 (rrOf _)) = _
  rw [rrOf_encRR]

theorem cmpEqF32 (o : CP) : Statement (.cmpEqF32 o) := by
  rintro w ⟨⟩ -
  rw [candidate, encCP_at24]
  change some (Instr.cmpEqF32 (cpOf _)) = _
  rw [cpOf_encCP]

theorem cmpLtF32 (o : CP) : Statement (.cmpLtF32 o) := by
  rintro w ⟨⟩ -
  rw [candidate, encCP_at24]
  change some (Instr.cmpLtF32 (cpOf _)) = _
  rw [cpOf_encCP]

theorem cmpLeF32 (o : CP) : Statement (.cmpLeF32 o) := by
  rintro w ⟨⟩ -
  rw [candidate, encCP_at24]
  change some (Instr.cmpLeF32 (cpOf _)) = _
  rw [cpOf_encCP]

theorem cmpUnF32 (o : CP) : Statement (.cmpUnF32 o) := by
  rintro w ⟨⟩ -
  rw [candidate, encCP_at24]
  change some (Instr.cmpUnF32 (cpOf _)) = _
  rw [cpOf_encCP]

theorem cvt (o : RU) (t s : BitVec 4) : Statement (.cvt o t s) := by
  rintro w ⟨⟩ h
  rw [candidate, encRU_at24]
  have ht : field (encRU 0x3C#7 o (t ++ s)) 4 4 = t := field_left _ 0 t s (encRU_at0 _ _ _)
  have hs : field (encRU 0x3C#7 o (t ++ s)) 0 4 = s := field_right _ 0 t s (encRU_at0 _ _ _)
  change (if (field _ 4 4 == field _ 0 4 && decide ((field _ 0 4).toNat ≤ 2)) = true then _ else some (Instr.cvt (ruOf _) (field _ 4 4) (field _ 0 4))) = _
  rw [ht, hs, ruOf_encRU, if_neg]
  intro hc
  have hc2 : t = s ∧ s.toNat ≤ 2 := by simpa using hc
  have hk : cvtOk t.toNat s.toNat = false := by
    rw [hc2.1]
    have h9 : decide (s.toNat ≤ 9) = true := decide_eq_true (by omega)
    simp [cvtOk, h9]
  have hi : (Instr.cvt o t s).illFormed = (illRU o).orElse fun _ => firstIll (need (cvtOk t.toNat s.toNat) .cvtCode) := rfl
  rw [Instr.wf, hi, hk] at h
  cases hr : illRU o <;> rw [hr] at h <;> cases h

theorem rnd (o : RU) (t : BitVec 2) : Statement (.rnd o t) := by
  rintro w ⟨⟩ h
  rw [candidate, encRU_at24]
  have hf : field (encRU 0x3C#7 o ((0#2) ++ t ++ (0#2) ++ t)) 0 8 = (((0#2) ++ t : BitVec 4) ++ ((0#2) ++ t : BitVec 4) : BitVec 8) := by
    rw [encRU_at0]; clear h; revert t; decide
  have ht : field (encRU 0x3C#7 o ((0#2) ++ t ++ (0#2) ++ t)) 4 4 = ((0#2) ++ t : BitVec 4) :=
    field_left (n := 4) (m := 4) _ 0 _ _ hf
  have hs : field (encRU 0x3C#7 o ((0#2) ++ t ++ (0#2) ++ t)) 0 4 = ((0#2) ++ t : BitVec 4) :=
    field_right (n := 4) (m := 4) _ 0 _ _ hf
  have h2 : field (encRU 0x3C#7 o ((0#2) ++ t ++ (0#2) ++ t)) 0 2 = t := field_right (n := 2) (m := 2) _ 0 _ _ hs
  change (if (field _ 4 4 == field _ 0 4 && decide ((field _ 0 4).toNat ≤ 2)) = true then some (Instr.rnd (ruOf _) (field _ 0 2)) else _) = _
  have ht2 : t.toNat ≤ 2 := by
    refine Decidable.by_contra fun hn => ?_
    have hi : (Instr.rnd o t).illFormed = (illRU o).orElse fun _ => firstIll (need (decide (t.toNat ≤ 2)) .rndCode) := rfl
    rw [Instr.wf, hi, decide_eq_false hn] at h
    cases hr : illRU o <;> rw [hr] at h <;> cases h
  rw [ht, hs, h2, ruOf_encRU, if_pos]
  have : ((0#2) ++ t : BitVec 4).toNat = t.toNat := by clear ht2 hf ht hs h2 h; revert t; decide
  simp [this, ht2]

theorem addBf16 (o : RR) : Statement (.addBf16 o) := by
  rintro w ⟨⟩ -
  rw [candidate, encRR_at24]
  change some (Instr.addBf16 (rrOf _)) = _
  rw [rrOf_encRR]

theorem mulBf16 (o : RR) : Statement (.mulBf16 o) := by
  rintro w ⟨⟩ -
  rw [candidate, encRR_at24]
  change some (Instr.mulBf16 (rrOf _)) = _
  rw [rrOf_encRR]

theorem fmaBf16 (o : RR) : Statement (.fmaBf16 o) := by
  rintro w ⟨⟩ -
  rw [candidate, encRR_at24]
  change some (Instr.fmaBf16 (rrOf _)) = _
  rw [rrOf_encRR]

theorem addF16 (o : RR) : Statement (.addF16 o) := by
  rintro w ⟨⟩ -
  rw [candidate, encRR_at24]
  change some (Instr.addF16 (rrOf _)) = _
  rw [rrOf_encRR]

theorem mulF16 (o : RR) : Statement (.mulF16 o) := by
  rintro w ⟨⟩ -
  rw [candidate, encRR_at24]
  change some (Instr.mulF16 (rrOf _)) = _
  rw [rrOf_encRR]

theorem fmaF16 (o : RR) : Statement (.fmaF16 o) := by
  rintro w ⟨⟩ -
  rw [candidate, encRR_at24]
  change some (Instr.fmaF16 (rrOf _)) = _
  rw [rrOf_encRR]

theorem packBf16 (o : RR) : Statement (.packBf16 o) := by
  rintro w ⟨⟩ -
  rw [candidate, encRR_at24]
  change some (Instr.packBf16 (rrOf _)) = _
  rw [rrOf_encRR]

theorem packF16 (o : RR) : Statement (.packF16 o) := by
  rintro w ⟨⟩ -
  rw [candidate, encRR_at24]
  change some (Instr.packF16 (rrOf _)) = _
  rw [rrOf_encRR]

theorem dot4E4m3 (o : RR) : Statement (.dot4E4m3 o) := by
  rintro w ⟨⟩ -
  rw [candidate, encRR_at24]
  change some (Instr.dot4E4m3 (rrOf _)) = _
  rw [rrOf_encRR]

theorem allNz (c nw : Bool) (d sa : BitVec 7) : Statement (.allNz c nw d sa) := by
  rintro w ⟨⟩ -
  rw [candidate, encCross_at24]
  change crossOf (field _ 5 3).toNat _ = _
  rw [show field _ 5 3 = 0#3 from field_part _ 0 5 3 _ (encCross_at0 _ _ _ _ _)]
  change some (Instr.allNz (flag _ 31) (flag _ 23) (field _ 16 7) (field _ 8 7)) = _
  rw [encCross_at31, encCross_at23, encCross_at16, encCross_at8]

theorem anyNz (c nw : Bool) (d sa : BitVec 7) : Statement (.anyNz c nw d sa) := by
  rintro w ⟨⟩ -
  rw [candidate, encCross_at24]
  change crossOf (field _ 5 3).toNat _ = _
  rw [show field _ 5 3 = 1#3 from field_part _ 0 5 3 _ (encCross_at0 _ _ _ _ _)]
  change some (Instr.anyNz (flag _ 31) (flag _ 23) (field _ 16 7) (field _ 8 7)) = _
  rw [encCross_at31, encCross_at23, encCross_at16, encCross_at8]

theorem allEq (c nw : Bool) (d sa : BitVec 7) : Statement (.allEq c nw d sa) := by
  rintro w ⟨⟩ -
  rw [candidate, encCross_at24]
  change crossOf (field _ 5 3).toNat _ = _
  rw [show field _ 5 3 = 2#3 from field_part _ 0 5 3 _ (encCross_at0 _ _ _ _ _)]
  change some (Instr.allEq (flag _ 31) (flag _ 23) (field _ 16 7) (field _ 8 7)) = _
  rw [encCross_at31, encCross_at23, encCross_at16, encCross_at8]

theorem nzmask (c nw : Bool) (d sa : BitVec 7) : Statement (.nzmask c nw d sa) := by
  rintro w ⟨⟩ -
  rw [candidate, encCross_at24]
  change crossOf (field _ 5 3).toNat _ = _
  rw [show field _ 5 3 = 3#3 from field_part _ 0 5 3 _ (encCross_at0 _ _ _ _ _)]
  change some (Instr.nzmask (flag _ 31) (flag _ 23) (field _ 16 7) (field _ 8 7)) = _
  rw [encCross_at31, encCross_at23, encCross_at16, encCross_at8]

theorem scanInc (c nw : Bool) (d sa : BitVec 7) (op : BitVec 5) : Statement (.scanInc c nw d sa op) := by
  rintro w ⟨⟩ -
  rw [candidate, encCross_at24]
  change crossOf (field _ 5 3).toNat _ = _
  rw [show field _ 5 3 = (4#3) from field_left _ 0 (4#3) op (encCross_at0 _ _ _ _ _)]
  change some (Instr.scanInc (flag _ 31) (flag _ 23) (field _ 16 7) (field _ 8 7) (field _ 0 5)) = _
  rw [encCross_at31, encCross_at23, encCross_at16, encCross_at8, show field _ 0 5 = op from field_right _ 0 (4#3) op (encCross_at0 _ _ _ _ _)]

theorem scanExc (c nw : Bool) (d sa : BitVec 7) (op : BitVec 5) : Statement (.scanExc c nw d sa op) := by
  rintro w ⟨⟩ -
  rw [candidate, encCross_at24]
  change crossOf (field _ 5 3).toNat _ = _
  rw [show field _ 5 3 = (5#3) from field_left _ 0 (5#3) op (encCross_at0 _ _ _ _ _)]
  change some (Instr.scanExc (flag _ 31) (flag _ 23) (field _ 16 7) (field _ 8 7) (field _ 0 5)) = _
  rw [encCross_at31, encCross_at23, encCross_at16, encCross_at8, show field _ 0 5 = op from field_right _ 0 (5#3) op (encCross_at0 _ _ _ _ _)]

theorem reduce (c nw : Bool) (d sa : BitVec 7) (op : BitVec 5) : Statement (.reduce c nw d sa op) := by
  rintro w ⟨⟩ -
  rw [candidate, encCross_at24]
  change crossOf (field _ 5 3).toNat _ = _
  rw [show field _ 5 3 = (6#3) from field_left _ 0 (6#3) op (encCross_at0 _ _ _ _ _)]
  change some (Instr.reduce (flag _ 31) (flag _ 23) (field _ 16 7) (field _ 8 7) (field _ 0 5)) = _
  rw [encCross_at31, encCross_at23, encCross_at16, encCross_at8, show field _ 0 5 = op from field_right _ 0 (6#3) op (encCross_at0 _ _ _ _ _)]

theorem lcnt (c nw : Bool) (d sa : BitVec 7) : Statement (.lcnt c nw d sa) := by
  rintro w ⟨⟩ -
  rw [candidate, encCross_at24]
  change crossOf (field _ 5 3).toNat _ = _
  rw [show field _ 5 3 = 7#3 from field_part _ 0 5 3 _ (encCross_at0 _ _ _ _ _)]
  change some (Instr.lcnt (flag _ 31) (flag _ 23) (field _ 16 7) (field _ 8 7)) = _
  rw [encCross_at31, encCross_at23, encCross_at16, encCross_at8]

theorem exp (o : SF) : Statement (.exp o) := by
  rintro w ⟨⟩ -
  rw [candidate, encSF_at24]
  change specialOf (field _ 3 3).toNat _ = _
  rw [encSF_at3]
  change some (Instr.exp (sfOf _)) = _
  rw [sfOf_encSF]

theorem log (o : SF) : Statement (.log o) := by
  rintro w ⟨⟩ -
  rw [candidate, encSF_at24]
  change specialOf (field _ 3 3).toNat _ = _
  rw [encSF_at3]
  change some (Instr.log (sfOf _)) = _
  rw [sfOf_encSF]

theorem rcp (o : SF) : Statement (.rcp o) := by
  rintro w ⟨⟩ -
  rw [candidate, encSF_at24]
  change specialOf (field _ 3 3).toNat _ = _
  rw [encSF_at3]
  change some (Instr.rcp (sfOf _)) = _
  rw [sfOf_encSF]

theorem rsqrt (o : SF) : Statement (.rsqrt o) := by
  rintro w ⟨⟩ -
  rw [candidate, encSF_at24]
  change specialOf (field _ 3 3).toNat _ = _
  rw [encSF_at3]
  change some (Instr.rsqrt (sfOf _)) = _
  rw [sfOf_encSF]

theorem sqrt (o : SF) : Statement (.sqrt o) := by
  rintro w ⟨⟩ -
  rw [candidate, encSF_at24]
  change specialOf (field _ 3 3).toNat _ = _
  rw [encSF_at3]
  change some (Instr.sqrt (sfOf _)) = _
  rw [sfOf_encSF]

theorem sin (o : SF) : Statement (.sin o) := by
  rintro w ⟨⟩ -
  rw [candidate, encSF_at24]
  change specialOf (field _ 3 3).toNat _ = _
  rw [encSF_at3]
  change some (Instr.sin (sfOf _)) = _
  rw [sfOf_encSF]

theorem cos (o : SF) : Statement (.cos o) := by
  rintro w ⟨⟩ -
  rw [candidate, encSF_at24]
  change specialOf (field _ 3 3).toNat _ = _
  rw [encSF_at3]
  change some (Instr.cos (sfOf _)) = _
  rw [sfOf_encSF]

theorem tanh (o : SF) : Statement (.tanh o) := by
  rintro w ⟨⟩ -
  rw [candidate, encSF_at24]
  change specialOf (field _ 3 3).toNat _ = _
  rw [encSF_at3]
  change some (Instr.tanh (sfOf _)) = _
  rw [sfOf_encSF]

theorem ld (o : MM) : Statement (.ld o) := by
  rintro w ⟨⟩ -
  rw [candidate, encMM_at24]
  change some (Instr.ld (mmOf _)) = _
  rw [mmOf_encMM]

theorem st (o : MM) : Statement (.st o) := by
  rintro w ⟨⟩ -
  rw [candidate, encMM_at24]
  change some (Instr.st (mmOf _)) = _
  rw [mmOf_encMM]

theorem lds (o : MM) : Statement (.lds o) := by
  rintro w ⟨⟩ -
  rw [candidate, encMM_at24]
  change some (Instr.lds (mmOf _)) = _
  rw [mmOf_encMM]

theorem sts (o : MM) : Statement (.sts o) := by
  rintro w ⟨⟩ -
  rw [candidate, encMM_at24]
  change some (Instr.sts (mmOf _)) = _
  rw [mmOf_encMM]

theorem ldw (o : MM) : Statement (.ldw o) := by
  rintro w ⟨⟩ -
  rw [candidate, encMM_at24]
  change some (Instr.ldw (mmOf _)) = _
  rw [mmOf_encMM]

theorem pf (c : Bool) (bp : BitVec 5) (rh : BitVec 2) (we : Bool) (ws : BitVec 3) (l2 : Bool) : Statement (.pf c bp rh we ws l2) := by
  rintro w ⟨⟩ -
  rw [candidate, encMM_at24]
  change some (Instr.pf (flag _ 31) (field _ 12 5) (field _ 7 2) (flag _ 6) (field _ 3 3) (flag _ 0)) = _
  rw [encMM_at31, encMM_at12, encMM_at7, encMM_at6, encMM_at3
    , flag_of_field _ 0 l2 (field_right _ 0 (0#2) (bit l2) (encMM_at0 _ ⟨c, 0, bp, 0, rh, we, ws, (0#2) ++ bit l2⟩))]

theorem spill (o : MM) : Statement (.spill o) := by
  rintro w ⟨⟩ -
  rw [candidate, encMM_at24]
  change some (Instr.spill (mmOf _)) = _
  rw [mmOf_encMM]

theorem fill (o : MM) : Statement (.fill o) := by
  rintro w ⟨⟩ -
  rw [candidate, encMM_at24]
  change some (Instr.fill (mmOf _)) = _
  rw [mmOf_encMM]

theorem scld (o : MM) : Statement (.scld o) := by
  rintro w ⟨⟩ -
  rw [candidate, encMM_at24]
  change some (Instr.scld (mmOf _)) = _
  rw [mmOf_encMM]

theorem atomAdd (o : MAt) : Statement (.atomAdd o) := by
  rintro w ⟨⟩ -
  rw [candidate, encMA_at24]
  change atomicOf (field _ 3 4).toNat _ = _
  rw [encMA_at3]
  change some (Instr.atomAdd (maOf _)) = _
  rw [maOf_encMA]

theorem atomMin (o : MAt) : Statement (.atomMin o) := by
  rintro w ⟨⟩ -
  rw [candidate, encMA_at24]
  change atomicOf (field _ 3 4).toNat _ = _
  rw [encMA_at3]
  change some (Instr.atomMin (maOf _)) = _
  rw [maOf_encMA]

theorem atomMax (o : MAt) : Statement (.atomMax o) := by
  rintro w ⟨⟩ -
  rw [candidate, encMA_at24]
  change atomicOf (field _ 3 4).toNat _ = _
  rw [encMA_at3]
  change some (Instr.atomMax (maOf _)) = _
  rw [maOf_encMA]

theorem atomAnd (o : MAt) : Statement (.atomAnd o) := by
  rintro w ⟨⟩ -
  rw [candidate, encMA_at24]
  change atomicOf (field _ 3 4).toNat _ = _
  rw [encMA_at3]
  change some (Instr.atomAnd (maOf _)) = _
  rw [maOf_encMA]

theorem atomOr (o : MAt) : Statement (.atomOr o) := by
  rintro w ⟨⟩ -
  rw [candidate, encMA_at24]
  change atomicOf (field _ 3 4).toNat _ = _
  rw [encMA_at3]
  change some (Instr.atomOr (maOf _)) = _
  rw [maOf_encMA]

theorem atomXor (o : MAt) : Statement (.atomXor o) := by
  rintro w ⟨⟩ -
  rw [candidate, encMA_at24]
  change atomicOf (field _ 3 4).toNat _ = _
  rw [encMA_at3]
  change some (Instr.atomXor (maOf _)) = _
  rw [maOf_encMA]

theorem atomExch (o : MAt) : Statement (.atomExch o) := by
  rintro w ⟨⟩ -
  rw [candidate, encMA_at24]
  change atomicOf (field _ 3 4).toNat _ = _
  rw [encMA_at3]
  change some (Instr.atomExch (maOf _)) = _
  rw [maOf_encMA]

theorem atomCas (o : MAt) : Statement (.atomCas o) := by
  rintro w ⟨⟩ -
  rw [candidate, encMA_at24]
  change atomicOf (field _ 3 4).toNat _ = _
  rw [encMA_at3]
  change some (Instr.atomCas (maOf _)) = _
  rw [maOf_encMA]

theorem redAdd (o : MAt) : Statement (.redAdd o) := by
  rintro w ⟨⟩ -
  rw [candidate, encMA_at24]
  change reductionOf (field _ 3 4).toNat _ = _
  rw [encMA_at3]
  change some (Instr.redAdd (maOf _)) = _
  rw [maOf_encMA]

theorem redMin (o : MAt) : Statement (.redMin o) := by
  rintro w ⟨⟩ -
  rw [candidate, encMA_at24]
  change reductionOf (field _ 3 4).toNat _ = _
  rw [encMA_at3]
  change some (Instr.redMin (maOf _)) = _
  rw [maOf_encMA]

theorem redMax (o : MAt) : Statement (.redMax o) := by
  rintro w ⟨⟩ -
  rw [candidate, encMA_at24]
  change reductionOf (field _ 3 4).toNat _ = _
  rw [encMA_at3]
  change some (Instr.redMax (maOf _)) = _
  rw [maOf_encMA]

theorem redAnd (o : MAt) : Statement (.redAnd o) := by
  rintro w ⟨⟩ -
  rw [candidate, encMA_at24]
  change reductionOf (field _ 3 4).toNat _ = _
  rw [encMA_at3]
  change some (Instr.redAnd (maOf _)) = _
  rw [maOf_encMA]

theorem redOr (o : MAt) : Statement (.redOr o) := by
  rintro w ⟨⟩ -
  rw [candidate, encMA_at24]
  change reductionOf (field _ 3 4).toNat _ = _
  rw [encMA_at3]
  change some (Instr.redOr (maOf _)) = _
  rw [maOf_encMA]

theorem redXor (o : MAt) : Statement (.redXor o) := by
  rintro w ⟨⟩ -
  rw [candidate, encMA_at24]
  change reductionOf (field _ 3 4).toNat _ = _
  rw [encMA_at3]
  change some (Instr.redXor (maOf _)) = _
  rw [maOf_encMA]

theorem kvres (o : EF) : Statement (.kvres o) := by
  rintro w ⟨⟩ -
  rw [candidate, encE_at24]
  change some (Instr.kvres (efOf _)) = _
  rw [efOf_encE]

theorem fence (c : Bool) (sc : BitVec 2) : Statement (.fence c sc) := by
  rintro w ⟨⟩ -
  rw [candidate, fence_at24]
  change some (Instr.fence (flag _ 31) (field _ 22 2)) = _
  rw [fence_at31, fence_at22]

theorem barInit (c : Bool) (sa : BitVec 7) (k : BitVec 6) : Statement (.barInit c sa k) := by
  rintro w ⟨⟩ -
  rw [candidate, encE_at24]
  change barrierOf (field _ 6 4).toNat _ = _
  rw [encE_at6]
  change some (Instr.barInit (flag _ 31) (field _ 10 7) (field _ 0 6)) = _
  rw [encE_at31, encE_at10, encE_at0]

theorem barArrive (o : EF) (k : BitVec 6) : Statement (.barArrive o k) := by
  rintro w ⟨⟩ -
  rw [candidate, encE_at24]
  change barrierOf (field _ 6 4).toNat _ = _
  rw [encE_at6]
  change some (Instr.barArrive (efOf _) (field _ 0 6)) = _
  rw [efOf_encE, encE_at0]

theorem barExpect (c : Bool) (sa : BitVec 7) (k : BitVec 6) : Statement (.barExpect c sa k) := by
  rintro w ⟨⟩ -
  rw [candidate, encE_at24]
  change barrierOf (field _ 6 4).toNat _ = _
  rw [encE_at6]
  change some (Instr.barExpect (flag _ 31) (field _ 10 7) (field _ 0 6)) = _
  rw [encE_at31, encE_at10, encE_at0]

theorem barWait (o : EF) (k : BitVec 4) : Statement (.barWait o k) := by
  rintro w ⟨⟩ -
  rw [candidate, encE_at24]
  change barrierOf (field _ 6 4).toNat _ = _
  rw [encE_at6]
  change some (Instr.barWait (efOf _) (field _ 0 4)) = _
  rw [efOf_encE, show field _ 0 4 = k from field_right _ 0 (0#2) k (encE_at0 _ _ _ _ _ _)]

theorem barTest (o : EF) (k : BitVec 4) : Statement (.barTest o k) := by
  rintro w ⟨⟩ -
  rw [candidate, encE_at24]
  change barrierOf (field _ 6 4).toNat _ = _
  rw [encE_at6]
  change some (Instr.barTest (efOf _) (field _ 0 4)) = _
  rw [efOf_encE, show field _ 0 4 = k from field_right _ 0 (0#2) k (encE_at0 _ _ _ _ _ _)]

theorem barInval (c : Bool) (sa : BitVec 7) : Statement (.barInval c sa) := by
  rintro w ⟨⟩ -
  rw [candidate, encE_at24]
  change barrierOf (field _ 6 4).toNat _ = _
  rw [encE_at6]
  change some (Instr.barInval (flag _ 31) (field _ 10 7)) = _
  rw [encE_at31, encE_at10]

theorem kick (o : EF) : Statement (.kick o) := by
  rintro w ⟨⟩ -
  rw [candidate, encE_at24]
  change engineOf (field _ 6 4).toNat _ = _
  rw [encE_at6]
  change some (Instr.kick (efOf _)) = _
  rw [efOf_encE]

theorem cstat (o : EF) : Statement (.cstat o) := by
  rintro w ⟨⟩ -
  rw [candidate, encE_at24]
  change engineOf (field _ 6 4).toNat _ = _
  rw [encE_at6]
  change some (Instr.cstat (efOf _)) = _
  rw [efOf_encE]

theorem commit (o : EF) (l : BitVec 2) : Statement (.commit o l) := by
  rintro w ⟨⟩ -
  rw [candidate, encE_at24]
  change engineOf (field _ 6 4).toNat _ = _
  rw [encE_at6]
  change some (Instr.commit (efOf _) (field _ 0 2)) = _
  rw [efOf_encE, show field _ 0 2 = l from field_right _ 0 (0#4) l (encE_at0 _ _ _ _ _ _)]

theorem cln (c : Bool) (sa : BitVec 7) (k : BitVec 6) : Statement (.cln c sa k) := by
  rintro w ⟨⟩ -
  rw [candidate, encE_at24]
  change engineOf (field _ 6 4).toNat _ = _
  rw [encE_at6]
  change some (Instr.cln (flag _ 31) (field _ 10 7) (field _ 0 6)) = _
  rw [encE_at31, encE_at10, encE_at0]

theorem inv (c : Bool) (sa : BitVec 7) (k : BitVec 6) : Statement (.inv c sa k) := by
  rintro w ⟨⟩ -
  rw [candidate, encE_at24]
  change engineOf (field _ 6 4).toNat _ = _
  rw [encE_at6]
  change some (Instr.inv (flag _ 31) (field _ 10 7) (field _ 0 6)) = _
  rw [encE_at31, encE_at10, encE_at0]

theorem clninv (c : Bool) (sa : BitVec 7) (k : BitVec 6) : Statement (.clninv c sa k) := by
  rintro w ⟨⟩ -
  rw [candidate, encE_at24]
  change engineOf (field _ 6 4).toNat _ = _
  rw [encE_at6]
  change some (Instr.clninv (flag _ 31) (field _ 10 7) (field _ 0 6)) = _
  rw [encE_at31, encE_at10, encE_at0]

theorem place (o : EF) (n : BitVec 4) (t : BitVec 2) : Statement (.place o n t) := by
  rintro w ⟨⟩ -
  rw [candidate, encE_at24]
  change engineOf (field _ 6 4).toNat _ = _
  rw [encE_at6]
  change some (Instr.place (efOf _) (field _ 2 4) (field _ 0 2)) = _
  rw [efOf_encE, show field _ 2 4 = n from field_left _ 0 n t (encE_at0 _ _ _ _ _ _), show field _ 0 2 = t from field_right _ 0 n t (encE_at0 _ _ _ _ _ _)]

theorem pin (o : EF) : Statement (.pin o) := by
  rintro w ⟨⟩ -
  rw [candidate, encE_at24]
  change engineOf (field _ 6 4).toNat _ = _
  rw [encE_at6]
  change some (Instr.pin (efOf _)) = _
  rw [efOf_encE]

theorem unpin (o : EF) : Statement (.unpin o) := by
  rintro w ⟨⟩ -
  rw [candidate, encE_at24]
  change engineOf (field _ 6 4).toNat _ = _
  rw [encE_at6]
  change some (Instr.unpin (efOf _)) = _
  rw [efOf_encE]

theorem mma (o : XF) (p : BitVec 4) : Statement (.mma o p) := by
  rintro w ⟨⟩ -
  rw [candidate, encX_at24]
  change some (Instr.mma (xfOf _) (field _ 0 4)) = _
  rw [xfOf_encX, show field _ 0 4 = p from field_right _ 0 (0#2) p (encX_at0 _ _ _ _ _ _ _)]

theorem mmaSp (o : XF) (p : BitVec 4) : Statement (.mmaSp o p) := by
  rintro w ⟨⟩ -
  rw [candidate, encX_at24]
  change some (Instr.mmaSp (xfOf _) (field _ 0 4)) = _
  rw [xfOf_encX, show field _ 0 4 = p from field_right _ 0 (0#2) p (encX_at0 _ _ _ _ _ _ _)]

theorem smm (o : XF) (ty : BitVec 2) (ent : BitVec 4) : Statement (.smm o ty ent) := by
  rintro w ⟨⟩ -
  rw [candidate, encX_at24]
  change some (Instr.smm (xfOf _) (field _ 4 2) (field _ 0 4)) = _
  rw [xfOf_encX, show field _ 4 2 = ty from field_left _ 0 ty ent (encX_at0 _ _ _ _ _ _ _), show field _ 0 4 = ent from field_right _ 0 ty ent (encX_at0 _ _ _ _ _ _ _)]

theorem smmSp (o : XF) (ty : BitVec 2) (ent : BitVec 4) : Statement (.smmSp o ty ent) := by
  rintro w ⟨⟩ -
  rw [candidate, encX_at24]
  change some (Instr.smmSp (xfOf _) (field _ 4 2) (field _ 0 4)) = _
  rw [xfOf_encX, show field _ 4 2 = ty from field_left _ 0 ty ent (encX_at0 _ _ _ _ _ _ _), show field _ 0 4 = ent from field_right _ 0 ty ent (encX_at0 _ _ _ _ _ _ _)]

theorem opld (c : Bool) (ec : BitVec 2) (sa : BitVec 7) (n : BitVec 3) : Statement (.opld c ec sa n) := by
  rintro w ⟨⟩ -
  rw [candidate, encX_at24]
  change some (Instr.opld (flag _ 31) (field _ 22 2) (field _ 13 7) (field _ 0 3)) = _
  rw [encX_at31, encX_at22, encX_at13, show field _ 0 3 = n from field_right _ 0 (1#3) n (encX_at0 _ _ _ _ _ _ _)]

theorem mzero (c : Bool) (ec ls : BitVec 2) : Statement (.mzero c ec ls) := by
  rintro w ⟨⟩ -
  rw [candidate, encX_at24]
  change landingOf (field _ 4 2).toNat _ = _
  rw [show field _ 4 2 = 0#2 from field_part _ 0 4 2 _ (encX_at0 _ _ _ _ _ _ _)]
  change some (Instr.mzero (flag _ 31) (field _ 22 2) (field _ 20 2)) = _
  rw [encX_at31, encX_at22, encX_at20]

theorem mfillF32 (c : Bool) (ec ls : BitVec 2) (ent : BitVec 4) : Statement (.mfillF32 c ec ls ent) := by
  rintro w ⟨⟩ -
  rw [candidate, encX_at24]
  change landingOf (field _ 4 2).toNat _ = _
  rw [show field _ 4 2 = (1#2) from field_left _ 0 (1#2) ent (encX_at0 _ _ _ _ _ _ _)]
  change some (Instr.mfillF32 (flag _ 31) (field _ 22 2) (field _ 20 2) (field _ 0 4)) = _
  rw [encX_at31, encX_at22, encX_at20, show field _ 0 4 = ent from field_right _ 0 (1#2) ent (encX_at0 _ _ _ _ _ _ _)]

theorem mfillI32 (c : Bool) (ec ls : BitVec 2) (ent : BitVec 4) : Statement (.mfillI32 c ec ls ent) := by
  rintro w ⟨⟩ -
  rw [candidate, encX_at24]
  change landingOf (field _ 4 2).toNat _ = _
  rw [show field _ 4 2 = (2#2) from field_left _ 0 (2#2) ent (encX_at0 _ _ _ _ _ _ _)]
  change some (Instr.mfillI32 (flag _ 31) (field _ 22 2) (field _ 20 2) (field _ 0 4)) = _
  rw [encX_at31, encX_at22, encX_at20, show field _ 0 4 = ent from field_right _ 0 (2#2) ent (encX_at0 _ _ _ _ _ _ _)]

theorem mtosp (o : XF) : Statement (.mtosp o) := by
  rintro w ⟨⟩ -
  rw [candidate, encX_at24]
  change landingOf (field _ 4 2).toNat _ = _
  rw [show field _ 4 2 = 3#2 from field_part _ 0 4 2 _ (encX_at0 _ _ _ _ _ _ _)]
  change some (Instr.mtosp (xfOf _)) = _
  rw [xfOf_encX]

theorem mpld (c : Bool) (ec : BitVec 2) (sa : BitVec 7) : Statement (.mpld c ec sa) := by
  rintro w ⟨⟩ -
  rw [candidate, encX_at24]
  change some (Instr.mpld (flag _ 31) (field _ 22 2) (field _ 13 7)) = _
  rw [encX_at31, encX_at22, encX_at13]

theorem mclass (c : Bool) (ec : BitVec 2) (sa sb : BitVec 7) : Statement (.mclass c ec sa sb) := by
  rintro w ⟨⟩ -
  rw [candidate, encX_at24]
  change some (Instr.mclass (flag _ 31) (field _ 22 2) (field _ 13 7) (field _ 6 7)) = _
  rw [encX_at31, encX_at22, encX_at13, encX_at6]

theorem mbits (c : Bool) (ec : BitVec 2) (sa sb : BitVec 7) : Statement (.mbits c ec sa sb) := by
  rintro w ⟨⟩ -
  rw [candidate, encX_at24]
  change some (Instr.mbits (flag _ 31) (field _ 22 2) (field _ 13 7) (field _ 6 7)) = _
  rw [encX_at31, encX_at22, encX_at13, encX_at6]

theorem bz (c : Bool) (sa : BitVec 7) (off : BitVec 15) : Statement (.bz c sa off) := by
  rintro w ⟨⟩ -
  rw [candidate, encB_at24]
  change branchOf (field _ 22 2).toNat _ = _
  rw [encB_at22]
  change some (Instr.bz (flag _ 31) (field _ 15 7) (field _ 0 15)) = _
  rw [encB_at31, encB_at15, encB_at0]

theorem bnz (c : Bool) (sa : BitVec 7) (off : BitVec 15) : Statement (.bnz c sa off) := by
  rintro w ⟨⟩ -
  rw [candidate, encB_at24]
  change branchOf (field _ 22 2).toNat _ = _
  rw [encB_at22]
  change some (Instr.bnz (flag _ 31) (field _ 15 7) (field _ 0 15)) = _
  rw [encB_at31, encB_at15, encB_at0]

theorem bps (c : Bool) (k : BitVec 5) (off : BitVec 15) : Statement (.bps c k off) := by
  rintro w ⟨⟩ -
  rw [candidate, encB_at24]
  change branchOf (field _ 22 2).toNat _ = _
  rw [encB_at22]
  change some (Instr.bps (flag _ 31) (field _ 15 5) (field _ 0 15)) = _
  rw [encB_at31, show field _ 15 5 = k from field_right _ 15 (0#2) k (encB_at15 _ _ _ _), encB_at0]

theorem bpc (c : Bool) (k : BitVec 5) (off : BitVec 15) : Statement (.bpc c k off) := by
  rintro w ⟨⟩ -
  rw [candidate, encB_at24]
  change branchOf (field _ 22 2).toNat _ = _
  rw [encB_at22]
  change some (Instr.bpc (flag _ 31) (field _ 15 5) (field _ 0 15)) = _
  rw [encB_at31, show field _ 15 5 = k from field_right _ 15 (0#2) k (encB_at15 _ _ _ _), encB_at0]

theorem jmp (c : Bool) (off : BitVec 24) : Statement (.jmp c off) := by
  rintro w ⟨⟩ -
  rw [candidate, jmp_at24]
  change some (Instr.jmp (flag _ 31) (field _ 0 24)) = _
  rw [jmp_at31, jmp_at0]

theorem call (c : Bool) (fr : BitVec 7) (off : BitVec 17) : Statement (.call c fr off) := by
  rintro w ⟨⟩ -
  rw [candidate, call_at24]
  change some (Instr.call (flag _ 31) (field _ 17 7) (field _ 0 17)) = _
  rw [call_at31, call_at17, call_at0]

theorem calli (c : Bool) (fr sa : BitVec 7) : Statement (.calli c fr sa) := by
  rintro w ⟨⟩ -
  rw [candidate, encIN_at24]
  change indirectOf (field _ 22 2).toNat _ = _
  rw [encIN_at22]
  change some (Instr.calli (flag _ 31) (field _ 15 7) (field _ 8 7)) = _
  rw [encIN_at31, encIN_at15, encIN_at8]

theorem jmpi (c : Bool) (sa : BitVec 7) : Statement (.jmpi c sa) := by
  rintro w ⟨⟩ -
  rw [candidate, encIN_at24]
  change indirectOf (field _ 22 2).toNat _ = _
  rw [encIN_at22]
  change some (Instr.jmpi (flag _ 31) (field _ 8 7)) = _
  rw [encIN_at31, encIN_at8]

theorem ret (c : Bool) : Statement (.ret c) := by
  rintro w ⟨⟩ -
  rw [candidate, encIN_at24]
  change indirectOf (field _ 22 2).toNat _ = _
  rw [encIN_at22]
  change some (Instr.ret (flag _ 31)) = _
  rw [encIN_at31]

theorem spawn (c : Bool) (d sa : BitVec 7) (off : BitVec 10) : Statement (.spawn c d sa off) := by
  rintro w ⟨⟩ -
  rw [candidate, spawn_at24]
  change some (Instr.spawn (flag _ 31) (field _ 17 7) (field _ 10 7) (field _ 0 10)) = _
  rw [spawn_at31, spawn_at17, spawn_at10, spawn_at0]

theorem topen (c : Bool) (t : BitVec 4) : Statement (.topen c t) := by
  rintro w ⟨⟩ -
  rw [candidate, encCV_at24]
  change tokenOf (field _ 22 2).toNat _ = _
  rw [encCV_at22]
  change some (Instr.topen (flag _ 31) (field _ 0 4)) = _
  rw [encCV_at31, encCV_at0]

theorem fuse (c : Bool) (t : BitVec 4) : Statement (.fuse c t) := by
  rintro w ⟨⟩ -
  rw [candidate, encCV_at24]
  change tokenOf (field _ 22 2).toNat _ = _
  rw [encCV_at22]
  change some (Instr.fuse (flag _ 31) (field _ 0 4)) = _
  rw [encCV_at31, encCV_at0]

theorem leave (c : Bool) (t : BitVec 4) : Statement (.leave c t) := by
  rintro w ⟨⟩ -
  rw [candidate, encCV_at24]
  change tokenOf (field _ 22 2).toNat _ = _
  rw [encCV_at22]
  change some (Instr.leave (flag _ 31) (field _ 0 4)) = _
  rw [encCV_at31, encCV_at0]

theorem nop (c : Bool) : Statement (.nop c) := by
  rintro w ⟨⟩ -
  rw [candidate, encSY_at24]
  change systemOf (field _ 20 4).toNat _ = _
  rw [encSY_at20]
  change some (Instr.nop (flag _ 31)) = _
  rw [encSY_at31]

theorem endFibre (c : Bool) : Statement (.endFibre c) := by
  rintro w ⟨⟩ -
  rw [candidate, encSY_at24]
  change systemOf (field _ 20 4).toNat _ = _
  rw [encSY_at20]
  change some (Instr.endFibre (flag _ 31)) = _
  rw [encSY_at31]

theorem yield (c : Bool) : Statement (.yield c) := by
  rintro w ⟨⟩ -
  rw [candidate, encSY_at24]
  change systemOf (field _ 20 4).toNat _ = _
  rw [encSY_at20]
  change some (Instr.yield (flag _ 31)) = _
  rw [encSY_at31]

theorem trigger (c : Bool) : Statement (.trigger c) := by
  rintro w ⟨⟩ -
  rw [candidate, encSY_at24]
  change systemOf (field _ 20 4).toNat _ = _
  rw [encSY_at20]
  change some (Instr.trigger (flag _ 31)) = _
  rw [encSY_at31]

theorem pass (c : Bool) : Statement (.pass c) := by
  rintro w ⟨⟩ -
  rw [candidate, encSY_at24]
  change systemOf (field _ 20 4).toNat _ = _
  rw [encSY_at20]
  change some (Instr.pass (flag _ 31)) = _
  rw [encSY_at31]

theorem brk (c : Bool) (imm : BitVec 16) : Statement (.brk c imm) := by
  rintro w ⟨⟩ -
  rw [candidate, encSY_at24]
  change systemOf (field _ 20 4).toNat _ = _
  rw [encSY_at20]
  change some (Instr.brk (flag _ 31) (field _ 0 16)) = _
  rw [encSY_at31, encSY_at0]

theorem trap (c : Bool) (imm : BitVec 16) : Statement (.trap c imm) := by
  rintro w ⟨⟩ -
  rw [candidate, encSY_at24]
  change systemOf (field _ 20 4).toNat _ = _
  rw [encSY_at20]
  change some (Instr.trap (flag _ 31) (field _ 0 16)) = _
  rw [encSY_at31, encSY_at0]

theorem relocate (o : EF) : Statement (.relocate o) := by
  rintro w ⟨⟩ -
  rw [candidate, encE_at24]
  change some (Instr.relocate (efOf _)) = _
  rw [efOf_encE]

theorem wsb (c : Bool) (m : BitVec 8) : Statement (.wsb c m) := by
  rintro w ⟨⟩ -
  rw [candidate, wsb_at24]
  change some (Instr.wsb (flag _ 31) (field _ 0 8)) = _
  rw [wsb_at31, wsb_at0]

theorem csrr (c : Bool) (r : BitVec 7) (n : BitVec 12) : Statement (.csrr c r n) := by
  rintro w ⟨⟩ -
  rw [candidate, encCR_at24]
  change controlRegOf (field _ 22 2).toNat _ = _
  rw [encCR_at22]
  change some (Instr.csrr (flag _ 31) (field _ 15 7) (field _ 0 12)) = _
  rw [encCR_at31, encCR_at15, encCR_at0]

theorem csrw (c : Bool) (r : BitVec 7) (n : BitVec 12) : Statement (.csrw c r n) := by
  rintro w ⟨⟩ -
  rw [candidate, encCR_at24]
  change controlRegOf (field _ 22 2).toNat _ = _
  rw [encCR_at22]
  change some (Instr.csrw (flag _ 31) (field _ 15 7) (field _ 0 12)) = _
  rw [encCR_at31, encCR_at15, encCR_at0]

theorem csrs (c : Bool) (r : BitVec 7) (n : BitVec 12) : Statement (.csrs c r n) := by
  rintro w ⟨⟩ -
  rw [candidate, encCR_at24]
  change controlRegOf (field _ 22 2).toNat _ = _
  rw [encCR_at22]
  change some (Instr.csrs (flag _ 31) (field _ 15 7) (field _ 0 12)) = _
  rw [encCR_at31, encCR_at15, encCR_at0]

theorem csrc (c : Bool) (r : BitVec 7) (n : BitVec 12) : Statement (.csrc c r n) := by
  rintro w ⟨⟩ -
  rw [candidate, encCR_at24]
  change controlRegOf (field _ 22 2).toNat _ = _
  rw [encCR_at22]
  change some (Instr.csrc (flag _ 31) (field _ 15 7) (field _ 0 12)) = _
  rw [encCR_at31, encCR_at15, encCR_at0]

theorem rdpw (c : Bool) (r : BitVec 7) : Statement (.rdpw c r) := by
  rintro w ⟨⟩ -
  rw [candidate, encPM_at24]
  change (if flag _ 23 = true then some (Instr.wrpw (flag _ 31) (field _ 16 7)) else some (Instr.rdpw (flag _ 31) (field _ 16 7))) = _
  rw [encPM_at23, encPM_at31, encPM_at16]
  rfl

theorem wrpw (c : Bool) (r : BitVec 7) : Statement (.wrpw c r) := by
  rintro w ⟨⟩ -
  rw [candidate, encPM_at24]
  change (if flag _ 23 = true then some (Instr.wrpw (flag _ 31) (field _ 16 7)) else some (Instr.rdpw (flag _ 31) (field _ 16 7))) = _
  rw [encPM_at23, encPM_at31, encPM_at16]
  rfl

theorem rep (nr nc : BitVec 5) (ca cb : Bool) (rsd rsa rsb : BitVec 4) : Statement (.rep nr nc ca cb rsd rsa rsb) := by
  rintro w ⟨⟩ -
  rw [candidate, rep_at24]
  change some (Instr.rep (field _ 19 5) (field _ 14 5) (flag _ 13) (flag _ 12) (field _ 8 4) (field _ 4 4) (field _ 0 4)) = _
  rw [rep_at19, rep_at14, rep_at13, rep_at12, rep_at8, rep_at4, rep_at0]

theorem xl (pat : BitVec 3) (k : BitVec 6) (fill : Bool) : Statement (.xl pat k fill) := by
  rintro w ⟨⟩ -
  rw [candidate, xl_at24]
  change some (Instr.xl (field _ 21 3) (field _ 15 6) (flag _ 14)) = _
  rw [xl_at21, xl_at15, xl_at14]

theorem grd (sense : Bool) (bit : BitVec 5) : Statement (.grd sense bit) := by
  rintro w ⟨⟩ -
  rw [candidate, grd_at24]
  change some (Instr.grd (flag _ 23) (field _ 18 5)) = _
  rw [grd_at23, grd_at18]

theorem ext (imm : BitVec 24) : Statement (.ext imm) := by
  rintro w ⟨⟩ -
  rw [candidate, ext_at24]
  change some (Instr.ext (field _ 0 24)) = _
  rw [ext_at0]

theorem nsubmit (vs2 rs1 rd : BitVec 5) : Statement (.nsubmit vs2 rs1 rd) := by rintro w ⟨⟩

theorem nuret : Statement (.nuret) := by rintro w ⟨⟩

theorem groupPark (gid : Nat) : Statement (.groupPark gid) := by rintro w ⟨⟩

theorem trapQueueEnter (core : Nat) : Statement (.trapQueueEnter core) := by rintro w ⟨⟩

theorem accessFinish (id : Nat) (err : Bool) : Statement (.accessFinish id err) := by rintro w ⟨⟩

theorem spillEntryWritten (id : Nat) : Statement (.spillEntryWritten id) := by rintro w ⟨⟩

theorem instructionFetch (gid lane : Nat) : Statement (.instructionFetch gid lane) := by rintro w ⟨⟩

theorem relocateMove (gid : Nat) : Statement (.relocateMove gid) := by rintro w ⟨⟩

theorem barWaitWake (gid lane : Nat) : Statement (.barWaitWake gid lane) := by rintro w ⟨⟩

theorem barWaitBoundExpiry (gid lane : Nat) : Statement (.barWaitBoundExpiry gid lane) := by rintro w ⟨⟩

theorem groupStarved (gid : Nat) : Statement (.groupStarved gid) := by rintro w ⟨⟩

theorem fibreStarved (gid lane : Nat) : Statement (.fibreStarved gid lane) := by rintro w ⟨⟩

theorem copyBegin (id : Nat) : Statement (.copyBegin id) := by rintro w ⟨⟩

theorem copyWordTransfer (id : Nat) (err : Bool) : Statement (.copyWordTransfer id err) := by rintro w ⟨⟩

theorem matrixGatherComplete (quarter : Nat) (err : Bool) : Statement (.matrixGatherComplete quarter err) := by rintro w ⟨⟩

theorem matrixExecute (quarter : Nat) : Statement (.matrixExecute quarter) := by rintro w ⟨⟩

theorem matrixExecuteComplete (quarter : Nat) : Statement (.matrixExecuteComplete quarter) := by rintro w ⟨⟩

theorem landingExecute (quarter : Nat) : Statement (.landingExecute quarter) := by rintro w ⟨⟩

theorem mtospRowWrite (quarter : Nat) : Statement (.mtospRowWrite quarter) := by rintro w ⟨⟩

theorem commitWriteback (id : Nat) : Statement (.commitWriteback id) := by rintro w ⟨⟩

theorem opldLoadDone (id : Nat) : Statement (.opldLoadDone id) := by rintro w ⟨⟩

theorem mpldLoadDone (id : Nat) : Statement (.mpldLoadDone id) := by rintro w ⟨⟩

theorem streetDirectoryInstall (die f index : Nat) : Statement (.streetDirectoryInstall die f index) := by rintro w ⟨⟩

theorem sdinvGo (f : Nat) (value : Dword) : Statement (.sdinvGo f value) := by rintro w ⟨⟩

theorem sdinvComplete (f : Nat) : Statement (.sdinvComplete f) := by rintro w ⟨⟩

theorem avenueSlot (die : Nat) : Statement (.avenueSlot die) := by rintro w ⟨⟩

theorem refreshWindowEnd (die : Nat) : Statement (.refreshWindowEnd die) := by rintro w ⟨⟩

theorem submitDmw (f q offset : Nat) (record : List Dword) : Statement (.submitDmw f q offset record) := by rintro w ⟨⟩

theorem submissionPageStore (f q offset : Nat) : Statement (.submissionPageStore f q offset) := by rintro w ⟨⟩

theorem dispatchRecord (f q : Nat) : Statement (.dispatchRecord f q) := by rintro w ⟨⟩

theorem cmdLaunch (f q : Nat) : Statement (.cmdLaunch f q) := by rintro w ⟨⟩

theorem cmdCopy (f q : Nat) : Statement (.cmdCopy f q) := by rintro w ⟨⟩

theorem cmdWaitOnValue (f q : Nat) : Statement (.cmdWaitOnValue f q) := by rintro w ⟨⟩

theorem waitOnValuePoll (f q : Nat) : Statement (.waitOnValuePoll f q) := by rintro w ⟨⟩

theorem cmdSignal (f q : Nat) : Statement (.cmdSignal f q) := by rintro w ⟨⟩

theorem cmdSkipIf (f q : Nat) : Statement (.cmdSkipIf f q) := by rintro w ⟨⟩

theorem cmdJump (f q : Nat) : Statement (.cmdJump f q) := by rintro w ⟨⟩

theorem cmdCall (f q : Nat) : Statement (.cmdCall f q) := by rintro w ⟨⟩

theorem cmdReturn (f q : Nat) : Statement (.cmdReturn f q) := by rintro w ⟨⟩

theorem cmdSeal (f q : Nat) : Statement (.cmdSeal f q) := by rintro w ⟨⟩

theorem cmdOpen (f q : Nat) : Statement (.cmdOpen f q) := by rintro w ⟨⟩

theorem cmdRelease (f q : Nat) : Statement (.cmdRelease f q) := by rintro w ⟨⟩

theorem cmdNotify (f q : Nat) : Statement (.cmdNotify f q) := by rintro w ⟨⟩

theorem regionCommandEffect (id : Nat) : Statement (.regionCommandEffect id) := by rintro w ⟨⟩

theorem launchReady (uid : Nat) : Statement (.launchReady uid) := by rintro w ⟨⟩

theorem positionAdmit (uid : Nat) : Statement (.positionAdmit uid) := by rintro w ⟨⟩

theorem admissionWaitExpiry (uid : Nat) : Statement (.admissionWaitExpiry uid) := by rintro w ⟨⟩

theorem residencyTimeout (uid : Nat) : Statement (.residencyTimeout uid) := by rintro w ⟨⟩

theorem refillPoint (die : Nat) : Statement (.refillPoint die) := by rintro w ⟨⟩

theorem tlbinvGo (f : Nat) (value : Dword) : Statement (.tlbinvGo f value) := by rintro w ⟨⟩

theorem tlbinvComplete (f : Nat) : Statement (.tlbinvComplete f) := by rintro w ⟨⟩

theorem atsInvalidateRequest (pasid : BitVec 20) (va : Dword) (pages : Nat) : Statement (.atsInvalidateRequest pasid va pages) := by rintro w ⟨⟩

theorem atsTranslationCompletion (pasid : BitVec 20) (va hpa : Dword) (rd wr ex : Bool) : Statement (.atsTranslationCompletion pasid va hpa rd wr ex) := by rintro w ⟨⟩

theorem priPageResponse (pasid : BitVec 20) (va : Dword) (ok : Bool) : Statement (.priPageResponse pasid va ok) := by rintro w ⟨⟩

theorem rbcmdReplay (core entry : Nat) : Statement (.rbcmdReplay core entry) := by rintro w ⟨⟩

theorem rbcmdAbandon (core entry : Nat) : Statement (.rbcmdAbandon core entry) := by rintro w ⟨⟩

theorem rbcmdAbandonPageTrap (core entry : Nat) : Statement (.rbcmdAbandonPageTrap core entry) := by rintro w ⟨⟩

theorem accessCounterThreshold (guest : Nat) (pasid : BitVec 20) (page : Nat) : Statement (.accessCounterThreshold guest pasid page) := by rintro w ⟨⟩

theorem migrationStart : Statement (.migrationStart) := by rintro w ⟨⟩

theorem migrationCopyDone (id : Nat) : Statement (.migrationCopyDone id) := by rintro w ⟨⟩

theorem migrationSwitch (id : Nat) : Statement (.migrationSwitch id) := by rintro w ⟨⟩

theorem migrationEnd (id : Nat) : Statement (.migrationEnd id) := by rintro w ⟨⟩

theorem needByExpiry (id : Nat) : Statement (.needByExpiry id) := by rintro w ⟨⟩

theorem coolingExpiry (key : Nat) : Statement (.coolingExpiry key) := by rintro w ⟨⟩

theorem backInvalidate (pa : Nat) : Statement (.backInvalidate pa) := by rintro w ⟨⟩

theorem pageHandoverComplete (pa : Nat) : Statement (.pageHandoverComplete pa) := by rintro w ⟨⟩

theorem timeSliceExpiry (p : Nat) : Statement (.timeSliceExpiry p) := by rintro w ⟨⟩

theorem contextSwitch (p : Nat) : Statement (.contextSwitch p) := by rintro w ⟨⟩

theorem groupSave (gid : Nat) : Statement (.groupSave gid) := by rintro w ⟨⟩

theorem preemptGraceExpiry (id : Nat) : Statement (.preemptGraceExpiry id) := by rintro w ⟨⟩

theorem preemptKillExpiry (id : Nat) : Statement (.preemptKillExpiry id) := by rintro w ⟨⟩

theorem contextRestore (p : Nat) : Statement (.contextRestore p) := by rintro w ⟨⟩

theorem pquotaWrite (p : Nat) (v : Dword) : Statement (.pquotaWrite p v) := by rintro w ⟨⟩

theorem pshareWrite (p : Nat) (v : Dword) : Statement (.pshareWrite p v) := by rintro w ⟨⟩

theorem vfbindWrite (vf : Nat) (v : Dword) : Statement (.vfbindWrite vf v) := by rintro w ⟨⟩

theorem pfbindWrite (v : Dword) : Statement (.pfbindWrite v) := by rintro w ⟨⟩

theorem kslotReset (k : Nat) : Statement (.kslotReset k) := by rintro w ⟨⟩

theorem kslotResetDone (k : Nat) : Statement (.kslotResetDone k) := by rintro w ⟨⟩

theorem ebctlWrite (f : Nat) (v : Dword) : Statement (.ebctlWrite f v) := by rintro w ⟨⟩

theorem sqcfgWrite (f q : Nat) (v : Dword) : Statement (.sqcfgWrite f q v) := by rintro w ⟨⟩

theorem sqcfgEnd (f q : Nat) : Statement (.sqcfgEnd f q) := by rintro w ⟨⟩

theorem cxlhdmWrite (port dec : Nat) (r : HdmReg) (v : Dword) : Statement (.cxlhdmWrite port dec r v) := by rintro w ⟨⟩

theorem fctlReset (f : Nat) : Statement (.fctlReset f) := by rintro w ⟨⟩

theorem registerWrite (f offset : Nat) (v : Dword) : Statement (.registerWrite f offset v) := by rintro w ⟨⟩

theorem errstatPop (f : Nat) : Statement (.errstatPop f) := by rintro w ⟨⟩

theorem errstatOvfClear (f : Nat) : Statement (.errstatOvfClear f) := by rintro w ⟨⟩

theorem kbootGo (v : Dword) : Statement (.kbootGo v) := by rintro w ⟨⟩

theorem rtpkcLoad (v : Dword) : Statement (.rtpkcLoad v) := by rintro w ⟨⟩

theorem rtpkcLoadDone : Statement (.rtpkcLoadDone) := by rintro w ⟨⟩

theorem tqpop (core : Nat) : Statement (.tqpop core) := by rintro w ⟨⟩

theorem mbbell (core : Nat) (v : Dword) : Statement (.mbbell core v) := by rintro w ⟨⟩

theorem wincmdRelease (core : Nat) : Statement (.wincmdRelease core) := by rintro w ⟨⟩

theorem wincmdEnd (core : Nat) : Statement (.wincmdEnd core) := by rintro w ⟨⟩

theorem wincmdEnterSingleStep (core : Nat) : Statement (.wincmdEnterSingleStep core) := by rintro w ⟨⟩

theorem wincmdLeaveSingleStep (core : Nat) : Statement (.wincmdLeaveSingleStep core) := by rintro w ⟨⟩

theorem wincmdReleaseFibre (core lane : Nat) : Statement (.wincmdReleaseFibre core lane) := by rintro w ⟨⟩

theorem windowWrite (core offset : Nat) (v : Dword) : Statement (.windowWrite core offset v) := by rintro w ⟨⟩

theorem userTrapTake (hart : Nat) : Statement (.userTrapTake hart) := by rintro w ⟨⟩

theorem powerOn (imageOk : Bool) : Statement (.powerOn imageOk) := by rintro w ⟨⟩

theorem itemReady (item : Nat) (failed : Bool) : Statement (.itemReady item failed) := by rintro w ⟨⟩

theorem pldmMonitorControl (message : Nat) : Statement (.pldmMonitorControl message) := by rintro w ⟨⟩

theorem pldmFirmwareUpdate (imageOk : Bool) : Statement (.pldmFirmwareUpdate imageOk) := by rintro w ⟨⟩

theorem spdmMessage (message : Nat) : Statement (.spdmMessage message) := by rintro w ⟨⟩

theorem ownerPreemptionCommand (f : Nat) : Statement (.ownerPreemptionCommand f) := by rintro w ⟨⟩

end Sys2Proof.Laws.Encoding
end

