-- ==== Sys2Proof/Laws/Vector.lean ====
section
/-! SUPPORT. What one element of a vector word does to its group (R118). -/

namespace Sys2Proof.Machine

theorem pushLatch_first (f : Fibre) (a b : Nat) (v : Word) (ha : a < 8) :
    (pushLatch f a b v).latch[a]? = some v ∧ (pushLatch f a b v).latchValid.getLsbD a = true := by
  constructor
  · simp [pushLatch, ha]
  · have := foldBits_bit (w := 8) (fun k => if k = a then true else if a < k ∧ k ≤ b then f.latchValid.getLsbD (k - 1) else f.latchValid.getLsbD k) 8 a
    simpa [ha, pushLatch] using this

/-- The latch that a vector word's result takes (R61). -/
def VecForm.firstLatch (f : VecForm) : Nat := if f.special then 4 else 0

theorem pushVec_first (f : VecForm) (b : Fibre) (v : Word) :
    (pushVec f.special b v).latch[f.firstLatch]? = some v ∧ (pushVec f.special b v).latchValid.getLsbD f.firstLatch = true := by
  unfold pushVec VecForm.firstLatch
  split
  · exact pushLatch_first b 4 5 v (by decide)
  · exact pushLatch_first b 0 3 v (by decide)

theorem pushVec_only (sp : Bool) (b : Fibre) (v : Word) :
    pushVec sp b v = { b with latch := (pushVec sp b v).latch, latchValid := (pushVec sp b v).latchValid } := by
  unfold pushVec
  split <;> rfl

/-! ### One fibre of the gang -/

/-- A fibre after its part of the element: its status, its pw bit, its latch. -/
def elemFibre (f : VecForm) (b : Fibre) (x : List Word) (st : Status) : Fibre :=
  if f.pbit then { b with pw := setPwBit b.pw (f.d % 32) (x.headD 0 != 0), fstat := b.fstat ||| st.toWord }
  else raiseStatus (pushVec f.special b (x.headD 0)) st

theorem writeVec_only (g : Group) (f : VecForm) (l : Nat) (x : List Word) (st : Status) :
    writeVec g f l x st = { g with regs := (writeVec g f l x st).regs, fibres := (writeVec g f l x st).fibres } := by
  unfold writeVec
  split
  · rfl
  · split
    · rfl
    · simp only [Group.modFibre, Group.setFibre, Group.fibres_setBlock]
      rw [Group.setBlock_only]

theorem writeVec_length (g : Group) (f : VecForm) (l : Nat) (x : List Word) (st : Status) :
    (writeVec g f l x st).fibres.length = g.fibres.length := by
  unfold writeVec
  split
  · simp
  · split <;> simp

theorem writeVec_regs (g : Group) (f : VecForm) (l : Nat) (x : List Word) (st : Status) :
    (writeVec g f l x st).regs = if f.pbit || f.nw then g.regs else (g.setBlock l f.d x).regs := by
  unfold writeVec
  cases hp : f.pbit <;> cases hn : f.nw <;> simp

theorem writeVec_fibre (g : Group) (f : VecForm) (l j : Nat) (x : List Word) (st : Status) :
    (writeVec g f l x st).fibre j = if j = l ∧ l < g.fibres.length then elemFibre f (g.fibre l) x st else g.fibre j := by
  unfold writeVec elemFibre
  cases hp : f.pbit
  · cases hn : f.nw
    · simp [Group.fibre_modFibre]
    · simp [Group.fibre_modFibre]
  · simp only [if_true, Group.fibre_modFibre, Group.length_modFibre]
    by_cases h : j = l ∧ l < g.fibres.length
    · simp [h, raiseStatus]
    · simp [h]

theorem latchExcluded_fibre (g : Group) (f : VecForm) (l j : Nat) :
    (latchExcluded g f l).fibre j =
      if f.pbit = false ∧ j = l ∧ l < g.fibres.length then pushVec f.special (g.fibre l) (g.reg l f.d) else g.fibre j := by
  unfold latchExcluded
  cases hp : f.pbit <;> simp [Group.fibre_modFibre]

theorem latchExcluded_only (g : Group) (f : VecForm) (l : Nat) :
    latchExcluded g f l = { g with fibres := (latchExcluded g f l).fibres } := by
  unfold latchExcluded
  split <;> rfl

theorem latchExcluded_length (g : Group) (f : VecForm) (l : Nat) : (latchExcluded g f l).fibres.length = g.fibres.length := by
  unfold latchExcluded
  split <;> simp

/-! ### The whole gang. What is done for one fibre after another, each by its own result, whichever the kind of word. -/

/-- One fibre of an element: excluded, or written with its own result. -/
def elemStep (f : VecForm) (out : Nat → Bool) (res : Nat → List Word) (st : Nat → Status) (acc : Group) (l : Nat) : Group :=
  if out l then latchExcluded acc f l else writeVec acc f l (res l) (st l)

/-- What stands after the fibres ls of a gang. -/
structure ElemDone (g : Group) (f : VecForm) (out : Nat → Bool) (res : Nat → List Word) (st : Nat → Status) (ls : List Nat)
    (h : Group) : Prop where
  only : h = { g with regs := h.regs, fibres := h.fibres }
  length : h.fibres.length = g.fibres.length
  written : f.nw = false → f.pbit = false → ∀ l ∈ ls, out l = false → ∀ k < f.dsh.count,
    h.reg l (f.d + k) = ((res l)[k]?).getD 0
  kept : ∀ key, (∀ l ∈ ls, out l = false → f.nw = false → f.pbit = false → ∀ k < f.dsh.count,
    key ≠ cellKey g l ((g.fibre l).wb + f.d + k)) → tblGet 0 h.regs key = tblGet 0 g.regs key
  others : ∀ l, l ∉ ls → h.fibre l = g.fibre l
  fibres : ∀ l ∈ ls, l < g.fibres.length →
    h.fibre l = { g.fibre l with
      latch := (h.fibre l).latch, latchValid := (h.fibre l).latchValid
      fstat := if out l then (g.fibre l).fstat else (g.fibre l).fstat ||| (st l).toWord
      pw := if out l || !f.pbit then (g.fibre l).pw else setPwBit (g.fibre l).pw (f.d % 32) ((res l).headD 0 != 0) }
  latched : ∀ l ∈ ls, l < g.fibres.length →
    if f.pbit then (h.fibre l).latch = (g.fibre l).latch ∧ (h.fibre l).latchValid = (g.fibre l).latchValid
    else (h.fibre l).latchValid.getLsbD f.firstLatch = true
      ∧ (g.inRange l f.d 1 = true → (h.fibre l).latch[f.firstLatch]? = some (if out l then g.reg l f.d else (res l).headD 0))

theorem setPwBit_twice (w : Word) (k : Nat) (b : Bool) : setPwBit (setPwBit w k b) k b = setPwBit w k b := by
  unfold setPwBit
  cases b
  · simp [BitVec.and_assoc]
  · simp [BitVec.or_assoc]

theorem elemFold_done (g : Group) (f : VecForm) (out : Nat → Bool) (res : Nat → List Word) (st : Nat → Status)
    (hlen : ∀ l, (res l).length = f.dsh.count)
    (ls : List Nat) (hr : ∀ l ∈ ls, out l = false → f.nw = false → f.pbit = false → (g.fibre l).wb + f.d + f.dsh.count ≤ g.rows) :
    ElemDone g f out res st ls (ls.foldl (elemStep f out res st) g) := by
  induction ls using List.reverseRecOn with
  | nil => exact ⟨rfl, rfl, by simp, by simp, by simp, by simp, by simp⟩
  | append_singleton ls l ih =>
    have ih := ih fun m hm => hr m (List.mem_append_left _ hm)
    rw [List.foldl_append, List.foldl_cons, List.foldl_nil]
    generalize ls.foldl (elemStep f out res st) g = h at ih
    have hrows : h.rows = g.rows := by rw [ih.only]
    have hwb : ∀ m, (h.fibre m).wb = (g.fibre m).wb := by
      intro m
      by_cases hm : m ∈ ls
      · by_cases hl : m < g.fibres.length
        · rw [ih.fibres m hm hl]
        · have a : h.fibre m = ({} : Fibre) := by simp [Group.fibre, List.getElem?_eq_none (by rw [ih.length]; omega : h.fibres.length ≤ m)]
          have b : g.fibre m = ({} : Fibre) := by simp [Group.fibre, List.getElem?_eq_none (by omega : g.fibres.length ≤ m)]
          rw [a, b]
      · rw [ih.others m hm]
    have hkey : ∀ m r, cellKey h m r = cellKey g m r := fun m r => by simp [cellKey, hrows]
    have hdef : ∀ m, ¬ m < g.fibres.length → h.fibre m = g.fibre m := by
      intro m hm
      simp [Group.fibre, List.getElem?_eq_none (by rw [ih.length]; omega : h.fibres.length ≤ m),
        List.getElem?_eq_none (by omega : g.fibres.length ≤ m)]
    have hsame : h.fibre l = { g.fibre l with
        latch := (h.fibre l).latch, latchValid := (h.fibre l).latchValid
        fstat := if l ∈ ls ∧ out l = false then (h.fibre l).fstat else (g.fibre l).fstat
        pw := if l ∈ ls ∧ out l = false then (h.fibre l).pw else (g.fibre l).pw } := by
      by_cases hm : l ∈ ls
      · by_cases hl : l < g.fibres.length
        · rw [ih.fibres l hm hl]; cases out l <;> simp [hm]
        · rw [hdef l hl]; simp
      · rw [ih.others l hm]; simp [hm]
    cases ho : out l
    · have hs : elemStep f out res st h l = writeVec h f l (res l) (st l) := by simp [elemStep, ho]
      rw [hs]
      have hfib := writeVec_fibre h f l
      have hnwb : ∀ m, ((writeVec h f l (res l) (st l)).fibre m).wb = (g.fibre m).wb := by
        intro m
        rw [hfib]
        split
        · next e =>
          rw [e.1, ← hwb l]
          unfold elemFibre pushVec raiseStatus pushLatch
          split <;> (try split) <;> rfl
        · exact hwb m
      have hnrows : (writeVec h f l (res l) (st l)).rows = g.rows := by rw [writeVec_only]; exact hrows
      have hnkey : ∀ m r, cellKey (writeVec h f l (res l) (st l)) m r = cellKey g m r := fun m r => by simp [cellKey, hnrows]
      have hregs : ∀ key, (f.nw = false → f.pbit = false → ∀ k < f.dsh.count, key ≠ cellKey g l ((g.fibre l).wb + f.d + k)) →
          tblGet 0 (writeVec h f l (res l) (st l)).regs key = tblGet 0 h.regs key := by
        intro key hk
        rw [writeVec_regs]
        cases hp : f.pbit <;> cases hn : f.nw <;> simp only [Bool.or_true, Bool.or_false, Bool.or_self, if_true]
        rw [if_neg (by simp), Group.regs_setBlock, dif_neg]
        rintro ⟨k, h1, h2⟩
        rw [hlen] at h1
        rw [hkey, hwb] at h2
        exact hk hn hp k h1 h2
      have hown : f.nw = false → f.pbit = false → ∀ k < f.dsh.count,
          tblGet 0 (writeVec h f l (res l) (st l)).regs (cellKey g l ((g.fibre l).wb + f.d + k)) = ((res l)[k]?).getD 0 := by
        intro hn hp k hk
        rw [writeVec_regs, hn, hp, if_neg (by simp), Group.regs_setBlock]
        have ex : ∃ j < (res l).length, cellKey g l ((g.fibre l).wb + f.d + k) = cellKey h l ((h.fibre l).wb + f.d + j) :=
          ⟨k, by rw [hlen]; exact hk, by rw [hkey, hwb]⟩
        rw [dif_pos ex]
        have c1 := ex.choose_spec
        generalize ex.choose = c at c1 ⊢
        rw [hkey, hwb, hlen] at c1
        have b := hr l (by simp) ho hn hp
        have := (cellKey_inj g (by omega) (by omega) c1.2).2
        have e : c = k := by omega
        rw [e]
      refine ⟨?_, ?_, ?_, ?_, ?_, ?_, ?_⟩
      · rw [writeVec_only, ih.only]
      · rw [writeVec_length, ih.length]
      · intro hn hp m hm hmo k hk
        have e : (writeVec h f l (res l) (st l)).reg m (f.d + k)
            = tblGet 0 (writeVec h f l (res l) (st l)).regs (cellKey g m ((g.fibre m).wb + f.d + k)) := by
          rw [Group.reg, Group.cell, hnkey, hnwb, Nat.add_assoc]
        rw [e]
        by_cases hml : m = l
        · subst hml; exact hown hn hp k hk
        · have hm2 : m ∈ ls := by simpa [hml] using hm
          rw [hregs, ← ih.written hn hp m hm2 hmo k hk, Group.reg, Group.cell, hkey, hwb, Nat.add_assoc]
          intro _ _ j hj e2
          have b := hr l (by simp) ho hn hp
          have b2 := hr m (by simp [hm2]) hmo hn hp
          exact hml (cellKey_inj g (by omega) (by omega) e2).1
      · intro key hk
        rw [hregs, ih.kept]
        · intro m hm; exact hk m (by simp [hm])
        · intro hn hp; exact hk l (by simp) ho hn hp
      · intro m hm
        have : m ≠ l := fun e => hm (by simp [e])
        rw [hfib, if_neg (by simp [this]), ih.others m (fun e => hm (by simp [e]))]
      · intro m hm hml
        have hf := hfib m (res l) (st l)
        rw [ih.length] at hf
        by_cases e : m = l
        · subst e
          rw [if_pos ⟨rfl, hml⟩] at hf
          rw [hf]
          by_cases hm2 : m ∈ ls
          · rw [ih.fibres m hm2 hml]
            unfold elemFibre raiseStatus
            cases hp : f.pbit
            · simp only [ho]
              rw [pushVec_only]
              simp [BitVec.or_assoc]
            · simp [ho, setPwBit_twice, BitVec.or_assoc]
          · rw [ih.others m hm2]
            unfold elemFibre raiseStatus
            cases hp : f.pbit
            · simp only [ho]
              rw [pushVec_only]
              simp
            · simp [ho]
        · have hm2 : m ∈ ls := by simpa [e] using hm
          rw [if_neg (by simp [e])] at hf
          rw [hf]
          exact ih.fibres m hm2 hml
      · intro m hm hml
        have hf := hfib m (res l) (st l)
        rw [ih.length] at hf
        by_cases e : m = l
        · subst e
          rw [if_pos ⟨rfl, hml⟩] at hf
          rw [hf]
          unfold elemFibre raiseStatus
          cases hp : f.pbit
          · have := pushVec_first f (h.fibre m) ((res m).headD 0)
            simp only [ho, Bool.false_eq_true, if_false]
            exact ⟨this.2, fun _ => this.1⟩
          · by_cases hm2 : m ∈ ls
            · have := ih.latched m hm2 hml
              rw [hp] at this
              simpa using this
            · rw [ih.others m hm2]; simp
        · have hm2 : m ∈ ls := by simpa [e] using hm
          rw [if_neg (by simp [e])] at hf
          rw [hf]
          exact ih.latched m hm2 hml
    · have hs : elemStep f out res st h l = latchExcluded h f l := by simp [elemStep, ho]
      rw [hs]
      have hfib := latchExcluded_fibre h f l
      have hnregs : (latchExcluded h f l).regs = h.regs := by rw [latchExcluded_only]
      have hnwb : ∀ m, ((latchExcluded h f l).fibre m).wb = (g.fibre m).wb := by
        intro m
        rw [hfib]
        split
        · next e => rw [e.2.1, ← hwb l, pushVec_only]
        · exact hwb m
      have hnkey : ∀ m r, cellKey (latchExcluded h f l) m r = cellKey g m r := fun m r => by
        rw [← hkey, latchExcluded_only]; rfl
      refine ⟨?_, ?_, ?_, ?_, ?_, ?_, ?_⟩
      · rw [latchExcluded_only, ih.only]
      · rw [latchExcluded_length, ih.length]
      · intro hn hp m hm hmo k hk
        have hm2 : m ∈ ls := by
          rcases List.mem_append.1 hm with h1 | h1
          · exact h1
          · rw [List.mem_singleton] at h1; subst h1; rw [ho] at hmo; cases hmo
        rw [← ih.written hn hp m hm2 hmo k hk, Group.reg, Group.cell, hnkey, hnwb, hnregs, Group.reg, Group.cell, hkey, hwb]
      · intro key hk
        rw [hnregs]
        exact ih.kept key fun m hm => hk m (by simp [hm])
      · intro m hm
        have : m ≠ l := fun e => hm (by simp [e])
        rw [hfib, if_neg (by simp [this]), ih.others m (fun e => hm (by simp [e]))]
      · intro m hm hml
        have hf := hfib m
        rw [ih.length] at hf
        by_cases e : m = l
        · subst e
          have hsame2 : h.fibre m = { g.fibre m with latch := (h.fibre m).latch, latchValid := (h.fibre m).latchValid } := by
            rw [hsame]; simp [ho]
          cases hp : f.pbit
          · rw [if_pos ⟨hp, rfl, hml⟩] at hf
            rw [hf, pushVec_only, hsame2]; simp [ho]
          · rw [if_neg (by simp [hp])] at hf
            rw [hf, hsame2]; simp [ho]
        · have hm2 : m ∈ ls := by simpa [e] using hm
          rw [if_neg (by simp [e])] at hf
          rw [hf]
          exact ih.fibres m hm2 hml
      · intro m hm hml
        have hf := hfib m
        rw [ih.length] at hf
        by_cases e : m = l
        · subst e
          cases hp : f.pbit
          · rw [if_pos ⟨hp, rfl, hml⟩] at hf
            rw [hf]
            have := pushVec_first f (h.fibre m) (h.reg m f.d)
            simp only [this.1, this.2, ho, if_true, Option.some.injEq, true_and]
            intro hin
            have hd : h.reg m f.d = g.reg m f.d := by
              rw [Group.reg, Group.cell, hkey, hwb, ih.kept]; · rfl
              intro j hj hjo hn hp2 k hk e2
              simp only [Group.inRange, Bool.and_eq_true, decide_eq_true_eq] at hin
              have b := hr j (by simp [hj]) hjo hn hp2
              have := (cellKey_inj g (by omega) (by omega) e2).1
              subst this
              rw [ho] at hjo; cases hjo
            simpa using hd
          · rw [if_neg (by simp [hp])] at hf
            rw [hf]
            by_cases hm2 : m ∈ ls
            · have := ih.latched m hm2 hml
              rw [hp] at this
              simpa using this
            · rw [ih.others m hm2]; simp
        · have hm2 : m ∈ ls := by simpa [e] using hm
          rw [if_neg (by simp [e])] at hf
          rw [hf]
          exact ih.latched m hm2 hml

/-- What one element of a vector word leaves in its group. -/
theorem vecElement_done (src g : Group) (iss : Issue) (f : VecForm) (op : LaneOp)
    (hlen : ∀ a b c m, (op a b c m).1.length = f.dsh.count)
    (hr : ∀ l ∈ iss.lanes, iss.excluded src l = false → f.nw = false → f.pbit = false →
      (g.fibre l).wb + f.d + f.dsh.count ≤ g.rows) :
    ElemDone g f (iss.excluded src)
      (fun l => (op (readOperand src iss l f.a).1 (readOperand src iss l f.b).1
        (if f.acc then src.block l f.d f.dsh.count else []) (roundingMode (src.fibre l))).1)
      (fun l => (op (readOperand src iss l f.a).1 (readOperand src iss l f.b).1
        (if f.acc then src.block l f.d f.dsh.count else []) (roundingMode (src.fibre l))).2.or
          { ll := (readOperand src iss l f.a).2 || (readOperand src iss l f.b).2 })
      iss.lanes (vecElement src g iss f op) :=
  elemFold_done g f _ _ _ (fun _ => hlen _ _ _ _) iss.lanes hr

/-- A word that passes its checks has its own effect. -/
theorem guarded_of_accepted {i : Instr} {s : State} {iss : Issue} {g : Group} {h : Issue → Group → Result}
    (hi : s.issue = some iss) (hg : getGroup s iss.gid = some g) (hc : checkWord i iss g = none) : guarded i s h = h iss g := by
  simp [guarded, withGang, hi, hg, hc]

/-- A word that fails a check takes the trap of that check, and has no other effect. -/
theorem guarded_of_refused {i : Instr} {s : State} {iss : Issue} {g : Group} {h : Issue → Group → Result} {cause : Nat}
    {lanes : List Nat} (hi : s.issue = some iss) (hg : getGroup s iss.gid = some g) (hc : checkWord i iss g = some (cause, lanes)) :
    guarded i s h = .next (trapWord s iss cause lanes (wordOf i)) := by
  simp [guarded, withGang, hi, hg, hc]

/-- The group after its fibres are changed one by one. -/
theorem fibres_fold (ls : List Nat) (h : Fibre → Fibre) (g : Group) :
    (ls.foldl (fun g i => g.modFibre i h) g) = { g with fibres := (ls.foldl (fun g i => g.modFibre i h) g).fibres }
      ∧ (ls.foldl (fun g i => g.modFibre i h) g).fibres.length = g.fibres.length := by
  induction ls generalizing g with
  | nil => exact ⟨rfl, rfl⟩
  | cons l ls ih =>
    rw [List.foldl_cons]
    obtain ⟨a, b⟩ := ih (g.modFibre l h)
    exact ⟨by rw [a]; rfl, by rw [b, Group.length_modFibre]⟩

/-- A change that does nothing the second time, done to some fibres. -/
theorem fibre_fold (ls : List Nat) (h : Fibre → Fibre) (hh : ∀ f, h (h f) = h f) (g : Group) (j : Nat) :
    (ls.foldl (fun g i => g.modFibre i h) g).fibre j = if j ∈ ls ∧ j < g.fibres.length then h (g.fibre j) else g.fibre j := by
  induction ls generalizing g with
  | nil => simp
  | cons l ls ih =>
    rw [List.foldl_cons, ih, Group.length_modFibre, Group.fibre_modFibre]
    by_cases hl : j = l
    · subst hl
      by_cases h1 : j < g.fibres.length <;> by_cases h2 : j ∈ ls <;> simp [h1, h2, hh]
    · simp [hl]

/-- The gang at the next chain. -/
theorem advance_group (s : State) (iss : Issue) (g : Group) (hg : getGroup s iss.gid = some g) :
    getGroup (advance s iss) iss.gid
      = some (iss.lanes.foldl (fun g i => g.modFibre i fun f => { f with pc := iss.next, progress := 0 }) g) := by
  simp [advance, modLanes, hg]

theorem modLanes_other (s : State) (gid k : Nat) (ls : List Nat) (h : Fibre → Fibre) (hk : k ≠ gid) :
    getGroup (modLanes s gid ls h) k = getGroup s k := by simp [modLanes, getGroup_modGroup, hk]

theorem advance_other (s : State) (iss : Issue) (k : Nat) (hk : k ≠ iss.gid) : getGroup (advance s iss) k = getGroup s k :=
  modLanes_other s iss.gid k iss.lanes _ hk

end Sys2Proof.Machine
end

