-- ==== Sys2Proof/Tests/Slice0.lean ====
section
/-! SUPPORT. Tests: words written out from their formats decode; a term for each check of WellFormed is refused; single steps; and for each
statement of the certificates a state and operands that meet what it assumes. -/

set_option Elab.async false

namespace Sys2Proof.Tests
open Sys2Proof Sys2Proof.Machine Sys2Proof.Stmt

/-! ### Decoding (R57, R72 to R75): each word is written field by field from its format -/

theorem test_decode_add_i32 : decode 0b0_0000001_0_0000101_0_0000001_0_0000010
    = .ok (.addI32 { c := false, nw := false, d := 5, ma := false, sa := 1, mb := false, sb := 2 }) := by decide +kernel
theorem test_decode_cmp_lt_i32 : decode 0b1_0011001_1_0000011_1_0000100_0_0000111
    = .ok (.cmpLtI32 { c := true, p := true, d := 3, ma := true, sa := 4, mb := false, sb := 7 }) := by decide +kernel
theorem test_decode_cvt : decode 0b0_0111100_0_0000010_0_0000011_0001_0000
    = .ok (.cvt { c := false, nw := false, d := 2, ma := false, sa := 3 } 1 0) := by decide +kernel
theorem test_decode_any_nz : decode 0b0_1000110_0_0000010_0_0000011_001_00000 = .ok (.anyNz false false 2 3) := by decide +kernel
theorem test_decode_exp : decode 0b0_1101100_0_0000010_0_0000011_01_000_000
    = .ok (.exp { c := false, nw := false, d := 2, ma := false, sa := 3, ec := 1, ty := 0 }) := by decide +kernel
theorem test_decode_ld : decode 0b0_1010000_0001010_00011_010_01_1_101_010
    = .ok (.ld { c := false, d := 10, bp := 3, ss := 2, rh := 1, we := true, ws := 5, sz := 2 }) := by decide +kernel
theorem test_decode_atom_add : decode 0b0_1011001_0000110_00100_001_10_0000_001
    = .ok (.atomAdd { c := false, d := 6, bp := 4, ss := 1, sc := 2, ty := 1 }) := by decide +kernel
theorem test_decode_bar_arrive : decode 0b0_1011101_0000010_0000011_0001_000101
    = .ok (.barArrive { c := false, d := 2, sa := 3 } 5) := by decide +kernel
theorem test_decode_kick : decode 0b0_1011110_0000010_0000100_0000_000000
    = .ok (.kick { c := false, d := 2, sa := 4 }) := by decide +kernel
theorem test_decode_mma : decode 0b0_1100000_01_10_0001000_0001100_000011
    = .ok (.mma { c := false, ec := 1, ls := 2, sa := 8, sb := 12 } 3) := by decide +kernel
theorem test_decode_bz : decode 0b0_1110000_00_0000100_111111111111110 = .ok (.bz false 4 0x7FFE) := by decide +kernel
theorem test_decode_call : decode 0b0_1110010_0000100_11111111111111000 = .ok (.call false 4 0x1FFF8) := by decide +kernel
theorem test_decode_end : decode 0b0_1110110_0001_0000_0000000000000000 = .ok (.endFibre false) := by decide +kernel
theorem test_decode_rep : decode 0b0_1111011_00100_00010_1_0_0001_0010_0011 = .ok (.rep 4 2 true false 1 2 3) := by decide +kernel
theorem test_decode_ext : decode 0b0_1111110_000100100011010001010110 = .ok (.ext 0x123456) := by decide +kernel
theorem test_decode_nsubmit : decodeHart 0b0000000_00100_01010_000_00011_0001011 = some (.nsubmit 4 10 3) := by decide +kernel

/-- The examples of words that the rules and the commentary write out: a field misread would give another instruction. -/
theorem test_decode_examples_vector : decode 0x24140A20 = .ok (.bperm { c := false, nw := false, d := 20, ma := false, sa := 10, mb := false, sb := 32 })
    ∧ decode 0x24140AA0 = .ok (.bperm { c := false, nw := false, d := 20, ma := false, sa := 10, mb := true, sb := 32 })
    ∧ decode 0x3C0605D0 = .ok (.cvt { c := false, nw := false, d := 6, ma := false, sa := 5 } 13 0)
    ∧ decode 0x46040380 = .ok (.scanInc false false 4 3 0) ∧ decode 0x7C618000 = .ok (.xl 3 3 false)
    ∧ decode 0x7D000000 = .ok (.grd false 0) := by decide +kernel
theorem test_decode_examples_memory : decode 0x51063202 = .ok (.st { c := false, d := 3, bp := 3, ss := 1, rh := 0, we := false, ws := 0, sz := 2 })
    ∧ decode 0x52101004 = .ok (.lds { c := false, d := 8, bp := 1, ss := 0, rh := 0, we := false, ws := 0, sz := 4 })
    ∧ decode 0x590A3300 = .ok (.atomAdd { c := false, d := 5, bp := 3, ss := 1, sc := 2, ty := 0 })
    ∧ decode 0x5CC00000 = .ok (.fence false 3) ∧ decode 0x5D121043 = .ok (.barArrive { c := false, d := 9, sa := 4 } 3)
    ∧ decode 0x5E182000 = .ok (.kick { c := false, d := 12, sa := 8 }) ∧ decode 0x5B283000 = .ok (.kvres { c := false, d := 20, sa := 12 })
    ∧ decode 0x58501201 = .ok (.scld { c := false, d := 40, bp := 1, ss := 1, rh := 0, we := false, ws := 0, sz := 1 }) := by decide +kernel
theorem test_decode_examples_matrix : decode 0x60910400 = .ok (.mma { c := false, ec := 2, ls := 1, sa := 8, sb := 16 } 0)
    ∧ decode 0x62410001 = .ok (.smm { c := false, ec := 1, ls := 0, sa := 8, sb := 0 } 0 1) ∧ decode 0x64408009 = .ok (.opld false 1 4 1)
    ∧ decode 0x65600000 = .ok (.mzero false 1 2) := by decide +kernel
theorem test_decode_examples_control : decode 0x72100018 = .ok (.call false 8 0x18) ∧ decode 0x73040A00 = .ok (.calli false 8 10)
    ∧ decode 0x73800000 = .ok (.ret false) ∧ decode 0x74121018 = .ok (.spawn false 9 4 0x18) ∧ decode 0x76000000 = .ok (.nop false)
    ∧ decode 0x76100000 = .ok (.endFibre false) ∧ decodeHart 0x0085850B = some (.nsubmit 8 11 10) := by decide +kernel

/-! ### WellFormed: each check refuses a term that breaks it -/

def rrTerm : RR := { c := false, nw := false, d := 5, ma := false, sa := 1, mb := false, sb := 2 }
def mmTerm : MM := { c := false, d := 12, bp := 0, ss := 3, rh := 0, we := false, ws := 0, sz := 2 }

theorem test_ill_destCode : (Instr.addI32 { rrTerm with d := 120 }).illFormed = some .destCode := by decide +kernel
theorem test_ill_nwDest : (Instr.addI32 { rrTerm with nw := true }).illFormed = some .nwDest := by decide +kernel
theorem test_ill_latchModifier : (Instr.addI32 { rrTerm with ma := true, sa := 120 }).illFormed = some .latchModifier := by decide +kernel
theorem test_ill_latchPair : (Instr.addI64 { rrTerm with d := 4, sa := 120, sb := 2 }).illFormed = some .latchPair := by decide +kernel
theorem test_ill_pairOdd : (Instr.addI64 rrTerm).illFormed = some .pairOdd := by decide +kernel
theorem test_ill_srcCode : (Instr.bz false 120 1).illFormed = some .srcCode := by decide +kernel
theorem test_ill_quadCode : (Instr.ld { mmTerm with d := 2, sz := 4 }).illFormed = some .quadCode := by decide +kernel
theorem test_ill_predDest : (Instr.cmpEqI32 { c := false, p := true, d := 32, ma := false, sa := 1, mb := false, sb := 2 }).illFormed
    = some .predDest := by decide +kernel
theorem test_ill_waitSlot : (Instr.ld { mmTerm with ws := 1 }).illFormed = some .waitSlot := by decide +kernel
theorem test_ill_sizeCode : (Instr.st { mmTerm with sz := 5 }).illFormed = some .sizeCode := by decide +kernel
theorem test_ill_hint : (Instr.lds { mmTerm with rh := 1 }).illFormed = some .hint := by decide +kernel
theorem test_ill_cvtCode : (Instr.cvt { c := false, nw := false, d := 2, ma := false, sa := 3 } 1 1).illFormed = some .cvtCode := by decide +kernel
theorem test_ill_rndCode : (Instr.rnd { c := false, nw := false, d := 2, ma := false, sa := 3 } 3).illFormed = some .rndCode := by decide +kernel
theorem test_ill_crossOp : (Instr.reduce false false 2 3 11).illFormed = some .crossOp := by decide +kernel
theorem test_ill_typeCode : (Instr.exp { c := false, nw := false, d := 2, ma := false, sa := 3, ec := 0, ty := 3 }).illFormed
    = some .typeCode := by decide +kernel
theorem test_ill_atomicCode : (Instr.atomAnd { c := false, d := 2, bp := 0, ss := 0, sc := 0, ty := 4 }).illFormed
    = some .atomicCode := by decide +kernel
theorem test_ill_pairCode : (Instr.mma { c := false, ec := 0, ls := 0, sa := 4, sb := 8 } 9).illFormed = some .pairCode := by decide +kernel
theorem test_ill_frameSize : (Instr.call false 3 0).illFormed = some .frameSize := by decide +kernel
theorem test_ill_placeTier : (Instr.place { c := false, d := 2, sa := 4 } 0 3).illFormed = some .placeTier := by decide +kernel
theorem test_ill_xlPattern : (Instr.xl 5 0 false).illFormed = some .xlPattern := by decide +kernel
theorem test_ill_repCount : (Instr.rep 17 1 false false 0 0 0).illFormed = some .repCount := by decide +kernel

/-! ### One step from the placed word -/

/-- What the step leaves of group 0. -/
def groupAfter (w : Nat) : Option Group :=
  match step (State.reset.withFetchWord 32 w) with
  | .next t => getGroup t 0
  | _ => none

/-- addi R2, R0, 7 (R126) at the placed group, whose R0 is 0 (R37). -/
theorem test_step_addi : ((groupAfter 0b0_0100110_0_0000010_0_0000000_00000111).map fun g => (g.reg 31 2, (g.fibre 31).pc)) = some (7, 4) := by
  decide +kernel
/-- An opcode that R72 leaves reserved traps with cause 0x01 (R78): the group stops. -/
theorem test_step_reserved : ((groupAfter 0).map fun g => g.stopping) = some true := by decide +kernel
/-- jmp 6 goes 6 words on from its own address (R150). -/
theorem test_step_jmp : ((groupAfter 0b0_1110001_000000000000000000000110).map fun g => (g.fibre 0).pc) = some 24 := by decide +kernel

/-! ### What the witnesses share -/

/-- A group of width 32 with 128 rows and 64 scratchpad rows, one landing slot, its fibres at 0x1000, and its registers as given. -/
def demoWith (regs : Tbl Word) : Group :=
  { ctx := 0, part := 0, pasid := 0, uid := 1, pos := 0, width := 32, rows := 128, lslots := 1, scratch := 64, laneOrigin := 0, rowOrigin := 0
    spOrigin := 0, lsOrigin := [0], grank := 0, stage := 0, clsize := 1, nstage := 1, clx := 0, cly := 0, clz := 0, prio := 0, launch := 1
    regions := 0, tokens := List.replicate 16 {}, maskWords := List.replicate 16 0
    fibres := List.replicate 32 { slot := .live, pc := 0x1000 }, regs := regs }
def demo : Group := demoWith []
/-- The word at 0x1000 of the gang of some lanes of group 0. -/
def issueOf (lanes : List Nat) : Issue := { gid := 0, lanes := lanes, start := 0x1000, pc := 0x1000, next := 0x1004 }
/-- A state that is at that word. -/
def atWord (s : State) (g : Group) (iss : Issue) : State := { setGroup s iss.gid g with issue := some iss }

theorem issuing_atWord (s : State) (g : Group) (iss : Issue) (h : iss.snap = none) : Issuing (atWord s g iss) iss g := by
  refine ⟨rfl, getGroup_setGroup_self s iss.gid g, ?_, fun l => ?_⟩ <;> simp [Issue.sourceGroup, h]

/-- Every lane of the group. -/
def allLanes : List Nat := List.range 32

def mm (d : BitVec 7) (bp : BitVec 5) (sz : BitVec 3) : MM := { c := false, d := d, bp := bp, ss := 7, rh := 0, we := false, ws := 0, sz := sz }
def ma (d : BitVec 7) (bp : BitVec 5) (ty : BitVec 3) : MAt := { c := false, d := d, bp := bp, ss := 0, sc := 0, ty := ty }
def ef (d sa : BitVec 7) : EF := { c := false, d := d, sa := sa }

/-- The word passes its checks in a gang of group g. -/
def accepted (i : Instr) (g : Group) (lanes : List Nat) : Bool := (checkWord i (issueOf lanes) g).isNone

/-! ### Vector words -/

def rr (d a b : BitVec 7) : RR := { c := false, nw := false, d := d, ma := false, sa := a, mb := false, sb := b }
def cp (d a b : BitVec 7) : CP := { c := false, p := false, d := d, ma := false, sa := a, mb := false, sb := b }
def ri (d a : BitVec 7) (imm : BitVec 8) : RI := { c := false, nw := false, d := d, ma := false, sa := a, imm := imm }
def ru (d a : BitVec 7) : RU := { c := false, nw := false, d := d, ma := false, sa := a }
def sf (d a : BitVec 7) : SF := { c := false, nw := false, d := d, ma := false, sa := a, ec := 0, ty := 0 }

/-- The word passes its checks for the gang and has a meaning of the statement's table. -/
def meets {α : Type} (table : Instr → Option α) (i : Instr) : Bool :=
  (checkWord i (issueOf allLanes) demo).isNone && (vecForm i).isSome && (table i).isSome

theorem meets_spec {α : Type} (table : Instr → Option α) (i : Instr) (h : meets table i = true) :
    Issuing (atWord State.reset demo (issueOf allLanes)) (issueOf allLanes) demo ∧ Accepted i (issueOf allLanes) demo
      ∧ (∃ f, vecForm i = some f) ∧ ∃ r, table i = some r := by
  simp only [meets, Bool.and_eq_true, Option.isNone_iff_eq_none, Option.isSome_iff_exists] at h
  exact ⟨issuing_atWord _ _ _ rfl, h.1.1, h.1.2, h.2⟩

/-- Every integer word, with the last register that an operand may name (R58) among them, and a latch. -/
def integerWords : List Instr :=
  ([.addI32, .subI32, .mulI32, .mulhI32, .mulhN32, .madI32, .minI32, .minN32, .maxI32, .maxN32, .andW, .orW, .xorW, .shl, .shrN32, .shrI32
    , .rotl, .rotr, .bfxN32, .bfxI32, .bfi, .sel] : List (RR → Instr)).map (fun k => k (rr 119 0 120))
  ++ ([.addi, .andi, .ori, .xori, .shli, .shriN32, .shriI32] : List (RI → Instr)).map (fun k => k (ri 119 127 31))
  ++ ([.absI32, .negI32, .notW, .clz, .popc, .brev, .mov] : List (RU → Instr)).map (fun k => k (ru 0 119)) ++ [.movi false false 119 0xFFFF]

theorem witness_IntegerWordEffect : ∀ i ∈ integerWords, meets (integerResult (issueOf allLanes)) i = true := by decide +kernel

def compareWords : List Instr :=
  ([.cmpEqI32, .cmpNeI32, .cmpLtI32, .cmpLtN32, .cmpLeI32, .cmpLeN32, .cmpEqF32, .cmpLtF32, .cmpLeF32, .cmpUnF32] : List (CP → Instr)).flatMap
    fun k => [k (cp 119 0 119), k { cp 31 0 1 with p := true }]

theorem witness_CompareWordEffect : ∀ i ∈ compareWords, meets relationOf i = true := by decide +kernel

def pairWordList : List Instr :=
  ([.addI64, .subI64, .shlI64, .shrN64, .shrI64, .bdep, .bext, .gfm8] : List (RR → Instr)).map (fun k => k (rr 118 0 2))
    ++ [.bperm (rr 0 118 108)]

theorem witness_PairWordEffect : ∀ i ∈ pairWordList, meets pairResult i = true := by decide +kernel

def floatWords : List Instr :=
  ([.addF32, .subF32, .mulF32, .fmaF32, .minF32, .maxF32, .minnumF32, .maxnumF32, .scaleF32, .addBf16, .mulBf16, .fmaBf16, .addF16, .mulF16
    , .fmaF16, .packBf16, .packF16, .dot4E4m3] : List (RR → Instr)).map (fun k => k (rr 119 0 119))
  ++ [.cvt (ru 0 119) 13 9, .cvt (ru 1 2) 0 1, .rnd (ru 0 1) 0, .rnd (ru 0 1) 2]

theorem witness_FloatWordEffect : ∀ i ∈ floatWords, meets floatResult i = true := by decide +kernel

def specialWords : List Instr :=
  ([.exp, .log, .rcp, .rsqrt, .sqrt, .sin, .cos, .tanh] : List (SF → Instr)).flatMap fun k => [k (sf 119 0), k { sf 0 119 with ty := 2 }]

theorem witness_SpecialWordEffect : ∀ i ∈ specialWords, meets specialCodes i = true := by decide +kernel

def crossWords : List Instr :=
  [.allNz false false 0 119, .anyNz false false 119 0, .allEq false false 1 2, .nzmask false false 118 3, .scanInc false false 4 5 0
  , .scanExc false false 4 5 10, .reduce false false 4 5 9, .lcnt false false 6 7]

theorem witness_CrossLaneWordEffect : (∀ i ∈ crossWords, meets crossResult i = true)
    ∧ (issueOf allLanes).lanes.Pairwise (· < ·) ∧ ∀ l ∈ (issueOf allLanes).lanes, l < 64 := by decide +kernel

/-- The elements of a rep word: the last of 16 x 16 is left, and the one after it is none (R65, R67). -/
theorem witness_rep : let iss := { issueOf [0] with rep := some { nr := 16, nc := 16, ca := 0, cb := 0, rsd := 0, rsa := 0, rsb := 0 } }
    let at' (n : Nat) : Group := { demo with fibres := [{ slot := .live, pc := 0x1000, progress := n }] }
    checkWord (.addI32 (rr 0 1 2)) iss (at' 255) = none
      ∧ (elementNow iss (at' 255) (rrForm {} false (rr 0 1 2))).isSome = true
      ∧ elementNow iss (at' 256) (rrForm {} false (rr 0 1 2)) = none := by decide +kernel

/-! ### Worked examples of the commentary (08_isa_vector_commentary.md), each one step of one word -/

/-- A group whose lane 0 holds registers from the pairs of a list. -/
def laneGroup (regs : List (Nat × Word)) : Group := demoWith (regs.map fun x => (32 * x.1, x.2))
/-- What a word leaves in a group. -/
def after (w : Word) (iss : Issue) (g : Group) : Option Group :=
  match decode w with
  | .ok i => (match exec i (atWord State.reset g iss) with
    | .next t => getGroup t 0
    | _ => none)
  | _ => none

/-- Deposit and extract. -/
theorem test_bdep : ((after 0x220E0A0C (issueOf [0]) (laneGroup [(10, 0xB5), (12, 0xF0F0)])).map fun g => g.pair 0 14) = some 0xB050 := by decide +kernel
theorem test_bext : ((after 0x23100E0C (issueOf [0]) (laneGroup [(12, 0xF0F0), (14, 0xB050)])).map fun g => g.pair 0 16) = some 0xB5 := by decide +kernel
/-- The byte reversal. -/
theorem test_bperm : ((after 0x24140A20 (issueOf [0]) (laneGroup [(10, 0x04030201), (11, 0x08070605), (32, 0x7CEFAE78), (33, 0x2C70FFEF), (34, 0xDF6D74CF)
    , (35, 0x6CAEAA68), (36, 0x2860BEEB), (37, 0x9E69648E), (38, 0x5C6DA658), (39, 0x24507DE7), (40, 0x5D65544D), (41, 0x4C2CA248), (42, 0x20403CE3)
    , (43, 0x1C61440C)])).map fun g => g.pair 0 20) = some 0x0102030405060708 := by decide +kernel
/-- One step of a GF(2) product. -/
theorem test_gfm8 : (match exec (.gfm8 (rr 4 0 2)) (atWord State.reset (laneGroup [(0, 0x103), (2, 0xFF3C0F)]) (issueOf [0])) with
    | .next t => (getGroup t 0).map fun g => g.pair 0 4
    | _ => none) = some 0xF33 := by decide +kernel

/-- Who contributes to a scan: lanes 0, 1, 2 and 5 of a gang from which grd excludes lane 3. -/
def scanGroup : Group :=
  { demoWith ((List.range 8).map fun l => (96 + l, BitVec.ofNat 32 (10 * (l + 1)))) with
    width := 8, fibres := (List.range 8).map fun l => { slot := .live, pc := 0x1000, pw := if l = 3 then 0 else 1 } }
theorem test_scan_inc : ((after 0x46040380 { issueOf [0, 1, 2, 3, 5] with grd := some (false, 0) } scanGroup).map fun g =>
    (List.range 8).map fun l => g.reg l 4) = some [10, 30, 60, 0, 0, 120, 0, 0] := by decide +kernel

/-- Conversions at the top of the range, by cvt R0, R1: the result and FSTAT. -/
def converted (t : BitVec 4) (x : Word) : Option (Word × Word) :=
  match exec (.cvt (ru 0 1) t 0) (atWord State.reset (laneGroup [(1, x)]) (issueOf [0])) with
  | .next u => (getGroup u 0).map fun g => (g.reg 0 0, (g.fibre 0).fstat)
  | _ => none
theorem test_cvt_bf16 : converted 2 0x7F7FFFFF = some (0x7F80, 0x50) ∧ converted 13 0x7F7FFFFF = some (0x7F7F, 0x50) := by
  decide +kernel
theorem test_cvt_int8 : converted 7 0x43965999 = some (0x7F, 0x04) ∧ converted 7 0x40200000 = some (2, 0x40)
    ∧ converted 7 0xC3480000 = some (0x80, 0x04) ∧ converted 6 0xC1100000 = some (9, 0x04) := by decide +kernel

/-! ### Memory words -/

def globalWords : List Instr :=
  (List.range 7).map (fun n => .ld (mm 116 31 (BitVec.ofNat 3 n))) ++ (List.range 5).map (fun n => .st (mm 116 0 (BitVec.ofNat 3 n)))
  ++ ([.atomAdd, .atomMin, .atomMax, .redAdd, .redMin, .redMax] : List (MAt → Instr)).flatMap (fun k => [k (ma 119 0 4), k (ma 118 0 3)])
  ++ ([.atomAnd, .atomOr, .atomXor, .atomExch, .redAnd, .redOr, .redXor] : List (MAt → Instr)).map (fun k => k (ma 118 0 2))
  ++ [.atomCas (ma 116 0 3), .atomCas (ma 118 0 0)]

/-- The word passes its checks and its participants' addresses are as said. -/
def globalAt (g : Group) (i : Instr) (fits : Bool) : Bool :=
  (checkWord i (issueOf allLanes) g).isNone &&
    match globalWord (issueOf allLanes) 1 g i with
    | some (n, ea, _) => ((issueOf allLanes).participants g).all fun l => ((ea l).toNat % n == 0) == fits
    | none => false

theorem witness_GlobalWordRecords : ∀ i ∈ globalWords, globalAt demo i true = true := by decide +kernel
/-- A page for every access in the cache of core 0. -/
def openPage : TlbEntry := { site := 0, pasid := 0, base := 0, bits := 18, pa := 0, pte := 0xBE000000000003F0, pteAddr := 0 }
def globalState : State := atWord { State.reset with tlb := [openPage], ready := 0xFFFFF } demo (issueOf allLanes)
/-- What a word asks for is cached: every access comes to the physical address that its virtual address is. -/
def cachedWants (i : Instr) : Bool :=
  match globalWord (issueOf allLanes) 1 demo i with
  | some (n, ea, want) => allLanes.all fun l => (ea l).toNat % n == 0 && (want l).all fun a =>
      decide (a.addr.toNat < 2 ^ 57) && tlbHit globalState 0 0 a.addr.toNat == some openPage && permits (needOf a.kind) openPage.pte
  | none => false
theorem witness_SpecialAndGlobalWordsComplete : (∀ i ∈ globalWords, accepted i demo allLanes = true ∧ cachedWants i = true)
    ∧ pteD openPage.pte = true ∧ tierOf globalState 0 ≤ 2 ∧ pteAllow openPage.pte (tierOf globalState 0) = true ∧ openPage.ats = false
    ∧ globalState.accesses = [] ∧ (∀ i ∈ specialWords, meets specialCodes i = true) ∧ (issueOf allLanes).rep = none := by decide +kernel
/-- Registers 0 and 1 of lane 31 hold an address one below 2^64. -/
theorem witness_MisalignedGlobalTraps :
    checkWord (.ld (mm 4 0 4)) (issueOf [31]) (demoWith [(31, 0xFFFFFFFF), (63, 0xFFFFFFFF)]) = none
    ∧ (globalWord (issueOf [31]) 1 (demoWith [(31, 0xFFFFFFFF), (63, 0xFFFFFFFF)]) (.ld (mm 4 0 4))).map
        (fun x => decide ((x.2.1 31).toNat % x.1 ≠ 0)) = some true := by decide +kernel

def localWords : List Instr :=
  (List.range 7).flatMap (fun n => [.lds (mm 116 31 (BitVec.ofNat 3 n))]) ++ (List.range 5).map (fun n => .sts (mm 116 0 (BitVec.ofNat 3 n)))
  ++ [.spill (mm 116 0 4), .spill (mm 1 0 2), .fill (mm 116 0 4), .fill (mm 1 0 2), .barInit false 119 63, .barArrive (ef 119 0) 1
    , .barExpect false 0 1, .barWait (ef 119 0) 15, .barTest (ef 119 0) 0, .barInval false 0]

/-- The word passes its checks; which of its participants' addresses pass theirs. -/
def localAt (s : State) (g : Group) (i : Instr) : List Bool :=
  if (checkWord i (issueOf allLanes) g).isNone then
    match localWord (atWord s g (issueOf allLanes)) (issueOf allLanes) g i with
    | some (ea, n, _) => ((issueOf allLanes).participants g).map fun l => (localByte (atWord s g (issueOf allLanes)) (issueOf allLanes) g i n (ea l)).isSome
    | none => []
  else []

theorem witness_LocalWordRecords : ∀ i ∈ localWords, localAt State.reset demo i = List.replicate 32 true := by decide +kernel

/-- A die whose weight store holds region 0 of partition 0, a granule. -/
def withWeights : State :=
  { State.reset with ready := 0x100, regionsOf := [(0, { die := 0, first := 0, count := 1, isSealed := true })] }
theorem witness_LocalWordRecords_ldw : localAt withWeights { demo with regions := 1 } (.ldw (mm 116 0 4)) = List.replicate 32 true := by
  decide +kernel
/-- The last scratchpad byte of 64 rows is byte 8191; lane 31 asks for the one after it. -/
theorem witness_FailedChecksTrap :
    localAt State.reset (demoWith [(31, 8192)]) (.lds (mm 4 0 0)) = List.replicate 31 true ++ [false]
    ∧ localAt State.reset (demoWith [(31, 8191)]) (.lds (mm 4 0 0)) = List.replicate 32 true
    ∧ localAt State.reset (demoWith [(31, 4)]) (.barInval false 0) = List.replicate 31 true ++ [false]
    ∧ localAt withWeights demo (.ldw (mm 4 0 0)) = List.replicate 32 false := by decide +kernel

/-! ### Accesses that finish -/

/-- The part ready, group 0 resident, one access recorded. -/
def withAccess (g : Group) (a : Access) : State := { setGroup State.reset 0 g with accesses := [a], ready := 0xFFFFF }
/-- An access of lane 31 to slot 7, at a place. -/
def acc (kind : AccessKind) (pa size : Nat) : Access :=
  { id := 5, word := 1, gid := 0, lane := 31, slot := some 7, kind := kind, addr := 0, pa := some pa, size := size }

theorem finishing (g : Group) (a : Access) (hi : a.id = 5) (hg : a.gid = 0) (hf : canFinish (withAccess g a) a = true) (hl : g.liveLanes ≠ []) :
    Finishing (withAccess g a) a g := by
  refine ⟨?_, hf, ?_, hl⟩
  · simp [findAccess, withAccess, hi]
  · rw [hg]; exact getGroup_setGroup_self State.reset 0 g

theorem demo_live : demo.liveLanes ≠ [] := by decide +kernel

/-- An access of the group whose bytes it may read and write where its event stands. -/
def globalMeets (a : Access) (pa : Nat) (rd wr : Bool) : Prop :=
  Served (withAccess demo a) a pa a.size
    ∧ Readable (withAccess demo a) demo a pa a.size (spotOf (withAccess demo a) (globalWho demo a pa) 0 pa a.size rd wr)

def loadOf (pa : Nat) : Access := { acc .load pa 1 with sz := 5, nregs := 1 }
/-- The last byte of tier 0, and the first byte of tier 1. -/
theorem witness_LoadFinishes : ∀ pa ∈ [0x7FFFFFFFFF, 0x10000000000],
    Finishing (withAccess demo (loadOf pa)) (loadOf pa) demo ∧ (loadOf pa).size = accessBytes (loadOf pa).sz ∧ globalMeets (loadOf pa) pa true false := by
  intro pa h
  refine ⟨finishing _ _ rfl rfl ?_ demo_live, rfl, ?_⟩
  · revert pa; decide +kernel
  · unfold globalMeets Served Readable; revert pa; decide +kernel

theorem witness_StoreFinishes : let a := { acc .store 0x100 8 with data := 7 }
    Finishing (withAccess demo a) a demo ∧ a.pa = some 0x100 ∧ Served (withAccess demo a) a 0x100 8 ∧ inSealedFrame (withAccess demo a) 0x100 = false :=
  ⟨finishing _ _ rfl rfl (by decide +kernel) demo_live, by decide +kernel, by unfold Served; decide +kernel, by decide +kernel⟩

/-- An atomic of every type code, and a reduction. -/
def atomicOf (ty : Nat) : Access := { acc .atomic 0x100 (if ty = 2 ∨ ty = 3 then 8 else 4) with aty := ty, data := 1 }
theorem witness_AtomicFinishes : (∀ ty < 5, canFinish (withAccess demo (atomicOf ty)) (atomicOf ty) = true ∧ atomicTyped 0 ty
        ∧ ((atomicOf ty).size = 4 → (atomicOf ty).data.toNat < 2 ^ 32) ∧ inSealedFrame (withAccess demo (atomicOf ty)) 0x100 = false)
    ∧ (∀ ty ∈ [0, 1, 2, 3, 4], globalMeets (atomicOf ty) 0x100 true true)
    ∧ let a := { acc .reduction 0x100 8 with aty := 2, aop := 7 }
      Finishing (withAccess demo a) a demo ∧ globalMeets a 0x100 true true := by
  refine ⟨?_, ?_, finishing _ _ rfl rfl (by decide +kernel) demo_live, ?_⟩
  · unfold atomicTyped; decide +kernel
  · unfold globalMeets Served Readable; decide +kernel
  · unfold globalMeets Served Readable; decide +kernel

theorem witness_LocalLoadFinishes : (∀ k ∈ [.lds, .fill none, .ldw], let a := { acc k 0x100 8 with sz := 3, nregs := 2 }
      canFinish (withAccess demo a) a = true ∧ a.size = accessBytes a.sz ∧ (localSource (withAccess demo a) a 0x100).isSome = true
        ∧ damagedIn (withAccess demo a) 1 0x100 8 = false ∧ damagedIn (withAccess demo a) 2 0x100 8 = false)
    ∧ let a := { acc (.fill (some 4)) 0x100 8 with sz := 3, nregs := 2 }
      let x := { acc .spill 0x100 8 with id := 4, word := 0 }
      let s := { withAccess demo a with accesses := [x, a] }
      canFinish s a = true ∧ findAccess s 5 = some a ∧ a.size = accessBytes a.sz ∧ findAccess s 4 = some x := by
  decide +kernel

def spillOf : Access := { acc .spill 0x100 4 with data := 9 }
theorem witness_ScratchpadWrites : Finishing (withAccess demo (acc .sts 393212 4)) (acc .sts 393212 4) demo
    ∧ let s := { withAccess demo spillOf with spills := [{ id := 9, core := 0, accesses := [5] }] }
      s.spills.find? (fun x => x.id == 9) = some { id := 9, core := 0, accesses := [spillOf.id] } ∧ findAccess s 5 = some spillOf
        ∧ (∀ x ∈ s.accesses, x.id = spillOf.id → x = spillOf) ∧ (∀ x ∈ s.accesses, mustPrecede spillOf x = false) ∧ getGroup s 0 = some demo :=
  ⟨finishing _ _ rfl rfl (by decide +kernel) demo_live, rfl, rfl, by decide +kernel, by decide +kernel, rfl⟩

/-- Two accesses of one fibre that share their last byte, and an arrival after a store. -/
theorem witness_OrderKept : (let a := { acc .load 0x107 1 with id := 6 }
      let b := acc .store 0x100 8
      let s := { withAccess demo a with accesses := [b, a] }
      findAccess s a.id = some a ∧ b ∈ s.accesses ∧ b.id < a.id ∧ spaceOf b.kind = spaceOf a.kind ∧ spaceOf a.kind < 3
        ∧ 0x107 ≤ 0x107 ∧ 0x107 < 0x100 + b.size)
    ∧ let a := { acc .barArrive 0 16 with id := 6 }
      let s := { withAccess demo a with accesses := [acc .store 0x100 8, a] }
      findAccess s a.id = some a ∧ acc .store 0x100 8 ∈ s.accesses := by decide +kernel

/-- Tier 0 not ready; and a frame of a sealed region. -/
theorem witness_FailedAccessTraps : (let s := { withAccess demo (loadOf 0x100) with ready := 0 }
      canFinish s (loadOf 0x100) = true ∧ findAccess s 5 = some (loadOf 0x100) ∧ itemReadyAt s 0x100 = false ∧ moveOf s 0x100 = none
        ∧ underHandover s 0x100 = false ∧ behindHeld s (loadOf 0x100) = false)
    ∧ let a := acc .store 0x3FFFF 1
      let s := { withAccess demo a with regionsOf := [(0, { die := 0, first := 0, count := 1, isSealed := true, frames := [0] })] }
      canFinish s a = true ∧ findAccess s 5 = some a ∧ itemReadyAt s 0x3FFFF = true ∧ inSealedFrame s 0x3FFFF = true ∧ moveOf s 0x3FFFF = none
        ∧ underHandover s 0x3FFFF = false ∧ behindHeld s a = false := by decide +kernel
/-- A load and a scratchpad load of bytes of which the last has an uncorrectable error. -/
theorem witness_FailedAccessTraps_damaged : (let s := { withAccess demo (acc .load 0x100 4) with damaged := [0x103] }
      Finishing s (acc .load 0x100 4) demo ∧ Served s (acc .load 0x100 4) 0x100 4 ∧ damagedAt s 0x100 4 = true)
    ∧ let a := { acc .lds 0x100 4 with sz := 2, nregs := 1 }
      let s := { withAccess demo a with damaged := [2 ^ 60 + 0x103] }
      canFinish s a = true ∧ findAccess s 5 = some a ∧ (localSource s a 0x100).isSome = true ∧ damagedIn s 1 0x100 4 = true :=
  ⟨⟨⟨rfl, by decide +kernel, rfl, demo_live⟩, by unfold Served; decide +kernel, by decide +kernel⟩, by decide +kernel⟩

/-- A state with a barrier object in its first bytes. -/
def withObject (s : State) (o : BarObj) : State := writeSpadBytes s 0 0 (bytesOf 16 o.bits)
theorem witness_BarrierWordFinishes :
    let o : BarObj := { valid := 0xB7A35C1D, expected := 2, pending := 1, phase := 15, ovr := false, reserved := 0, bytes := 0 }
    ∀ k ∈ [.barInit, .barArrive, .barExpect, .barInval, .barTest], ∀ n ∈ [1, 4095], let a := { acc k 0 16 with slot := none, data := n }
      let s := withObject (withAccess demo a) o
      let found := objectAt s (fibreAgent demo 31) 0 0 (spotOf s (whoOf demo a) 1 0 16 true true)
      canFinish s a = true ∧ findAccess s 5 = some a ∧ a.data.toNat < 2 ^ 12 ∧ found.valid = 0xB7A35C1D
        ∧ (barrierEffect k n found).isSome = true ∧ damagedIn s 1 0 16 = false := by decide +kernel

/-- A wait for phase p with a bound, at an object in phase 3. -/
def waitFor (p : Dword) (bound : Nat) : Access := { acc (.barWait bound) 0 16 with data := p }
def waitState (p : Dword) (bound : Nat) : State :=
  withObject (withAccess demo (waitFor p bound))
    { valid := 0xB7A35C1D, expected := 2, pending := 1, phase := 3, ovr := false, reserved := 0, bytes := 0 }
def waitMeets (p : Dword) (bound : Nat) : Bool :=
  waitOf (waitState p bound) 0 31 == some (waitFor p bound) && (waitState p bound).accesses.all (fun x => !mustPrecede (waitFor p bound) x)
    && (barAt (waitState p bound) 0 0).phase == 3 && !damagedIn (waitState p bound) 1 0 16
/-- A wait for the object's own phase and for another one, with the bound at the clock and after it. -/
theorem witness_BarrierWaitEnds : waitMeets 3 0 = true ∧ waitMeets 3 1 = true ∧ waitMeets 4 0 = true ∧ waitMeets 4 1 = true := by
  decide +kernel

/-! ### Fences, maintenance, scale tiles, engines -/

theorem witness_QuietWordsComplete : accepted (.pf false 31 3 true 7 true) demo allLanes = true ∧ accepted (.nop false) demo allLanes = true
    ∧ accepted (.fence false 3) demo allLanes = true := by decide +kernel

/-- A page of non-coherent memory in the core's cache, and a dirty byte of its first line. -/
def cachedPage (at' : Nat) (nc : Bool) : TlbEntry :=
  { site := 0, pasid := 0, base := at', bits := 18, pa := at', pte := if nc then 0x80100000000001F0 else 0x80000000000001F0, pteAddr := 0 }
def withCache (nc : Bool) : State :=
  { State.reset with tlb := [cachedPage 0 nc], mem := [(5, 7)], stale := [(5, (0, none))], ready := 0xFFFFF }
/-- The lines of a maintenance word of lane 31 lie in the cached page. -/
def maintains (nc : Bool) (i : Instr) : Bool :=
  match maintenance (issueOf [31]) i with
  | some (sa, k, _) => accepted i demo [31] && (namedLines (issueOf [31]) demo sa k).all fun va =>
      decide (va.toNat < 2 ^ 57) && tlbHit (withCache nc) 0 0 va.toNat == some (cachedPage 0 nc) && (cachedPage 0 nc).pte.getLsbD 52 == nc
  | none => false
theorem witness_CacheMaintenanceEffect : ((withCache true).stale.Pairwise fun a b => a.1 < b.1)
    ∧ ∀ nc ∈ [false, true], (maintains nc (.cln false 118 1) && maintains nc (.inv false 0 63) && maintains nc (.clninv false 2 2)) = true := by
  decide +kernel

theorem witness_ScaleLoadRecords : accepted (.scld (mm 116 0 1)) demo allLanes = true ∧ spadByte (atWord State.reset demo (issueOf allLanes)) 0 demo 0 512 = some 0
    ∧ (∀ l < 32, l ∈ allLanes ∧ (demo.fibre l).live = true) ∧ (memAddress demo (issueOf allLanes) 0 0).toNat % 512 = 0
    ∧ accepted (.scld (mm 116 0 1)) demo [0] = true ∧ accepted (.scld (mm 116 0 1)) { demo with width := 8 } [0] = true
    ∧ accepted (.scld (mm 116 0 2)) { demo with regions := 1 } allLanes = true ∧ weightReadable withWeights 0 0 (1 : Dword).getLsbD 0 512 = true
    ∧ accepted (.scld (mm 116 0 0)) demo allLanes = true ∧ (issueOf allLanes).participants demo ≠ []
    ∧ ({ issueOf allLanes with grd := some (true, 0) } : Issue).participants { demo with fibres := List.replicate 32 { slot := .live, pc := 0x1000, pw := 1 } } = [] := by
  decide +kernel

/-- The last two words of a tile. -/
def tileAccess : Access := { acc (.scaleLoad 1) 504 8 with slot := none, sz := 504, lanes := List.replicate 32 4, extra := [30, 31] }
theorem witness_ScaleWordsFinish : Finishing (withAccess demo tileAccess) tileAccess demo ∧ tileAccess.sz % 8 = 0 ∧ tileAccess.sz < 512
    ∧ tileAccess.lanes.length = 32 ∧ damagedIn (withAccess demo tileAccess) 1 504 8 = false :=
  ⟨finishing _ _ rfl rfl (by decide +kernel) demo_live, by decide, by decide, by decide, by decide +kernel⟩
/-- Of a tile of the weight store, and of global memory. -/
theorem witness_ScaleWordsFinish_sources : (let a := { tileAccess with kind := .scaleLoad 2 }
      Finishing (withAccess demo a) a demo ∧ readyBit (withAccess demo a) 8 = true ∧ damagedIn (withAccess demo a) 2 504 8 = false)
    ∧ let a := { tileAccess with kind := .scaleLoad 0 }
      Finishing (withAccess demo a) a demo ∧ globalMeets a 504 true false :=
  ⟨⟨finishing _ _ rfl rfl (by decide +kernel) demo_live, by decide +kernel, by decide +kernel⟩, finishing _ _ rfl rfl (by decide +kernel) demo_live
  , by unfold globalMeets Served Readable; decide +kernel⟩

def engineWords : List Instr :=
  [.cstat (ef 119 0), .place (ef 119 0) 15 2, .pin (ef 0 118), .unpin (ef 0 118), .commit (ef 119 0) 0]
theorem witness_EngineWordRecords : (∀ i ∈ engineWords, accepted i (demoWith [(0, 0x0000013F)]) [0] = true
      ∧ (engineWord (atWord State.reset demo (issueOf [0])) (issueOf [0]) demo i).isSome = true)
    ∧ commitFits (demoWith [(0, 0x0000013F)]) (.commit (ef 119 0) 0) := by
  refine ⟨by decide +kernel, ?_⟩
  simp only [commitFits]; decide

theorem witness_EngineRequestsFinish : (∀ k ∈ [.cstat, .pin true, .pin false, .place 2], canFinish (withAccess demo (acc k 0 0)) (acc k 0 0) = true)
    ∧ tlbHit { withAccess demo (acc (.pin true) 0 0) with tlb := [cachedPage 0 false] } 0 0 0 = some (cachedPage 0 false) := by decide +kernel

/-- A commit of the last row of slot 0 to the last register row of lane 31. -/
def commitOf : Access := { acc .commit 0 0 with aop := 0, data := 63, row := 127, nregs := 1 }
theorem witness_CommitWrites : let s := withAccess demo commitOf
    (s.accesses.find? fun x => x.id == 5 && x.kind == .commit) = some commitOf ∧ commitReady s commitOf = true
    ∧ (∀ b ∈ s.accesses.filter (fun b => b.word == 1 && b.kind == .commit), b.gid = 0 ∧ b.aop = 0 ∧ b.lane < 64 ∧ b.row + b.nregs ≤ demo.rows)
    ∧ (s.accesses.filter fun b => b.word == 1 && b.kind == .commit).Pairwise fun b c => b.lane ≠ c.lane := by decide +kernel

/-- A resident sequence of one block of 16 tokens, and a group whose lane 0 holds its handle. -/
def seqOf : StreetSeq := { die := 0, ctx := 0, index := 0, entry := [0x8000000000000001, 0, 4, 0], blocks := [0x1000] }
def handleGroup (pos : Word) : Group := demoWith [(0, 1), (64, pos)]
/-- The last position of the block resolves, and the one after it does not. -/
theorem witness_KvresResolves : accepted (.kvres (ef 118 0)) (handleGroup 15) [0] = true ∧ accepted (.kvres (ef 118 0)) (handleGroup 16) [0] = true
    ∧ findSeq { State.reset with street := [seqOf] } 0 0 0 = some seqOf ∧ 0 < tableEntries State.reset 0
    ∧ (resolved State.reset 0 seqOf ((handleGroup 15).pair 0 0) ((handleGroup 15).reg 0 2).toNat).isSome = true
    ∧ resolved State.reset 0 seqOf ((handleGroup 16).pair 0 0) ((handleGroup 16).reg 0 2).toNat = none := by decide +kernel

theorem witness_ResultFinishes : Finishing (withAccess demo { acc .result 0 0 with nregs := 2 }) { acc .result 0 0 with nregs := 2 } demo :=
  finishing _ _ rfl rfl (by decide +kernel) demo_live

/-- A group whose lane 0 names the record at byte 0x100 of its scratchpad: 128 bytes from 0 to 0x1000, or a record of zeros. -/
def recordState (zero : Bool) : State :=
  { (writeSpadBytes State.reset 0 0x100 (if zero then [] else
      bytesOf 8 (2 ^ 56 + 2 ^ 48 + 2 ^ 44 + 128) ++ bytesOf 8 0 ++ bytesOf 8 0x1000 ++ bytesOf 8 0 ++ bytesOf 8 1)) with
    quarters := [], ready := 0xFFFFF }
def kickGroup : Group := demoWith [(0, 0x100)]
theorem witness_KickAccepts : (readRecord (atWord (recordState false) kickGroup (issueOf [0])) 0 kickGroup 0 (kickGroup.reg 0 0)).isSome = true
    ∧ accepted (.kick (ef 119 0)) kickGroup [0] = true
    ∧ (readRecord (atWord (recordState false) kickGroup (issueOf [0])) 0 kickGroup 0 0x100).map
        (fun r => (kickCode r.2 0 kickGroup r.1, recSk r.1, recDk r.1)) = some (none, 1, 1)
    ∧ damagedIn (recordState false) 1 0x100 64 = false ∧ spadByte (atWord (recordState false) kickGroup (issueOf [0])) 0 kickGroup 0x100 64 = some 0x100
    ∧ (readRecord (atWord (recordState true) kickGroup (issueOf [0])) 0 kickGroup 0 0x100).map (fun r => kickCode r.2 0 kickGroup r.1) = some (some 2) := by decide +kernel

/-- A copy of 8 bytes within the scratchpad rows of group 0, and one of no row. -/
def copyOf (begun : Bool) (rows byte : Nat) : Copy :=
  { id := 3, hub := false, ctx := 0, part := 0, pasid := 0, gid := 0, core := 0, place := 9, owner := 3
    record := [0x0101100000000008, 0, 0x1FF8, 0, BitVec.ofNat 64 rows, 0, 0, 0], receivers := [0], source := none, begun := begun
    rows := rows, byte := byte }
def withCopy (c : Copy) : State := { setGroup State.reset 0 demo with copies := [c], ready := 0xFFFFF }
theorem witness_CopyBegins : ∀ rows ∈ [0, 1], findCopy (withCopy (copyOf false rows 0)) 3 = some (copyOf false rows 0)
    ∧ copyStopped (withCopy (copyOf false rows 0)) (copyOf false rows 0) = false ∧ ((copyOf false rows 0).dw 0).getLsbD 41 = false
    ∧ (copyOf false rows 0).sk = 1 ∧ (copyOf false rows 0).dk = 1 ∧ (copyOf false rows 0).len = 8 ∧ (copyOf false rows 0).counted = false
    ∧ unasked (withCopy (copyOf false rows 0)) { copyOf false rows 0 with rows := rows } = none := by decide +kernel
/-- The group of a copy, its rows' hold, a sealed region that it lists and an open one, and a page for its addresses. -/
def copyGroup : Group := { demo with regions := 1 }
def copyState (c : Copy) : State :=
  { setGroup (withObject State.reset { valid := 0xB7A35C1D, expected := 1, pending := 1, phase := 0, ovr := false, reserved := 0, bytes := 8 }) 0 copyGroup with
    copies := [c], ready := 0xFFFFF, tlb := [openPage], rowHolds := [{ core := 0, gid := 0, uid := 1, pos := 0, grank := 0, stage := 0, first := 0, count := 64 }]
    regionsOf := [(0, { die := 0, first := 0, count := 1, isSealed := true }), (1, { die := 0, first := 1, count := 1, isSealed := false })] }
/-- A copy of a row of 8 bytes from byte 0x1000 of kind sk, counting or not, whose object is the first of the rows. -/
def copyKind (sk dk : Nat) (bc : Bool) (dst : Dword) (b : Nat) : Copy :=
  { copyOf true 1 b with
    source := some 0
    srcRows := if sk = 4 then [0x1000] else []
    record := [BitVec.ofNat 64 (2 ^ 56 + dk * 2 ^ 48 + sk * 2 ^ 44 + (if bc then 2 ^ 43 else 0) + 8), 0x1000, dst, 0, 1, 0, 0, 0] }
/-- The copy moves a word: its source is readable, and the space of its target. -/
def copyMeets (c : Copy) : Option Nat :=
  let s := copyState c
  match sourcePlace s c copyGroup with
  | some (p, s0) =>
    let who := copyWho s0 c [] p.far
    if findCopy s c.id == some c && !copyStopped s c && (p.space == 0 || !damagedIn s0 p.space p.at_ 4)
        && (List.range 4).all (fun i => (moveOf s0 (p.at_ + i)).isNone
          && (p.space != 0 || (foundIn s0 (.copy c.id) p (spotOf s0 who p.space p.at_ 4 true false) i).2.isNone)) then
      (targetPlace (readSpace s0 who p.space p.key p.at_ 4).2 c copyGroup).map fun x => x.1.space
    else none
  | none => none
/-- Each source to scratchpad; scratchpad to each target; into the landing slot; the first word of a row and the last one; a counted word. -/
theorem witness_CopyMovesWord : (∀ sk ∈ [0, 1, 2, 3, 4], copyMeets (copyKind sk 1 false 0x1FF8 0) = some 1 ∧ copyMeets (copyKind sk 1 false 0x1FF8 4) = some 1)
    ∧ copyMeets (copyKind 1 0 false 0x1000 0) = some 0 ∧ copyMeets (copyKind 1 2 false 0x100 0) = some 1 ∧ copyMeets (copyKind 1 3 false 0x80000 0) = some 2
    ∧ (copyKind 1 1 false 0x1FF8 0).lastOfReceiver = false ∧ (copyKind 1 1 false 0x1FF8 4).lastWord = true ∧ (copyKind 1 1 false 0 0).arrv = false
    ∧ ((copyKind 1 5 false 0x3F00 0).dw 2).toNat / 256 % 64 = 63 ∧ (sourcePlace (copyState (copyKind 1 5 false 0x3F00 0)) (copyKind 1 5 false 0x3F00 0) copyGroup).isSome = true
    ∧ commitBefore (copyState (copyKind 1 5 false 0x3F00 0)) 0 0 3 = false
    ∧ (let c := copyKind 1 1 true 0x1FF8 0
       copyMeets c = some 1 ∧ c.bc = true ∧ objectBad (copyState c) c = false ∧ receiverObject (copyState c) c = some (0, 0)
         ∧ (objectAt (copyState c) (.copy 3) 0 0 0).valid = 0xB7A35C1D)
    ∧ (let c := { copyKind 1 1 false 0x1FF8 0 with data := some ([1, 2, 3, 4], 0) }
       copyMeets c = some 1 ∧ c.data = some ([1, 2, 3, 4], 0)) := by decide +kernel

/-! ### The matrix unit and the mask unit -/

def xf (sa sb : BitVec 7) : XF := { c := false, ec := 0, ls := 0, sa := sa, sb := sb }

/-- Every matrix word that reads no side block, and a sparse one of metadata. -/
def matrixWords : List Instr :=
  (List.range 7).map (fun p => .mma (xf 0 0) (BitVec.ofNat 4 p)) ++ (List.range 3).map (fun ty => .smm (xf 0 0) (BitVec.ofNat 2 ty) 0)
def matrixFits (g : Group) (i : Instr) : Bool :=
  match matrixWordOf i with
  | some (k, o, ent) =>
    let m := g.reg 0 (o.sa.toNat + 3)
    accepted i g allLanes && decide (o.ls.toNat < g.lslots) && !matrixIllegal k m o.sa.toNat o.sb.toNat && (sideFails g k m o.sb.toNat).isEmpty
      && !operatorBad State.reset 0 0 k (entryOfWord k m ent) && (metaFails k m (sideBlock g k m o.sb.toNat)).isNone
  | none => false

/-- MCTL of a sparse product of 2 of 16, whose metadata rise. -/
def sparseGroup : Group := demoWith [(96, 0x0C000000), (128, 0x10101010), (160, 0x10101010), (192, 0x10101010), (224, 0x10101010)]

theorem witness_MatrixWordIssues : (∀ i ∈ matrixWords, matrixFits demo i = true)
    ∧ matrixFits sparseGroup (.mmaSp (xf 0 4) 4) = true ∧ matrixFits sparseGroup (.smmSp (xf 0 4) 0 0) = true ∧ (∀ l < 32, l ∈ allLanes ∧ (demo.fibre l).live = true) := by
  decide +kernel

/-- A gang of all lanes but one, a narrow group, and a slot that the group does not hold. -/
theorem witness_GroupWordShapeTraps : ∀ i ∈ ([.mma (xf 0 0) 4, .mzero false 0 0, .mtosp (xf 0 1), .mfillF32 false 0 0 7] : List Instr),
    (slotOf i).isSome = true ∧ accepted i demo (List.range 31) = true ∧ accepted i { demo with width := 8 } (List.range 8) = true
      ∧ accepted i { demo with lslots := 0 } allLanes = true := by decide +kernel

/-- An INT8 word of depth 64 whose rows stand at 0, 64, ... and whose columns stand at 4096, ...; row 63 is padding. -/
def gatherOp : XOp :=
  { id := 4, gid := 0, kind := .mma 4 false, ls := 0, aAddr := (List.range 64).map fun r => if r = 63 then 0xFFFFFFFF else BitVec.ofNat 32 (64 * r)
    bAddr := 4096, mctl := 0x7C000, latchA := some 0, latchB := some 1 }
def withQueue (x : XOp) : State :=
  { setGroup State.reset 0 demo with quarters := [(0, { queue := [x] })], ready := 0xFFFFF }
def runAt (s : State) (x : XOp) (addr : Word) (n align : Nat) : Bool := spadByte s x.gid demo addr n == some addr.toNat && addr.toNat % align == 0
theorem witness_GatherCompletes : pendingGather (getQuarter (withQueue gatherOp) 0) = some gatherOp ∧ gatherWaits (withQueue gatherOp) 0 gatherOp demo = false
    ∧ gatherOp.mctl.getLsbD 21 = false ∧ gatherOp.keep = none ∧ gatherOp.latchA = some 0 ∧ gatherOp.latchB = some 1
    ∧ (getQuarter (withQueue gatherOp) 0).latchA.length = 2 ∧ (getQuarter (withQueue gatherOp) 0).latchB.length = 2
    ∧ (∀ r < 63, runAt (withQueue gatherOp) gatherOp (gatherOp.aAddr.getD r 0) (sliceBytes gatherOp.kind gatherOp.mctl) 64 = true)
    ∧ gatherOp.aAddr.getD 63 0 = 0xFFFFFFFF
    ∧ ∀ c < mctlCols gatherOp.mctl, runAt (withQueue gatherOp) gatherOp (4096 + BitVec.ofNat 32 (c * columnBytes gatherOp.kind gatherOp.mctl))
        (columnBytes gatherOp.kind gatherOp.mctl) 64 = true := by decide +kernel
/-- The same word with its columns in the weight store; and one that keeps the A operand. -/
theorem witness_GatherCompletes_weights : (let x := { gatherOp with mctl := 0x27C000, bAddr := 64, keep := some 0 }
      let g := { demo with regions := 1 }
      let s := { setGroup withWeights 0 g with quarters := [(0, { queue := [x] })] }
      pendingGather (getQuarter s 0) = some x ∧ gatherWaits s 0 x g = false ∧ x.mctl.getLsbD 21 = true ∧ x.keep ≠ none
        ∧ (columnBytes x.kind x.mctl = 64) ∧ x.bAddr.toNat % 64 = 0 ∧ readyBit s 8 = true
        ∧ ∀ c < 32, weightReadable s g.part 0 g.regions.getLsbD (64 + 64 * c) 64 = true ∧ damagedIn s 2 (64 + 64 * c) 64 = false)
    ∧ damagedIn (withQueue gatherOp) 1 0 6144 = false := by decide +kernel

theorem witness_MatrixExecutes : (let x := { gatherOp with gathered := true }
      (getQuarter (withQueue x) 0).queue = [x] ∧ x.kind.isMatrix = true ∧ commitBefore (withQueue x) 0 0 4 = false)
    ∧ let x := { gatherOp with gathered := true, begun := true }
      (getQuarter (withQueue x) 0).queue = [x] ∧ getGroup (withQueue x) 0 = some demo := by decide +kernel

/-- Rows and columns in the latches: dense INT8, a scaled sparse I4X word, and every other kind that may issue. -/
def cellQuarter : Quarter :=
  { latchA := [{ data := [some (List.replicate 256 0x80)] }], latchB := [{ data := [some (List.replicate 64 0x7F)] }] }
def cellOp (k : XKind) (mctl : Word) (entry : Nat) : XOp := { gatherOp with kind := k, mctl := mctl, entryNo := entry, latchA := some 0, latchB := some 0 }
def cellKinds : List XOp :=
  (List.range 9).map (fun p => cellOp (.mma p false) 0 0) ++ (List.range 9).map (fun p => cellOp (.mma p true) 0x08400000 0)
  ++ (List.range 3).map (fun ty => cellOp (.smm ty false) 0 (ty + 1)) ++ [cellOp (.smm 1 true) 0x04000000 4, cellOp (.smm 3 false) 0 7, cellOp (.smm 2 true) 0x0C000000 5]
  ++ [{ cellOp (.mma 8 false) 0 8 with entry := { ctl := 0x1400 } }, { cellOp (.smm 0 false) 0 15 with entry := { ctl := 0x22 } }]
theorem witness_MatrixElements : (∀ x ∈ cellKinds, matrixWordFits x = true ∧ (latchRun cellQuarter.latchA x.latchA 0).isSome = true
      ∧ latchRun cellQuarter.latchA x.latchA 1 = none)
    ∧ (let x := cellOp (.mma 4 false) 0 0
       (latchRun cellQuarter.latchB x.latchB 0).map List.length = some (logicalDepth x * 8 / 8) ∧ validOf x = 64
         ∧ validOf { x with mctl := 1 } = 1)
    ∧ (let x := { cellOp (.mma 8 true) 0x0C000000 0 with side := (List.range 40).map fun _ => List.replicate 32 0x10101010 }
       (latchRun cellQuarter.latchA x.latchA 0).map List.length = some (logicalDepth x * bitsOfIn (inputsOf x.kind).1 / 8) ∧ nOf x.mctl = 2
         ∧ (∀ k < 32, positionOf x 0 k 0 = 0 ∧ positionOf x 0 k 1 = 1) ∧ scaleByte x true 31 511 = 0x10) := by
  decide +kernel
theorem witness_FloatingCells : ∃ x ∈ cellKinds, (inputsOf x.kind).1 ∉ [MatIn.i8, .i32, .b1] := by decide +kernel
/-- The elements of the words over integers and bits are integers. -/
theorem witness_IntegerCells : ∀ x ∈ cellKinds, (inputsOf x.kind).1 ∈ [MatIn.i8, .i32, .b1] →
    ∀ k < logicalDepth x, (exactValue (elemA cellQuarter x 0 k)).den = 1 ∧ ∀ w, elemB cellQuarter x 0 k = some w → (exactValue w).den = 1 := by
  decide +kernel

def fillOp : XOp := { id := 4, gid := 0, kind := .fill 7, ls := 0 }
/-- A fill that has a value, and one whose entry gives none. -/
theorem witness_LandingFills : (∀ i ∈ ([.mzero false 0 0, .mfillF32 false 0 0 1, .mfillI32 false 0 0 5] : List Instr),
      accepted i demo allLanes = true ∧ (fillValue State.reset 0 0 i).isSome = true)
    ∧ accepted (.mfillF32 false 0 0 7) demo allLanes = true ∧ fillValue State.reset 0 0 (.mfillF32 false 0 0 7) = none
    ∧ (getQuarter (withQueue fillOp) 0).queue = [fillOp] ∧ slotQuiet (withQueue fillOp) fillOp = true := by decide +kernel

/-- The last landing row, to the last scratchpad row. -/
def spadGroup : Group := demoWith [(0, 0x1F80), (32, 0x013F)]
def mtospOp (done : Nat) : XOp := { id := 4, gid := 0, kind := .mtosp 0x1F00 62 2, ls := 0, rowsDone := done }
theorem witness_MtospWritesRows : accepted (.mtosp (xf 0 1)) spadGroup allLanes = true
    ∧ spadByte (atWord State.reset spadGroup (issueOf allLanes)) 0 spadGroup 0x1F80 (128 * 1) = some 0x1F80
    ∧ (∀ n ∈ [0, 1], (getQuarter (withQueue (mtospOp n)) 0).queue = [mtospOp n] ∧ slotQuiet (withQueue (mtospOp n)) (mtospOp n) = true) := by
  decide +kernel

def tableLoad (entry : Option Nat) : TableLoad := { id := 6, gid := 0, lanes := allLanes, entry := entry, bounds := [1, 2] }
/-- A descriptor of zeros keeps the rules and one with a reserved bit does not; an address past the rows fails. -/
theorem witness_OperatorTableLoads : (∀ n ∈ [0, 7], accepted (.opld false 0 0 (BitVec.ofNat 3 n)) demo allLanes = true)
    ∧ spadByte (atWord State.reset demo (issueOf allLanes)) 0 demo 0 16 = some 0 ∧ descOk {} = true ∧ descOk { tail := 1 } = false
    ∧ spadByte (atWord State.reset demo (issueOf allLanes)) 0 demo 8192 16 = none
    ∧ damagedIn State.reset 1 0 16 = false ∧ damagedIn { State.reset with damaged := [2 ^ 60 + 15] } 1 0 16 = true
    ∧ ∀ n ∈ [0, 15], ({ State.reset with tableLoads := [tableLoad (some n)] }.tableLoads.find? fun y => y.id == 6) = some (tableLoad (some n)) := by
  decide +kernel

theorem witness_MaskProgramLoads : accepted (.mpld false 0 0) demo allLanes = true
    ∧ ((readMask State.reset 0 0 demo 0).1 matches .ok ..) = true
    ∧ ((readMask (writeSpadBytes State.reset 0 0 [0, 0, 0, 0xC0]) 0 0 demo 0).1 matches .bad) = true
    ∧ ((readMask State.reset 0 0 demo 8192).1 matches .fault _) = true
    ∧ ((readMask { State.reset with damaged := [2 ^ 60] } 0 0 demo 0).1 matches .broken _) = true
    ∧ ({ State.reset with tableLoads := [tableLoad none] }.tableLoads.find? fun y => y.id == 6) = some (tableLoad none) := by decide +kernel

/-- Causal attention, and the highest query and key of a tile. -/
def maskGroup (q k : Word) : Group := { demoWith [(0, q), (32, k)] with maskWords := 0x40001001 :: List.replicate 15 0 }
theorem witness_MaskWordEffect : maskBadLanes (maskGroup 0x7FFFFFC0 0x7FFFFFC0) [0] 0 = []
    ∧ accepted (.mclass false 0 0 119) (maskGroup 0x7FFFFFC0 0x7FFFFFC0) [0] = true ∧ (tileRows (maskGroup 0x7FFFFFC0 0x7FFFFFC0) 0x7FFFFFC0 64).isSome = true
    ∧ accepted (.mbits false 0 0 118) (maskGroup 0x7FFFFFC0 0x7FFFFFC0) [0] = true ∧ (keySet (maskGroup 0x7FFFFFC0 0) 0x7FFFFFC0).isSome = true := by
  decide +kernel

/-- A program of five intervals [k, k + 1), two apart. -/
def wideGroup : Group :=
  { demo with maskWords := (List.range 5).map (fun k => BitVec.ofNat 32 (2 ^ 30 + 2 * k * 2 ^ 15 + 2 * k + 1)) ++ List.replicate 11 0 }
theorem witness_MaskWordTraps : maskBadLanes (maskGroup 0x7FFFFFC1 0) [0, 1] 0 = [0]
    ∧ accepted (.mbits false 0 0 2) (maskGroup 0x7FFFFFC1 0) [0, 1] = true ∧ accepted (.mclass false 0 0 2) wideGroup [31] = true
    ∧ maskBadLanes wideGroup [31] 0 = [] ∧ tileRows wideGroup 0 64 = none := by decide +kernel

/-! ### Control -/

/-- Branches of the two directions' last offsets, a jump, an indirect jump. -/
theorem witness_TransfersGo : ∀ i ∈ ([.bz false 119 0x3FFF, .bnz false 0 0x4000, .bps false 31 1, .bpc false 0 0x7FFF, .jmp false 0x800000
    , .jmpi false 118] : List Instr), accepted i demo allLanes = true ∧ (List.range 64).all (fun l => (transferTarget (issueOf allLanes) demo l i).isSome) = true := by
  decide +kernel

/-- The largest frame that fits 128 rows, and the same with a window that it leaves. -/
def windowGroup (wb : Nat) (regs : Tbl Word) : Group := { demoWith regs with fibres := List.replicate 32 { slot := .live, pc := 0x1000, wb := wb } }
theorem witness_CallMovesWindow : accepted (.call false 126 1) demo allLanes = true ∧ accepted (.calli false 2 118) demo allLanes = true
    ∧ (allLanes.filter fun l => decide (128 ≤ (demo.fibre l).wb + 126)) = []
    ∧ (callTarget (issueOf allLanes) demo (.call false 126 1)).isSome = true ∧ accepted (.call false 126 1) (windowGroup 2 []) allLanes = true
    ∧ (allLanes.filter fun l => decide (128 ≤ ((windowGroup 2 []).fibre l).wb + 126)) = allLanes ∧ allLanes.Nodup := by decide +kernel

/-- The links of the lanes that ret may pass: row 1, FR in bits [63:57]. -/
def linkGroup (fr : Nat) : Group :=
  windowGroup 2 ((List.range 32).map (fun l => (l, (0x2000 : Word))) ++ (List.range 32).map fun l => (32 + l, BitVec.ofNat 32 (fr * 2 ^ 25)))
def badReturn (g : Group) (l : Nat) : Bool :=
  let fr := (g.cell l ((g.fibre l).wb - 1) ++ g.cell l ((g.fibre l).wb - 2)).toNat / 2 ^ 57
  decide ((g.fibre l).wb < 2) || decide (fr < 2) || decide (fr % 2 = 1) || decide ((g.fibre l).wb < fr)
theorem witness_ReturnRestores : accepted (.ret false) (linkGroup 2) allLanes = true ∧ allLanes.filter (badReturn (linkGroup 2)) = []
    ∧ allLanes.filter (badReturn (linkGroup 1)) = allLanes ∧ allLanes.filter (badReturn (linkGroup 4)) = allLanes
    ∧ allLanes.filter (badReturn demo) = allLanes := by decide +kernel

/-- The state after the call, and its group. -/
def afterCall : State :=
  match exec (.call false 126 1) (atWord State.reset demo (issueOf allLanes)) with
  | .next t => t
  | _ => {}
theorem witness_CallThenReturn : (exec (.call false 126 1) (atWord State.reset demo (issueOf allLanes)) matches .next _) = true
    ∧ accepted (.call false 126 1) demo allLanes = true ∧ (∀ l ∈ allLanes, (demo.fibre l).wb + 126 < demo.rows)
    ∧ (issueOf allLanes).next.toNat % 4 = 0 ∧ (issueOf allLanes).next.toNat < 2 ^ 57
    ∧ ((getGroup afterCall 0).map fun h => checkWord (.ret false) { issueOf allLanes with pc := 0x1004, next := 0x1008 } h) = some none := by
  decide +kernel

/-- Two spawners, and one free slot. -/
def spawnGroup : Group :=
  { demo with fibres := List.replicate 31 { slot := .live, pc := 0x1000 } ++ [{}] }
theorem witness_SpawnCreatesFibres : accepted (.spawn false 119 0 0x3FF) spawnGroup [0, 1] = true ∧ spawnGroup.width ≤ 64
    ∧ spawnGroup.fibres.length = spawnGroup.width ∧ (∀ l ∈ [0, 1], l < spawnGroup.width ∧ (spawnGroup.fibre l).slot = .live)
    ∧ ((List.range spawnGroup.width).filter fun i => (spawnGroup.fibre i).slot == .free) = [31] ∧ (issueOf [0, 1]).snap = none ∧ 0 < spawnGroup.rows
    ∧ (issueOf [0, 1]).lanes.Nodup := by decide +kernel

theorem witness_EndEndsFibres : accepted (.endFibre false) demo [0] = true ∧ (∃ l < demo.width, l ∉ [0] ∧ (demo.fibre l).live = true)
    ∧ accepted (.endFibre false) demo allLanes = true ∧ (∀ l < demo.width, l ∈ allLanes ∨ (demo.fibre l).slot = .free)
    ∧ groupQuiet (atWord State.reset demo (issueOf allLanes)) 0 = true ∧ demo.stopping = false ∧ demo.parked = false ∧ demo.saving = false
    ∧ demo.fibres.length = demo.width := by
  refine ⟨by decide +kernel, ⟨31, by decide, by decide, by decide +kernel⟩, by decide +kernel⟩

/-- Token 15 with no fibre held, and with one. -/
def tokenGroup (held : BitVec 64) : Group := { demo with tokens := List.replicate 15 {} ++ [{ isOpen := true, expected := 3, held := held }] }
theorem witness_ConvergenceWords : (∀ i ∈ ([.topen false 15, .fuse false 15, .leave false 15] : List Instr),
      accepted i (tokenGroup 0) [1] = true ∧ accepted i (tokenGroup 1) [1] = true)
    ∧ (tokenGroup 0).tokens[15]? = some { isOpen := true, expected := 3, held := 0 }
    ∧ (tokenGroup 1).tokens[15]? = some { isOpen := true, expected := 3, held := 1 } := by decide +kernel

theorem witness_SystemWordsComplete : ∀ i ∈ ([.yield false, .trigger false, .pass false, .wsb false 255] : List Instr),
    accepted i demo allLanes = true := by decide +kernel
/-- A trigger word with no fence before it, and one whose fence waits for a store. -/
theorem witness_SystemWordsComplete_trigger : demo.trig = false ∧ fencedOpen (atWord State.reset demo (issueOf allLanes)) 0 0 (demo.fibre 0) = []
    ∧ fencedOpen (withAccess demo { acc .store 0x100 4 with lane := 0, least := 1 }) 0 0 { demo.fibre 0 with fence := some (1, 6) }
        = [{ acc .store 0x100 4 with lane := 0, least := 1 }] := by decide +kernel

theorem witness_TrapWordsTrap : accepted (.brk false 0xFFFF) demo allLanes = true ∧ accepted (.trap false 0) demo [31] = true
    ∧ fibreStop (atWord (setX State.reset 0 0x158 2) demo (issueOf allLanes)) demo = true
    ∧ fibreStop (atWord State.reset demo (issueOf allLanes)) demo = false := by decide +kernel

/-- Every number of R164, and one that it does not list. -/
theorem witness_ControlRegisterRead : (∀ n ∈ [0, 1, 2, 3, 4, 5, 0x10, 0x11, 0x12, 0x13, 0x14, 0x15, 0x16, 0x17, 0x18, 0x19, 0x1A, 0x1B, 0x1C, 0x1D
      , 0x20, 0x21, 0x22], accepted (.csrr false 119 (BitVec.ofNat 12 n)) demo allLanes = true
        ∧ (controlValue State.reset (issueOf allLanes) demo 0 n).isSome = true)
    ∧ accepted (.csrr false 0 0x23) demo allLanes = true ∧ controlValue State.reset (issueOf allLanes) demo 0 0x23 = none
    ∧ controlValue State.reset (issueOf allLanes) demo 0 6 = none := by decide +kernel

theorem witness_ControlRegisterWrite : ∀ n ∈ [0, 0x1D, 1, 0x23], ∀ i ∈ ([.csrw false 119 (BitVec.ofNat 12 n), .csrs false 0 (BitVec.ofNat 12 n)
    , .csrc false 1 (BitVec.ofNat 12 n)] : List Instr), accepted i demo allLanes = true ∧ (controlUpdate i).isSome = true := by decide +kernel

/-- A one and a zero in the register of the gang's lane. -/
theorem witness_TokenRingMembership : accepted (.csrw false 0 0x1C) (demoWith [(31, 1)]) [31] = true ∧ ((demoWith [(31, 1)]).reg 31 0).getLsbD 0 = true
    ∧ (demo.reg 31 0).getLsbD 0 = false ∧ demo.member = false
    ∧ (∀ e ∈ (atWord State.reset demo (issueOf [31])).groups, quarterOf e.1 = 0 → e.2.member = false) := by decide +kernel

theorem witness_PredicateWordMoves : accepted (.rdpw false 119) demo allLanes = true ∧ accepted (.wrpw false 0) demo allLanes = true := by
  decide +kernel

/-- 0x1000 is word 1 of its packet and 0x1004 the last one. -/
theorem witness_PrefixesApply : (0x1000 : Dword).toNat % 12 = 4 ∧ (0x1004 : Dword).toNat % 12 = 8
    ∧ ∀ i ∈ ([.rep 16 0 true false 15 15 15, .xl 4 63 true, .grd true 31, .ext 0xFFFFFF] : List Instr),
      i.wf = true ∧ ((prefixed (issueOf [0]) i).map fun x => x.1) = some false
        ∧ ((prefixed (issueOf [0]) i).map fun x => (prefixed x.2 i).map fun y => y.1) = some (some true) := by decide +kernel

/-- A page in the core's cache, and the table's rows: scratchpad rows held, and none. -/
theorem witness_RelocateDecides : accepted (.relocate (ef 119 0)) demo [0] = true
    ∧ tlbHit { atWord State.reset demo (issueOf [0]) with tlb := [cachedPage 0 false] } 0 0 0 = some (cachedPage 0 false) ∧ demo.scratch ≠ 0
    ∧ accepted (.relocate (ef 119 0)) { demo with scratch := 0 } [0] = true := by decide +kernel

/-! ### Traps on their way, kiosks, harts, bring-up and time -/

def trapOf (gid : Nat) : TrapRecord :=
  { cause := 0x0E, gid := gid, part := 0, vf := 0xFF, mask := 1, detail := 0, counter := 0, progress := 0, launch := 1 }
def withGroup (g : Group) : State := { setGroup State.reset 0 g with ready := 0xFFFFF, power := .on }
def withKiosk (g : Group) (k : Kiosk) : State := setKiosk (withGroup g) 0 k
/-- A stopped group, and a queue with its last place free and a full one. -/
theorem witness_TrapsAreDelivered : getGroup (withGroup { demo with stopping := true }) 0 = some { demo with stopping := true }
    ∧ (withGroup { demo with stopping := true }).issue = none
    ∧ (∀ n ∈ [63, 64], (getKiosk (withKiosk { demo with parked := true } { queue := List.replicate n (trapOf 0), waiting := [trapOf 0] }) 0).waiting = [trapOf 0]
        ∧ (getKiosk (withKiosk { demo with parked := true } { queue := List.replicate n (trapOf 0), waiting := [trapOf 0] }) 0).queue.length = n) := by
  decide +kernel

/-- A kiosk that runs and selects group 0, which is parked. -/
def kioskState (g : Group) : State := withKiosk g { started := true }
def parkedGroup : Group := { demo with parked := true, stopping := true, fibres := List.replicate 31 { slot := .live } ++ [{ slot := .parked }] }
theorem witness_KioskCommands : Selected (kioskState parkedGroup) 0 0 parkedGroup ∧ recordWaits (kioskState parkedGroup) 0 = false
    ∧ parkedGroup.liveLanes ≠ [] ∧ groupQuiet (kioskState parkedGroup) 0 = true ∧ parkedGroup.fibres.length = parkedGroup.width
    ∧ (parkedGroup.fibre 31).slot = .parked ∧ parkedGroup.parked = true := by unfold Selected; decide +kernel

/-- A doorbell at a memory address, at no address, and at an interrupt file, where the model's free map puts one. -/
theorem witness_KioskWindow_doorbell : hartPlace (kioskState parkedGroup) 96 0x1000 = .memory ∧ itemReadyAt (kioskState parkedGroup) 0x1000 = true
    ∧ (∀ k < 4, moveOf (kioskState parkedGroup) (0x1000 + k) = none) ∧ (0x1003 : Dword).toNat % 2 ^ 52 / 4 * 4 = 0x1000 := by decide +kernel
theorem witness_KioskWindow_file (h : Config.imsicFile 0xFE0000000 = some (0, 1)) :
    hartPlace (kioskState parkedGroup) 96 0xFE0000000000 = .imsic 0 1 0 ∧ 0 < (7 : Dword).toNat % 2 ^ 32 := by
  refine ⟨?_, by decide⟩
  simp only [hartPlace]
  rw [if_neg (by decide), if_neg (by decide), if_neg (by decide), show submissionPage 0xFE0000000000 = none from by decide +kernel]
  simp only [show (0xFE0000000000 : Nat) / 4096 = 0xFE0000000 from rfl, h]
  rw [if_neg (by decide +kernel)]
  rfl
theorem witness_KioskWindow : (getX (setX (kioskState parkedGroup) 0 0x3018 5) 0 0x3018).getLsbD 0 = true
    ∧ (getKiosk (setX (kioskState parkedGroup) 0 0x3018 5) 0).started = true ∧ Selected (kioskState parkedGroup) 0 0 parkedGroup
    ∧ parkedGroup.width = 32 := by unfold Selected; decide +kernel

/-- A hart that submits to queue 0 of the physical function, which is on with room for 16 records. -/
def hartState (enabled : Bool) (h : Hart) : State :=
  { setHart (setX (setX State.reset 0 0x1E00 1) 0 0x400 (if enabled then 1 else 0)) 0 h with ready := 0xFFFFF, hartIssue := some 0 }
def hart (va : Dword) : Hart := { x := [(10, va)] }
/-- A hart in S-mode or, as a guest, in VS-mode, whose tables at 0 map nothing. -/
def mappedHart (p : Priv) (csr : Nat) : Hart := { hart 0x1000 with priv := p, csrs := [(csr, 0x9000000000000000), (0x300, 0x2200)] }
def translates (h : Hart) (va : Dword) : HartAddr := hartTranslate (hartState true h) 0 (getHart (hartState true h) 0) .store va
theorem witness_HartSubmits : (∀ on ∈ [true, false], hartTranslate (hartState on (hart 0xF900000000F80)) 0 (getHart (hartState on (hart 0xF900000000F80)) 0) .store 0xF900000000F80 = .at 0xF900000000F80
      ∧ submissionPage 0xF900000000F80 = some (0, 0) ∧ (getHart (hartState on (hart 0xF900000000F80)) 0).drained = true
      ∧ walkWaits (hartState on (hart 0xF900000000F80)) (hart 0xF900000000F80) .m = false
      ∧ mustRetry (hartState on (hart 0xF900000000F80)) 0 0 = (!on) ∧ readyBit (hartState on (hart 0)) 0 = true)
    ∧ (0xF900000000F80 : Dword).toNat % 128 = 0 ∧ (0xF900000000F88 : Dword).toNat % 128 ≠ 0 ∧ (28 : BitVec 5).toNat % 4 = 0
    ∧ (hart 0).vsOff = false ∧ ({ hart 0 with csrs := [(0x300, 0x2000)] } : Hart).vsOff = true
    ∧ ({ hart 0 with ops := [{ id := 1, kind := .store, word := 0 }] } : Hart).drained = false
    ∧ translates (hart 0x1000) 0x1000 = .at 0x1000 ∧ submissionPage 0x1000 = none
    ∧ translates (mappedHart .s 0x180) 0x1000 = .raise (.pageFault .store 0x1000 false) none
    ∧ walkWaits (hartState true (mappedHart .s 0x180)) (mappedHart .s 0x180) .s = false
    ∧ translates (mappedHart .vs 0x680) 0x1000 = .raise (.guestPageFault .store 0x1000 0x1000 false) none := by decide +kernel

theorem witness_HartUserTraps : (let h := getHart (hartState true { priv := .u, nutvec := 0x101, nutstat := 1 }) 0
      h.priv = .u ∧ h.nutvec.getLsbD 0 = true ∧ h.nutstat.getLsbD 0 = true ∧ h.nutstat.getLsbD 1 = false)
    ∧ (getHart (hartState true { nutstat := 2 }) 0).nutstat.getLsbD 1 = true ∧ (getHart (hartState true {}) 0).nutstat.getLsbD 1 = false
    ∧ (getHart (hartState true {}) 0).priv = .m ∧ (hartState true {}).hartIssue = some 0 := by decide +kernel

/-- The hub, whose stage is the first, and the last item after it. -/
theorem witness_BringUpReports : State.reset.power = .off
    ∧ (let s := { State.reset with power := .on }
       s.ready.getLsbD 0 = false ∧ s.failed.getLsbD 0 = false)
    ∧ (let s := { State.reset with power := .on, ready := 1 }
       s.ready.getLsbD 0 = true ∧ s.ready.getLsbD 18 = false ∧ s.ready.getLsbD 4 = false)
    ∧ { State.reset with power := .recovery }.power = .recovery ∧ (withGroup demo).ready.getLsbD 3 = true := by decide +kernel

/-- The first slot's end, its window's end, the first refill, and a group and a fibre at their bounds. -/
def lateState (clock : Nat) : State :=
  { withGroup { demo with waited := 512, fibres := [{ slot := .live, missed := 16 }] } with clock := clock }
theorem witness_TimeBrings : (lateState 1000).ready.getLsbD 4 = true ∧ 1000 * (tblGet 0 (lateState 1000).avenue 0 + 1) ≤ (lateState 1000).clock - tblGet 0 (lateState 1000).dieReady 0
    ∧ 1000 * tblGet 0 (lateState 500).avenue 0 + 500 ≤ (lateState 500).clock ∧ 1250 * (tblGet 0 (lateState 1250).refills 0 + 1) ≤ (lateState 1250).clock
    ∧ ((getGroup (lateState 0) 0).map fun g => (g.starvedAt, g.waited, (g.fibre 0).starvedAt, (g.fibre 0).missed, (g.fibre 0).live))
        = some (none, 512, none, 16, true) := by decide +kernel

/-- A page for the core with every permission and tier, and a fibre that holds no packet. -/
def codePage : TlbEntry := { site := 0, pasid := 0, base := 0, bits := 18, pa := 0, pte := 0xBE000000000001F0, pteAddr := 0 }
def fetchState : State :=
  { withGroup demo with tlb := [codePage], quarters := [(0, {})], xreg := [(0x1E00, 1)], contexts := [(0, { resident := true })] }
def fetchMaker : Agent := fetchAgent demo (((runningLanes fetchState 0 demo).filter fun l =>
  (demo.fibre l).pc == (demo.fibre 31).pc && !hasPacket (demo.fibre l) && !fenceHolds fetchState 0 l (demo.fibre l)).headD 0)
theorem witness_FetchBringsPacket : 31 ∈ runningLanes fetchState 0 demo ∧ hasPacket (demo.fibre 31) = false
    ∧ fenceHolds fetchState 0 31 (demo.fibre 31) = false
    ∧ (demo.fibre 31).pc.toNat / 12 * 12 + 12 ≤ 2 ^ 57 ∧ fetchState.ats = []
    ∧ (∀ k < 12, tlbHit fetchState 0 0 ((demo.fibre 31).pc.toNat / 12 * 12 + k) = some codePage) ∧ codePage.ats = false
    ∧ codePage.pte.getLsbD 6 = true ∧ tierOf fetchState 0 ≤ 2 ∧ codePage.pte.getLsbD (57 + tierOf fetchState 0) = true
    ∧ keyBusy fetchState (ctxKey fetchState 0) = false ∧ (∀ k < 12, moveOf fetchState (0xFFC + k) = none)
    ∧ (∀ k < 3, underHandover fetchState (0xFFC + 4 * k) = false ∧ copyOwns fetchState (0xFFC + 4 * k) = false
        ∧ itemReadyAt fetchState (0xFFC + 4 * k) = true ∧ damagedAt fetchState (0xFFC + 4 * k) 4 = false)
    ∧ (demo.fibre 31).pc.toNat / 12 * 12 = 0xFFC := by decide +kernel
theorem witness_FetchBringsPacket_keys : ∀ k < 3, ∀ n, ∀ i < 4, (foundAt fetchState fetchMaker (0xFFC + 4 * k) n i).2 = none := by
  have h : ∀ k < 3, ∀ i < 4, (cellAt fetchState (locate fetchState (0xFFC + 4 * k + i))).2 = none := by decide +kernel
  intro k hk n i hi
  simpa only [foundAt, show fetchState.past = [] from rfl, seenCell] using h k hk i hi

/-! ### Command lists -/

/-- A page for the hub with every permission and tier. -/
def hubPage : TlbEntry := { site := 256, pasid := 0, base := 0, bits := 18, pa := 0, pte := 0xBE000000000001F0, pteAddr := 0 }
/-- The cells of doublewords from an address. -/
def cells (a : Nat) (ds : List Dword) : List Host.Cell := ((ds.map fun d => bytesOf 8 d.toNat).flatten.zipIdx).map fun x => (a + x.2, x.1)
/-- A record at an entry at 0x1000 of the physical function's queue 0; more memory from 0x2000. -/
def runOf (waiting : Bool) (e : List Dword) (stack : List Dword) : Run :=
  { id := 1, tag := 7, status := 0x3000, pc := 0x1000, waiting := waiting, entry := if waiting then e else [], stack := stack }
def hubState (r : Run) (e more : List Dword) : State :=
  { State.reset with ready := 0xFFFFF, power := .on, tlb := [hubPage], mem := cells 0x1000 e ++ cells 0x2000 more
                     xreg := [(0x400, 1), (0x1E00, 1)], queues := [(0, { cur := some r })] }

/-- What the dispatcher has read, and the state then. -/
def entryOf (s : State) : Option (List Dword × State) :=
  match hubReadDwords s 0 0 0x1000 4 with
  | some (e, s0) => some (e, { s0 with ring := tblSet 0 s0.ring (fieldOf (sqcfg s 0 0) 43 38) 1 })
  | none => none
def afterRead (s : State) : State := ((entryOf s).map Prod.snd).getD s
def reads (s : State) (r : Run) (e : List Dword) : Bool :=
  (getQueue s 0 0).cur == some r && !r.waiting && r.regionWait.isNone && queueLive s 0 0 && !hubWaits s 0 0 r.pc .read
    && ringTurn s 0 0 && (entryOf s).map Prod.fst == some e && r.pc == 0x1000

theorem entryRead_of {s : State} {r : Run} {e : List Dword} (h : reads s r e = true) : EntryRead s 0 0 r e (afterRead s) := by
  simp only [reads, Bool.and_eq_true, beq_iff_eq, Bool.not_eq_true', Option.isNone_iff_eq_none] at h
  obtain ⟨⟨⟨⟨⟨⟨⟨h1, h2⟩, h3⟩, h4⟩, h5⟩, h6⟩, h7⟩, h8⟩ := h
  refine ⟨h1, h2, h3, h4, h5, h6, ?_⟩
  rw [h8]
  unfold entryOf at h7
  unfold afterRead entryOf
  cases hr : hubReadDwords s 0 0 0x1000 4 with
  | none => rw [hr] at h7; simp at h7
  | some x => rw [hr] at h7; simp at h7; exact ⟨x.2, by rw [← h7], rfl⟩

/-- The record is at an entry of a type without DEP. -/
def atType (s : State) (r : Run) (e : List Dword) (type : Nat) : Bool :=
  reads s r e && decide (type < 12) && fieldOf (dwAt e 0) 63 60 == type && fieldOf (dwAt e 0) 59 58 == 0
theorem atEntry_of {s : State} {r : Run} {e : List Dword} {type : Nat} (h : atType s r e type = true) : AtEntry s 0 0 r e type (afterRead s) := by
  simp only [atType, Bool.and_eq_true, decide_eq_true_eq, beq_iff_eq] at h
  exact ⟨h.1.1.2, h.1.2, .inl h.2, afterRead s, entryRead_of h.1.1.1, (if_pos h.2).symm⟩

/-- A dispatcher sees a value at an address. -/
def sees (s : State) (va : Dword) (n v : Nat) : Bool :=
  !hubWaits s 0 0 va .read && match hubRead s 0 0 va n with
    | some (bytes, _) => v == valueOf n fun k => (bytes[k]?).getD 0
    | none => false
theorem hubSees_of {s : State} {va : Dword} {n v : Nat} (h : sees s va n v = true) : ∃ s', HubSees s 0 0 va n v s' := by
  simp only [sees, Bool.and_eq_true, Bool.not_eq_true'] at h
  cases hr : hubRead s 0 0 va n with
  | none => rw [hr] at h; simp at h
  | some x => rw [hr] at h; simp at h; exact ⟨x.2, h.1, x.1, hr, h.2⟩

/-- A valid record and one of another version, at a queue that is on with its one place left, and at one that is full. -/
def queueState (n : Nat) (d0 : Dword) : State :=
  { hubState (runOf false [] []) [] [] with queues := [(0, { pending := List.replicate n ([d0, 0x1000, 0x3000] ++ List.replicate 13 0) })] }
theorem witness_RecordsAreTaken : mustRetry (queueState 15 0x0100000000000007) 0 0 = false ∧ mustRetry (queueState 16 0x0100000000000007) 0 0 = true
    ∧ queueLive (queueState 15 0x0100000000000007) 0 0 = true ∧ (getQueue (queueState 1 0x0100000000000007) 0 0).cur = none
    ∧ (getQueue (queueState 1 0x0100000000000007) 0 0).pending = [[0x0100000000000007, 0x1000, 0x3000] ++ List.replicate 13 0]
    ∧ fieldOf 0x0100000000000007 63 56 = 1 ∧ fieldOf 0x0100000000000007 55 32 = 0 ∧ fieldOf 7 63 56 ≠ 1
    ∧ (queueState 15 0).ready.getLsbD 18 = true := by decide +kernel

def jump (type : Nat) : List Dword := [BitVec.ofNat 64 (type * 2 ^ 60), 0x1020, 0, 0]
/-- A jump; a call with one place left and none; a return from one, and from none. -/
theorem witness_ListControlGoes :
    AtEntry (hubState (runOf false [] []) (jump 5) []) 0 0 (runOf false [] []) (jump 5) 5 (afterRead (hubState (runOf false [] []) (jump 5) []))
    ∧ (∀ n ∈ [7, 8], atType (hubState (runOf false [] (List.replicate n 0x1020)) (jump 6) []) (runOf false [] (List.replicate n 0x1020)) (jump 6) 6 = true)
    ∧ (∀ n ∈ [0, 1], atType (hubState (runOf false [] (List.replicate n 0x1020)) [0x7000000000000000, 0, 0, 0] []) (runOf false [] (List.replicate n 0x1020))
        [0x7000000000000000, 0, 0, 0] 7 = true)
    ∧ Unused (jump 5) 0 [2, 3] ∧ (dwAt (jump 6) 1).toNat % 32 = 0 :=
  ⟨atEntry_of (by decide +kernel), by decide +kernel, by decide +kernel, by unfold Unused; decide +kernel, by decide +kernel⟩

/-- A value entry on 0x2000 with W or without: TYPE, bit 53, CMP equal, N in bits [47:32]. -/
def valueEntry (type : Nat) (w : Bool) (n : Nat) (v : Dword) : List Dword :=
  [BitVec.ofNat 64 (type * 2 ^ 60 + (if w then 2 ^ 53 else 0) + n * 2 ^ 32), 0x2000, v, if type = 3 then 0 else 0xFFFFFFFF]
/-- The entry, the location that it reads, and whether CMP holds of it. -/
def valueMeets (type : Nat) (w : Bool) (n : Nat) (v : Dword) (holds : Bool) : Bool :=
  let e := valueEntry type w n v
  let s := hubState (runOf false [] []) e [5]
  atType s (runOf false [] []) e type && sees (afterRead s) 0x2000 (widthOf e) 5 && (dwAt e 0 &&& 0x03FFFFFFFFFFFFFF &&& ~~~0x00E0FFFF00000000 == 0)
    && fieldOf (dwAt e 0) 55 54 == 0 && decide (5 &&& (dwAt e 3).toNat = (dwAt e 2).toNat &&& (dwAt e 3).toNat) == holds
theorem compares_equal {e : List Dword} {v : Nat} (h : fieldOf (dwAt e 0) 55 54 = 0) :
    Compares e v ↔ v &&& (dwAt e 3).toNat = (dwAt e 2).toNat &&& (dwAt e 3).toNat := by
  unfold Compares; rw [h]; exact Iff.rfl
theorem witness_ListValuesAct : (∀ w ∈ [true, false], valueMeets 2 w 0 5 true = true ∧ valueMeets 2 w 0 6 false = true ∧ valueMeets 4 w 1 5 true = true
      ∧ valueMeets 4 w 65535 6 false = true)
    ∧ (let e := valueEntry 2 true 0 5
       let s := hubState (runOf true e []) e [5]
       (getQueue s 0 0).cur = some (runOf true e []) ∧ queueLive s 0 0 = true ∧ ringTurn s 0 0 = true ∧ sees s 0x2000 8 5 = true)
    ∧ (let e := valueEntry 3 true 0 5
       let s := hubState (runOf false [] []) e []
       atType s (runOf false [] []) e 3 = true ∧ hubWaits (afterRead s) 0 0 0x2000 .both = false
         ∧ (hubSpot (afterRead s) 0 0 0x2000 8 .both).isSome = true ∧ hubWaits (afterRead s) 0 0 0x2000 .write = false ∧ sees (afterRead s) 0x2000 8 0 = true
         ∧ (hubWrite (afterRead s) 0 0 0x2000 (littleEndian 8 5)).isSome = true) := by decide +kernel

/-- A launch of one group of 8 lanes with its largest limits, and one of a width code that has too few rows. -/
def launchDesc (rows : Nat) : List Dword := [0x4000, 0, 0, BitVec.ofNat 64 (7 * 4 + rows * 2 ^ 9), 1] ++ List.replicate 11 0
def copyDesc : List Dword := [0x0103300000000004, 0x2000, 0x2100, 0, 1, 0, 0, 0]
def startEntry (type : Nat) : List Dword := [BitVec.ofNat 64 (type * 2 ^ 60), 0x2000, 0, 0]
def descRead (type n : Nat) (d : List Dword) : Bool :=
  let s := hubState (runOf false [] []) (startEntry type) d
  atType s (runOf false [] []) (startEntry type) type && !hubWaits (afterRead s) 0 0 0x2000 .read
    && (hubReadDwords (afterRead s) 0 0 0x2000 n).map Prod.fst == some d
theorem witness_ListStartsWork : descRead 0 16 (launchDesc 1024) = true ∧ DescriptorFits (launchDesc 1024) ∧ descRead 0 16 (launchDesc 1032) = true
    ∧ ¬ DescriptorFits (launchDesc 1032) ∧ descRead 1 8 copyDesc = true ∧ hubRecordOk copyDesc = true
    ∧ (∀ type ∈ [8, 10], let e : List Dword := [BitVec.ofNat 64 (type * 2 ^ 60 + 31 * 2 ^ 32), 0, 0, 0]
        atType (hubState (runOf false [] []) e []) (runOf false [] []) e type = true ∧ (commandOf 0 0 type).isSome = true)
    ∧ (let e : List Dword := [BitVec.ofNat 64 (9 * 2 ^ 60), BitVec.ofNat 64 (1 * 2 ^ 32 + 255), 0, 0]
       let s := { hubState (runOf false [] []) e [] with xreg := [(0x400, 1), (0x1180, 1), (0x1E00, 1)] }
       atType s (runOf false [] []) e 9 = true ∧ Unused e 0x0000003F00000000 [2, 3] ∧ (regionCommand (afterRead s) 0 0 9 e).first = 255
         ∧ (regionCommand (afterRead s) 0 0 9 e).count = 1 ∧ fieldOf (pshare (afterRead s) 0) 15 0 = 1)
    ∧ ∀ mode ∈ [0, 1], let e : List Dword := [BitVec.ofNat 64 (11 * 2 ^ 60 + mode * 2 ^ 54), 0x2000, 9, 95]
      let s := hubState (runOf false [] []) e []
      atType s (runOf false [] []) e 11 = true ∧ hubWaits (afterRead s) 0 0 0x2000 .write = false
        ∧ ((hubSpot (afterRead s) 0 0 0x2000 8 .write).map fun h => decide (h.pa < 2 ^ 60)) = some true := by
  refine ⟨by decide +kernel, ?_, by decide +kernel, ?_, by unfold Unused; decide +kernel⟩
  · refine ⟨by decide, by decide, by decide, by decide, by decide, by decide, by decide, by decide, by decide, by decide, by decide, by decide, ?_⟩
    intro k hk
    rcases Nat.lt_or_ge k 16 with h | h
    · interval_cases k <;> rfl
    · have hn : (launchDesc 1024)[k]? = none := List.getElem?_eq_none h
      rw [dwAt, hn]; rfl
  · intro h
    exact absurd h.2.2.2.2.2.2.2.2.2.1 (by decide)

/-- A type that is none, DEP 3, a misaligned address, an entry on a page that no cache or table has, and a return that ends its record. -/
theorem witness_RecordsEnd : (∀ d ∈ [12, 15], reads (hubState (runOf false [] []) (startEntry d) []) (runOf false [] []) (startEntry d) = true)
    ∧ reads (hubState (runOf false [] []) [0x0C00000000000000, 0, 0, 0] []) (runOf false [] []) [0x0C00000000000000, 0, 0, 0] = true
    ∧ atType (hubState (runOf false [] []) [0x5000000000000000, 0x1010, 0, 0] []) (runOf false [] []) [0x5000000000000000, 0x1010, 0, 0] 5 = true
    ∧ (let s := { hubState (runOf false [] []) [] [] with tlb := [] }
       (getQueue s 0 0).cur = some (runOf false [] []) ∧ queueLive s 0 0 = true ∧ hubWaits s 0 0 0x1000 .read = false ∧ ringTurn s 0 0 = true
         ∧ hubReadDwords s 0 0 0x1000 4 = none)
    ∧ (let e : List Dword := [0x7000000000000000, 0, 0, 0]
       let s := hubState (runOf false [] []) e []
       atType s (runOf false [] []) e 7 = true ∧ (∀ k ∈ s.queues, k.2.ending = []) ∧ s.ats = [] ∧ hubWaits (afterRead s) 0 0 0x3000 .write = false
         ∧ (hubWrite (afterRead s) 0 0 0x3000 (littleEndian 8 (2 ^ 63 + 7))).isSome = true) := by decide +kernel

/-! ### Regions and admission -/

def regionCmd (kind : Nat) : RegionCmd :=
  { id := 7, ctx := 0, queue := 0, part := 0, kind := kind, region := 31, die := 0, first := 4095, count := 1, manifest := 0x2000, pasid := 0 }
def regionRun : Run := { runOf false [] [] with regionWait := some 7 }
/-- A manifest of one chunk whose digest is 48 bytes of 0, and a region whose hash record has it. -/
def manifest : List Dword := [0x0000000100000001, 65536, 0x0000000100000010, 0] ++ List.replicate 20 0
def heldRegion (isSealed : Bool) : Region :=
  { die := 0, first := 4095, count := 1, isSealed := isSealed, frames := if isSealed then [5] else []
    hashes := [{ chunk := 0, offset := 0, count := 65536, digest := List.replicate 48 0 }] }
def regionState (kind : Nat) (held : Option Region) : State :=
  { hubState regionRun [] manifest with regionCmds := [regionCmd kind], regionsOf := (held.map fun x => (31, x)).toList, pubKeys := [(0, [4])] }
def regionMeets (kind : Nat) (held : Option Region) : Bool :=
  let s := regionState kind held
  (s.regionCmds.find? fun x => x.id == 7) == some (regionCmd kind) && (getQueue s 0 0).cur == some regionRun && regionFree s (regionCmd kind)
    && tblFind s.regionsOf 31 == held
/-- A free run; a sealed, an open and no region for each of the other commands; an image without a key. -/
theorem witness_RegionCommandsAct : (∀ k ∈ [8, 9, 10], regionMeets k none = true ∧ regionMeets k (some (heldRegion true)) = true
      ∧ regionMeets k (some (heldRegion false)) = true)
    ∧ verifyImage { regionState 8 (some (heldRegion false)) with pubKeys := [] } (regionCmd 8) (heldRegion false) = .error (.step none)
    ∧ verifyImage (regionEvent (setX (regionState 8 (some (heldRegion false))) 0 0x2000 2) (regionCmd 8)) (regionCmd 8) (heldRegion false)
        = .error (.wait 0x2000) := by decide +kernel
/-- An image that verifies, when its signature does: the check of signatures is the model's free function (log 14). -/
def sealState : State := regionEvent (regionState 8 (some (heldRegion false))) (regionCmd 8)
theorem verifies_of (s : State) (h : ∀ k d x, Config.ecdsaVerify k d x = true)
    (hm : ((readManifest s 0 0 0x2000).toOption.map fun x => ((x.1.n, x.1.m, x.1.cl), x.1.key, x.1.imgLen)) = some ((1, 1, 16), 0, 65536))
    (hk : ((readManifest s 0 0 0x2000).toOption.map fun x => (chunksHashed x.1 (heldRegion false), tblFind x.2.pubKeys 0))
      = some (true, some [4])) : ∃ frames s2, verifyImage s (regionCmd 8) (heldRegion false) = .ok (frames, s2) := by
  unfold verifyImage
  simp only [show (regionCmd 8).ctx = 0 from rfl, show (regionCmd 8).queue = 0 from rfl, show (regionCmd 8).manifest = 0x2000 from rfl]
  cases hr : readManifest s 0 0 0x2000 with
  | error e => rw [hr] at hm; simp [Except.toOption] at hm
  | ok x =>
    rw [hr] at hm hk
    simp only [Except.toOption, Option.map_some, Option.some.injEq, Prod.mk.injEq] at hm hk
    obtain ⟨⟨h1, h2, h3⟩, h4, h5⟩ := hm
    have hs : manifestSound x.2 x.1 ((heldRegion false).count * 2 ^ 19) = true := by
      simp only [manifestSound, h4, hk.2, h, h2, h3, h5, h1]; decide
    simp only [hs, hk.1, Bool.and_self, if_true, h1, h2]
    exact ⟨_, _, rfl⟩
theorem witness_RegionCommandsAct_seal (h : ∀ k d x, Config.ecdsaVerify k d x = true) :
    ∃ frames s2, verifyImage sealState (regionCmd 8) (heldRegion false) = .ok (frames, s2) :=
  verifies_of sealState h (by decide +kernel) (by decide +kernel)

/-- A launch of one group whose partition has one slot, 8 lanes' rows, one landing slot and 16 scratchpad rows of every core. -/
def smallLaunch : Launch := { loadLaunch with width := 8, live := 8, regs := 8, ready := false, nextPos := 0, lslots := 0, scratch := 0 }
def quotaState (l : Launch) : State :=
  { State.reset with ready := 0xFFFFF, power := .on, launches := [l], contexts := [(0, { resident := true })]
                     xreg := [(0x1100, BitVec.ofNat 64 (2 ^ 50 + 2 ^ 35 + 2 ^ 30 + 2 ^ 14)), (0x1180, 0x0FFFFFFFFFFFFFFF), (0x1E00, 1)] }
def placed (l : Launch) : Option (List Nat × State) := placePosition (quotaState l) 0 [0, 1] (positionGroups l 0)
theorem witness_PositionsArePlacedWhole : (placed smallLaunch).isSome = true
    ∧ fieldOf (pquota (quotaState smallLaunch) 0) 58 55 + fieldOf (pquota (quotaState smallLaunch) 0) 54 50 ≤ 16 := by decide +kernel

def admitted : Launch := { smallLaunch with ready := true, waitSince := some 0 }
/-- A launch of more rows than a partition's quota gives. -/
def wideLaunch : Launch := { smallLaunch with regs := 1024 }
/-- A launch whose position has waited for 1 ms, and one that has made no progress for 10 ms. -/
theorem witness_AdmissionSteps : (findLaunch (quotaState smallLaunch) 1 = some smallLaunch ∧ smallLaunch.regions = 0
      ∧ mustRefuse (quotaState smallLaunch) smallLaunch = false ∧ mustRefuse (quotaState wideLaunch) wideLaunch = true)
    ∧ (inAdmission (quotaState admitted) admitted = true ∧ heldBack (quotaState admitted) admitted = false ∧ admitted.nextPos < admitted.positions
      ∧ (placePosition (quotaState admitted) 0 (launchDies (quotaState admitted) admitted) (positionGroups admitted 0)).isSome = true
      ∧ (placeMany (quotaState { admitted with fullres := true }) { admitted with fullres := true } (List.range 1)).isSome = true
      ∧ inAdmission (quotaState { admitted with fullres := true }) { admitted with fullres := true } = true)
    ∧ (let l := { admitted with regs := 1024 }
       let s := { quotaState l with clock := 1250000 }
       inAdmission s l = true ∧ (admitNext s l).isNone = true ∧ l.waitSince = some 0)
    ∧ (let s := { quotaState admitted with clock := 12500000 }
       admitted.killed = false ∧ admitted.lastProgress + 1250 * 10000 ≤ s.clock) := by decide +kernel

/-! ### Replay, invalidation, migration, contexts, registers -/

def replayState (e : Replay) : State := { kioskState demo with replay := [(95, e)] }
def replayOf' (who : ReplayWho) (cause : Nat) : Replay := { order := 1, va := 0x2000, pasid := 0, cause := cause, req := 0, size := 2, who := who }
def heldAccess : Access := { acc .load 0 4 with pa := none, addr := 0x2000, sz := 2, nregs := 1, held := true }
theorem witness_ReplayEntriesEnd : (∀ w ∈ [.access 5, .copy 3, .fetch 0 [31]], let s := replayState (replayOf' w 1)
      tblFind s.replay (96 * 0 + 95) = some (replayOf' w 1) ∧ (getKiosk s 0).started = true)
    ∧ (let s := { replayState (replayOf' (.access 5) 1) with accesses := [heldAccess], tlb := [codePage] }
       findAccess s 5 = some heldAccess ∧ heldAccess.held = true ∧ heldAccess.pa = none
         ∧ ((translate s 0 0 0x2000 (needOf .load)).1 matches .ok 0x2000 ..) = true)
    ∧ findCopy { replayState (replayOf' (.copy 3) 2) with copies := [{ copyOf true 1 0 with held := true }] } 3
        = some { copyOf true 1 0 with held := true } := by decide +kernel

/-- GO by PASID and address, by partition, and while an access has gone through the translation. -/
theorem witness_TranslationsInvalidated : (let s := withGroup demo
      s.ready.getLsbD 0 = true ∧ ctxExists (setX s 0 0x1E00 1) 0 = true ∧ tblFind s.tlbInv 0 = none ∧ (1 : Dword).getLsbD 0 = true)
    ∧ (let s := { withAccess demo (acc .load 0 4) with tlbInv := [(0, { accesses := [5], copies := [] })] }
       tblFind s.tlbInv 0 = some { accesses := [5], copies := [] } ∧ ∃ a ∈ s.accesses, a.id = 5 ∧ a.held = false)
    ∧ tblFind { State.reset with tlbInv := [(0, { accesses := [5], copies := [] })] }.tlbInv 0 = some { accesses := [5], copies := [] } := by
  refine ⟨by decide +kernel, ⟨by decide +kernel, acc .load 0 4, by decide +kernel, rfl, rfl⟩, by decide +kernel⟩

def atsAsk (pri : Bool) : AtsRequest := { site := 0, pasid := 0, va := 0x2000, rd := true, wr := false, ex := false, who := .fetch, pri := pri }
theorem witness_HostTranslationsAnswer : ∀ pri ∈ [false, true], let s := { State.reset with ats := [atsAsk pri] }
    s.ats = [atsAsk pri] ∧ (atsAsk pri).va = (0x2FFF : Dword).toNat / 4096 * 4096 ∧ (atsAsk pri).failed = false ∧ (atsAsk pri).pri = pri
      ∧ (∀ k ∈ s.queues, k.2.ending = []) ∧ (atsAsk pri).who ≠ .access := by decide +kernel

/-- A key table at 0x8000 whose entry 0 names one block at 0x9000, in a page that the core sees. -/
def streetState : State :=
  { withGroup demo with tlb := [codePage], mem := cells 0x8000 [0x8000000000000001, 0x9000, 4, 0] ++ cells 0x9000 [0x1000], xreg := [(0x118, 0x8000), (0x1E00, 1)] }
def streetRead (s : State) : Option (List Dword × List Dword) :=
  match loadDwords s 0 0 0 (ctxPasid s 0) (BitVec.ofNat 64 (fieldOf (getX s 0 0x118) 56 12 * 4096 + 32 * 0)) 4 with
  | (.ok e, s1) =>
    match loadDwords s1 0 0 0 (ctxPasid s 0) (dwAt e 1) (fieldOf (dwAt e 0) 19 0) with
    | (.ok bs, _) => some (e, bs)
    | _ => none
  | _ => none
theorem witness_StreetDirectoryChanges : streetRead streetState = some ([0x8000000000000001, 0x9000, 4, 0], [0x1000])
    ∧ findSeq streetState 0 0 0 = none ∧ 0 < 2 ^ Nat.min (fieldOf (getX streetState 0 0x118) 4 0) 24
    ∧ ctxExists streetState 0 = true ∧ tblFind streetState.sdInv 0 = none
    ∧ tblFind { streetState with sdInv := [(0, { accesses := [], copies := [] })] }.sdInv 0 = some { accesses := [], copies := [] } := by decide +kernel

/-- Page tables that map virtual page 0 to frame 2 of tier 0, preferring tier 1; the free ring of tier 1 with an entry, or none. -/
def leafOne : Nat := 2 ^ 63 + 2 ^ 60 + 2 ^ 59 + 2 ^ 58 + 2 ^ 57 + 2 * 2 ^ 18 + 0x1F0
def migMem (n : Dword) : List Host.Cell :=
  cells 0x10000 [BitVec.ofNat 64 pasidWord] ++ cells 0x20000 [BitVec.ofNat 64 (tableWord 0x30000)] ++ cells 0x30000 [BitVec.ofNat 64 (tableWord 0x40000)]
    ++ cells 0x40000 [BitVec.ofNat 64 leafOne] ++ cells (0x50000 + 64 * 2) [0x60000, 1, 0, n] ++ cells 0x60000 [0x10000000000]
def migState (n : Dword) : State :=
  { State.reset with ready := 0xFFFFF, mem := migMem n, xreg := [(0x138, 0x50001), (0x1000, 0x10000), (0x1E00, 1), (0x2800, 3)] }
def migReq : MigRequest := { id := 2, ctx := 0, pasid := 0, va := 0, target := 1, needBy := some 9, place := true, die := 0, core := 0, guest := 0 }
theorem witness_MigrationQueues :
    (let s := { migState 0 with counters := [(0, { count := 3 })] }
     fieldOf (getX s 0 0x2800) 15 0 ≤ (tblGet ({} : Counter) s.counters 0).count ∧ fieldOf (getX s 0 0x2800) 15 0 ≠ 0
       ∧ ((pageOf s 0 0).map fun p => ((fieldOf p.leaf 61 60, tierOf s p.frame), pagePinned s p, pageCooling s 0 0 p)) = some ((1, 0), false, false)
       ∧ (getX s 0 0x138).getLsbD 0 = true)
    ∧ (tblGet ({} : Counter) { migState 0 with counters := [(0, { count := 2 })] }.counters 0).count < fieldOf (getX (migState 0) 0 0x2800) 15 0
    ∧ (∀ n ∈ [0, 1], let s := { migState (BitVec.ofNat 64 n) with migQueue := [migReq] }
       nextRequest s = some migReq ∧ ((pageOf s 0 0).map fun p => (tierOf s p.frame, p.leaf.getLsbD 53, p.bits)) = some (0, false, 18)
         ∧ ((readRing { s with migQueue := [] } 0 (0x50000 + 32 * 4)).1.map fun x => (x.mine, x.theirs)) = some (0, n)
         ∧ (engineRead (readRing { s with migQueue := [] } 0 (0x50000 + 32 * 4)).2 0 0x60000).1 = some 0x10000000000)
    ∧ (({ migState 0 with migQueue := [migReq], clock := 10 }.migQueue.find? fun x => x.id == 2) = some migReq) := by decide +kernel

def moveAt (phase : MovePhase) : Move :=
  { id := 2, ctx := 0, pasid := 0, va := 0, bits := 18, src := 2 * 2 ^ 18, dst := 0x10000000000, dstSlot := 2, cls := 0
    ptes := [(0x40000, BitVec.ofNat 64 leafOne)], needBy := none, guest := 0, phase := phase }
def moveState (phase : MovePhase) : State := { migState 0 with moves := [moveAt phase] }
/-- The returned ring of tier 0 of die 0, whose descriptor is of zeros: a ring of one entry at 0. -/
theorem witness_MovesSwitch : ((moveState .copying).moves.find? fun x => x.id == 2) = some (moveAt .copying)
    ∧ ((moveState .final).moves.find? fun x => x.id == 2 && x.phase == .final) = some (moveAt .final)
    ∧ (engineRead (moveState .final) 0 0x40000).1 = some leafOne ∧ keyBusy (moveState .final) (ctxKey (moveState .final) 0) = false
    ∧ (∀ k < 8, moveOf (moveState .final) (0x40000 + k) = none) ∧ (moveAt .final).dst % 2 ^ 18 = 0 ∧ (moveAt .final).dst < 2 ^ 52
    ∧ (engineRead { moveState .final with mem := [] } 0 0x40000).1 ≠ some leafOne
    ∧ ((moveState .switching).moves.find? fun x => x.id == 2 && x.phase == .switching) = some (moveAt .switching)
    ∧ (giveFrame (moveState .switching) 0 (ringAt (moveState .switching) 0 0 (tierSlot (moveState .switching) (2 * 2 ^ 18)) 1) (2 * 2 ^ 18)).isSome = true := by
  decide +kernel

/-- The enabled window of a decoder of port 0, whose first page of 256 KiB a leaf with SH set maps; and no handover, or one of its port. -/
def sharedLeaf : Nat := 0x1000000000000 + 2 ^ 63 + 2 ^ 61 + 2 ^ 59 + 2 ^ 53 + 0x1F0
def poolState : State := { State.reset with
  xreg := [(0x1000, 0x10000), (0x3400, 0x1000000000001), (0x3408, 0x10000000)], ready := 0xFFFFF
  mem := cells 0x10000 [BitVec.ofNat 64 pasidWord] ++ cells 0x20000 [BitVec.ofNat 64 (tableWord 0x30000)] ++ cells 0x30000 [BitVec.ofNat 64 (tableWord 0x40000)]
    ++ cells 0x40000 [BitVec.ofNat 64 sharedLeaf] }
theorem witness_PagesAreHandedOver : placeOf poolState 0x1000000000000 = .tier2 0
    ∧ ((sharedPages poolState 0x100000003FF80).map fun q => (q.frame, q.bits)) = [(0x1000000000000, 18)]
    ∧ (∃ h ∈ { poolState with handovers := [{ pa := 0x1000000000000, bits := 18, port := 0 }] }.handovers,
        h.pa ≤ 0x100000003FF80 ∧ 0x100000003FF80 < h.pa + 2 ^ h.bits) :=
  ⟨by decide +kernel, by decide +kernel, { pa := 0x1000000000000, bits := 18, port := 0 }, by decide, by decide⟩

/-- The physical function resident, function 1 with work, one partition. -/
def twoContexts (since clock : Nat) : State :=
  { withGroup demo with xreg := [(0x1200, 1), (0x1E00, 1)], contexts := [(0, { resident := true, since := since })]
                        launches := [{ smallLaunch with uid := 9, ctx := 1 }], clock := clock }
def ladder : Ladder := { id := 4, ctx := 0, why := .owner, set := [(1, 0)], t0 := 0, forced := true }
theorem witness_LaddersRun : (∀ c ∈ [2499999, 2500000], residentOf (twoContexts 0 c) 0 = some 0 ∧ othersWork (twoContexts 0 c) 0 0 = true
      ∧ hasWork (twoContexts 0 c) 0 = false)
    ∧ ctxExists (twoContexts 0 0) 0 = true ∧ (getCtx (twoContexts 0 0) 0).resident = true
    ∧ (({ twoContexts 0 12500000 with ladders := [ladder] }.ladders.find? fun y => y.id == 4) = some ladder)
    ∧ (let s := { twoContexts 0 0 with contexts := [], groups := [] }
       residentOf s 0 = none ∧ longestWaiting s 0 = some 1 ∧ (getCtx s 1).saved = [] ∧ (getCtx s 1).opsSaved = false ∧ keyBusy s (ctxKey s 1) = false) := by decide +kernel

/-- A save area at 16 MiB. -/
def saveState : State := { withGroup { demo with width := 8, rows := 8, scratch := 0, lslots := 0 } with
  xreg := [(0x1E00, 1), (0x1E08, 0x1000001)], contexts := [(0, { resident := true })], ladders := [ladder] }
def saveGroup : Group := { demo with width := 8, rows := 8, scratch := 0, lslots := 0 }
theorem witness_GroupsAreSaved : saveState.ladders = [ladder] ∧ ladder.why ≠ .disable ∧ saveState.moves = [] ∧ saveReady saveState ladder 0 saveGroup = true ∧ tblSorted saveState.groups = true
    ∧ (∀ e ∈ saveState.opTab, e.1 / 16 % 129 ≠ 0) ∧ (savePosition (markSaved saveState 0 saveGroup) 0 1 0 false).isSome = true := by decide +kernel

/-- A group of 8 lanes that moves to core 1. -/
def movingGroup : Group := { demo with width := 8, rows := 8, scratch := 0, lslots := 0, moving := true, fibres := List.replicate 8 { slot := .live } }
def moveTo : Relocation := { gid := 0, seatGid := 64, seat := movingGroup, target := 1, lanes := [0, 7], dst := 5 }
def relocState : State := { quotaState smallLaunch with groups := [(0, movingGroup)], relocations := [moveTo], launches := [{ smallLaunch with nextPos := 1 }] }
theorem witness_GroupsAreRelocated : moveReady relocState 0 movingGroup = true ∧ relocState.relocations = [moveTo] ∧ movingGroup.width ≤ 64
    ∧ movingGroup.fibres.length = movingGroup.width ∧ (∀ l ∈ moveTo.lanes, l < movingGroup.width ∧ (movingGroup.fibre l).wb + moveTo.dst.toNat < movingGroup.rows)
 := by
  decide +kernel

/-! ### Registers -/

def hubReady : State := { State.reset with ready := 0xFFFFF, power := .on }
/-- A share of one group slot, and one past the last slot; avenue 15, and one that partition 1 has. -/
theorem witness_ShareRegisters : QuotaFits hubReady 0 (BitVec.ofNat 64 (15 * 2 ^ 55 + 2 ^ 50)) ∧ ¬ QuotaFits hubReady 0 (BitVec.ofNat 64 (15 * 2 ^ 55 + 2 * 2 ^ 50))
    ∧ ShareFits hubReady 0 0x8000 ∧ ¬ ShareFits (setX hubReady 0 0x1188 0x8000) 0 0x8000 ∧ Reaches (setX hubReady 0 0x1E00 1) 0 true := by
  refine ⟨⟨by decide, fun i hi _ n hn k hk => ?_, by decide +kernel⟩, fun h => absurd (h.1 (15, 2, 16) (by decide)) (by decide), ⟨?_, by decide +kernel⟩, fun h => ?_
    , by unfold Reaches; decide +kernel⟩
  · have : ∀ i < 16, ∀ n < 4, ((quotaRuns (getX hubReady 0 (0x1100 + 8 * i))).getD n (0, 0, 0)).2.1 = 0 := by decide +kernel
    have := this i hi n hn
    omega
  · intro i hi _ b hb h
    have : ∀ i < 16, ∀ b < 52, (getX hubReady 0 (0x1180 + 8 * i)).getLsbD b = false := by decide +kernel
    rw [this i hi b hb] at h
    exact absurd h.2 (by decide)
  · exact h.1 1 (by decide) (by decide) 15 (by decide) (by decide +kernel)

/-- The binding of function 1 off and on; a group of its context; a key slot that it names, busy or not. -/
def bound (v : Dword) : State := setX hubReady 0 0x1200 v
theorem witness_BindingRegisters : (getX (bound 0) 0 0x1200).getLsbD 0 = false ∧ (∀ x ∈ (bound 0).ladders, x.ctx ≠ 1)
    ∧ (getX (bound 1) 0 0x1200).getLsbD 0 = true ∧ fieldOf 1 23 12 ≠ fieldOf 0x1001 23 12 ∧ fieldOf 1 23 12 = fieldOf 0x100000001 23 12
    ∧ (∀ e ∈ (bound 1).groups, e.2.ctx ≠ 1) ∧ (∃ e ∈ (setGroup (bound 1) 0 { demo with ctx := 1 }).groups, e.2.ctx = 1)
    ∧ (ctxExists (bound 0x10001) 1 = true ∧ ctxKey (bound 0x10001) 1 = 1)
    ∧ (∀ h < 129, h ≠ 0 → ¬ (ctxExists hubReady h = true)) ∧ (getX hubReady 0 0x2008).getLsbD 1 = false
    ∧ (getX (setX hubReady 0 0x2008 2) 0 0x2008).getLsbD 1 = true :=
  ⟨by decide +kernel, by decide +kernel, by decide +kernel, by decide, by decide, by decide +kernel
  , ⟨(0, { demo with ctx := 1 }), by decide +kernel, rfl⟩, by decide +kernel, by decide +kernel, by decide +kernel, by decide +kernel⟩

/-- A queue that is off and on; a decoder that is off and on; a context that exists and one that does not; the hub not ready. -/
theorem witness_FunctionRegisters : (getX hubReady 1 (0x400 + 8 * 63)).getLsbD 0 = false ∧ (getX (setX hubReady 1 0x400 1) 1 0x400).getLsbD 0 = true
    ∧ fieldOf (getX (setX hubReady 1 0x400 1) 1 0x400) 63 30 ≠ fieldOf 0x40000001 63 30
    ∧ (getX hubReady 0 (0x3400 + 32 * (4 * 7 + 3))).getLsbD 0 = false ∧ (getX (setX hubReady 0 0x3400 0x10000001) 0 0x3400).getLsbD 0 = true
    ∧ fieldOf (getX (setX hubReady 0 0x3400 0x10000001) 0 0x3400) 51 28 ≠ fieldOf 0x20000000 51 28
    ∧ ctxExists (bound 1) 1 = true ∧ ctxExists hubReady 1 = false ∧ State.reset.ready.getLsbD 0 = false
    ∧ (tblGet [] State.reset.errLog 1).length < 16 := by decide +kernel

theorem witness_KioskAndKeyRegisters : kiosksRun hubReady = false ∧ hubReady.keyLoad = none ∧ (0x10F : Dword).getLsbD 8 = true
    ∧ (getX (setX hubReady 0 0x3100 4) 0 0x3100).extractLsb' 0 8 = (4 : Byte) ∧ (getX hubReady 0 0x3100).extractLsb' 0 8 ≠ (4 : Byte)
    ∧ { hubReady with keyLoad := some 15 }.keyLoad = some 15 := by decide +kernel

/-! ### Encodings, checks, steps, reset and numbers -/

theorem witness_DecodeEncodeRoundTrip : (Instr.addI32 (rr 119 127 0)).wf = true ∧ encode (.addI32 (rr 119 127 0)) = some 0x01777F00
    ∧ decode 0x01777F00 = .ok (.addI32 (rr 119 127 0)) ∧ encodeHart .nuret = some 0x0000100B ∧ decodeHart 0x0000100B = some .nuret := by decide +kernel

/-- A group of 8 rows. -/
def lowGroup : Group := { demo with rows := 8 }
theorem witness_CheckedWordsTrap : (pipeOf (.addI32 (rr 120 0 0))).isSome = true ∧ (Instr.addI32 (rr 120 0 0)).wf = false ∧ (issueOf allLanes).rep = none
    ∧ checkWord (.addI32 (rr 120 0 0)) (issueOf allLanes) demo = some (0x01, allLanes)
    ∧ (pipeOf (.bz false 8 1)).isSome = true ∧ (Instr.bz false 8 1).wf = true ∧ prefixIllegal (.bz false 8 1) (issueOf [31]) = false
    ∧ vecForm (.bz false 8 1) = none ∧ laneUses (.bz false 8 1) [31] = []
    ∧ ((issueOf [31]).participants lowGroup).filter (fun l => (wordUses (.bz false 8 1)).any fun u =>
        decide (120 < u.1 + u.2) || decide (lowGroup.rows < (lowGroup.fibre l).wb + u.1 + u.2)) = [31]
    ∧ checkWord (.bz false 7 1) (issueOf [31]) lowGroup = none := by decide +kernel

/-- addi R2, R0, 7 placed from outside (log 9), and what the turn of its quarter finds. -/
def addiWord : Nat := 0b0_0100110_0_0000010_0_0000000_00000111
def placedState : State := State.reset.withFetchWord 32 addiWord
def fetched : State := askTables (noteOwners (fetchQuarter { placedState with agenda := [] } 0) 0) 0
def placedGroup : Group := (getGroup fetched 0).getD loadGroup
def placedGang : List Gang := [{ gid := 0, lanes := allLanes }]
def switched : State := switchLatches fetched 0 placedGang
def placedIssue : Issue := { gid := 0, lanes := allLanes, start := 0, pc := 0, next := 4 }
theorem witness_StepRunsDecodedWord : placedState.agenda = [.issue 0] ∧ (getQuarter placedState 0).busyUntil ≤ placedState.clock
    ∧ (getQuarter fetched 0).hold = [] ∧ placedState.issue = none ∧ (groupsOn fetched 0).length = 1 ∧ runningLanes fetched 0 placedGroup = allLanes
    ∧ (∀ l ∈ allLanes, (placedGroup.fibre l).pc = 0 ∧ (placedGroup.fibre l).progress = 0 ∧ (placedGroup.fibre l).starvedAt = none
        ∧ (placedGroup.fibre l).packet = some (0, [BitVec.ofNat 32 addiWord, 0x76000000, 0x76000000]) ∧ laneState fetched 0 placedGroup allLanes l = .ok)
    ∧ isPrefixWord (BitVec.ofNat 32 addiWord) = false ∧ (BitVec.ofNat 32 addiWord).getLsbD 31 = false
    ∧ decode (BitVec.ofNat 32 addiWord) = .ok (.addi (ri 2 0 7)) ∧ placedGroup.singleStep = false ∧ (getX fetched placedGroup.ctx 0x158).getLsbD 0 = false
    ∧ (getGroup switched 0).map (fun g2 => checkWord (.addi (ri 2 0 7)) placedIssue g2) = some none
    ∧ (match exec (.addi (ri 2 0 7)) { passFences switched 0 allLanes { words := [(0, BitVec.ofNat 32 addiWord)] } with issue := some placedIssue } with
        | .next t => (preciseTrap switched { t with issue := none } 0).isNone
        | _ => false) = true := by decide +kernel

/-- nuret at the counter of hart 0. -/
def hartPlaced : State := State.reset.withFetchWord 32 0x0000100B
def hartFetched : Option (Word × State) := (hartWord { hartPlaced with agenda := [] } 0 (getHart hartPlaced 0)).toOption
theorem witness_StepRunsDecodedWord_hart : hartPlaced.agenda = [.hart 0] ∧ hartPlaced.ready.getLsbD 1 = true ∧ (getHart hartPlaced 0).wrs = none
    ∧ interruptOf { hartPlaced with agenda := [] } 0 (getHart hartPlaced 0) = none
    ∧ hartFetchWaits { hartPlaced with agenda := [] } 0 (getHart hartPlaced 0) = false
    ∧ hartFetched.map Prod.fst = some 0x0000100B ∧ decodeHart 0x0000100B = some .nuret
    ∧ (exec .nuret { (hartFetched.map Prod.snd).getD {} with hartIssue := some 0 } matches .next _) = true := by
  decide +kernel

theorem witness_StepKeepsMemoryCanonical : Canonical State.reset ∧ (step { State.reset with agenda := [.tick] } matches .next _) = true := by
  unfold Canonical; decide +kernel

/-- Encodings at the ends of each format's range, and codes of every target, source and function that a word may name. -/
theorem witness_ArithmeticRoundsOnce : (∀ f ∈ laneFormats, ∃ row ∈ formatRows, row.1 = f) ∧ (∀ row ∈ formatRows, row.1.maxFinite < 2 ^ (row.2.1 + row.2.2.1 + 1))
    ∧ (List.map (fun x => exactValue (fp32.decode x)) [0x80000000, 1, 0x3F800000, 0xC0400000]) = [0, 2 ^ (-149 : ℤ), 1, -3] := by decide +kernel
theorem witness_ConversionsRound : (Instr.cvt (ru 0 1) 13 9).wf = true ∧ (13 : Nat) < 14 ∧ (9 : Nat) < 10 ∧ (fp32.decode 0x7F7FFFFF).isFin = true
    ∧ (List.map (fun c => sourceInt c 0xFFFFFFF8) [6, 7, 8, 9]) = [-8, -8, -8, 0] := by decide +kernel
/-- Each branch of the table: a NaN, an infinity, a zero and a number, below zero and above. -/
theorem witness_SpecialTableAndRoots : (∀ ty < 3, let f := specialFormat ty
      (f.decode f.canon).isNan = true ∧ f.decode (infinity f true) = .inf true ∧ (f.decode (zeroOf f true)).isZero = true
        ∧ exactValue (f.decode (oneOf f false)) = 1 ∧ exactValue (f.decode (oneOf f true)) = -1) := by decide +kernel
theorem witness_SpecialBounds : ∀ ty < 3, OperandIs ty (oneOf (specialFormat ty) true) (-1) := by
  intro ty h
  refine ⟨by norm_num, by revert ty; decide +kernel, true, by revert ty; decide +kernel, ?_⟩
  have hv : ∀ ty < 3, ∃ m e, (specialFormat ty).decode (oneOf (specialFormat ty) true) = .fin true m e ∧ exactValue (.fin true m e) = -1 := by
    intro ty h
    interval_cases ty
    · exact ⟨2 ^ 23, -23, by decide +kernel, by decide +kernel⟩
    · exact ⟨2 ^ 10, -10, by decide +kernel, by decide +kernel⟩
    · exact ⟨2 ^ 7, -7, by decide +kernel, by decide +kernel⟩
  obtain ⟨m, e, h1, h2⟩ := hv ty h
  exact ⟨m, e, h1, by rw [h2]; norm_num⟩

end Sys2Proof.Tests
end

/-! PROOFS. The placement of a position (O14). -/

namespace Sys2Proof.Machine

/-! ### Placement: where the groups of a position come to stand (R38, R288) -/

theorem mem_of_tblFind {α : Type} {t : Tbl α} {k : Nat} {v : α} (h : tblFind t k = some v) : (k, v) ∈ t := by
  induction t with
  | nil => simp at h
  | cons e rest ih =>
    obtain ⟨j, u⟩ := e
    simp only [tblFind] at h
    split at h
    · next hk => simp_all
    · exact List.mem_cons_of_mem _ (ih h)

theorem mem_of_bestBy {measure : Nat → Nat} {l : List Nat} {x : Nat} (h : bestBy measure l = some x) : x ∈ l := by
  induction l generalizing x with
  | nil => simp [bestBy] at h
  | cons y ys ih =>
    simp only [bestBy] at h
    split at h
    · simp_all
    · next z hz =>
      split at h <;> cases h
      · exact List.mem_cons_of_mem _ (ih hz)
      · exact List.mem_cons_self

theorem mem_insertBy {measure : Nat → Nat} {x y : Nat} {l : List Nat} : y ∈ insertBy measure x l ↔ y = x ∨ y ∈ l := by
  induction l with
  | nil => simp [insertBy]
  | cons z zs ih =>
    rw [insertBy]
    split
    · simp
    · simp only [List.mem_cons, ih]; tauto

theorem mem_foldr_insertBy {measure : Nat → Nat} {y : Nat} {l : List Nat} : y ∈ l.foldr (insertBy measure) [] ↔ y ∈ l := by
  induction l with
  | nil => rfl
  | cons z zs ih => rw [List.foldr_cons, mem_insertBy, ih, List.mem_cons]

/-- Placement tries the core clusters of the ready dies that it is given, and no other. -/
theorem mem_clustersInOrder {s : State} {part k : Nat} {dies : List Nat} :
    k ∈ clustersInOrder s part dies ↔ k < 64 ∧ k / 32 ∈ dies ∧ s.ready.getLsbD (4 + k / 32) = true := by
  simp [clustersInOrder, mem_foldr_insertBy, readyBit]

/-- A free slot of a partition lies in the partition's run of slots, and no group stands there. -/
theorem free_of_mem_freeSlotsOf {s : State} {u : Quota} {q i : Nat} (h : i ∈ freeSlotsOf s u q) (hq : u.gsf + u.gsn ≤ 16) :
    u.gsf ≤ i ∧ i < u.gsf + u.gsn ∧ getGroup s (16 * q + i) = none := by
  simp only [freeSlotsOf, List.mem_filter, List.mem_map, List.mem_range, Bool.not_eq_true', List.any_eq_false, beq_iff_eq] at h
  obtain ⟨⟨j, hj, rfl⟩, hfree⟩ := h
  refine ⟨by omega, by omega, Option.eq_none_iff_forall_ne_some.2 fun g hg => ?_⟩
  refine hfree (16 * q + (u.gsf + j), g) ?_ rfl
  simp only [seatsOn, groupsOn, List.mem_append, List.mem_filter, beq_iff_eq]
  exact .inl ⟨mem_of_tblFind hg, by omega⟩

/-- The quarter that a group takes is one of its core's four. -/
theorem pickQuarter_core {s : State} {u : Quota} {g : Group} {core q : Nat} (h : pickQuarter s u g core = some q) : q / 4 = core := by
  have hm := mem_of_bestBy h
  have hroom : q ∈ ((List.range 4).map fun k => 4 * core + k).filter (quarterRoom s u g) := by
    split at hm
    · exact hm
    · exact (List.mem_filter.1 hm).1
  simp only [List.mem_filter, List.mem_map, List.mem_range] at hroom
  obtain ⟨⟨k, hk, rfl⟩, -⟩ := hroom
  omega

/-- A seat is a free slot of the partition in the core that it is for. -/
theorem seatFor_seat {s : State} {u : Quota} {core gid : Nat} {g h : Group} (hs : seatFor s u core g = some (gid, h))
    (hq : u.gsf + u.gsn ≤ 16) :
    coreOf gid = core ∧ u.gsf ≤ gid % 16 ∧ gid % 16 < u.gsf + u.gsn ∧ getGroup s gid = none := by
  simp only [seatFor] at hs
  split at hs
  · next q _ hpick _ =>
    split at hs
    · next slot _ _ _ hslots _ =>
      cases hs
      have hcore := pickQuarter_core hpick
      obtain ⟨hlow, hhigh, hfree⟩ := free_of_mem_freeSlotsOf (hslots ▸ List.mem_cons_self) hq
      exact ⟨by rw [coreOf]; omega, by omega, by omega, hfree⟩
    · cases hs
  · cases hs

theorem getGroup_sitDown (s : State) (gid n : Nat) (g : Group) :
    getGroup (sitDown s gid g) n = if n = gid then some g else getGroup s n :=
  getGroup_setGroup (claimRows s (coreOf gid) g.spOrigin g.scratch (tenantOf s (ctxKey s g.ctx))) gid n g

/-- From s to t groups have come to stand at gids, free slots of the quota in a core cluster, and no other group has changed. -/
structure PlacedAt (u : Quota) (cluster : Nat) (s t : State) (gids : List Nat) : Prop where
  nodup : gids.Nodup
  inCluster : ∀ n ∈ gids, n / 256 = cluster
  inSlots : ∀ n ∈ gids, u.gsf ≤ n % 16 ∧ n % 16 < u.gsf + u.gsn
  free : ∀ n ∈ gids, getGroup s n = none
  resident : ∀ n ∈ gids, (getGroup t n).isSome = true
  others : ∀ n, n ∉ gids → getGroup t n = getGroup s n

theorem PlacedAt.nil (u : Quota) (cluster : Nat) (s : State) : PlacedAt u cluster s s [] := by
  constructor <;> simp

/-- What is placed later stands beside what was placed before: its slots were still free. -/
theorem PlacedAt.append {u : Quota} {cluster : Nat} {s t v : State} {a b : List Nat} (ha : PlacedAt u cluster s t a)
    (hb : PlacedAt u cluster t v b) : PlacedAt u cluster s v (a ++ b) := by
  have apart : ∀ n ∈ a, n ∉ b := fun n hna hnb => by
    have := ha.resident n hna
    rw [hb.free n hnb] at this
    cases this
  constructor
  case nodup => exact List.nodup_append'.2 ⟨ha.nodup, hb.nodup, fun n hna hnb => apart n hna hnb⟩
  case inCluster => exact List.forall_mem_append.2 ⟨ha.inCluster, hb.inCluster⟩
  case inSlots => exact List.forall_mem_append.2 ⟨ha.inSlots, hb.inSlots⟩
  case free =>
    refine List.forall_mem_append.2 ⟨ha.free, fun n hn => ?_⟩
    rw [← ha.others n fun hna => apart n hna hn, hb.free n hn]
  case resident =>
    refine List.forall_mem_append.2 ⟨fun n hn => ?_, hb.resident⟩
    rw [hb.others n (apart n hn)]
    exact ha.resident n hn
  case others =>
    intro n hn
    rw [List.mem_append, not_or] at hn
    rw [hb.others n hn.2, ha.others n hn.1]

/-- One group takes one free slot of its core. -/
theorem placeOn_placed {s t : State} {u : Quota} {core gid : Nat} {g : Group} (h : placeOn s u core g = some (gid, t))
    (hq : u.gsf + u.gsn ≤ 16) : coreOf gid = core ∧ PlacedAt u (core / 4) s t [gid] := by
  simp only [placeOn, Option.map_eq_some_iff] at h
  obtain ⟨⟨gid', g'⟩, hseat, heq⟩ := h
  cases heq
  obtain ⟨hcore, hlow, hhigh, hfree⟩ := seatFor_seat hseat hq
  refine ⟨hcore, ?_⟩
  constructor
  case nodup => exact List.nodup_singleton _
  case inCluster => simp only [List.mem_singleton, forall_eq]; rw [coreOf] at hcore; omega
  case inSlots => simpa using ⟨hlow, hhigh⟩
  case free => simpa using hfree
  case resident => simp [getGroup_sitDown]
  case others => intro n hn; simp [getGroup_sitDown, List.mem_singleton.not.1 hn]

/-- What the placing of an instance's first group and then of the rest comes from. -/
theorem placeInstance_cons {s t : State} {u : Quota} {cluster : Nat} {used gids : List Nat} {g : Group} {rest : List Group}
    (h : placeInstance s u cluster used (g :: rest) = some (gids, t)) :
    ∃ core gid s1 more, core / 4 = cluster ∧ core ∉ used ∧ placeOn s u core g = some (gid, s1)
      ∧ placeInstance s1 u cluster (core :: used) rest = some (more, t) ∧ gids = gid :: more := by
  simp only [placeInstance] at h
  split at h
  · cases h
  · next core hbest =>
    have hcore := mem_of_bestBy hbest
    simp only [List.mem_filter, List.mem_map, List.mem_range, Bool.and_eq_true, Bool.not_eq_true',
      List.contains_eq_mem, decide_eq_false_iff_not] at hcore
    obtain ⟨⟨k, hk, rfl⟩, hused, -⟩ := hcore
    split at h
    · cases h
    · next gid s1 hon =>
      split at h
      · cases h
      · next more s2 hrest =>
        cases h
        exact ⟨_, gid, s1, more, by omega, hused, hon, hrest, rfl⟩

/-- A placed instance stands in its core cluster, its groups on distinct cores, none of them among those used before (R38). -/
theorem placeInstance_placed {s t : State} {u : Quota} {cluster : Nat} {used gids : List Nat} {inst : List Group}
    (h : placeInstance s u cluster used inst = some (gids, t)) (hq : u.gsf + u.gsn ≤ 16) :
    PlacedAt u cluster s t gids ∧ gids.length = inst.length ∧ (gids.map coreOf).Nodup ∧ ∀ n ∈ gids, coreOf n ∉ used := by
  induction inst generalizing s used gids with
  | nil => cases h; exact ⟨.nil u cluster _, by simp⟩
  | cons g rest ih =>
    obtain ⟨core, gid, s1, more, hcluster, hused, hon, hrest, rfl⟩ := placeInstance_cons h
    obtain ⟨hcore, hfirst⟩ := placeOn_placed hon hq
    obtain ⟨hmore, hlen, hcores, hnew⟩ := ih hrest
    refine ⟨(hcluster ▸ hfirst).append hmore, by simp [hlen], ?_, ?_⟩
    · rw [List.map_cons, List.nodup_cons]
      refine ⟨fun hmem => ?_, hcores⟩
      obtain ⟨n, hn, hsame⟩ := List.mem_map.1 hmem
      exact hnew n hn (by simp [hsame, hcore])
    · refine List.forall_mem_cons.2 ⟨by rwa [hcore], fun n hn hu => hnew n hn (List.mem_cons_of_mem _ hu)⟩

theorem placeIn_cons {s t : State} {u : Quota} {cluster : Nat} {gids : List Nat} {inst : List Group} {rest : List (List Group)}
    (h : placeIn s u cluster (inst :: rest) = some (gids, t)) :
    ∃ first s1 more, placeInstance s u cluster [] inst = some (first, s1) ∧ placeIn s1 u cluster rest = some (more, t)
      ∧ gids = first ++ more := by
  simp only [placeIn] at h
  split at h
  · cases h
  · next first s1 hinst =>
    split at h
    · cases h
    · next more s2 hrest => cases h; exact ⟨first, s1, more, hinst, hrest, rfl⟩

/-- A placed position stands in one core cluster, and its identities fall into those of its instances, each on distinct cores (R38). -/
theorem placeIn_placed {s t : State} {u : Quota} {cluster : Nat} {gids : List Nat} {insts : List (List Group)}
    (h : placeIn s u cluster insts = some (gids, t)) (hq : u.gsf + u.gsn ≤ 16) :
    PlacedAt u cluster s t gids ∧ ∃ parts : List (List Nat), parts.flatten = gids ∧ parts.map List.length = insts.map List.length
      ∧ ∀ p ∈ parts, (p.map coreOf).Nodup := by
  induction insts generalizing s gids with
  | nil => cases h; exact ⟨.nil u cluster _, [], by simp⟩
  | cons inst rest ih =>
    obtain ⟨first, s1, more, hinst, hrest, rfl⟩ := placeIn_cons h
    obtain ⟨hfirst, hlen, hcores, -⟩ := placeInstance_placed hinst hq
    obtain ⟨hmore, parts, hflat, hlens, hparts⟩ := ih hrest
    exact ⟨hfirst.append hmore, first :: parts, by simp [hflat], by simp [hlen, hlens], List.forall_mem_cons.2 ⟨hcores, hparts⟩⟩

/-- Settles O14: the core cluster that took the position is one that placement tries, and placing adds one instance after another. -/
theorem positionsArePlacedWhole : Obligations.PositionsArePlacedWhole := by
  intro s t part dies insts gids hplace hquota
  obtain ⟨k, hk, hin⟩ := List.exists_of_findSome?_eq_some hplace
  obtain ⟨-, hdie, hready⟩ := mem_clustersInOrder.1 hk
  obtain ⟨hplaced, parts, hflat, hlens, hcores⟩ := placeIn_placed hin hquota
  refine ⟨?_, hplaced.nodup, ⟨parts, hflat, hlens, hcores⟩, ⟨k, hdie, hready, hplaced.inCluster⟩,
    fun n hn => ⟨hplaced.free n hn, hplaced.resident n hn, hplaced.inSlots n hn⟩, hplaced.others⟩
  rw [← hflat, List.length_flatten, hlens]

end Sys2Proof.Machine

/-! PROOFS. The convergence words (O11). -/

namespace Sys2Proof.Machine
open Sys2Proof.Stmt

/-! ### A gang as a mask -/

/-- A sum of distinct powers of two has exactly the bits of its terms. -/
theorem testBit_sum_pow (h : Nat → Bool) (n : Nat) :
    ((List.range n).map fun k => if h k then 2 ^ k else 0).sum < 2 ^ n
      ∧ ∀ i, ((List.range n).map fun k => if h k then 2 ^ k else 0).sum.testBit i = (decide (i < n) && h i) := by
  induction n with
  | zero => simp
  | succ n ih =>
    obtain ⟨hlt, hbit⟩ := ih
    have hsum : ((List.range (n + 1)).map fun k => if h k then 2 ^ k else 0).sum
        = 2 ^ n * (h n).toNat + ((List.range n).map fun k => if h k then 2 ^ k else 0).sum := by
      cases hn : h n <;> simp [List.range_succ, hn, Nat.add_comm]
    have htop : 2 ^ n * (h n).toNat ≤ 2 ^ n * 1 := Nat.mul_le_mul_left _ (Bool.toNat_le _)
    rw [hsum]
    refine ⟨by omega, fun i => ?_⟩
    rw [Nat.testBit_two_pow_mul_add _ hlt, hbit, Nat.testBit_bool_toNat]
    rcases Nat.lt_trichotomy i n with hi | rfl | hi
    · simp [hi, Nat.lt_succ_of_lt hi]
    · simp
    · simp [Nat.not_lt.2 hi.le, show ¬ i < n + 1 by omega, show i - n ≠ 0 by omega]

theorem fromBits_bit (h : Nat → Bool) (i : Nat) : (fromBits h).getLsbD i = (decide (i < 64) && h i) := by
  rw [fromBits, BitVec.getLsbD_ofNat, (testBit_sum_pow h 64).2]
  simp

/-- The mask that the words form of a gang is the one that has the bits of its lanes. -/
theorem maskOf_eq_fromBits (lanes : List Nat) : maskOf lanes = fromBits fun l => decide (l ∈ lanes) :=
  BitVec.eq_of_getLsbD_eq fun i _ => by rw [fromBits_bit, maskOf_bit, List.contains_eq_mem]

/-! ### Some fibres of a group changed at once -/

/-- The group with h done to the fibres of some lanes. -/
def Group.modFibres (g : Group) (ls : List Nat) (h : Fibre → Fibre) : Group := ls.foldl (fun g i => g.modFibre i h) g

theorem Group.modFibres_only (g : Group) (ls : List Nat) (h : Fibre → Fibre) :
    g.modFibres ls h = { g with fibres := (g.modFibres ls h).fibres } := (fibres_fold ls h g).1

@[simp] theorem Group.length_modFibres (g : Group) (ls : List Nat) (h : Fibre → Fibre) :
    (g.modFibres ls h).fibres.length = g.fibres.length := (fibres_fold ls h g).2

@[simp] theorem Group.tokens_modFibres (g : Group) (ls : List Nat) (h : Fibre → Fibre) : (g.modFibres ls h).tokens = g.tokens := by
  rw [Group.modFibres_only]

@[simp] theorem Group.width_modFibres (g : Group) (ls : List Nat) (h : Fibre → Fibre) : (g.modFibres ls h).width = g.width := by
  rw [Group.modFibres_only]

theorem Group.fibre_modFibres (g : Group) (ls : List Nat) {h : Fibre → Fibre} (hh : ∀ f, h (h f) = h f) (l : Nat) :
    (g.modFibres ls h).fibre l = if l ∈ ls ∧ l < g.fibres.length then h (g.fibre l) else g.fibre l := fibre_fold ls h hh g l

/-- A fibre sent to the next chain (R149). -/
def Fibre.goOn (next : Dword) (f : Fibre) : Fibre := { f with pc := next, progress := 0 }

theorem Fibre.goOn_goOn (next : Dword) (f : Fibre) : (f.goOn next).goOn next = f.goOn next := rfl

/-- The gang's group once the gang has gone on. -/
def gangOnward (iss : Issue) (g : Group) : Group := g.modFibres iss.lanes (Fibre.goOn iss.next)

@[simp] theorem tokens_gangOnward (iss : Issue) (g : Group) : (gangOnward iss g).tokens = g.tokens := g.tokens_modFibres _ _

@[simp] theorem width_gangOnward (iss : Issue) (g : Group) : (gangOnward iss g).width = g.width := g.width_modFibres _ _

@[simp] theorem length_gangOnward (iss : Issue) (g : Group) : (gangOnward iss g).fibres.length = g.fibres.length := g.length_modFibres _ _

theorem gangOnward_only (iss : Issue) (g : Group) : gangOnward iss g = { g with fibres := (gangOnward iss g).fibres } :=
  g.modFibres_only _ _

theorem getGroup_advance {s : State} {iss : Issue} {g : Group} (hg : getGroup s iss.gid = some g) :
    getGroup (advance s iss) iss.gid = some (gangOnward iss g) := advance_group s iss g hg

theorem advanced_gangOnward (iss : Issue) (g : Group) : Advanced iss g (gangOnward iss g) :=
  g.fibre_modFibres iss.lanes (Fibre.goOn_goOn iss.next)

/-! ### The check of a token (R30, R32, R268) -/

/-- What follows the later of two events already follows the second. -/
theorem laterOf_laterOf_self (s : State) (a b : Option Nat) : laterOf s (laterOf s a b) b = laterOf s a b := by
  cases a with
  | none => cases b <;> simp [laterOf]
  | some x =>
    cases b with
    | none => rfl
    | some y =>
      by_cases hxy : (s.past.findIdx? fun e => e.id == x).getD s.past.length ≤ (s.past.findIdx? fun e => e.id == y).getD s.past.length
      · simp [laterOf, hxy]
      · simp [laterOf, hxy]

/-- A freed fibre: it is ready from the next clock. -/
def Fibre.wake (now : Nat) (f : Fibre) : Fibre := { f with readyAt := now + 1 }

theorem Fibre.wake_wake (now : Nat) (f : Fibre) : (f.wake now).wake now = f.wake now := rfl

/-- A fibre whose later accesses follow an event. -/
def Fibre.follow (s : State) (m : Option Nat) (f : Fibre) : Fibre := { f with floor := laterOf s f.floor m }

theorem Fibre.follow_follow (s : State) (m : Option Nat) (f : Fibre) : (f.follow s m).follow s m = f.follow s m := by
  simp only [Fibre.follow, laterOf_laterOf_self]

/-- The token releases its fibres: it is open, and every expected fibre is held. -/
def Token.releases (k : Token) : Bool := k.isOpen && (k.expected &&& ~~~k.held) == 0

theorem Token.releases_iff (k : Token) : k.releases = true ↔ k.isOpen = true ∧ k.expected &&& ~~~k.held = 0 := by
  simp [Token.releases]

theorem settledToken_eq (k : Token) : settledToken k = if k.releases = true then {} else k := by
  simp only [settledToken, Token.releases_iff]

/-- The lanes of a group that a token holds. -/
def Group.heldLanes (g : Group) (k : Token) : List Nat := (List.range g.width).filter fun i => k.held.getLsbD i

theorem Group.mem_heldLanes {g : Group} {k : Token} {l : Nat} : l ∈ g.heldLanes k ↔ l < g.width ∧ k.held.getLsbD l = true := by
  simp [Group.heldLanes]

/-- The group with its token t replaced. -/
def Group.setToken (g : Group) (t : Nat) (k : Token) : Group := { g with tokens := setAt g.tokens t k }

@[simp] theorem Group.fibre_setToken (g : Group) (t : Nat) (k : Token) (l : Nat) : (g.setToken t k).fibre l = g.fibre l := rfl
@[simp] theorem Group.fibres_setToken (g : Group) (t : Nat) (k : Token) : (g.setToken t k).fibres = g.fibres := rfl
@[simp] theorem Group.width_setToken (g : Group) (t : Nat) (k : Token) : (g.setToken t k).width = g.width := rfl

theorem Group.token_setToken {g : Group} {t : Nat} {old : Token} (k : Token) (hold : g.tokens[t]? = some old) :
    (g.setToken t k).tokens[t]? = some k := by
  rw [Group.setToken, setAt_get, if_pos ⟨rfl, (List.getElem?_eq_some_iff.1 hold).1⟩]

theorem Group.token_setToken_ne (g : Group) (t : Nat) (k : Token) {m : Nat} (hm : m ≠ t) :
    (g.setToken t k).tokens[m]? = g.tokens[m]? := by
  rw [Group.setToken, setAt_get, if_neg fun h => hm h.1]

/-- A token that does not release stays as it is, and so does its group. -/
theorem checkToken_stays {s : State} {gang : List Nat} {g : Group} {t : Nat} {k : Token} (hk : g.tokens[t]? = some k)
    (hr : ¬ k.releases = true) : checkToken s gang g t = g := by
  rw [Token.releases] at hr
  simp only [checkToken, hk, hr]
  rfl

/-- A token that releases closes; the held fibres wake, and they and the gang that frees them follow what its arrivals have ordered. -/
theorem checkToken_frees {s : State} {gang : List Nat} {g : Group} {t : Nat} {k : Token} (hk : g.tokens[t]? = some k)
    (hr : k.releases = true) :
    checkToken s gang g t = ((g.setToken t {}).modFibres (g.heldLanes k) (Fibre.wake s.clock)).modFibres
      (g.heldLanes k ++ gang.filter fun l => !(g.heldLanes k).contains l) (Fibre.follow s k.floor) := by
  rw [Token.releases] at hr
  simp only [checkToken, hk, hr, if_true]
  rfl

/-- A fibre after the check of token k. -/
def checkedFibre (s : State) (gang : List Nat) (width : Nat) (k : Token) (l : Nat) (f : Fibre) : Fibre :=
  if k.releases = true ∧ l < width ∧ k.held.getLsbD l = true then (f.wake s.clock).follow s k.floor
  else if l ∈ gang ∧ k.releases = true then f.follow s k.floor
  else f

theorem checkedFibre_freed {s : State} {gang : List Nat} {width l : Nat} {k : Token} (f : Fibre)
    (h : (k.isOpen = true ∧ k.expected &&& ~~~k.held = 0) ∧ l < width ∧ k.held.getLsbD l = true) :
    checkedFibre s gang width k l f = (f.wake s.clock).follow s k.floor := by
  rw [← Token.releases_iff] at h
  exact if_pos h

theorem checkedFibre_kept {s : State} {gang : List Nat} {width l : Nat} {k : Token} (f : Fibre)
    (h : ¬ ((k.isOpen = true ∧ k.expected &&& ~~~k.held = 0) ∧ l < width ∧ k.held.getLsbD l = true)) :
    checkedFibre s gang width k l f = if l ∈ gang ∧ k.releases = true then f.follow s k.floor else f := by
  rw [← Token.releases_iff] at h
  exact if_neg h

/-- The group after the check of its token t, when that is k. -/
structure Checked (s : State) (gang : List Nat) (g : Group) (t : Nat) (k : Token) (h : Group) : Prop where
  only : h = { g with fibres := h.fibres, tokens := h.tokens }
  token : h.tokens[t]? = some (settledToken k)
  tokens : ∀ m, m ≠ t → h.tokens[m]? = g.tokens[m]?
  fibres : ∀ l < g.fibres.length, h.fibre l = checkedFibre s gang g.width k l (g.fibre l)

theorem checkToken_checked {s : State} {gang : List Nat} {g : Group} {t : Nat} {k : Token} (hk : g.tokens[t]? = some k) :
    Checked s gang g t k (checkToken s gang g t) := by
  by_cases hr : k.releases = true
  · rw [checkToken_frees hk hr]
    constructor
    case only => rw [Group.modFibres_only, Group.modFibres_only]; rfl
    case token => simp [Group.token_setToken _ hk, settledToken_eq, hr]
    case tokens => intro m hm; simp [Group.token_setToken_ne _ _ _ hm]
    case fibres =>
      intro l hl
      rw [Group.fibre_modFibres _ _ (Fibre.follow_follow s k.floor), Group.fibre_modFibres _ _ (Fibre.wake_wake s.clock)]
      by_cases hheld : l ∈ g.heldLanes k
      · have hin := Group.mem_heldLanes.1 hheld
        simp [checkedFibre, hr, hl, hheld, hin]
      · have hout := Group.mem_heldLanes.not.1 hheld
        simp [checkedFibre, hr, hl, hheld, hout]
  · rw [checkToken_stays hk hr]
    constructor
    case only => rfl
    case token => rw [hk, settledToken_eq, if_neg hr]
    case tokens => intro m _; rfl
    case fibres => intro l _; simp [checkedFibre, hr]

/-! ### The three words (R30, R156) -/

theorem waited_gangOnward (iss : Issue) (g : Group) (l : Nat) : ((gangOnward iss g).fibre l).waited = (g.fibre l).waited := by
  rw [advanced_gangOnward]
  split <;> rfl

/-- What a gang's slot waits have ordered is the same once the gang has gone on. -/
theorem joinToken_gangOnward (s : State) (iss : Issue) (g : Group) (lanes : List Nat) (k : Token) :
    joinToken s (gangOnward iss g) lanes k = { k with floor := joinedFloor s g lanes k.floor } := by
  simp only [joinToken, waited_gangOnward, joinedFloor]

/-- The token after a gang's fuse, before its check. -/
def fusedToken (s : State) (iss : Issue) (g : Group) (k : Token) : Token :=
  { k with held := if k.isOpen then k.held ||| (maskOf iss.lanes &&& k.expected) else k.held
           floor := joinedFloor s g (iss.lanes.filter fun l => k.isOpen && k.expected.getLsbD l) k.floor }

/-- The token after a gang's leave, before its check. -/
def leftToken (s : State) (iss : Issue) (g : Group) (k : Token) : Token :=
  { k with expected := k.expected &&& ~~~maskOf iss.lanes
           floor := joinedFloor s g (iss.lanes.filter fun l => k.expected.getLsbD l) k.floor }

/-- The word brings token n to j and checks it, once the gang has gone on. -/
def TurnsToken (i : Instr) (s : State) (iss : Issue) (g : Group) (n : Nat) (j : Token) : Prop :=
  ∃ turn : Group → Group, exec i s = .next (modGroup (advance s iss) iss.gid turn)
    ∧ turn (gangOnward iss g) = checkToken s iss.lanes ((gangOnward iss g).setToken n j) n

section
variable {c : Bool} {n : BitVec 4} {s : State} {iss : Issue} {g : Group} {k : Token}

theorem fuse_turns (hi : Issuing s iss g) (hk : g.tokens[n.toNat]? = some k) (hacc : Accepted (.fuse c n) iss g) :
    TurnsToken (.fuse c n) s iss g n.toNat (fusedToken s iss g k) := by
  obtain ⟨hissue, hgroup, -, -⟩ := hi
  have hk' : (gangOnward iss g).tokens[n.toNat]? = some k := by rw [tokens_gangOnward, hk]
  refine ⟨fun g => fuseToken s g n.toNat iss.lanes, guarded_of_accepted hissue hgroup hacc, ?_⟩
  simp only [fuseToken, hk', joinToken_gangOnward]
  rfl

theorem leave_turns (hi : Issuing s iss g) (hk : g.tokens[n.toNat]? = some k) (hacc : Accepted (.leave c n) iss g) :
    TurnsToken (.leave c n) s iss g n.toNat (leftToken s iss g k) := by
  obtain ⟨hissue, hgroup, -, -⟩ := hi
  have hk' : (gangOnward iss g).tokens[n.toNat]? = some k := by rw [tokens_gangOnward, hk]
  refine ⟨fun g => leaveToken s g n.toNat iss.lanes, guarded_of_accepted hissue hgroup hacc, ?_⟩
  simp only [leaveToken, hk', joinToken_gangOnward]
  rfl

/-- A word that turns its token leaves its group checked, and the rest of the state as it was. -/
theorem leads_of_turnsToken {i : Instr} {m : Nat} {j : Token} (hi : Issuing s iss g) (hk : g.tokens[m]? = some k)
    (hturn : TurnsToken i s iss g m j) :
    Leads i s iss fun t h => OnlyGroup iss.gid s t ∧ Checked s iss.lanes ((gangOnward iss g).setToken m j) m j h := by
  obtain ⟨-, hgroup, -, -⟩ := hi
  obtain ⟨turn, hexec, hcheck⟩ := hturn
  have hk' : (gangOnward iss g).tokens[m]? = some k := by rw [tokens_gangOnward, hk]
  refine ⟨_, turn (gangOnward iss g), hexec, ?_, ⟨rfl, fun q hq => ?_⟩, ?_⟩
  · rw [getGroup_modGroup_self, getGroup_advance hgroup]; rfl
  · rw [getGroup_modGroup, if_neg hq, advance_other s iss q hq]
  · rw [hcheck]; exact checkToken_checked (Group.token_setToken j hk')

theorem topen_leads (hi : Issuing s iss g) (hk : g.tokens[n.toNat]? = some k) (hheld : k.held = 0)
    (hacc : Accepted (.topen c n) iss g) : Leads (.topen c n) s iss fun t h => OnlyGroup iss.gid s t
      ∧ h = gangOnward iss (g.setToken n.toNat { isOpen := true, expected := maskOf iss.lanes, held := 0 }) := by
  obtain ⟨hissue, hgroup, -, -⟩ := hi
  have hexec : exec (.topen c n) s = .next (advance (setGroup s iss.gid (topenToken g n.toNat iss.lanes)) iss) := by
    have hrun : exec (.topen c n) s = _ := guarded_of_accepted hissue hgroup hacc
    rw [hrun]; simp only [hk, hheld]; rfl
  refine ⟨_, _, hexec, getGroup_advance (getGroup_setGroup_self s iss.gid _), ⟨rfl, fun q hq => ?_⟩, rfl⟩
  rw [advance_other _ iss q hq, getGroup_setGroup, if_neg hq]

theorem topen_traps (hi : Issuing s iss g) (hk : g.tokens[n.toNat]? = some k) (hheld : k.held ≠ 0)
    (hacc : Accepted (.topen c n) iss g) : Leads (.topen c n) s iss fun t h =>
      TrapJoined s t h iss.gid 0x04 iss.lanes ((wordOf (.topen c n)).setWidth 64) ∧ h = { g with stopping := true } := by
  obtain ⟨hissue, hgroup, -, -⟩ := hi
  have hexec : exec (.topen c n) s = .next (trapWord s iss 0x04 iss.lanes (wordOf (.topen c n))) := by
    have hrun : exec (.topen c n) s = _ := guarded_of_accepted hissue hgroup hacc
    rw [hrun]; simp only [hk, if_pos hheld]
  have hstop : (fibreStop s g && (4 == 0x14 || 4 == 0x15)) = false := by simp
  refine ⟨_, { g with stopping := true }, hexec, ?_, ⟨rfl, trapRecordOf g iss.gid 4 iss.lanes _, ?_, rfl, rfl, rfl, fun l hl => ?_⟩, rfl⟩
  · rw [trapWord, getGroup_takeTrap _ _ hgroup hstop, if_pos rfl]; simp
  · rw [trapWord, takeTrap_stops _ _ hgroup hstop]; rfl
  · show (maskOf iss.lanes).getLsbD l = _
    rw [maskOf_bit, List.contains_eq_mem, decide_eq_true hl, Bool.true_and]

end

/-- Settles O11: topen by its two cases, fuse and leave by the check of the token that each leaves (checkToken_checked). -/
theorem convergenceWords : Obligations.ConvergenceWords := by
  intro c n s iss g k hi hk _ _ gang turns
  have hgang : gang = maskOf iss.lanes := (maskOf_eq_fromBits iss.lanes).symm
  have turned : ∀ i j, (Accepted i iss g → TurnsToken i s iss g n.toNat j) → turns i j := by
    intro i j hturn hacc
    obtain ⟨t, h, hexec, hgroup, hrest, hchecked⟩ := leads_of_turnsToken hi hk (hturn hacc)
    refine ⟨t, h, hexec, hgroup, hrest, ?_, hchecked.token, fun m hm => ?_, fun l hl => ?_⟩
    · rw [hchecked.only, gangOnward_only]; rfl
    · rw [hchecked.tokens m hm, Group.token_setToken_ne _ _ _ hm, tokens_gangOnward]
    · have hfibre := hchecked.fibres l (by simpa using hl)
      have hgone := advanced_gangOnward iss g l
      simp only [hl, and_true] at hgone
      rw [Group.fibre_setToken, Group.width_setToken, width_gangOnward, hgone] at hfibre
      exact ⟨fun hfreed => hfibre.trans (checkedFibre_freed _ hfreed), fun hkept => hfibre.trans (checkedFibre_kept _ hkept)⟩
  refine ⟨fun hheld hacc => ?_, fun hheld hacc => topen_traps hi hk hheld hacc, ?_, ?_⟩
  · obtain ⟨t, h, hexec, hgroup, hrest, rfl⟩ := topen_leads hi hk hheld hacc
    refine ⟨t, _, hexec, hgroup, hrest, ?_, advanced_gangOnward iss _, ?_, fun m hm => ?_⟩
    · rw [gangOnward_only]; rfl
    · rw [tokens_gangOnward, Group.token_setToken _ hk, hgang]
    · rw [tokens_gangOnward, Group.token_setToken_ne _ _ _ hm]
  · rw [hgang]; exact turned _ _ (fuse_turns hi hk)
  · rw [hgang]; exact turned _ _ (leave_turns hi hk)

end Sys2Proof.Machine

/-! PROOFS. The cross-lane words (O6). -/

namespace Sys2Proof.Machine
open Sys2Proof.Stmt

/-! ### A latch history moves by one (R61) -/

theorem latchOf_pushLatch (b : Fibre) (first last : Nat) (v : Word) {k : Nat} (hk : k < 8) :
    Stmt.latchOf (pushLatch b first last v) k
      = if k = first then v else if first < k ∧ k ≤ last then Stmt.latchOf b (k - 1) else Stmt.latchOf b k := by
  simp [Stmt.latchOf, pushLatch, hk]

theorem latchValid_pushLatch (b : Fibre) (first last : Nat) (v : Word) {k : Nat} (hk : k < 8) :
    (pushLatch b first last v).latchValid.getLsbD k
      = if k = first then true
        else if first < k ∧ k ≤ last then b.latchValid.getLsbD (k - 1) else b.latchValid.getLsbD k := by
  simp only [pushLatch, foldBits_bit, hk, decide_true, Bool.true_and]

theorem historyShifted_pushVec (special : Bool) (b : Fibre) (v : Word) : HistoryShifted special b (pushVec special b v) := by
  have hpush : pushVec special b v = pushLatch b (if special then 4 else 0) (if special then 5 else 3) v := by cases special <;> rfl
  have hfirst : (if special then 4 else 0) ≤ if special then 5 else 3 := by cases special <;> decide
  have hlast : (if special then 5 else 3) < 8 := by cases special <;> decide
  unfold HistoryShifted
  rw [hpush]
  generalize (if special then 4 else 0) = first at hfirst ⊢
  generalize (if special then 5 else 3) = last at hfirst hlast ⊢
  refine ⟨(pushLatch_first b first last v (by omega)).2, fun k hlow hhigh => ?_, fun k hk hout => ?_⟩
  · have hk : k < 8 := by omega
    have hne : k ≠ first := by omega
    simp only [latchOf_pushLatch, latchValid_pushLatch, hk, hne, hlow, hhigh, if_false, if_true, and_self]
  · have hne : k ≠ first := by omega
    have hnot : ¬ (first < k ∧ k ≤ last) := by omega
    simp only [latchOf_pushLatch, latchValid_pushLatch, hk, hne, hnot, if_false, and_self]

/-- A fibre's latches after its part of an element: untouched by a word that writes pw, else moved by one. -/
def LatchMoved (f : VecForm) (b h : Fibre) : Prop :=
  if f.pbit then h.latch = b.latch ∧ h.latchValid = b.latchValid else HistoryShifted f.special b h

theorem latchMoved_elemFibre (f : VecForm) (b : Fibre) (x : List Word) (st : Status) : LatchMoved f b (elemFibre f b x st) := by
  rw [LatchMoved, elemFibre]
  split
  · exact ⟨rfl, rfl⟩
  · exact historyShifted_pushVec f.special b _

section
variable (f : VecForm) (out : Nat → Bool) (res : Nat → List Word) (st : Nat → Status)

theorem length_elemStep (g : Group) (l : Nat) : (elemStep f out res st g l).fibres.length = g.fibres.length := by
  rw [elemStep]
  split
  · exact latchExcluded_length g f l
  · exact writeVec_length g f l _ _

theorem fibre_elemStep_ne (g : Group) {l m : Nat} (hm : m ≠ l) : (elemStep f out res st g l).fibre m = g.fibre m := by
  rw [elemStep]
  split
  · simp [latchExcluded_fibre, hm]
  · simp [writeVec_fibre, hm]

theorem latchMoved_elemStep (g : Group) {l : Nat} (hl : l < g.fibres.length) :
    LatchMoved f (g.fibre l) ((elemStep f out res st g l).fibre l) := by
  rw [elemStep]
  split
  · rw [latchExcluded_fibre, LatchMoved]
    cases f.pbit
    · simpa [hl] using historyShifted_pushVec f.special (g.fibre l) _
    · simp
  · rw [writeVec_fibre, if_pos ⟨rfl, hl⟩]
    exact latchMoved_elemFibre f _ _ _

theorem fibre_elemFold_notMem {ls : List Nat} {l : Nat} (hl : l ∉ ls) (g : Group) :
    (ls.foldl (elemStep f out res st) g).fibre l = g.fibre l := by
  induction ls generalizing g with
  | nil => rfl
  | cons m ls ih =>
    rw [List.mem_cons, not_or] at hl
    rw [List.foldl_cons, ih hl.2, fibre_elemStep_ne _ _ _ _ _ hl.1]

/-- A gang that names each lane once moves each latch history once. -/
theorem latchMoved_elemFold {ls : List Nat} (hnodup : ls.Nodup) {l : Nat} (hl : l ∈ ls) (g : Group) (hlen : l < g.fibres.length) :
    LatchMoved f (g.fibre l) ((ls.foldl (elemStep f out res st) g).fibre l) := by
  induction ls generalizing g with
  | nil => cases hl
  | cons m ls ih =>
    obtain ⟨hm, hrest⟩ := List.nodup_cons.1 hnodup
    rw [List.foldl_cons]
    by_cases e : l = m
    · subst e
      rw [fibre_elemFold_notMem _ _ _ _ hm]
      exact latchMoved_elemStep f out res st g hlen
    · rw [← fibre_elemStep_ne f out res st g e]
      exact ih hrest (List.mem_of_ne_of_mem e hl) _ (by rwa [length_elemStep])

end

/-! ### The gang moves on after an element (R65, R67) -/

/-- The element that the gang does now completes its word. -/
def lastElement (iss : Issue) (g : Group) : Bool :=
  match iss.rep with
  | none => true
  | some r => decide (r.nr * r.nc ≤ repIndex iss g + 1)

/-- A fibre of the gang after an element: at the next chain, or at the next element of the rep word. -/
def Fibre.afterElement (iss : Issue) (g : Group) (b : Fibre) : Fibre :=
  if lastElement iss g then b.goOn iss.next else { b with progress := repIndex iss g + 1 }

theorem placeAfter_eq (iss : Issue) (g : Group) (l : Nat) :
    placeAfter iss g l = if lastElement iss g then (iss.next, 0) else ((g.fibre l).pc, repIndex iss g + 1) := by
  cases hrep : iss.rep <;> simp [placeAfter, lastElement, hrep]

theorem Fibre.afterElement_eq {iss : Issue} {g : Group} {b : Fibre} {l : Nat} (hpc : b.pc = (g.fibre l).pc) :
    b.afterElement iss g = { b with pc := (placeAfter iss g l).1, progress := (placeAfter iss g l).2 } := by
  rw [Fibre.afterElement, placeAfter_eq]
  split
  · rfl
  · rw [← hpc]

theorem Fibre.afterElement_afterElement (iss : Issue) (g : Group) (b : Fibre) :
    (b.afterElement iss g).afterElement iss g = b.afterElement iss g := by
  cases hlast : lastElement iss g <;> simp [Fibre.afterElement, hlast, Fibre.goOn]

theorem Fibre.wb_afterElement (iss : Issue) (g : Group) (b : Fibre) : (b.afterElement iss g).wb = b.wb := by
  rw [Fibre.afterElement]
  split <;> rfl

@[simp] theorem Group.regs_modFibres (g : Group) (ls : List Nat) (h : Fibre → Fibre) : (g.modFibres ls h).regs = g.regs := by
  rw [Group.modFibres_only]

@[simp] theorem Group.rows_modFibres (g : Group) (ls : List Nat) (h : Fibre → Fibre) : (g.modFibres ls h).rows = g.rows := by
  rw [Group.modFibres_only]

/-- The gang's group once an element that left it as h is done. -/
def elementOnward (iss : Issue) (g h : Group) : Group := h.modFibres iss.lanes (Fibre.afterElement iss g)

theorem fibre_elementOnward (iss : Issue) (g h : Group) (l : Nat) : (elementOnward iss g h).fibre l
    = if l ∈ iss.lanes ∧ l < h.fibres.length then (h.fibre l).afterElement iss g else h.fibre l :=
  h.fibre_modFibres iss.lanes (Fibre.afterElement_afterElement iss g) l

theorem reg_elementOnward (iss : Issue) (g h : Group) (l n : Nat) : (elementOnward iss g h).reg l n = h.reg l n := by
  have hwb : ((elementOnward iss g h).fibre l).wb = (h.fibre l).wb := by
    rw [fibre_elementOnward]
    split
    · exact Fibre.wb_afterElement iss g _
    · rfl
  have hrows : (elementOnward iss g h).rows = h.rows := h.rows_modFibres _ _
  have hregs : (elementOnward iss g h).regs = h.regs := h.regs_modFibres _ _
  rw [Group.reg, Group.cell, cellKey, hwb, hrows, hregs]
  rfl

/-- The forms that elementNow answers: the word's own, or that of an element that is left. -/
theorem elementNow_eq_some {iss : Issue} {g : Group} {f e : VecForm} (h : elementNow iss g f = some e) :
    (iss.rep = none ∧ e = f)
      ∨ ∃ r, iss.rep = some r ∧ repIndex iss g < r.nr * r.nc ∧ e = elementForm f r (repIndex iss g) := by
  unfold elementNow at h
  split at h
  · next hrep => cases h; exact .inl ⟨hrep, rfl⟩
  · next r hrep =>
    split at h
    · cases h
    · next hleft => cases h; exact .inr ⟨r, hrep, Nat.lt_of_not_le hleft, rfl⟩

section
variable {s : State} {iss : Issue} {g : Group} {f e : VecForm} {elem : VecForm → Group}

theorem runElements_of_none (h : elementNow iss g f = none) : runElements s iss g f elem = advance s iss := by
  cases hrep : iss.rep with
  | none => simp [elementNow, hrep] at h
  | some r =>
    have hdone : r.nr * r.nc ≤ repIndex iss g := by simpa [elementNow, hrep] using h
    simp only [runElements, hrep, if_pos hdone]

theorem elementOnward_of_last (h : lastElement iss g = true) : elementOnward iss g = gangOnward iss := by
  have hmove : Fibre.afterElement iss g = Fibre.goOn iss.next := by funext b; rw [Fibre.afterElement, if_pos h]
  funext k
  rw [elementOnward, hmove, gangOnward]

theorem elementOnward_of_more (h : lastElement iss g = false) :
    elementOnward iss g = fun k => k.modFibres iss.lanes fun b => { b with progress := repIndex iss g + 1 } := by
  have hmove : Fibre.afterElement iss g = fun b => { b with progress := repIndex iss g + 1 } := by
    funext b; rw [Fibre.afterElement, if_neg (by simp [h])]
  funext k
  rw [elementOnward, hmove]

theorem runElements_of_some (h : elementNow iss g f = some e) :
    runElements s iss g f elem = modGroup (setGroup s iss.gid (elem e)) iss.gid (elementOnward iss g) := by
  obtain ⟨hrep, rfl⟩ | ⟨r, hrep, hleft, rfl⟩ := elementNow_eq_some h
  · rw [elementOnward_of_last (by simp [lastElement, hrep])]
    simp only [runElements, hrep]
    rfl
  · simp only [runElements, hrep, if_neg (Nat.not_le_of_lt hleft)]
    split
    · next hlast =>
      rw [elementOnward_of_last (by simp [lastElement, hrep, hlast])]
      rfl
    · next hmore =>
      have hnot : ¬ r.nr * r.nc ≤ repIndex iss g + 1 := by omega
      rw [elementOnward_of_more (by simp [lastElement, hrep, hnot])]
      rfl

end

/-! ### What an accepted word's element may write (R23, R66, R76) -/

theorem elementNow_mem_formsOf {iss : Issue} {g : Group} {f e : VecForm} (h : elementNow iss g f = some e) : e ∈ formsOf iss f := by
  obtain ⟨hrep, rfl⟩ | ⟨r, hrep, hleft, rfl⟩ := elementNow_eq_some h
  · simp [formsOf, hrep]
  · simp only [formsOf, hrep]
    exact List.mem_map_of_mem (List.mem_range.2 hleft)

theorem elementNow_dsh {iss : Issue} {g : Group} {f e : VecForm} (h : elementNow iss g f = some e) : e.dsh = f.dsh := by
  obtain ⟨-, rfl⟩ | ⟨r, -, -, rfl⟩ := elementNow_eq_some h <;> rfl

theorem mem_participants {iss : Issue} {g : Group} {l : Nat} :
    l ∈ iss.participants g ↔ l ∈ iss.lanes ∧ iss.excluded (iss.sourceGroup g) l = false := by
  simp [Issue.participants]

theorem rangeFails_of_accepted {i : Instr} {iss : Issue} {g : Group} (h : Accepted i iss g) : rangeFails i iss g = [] := by
  unfold Accepted checkWord at h
  split at h
  · cases h
  · split at h
    · cases h
    · split at h
      · assumption
      · cases h

/-- Every participant's destination lies in its window. -/
theorem destination_fits {i : Instr} {f e : VecForm} {s : State} {iss : Issue} {g : Group} (hi : Issuing s iss g)
    (hacc : Accepted i iss g) (hf : vecForm i = some f) (he : elementNow iss g f = some e) {l : Nat} (hl : l ∈ iss.participants g)
    (hnw : e.nw = false) (hp : e.pbit = false) : (g.fibre l).wb + e.d + e.dsh.count ≤ g.rows := by
  obtain ⟨-, -, hrows, hwb⟩ := hi
  have hfails := rangeFails_of_accepted hacc
  simp only [rangeFails, hf, List.filter_eq_nil_iff] at hfails
  have hform : formInRange (iss.sourceGroup g) iss e l = true := by
    by_contra hbad
    exact hfails l hl (List.any_eq_true.2 ⟨e, elementNow_mem_formsOf he, by simpa using hbad⟩)
  simp only [formInRange, hnw, hp, Bool.false_or, Bool.and_eq_true, Group.inRange, decide_eq_true_eq, hrows, hwb] at hform
  exact hform.1.1.2

/-! ### From the gang's group to the state (R118) -/

/-- An element done for the lanes of a gang, each once, leaves the state as R118 says. -/
theorem elementDone_of_elemDone {s : State} {iss : Issue} {g h : Group} {e : VecForm} {res : Nat → List Word} {st : Nat → Status}
    {ls : List Nat} (hls : ∀ l, l ∈ ls ↔ l ∈ iss.lanes) (hdone : ElemDone g e (iss.excluded (iss.sourceGroup g)) res st ls h)
    (hmoved : ∀ l ∈ ls, l < g.fibres.length → LatchMoved e (g.fibre l) (h.fibre l)) :
    ElementDone s iss g e res st (modGroup (setGroup s iss.gid h) iss.gid (elementOnward iss g)) (elementOnward iss g h) := by
  refine ⟨⟨rfl, fun k hk => ?_⟩, ?_, fun l hl hnw hp k hk => ?_, fun key hkey => ?_, fun l hl => ?_, fun l hl hlen => ?_⟩
  · rw [getGroup_modGroup, if_neg hk, getGroup_setGroup, if_neg hk]
  · rw [elementOnward, Group.modFibres_only, hdone.only]
  · obtain ⟨hlane, hin⟩ := mem_participants.1 hl
    rw [reg_elementOnward]
    exact hdone.written hnw hp l ((hls l).2 hlane) hin k hk
  · rw [elementOnward, Group.regs_modFibres]
    refine hdone.kept key fun l hl hin hnw hp k hk hcell => hkey ?_
    exact ⟨hnw, hp, l, mem_participants.2 ⟨(hls l).1 hl, hin⟩, k, hk, hcell⟩
  · rw [fibre_elementOnward, if_neg fun hin => hl hin.1, hdone.others l ((hls l).not.2 hl)]
  · have hmem := (hls l).2 hl
    have hfibre := hdone.fibres l hmem hlen
    have hpc : (h.fibre l).pc = (g.fibre l).pc := by rw [hfibre]
    have honward : (elementOnward iss g h).fibre l
        = { h.fibre l with pc := (placeAfter iss g l).1, progress := (placeAfter iss g l).2 } := by
      rw [fibre_elementOnward, if_pos ⟨hl, by rwa [hdone.length]⟩, Fibre.afterElement_eq hpc]
    have hlatched := hdone.latched l hmem hlen
    have hmove := hmoved l hmem hlen
    rw [LatchMoved] at hmove
    rw [honward]
    refine ⟨by rw [hfibre], ?_⟩
    split
    · next hp => rwa [if_pos hp] at hmove
    · next hp =>
      rw [if_neg hp] at hmove hlatched
      refine ⟨hmove, fun hin => ?_⟩
      have hfirst := hlatched.2 hin
      rw [VecForm.firstLatch] at hfirst
      simp only [Stmt.latchOf, hfirst, Option.getD_some]

/-! ### Scans and reductions (R144) -/

/-- The value that stands before the combination of further values: none before the first participant. -/
def running (op mode : Nat) : List Word → Option Word
  | [] => none
  | x :: rest => some (combined op mode (x :: rest))

/-- A participant's value combined with what stands before it. -/
def combineNext (op mode : Nat) (s : Option Word) (x : Word) : Word × Status :=
  match s with
  | none => canonWord op x
  | some v => combine op mode v x

theorem scanFrom_cons (op mode l : Nat) (s : Option Word) (x : Word) (rest : List (Nat × Word)) :
    scanFrom op mode s ((l, x) :: rest)
      = ((l, s.getD (crossIdentity op), (combineNext op mode s x).1) :: (scanFrom op mode (some (combineNext op mode s x).1) rest).1,
          (combineNext op mode s x).2.or (scanFrom op mode (some (combineNext op mode s x).1) rest).2) := by
  cases s <;> rfl

theorem running_getD (op mode : Nat) (ws : List Word) : (running op mode ws).getD (crossIdentity op) = combined op mode ws := by
  cases ws <;> rfl

theorem combined_concat (op mode : Nat) (ws : List Word) (x : Word) :
    combined op mode (ws ++ [x]) = (combineNext op mode (running op mode ws) x).1 := by
  cases ws with
  | nil => rfl
  | cons w ws => simp only [List.cons_append, combined, List.foldl_append, running, combineNext]; rfl

theorem running_concat (op mode : Nat) (ws : List Word) (x : Word) :
    running op mode (ws ++ [x]) = some (combineNext op mode (running op mode ws) x).1 := by
  rw [← combined_concat]
  cases ws <;> rfl

/-- The fold that keeps the status bits beside the value combines the same values. -/
theorem combinedFold_fst (op mode : Nat) (ws : List Word) (a : Word × Status) :
    (ws.foldl (fun (acc : Word × Status) y => ((combine op mode acc.1 y).1, acc.2.or (combine op mode acc.1 y).2)) a).1
      = ws.foldl (fun acc y => (combine op mode acc y).1) a.1 := by
  induction ws generalizing a with
  | nil => rfl
  | cons w ws ih => rw [List.foldl_cons, ih]; rfl

theorem combinedStatus_concat (op mode : Nat) (ws : List Word) (x : Word) :
    combinedStatus op mode (ws ++ [x]) = (combinedStatus op mode ws).or (combineNext op mode (running op mode ws) x).2 := by
  cases ws with
  | nil => simp [combinedStatus, Status.or, combineNext, running]
  | cons w ws =>
    simp only [List.cons_append, combinedStatus, List.foldl_append, List.foldl_cons, List.foldl_nil, combinedFold_fst, running, combineNext]
    rfl

theorem Status.or_assoc (a b c : Status) : (a.or b).or c = a.or (b.or c) := by
  simp [Status.or, Bool.or_assoc]

theorem Status.empty_or (a : Status) : ({} : Status).or a = a := by
  simp [Status.or]

theorem scanFrom_status (op mode : Nat) (ws : List Word) (xs : List (Nat × Word)) :
    (combinedStatus op mode ws).or (scanFrom op mode (running op mode ws) xs).2 = combinedStatus op mode (ws ++ xs.map Prod.snd) := by
  induction xs generalizing ws with
  | nil => simp [scanFrom, Status.or]
  | cons x rest ih =>
    rw [scanFrom_cons, ← Status.or_assoc, ← combinedStatus_concat, ← running_concat, ih]
    simp

/-- The participants of lower index than the next one are those combined before it. -/
theorem lanesBelow_split {before rest : List (Nat × Word)} {x : Nat × Word}
    (h : (before ++ x :: rest).Pairwise fun a b => a.1 < b.1) :
    (before ++ x :: rest).filter (fun y => decide (y.1 < x.1)) = before
      ∧ (before ++ x :: rest).filter (fun y => decide (y.1 ≤ x.1)) = before ++ [x] := by
  obtain ⟨-, hrest, hbefore⟩ := List.pairwise_append.1 h
  have hlow : ∀ y ∈ before, y.1 < x.1 := fun y hy => hbefore y hy x List.mem_cons_self
  have hhigh : ∀ y ∈ rest, x.1 < y.1 := (List.pairwise_cons.1 hrest).1
  have below : before.filter (fun y => decide (y.1 < x.1)) = before := List.filter_eq_self.2 fun y hy => by simp [hlow y hy]
  have upTo : before.filter (fun y => decide (y.1 ≤ x.1)) = before := List.filter_eq_self.2 fun y hy => by simp [(hlow y hy).le]
  have above : rest.filter (fun y => decide (y.1 < x.1)) = [] := List.filter_eq_nil_iff.2 fun y hy => by simp [(hhigh y hy).le]
  have beyond : rest.filter (fun y => decide (y.1 ≤ x.1)) = [] := List.filter_eq_nil_iff.2 fun y hy => by simp [hhigh y hy]
  simp [List.filter_append, below, upTo, above, beyond]

/-- Before each participant stand those of lower index combined, and after it those up to it. -/
theorem scanFrom_values (op mode : Nat) (before xs : List (Nat × Word)) (h : (before ++ xs).Pairwise fun a b => a.1 < b.1) :
    (scanFrom op mode (running op mode (before.map Prod.snd)) xs).1
      = xs.map fun x => (x.1, combined op mode (((before ++ xs).filter fun y => decide (y.1 < x.1)).map Prod.snd),
          combined op mode (((before ++ xs).filter fun y => decide (y.1 ≤ x.1)).map Prod.snd)) := by
  induction xs generalizing before with
  | nil => rfl
  | cons x rest ih =>
    obtain ⟨hbelow, hupTo⟩ := lanesBelow_split h
    have hassoc : before ++ x :: rest = (before ++ [x]) ++ rest := by simp
    have hrest := ih (before ++ [x]) (hassoc ▸ h)
    rw [List.map_append, List.map_singleton, running_concat] at hrest
    rw [scanFrom_cons, List.map_cons, hbelow, hupTo, running_getD, List.map_append, List.map_singleton, combined_concat, hrest, hassoc]

/-! ### What the cross-lane words compute (R143, R145) -/

/-- The lanes of participants' values ascend. -/
def Ascending (xs : List (Nat × Word)) : Prop := xs.Pairwise fun a b => a.1 < b.1

/-- A computation gives each participant l of xs the words r xs mode l, and all of them the status bits st xs mode. -/
def CrossGives (op : CrossOp) (r : List (Nat × Word) → Nat → Nat → List Word) (st : List (Nat × Word) → Nat → Status) : Prop :=
  ∀ xs mode, Ascending xs → op xs mode = (xs.map fun x => (x.1, r xs mode x.1), st xs mode)

/-- The status bits of a word's combinations, none for a word without an operator. -/
def crossStatus (i : Instr) (xs : List (Nat × Word)) (mode : Nat) : Status :=
  match scanOperator i with
  | some op => combinedStatus op mode (xs.map Prod.snd)
  | none => {}

/-- A scan from before the first participant: what stands before and after each of them, and the status bits of every combination. -/
theorem scanFrom_none (op mode : Nat) {xs : List (Nat × Word)} (hxs : Ascending xs) : scanFrom op mode none xs
    = (xs.map fun x => (x.1, combined op mode ((xs.filter fun y => decide (y.1 < x.1)).map Prod.snd),
        combined op mode ((xs.filter fun y => decide (y.1 ≤ x.1)).map Prod.snd)), combinedStatus op mode (xs.map Prod.snd)) := by
  have hstatus := scanFrom_status op mode [] xs
  rw [combinedStatus, Status.empty_or] at hstatus
  exact Prod.ext (scanFrom_values op mode [] xs hxs) hstatus

theorem scanIncOp_gives (op : Nat) : CrossGives (scanIncOp op)
    (fun xs mode l => [combined op mode ((xs.filter fun x => decide (x.1 ≤ l)).map Prod.snd)])
    (fun xs mode => combinedStatus op mode (xs.map Prod.snd)) := by
  intro xs mode hxs
  simp [scanIncOp, scanFrom_none op mode hxs]

theorem scanExcOp_gives (op : Nat) : CrossGives (scanExcOp op)
    (fun xs mode l => [combined op mode ((xs.filter fun x => decide (x.1 < l)).map Prod.snd)])
    (fun xs mode => combinedStatus op mode (xs.map Prod.snd)) := by
  intro xs mode hxs
  simp [scanExcOp, scanFrom_none op mode hxs]

/-- What stands after the last participant is every value combined. -/
theorem reduceOp_gives (op : Nat) : CrossGives (reduceOp op) (fun xs mode _ => [combined op mode (xs.map Prod.snd)])
    (fun xs mode => combinedStatus op mode (xs.map Prod.snd)) := by
  intro xs mode hxs
  rw [reduceOp, scanFrom_none op mode hxs]
  rcases List.eq_nil_or_concat' xs with rfl | ⟨init, last, rfl⟩
  · rfl
  · have hall := (lanesBelow_split hxs).2
    simp only [List.map_append, List.map_singleton, List.getLast?_concat, hall, toAll]

theorem nonzeroMask_eq (xs : List (Nat × Word)) : maskOf ((xs.filter fun x => x.2 != 0).map Prod.fst)
    = fromBits fun j => xs.any fun x => x.1 == j && x.2 != 0 := by
  rw [maskOf_eq_fromBits]
  congr 1
  funext j
  rw [Bool.eq_iff_iff, decide_eq_true_iff]
  simp [and_comm]

theorem testOp_gives {h : List Word → Bool} {p : List (Nat × Word) → Bool} (hp : ∀ xs, h (xs.map Prod.snd) = p xs) :
    CrossGives (testOp h) (fun xs _ _ => [if p xs then 1 else 0]) (fun _ _ => {}) := by
  intro xs mode _
  simp only [testOp, toAll, hp]

theorem nzmaskOp_gives : CrossGives nzmaskOp
    (fun xs _ _ =>
      let m := fromBits fun j => xs.any fun x => x.1 == j && x.2 != 0
      [m.extractLsb' 0 32, m.extractLsb' 32 32])
    (fun _ _ => {}) := by
  intro xs mode _
  simp only [nzmaskOp, nonzeroMask_eq]
  rfl

theorem lcntOp_gives : CrossGives lcntOp
    (fun xs _ l => [BitVec.ofNat 32 (xs.filter fun x => decide (x.1 < l) && x.2 != 0).length]) (fun _ _ => {}) :=
  fun _ _ _ => rfl

/-- All values equal the first one when every two are equal. -/
theorem all_eq_headD (ws : List Word) : (ws.all fun x => x == ws.headD 0) = ws.all fun x => ws.all fun y => x == y := by
  cases ws with
  | nil => rfl
  | cons w ws =>
    rw [Bool.eq_iff_iff]
    simp only [List.all_eq_true, beq_iff_eq, List.headD_cons]
    exact ⟨fun h x hx y hy => (h x hx).trans (h y hy).symm, fun h x hx => h x hx w List.mem_cons_self⟩

/-- The result of a cross-lane word has as many words as its destination. -/
theorem crossResult_length {i : Instr} {r : List (Nat × Word) → Nat → Nat → List Word} {f : VecForm} (h : crossResult i = some r)
    (hf : vecForm i = some f) (xs : List (Nat × Word)) (mode l : Nat) : (r xs mode l).length = f.dsh.count := by
  unfold crossResult at h
  split at h <;> cases h <;> cases hf <;> rfl

/-- Each cross-lane word runs a computation that gives the result of the tables and the status bits of its combinations. -/
theorem crossResult_runs {i : Instr} {r : List (Nat × Word) → Nat → Nat → List Word} (h : crossResult i = some r) :
    ∃ op, (∀ s, exec i s = runCross i s op) ∧ CrossGives op r (crossStatus i) := by
  unfold crossResult at h
  split at h <;> cases h
  · exact ⟨_, fun _ => rfl, testOp_gives fun xs => List.all_map⟩
  · exact ⟨_, fun _ => rfl, testOp_gives fun xs => List.any_map⟩
  · refine ⟨_, fun _ => rfl, testOp_gives fun xs => ?_⟩
    rw [all_eq_headD]
    simp only [List.all_map, Function.comp_def]
  · exact ⟨_, fun _ => rfl, nzmaskOp_gives⟩
  · exact ⟨_, fun _ => rfl, scanIncOp_gives _⟩
  · exact ⟨_, fun _ => rfl, scanExcOp_gives _⟩
  · exact ⟨_, fun _ => rfl, reduceOp_gives _⟩
  · exact ⟨_, fun _ => rfl, lcntOp_gives⟩

/-! ### The element of a cross-lane word (R143) -/

section
variable (iss : Issue) (g : Group) (e : VecForm)

/-- The participants' lanes and values. -/
def crossValues : List (Nat × Word) :=
  (iss.participants g).map fun l => (l, (readOperand (iss.sourceGroup g) iss l e.a).1.headD 0)

/-- What each participant reads, under its lane. -/
def crossReads : List (Nat × List Word × Bool) := (iss.participants g).map fun l => (l, readOperand (iss.sourceGroup g) iss l e.a)

/-- The rounding mode of the lowest participant (R145). -/
def crossMode : Nat := ((iss.participants g).head?.map fun l => roundingMode ((iss.sourceGroup g).fibre l)).getD 0

/-- The gang as crossElement treats it: the excluded fibres, then the participants. -/
def crossOrder : List Nat := (iss.lanes.filter fun l => iss.excluded (iss.sourceGroup g) l) ++ iss.participants g

theorem mem_crossOrder {l : Nat} : l ∈ crossOrder iss g ↔ l ∈ iss.lanes := by
  cases hout : iss.excluded (iss.sourceGroup g) l <;> simp [crossOrder, mem_participants, hout]

theorem nodup_crossOrder (h : iss.lanes.Nodup) : (crossOrder iss g).Nodup := by
  refine List.nodup_append'.2 ⟨h.filter _, h.filter _, fun l hout hin => ?_⟩
  have hnot := (mem_participants.1 hin).2
  simp [hnot] at hout

theorem ascending_crossValues (h : iss.lanes.Pairwise (· < ·)) : Ascending (crossValues iss g e) :=
  List.pairwise_map.2 (h.filter _)

/-- What was read for a participant is found again by its lane. -/
theorem find?_lane {α : Type} (h : Nat → α) {ls : List Nat} {l : Nat} (hl : l ∈ ls) :
    ((ls.map fun m => (m, h m)).find? fun y => y.1 == l) = some (l, h l) := by
  induction ls with
  | nil => cases hl
  | cons m ls ih =>
    by_cases e : m = l
    · simp [e]
    · simpa [e] using ih (List.mem_of_ne_of_mem (Ne.symm e) hl)

/-- The status bits of participant l: those of every combination, and LL for its own lost latch. -/
def crossLaneStatus (st : Status) (l : Nat) : Status := st.or { ll := (readOperand (iss.sourceGroup g) iss l e.a).2 }

theorem crossElement_start (op : CrossOp) : crossElement (iss.sourceGroup g) g iss e op
    = (op (crossValues iss g e) (crossMode iss g)).1.foldl (fun acc x =>
        writeVec acc e x.1 x.2 ((op (crossValues iss g e) (crossMode iss g)).2.or
          { ll := (((crossReads iss g e).find? fun y => y.1 == x.1).map fun y => y.2.2).getD false }))
        ((iss.lanes.filter fun l => iss.excluded (iss.sourceGroup g) l).foldl (fun acc l => latchExcluded acc e l) g) := by
  unfold crossElement crossValues crossMode crossReads Issue.participants
  simp only [List.map_map]
  cases iss.lanes.filter fun l => !iss.excluded (iss.sourceGroup g) l <;> rfl

/-- The gang in that order: the excluded fibres latch, then each participant is written. -/
theorem foldl_elemStep_crossOrder (res : Nat → List Word) (st : Nat → Status) :
    (crossOrder iss g).foldl (elemStep e (iss.excluded (iss.sourceGroup g)) res st) g
      = (iss.participants g).foldl (fun acc l => writeVec acc e l (res l) (st l))
          ((iss.lanes.filter fun l => iss.excluded (iss.sourceGroup g) l).foldl (fun acc l => latchExcluded acc e l) g) := by
  have hexcluded : ∀ acc : Group, ∀ l ∈ iss.lanes.filter fun l => iss.excluded (iss.sourceGroup g) l,
      elemStep e (iss.excluded (iss.sourceGroup g)) res st acc l = latchExcluded acc e l := fun _ _ hl =>
    if_pos (List.mem_filter.1 hl).2
  have hwritten : ∀ acc : Group, ∀ l ∈ iss.participants g,
      elemStep e (iss.excluded (iss.sourceGroup g)) res st acc l = writeVec acc e l (res l) (st l) := fun _ _ hl =>
    if_neg (by simp [(mem_participants.1 hl).2])
  rw [crossOrder, List.foldl_append, List.foldl_ext _ _ _ hexcluded, List.foldl_ext _ _ _ hwritten]

/-- A cross-lane element is an element like any other, with results that come from all participants. -/
theorem crossElement_eq {op : CrossOp} {r : List (Nat × Word) → Nat → Nat → List Word} {st : List (Nat × Word) → Nat → Status}
    (hop : CrossGives op r st) (h : iss.lanes.Pairwise (· < ·)) :
    crossElement (iss.sourceGroup g) g iss e op = (crossOrder iss g).foldl (elemStep e (iss.excluded (iss.sourceGroup g))
      (r (crossValues iss g e) (crossMode iss g)) (crossLaneStatus iss g e (st (crossValues iss g e) (crossMode iss g)))) g := by
  rw [crossElement_start, hop _ _ (ascending_crossValues iss g e h), foldl_elemStep_crossOrder, List.foldl_map]
  conv_lhs => rw [crossValues, List.foldl_map]
  refine List.foldl_ext _ _ _ fun acc l hl => ?_
  rw [crossLaneStatus, crossReads, find?_lane _ hl]
  rfl

end

/-- Settles O6: the computation gives each participant its result (crossResult_runs), and the element is then one like any other, done
once for each fibre of the gang. -/
theorem crossLaneWordEffect : Obligations.CrossLaneWordEffect := by
  intro i f s iss g r hi hacc hf hr hlanes _
  obtain ⟨op, hruns, hgives⟩ := crossResult_runs hr
  obtain ⟨hissue, hgroup, -, -⟩ := id hi
  have hexec : exec i s = .next (runElements s iss g f fun e => crossElement (iss.sourceGroup g) g iss e op) := by
    rw [hruns, runCross, guarded_of_accepted hissue hgroup hacc, hf]
  cases he : elementNow iss g f with
  | none =>
    rw [runElements_of_none he] at hexec
    exact ⟨_, _, hexec, getGroup_advance hgroup, rfl⟩
  | some e =>
    rw [runElements_of_some he] at hexec
    refine ⟨_, elementOnward iss g (crossElement (iss.sourceGroup g) g iss e op), hexec, by simp, ?_⟩
    have hnodup := nodup_crossOrder iss g hlanes.nodup
    rw [crossElement_eq iss g e hgives hlanes]
    refine elementDone_of_elemDone (fun l => mem_crossOrder iss g) (elemFold_done g e _ _ _ (fun l => ?_) _ fun l hl hin hnw hp => ?_)
      fun l hl hlen => latchMoved_elemFold e _ _ _ hnodup hl g hlen
    · rw [elementNow_dsh he]; exact crossResult_length hr hf _ _ l
    · exact destination_fits hi hacc hf he (mem_participants.2 ⟨(mem_crossOrder iss g).1 hl, hin⟩) hnw hp

end Sys2Proof.Machine
